-- ==== Sys2Proof/Word.lean ====
section
/-! DEFINITION. The word types of the CT418: the byte of every frame, the 48-bit Ethernet address and the few
quantities the manual gives a bit width (00_scope.md, "Conventions"). -/

namespace Sys2Proof

/-- One byte of a frame, as sent on the trunk or on Ethernet. -/
abbrev Byte := BitVec 8

/-- A 48-bit Ethernet address (R62). -/
abbrev Addr := BitVec 48

/-- The contents of one pool block: 1 to 256 payload bytes (R83, R85), or none for a transit block that only carries
its frame's queue entry. -/
abbrev Block := List Byte

end Sys2Proof
end

