-- ==== Sys2Proof/Syntax.lean ====
section
/-! DEFINITION. The commands of the CT418: one constructor of `Instr` for each row of spec/opcode_table.json, with the
operands that the row's rule gives the event or operation. `dt` is the time, in units of 10 ns, that passed between the
command before and this event; the expiry of a timer carries none, since the timer says when it falls. -/

namespace Sys2Proof

/-- One of the four coax segments (00_scope.md). -/
inductive Seg where
  | s0 | s1 | s2 | s3
  deriving DecidableEq, Repr, Inhabited

/-- The speed the PHY reports (R102). -/
inductive LinkSpeed where
  | mbps10 | mbps100
  deriving DecidableEq, Repr, Inhabited

/-- The polarity of an echo edge (R138). -/
inductive Polarity where
  | positive | negative
  deriving DecidableEq, Repr, Inhabited

/-- What the receive checker saw of a reply after its valid start delimiter (R9, R11, R12). -/
structure Reply where
  /-- the bytes between the delimiters, in the order received -/
  bytes : List Byte
  /-- one or more Manchester code violations came after the start delimiter -/
  violation : Bool
  /-- an end delimiter closed the reply (else its carrier fell) -/
  ended : Bool
  /-- bit cells of carrier from the end of the start delimiter to the reply's end -/
  cells : Nat
  deriving DecidableEq, Repr, Inhabited

/-- What the receive checker saw of a discovery slot (R53): nothing, one frame whose start delimiter fell in the slot,
or carrier of any other form. -/
inductive SlotLine where
  | quiet
  | frame (bytes : List Byte) (clean otherCarrier : Bool)
  | noise
  deriving DecidableEq, Repr, Inhabited

/-- One entry of a WRITE's field list: a field code and the bytes of its value (R209). -/
structure Field where
  code : Byte
  value : List Byte
  deriving DecidableEq, Repr, Inhabited

/-- The commands, in the order of spec/opcode_table.json. -/
inductive Instr where
  /-- power-up or the reset pin (R204) -/
  | coldStart
  /-- the PHY reports the link up, at a speed (R102) -/
  | linkUp (speed : LinkSpeed) (dt : Nat)
  /-- the PHY reports the link down (R101) -/
  | linkDown (dt : Nat)
  /-- a frame received whole: its bytes from the destination address to the frame check (R99) -/
  | uplinkFrameReceived (bytes : List Byte) (dt : Nat)
  /-- the transmission of the head frame ends (R96) -/
  | frameTransmitted (dt : Nat)
  /-- the pause repeat timer expires (R104) -/
  | pauseRepeat
  /-- the received pause hold runs out (R106) -/
  | pauseHoldEnd
  /-- a scheduler decision; `carrier` says whether the line is busy (R1, R25) -/
  | turnGrant (seg : Seg) (carrier : Bool) (dt : Nat)
  /-- carrier falls and the held master frame is sent (R1) -/
  | heldFrameStart (seg : Seg) (dt : Nat)
  /-- a broadcast DELIVER's end delimiter is sent (R21) -/
  | broadcastSent (seg : Seg)
  /-- a reply that began within the timeout ends (R11) -/
  | replyReceived (seg : Seg) (reply : Reply) (dt : Nat)
  /-- no start delimiter came within the reply timeout (R9) -/
  | replyTimeout (seg : Seg)
  /-- JABBER is declared on a reply (R12) -/
  | replyJabber (seg : Seg) (dt : Nat)
  /-- a station's refuse-backoff expires (R22) -/
  | backoffEnd (seg : Seg) (number : Nat)
  /-- carrier under 2 ms outside an exchange, or with no start delimiter in a reply window (R13) -/
  | noise (seg : Seg) (dt : Nat)
  /-- 2 ms of unbroken carrier outside an exchange (R13) -/
  | unattributedJabber (seg : Seg) (dt : Nat)
  /-- the floor in effect has elapsed and a cycle starts (R34) -/
  | cycleStart (seg : Seg)
  /-- a cycle without a visit ends 1 ms after its start (R34) -/
  | emptyCycleEnd (seg : Seg)
  /-- the discovery interval timer expires (R50) -/
  | discoveryIntervalExpiry (seg : Seg)
  /-- the hold at the head of the hold list takes the medium (R36, R37) -/
  | holdTakesMedium (seg : Seg) (carrier : Bool) (dt : Nat)
  /-- the 16 slots of a window end; `carrier` says whether the line is busy for a next DISCOVER (R53) -/
  | discoveryWindowEnd (seg : Seg) (slots : List SlotLine) (carrier : Bool)
  /-- a discovered terminal is forgotten (R58) -/
  | absentForget (seg : Seg) (number : Nat)
  /-- an idle DYNAMIC alias is withdrawn (R77) -/
  | aliasIdleWithdraw (seg : Seg) (number : Nat)
  /-- the cooldown timer expires (R120) -/
  | cooldownExpiry (seg : Seg)
  /-- the trial timer expires (R122) -/
  | trialExpiry (seg : Seg)
  /-- the line has been quiet for the quiet time (R136) -/
  | quietStretch (seg : Seg)
  /-- 50 ms passed without a quiet stretch (R136) -/
  | jabberLine (seg : Seg)
  /-- the DC conversion ends with a code (R137) -/
  | dcMeasurement (seg : Seg) (code : BitVec 10) (dt : Nat)
  /-- the next shot is launched (R138) -/
  | shotFire (seg : Seg)
  /-- an echo edge at a count (R138) -/
  | shotEcho (seg : Seg) (count : BitVec 12) (polarity : Polarity)
  /-- the capture counter reaches 4095 (R138) -/
  | shotNone (seg : Seg)
  /-- an open job is idle for the job idle time (R154) -/
  | idleClose (job : Byte)
  /-- an ending that waited for an exchange is applied (R161) -/
  | endingAfterExchange
  /-- the flushes for a newly written printer have ended (R146) -/
  | roleSet (printer : Nat)
  /-- a printer's busy retry timer expires (R173) -/
  | busyRetryExpiry (printer : Nat)
  /-- a LOST printer's hold timer expires (R179) -/
  | holdTimerExpiry (printer : Nat)
  /-- the holdoff runs out (R188, R189) -/
  | noticeHoldoff
  /-- the Agent takes and runs the request at the head of its queue (R194) -/
  | runRequest (dt : Nat)
  /-- READ (R196) -/
  | read (table index : Byte)
  /-- WRITE of any table (R197) -/
  | write (table index : Byte) (fields : List Field)
  /-- WRITE of the SETTINGS entry (R199) -/
  | writeSettings (index : Byte) (fields : List Field)
  /-- WRITE of a SEGMENT entry (R130) -/
  | writeSegment (index : Byte) (fields : List Field)
  /-- WRITE of the STATION table (R59) -/
  | writeStation (index : Byte) (fields : List Field)
  /-- WRITE of the ALIAS table (R80) -/
  | writeAlias (index : Byte) (fields : List Field)
  /-- WRITE of the PRINTER table (R146) -/
  | writePrinter (index : Byte) (fields : List Field)
  /-- DELETE of any table (R198) -/
  | delete (table index : Byte)
  /-- DELETE of the STATION table (R60) -/
  | deleteStation (index : Byte)
  /-- DELETE of the ALIAS table (R81) -/
  | deleteAlias (index : Byte)
  /-- DELETE of the PRINTER table (R147) -/
  | deletePrinter (index : Byte)
  /-- SEG_ENABLE (R125) -/
  | segEnable (seg : Byte)
  /-- SEG_DISABLE (R126) -/
  | segDisable (seg : Byte)
  /-- SEG_RESTORE (R127) -/
  | segRestore (seg : Byte)
  /-- SEG_PROBE (R134) -/
  | segProbe (seg : Byte)
  /-- SEG_DISCOVER (R51) -/
  | segDiscover (seg : Byte)
  /-- SEG_CLEAR_RECORD (R128) -/
  | segClearRecord (seg : Byte)
  /-- STATION_QUARANTINE (R47) -/
  | stationQuarantine (seg number : Byte)
  /-- STATION_RELEASE (R48) -/
  | stationRelease (seg number : Byte)
  /-- JOB_CANCEL (R162) -/
  | jobCancel (job : Byte)
  /-- JOB_REDIRECT (R163) -/
  | jobRedirect (job printer : Byte)
  /-- PRINTER_ENABLE (R165) -/
  | printerEnable (printer : Byte)
  /-- PRINTER_DISABLE (R164) -/
  | printerDisable (printer : Byte)
  /-- TAKE_EVENTS (R190) -/
  | takeEvents
  /-- COUNTERS_READ (R184) -/
  | countersRead (group : Byte)
  /-- COUNTERS_CLEAR (R184) -/
  | countersClear (group : Byte)
  /-- CONFIG_SAVE (R202) -/
  | configSave
  /-- the flash erase, write and read-back end; `ok` says whether the read-back matched (R202) -/
  | storeComplete (ok : Bool) (dt : Nat)
  /-- RESTART (R205) -/
  | restart
  /-- IDENT (R203) -/
  | ident
  /-- a valid start delimiter arrives (R9) -/
  | startDelimiterReceived (seg : Seg) (dt : Nat)
  /-- a second of uptime passes (R58) -/
  | uptimeSecond
  /-- carrier appears during a quiet check (R136) -/
  | quietStretchBroken (seg : Seg) (dt : Nat)
  deriving DecidableEq, Repr, Inhabited

end Sys2Proof
end

