-- ==== Sys2Proof/Decode.lean ====
section
/-! DEFINITION. The decoder of command words. spec/opcode_table.json gives no row any bits: the CT418 takes its commands
as events on its pins and as operations inside management frames (R208), which the machine reads where they arrive. -/

namespace Sys2Proof

/-- The command that a word of the opcode table spells: none, since no row of the table has bits (DEDUCED, log entry
44). -/
def decodeTableWord (_nbits _w : Nat) : Option Instr := none

end Sys2Proof
end

