-- ==== Sys2Proof/Config.lean ====
section
/-! DEFINITION. What is fixed for every CT418 (capacities, times that are no settings) and the free values: what the
manual leaves without a value. A free value has no body, so nothing can be proved of it but what holds for every
value. Times are counted in units of 10 ns, the TDR tick (R138), in which every time the manual names is a whole
number. -/

namespace Sys2Proof.Config

/-- Pool blocks (R83). -/
def poolBlocks : Nat := 2048
/-- Bytes in a block (R83). -/
def blockBytes : Nat := 256
/-- Frames on one downstream queue (R92). -/
def downQueueMax : Nat := 31
/-- Frames on the uplink queue (R95). -/
def uplinkQueueMax : Nat := 63
/-- Entries of the station table (R41). -/
def stationMax : Nat := 256
/-- Entries of the alias table (R64). -/
def aliasMax : Nat := 128
/-- Printer ids (R145). -/
def printerMax : Nat := 8
/-- Job records (R148). -/
def jobMax : Nat := 32
/-- Summaries of the finished list (R149). -/
def finishedMax : Nat := 16
/-- Entries of the event list (R186). -/
def eventMax : Nat := 32
/-- Entries of a recent-failures list (R116). -/
def recentMax : Nat := 8
/-- Numbers of a pending-duplicates list (R49). -/
def pendingDupMax : Nat := 32
/-- Requests of the Agent's queue (R192). -/
def requestMax : Nat := 4
/-- Failed delivery attempts that drop a frame (R21). -/
def deliverTries : Nat := 3
/-- Refusals that drop a frame (R22). -/
def refuseTries : Nat := 40
/-- The greatest coax payload (R1). -/
def payloadMax : Nat := 1024
/-- The minimum hold of an alias, in seconds (R74). -/
def aliasMinimumHold : Nat := 10

/-- 10 ns units in a microsecond. -/
def us : Nat := 100
/-- 10 ns units in a millisecond. -/
def ms : Nat := 100000
/-- 10 ns units in a second. -/
def sec : Nat := 100000000
/-- One bit cell of the 2 Mb/s trunk (R1). -/
def bitCell : Nat := 50

/-- FREE VALUE. What the 32-bit uptime count holds after 4294967295: the manual gives the count its width (R58,
Terms) and no rule for its end. -/
opaque uptimeAfterLast : BitVec 32

/-- FREE VALUE. Whether a timer's "seconds left" (R130, R181) counts a begun second, for the 10 ns units left. -/
opaque beganSecondCounts : Nat → Bool

/-- FREE VALUE. A job's 32-bit byte count (R148: 0 to 4294967295) when adding to it passes the end of its range: the
manual neither saturates nor wraps it. The arguments are the count and what is added. -/
opaque byteCountPastEnd : Nat → Nat → BitVec 32

end Sys2Proof.Config
end

