-- ==== Sys2Proof/Machine/State.lean ====
section
/-! DEFINITION. The state of the CT418: every table, queue, register, timer, counter and pin the manual gives it, as
plain data. `Dev` is the part; `State` is the part with the queue of waiting commands. A timer that runs is held as
the clock reading at which it expires; `none` is a stopped timer. -/

namespace Sys2Proof.Machine

open Sys2Proof

/-! ### Things there are four of -/

/-- One value for each coax segment. -/
structure Four (α : Type) where
  s0 : α
  s1 : α
  s2 : α
  s3 : α
  deriving DecidableEq, Repr

/-- The value of a segment. -/
def Four.get {α : Type} (f : Four α) : Seg → α
  | .s0 => f.s0
  | .s1 => f.s1
  | .s2 => f.s2
  | .s3 => f.s3

/-- The four with one segment's value replaced. -/
def Four.set {α : Type} (f : Four α) (g : Seg) (a : α) : Four α :=
  match g with
  | .s0 => { f with s0 := a }
  | .s1 => { f with s1 := a }
  | .s2 => { f with s2 := a }
  | .s3 => { f with s3 := a }

/-- The same value for each segment. -/
def Four.const {α : Type} (a : α) : Four α := ⟨a, a, a, a⟩

/-! ### Names the manual writes in capitals -/

/-- The causes of a failed exchange (R11, R112), in the order of R115. -/
inductive FailCause where
  | timeout | badCheck | badFrame | collision | jabber
  deriving DecidableEq, Repr

/-- How an exchange ended (R11). -/
inductive ExOutcome where
  | good
  | failed (c : FailCause)
  deriving DecidableEq, Repr

/-- The mark of a DELIVER, a DATA or a carrier frame (R4, R6). -/
inductive Mark where
  | more | last
  deriving DecidableEq, Repr

/-- A station's pending ack (R16). -/
inductive Ack where
  | none | ack | busy
  deriving DecidableEq, Repr

/-- The states of a station entry (R40). -/
inductive StationState where
  | present | slow | absent | quarantined | duplicate
  deriving DecidableEq, Repr

/-- Why a station is QUARANTINED (R40). -/
inductive QuarantineCause where
  | suspect | jabber | manager
  deriving DecidableEq, Repr

/-- How a station entry came to be (R40). -/
inductive Origin where
  | discovered | configured
  deriving DecidableEq, Repr

/-- The role of a station (R40). -/
inductive Role where
  | terminal | printer
  deriving DecidableEq, Repr

/-- The eight segment states (R109). -/
inductive SegState where
  | down | starting | active | strained | cooling | probing | trial | latched
  deriving DecidableEq, Repr

/-- The three requesters of a Turn Scheduler (R24). -/
inductive Requester where
  | deliver | feed | poll
  deriving DecidableEq, Repr

/-- What may hold the medium (R36, R37). -/
inductive Hold where
  | discovery | probe
  deriving DecidableEq, Repr

/-- The states of a discovery pass (R49). -/
inductive PassState where
  | idle | due | level0 | level1
  deriving DecidableEq, Repr

/-- The reading of a discovery slot (R53). -/
inductive SlotReading where
  | empty
  | clean (number : Nat)
  | garbled
  deriving DecidableEq, Repr

/-- The states of a Line Probe (R131). -/
inductive ProbePhase where
  | idle | waiting | quietCheck | dcMeasure | shots
  deriving DecidableEq, Repr

/-- Who asked for a probe (R133). -/
inductive Trigger where
  | start | retry | manual
  deriving DecidableEq, Repr

/-- How a probe ended (R143). -/
inductive ProbeOutcome where
  | pass | fail | aborted
  deriving DecidableEq, Repr

/-- The quiet verdict (R136). -/
inductive QuietVerdict where
  | quiet | jabberLine
  deriving DecidableEq, Repr

/-- The DC verdict (R137). -/
inductive DcVerdict where
  | low | ok | high
  deriving DecidableEq, Repr

/-- The echo class (R140). -/
inductive EchoClass where
  | openLine | openEnd | short | none | unstable
  deriving DecidableEq, Repr

/-- The states a segment may have tripped in, and gone to (R129). -/
inductive TripFrom where
  | active | strained | trial
  deriving DecidableEq, Repr

/-- Where a trip took the segment (R129). -/
inductive WentTo where
  | cooling | latched
  deriving DecidableEq, Repr

/-- The kinds of an alias (R64). -/
inductive AliasKind where
  | static | dynamic
  deriving DecidableEq, Repr

/-- The states of an alias (R64). -/
inductive AliasState where
  | active | conflict
  deriving DecidableEq, Repr

/-- The party an alias stands for (R64). -/
inductive Target where
  | ethernet (a : Addr)
  | station (seg : Seg) (number : Nat)
  deriving DecidableEq, Repr

/-- The sender of a job's units (R148). -/
inductive Source where
  | coax (seg : Seg) (number : Nat)
  | ethernet (a : Addr)
  deriving DecidableEq, Repr

/-- The working states of a job (R148). -/
inductive JobState where
  | filling | queued | active
  deriving DecidableEq, Repr

/-- Why a job FAILED (R149). -/
inductive FailReason where
  | sourceLost | printerLost | restart
  deriving DecidableEq, Repr

/-- The terminal outcomes of a job (R149). -/
inductive JobOutcome where
  | done
  | cancelled
  | failed (r : FailReason)
  deriving DecidableEq, Repr

/-- The feed states of a printer (R169). -/
inductive FeedState where
  | idle | feeding | waitReady | stalled | lost | disabled
  deriving DecidableEq, Repr

/-- The drop causes of a segment, in the order of R182. -/
inductive SegDrop where
  | duplicate | blockedSource | sourceUnknown | toBridge | unknownDest | unreachable | blocked | segDown
  | aliasExhausted | linkDown | printRefused | deliverFailed | deliverRefused | flushed | broadcastWithheld
  deriving DecidableEq, Repr

/-- The drop causes of the uplink, in the order of R182. -/
inductive UpDrop where
  | unknownDest | unreachable | blocked | segDown | aliasExhausted | badSource | badCarrier | queueFull | poolEmpty
  | linkDown | notAdmitted
  deriving DecidableEq, Repr

/-- The counters of a segment group (R182). -/
inductive SegCounter where
  | good
  | failure (c : FailCause)
  | noise | framesIn | framesOut
  | drop (c : SegDrop)
  | passes | trips
  deriving DecidableEq, Repr

/-- The counters of the uplink group (R182). -/
inductive UpCounter where
  | framesIn | framesOut | crc | runt | long | other
  | drop (c : UpDrop)
  | pausesSent | pausesReceived
  deriving DecidableEq, Repr

/-- The counters of the spool group (R182). -/
inductive SpoolCounter where
  | accepted | refused | done | cancelled | failed
  deriving DecidableEq, Repr

/-- A counter id: its group and its counter (R182). -/
inductive CounterId where
  | seg (g : Seg) (c : SegCounter)
  | uplink (c : UpCounter)
  | spool (c : SpoolCounter)
  deriving DecidableEq, Repr

/-- The event kinds, in the order of R185. -/
inductive EventKind where
  | segTrip | segLatched | printerLost | linkDown | storeFailed
  | segWarn | stationDuplicate | stationSuspect | stationJabber | stationTableFull | aliasConflict | aliasExhausted
  | poolLow | printerStalled | jobFailed | configDefaulted
  | segRelieved | segRestored | probeDone | stationNew | stationAbsent | linkUp | counterHalf | storeDone | coldStart
  | restarted
  deriving DecidableEq, Repr

/-- The subject of an event (R185). -/
inductive Subject where
  | none
  | segment (g : Seg)
  | station (g : Seg) (number : Nat)
  | printer (id : Nat)
  | job (id : Nat)
  | counter (c : CounterId)
  deriving DecidableEq, Repr

/-! ### Settings -/

/-- A broadcast reach set (R71). -/
structure Reach where
  segs : Four Bool
  uplink : Bool
  deriving DecidableEq, Repr

/-- The settings that serve the whole part: the writable fields of the SETTINGS entry (R199). Times stand in the unit
of their setting. -/
structure Settings where
  /-- R62 -/
  base : Addr
  /-- R86 -/
  coaxFloor : Nat
  /-- R87 -/
  transitReserve : Nat
  /-- R87 -/
  spoolQuota : Nat
  /-- R107 -/
  carrierType : BitVec 16
  /-- R107 -/
  mgmtType : BitVec 16
  /-- R103 -/
  pauseOn : Nat
  /-- R103 -/
  pauseOff : Nat
  /-- R104 -/
  pauseQuanta : Nat
  /-- R58, seconds -/
  absentForget : Nat
  /-- R77, seconds -/
  aliasIdle : Nat
  /-- R71 -/
  uplinkReach : Reach
  /-- R157, seconds -/
  jobIdle : Nat
  /-- R157 -/
  streamBlocks : Nat
  /-- R188 -/
  noticeAddr : Addr
  /-- R188 -/
  noticeBatch : Nat
  /-- R188, ms -/
  noticeHoldoff : Nat
  /-- R188: bit (code - 1) is set for a masked kind (R209) -/
  noticeMask : BitVec 32
  /-- R192, first entry -/
  manager0 : Addr
  /-- R192, second entry -/
  manager1 : Addr
  deriving DecidableEq, Repr

/-- The settings held in a segment's SEGMENT entry, with its enabled field (R130). -/
structure SegSettings where
  /-- R9, µs -/
  replyTimeout : Nat
  /-- R24, ms -/
  urgentAge : Nat
  /-- R24, ms: the written cycle floor -/
  cycleFloor : Nat
  /-- R49, s -/
  discoveryInterval : Nat
  /-- R49, µs -/
  slotTime : Nat
  /-- R66 -/
  aliasLow : Nat
  /-- R66 -/
  aliasHigh : Nat
  /-- R71 -/
  reach : Reach
  /-- R115 -/
  wTimeout : Nat
  /-- R115 -/
  wBadCheck : Nat
  /-- R115 -/
  wBadFrame : Nat
  /-- R115 -/
  wCollision : Nat
  /-- R115 -/
  wJabber : Nat
  /-- R115: D -/
  drain : Nat
  /-- R115: L -/
  relieve : Nat
  /-- R115: W -/
  warn : Nat
  /-- R115: T -/
  trip : Nat
  /-- R115: Q -/
  preset : Nat
  /-- R118 -/
  retryLimit : Nat
  /-- R120, s -/
  cooldown : Nat
  /-- R122, s -/
  trialTime : Nat
  /-- R130 -/
  enabled : Bool
  /-- R132, ms -/
  quietTime : Nat
  /-- R132 -/
  dcLow : Nat
  /-- R132 -/
  dcHigh : Nat
  /-- R132: k -/
  shotExponent : Nat
  /-- R132 -/
  blankCount : Nat
  /-- R132 -/
  launchOffset : Nat
  /-- R132: K -/
  coefficient : Nat
  /-- R132: Lm -/
  segmentLength : Nat
  deriving DecidableEq, Repr

/-! ### The Station Directory and the Alias Translator -/

/-- A station entry (R40). `eid` is the model's own name of the entry, never given again: it tells an entry from a later
one of the same segment and number (R15, R19, R33). -/
structure Station where
  eid : Nat
  seg : Seg
  number : Nat
  state : StationState
  /-- present only while QUARANTINED -/
  cause : Option QuarantineCause
  origin : Origin
  role : Role
  weight : Nat
  tap : Option Nat
  misses : Nat
  dupStrikes : Nat
  jabStrikes : Nat
  /-- last accepted sequence bit, or NONE -/
  lastSeq : Option Bool
  pendingAck : Ack
  /-- next downstream sequence bit -/
  nextBit : Bool
  lastHeard : Option Nat
  /-- present only while ABSENT -/
  absentSince : Option Nat
  deriving DecidableEq, Repr

/-- An alias entry (R64). -/
structure AliasEntry where
  seg : Seg
  number : Nat
  kind : AliasKind
  target : Target
  state : AliasState
  lastUsed : Nat
  created : Nat
  deriving DecidableEq, Repr

/-! ### The Block Pool Manager and the Forwarding Engine -/

/-- The counts of the Block Pool Manager (R83). -/
structure Pool where
  free : Nat
  transit : Nat
  spool : Nat
  deriving DecidableEq, Repr

/-- A frame on a downstream queue (R92). Its payload length is that of its blocks. `fid` is the model's own name of the
frame. -/
structure DownFrame where
  fid : Nat
  /-- a station number, or 255 for a broadcast -/
  dest : Nat
  fromNum : Nat
  mark : Mark
  blocks : List Block
  /-- the clock at which it joined the queue -/
  enqueued : Nat
  failed : Nat
  refused : Nat
  flushMark : Bool
  deriving DecidableEq, Repr

/-- The kinds of frame that join the uplink queue (R95). -/
inductive UpKind where
  | carrierData | spoolAck | response | notice
  deriving DecidableEq, Repr

/-- A frame on the uplink queue, addressed and complete but for padding and frame check (R95, R96). A carrier DATA keeps
its payload in its blocks. -/
structure UpFrame where
  kind : UpKind
  dst : Addr
  src : Addr
  etherType : BitVec 16
  /-- what follows the type, but for a carrier DATA's payload -/
  body : List Byte
  blocks : List Block
  deriving DecidableEq, Repr

/-- The two pause frames the part sends: one asks for the pause quanta as they stand when it is sent, one for 0 (R103,
R104). -/
inductive PauseKind where
  | ask | release
  deriving DecidableEq, Repr

/-- The Uplink MAC and the Forwarding Engine's pause state (R96, R101 to R106). -/
structure Uplink where
  /-- the link state: UP -/
  link : Bool
  speed : LinkSpeed
  /-- the receiver is enabled (R99) -/
  rxEnabled : Bool
  /-- the received pause hold, while one runs (R106) -/
  hold : Option Nat
  queue : List UpFrame
  /-- a frame is being transmitted: the head of the queue, but where `leaving` stands -/
  txBusy : Bool
  /-- the frame being transmitted is on the queue no longer: a warm restart has emptied it (R96, R108) -/
  leaving : Bool
  /-- the pause state is ON (R103) -/
  pauseOn : Bool
  /-- the pause repeat timer (R104) -/
  repeatTimer : Option Nat
  /-- pause frames that wait for the frame being transmitted to end (R96) -/
  pauseDue : List PauseKind
  /-- what the MAC last began to send: every byte from the destination address to the frame check (the MODEL's own) -/
  portOut : List Byte
  deriving DecidableEq, Repr

/-! ### A segment's own blocks -/

/-- A recent failure (R116). -/
structure Failure where
  number : Nat
  cause : FailCause
  time : Nat
  deriving DecidableEq, Repr

/-- A probe result record (R143). -/
structure ProbeRecord where
  uptime : Nat
  trigger : Trigger
  outcome : ProbeOutcome
  quiet : Option QuietVerdict
  dcCode : Option Nat
  dcVerdict : Option DcVerdict
  fired : Nat
  /-- p, n and z, absent where the probe did not come to its shots -/
  positives : Option Nat
  negatives : Option Nat
  nones : Option Nat
  average : Option Nat
  echo : Option EchoClass
  distance : Option Nat
  near : Bool
  tapBefore : Option Nat
  tapAfter : Option Nat
  deriving DecidableEq, Repr

/-- The isolation record (R129). -/
structure IsolationRecord where
  uptime : Nat
  fromState : TripFrom
  strain : Nat
  run : Nat
  lastCause : Option FailCause
  recent : List Failure
  dominant : Option Nat
  attempts : Nat
  wentTo : WentTo
  probe : Option ProbeRecord
  tripsSince : Nat
  deriving DecidableEq, Repr

/-- A Line Monitor (R109, R110). -/
structure Monitor where
  state : SegState
  strain : Nat
  run : Nat
  peak : Nat
  attempts : Nat
  lastCause : Option FailCause
  cooldownTimer : Option Nat
  trialTimer : Option Nat
  /-- oldest first -/
  recent : List Failure
  record : Option IsolationRecord
  deriving DecidableEq, Repr

/-- A visit of the plan snapshot, with its place in the cycle (R31, R33). -/
structure Visit where
  eid : Nat
  number : Nat
  subRound : Nat
  pass : Nat
  deriving DecidableEq, Repr

/-- The current cycle (R34): none (out of service), running with the visits still to make, running without a visit, or
ended and waiting for the floor. -/
inductive Cycle where
  | none
  | running (visits : List Visit)
  | empty
  | ended
  deriving DecidableEq, Repr

/-- The item bound to a turn (R25, R30). -/
inductive TurnItem where
  | deliver (fid : Nat)
  | feed (printer : Nat) (jobSerial : Nat)
  | poll (eid : Nat)
  deriving DecidableEq, Repr

/-- The exchange in progress (R9): whom its master frame addressed, what R10 and R111 need of it, and its reply
window. -/
structure Exchange where
  number : Nat
  /-- the addressed station's entry, if it had one -/
  eid : Option Nat
  seq : Bool
  /-- the station was SLOW when the exchange began (R111) -/
  wasSlow : Bool
  /-- the mark of a feed item (R171) -/
  mark : Mark
  /-- the feed item is the zero-length end (R171) -/
  zeroEnd : Bool
  /-- the clock at which the master frame's end delimiter ends and the reply window opens -/
  sentAt : Nat
  /-- the clock at which the reply timeout runs out -/
  deadline : Nat
  /-- a valid start delimiter has come in time -/
  delimiter : Bool
  deriving DecidableEq, Repr

/-- How far a turn has come (R30). -/
inductive TurnPhase where
  /-- the master frame waits for the carrier to fall (R1) -/
  | held
  /-- a unicast exchange is in flight -/
  | exchange (x : Exchange)
  /-- a broadcast DELIVER is being sent, to end at a clock reading -/
  | broadcast (sentAt : Nat)
  deriving DecidableEq, Repr

/-- A turn in progress (R25). -/
structure Turn where
  item : TurnItem
  phase : TurnPhase
  deriving DecidableEq, Repr

/-- A Turn Scheduler (R24). -/
structure Scheduler where
  rotation : Requester
  feedPtr : Nat
  cycle : Cycle
  cycleCount : Nat
  cycleStart : Option Nat
  /-- ms -/
  floorInEffect : Nat
  /-- holds waiting for the medium, in the order asked -/
  holds : List Hold
  /-- the hold that has the medium -/
  medium : Option Hold
  turn : Option Turn
  deriving DecidableEq, Repr

/-- A running discovery pass (R49, R52 to R54). -/
structure PassRun where
  /-- µs, as the segment's setting stood when the pass began -/
  slotTime : Nat
  /-- the prefix of the window in hand, or none at level 0 -/
  group : Option Nat
  /-- prefixes of the level-1 windows still to come -/
  groupsLeft : List Nat
  /-- the DISCOVER of the window in hand waits for the carrier to fall (R1) -/
  held : Bool
  /-- the clock at which the window's slots begin -/
  slotsFrom : Nat
  /-- the readings of the windows that have ended, with their prefixes, in order -/
  readings : List (Option Nat × List SlotReading)
  deriving DecidableEq, Repr

/-- A segment's discovery engine (R49). -/
structure Discovery where
  pass : PassState
  intervalTimer : Option Nat
  run : Option PassRun
  pendingDup : List Nat
  deriving DecidableEq, Repr

/-- A shot's record (R138). -/
inductive Shot where
  | edge (p : Polarity) (count : Nat)
  | none
  deriving DecidableEq, Repr

/-- The settings a probe keeps from the start of its quiet check to its end (R132). -/
structure ProbeParams where
  quietTime : Nat
  dcLow : Nat
  dcHigh : Nat
  shotExponent : Nat
  blankCount : Nat
  launchOffset : Nat
  coefficient : Nat
  segmentLength : Nat
  deriving DecidableEq, Repr

/-- A Line Probe (R131). -/
structure Probe where
  phase : ProbePhase
  trigger : Trigger
  /-- the probe has the medium through the hold list (R135) -/
  onHold : Bool
  params : ProbeParams
  checkStart : Nat
  stretchStart : Nat
  dcCode : Option Nat
  /-- the shots recorded, in order -/
  shots : List Shot
  /-- a pulse has been launched and the capture counter runs (R138) -/
  capturing : Bool
  /-- the clock of the last launch -/
  launched : Nat
  /-- the request that waits (R131) -/
  waitingReq : Option Trigger
  last : Option ProbeRecord
  deriving DecidableEq, Repr

/-- A station in refuse-backoff and the clock at which the backoff ends (R22). -/
structure Backoff where
  number : Nat
  ends : Nat
  deriving DecidableEq, Repr

/-- A coax segment: its settings, the blocks marked ×4 (00_scope.md), its downstream queue and its line. -/
structure Segment where
  cfg : SegSettings
  mon : Monitor
  sched : Scheduler
  disc : Discovery
  probe : Probe
  downq : List DownFrame
  backoffs : List Backoff
  /-- the transmit enable pin, raised for probe pulses too (R109, R135) -/
  txEnable : Bool
  /-- the last trunk frame sent, from its kind byte to its check (the MODEL's own) -/
  lineOut : List Byte
  deriving DecidableEq, Repr

/-! ### The Print Spooler and the Printer Feeder -/

/-- What the next FEED turn for a printer sends (R168, R171). -/
structure ReadyItem where
  /-- the zero-length end; otherwise the head block of the chain -/
  zeroEnd : Bool
  /-- the clock at which it became ready -/
  since : Nat
  deriving DecidableEq, Repr

/-- A printer entry (R145) with its feeding (R168). -/
structure Printer where
  seg : Seg
  number : Nat
  enabled : Bool
  jobLimit : Nat
  /-- s -/
  holdTime : Nat
  /-- ms -/
  busyRetry : Nat
  lostLimit : Nat
  feed : FeedState
  /-- LOST until the station's role is set (R168) -/
  awaitingRole : Bool
  ready : Option ReadyItem
  sentMark : Option Mark
  failCount : Nat
  busyTimer : Option Nat
  holdTimer : Option Nat
  disablePending : Bool
  deriving DecidableEq, Repr

/-- A job record (R148). `serial` is the job's place in the order of creation, which the Spooler keeps. -/
structure Job where
  serial : Nat
  id : Nat
  printer : Nat
  source : Source
  state : JobState
  isOpen : Bool
  chain : List Block
  received : Nat
  printed : Nat
  created : Nat
  lastArrival : Nat
  stamp : Option Nat
  deriving DecidableEq, Repr

/-- A summary of the finished list (R149). -/
structure Summary where
  id : Nat
  printer : Nat
  source : Source
  outcome : JobOutcome
  received : Nat
  printed : Nat
  ended : Nat
  deriving DecidableEq, Repr

/-- Who waits for the answer of an ending (R162): nobody, a request of the Agent, or a JOB_CANCEL given alone. -/
inductive Asker where
  | nobody | request | command
  deriving DecidableEq, Repr

/-- An ending that waits for an exchange (R161). -/
structure WaitingEnding where
  serial : Nat
  outcome : JobOutcome
  asker : Asker
  deriving DecidableEq, Repr

/-- The Print Spooler (R145, R148, R149). -/
structure Spooler where
  /-- indexed by printer id, 8 places -/
  printers : List (Option Printer)
  /-- in the order of their creation -/
  jobs : List Job
  finished : List Summary
  nextId : Nat
  stampCounter : Nat
  nextSerial : Nat
  /-- in the order in which they came -/
  endings : List WaitingEnding
  deriving DecidableEq, Repr

/-! ### The Event Unit -/

/-- A counter with its half flag (R182, R183). -/
structure Counter where
  value : Nat
  half : Bool
  deriving DecidableEq, Repr

/-- An entry of the event list (R186); its severity is that of its kind. -/
structure Event where
  kind : EventKind
  subject : Subject
  first : Nat
  repeats : Nat
  unsent : Bool
  deriving DecidableEq, Repr

/-- The Event Unit (R182, R186, R188, R189). -/
structure EventUnit where
  /-- 26 counters for each segment -/
  segCounters : Four (List Counter)
  /-- 19 counters -/
  upCounters : List Counter
  /-- 5 counters -/
  spoolCounters : List Counter
  /-- oldest first -/
  events : List Event
  lost : Nat
  /-- the clock at which the holdoff clock started, while it runs -/
  holdoff : Option Nat
  /-- the clock at which a notice was dropped, while it is held back -/
  heldBack : Option Nat
  noticeNumber : Nat
  deriving DecidableEq, Repr

/-! ### The Management Agent -/

/-- The statuses of operations (R194), in the order of their codes (R208). -/
inductive Status where
  | ok | clamped | noEntry | range | readOnly | inUse | wrongState | full | unknownOp | unknownTable
  deriving DecidableEq, Repr

/-- An operation of a request: its code and its arguments (R208). -/
structure Op where
  code : Byte
  args : List Byte
  deriving DecidableEq, Repr

/-- An operation's result (R208). -/
structure OpResult where
  code : Byte
  status : Status
  data : List Byte
  deriving DecidableEq, Repr

/-- An admitted request (R193). -/
structure Request where
  src : Addr
  tag : BitVec 16
  ops : List Op
  deriving DecidableEq, Repr

/-- The request in progress (R192, R194). -/
structure Running where
  src : Addr
  tag : BitVec 16
  /-- the results so far, in order -/
  results : List OpResult
  /-- the operations still to run -/
  rest : List Op
  /-- a JOB_CANCEL waits for its ending; its answer once it has one -/
  waiting : Bool
  answer : Option Status
  /-- a RESTART has been answered OK -/
  restart : Bool
  deriving DecidableEq, Repr

/-- The saved fields of a CONFIGURED station entry (R201). -/
structure SavedStation where
  seg : Seg
  number : Nat
  weight : Nat
  tap : Option Nat
  deriving DecidableEq, Repr

/-- The saved fields of a STATIC alias (R201). -/
structure SavedAlias where
  seg : Seg
  number : Nat
  target : Target
  deriving DecidableEq, Repr

/-- The saved fields of a printer entry (R201). -/
structure SavedPrinter where
  id : Nat
  seg : Seg
  number : Nat
  enabled : Bool
  jobLimit : Nat
  holdTime : Nat
  busyRetry : Nat
  lostLimit : Nat
  deriving DecidableEq, Repr

/-- The contents of a stored image (R201). -/
structure StoredImage where
  settings : Settings
  segs : Four SegSettings
  stations : List SavedStation
  aliases : List SavedAlias
  printers : List SavedPrinter
  deriving DecidableEq, Repr

/-- The image area of the serial flash (R201, R202): erased, or holding an image and whether its 32-bit check equals the
check computed over its contents. -/
inductive ImageArea where
  | erased
  | broken
  | stored (img : StoredImage) (checkMatches : Bool)
  deriving DecidableEq, Repr

/-- The factory identity: base address, part code, revision (R203). -/
structure Identity where
  base : Addr
  part : BitVec 16
  revision : BitVec 8
  deriving DecidableEq, Repr

/-- The last store result (R192). -/
inductive StoreResult where
  | none | done | failed
  deriving DecidableEq, Repr

/-- The Management Agent and the serial flash (R192, R201, R203). -/
structure Agent where
  queue : List Request
  running : Option Running
  /-- SAVING, with the image being written; none is IDLE -/
  saving : Option StoredImage
  lastStore : StoreResult
  identity : Identity
  /-- the image area of the flash -/
  image : ImageArea
  /-- the identity area of the flash: its contents and whether its check matches -/
  identityArea : Identity × Bool
  /-- the answer to the last operation given as a command of its own (the MODEL's own) -/
  answer : Option OpResult
  deriving DecidableEq, Repr

/-! ### The part and the machine -/

/-- The CT418: all the state the manual gives it. -/
structure Dev where
  /-- time since the last cold start, in units of 10 ns (the MODEL's own) -/
  clock : Nat
  /-- the 32-bit uptime in seconds -/
  uptime : Nat
  set : Settings
  segs : Four Segment
  /-- ascending by segment, then number (R41) -/
  stations : List Station
  /-- ascending by segment, then number (R64) -/
  aliases : List AliasEntry
  pool : Pool
  up : Uplink
  spool : Spooler
  ev : EventUnit
  agent : Agent
  /-- the next station entry's `eid` (the MODEL's own) -/
  nextEid : Nat
  /-- the next queued frame's `fid` (the MODEL's own) -/
  nextFid : Nat
  deriving DecidableEq, Repr

/-- The machine: the part, and the commands that wait, first in, first out. -/
structure State where
  dev : Dev
  pending : List Instr
  deriving DecidableEq, Repr

/-- Why the machine stops with a fault. No command of this block is given a fault by the manual, so there is none. -/
inductive Fault where
  deriving DecidableEq, Repr

/-- Why a command is refused. -/
inductive Refusal where
  /-- raised by an arm of `exec` for a command that has no meaning yet; safe (no arm of this model does) -/
  | notModelled (mnemonic : String)
  deriving DecidableEq, Repr

/-! ### The values after a cold start -/

/-- The empty reach set, the default of every one (R71). -/
def Reach.nothing : Reach := ⟨.const false, false⟩

/-- The defaults of the part-wide settings, for a factory base address (R62, R86 to R88, R103, R104, R107, R49, R77,
R157, R188, R192). -/
def Settings.defaults (base : Addr) : Settings :=
  { base := base, coaxFloor := 64, transitReserve := 256, spoolQuota := 1280, carrierType := 0x88B5#16,
    mgmtType := 0x88B6#16, pauseOn := 192, pauseOff := 384, pauseQuanta := 1024, absentForget := 3600, aliasIdle := 300,
    uplinkReach := .nothing, jobIdle := 120, streamBlocks := 16, noticeAddr := 0#48, noticeBatch := 4,
    noticeHoldoff := 500, noticeMask := 0#32, manager0 := 0#48, manager1 := 0#48 }

/-- The defaults of a segment's settings (R9, R24, R49, R66, R71, R115, R118, R120, R122, R130, R132). -/
def SegSettings.defaults : SegSettings :=
  { replyTimeout := 400, urgentAge := 20, cycleFloor := 0, discoveryInterval := 60, slotTime := 120, aliasLow := 224,
    aliasHigh := 254, reach := .nothing, wTimeout := 40, wBadCheck := 24, wBadFrame := 24, wCollision := 16,
    wJabber := 96, drain := 3, relieve := 600, warn := 1200, trip := 3200, preset := 1600, retryLimit := 4,
    cooldown := 30, trialTime := 60, enabled := true, quietTime := 2, dcLow := 120, dcHigh := 880, shotExponent := 2,
    blankCount := 24, launchOffset := 18, coefficient := 253, segmentLength := 0 }

/-- The probe settings of a segment, as a probe takes them when its quiet check begins (R132). -/
def SegSettings.probeParams (c : SegSettings) : ProbeParams :=
  { quietTime := c.quietTime, dcLow := c.dcLow, dcHigh := c.dcHigh, shotExponent := c.shotExponent,
    blankCount := c.blankCount, launchOffset := c.launchOffset, coefficient := c.coefficient,
    segmentLength := c.segmentLength }

/-- A Line Monitor after a cold start, in a state (R110). -/
def Monitor.fresh (st : SegState) : Monitor :=
  { state := st, strain := 0, run := 0, peak := 0, attempts := 0, lastCause := none, cooldownTimer := none,
    trialTimer := none, recent := [], record := none }

/-- A Turn Scheduler after a start, with the written cycle floor (R24). -/
def Scheduler.fresh (floor : Nat) : Scheduler :=
  { rotation := .deliver, feedPtr := 0, cycle := .none, cycleCount := 0, cycleStart := none, floorInEffect := floor,
    holds := [], medium := none, turn := none }

/-- A discovery engine after a start (R49). -/
def Discovery.fresh : Discovery := { pass := .idle, intervalTimer := none, run := none, pendingDup := [] }

/-- A Line Probe after a cold start: IDLE, no request, no record (R131). Its other fields are used by a running probe
alone (DESIGN CHOICE, log entry 46). -/
def Probe.fresh (c : SegSettings) : Probe :=
  { phase := .idle, trigger := .start, onHold := false, params := c.probeParams, checkStart := 0, stretchStart := 0,
    dcCode := none, shots := [], capturing := false, launched := 0, waitingReq := none, last := none }

/-- A segment with the given settings, DOWN, with every other item at its cold start value. -/
def Segment.fresh (c : SegSettings) : Segment :=
  { cfg := c, mon := .fresh .down, sched := .fresh c.cycleFloor, disc := .fresh, probe := .fresh c, downq := [],
    backoffs := [], txEnable := false, lineOut := [] }

/-- A segment of the default settings right after a cold start: STARTING, its START probe in its quiet check (R110,
R123, R133). -/
def Segment.started (c : SegSettings) : Segment :=
  { Segment.fresh c with mon := .fresh .starting, probe := { Probe.fresh c with phase := .quietCheck } }

/-- Counters at 0 with their half flags clear (R184). -/
def Counter.zeros (n : Nat) : List Counter := List.replicate n ⟨0, false⟩

/-- The Event Unit before the stored image is loaded at a cold start (R182 to R191). -/
def EventUnit.fresh : EventUnit :=
  { segCounters := .const (Counter.zeros 26), upCounters := Counter.zeros 19, spoolCounters := Counter.zeros 5,
    events := [], lost := 0, holdoff := none, heldBack := none, noticeNumber := 0 }

/-- The Uplink MAC and the pause state at a cold start (R102, R107), with the receiver disabled (R204) (DESIGN CHOICE,
log entry 46). -/
def Uplink.fresh : Uplink :=
  { link := false, speed := .mbps10, rxEnabled := false, hold := none, queue := [], txBusy := false, leaving := false,
    pauseOn := false, repeatTimer := none, pauseDue := [], portOut := [] }

/-- The Spooler at a cold start, before the printer table is loaded (R166). -/
def Spooler.fresh : Spooler :=
  { printers := List.replicate 8 none, jobs := [], finished := [], nextId := 1, stampCounter := 0, nextSerial := 0,
    endings := [] }

/-- The identity a part has whose identity area fails its check (R203) (DESIGN CHOICE, log entry 46). -/
def Identity.zero : Identity := ⟨0#48, 0#16, 0#8⟩

/-- The Agent at a cold start with an erased image area and an identity area that fails its check. -/
def Agent.fresh : Agent :=
  { queue := [], running := none, saving := none, lastStore := .none, identity := .zero, image := .erased,
    identityArea := (.zero, false), answer := none }

/-- The part right after a cold start (R204) whose flash holds no image and no identity: every block at its cold start
value, every setting at its default, COLD_START and CONFIG_DEFAULTED in the event list, the receiver enabled and every
segment STARTING (DESIGN CHOICE, log entry 4). -/
def Dev.reset : Dev :=
  { clock := 0, uptime := 0, set := .defaults 0#48, segs := .const (Segment.started .defaults), stations := [],
    aliases := [], pool := ⟨2048, 0, 0⟩, up := { Uplink.fresh with rxEnabled := true }, spool := .fresh,
    ev := { EventUnit.fresh with
      events := [⟨.coldStart, .none, 0, 0, true⟩, ⟨.configDefaulted, .none, 0, 0, true⟩], holdoff := some 0 },
    agent := .fresh, nextEid := 0, nextFid := 0 }

/-- The machine right after reset: the part after its cold start, and no command waiting. -/
def State.reset : State := { dev := .reset, pending := [] }

end Sys2Proof.Machine
end

