-- ==== Sys2Proof/Machine/Ops.lean ====
section
/-! DEFINITION. The operations every block shares: numbers and bytes, the two checks, reading and changing one piece of
the part, and time. -/

namespace Sys2Proof.Machine

open Sys2Proof Host

/-! ### Numbers, bytes, checks -/

/-- The segments in ascending number. -/
def allSegs : List Seg := [.s0, .s1, .s2, .s3]

/-- A segment's number (00_scope.md). -/
def segNat : Seg → Nat
  | .s0 => 0
  | .s1 => 1
  | .s2 => 2
  | .s3 => 3

/-- The segment of a number, none outside 0 to 3. -/
def segOf : Nat → Option Seg
  | 0 => some .s0
  | 1 => some .s1
  | 2 => some .s2
  | 3 => some .s3
  | _ => none

/-- Bring a value into a range (00_scope.md, "Settings"). -/
def clamp (lo hi v : Nat) : Nat := max lo (min v hi)

/-- A number of `n` bytes, most significant byte first (00_scope.md, "Byte order"). -/
def be : Nat → Nat → List Byte
  | 0, _ => []
  | n + 1, v => BitVec.ofNat 8 (v / 256 ^ n) :: be n v

/-- The number that bytes spell, most significant byte first. -/
def ofBe (bs : List Byte) : Nat := bs.foldl (fun a b => a * 256 + b.toNat) 0

/-- An Ethernet address as 6 bytes. -/
def addrBytes (a : Addr) : List Byte := be 6 a.toNat

/-- The Ethernet address that 6 bytes spell. -/
def addrOf (bs : List Byte) : Addr := BitVec.ofNat 48 (ofBe bs)

/-- One bit of the trunk check: shift left, and the generator 0x1021 where a 1 falls out (R2). -/
def crc16Bit (c : BitVec 16) : BitVec 16 :=
  if c.msb then (c <<< 1) ^^^ 0x1021#16 else c <<< 1

/-- One byte of the trunk check (R2). -/
def crc16Byte (c : BitVec 16) (b : Byte) : BitVec 16 :=
  let c := c ^^^ (b.setWidth 16 <<< 8)
  crc16Bit (crc16Bit (crc16Bit (crc16Bit (crc16Bit (crc16Bit (crc16Bit (crc16Bit c)))))))

/-- The trunk check: polynomial 0x1021, initial value 0xFFFF, nothing reflected or inverted (R2). -/
def crc16 (bs : List Byte) : BitVec 16 := bs.foldl crc16Byte 0xFFFF#16

/-- One bit of the reflected 32-bit check (0x04C11DB7 read backwards, R96). -/
def crc32Bit (c : BitVec 32) : BitVec 32 :=
  if c.getLsbD 0 then (c >>> 1) ^^^ 0xEDB88320#32 else c >>> 1

/-- One byte of the 32-bit check. -/
def crc32Byte (c : BitVec 32) (b : Byte) : BitVec 32 :=
  let c := c ^^^ b.setWidth 32
  crc32Bit (crc32Bit (crc32Bit (crc32Bit (crc32Bit (crc32Bit (crc32Bit (crc32Bit c)))))))

/-- The Ethernet frame check, and the check of the stored image and the identity area: polynomial 0x04C11DB7, initial
value 0xFFFFFFFF, reflected, inverted (R96, R201, R203). -/
def crc32 (bs : List Byte) : BitVec 32 := ~~~(bs.foldl crc32Byte 0xFFFFFFFF#32)

/-- The frame check's four bytes, least significant byte first (R96). -/
def fcsBytes (bs : List Byte) : List Byte := (be 4 (crc32 bs).toNat).reverse

/-- The payload cut into blocks of 256 bytes, the last one shorter (R85). `fuel` is the payload's length. -/
def cutBlocks : Nat → List Byte → List Block
  | _, [] => []
  | 0, _ => []
  | n + 1, b :: bs => (b :: bs).take 256 :: cutBlocks n ((b :: bs).drop 256)

/-- The blocks of a spool unit: none for an empty one (R85). -/
def spoolBlocks (p : List Byte) : List Block := cutBlocks p.length p

/-- The blocks of a transit frame: at least one, which carries its queue entry (R85). -/
def transitBlocks (p : List Byte) : List Block := if p.isEmpty then [[]] else cutBlocks p.length p

/-- Blocks a spool unit of `len` bytes needs: ceil(len / 256) (R85). -/
def spoolNeed (len : Nat) : Nat := (len + 255) / 256

/-- Blocks a transit frame of `len` bytes needs (R85). -/
def transitNeed (len : Nat) : Nat := max 1 ((len + 255) / 256)

/-- Insert by a strict order, after every entry it does not precede. -/
def insertBy {α : Type} (lt : α → α → Bool) (a : α) : List α → List α
  | [] => [a]
  | b :: bs => if lt a b then a :: b :: bs else b :: insertBy lt a bs

/-- Sort by a strict order; entries neither of which precedes the other keep their order. -/
def sortBy {α : Type} (lt : α → α → Bool) (l : List α) : List α :=
  l.foldl (fun acc a => insertBy lt a acc) []

/-- The first entry of a list that no other precedes. -/
def leastBy {α : Type} (lt : α → α → Bool) : List α → Option α
  | [] => none
  | a :: as =>
    match leastBy lt as with
    | none => some a
    | some b => if lt b a then some b else some a

/-- The first entry that meets a condition, changed. -/
def modifyFirst {α : Type} (p : α → Bool) (f : α → α) : List α → List α
  | [] => []
  | a :: as => if p a then f a :: as else a :: modifyFirst p f as

/-! ### The states of a segment -/

/-- The medium-using states: ACTIVE, STRAINED and TRIAL (R109). -/
def SegState.mediumUsing : SegState → Bool
  | .active | .strained | .trial => true
  | .down | .starting | .cooling | .probing | .latched => false

/-! ### Reading and changing one piece of the part -/

/-- A segment's blocks. -/
def Dev.seg (d : Dev) (g : Seg) : Segment := d.segs.get g

/-- Change a segment's blocks. -/
def Dev.modSeg (d : Dev) (g : Seg) (f : Segment → Segment) : Dev :=
  { d with segs := d.segs.set g (f (d.segs.get g)) }

/-- Change a segment's Turn Scheduler. -/
def Dev.modSched (d : Dev) (g : Seg) (f : Scheduler → Scheduler) : Dev :=
  d.modSeg g fun s => { s with sched := f s.sched }

/-- Change a segment's Line Monitor. -/
def Dev.modMon (d : Dev) (g : Seg) (f : Monitor → Monitor) : Dev :=
  d.modSeg g fun s => { s with mon := f s.mon }

/-- Change a segment's discovery engine. -/
def Dev.modDisc (d : Dev) (g : Seg) (f : Discovery → Discovery) : Dev :=
  d.modSeg g fun s => { s with disc := f s.disc }

/-- Change a segment's Line Probe. -/
def Dev.modProbe (d : Dev) (g : Seg) (f : Probe → Probe) : Dev :=
  d.modSeg g fun s => { s with probe := f s.probe }

/-- Change the Event Unit. -/
def Dev.modEv (d : Dev) (f : EventUnit → EventUnit) : Dev := { d with ev := f d.ev }

/-- Change the Uplink MAC. -/
def Dev.modUp (d : Dev) (f : Uplink → Uplink) : Dev := { d with up := f d.up }

/-- Change the Print Spooler. -/
def Dev.modSpool (d : Dev) (f : Spooler → Spooler) : Dev := { d with spool := f d.spool }

/-- Change the Agent. -/
def Dev.modAgent (d : Dev) (f : Agent → Agent) : Dev := { d with agent := f d.agent }

/-- A segment is in a medium-using state. -/
def Dev.inService (d : Dev) (g : Seg) : Bool := (d.seg g).mon.state.mediumUsing

/-- The station entry of a segment and number, if there is one (R41). -/
def Dev.station (d : Dev) (g : Seg) (n : Nat) : Option Station :=
  d.stations.find? fun e => e.seg == g && e.number == n

/-- A station entry by the model's own name of it. -/
def Dev.stationById (d : Dev) (eid : Nat) : Option Station := d.stations.find? fun e => e.eid == eid

/-- Change a station entry. -/
def Dev.modStation (d : Dev) (eid : Nat) (f : Station → Station) : Dev :=
  { d with stations := modifyFirst (fun e => e.eid == eid) f d.stations }

/-- The printer entry at an id, if there is one (R145). -/
def Dev.printer (d : Dev) (id : Nat) : Option Printer := d.spool.printers.getD id none

/-- Put a printer entry, or its absence, at an id. -/
def Dev.setPrinter (d : Dev) (id : Nat) (p : Option Printer) : Dev :=
  d.modSpool fun s => { s with printers := s.printers.set id p }

/-- Change the printer entry at an id, if there is one. -/
def Dev.modPrinter (d : Dev) (id : Nat) (f : Printer → Printer) : Dev :=
  match d.printer id with
  | some p => d.setPrinter id (some (f p))
  | none => d

/-- The printer ids (R145). -/
def printerIds : List Nat := List.range 8

/-- The id of the printer entry that names a station, if one does. -/
def Dev.printerAt (d : Dev) (g : Seg) (n : Nat) : Option Nat :=
  printerIds.find? fun i =>
    match d.printer i with
    | some p => p.seg == g && p.number == n
    | none => false

/-- A printer entry names a station of the segment (R90, R94). -/
def Dev.segHasPrinter (d : Dev) (g : Seg) : Bool :=
  printerIds.any fun i =>
    match d.printer i with
    | some p => p.seg == g
    | none => false

/-- A job by its place in the order of creation. -/
def Dev.jobBySerial (d : Dev) (n : Nat) : Option Job := d.spool.jobs.find? fun j => j.serial == n

/-- A non-terminal job by its id (R148). -/
def Dev.jobById (d : Dev) (id : Nat) : Option Job := d.spool.jobs.find? fun j => j.id == id

/-- The ACTIVE job of a printer (R155). -/
def Dev.activeJob (d : Dev) (p : Nat) : Option Job :=
  d.spool.jobs.find? fun j => j.printer == p && j.state == .active

/-- The open job of a source for a printer (R151). -/
def Dev.openJob (d : Dev) (x : Source) (p : Nat) : Option Job :=
  d.spool.jobs.find? fun j => j.source == x && j.printer == p && j.isOpen

/-- How many non-terminal jobs a printer holds (R145). -/
def Dev.jobCount (d : Dev) (p : Nat) : Nat := (d.spool.jobs.filter fun j => j.printer == p).length

/-- Change a job record. -/
def Dev.modJob (d : Dev) (serial : Nat) (f : Job → Job) : Dev :=
  d.modSpool fun s => { s with jobs := modifyFirst (fun j => j.serial == serial) f s.jobs }

/-- The next value of a count that runs to 255 and stays there. -/
def sat255 (n : Nat) : Nat := min (n + 1) 255

/-- A 32-bit byte count of a job after adding to it (R148); past its range the value is free (DESIGN CHOICE, log entry
7). -/
def addBytes (count add : Nat) : Nat :=
  if count + add < 4294967296 then count + add else (Config.byteCountPastEnd count add).toNat

/-! ### Addresses (R62) -/

/-- The bridge's own station address: the base address plus 1023. -/
def Dev.ownAddr (d : Dev) : Addr := d.set.base + 1023#48

/-- The proxy address of a station. -/
def Dev.proxy (d : Dev) (g : Seg) (n : Nat) : Addr := d.set.base + BitVec.ofNat 48 (segNat g * 256 + n)

/-- An address lies in the proxy range of a base address: the 1024 addresses from it on. -/
def inProxyRange (base a : Addr) : Bool := base.toNat ≤ a.toNat && a.toNat < base.toNat + 1024

/-- The group bit: the least significant bit of the first byte. -/
def groupBit (a : Addr) : Bool := a.getLsbD 40

/-- An individual address: not all zero and without the group bit (R193). -/
def individual (a : Addr) : Bool := a != 0#48 && !groupBit a

/-- The all-ones address (R69). -/
def broadcastAddr : Addr := 0xFFFFFFFFFFFF#48

/-- The address of pause frames (R104). -/
def pauseAddr : Addr := 0x0180C2000001#48

/-! ### Time -/

/-- Time passes before an event (DESIGN CHOICE, log entry 2). -/
def Dev.elapse (d : Dev) (dt : Nat) : Dev := { d with clock := d.clock + dt }

/-- A timer that expires at a clock reading has brought the clock at least there (DESIGN CHOICE, log entry 2). -/
def Dev.reach (d : Dev) (t : Nat) : Dev := { d with clock := max d.clock t }

/-- Seconds left on a timer (R130, R181): a begun second counts or not as `Config.beganSecondCounts` has it (DESIGN
CHOICE, log entry 6). -/
def secondsLeft (clock expires : Nat) : Nat :=
  let left := expires - clock
  if left % Config.sec = 0 then left / Config.sec
  else left / Config.sec + (if Config.beganSecondCounts left then 1 else 0)

/-! ### The trunk line, cell by cell (R1) -/

/-- A Manchester bit cell: one that carries a bit by its mid-cell transition, or one without it, the line held at the
high or the low level (R1). -/
inductive Cell where
  | bit (b : Bool)
  | held (high : Bool)
  deriving DecidableEq, Repr

/-- The start delimiter: 1 0 1 0 1 0 1 0 1 0 1 0 1 0 1 1 (R1). -/
def startDelimiter : List Cell :=
  [true, false, true, false, true, false, true, false, true, false, true, false, true, false, true, true].map .bit

/-- The end delimiter: two cells without a transition, the line high and then low (R1). -/
def endDelimiter : List Cell := [.held true, .held false]

/-- A byte's cells, most significant bit first (R1). -/
def byteCells (b : Byte) : List Cell := [7, 6, 5, 4, 3, 2, 1, 0].map fun i => .bit (b.getLsbD i)

/-- A trunk frame on the line, of the bytes between its delimiters (R1). -/
def trunkCells (bs : List Byte) : List Cell := startDelimiter ++ bs.flatMap byteCells ++ endDelimiter

/-- A received start delimiter is valid when its 16 cells arrive in order, each with its transition (R1). -/
def validStart (cells : List Cell) : Bool := cells.take 16 == startDelimiter

/-- The byte of eight cells that carry bits, most significant bit first (R1). -/
def cellsByte : List Cell → Option Byte
  | [.bit a, .bit b, .bit c, .bit d, .bit e, .bit f, .bit g, .bit h] =>
    some (BitVec.ofNat 8 ([a, b, c, d, e, f, g, h].foldl (fun n x => 2 * n + x.toNat) 0))
  | _ => none

/-- The bytes that cells carry up to an end delimiter that closes them; none where a cell without a transition stands
elsewhere, which is a code violation, or the cells end without an end delimiter (R1, R11). `fuel` bounds the bytes. -/
def cellsBytes : Nat → List Cell → Option (List Byte)
  | 0, _ => none
  | fuel + 1, cells =>
    if cells == endDelimiter then some []
    else
      match cellsByte (cells.take 8) with
      | some b => (cellsBytes fuel (cells.drop 8)).map fun bs => b :: bs
      | none => none

/-- The bytes of a frame received whole and without a code violation, from its cells (R1). -/
def receivedFrame (cells : List Cell) : Option (List Byte) :=
  if validStart cells then cellsBytes cells.length (cells.drop 16) else none

/-- The line time of a trunk frame with `n` bytes between its delimiters (R1). -/
def frameTime (n : Nat) : Nat := (startDelimiter.length + 8 * n + endDelimiter.length) * Config.bitCell

end Sys2Proof.Machine
end

