-- ==== Sys2Proof/Machine/Operands.lean ====
section
/-! DEFINITION. The frames as bytes: trunk frames (R1, R2, R206) and the classification of replies and discovery slots
(R11, R12, R53), Ethernet frames (R96, R99), the carrier header (R207), and the requests and field lists of management
(R208, R209). -/

namespace Sys2Proof.Machine

open Sys2Proof Host

/-! ### Trunk frames (R206) -/

/-- A trunk frame's header fields and payload (R1). -/
structure TrunkFrame where
  kind : Byte
  station : Nat
  peer : Nat
  control : Byte
  status : Byte
  length : Nat
  payload : List Byte
  deriving DecidableEq, Repr

/-- The kind byte of POLL. -/
def kPoll : Byte := 0x01#8
/-- The kind byte of DELIVER. -/
def kDeliver : Byte := 0x02#8
/-- The kind byte of DISCOVER. -/
def kDiscover : Byte := 0x03#8
/-- The kind byte of DATA. -/
def kData : Byte := 0x11#8
/-- The kind byte of IDLE. -/
def kIdle : Byte := 0x12#8
/-- The kind byte of ACCEPT. -/
def kAccept : Byte := 0x13#8
/-- The kind byte of REFUSE. -/
def kRefuse : Byte := 0x14#8
/-- The kind byte of PRESENCE. -/
def kPresence : Byte := 0x15#8

/-- The bit of a mark: 0 MORE, 1 LAST. -/
def markBit : Mark → Nat
  | .more => 0
  | .last => 1

/-- The ack code of a POLL (R206). -/
def ackCode : Ack → Nat
  | .none => 0
  | .ack => 1
  | .busy => 2

/-- The control byte of DELIVER and DATA: bit 0 the sequence bit, bit 1 the mark. -/
def seqControl (seq : Bool) (m : Mark) : Byte := BitVec.ofNat 8 (seq.toNat + 2 * markBit m)

/-- A frame the bridge sends: header, payload, check (R1, R2). -/
def trunkBytes (kind : Byte) (station peer : Nat) (control : Byte) (payload : List Byte) : List Byte :=
  let body := [kind, BitVec.ofNat 8 station, BitVec.ofNat 8 peer, control, 0#8] ++ be 2 payload.length ++ payload
  body ++ be 2 (crc16 body).toNat

/-- POLL (R3). -/
def pollBytes (number : Nat) (a : Ack) : List Byte := trunkBytes kPoll number 0 (BitVec.ofNat 8 (ackCode a)) []

/-- DELIVER (R4). -/
def deliverBytes (number peer : Nat) (seq : Bool) (m : Mark) (payload : List Byte) : List Byte :=
  trunkBytes kDeliver number peer (seqControl seq m) payload

/-- DISCOVER at level 0, or for the group of a prefix; the payload is the slot time in µs (R5). -/
def discoverBytes (group : Option Nat) (slotTime : Nat) : List Byte :=
  match group with
  | none => trunkBytes kDiscover 0 0 0#8 (be 2 slotTime)
  | some h => trunkBytes kDiscover h 0 4#8 (be 2 slotTime)

/-- The header and payload of the bytes between the delimiters; meant for 9 bytes or more. -/
def parseTrunk (bs : List Byte) : TrunkFrame :=
  { kind := bs.getD 0 0#8, station := (bs.getD 1 0#8).toNat, peer := (bs.getD 2 0#8).toNat, control := bs.getD 3 0#8,
    status := bs.getD 4 0#8, length := ofBe ((bs.drop 5).take 2), payload := (bs.drop 7).take (bs.length - 9) }

/-- The received check equals the check computed over the header and payload (R2). -/
def passesCheck (bs : List Byte) : Bool :=
  bs.drop (bs.length - 2) == be 2 (crc16 (bs.take (bs.length - 2))).toNat

/-- The number of bytes after which a reply's end delimiter falls due (R12). -/
def dueBytes (bs : List Byte) : Nat :=
  let len := ofBe ((bs.drop 5).take 2)
  if bs.length < 7 ∨ Config.payloadMax < len then 9 + Config.payloadMax else 9 + len

/-- JABBER: the 1034th byte came without an end delimiter, or carrier ran more than 2 ms (4000 bit cells) past the point
at which the end delimiter fell due (R12). -/
def isJabber (r : Reply) : Bool :=
  decide (1034 ≤ r.bytes.length) || decide (8 * dueBytes r.bytes + 4000 < r.cells)

/-- What a master frame expects (R10): a POLL, or a unicast DELIVER with its sequence bit. -/
inductive Expect where
  | poll
  | deliver (seq : Bool)
  deriving DecidableEq, Repr

/-- Test 6 of R11: the kind is one that is expected, the number is the addressed station's, an ACCEPT or REFUSE echoes
the sequence bit, and only DATA has a payload (R6, R7, R10). -/
def asExpected (e : Expect) (number : Nat) (f : TrunkFrame) : Bool :=
  f.station == number && (f.kind == kData || f.length == 0) &&
  match e with
  | .poll => f.kind == kData || f.kind == kIdle
  | .deliver seq => (f.kind == kAccept || f.kind == kRefuse) && f.control.getLsbD 0 == seq

/-- The outcome of an exchange that received a valid start delimiter: the first test of R11 that holds. -/
def classify (e : Expect) (number : Nat) (r : Reply) : ExOutcome :=
  let f := parseTrunk r.bytes
  if isJabber r then .failed .jabber
  else if r.violation then .failed .collision
  else if !r.ended || decide (r.bytes.length < 9) then .failed .badFrame
  else if !passesCheck r.bytes then .failed .badCheck
  else if f.length ≠ r.bytes.length - 9 then .failed .badFrame
  else if !asExpected e number f then .failed .badFrame
  else .good

/-- PAPER_OUT of a status field (R206). -/
def paperOut (f : TrunkFrame) : Bool := f.status.getLsbD 0
/-- OFFLINE of a status field. -/
def offline (f : TrunkFrame) : Bool := f.status.getLsbD 1
/-- BUFFER_FULL of a status field. -/
def bufferFull (f : TrunkFrame) : Bool := f.status.getLsbD 2
/-- The mark of a DELIVER or DATA. -/
def frameMark (f : TrunkFrame) : Mark := if f.control.getLsbD 1 then .last else .more

/-- A number belongs to a slot of a window: at level 0 by its high four bits, at level 1 with its low four (R53). -/
def belongs (group : Option Nat) (slot number : Nat) : Bool :=
  match group with
  | none => number / 16 == slot
  | some h => number == 16 * h + slot

/-- The reading of one slot (R53). A CLEAN slot whose number is 0 or 255 is taken as EMPTY. -/
def readSlot (group : Option Nat) (slot : Nat) : SlotLine → SlotReading
  | .quiet => .empty
  | .noise => .garbled
  | .frame bs clean other =>
    let f := parseTrunk bs
    if clean && !other && bs.length == 9 && passesCheck bs && f.kind == kPresence && f.length == 0
        && belongs group slot f.station then
      if f.station = 0 ∨ f.station = 255 then .empty else .clean f.station
    else .garbled

/-- The readings of the 16 slots of a window; a slot the command does not give is quiet (DEDUCED, log entry 48). -/
def readWindow (group : Option Nat) (slots : List SlotLine) : List SlotReading :=
  (List.range 16).map fun i => readSlot group i (slots.getD i .quiet)

/-! ### Ethernet frames (R96, R99) -/

/-- A frame shorter than 64 bytes with its check is padded with zero bytes to 64; the check follows (R96). -/
def ethWire (bs : List Byte) : List Byte :=
  let padded := bs ++ List.replicate (60 - bs.length) 0#8
  padded ++ fcsBytes padded

/-- The bytes of a queued frame from its destination address to the end of its payload. -/
def UpFrame.bytes (f : UpFrame) : List Byte :=
  addrBytes f.dst ++ addrBytes f.src ++ be 2 f.etherType.toNat ++ f.body ++ f.blocks.flatten

/-- A pause frame: from the own address, type 0x8808, opcode 0x0001, the time (R104). -/
def pauseBytes (own : Addr) (time : BitVec 16) : List Byte :=
  addrBytes pauseAddr ++ addrBytes own ++ be 2 0x8808 ++ be 2 1 ++ be 2 time.toNat

/-- The received frame check is the one computed over the bytes before it (R96). -/
def fcsOk (bs : List Byte) : Bool := bs.drop (bs.length - 4) == fcsBytes (bs.take (bs.length - 4))

/-- The destination address of a received frame. -/
def rxDst (bs : List Byte) : Addr := addrOf (bs.take 6)
/-- The source address of a received frame. -/
def rxSrc (bs : List Byte) : Addr := addrOf ((bs.drop 6).take 6)
/-- The type of a received frame. -/
def rxType (bs : List Byte) : BitVec 16 := BitVec.ofNat 16 (ofBe ((bs.drop 12).take 2))
/-- What follows the type, without the frame check. -/
def rxBody (bs : List Byte) : List Byte := (bs.drop 14).take (bs.length - 18)

/-! ### The carrier header (R207) -/

/-- The carrier header: kind, mark, unit number, status, job id, length. -/
def carrierHeader (kind : Byte) (m : Mark) (unit status job len : Nat) : List Byte :=
  [kind, BitVec.ofNat 8 (markBit m)] ++ be 2 unit ++ [BitVec.ofNat 8 status, BitVec.ofNat 8 job] ++ be 2 len

/-- A sound carrier DATA: its mark, unit number and payload (R100). -/
structure CarrierData where
  mark : Mark
  unit : Nat
  payload : List Byte
  deriving DecidableEq, Repr

/-- The carrier checks of R100 on what follows the type. -/
def parseCarrier (body : List Byte) : Option CarrierData :=
  let len := ofBe ((body.drop 6).take 2)
  if body.length < 8 ∨ body.getD 0 0#8 ≠ 0x01#8 ∨ Config.payloadMax < len ∨ body.length - 8 < len then none
  else some { mark := if (body.getD 1 0#8).getLsbD 0 then .last else .more, unit := ofBe ((body.drop 2).take 2),
              payload := (body.drop 8).take len }

/-! ### Management messages (R208, R209) -/

/-- Read exactly `n` whole operations, which must end where the bytes end (R193, R208). -/
def parseOps : Nat → List Byte → Option (List Op)
  | 0, [] => some []
  | 0, _ :: _ => none
  | n + 1, c :: l :: rest =>
    if rest.length < l.toNat then none
    else (parseOps n (rest.drop l.toNat)).map fun ops => ⟨c, rest.take l.toNat⟩ :: ops
  | _ + 1, _ => none

/-- The tag and operations of a request, where its header is whole and its operations fill its stated length (R193). -/
def parseRequest (body : List Byte) : Option (BitVec 16 × List Op) :=
  let count := (body.getD 3 0#8).toNat
  let len := ofBe ((body.drop 4).take 2)
  if body.length < 6 ∨ body.getD 2 0#8 ≠ 0x01#8 ∨ count < 1 ∨ 16 < count ∨ body.length - 6 < len then none
  else (parseOps count ((body.drop 6).take len)).map fun ops => (BitVec.ofNat 16 (ofBe (body.take 2)), ops)

/-- A field list of exactly these bytes (R209). `fuel` is their number. -/
def parseFields : Nat → List Byte → Option (List Field)
  | _, [] => some []
  | n + 1, c :: l :: rest =>
    if rest.length < l.toNat then none
    else (parseFields n (rest.drop l.toNat)).map fun fs => ⟨c, rest.take l.toNat⟩ :: fs
  | _, _ => none

/-- The management header: tag or notice number, message kind, operation count, body length. -/
def mgmtHeader (tag : Nat) (kind count len : Nat) : List Byte :=
  be 2 tag ++ [BitVec.ofNat 8 kind, BitVec.ofNat 8 count] ++ be 2 len

/-- The code of a status (R208). -/
def Status.code : Status → Byte
  | .ok => 0#8
  | .clamped => 1#8
  | .noEntry => 2#8
  | .range => 3#8
  | .readOnly => 4#8
  | .inUse => 5#8
  | .wrongState => 6#8
  | .full => 7#8
  | .unknownOp => 8#8
  | .unknownTable => 9#8

/-- One result of a response body (R208). -/
def OpResult.bytes (r : OpResult) : List Byte := [r.code, r.status.code] ++ be 2 r.data.length ++ r.data

/-- A reach set as one byte: bit n for segment n, bit 4 for the uplink (R209). -/
def Reach.byte (r : Reach) : Byte :=
  BitVec.ofNat 8 (r.segs.s0.toNat + 2 * r.segs.s1.toNat + 4 * r.segs.s2.toNat + 8 * r.segs.s3.toNat
    + 16 * r.uplink.toNat)

/-- The reach set of a byte; its other bits name nothing (DESIGN CHOICE, log entry 36). -/
def Reach.ofByte (b : Byte) : Reach :=
  ⟨⟨b.getLsbD 0, b.getLsbD 1, b.getLsbD 2, b.getLsbD 3⟩, b.getLsbD 4⟩

end Sys2Proof.Machine
end

