-- ==== Sys2Proof/Machine/Flags.lean ====
section
/-! DEFINITION. The Event Unit's flags and what moves them: counters with their half flags (R182, R183), the event list
with its unsent flags (R185 to R187), notices and the holdoff clock (R188, R189), and the start of a transmission, which
a notice needs (R96). -/

namespace Sys2Proof.Machine

open Sys2Proof Host

/-! ### Counter numbers (R182, R208) -/

/-- The place of a failure cause in the order of R182. -/
def FailCause.index : FailCause → Nat
  | .timeout => 0
  | .badCheck => 1
  | .badFrame => 2
  | .collision => 3
  | .jabber => 4

/-- The place of a segment's drop cause. -/
def SegDrop.index : SegDrop → Nat
  | .duplicate => 0
  | .blockedSource => 1
  | .sourceUnknown => 2
  | .toBridge => 3
  | .unknownDest => 4
  | .unreachable => 5
  | .blocked => 6
  | .segDown => 7
  | .aliasExhausted => 8
  | .linkDown => 9
  | .printRefused => 10
  | .deliverFailed => 11
  | .deliverRefused => 12
  | .flushed => 13
  | .broadcastWithheld => 14

/-- The place of an uplink drop cause. -/
def UpDrop.index : UpDrop → Nat
  | .unknownDest => 0
  | .unreachable => 1
  | .blocked => 2
  | .segDown => 3
  | .aliasExhausted => 4
  | .badSource => 5
  | .badCarrier => 6
  | .queueFull => 7
  | .poolEmpty => 8
  | .linkDown => 9
  | .notAdmitted => 10

/-- The counter number of a segment counter, 0 to 25. -/
def SegCounter.index : SegCounter → Nat
  | .good => 0
  | .failure c => 1 + c.index
  | .noise => 6
  | .framesIn => 7
  | .framesOut => 8
  | .drop c => 9 + c.index
  | .passes => 24
  | .trips => 25

/-- The counter number of an uplink counter, 0 to 18. -/
def UpCounter.index : UpCounter → Nat
  | .framesIn => 0
  | .framesOut => 1
  | .crc => 2
  | .runt => 3
  | .long => 4
  | .other => 5
  | .drop c => 6 + c.index
  | .pausesSent => 17
  | .pausesReceived => 18

/-- The counter number of a spool counter, 0 to 4. -/
def SpoolCounter.index : SpoolCounter → Nat
  | .accepted => 0
  | .refused => 1
  | .done => 2
  | .cancelled => 3
  | .failed => 4

/-- The group of a counter, as COUNTERS_READ numbers it (R208). -/
def CounterId.group : CounterId → Nat
  | .seg g _ => segNat g
  | .uplink _ => 4
  | .spool _ => 5

/-- The counter's number in its group. -/
def CounterId.index : CounterId → Nat
  | .seg _ c => c.index
  | .uplink c => c.index
  | .spool c => c.index

/-- The counters of a group: segments 0 to 3, uplink 4, spool 5. -/
def EventUnit.group (e : EventUnit) : Nat → Option (List Counter)
  | 0 => some e.segCounters.s0
  | 1 => some e.segCounters.s1
  | 2 => some e.segCounters.s2
  | 3 => some e.segCounters.s3
  | 4 => some e.upCounters
  | 5 => some e.spoolCounters
  | _ => none

/-- Replace the counters of a group. -/
def EventUnit.setGroup (e : EventUnit) (n : Nat) (cs : List Counter) : EventUnit :=
  match n with
  | 0 => { e with segCounters := { e.segCounters with s0 := cs } }
  | 1 => { e with segCounters := { e.segCounters with s1 := cs } }
  | 2 => { e with segCounters := { e.segCounters with s2 := cs } }
  | 3 => { e with segCounters := { e.segCounters with s3 := cs } }
  | 4 => { e with upCounters := cs }
  | 5 => { e with spoolCounters := cs }
  | _ => e

/-- A counter as it stands. -/
def EventUnit.counter (e : EventUnit) (c : CounterId) : Counter :=
  ((e.group c.group).getD []).getD c.index ⟨0, false⟩

/-- One report: the counter rises by 1 and stays at 65535; passing 32767 with its half flag clear sets the flag (R182,
R183). -/
def Counter.bump (c : Counter) : Counter :=
  { value := min (c.value + 1) 65535, half := c.half || c.value == 32767 }

/-- The report makes the counter raise COUNTER_HALF (R183). -/
def Counter.passesHalf (c : Counter) : Bool := c.value == 32767 && !c.half

/-- A counter with one report applied. -/
def EventUnit.bump (e : EventUnit) (c : CounterId) : EventUnit :=
  let cs := (e.group c.group).getD []
  e.setGroup c.group (cs.set c.index (cs.getD c.index ⟨0, false⟩).bump)

/-! ### The event list (R185 to R187) -/

/-- The code of a kind, 1 to 26 (R208). -/
def EventKind.code : EventKind → Nat
  | .segTrip => 1
  | .segLatched => 2
  | .printerLost => 3
  | .linkDown => 4
  | .storeFailed => 5
  | .segWarn => 6
  | .stationDuplicate => 7
  | .stationSuspect => 8
  | .stationJabber => 9
  | .stationTableFull => 10
  | .aliasConflict => 11
  | .aliasExhausted => 12
  | .poolLow => 13
  | .printerStalled => 14
  | .jobFailed => 15
  | .configDefaulted => 16
  | .segRelieved => 17
  | .segRestored => 18
  | .probeDone => 19
  | .stationNew => 20
  | .stationAbsent => 21
  | .linkUp => 22
  | .counterHalf => 23
  | .storeDone => 24
  | .coldStart => 25
  | .restarted => 26

/-- The fixed severity of a kind: 1 CRITICAL, 2 WARNING, 3 INFO (R185). -/
def EventKind.severity (k : EventKind) : Nat := if k.code ≤ 5 then 1 else if k.code ≤ 16 then 2 else 3

/-- The notice mask masks a kind (R188, R209). -/
def Settings.masks (s : Settings) (k : EventKind) : Bool := s.noticeMask.getLsbD (k.code - 1)

/-- The lowest severity present: the largest severity number of the list (R187). -/
def lowestSeverity (l : List Event) : Nat := l.foldl (fun m e => max m e.kind.severity) 0

/-- Remove the first entry that meets a condition. -/
def removeFirst {α : Type} (p : α → Bool) : List α → List α
  | [] => []
  | a :: as => if p a then as else a :: removeFirst p as

/-- How an event acts on the list: the list after it, and whether it is discarded (R186, R187). -/
def recordEvent (l : List Event) (now : Nat) (k : EventKind) (s : Subject) : List Event × Bool :=
  let same := fun (e : Event) => e.kind == k && e.subject == s
  let entry : Event := ⟨k, s, now, 0, true⟩
  if l.any same then (modifyFirst same (fun e => { e with repeats := sat255 e.repeats, unsent := true }) l, false)
  else if l.length < Config.eventMax then (l ++ [entry], false)
  else if k.severity < lowestSeverity l then
    (removeFirst (fun e => e.kind.severity == lowestSeverity l) l ++ [entry], false)
  else (l, true)

/-- The number of unmasked unsent entries (R188). -/
def Dev.unmaskedUnsent (d : Dev) : Nat :=
  (d.ev.events.filter fun e => e.unsent && !d.set.masks e.kind).length

/-- The holdoff clock starts when the unmasked unsent entries rise from 0 and stops when they fall to 0 (R188). -/
def Dev.retimeHoldoff (d : Dev) : Dev :=
  d.modEv fun e =>
    { e with holdoff := if d.unmaskedUnsent = 0 then none else some (e.holdoff.getD d.clock) }

/-- The list holds an unsent entry of a kind and subject already (R186). -/
def holdsUnsent (l : List Event) (k : EventKind) (s : Subject) : Bool :=
  l.any fun e => e.kind == k && e.subject == s && e.unsent

/-- An event reaches the list, without the test for a notice; `true` where an entry became unsent, which a repeat of
one that is unsent already does not (R186, R189). The holdoff clock goes by the unmasked unsent entries as the event leaves
them (R188) (DESIGN CHOICE, log entry 71). -/
def Dev.recordEvent (d : Dev) (k : EventKind) (s : Subject) : Dev × Bool :=
  let r := Machine.recordEvent d.ev.events d.uptime k s
  if r.2 then (d.modEv fun e => { e with lost := sat255 e.lost }, false)
  else ((d.modEv fun e => { e with events := r.1 }).retimeHoldoff, !holdsUnsent d.ev.events k s)

/-! ### Transmission (R95, R96) -/

/-- The head of the uplink queue begins to be sent when the link is UP, nothing is being sent and no pause hold runs
(R96). -/
def Dev.startTx (d : Dev) : Dev :=
  match d.up.queue with
  | f :: _ =>
    if d.up.link && !d.up.txBusy && d.up.hold.isNone then
      d.modUp fun u => { u with txBusy := true, portOut := ethWire f.bytes }
    else d
  | [] => d

/-- Place a frame at the tail of the uplink queue. -/
def Dev.placeUp (d : Dev) (f : UpFrame) : Dev :=
  (d.modUp fun u => { u with queue := u.queue ++ [f] }).startTx

/-- The uplink queue can take a frame: the link is UP and it holds fewer than 63 (R95). -/
def Dev.uplinkRoom (d : Dev) : Bool := d.up.link && decide (d.up.queue.length < Config.uplinkQueueMax)

/-- The cause under which a frame without blocks is dropped when it cannot be placed (R95). -/
def Dev.uplinkDropCause (d : Dev) : UpDrop := if d.up.link then .queueFull else .linkDown

/-! ### Notices (R188, R189) -/

/-- The form code and value bytes of a subject (R208). -/
def Subject.bytes : Subject → List Byte
  | .none => [0#8, 0#8, 0#8, 0#8]
  | .segment g => [1#8, BitVec.ofNat 8 (segNat g), 0#8, 0#8]
  | .station g n => [2#8, BitVec.ofNat 8 (segNat g), BitVec.ofNat 8 n, 0#8]
  | .printer i => [3#8, BitVec.ofNat 8 i, 0#8, 0#8]
  | .job i => [4#8, BitVec.ofNat 8 i, 0#8, 0#8]
  | .counter c => [5#8, BitVec.ofNat 8 c.group, BitVec.ofNat 8 c.index, 0#8]

/-- An event entry's 12 bytes (R208), its unsent flag 1 where it is set and 0 where it is clear (DESIGN CHOICE, log entry
79). -/
def Event.bytes (e : Event) : List Byte :=
  [BitVec.ofNat 8 e.kind.code, BitVec.ofNat 8 e.kind.severity] ++ e.subject.bytes ++ be 4 e.first
    ++ [BitVec.ofNat 8 e.repeats, BitVec.ofNat 8 e.unsent.toNat]

/-- The lost-events count, the entry count and the entries, oldest first: the data of TAKE_EVENTS and of a notice
(R208). -/
def Dev.eventData (d : Dev) : List Byte :=
  [BitVec.ofNat 8 d.ev.lost, BitVec.ofNat 8 d.ev.events.length] ++ (d.ev.events.map Event.bytes).flatten

/-- The notice frame as it stands now (R189). -/
def Dev.noticeFrame (d : Dev) : UpFrame :=
  { kind := .notice, dst := d.set.noticeAddr, src := d.ownAddr, etherType := d.set.mgmtType,
    body := mgmtHeader d.ev.noticeNumber 3 0 d.eventData.length ++ d.eventData, blocks := [] }

/-- Count one report; a COUNTER_HALF it raises joins the list without testing for a notice (DESIGN CHOICE, log entry
12). -/
def Dev.countQuietly (d : Dev) (c : CounterId) : Dev :=
  let half := (d.ev.counter c).passesHalf
  let d := d.modEv fun e => e.bump c
  if half then (d.recordEvent .counterHalf (.counter c)).1 else d

/-- Build the notice and offer it to the uplink queue: placed, every unsent flag clears and the holdoff clock stops;
dropped, it is counted and held back (R189). -/
def Dev.offerNotice (d : Dev) : Dev :=
  if d.uplinkRoom then
    (d.placeUp d.noticeFrame).modEv fun e =>
      { e with events := e.events.map (fun x => { x with unsent := false }), holdoff := none, heldBack := none,
               noticeNumber := (e.noticeNumber + 1) % 65536 }
  else
    (d.countQuietly (.uplink (.drop d.uplinkDropCause))).modEv fun e => { e with heldBack := some d.clock }

/-- The holdoff clock has run for the notice holdoff (R188). -/
def Dev.holdoffRun (d : Dev) : Bool :=
  match d.ev.holdoff with
  | some t => decide (t + d.set.noticeHoldoff * Config.ms ≤ d.clock)
  | none => false

/-- The test made when an entry becomes unsent and when a notice setting is written: a held-back notice is offered
again, and otherwise a notice falls due by the batch or the holdoff; with no notice address nothing is offered and
none stays held back (R188, R189) (DEDUCED, log entry 13). An entry of a masked kind makes this test as any other
(DESIGN CHOICE, log entry 78). -/
def Dev.noticeTest (d : Dev) : Dev :=
  if d.set.noticeAddr = 0#48 then d.modEv fun e => { e with heldBack := none }
  else if d.ev.heldBack.isSome || decide (d.set.noticeBatch ≤ d.unmaskedUnsent) || d.holdoffRun then d.offerNotice
  else d

/-- An event is raised (R186). -/
def Dev.raise (d : Dev) (k : EventKind) (s : Subject) : Dev :=
  let r := d.recordEvent k s
  if r.2 then r.1.noticeTest else r.1

/-- One report to a counter (R182, R183). -/
def Dev.count (d : Dev) (c : CounterId) : Dev :=
  let half := (d.ev.counter c).passesHalf
  let d := d.modEv fun e => e.bump c
  if half then d.raise .counterHalf (.counter c) else d

/-- One report to a segment counter. -/
def Dev.countSeg (d : Dev) (g : Seg) (c : SegCounter) : Dev := d.count (.seg g c)

/-- One drop of a segment (R182). -/
def Dev.dropSeg (d : Dev) (g : Seg) (c : SegDrop) : Dev := d.count (.seg g (.drop c))

/-- One report to an uplink counter. -/
def Dev.countUp (d : Dev) (c : UpCounter) : Dev := d.count (.uplink c)

/-- One drop of the uplink. -/
def Dev.dropUp (d : Dev) (c : UpDrop) : Dev := d.count (.uplink (.drop c))

/-- One report to a spool counter. -/
def Dev.countSpool (d : Dev) (c : SpoolCounter) : Dev := d.count (.spool c)

/-- Offer a frame without blocks, a response, to the uplink queue: placed, or dropped and counted (R95). -/
def Dev.offerUp (d : Dev) (f : UpFrame) : Dev :=
  if d.uplinkRoom then d.placeUp f else d.dropUp d.uplinkDropCause

end Sys2Proof.Machine
end

