-- ==== Sys2Proof/Machine/Pool.lean ====
section
/-! DEFINITION. The Block Pool Manager (R83 to R88) and the pause state it moves (R103 to R105). -/

namespace Sys2Proof.Machine

open Sys2Proof Host

/-! ### Pause frames (R104) -/

/-- The period of the pause repeat timer: half the time the quanta ask for (R104). -/
def repeatPeriod (quanta : Nat) : LinkSpeed → Nat
  | .mbps100 => quanta * 256
  | .mbps10 => quanta * 2560

/-- The time of a received pause hold: its time × 512 bit times at the link speed (R106). -/
def holdTime (time : Nat) : LinkSpeed → Nat
  | .mbps100 => time * 512
  | .mbps10 => time * 5120

/-- The time field of a pause frame sent now: the pause quanta as they stand, or 0 (R103, R104). -/
def Dev.pauseTime (d : Dev) : PauseKind → BitVec 16
  | .ask => BitVec.ofNat 16 d.set.pauseQuanta
  | .release => 0#16

/-- A pause frame leaves the MAC now: counted in pauses sent (R104). -/
def Dev.emitPause (d : Dev) (k : PauseKind) : Dev :=
  (d.modUp fun u => { u with portOut := ethWire (pauseBytes d.ownAddr (d.pauseTime k)) }).countUp .pausesSent

/-- A pause frame falls due: not sent while the link is DOWN, sent at the end of the frame being transmitted, or at
once if none is (R96, R103) (DESIGN CHOICE, log entry 14). -/
def Dev.sendPause (d : Dev) (k : PauseKind) : Dev :=
  if !d.up.link then d
  else if d.up.txBusy then d.modUp fun u => { u with pauseDue := u.pauseDue ++ [k] }
  else d.emitPause k

/-- Start the pause repeat timer; it runs while the link is UP (R104). -/
def Dev.startRepeat (d : Dev) : Dev :=
  d.modUp fun u =>
    { u with repeatTimer := if u.link then some (d.clock + repeatPeriod d.set.pauseQuanta u.speed) else none }

/-- The test of the pause state, made at every change of the free count and at every write of a pause level (R103). -/
def Dev.pauseTest (d : Dev) : Dev :=
  if !d.up.pauseOn && decide (d.pool.free < d.set.pauseOn) then
    (((d.modUp fun u => { u with pauseOn := true }).sendPause .ask).startRepeat).raise .poolLow .none
  else if d.up.pauseOn && decide (d.set.pauseOff ≤ d.pool.free) then
    (d.modUp fun u => { u with pauseOn := false, repeatTimer := none }).sendPause .release
  else d

/-! ### Requests for blocks (R84, R86, R87) -/

/-- A transit request for a coax frame passes: free count ≥ need + coax floor (R86). -/
def Dev.coaxTransitOk (d : Dev) (need : Nat) : Bool := decide (need + d.set.coaxFloor ≤ d.pool.free)

/-- A transit request for an Ethernet frame passes: free count ≥ need (R86). -/
def Dev.etherTransitOk (d : Dev) (need : Nat) : Bool := decide (need ≤ d.pool.free)

/-- A spool request passes: within the quota and leaving the transit reserve; a request for none always (R87). -/
def Dev.spoolOk (d : Dev) (need : Nat) : Bool :=
  need == 0 || (decide (d.pool.spool + need ≤ d.set.spoolQuota)
    && decide (d.set.transitReserve + need ≤ d.pool.free))

/-- Grant transit blocks (R84). -/
def Dev.takeTransit (d : Dev) (n : Nat) : Dev :=
  { d with pool := { d.pool with free := d.pool.free - n, transit := d.pool.transit + n } }.pauseTest

/-- Grant spool blocks (R84). -/
def Dev.takeSpool (d : Dev) (n : Nat) : Dev :=
  if n = 0 then d
  else { d with pool := { d.pool with free := d.pool.free - n, spool := d.pool.spool + n } }.pauseTest

/-- Return transit blocks to FREE (R84). -/
def Dev.freeTransit (d : Dev) (n : Nat) : Dev :=
  if n = 0 then d
  else { d with pool := { d.pool with free := d.pool.free + n, transit := d.pool.transit - n } }.pauseTest

/-- Return spool blocks to FREE (R84). -/
def Dev.freeSpool (d : Dev) (n : Nat) : Dev :=
  if n = 0 then d
  else { d with pool := { d.pool with free := d.pool.free + n, spool := d.pool.spool - n } }.pauseTest

end Sys2Proof.Machine
end

