-- ==== Sys2Proof/Machine/Feed.lean ====
section
/-! DEFINITION. The Printer Feeder's state and the Spooler's choice and ending of jobs: feed states and ready items
(R168 to R171), selection and handover (R155, R156, R170), loss (R177), the ending of a job (R149, R176) and endings that
wait for an exchange (R161). -/

namespace Sys2Proof.Machine

open Sys2Proof Host

/-- The printer's station is PRESENT or SLOW and its segment is in service (R170, R178). -/
def Dev.printerReachable (d : Dev) (p : Printer) : Bool :=
  d.inService p.seg &&
  match d.station p.seg p.number with
  | some e => e.state == .present || e.state == .slow
  | none => false

/-- A FEED turn for the printer that still waits on carrier ends without an exchange (R30, R177). -/
def Dev.endHeldFeed (d : Dev) (g : Seg) (id : Nat) : Dev :=
  d.modSched g fun s =>
    match s.turn with
    | some ⟨.feed i _, .held⟩ => if i = id then { s with turn := none } else s
    | _ => s

/-- The Feeder settles what is ready for a FEEDING printer with no item standing (R171): the head block of the ACTIVE
job's chain, the zero-length end of a closed job, or nothing. -/
def Dev.offerItem (d : Dev) (id : Nat) : Dev :=
  match d.printer id, d.activeJob id with
  | some p, some j =>
    if p.feed == .feeding && p.ready.isNone && (!j.chain.isEmpty || !j.isOpen) then
      d.modPrinter id fun p => { p with ready := some ⟨j.chain.isEmpty, d.clock⟩ }
    else d
  | _, _ => d

/-- The printer enters FEEDING, and its item is offered (R171). -/
def Dev.enterFeeding (d : Dev) (id : Nat) : Dev :=
  (d.modPrinter id fun p => { p with feed := .feeding, ready := none, busyTimer := none }).offerItem id

/-- A printer that is not LOST or DISABLED enters LOST (R177). -/
def Dev.makeLost (d : Dev) (id : Nat) : Dev :=
  match d.printer id with
  | some p =>
    if p.feed == .lost || p.feed == .disabled then d
    else
      (((d.endHeldFeed p.seg id).modPrinter id fun p =>
        { p with feed := .lost, ready := none, busyTimer := none, failCount := 0,
                 holdTimer := some (d.clock + p.holdTime * Config.sec) })).raise .printerLost (.printer id)
  | none => d

/-- Two stamps in the order in which they were issued: a lower than b when (b - a) mod 2^32 lies from 1 to 2147483647
(R148). -/
def stampBefore (a b : Nat) : Bool :=
  let diff := (b + 4294967296 - a % 4294967296) % 4294967296
  decide (1 ≤ diff) && decide (diff ≤ 2147483647)

/-- A job's stamp comes before another's. -/
def jobBefore (a b : Job) : Bool :=
  match a.stamp, b.stamp with
  | some x, some y => stampBefore x y
  | _, _ => false

/-- The job that selection chooses for a printer, if any (R155). The job table stands in the order of creation. -/
def Dev.chooseJob (d : Dev) (id : Nat) : Option Job :=
  let mine := d.spool.jobs.filter fun j => j.printer == id
  let filling := mine.filter fun j => j.state == .filling
  match leastBy jobBefore (mine.filter fun j => j.state == .queued) with
  | some j => some j
  | none =>
    match filling.find? fun j => decide (d.set.streamBlocks ≤ j.chain.length) with
    | some j => some j
    | none => if d.set.spoolQuota < d.pool.spool + 1 then filling.head? else none

/-- The job takes the next queued stamp (R148). -/
def Dev.takeStamp (d : Dev) (serial : Nat) : Dev :=
  let n := d.spool.stampCounter
  (d.modJob serial fun j => { j with stamp := some n }).modSpool fun s =>
    { s with stampCounter := (n + 1) % 4294967296 }

/-- Selection has chosen a job for an IDLE printer: it becomes ACTIVE, taking a stamp if it streams, and is handed to
the Feeder, which enters FEEDING or, where the printer cannot be reached, LOST (R155, R170). -/
def Dev.handOver (d : Dev) (id : Nat) (j : Job) : Dev :=
  let d := if j.state == .filling then d.takeStamp j.serial else d
  let d := d.modJob j.serial fun j => { j with state := .active }
  match d.printer id with
  | some p => if d.printerReachable p then d.enterFeeding id else d.makeLost id
  | none => d

/-- Run selection for a printer (R155, R156): only an IDLE printer is selected for. -/
def Dev.select (d : Dev) (id : Nat) : Dev :=
  match d.printer id with
  | some p =>
    if p.feed == .idle then
      match d.chooseJob id with
      | some j => d.handOver id j
      | none => d
    else d
  | none => d

/-- Run selection for every IDLE printer (R156: a change of the spool count, of the quota or of the stream blocks), in
ascending id (DESIGN CHOICE, log entry 56). -/
def Dev.selectAll (d : Dev) : Dev := printerIds.foldl Dev.select d

/-- The printer enters IDLE, where selection runs, or DISABLED where its disable is pending (R156, R172, R176): also one
that leaves LOST without a job (DEDUCED, log entry 57). -/
def Dev.enterIdle (d : Dev) (id : Nat) : Dev :=
  (d.modPrinter id fun p =>
    { p with feed := if p.disablePending then .disabled else .idle, disablePending := false, ready := none,
             sentMark := none, busyTimer := none }).select id

/-- The Feeder is told that its printer's ACTIVE job has ended (R176); a LOST printer whose disable is pending is
DISABLED (R172, R180) (DEDUCED, log entry 57). -/
def Dev.activeJobEnded (d : Dev) (id : Nat) : Dev :=
  match d.printer id with
  | some p =>
    let d := (d.endHeldFeed p.seg id).modPrinter id fun p => { p with ready := none, sentMark := none }
    match p.feed with
    | .feeding | .waitReady => d.enterIdle id
    | .lost =>
      if p.disablePending then
        d.modPrinter id fun p => { p with feed := .disabled, holdTimer := none, disablePending := false }
      else d
    | .stalled | .idle | .disabled => d
  | none => d

/-- The spool counter of an outcome (R149). -/
def JobOutcome.counter : JobOutcome → SpoolCounter
  | .done => .done
  | .cancelled => .cancelled
  | .failed _ => .failed

/-- The job ended with a failure (R149). -/
def JobOutcome.isFailure : JobOutcome → Bool
  | .failed _ => true
  | .done | .cancelled => false

/-- A summary joins the finished list at its newest end; the oldest of 16 leaves (R149). -/
def addSummary (l : List Summary) (x : Summary) : List Summary :=
  (if l.length < Config.finishedMax then l else l.drop 1) ++ [x]

/-- Steps 1 to 5 of a job's end: its blocks are freed, its record removed, a summary placed, the outcome counted, and
JOB_FAILED raised for a failure (R149). -/
def Dev.closeOut (d : Dev) (j : Job) (o : JobOutcome) : Dev :=
  let d := d.modSpool fun s => { s with jobs := removeFirst (fun x => x.serial == j.serial) s.jobs }
  let d := d.freeSpool j.chain.length
  let d := d.modSpool fun s =>
    { s with finished := addSummary s.finished ⟨j.id, j.printer, j.source, o, j.received, j.printed, d.uptime⟩ }
  let d := d.countSpool o.counter
  if o.isFailure then d.raise .jobFailed (.job j.id) else d

/-- A job ends (R149): step 6 tells the Feeder of an ACTIVE job, and the freed blocks let selection run (R156). A job
that has already ended is not found and nothing is done. -/
def Dev.endJob (d : Dev) (serial : Nat) (o : JobOutcome) : Dev :=
  match d.jobBySerial serial with
  | some j =>
    let d := d.closeOut j o
    let d := if j.state == .active then d.activeJobEnded j.printer else d
    d.selectAll
  | none => d

/-- A DELIVER of the job's item is in flight (R161). -/
def Dev.jobInFlight (d : Dev) (serial : Nat) : Bool :=
  allSegs.any fun g =>
    match (d.seg g).sched.turn with
    | some ⟨.feed _ n, .exchange _⟩ => n == serial
    | _ => false

/-- An ending of the job waits for an exchange (R161). -/
def Dev.endingWaits (d : Dev) (serial : Nat) : Bool := d.spool.endings.any fun w => w.serial == serial

/-- An ending reaches a job: it waits while a DELIVER of the job's item is in flight, and is applied at once
otherwise (R161). -/
def Dev.endJobOrWait (d : Dev) (serial : Nat) (o : JobOutcome) (asker : Asker) : Dev :=
  if d.jobInFlight serial then d.modSpool fun s => { s with endings := s.endings ++ [⟨serial, o, asker⟩] }
  else d.endJob serial o

/-- Fail every open job of a coax source with reason SOURCE_LOST (R159), in the order of their creation (DESIGN CHOICE,
log entry 52). -/
def Dev.failSource (d : Dev) (g : Seg) (n : Nat) : Dev :=
  let mine := d.spool.jobs.filter fun j => j.isOpen && j.source == .coax g n
  mine.foldl (fun d j => d.endJobOrWait j.serial (.failed .sourceLost) .nobody) d

/-- Fail every open job whose source is a coax station of the segment (R119, R159), in the order of their creation
(DESIGN CHOICE, log entry 52). -/
def Dev.failSegmentSources (d : Dev) (g : Seg) : Dev :=
  let mine := d.spool.jobs.filter fun j =>
    j.isOpen && (match j.source with | .coax h _ => h == g | .ethernet _ => false)
  mine.foldl (fun d j => d.endJobOrWait j.serial (.failed .sourceLost) .nobody) d

/-- The answer a waiting ending gives its asker: OK if it ended the job by cancelling it, NO_ENTRY if it found the job
ended (R161, R162). It goes to the request that waits, or to the answer of the command given alone. -/
def Dev.answerEnding (d : Dev) (asker : Asker) (st : Status) : Dev :=
  match asker with
  | .nobody => d
  | .request => d.modAgent fun a => { a with running := a.running.map fun r => { r with answer := some st } }
  | .command => d.modAgent fun a => { a with answer := some ⟨0x18#8, st, []⟩ }

/-- A waiting ending is applied to the job as it stands (R161). -/
def Dev.applyEnding (d : Dev) (w : WaitingEnding) : Dev :=
  match d.jobBySerial w.serial with
  | some _ => (d.endJob w.serial w.outcome).answerEnding w.asker .ok
  | none => d.answerEnding w.asker .noEntry

/-- Apply every waiting ending whose exchange has ended, in the order in which they came (R161). -/
def Dev.applyEndings (d : Dev) : Dev :=
  let ripe := d.spool.endings.filter fun w => !d.jobInFlight w.serial
  let d := d.modSpool fun s => { s with endings := s.endings.filter fun w => d.jobInFlight w.serial }
  ripe.foldl Dev.applyEnding d

/-- The printer enters STALLED and PRINTER_STALLED is raised (R175). -/
def Dev.makeStalled (d : Dev) (id : Nat) : Dev :=
  match d.printer id with
  | some p =>
    ((d.endHeldFeed p.seg id).modPrinter id fun p =>
      { p with feed := .stalled, ready := none, busyTimer := none }).raise .printerStalled (.printer id)
  | none => d

/-- A status of a GOOD reply reaches the Feeder (R175): a flag stalls an IDLE, FEEDING or WAIT_READY printer, and clear
flags release a STALLED one. -/
def Dev.printerStatus (d : Dev) (id : Nat) (flagged : Bool) : Dev :=
  match d.printer id with
  | some p =>
    match p.feed with
    | .idle | .feeding | .waitReady => if flagged then d.makeStalled id else d
    | .stalled =>
      if flagged then d
      else if (d.activeJob id).isSome then d.enterFeeding id
      else d.enterIdle id
    | .lost | .disabled => d
  | none => d

/-- A LOST printer recovers at a GOOD exchange while its station and segment are in service (R178). One that waits for
its station's role does not (R168). -/
def Dev.printerRecovers (d : Dev) (id : Nat) (flagged : Bool) : Dev :=
  match d.printer id with
  | some p =>
    if p.feed == .lost && !p.awaitingRole && d.printerReachable p then
      let d := d.modPrinter id fun p => { p with holdTimer := none, failCount := 0 }
      if flagged then d.makeStalled id
      else if (d.activeJob id).isSome then d.enterFeeding id
      else d.enterIdle id
    else d
  | none => d

/-- A GOOD reply to a POLL of a printer's station (R174, R175, R178): the failure count returns to 0, a LOST printer
recovers, and the status flags act. -/
def Dev.printerPolled (d : Dev) (id : Nat) (flagged : Bool) : Dev :=
  match d.printer id with
  | some p =>
    let d := d.modPrinter id fun p => { p with failCount := 0 }
    if p.feed == .lost then d.printerRecovers id flagged else d.printerStatus id flagged
  | none => d

/-- Steps 2 to 5 of R172 for the item of an exchange: the accepted block leaves the chain and is freed, frames out is
counted, the sent mark goes, and a LAST ends the job DONE. -/
def Dev.itemAccepted (d : Dev) (id serial : Nat) (zeroEnd : Bool) (m : Mark) : Dev :=
  let d :=
    match zeroEnd, d.jobBySerial serial with
    | false, some j =>
      (d.modJob serial fun j =>
        { j with chain := j.chain.drop 1, printed := addBytes j.printed (j.chain.headD []).length }).freeSpool
        (min 1 j.chain.length)
    | _, _ => d
  let d := match d.printer id with
    | some p => d.countSeg p.seg .framesOut
    | none => d
  let d := d.modPrinter id fun p => { p with ready := none, sentMark := none }
  if m = .last then d.endJob serial .done else d

/-- A feed DELIVER ended GOOD with an ACCEPT (R172, R177). -/
def Dev.feedAccepted (d : Dev) (id serial : Nat) (zeroEnd : Bool) (m : Mark) (flagged : Bool) : Dev :=
  match d.printer id with
  | some p =>
    let d := d.modPrinter id fun p => { p with failCount := 0 }
    if p.feed == .lost then (d.itemAccepted id serial zeroEnd m).selectAll
    else if flagged then
      -- the printer is STALLED instead of going on under step 6 or entering IDLE at step 5
      let d := (d.modPrinter id fun p => { p with feed := if m = .last ∧ p.disablePending then p.feed else .stalled,
                                                  ready := none, busyTimer := none })
      let d := (d.itemAccepted id serial zeroEnd m).selectAll
      match d.printer id with
      | some q => if q.feed == .stalled && p.feed != .stalled then d.raise .printerStalled (.printer id) else d
      | none => d
    else ((d.itemAccepted id serial zeroEnd m).offerItem id).selectAll
  | none => d

/-- A feed DELIVER ended GOOD with a REFUSE (R173, R175, R177). -/
def Dev.feedRefused (d : Dev) (id : Nat) (flagged : Bool) : Dev :=
  match d.printer id with
  | some p =>
    if p.feed == .lost then d
    else
      let d := d.modPrinter id fun p => { p with failCount := 0 }
      if flagged then d.printerStatus id true
      else if p.feed == .feeding then
        d.modPrinter id fun p =>
          { p with feed := .waitReady, ready := none, busyTimer := some (d.clock + p.busyRetry * Config.ms) }
      else d
  | none => d

/-- A feed DELIVER failed: the failure count rises, and at the lost limit the printer is LOST (R174, R177). -/
def Dev.feedFailed (d : Dev) (id : Nat) : Dev :=
  match d.printer id with
  | some p =>
    if p.feed == .lost then d
    else
      let n := min (p.failCount + 1) 15
      let d := d.modPrinter id fun p => { p with failCount := n }
      if p.lostLimit ≤ n then d.makeLost id else d
  | none => d

end Sys2Proof.Machine
end

