-- ==== Sys2Proof/Machine/Spool.lean ====
section
/-! DEFINITION. The Print Spooler's dealings with units and jobs: forming, appending, closing and refusing (R150 to R154),
cancel and redirect (R162, R163), and the enabling of printers (R164, R165, R180). -/

namespace Sys2Proof.Machine

open Sys2Proof Host

/-- The Spooler's answer to a unit (R150); an accepted unit names the job that took it. -/
inductive UnitAnswer where
  | accepted (job : Nat)
  | unavailable
  | limit
  | tableFull
  | full
  deriving DecidableEq, Repr

/-- A job is closed (R153): a FILLING job becomes QUEUED with the next stamp and selection runs; an ACTIVE one may now
have its zero-length end offered. -/
def Dev.closeJob (d : Dev) (serial : Nat) : Dev :=
  match d.jobBySerial serial with
  | some j =>
    match j.state with
    | .filling =>
      ((d.takeStamp serial).modJob serial fun j => { j with isOpen := false, state := .queued }).select j.printer
    | .active => (d.modJob serial fun j => { j with isOpen := false }).offerItem j.printer
    | .queued => d.modJob serial fun j => { j with isOpen := false }
  | none => d

/-- A unit of the job's source reaches an open job (R151): last arrival first, then the request for blocks; a unit
accepted with LAST closes the job, once selection has run on its blocks (DESIGN CHOICE, log entry 67). -/
def Dev.appendUnit (d : Dev) (j : Job) (payload : List Byte) (m : Mark) : Dev × UnitAnswer :=
  let d := d.modJob j.serial fun j => { j with lastArrival := d.uptime }
  let blocks := spoolBlocks payload
  if d.spoolOk blocks.length then
    let d := d.modJob j.serial fun j =>
      { j with chain := j.chain ++ blocks, received := addBytes j.received payload.length }
    let d := ((d.takeSpool blocks.length).offerItem j.printer).selectAll
    (if m = .last then d.closeJob j.serial else d, .accepted j.id)
  else (d, .full)

/-- The next id that no job holds, counting upward from the counter and from 255 to 1 (R148). `fuel` bounds the search;
255 reaches every id. -/
def freeJobId (jobs : List Job) : Nat → Nat → Nat
  | 0, n => n
  | fuel + 1, n => if jobs.any (fun j => j.id == n) then freeJobId jobs fuel (n % 255 + 1) else n

/-- A unit without an open job asks for a new one (R152): the tests in their order, then the record; a first unit marked
LAST closes it at once, before selection runs on its blocks. -/
def Dev.createJob (d : Dev) (p : Nat) (x : Source) (payload : List Byte) (m : Mark) : Dev × UnitAnswer :=
  let blocks := spoolBlocks payload
  match d.printer p with
  | none => (d, .unavailable)
  | some pr =>
    if !pr.enabled || pr.feed == .lost || !d.inService pr.seg then (d, .unavailable)
    else if pr.jobLimit ≤ d.jobCount p then (d, .limit)
    else if Config.jobMax ≤ d.spool.jobs.length then (d, .tableFull)
    else if !d.spoolOk blocks.length then (d, .full)
    else
      let id := freeJobId d.spool.jobs 255 d.spool.nextId
      let serial := d.spool.nextSerial
      let job : Job :=
        { serial := serial, id := id, printer := p, source := x, state := .filling, isOpen := true, chain := blocks,
          received := payload.length, printed := 0, created := d.uptime, lastArrival := d.uptime, stamp := none }
      let d := d.modSpool fun s =>
        { s with jobs := s.jobs ++ [job], nextId := id % 255 + 1, nextSerial := serial + 1 }
      let d := d.takeSpool blocks.length
      ((if m = .last then d.closeJob serial else d).selectAll, .accepted id)

/-- The Spooler decides one unit for the printer at a station and counts its answer (R150 to R152). -/
def Dev.takeUnit (d : Dev) (g : Seg) (n : Nat) (x : Source) (payload : List Byte) (m : Mark) : Dev × UnitAnswer :=
  let r :=
    match d.printerAt g n with
    | none => (d, UnitAnswer.unavailable)
    | some p =>
      match d.openJob x p with
      | some j => d.appendUnit j payload m
      | none => d.createJob p x payload m
  match r.2 with
  | .accepted _ => (r.1.countSpool .accepted, r.2)
  | _ => (r.1.countSpool .refused, r.2)

/-- An open job is past the job idle time (R154); a time after the present uptime is no age (DESIGN CHOICE, log entry
62). -/
def Dev.jobIdlePast (d : Dev) (j : Job) : Bool := j.isOpen && decide (d.set.jobIdle ≤ d.uptime - j.lastArrival)

/-- Close at once the open jobs past the job idle time (R154, R157), in the order of their creation (DESIGN CHOICE, log
entry 52). -/
def Dev.closeIdleJobs (d : Dev) : Dev :=
  (d.spool.jobs.filter d.jobIdlePast).foldl (fun d j => d.closeJob j.serial) d

/-- JOB_REDIRECT: the status, after the tests in their order, and the move; a job that none of them refuses is left at
its own printer (R163) (DEDUCED, log entry 22). -/
def Dev.redirectJob (d : Dev) (id target : Nat) : Dev × Status :=
  if Config.printerMax ≤ target then (d, .range)
  else
    match d.jobById id, d.printer target with
    | some j, some p =>
      if j.state == .active then (d, .wrongState)
      else if !p.enabled || p.feed == .lost then (d, .wrongState)
      else if p.jobLimit ≤ d.jobCount target then (d, .full)
      else if j.state == .filling && (d.openJob j.source target).isSome then (d, .inUse)
      else if j.printer = target then (d, .ok)
      else ((d.modJob j.serial fun j => { j with printer := target }).select target, .ok)
    | _, _ => (d, .noEntry)

/-- PRINTER_DISABLE (R164, R180). -/
def Dev.disablePrinter (d : Dev) (id : Nat) : Dev × Status :=
  if Config.printerMax ≤ id then (d, .range)
  else
    match d.printer id with
    | none => (d, .noEntry)
    | some p =>
      if !p.enabled then (d, .ok)
      else if (d.activeJob id).isSome then
        (d.modPrinter id fun p => { p with enabled := false, disablePending := true }, .ok)
      else if p.awaitingRole then (d.modPrinter id fun p => { p with enabled := false }, .ok)
      else
        (d.modPrinter id fun p => { p with enabled := false, feed := .disabled, ready := none, holdTimer := none },
          .ok)

/-- PRINTER_ENABLE (R165, R180). -/
def Dev.enablePrinter (d : Dev) (id : Nat) : Dev × Status :=
  if Config.printerMax ≤ id then (d, .range)
  else
    match d.printer id with
    | none => (d, .noEntry)
    | some p =>
      if p.enabled then (d, .wrongState)
      else if p.feed == .disabled then
        ((d.modPrinter id fun p =>
          { p with enabled := true, feed := .idle, disablePending := false, failCount := 0 }).select id, .ok)
      else (d.modPrinter id fun p => { p with enabled := true, disablePending := false }, .ok)

end Sys2Proof.Machine
end

