-- ==== Sys2Proof/Machine/Plan.lean ====
section
/-! DEFINITION. The poll plan and its cycles (R31 to R35), and the holds of a Turn Scheduler (R36 to R38). -/

namespace Sys2Proof.Machine

open Sys2Proof Host

/-- The visits of a weight in a sub-round: (w div 4), plus 1 if the sub-round is below (w mod 4) (R31). -/
def visitsIn (weight sub : Nat) : Nat := weight / 4 + (if sub < weight % 4 then 1 else 0)

/-- The weight under which a station enters the plan: a PRINTER station of weight 0 counts as 1 (R32). -/
def planWeight (e : Station) : Nat := if e.role = .printer ∧ e.weight = 0 then 1 else e.weight

/-- The visits of a station in a sub-round of the cycle of a given number (R32). -/
def stationVisits (e : Station) (cycle sub : Nat) : Nat :=
  match e.state with
  | .present => visitsIn (planWeight e) sub
  | .slow => if planWeight e ≠ 0 ∧ cycle % 8 = 0 ∧ sub = 0 then 1 else 0
  | .absent | .quarantined | .duplicate => 0

/-- The visits of one pass of one sub-round, in ascending station number; the list is in the table's order (R31). -/
def passVisits (es : List Station) (cycle sub pass : Nat) : List Visit :=
  (es.filter fun e => pass < stationVisits e cycle sub).map fun e => ⟨e.eid, e.number, sub, pass⟩

/-- The plan snapshot: four sub-rounds of four passes (R31, R33). -/
def planOf (es : List Station) (cycle : Nat) : List Visit :=
  (List.range 4).flatMap fun i => (List.range 4).flatMap fun j => passVisits es cycle i j

/-- A cycle starts: its start time is recorded, the written floor taken into effect, and the plan built (R34, R35). -/
def Dev.startCycle (d : Dev) (g : Seg) : Dev :=
  let plan := planOf (d.stations.filter fun e => e.seg == g) (d.seg g).sched.cycleCount
  d.modSeg g fun s =>
    { s with sched := { s.sched with
        cycleStart := some d.clock, floorInEffect := s.cfg.cycleFloor,
        cycle := if plan.isEmpty then .empty else .running plan } }

/-- A cycle in progress ends: the cycle count is incremented, wrapping from 65535 (R34). Where none is in progress, a
departure from service has none to end, and the count stands (R38) (DEDUCED, log entry 59). -/
def Scheduler.endCycle (s : Scheduler) (after : Cycle) : Scheduler :=
  match s.cycle with
  | .running _ | .empty => { s with cycle := after, cycleCount := (s.cycleCount + 1) % 65536 }
  | .none | .ended => { s with cycle := after }

/-- Put what is left of the plan; with no visit left the cycle ends (R34). -/
def Scheduler.withVisits (s : Scheduler) (vs : List Visit) : Scheduler :=
  if vs.isEmpty then s.endCycle .ended else { s with cycle := .running vs }

/-- The remaining visits of an entry are skipped (R33, R44, R45). -/
def Dev.skipVisits (d : Dev) (g : Seg) (eid : Nat) : Dev :=
  d.modSched g fun s =>
    match s.cycle with
    | .running vs => s.withVisits (vs.filter fun v => v.eid != eid)
    | _ => s

/-- A POLL turn that still waits on carrier ends without an exchange when its station can no longer be polled (R30). -/
def Dev.endHeldPoll (d : Dev) (g : Seg) (eid : Nat) : Dev :=
  d.modSched g fun s =>
    match s.turn with
    | some ⟨.poll e, .held⟩ => if e = eid then { s with turn := none } else s
    | _ => s

/-- What the Turn Scheduler does when its segment leaves the medium-using states: it stops, a turn waiting on carrier
ends, the cycle ends, the plan goes and the hold list is cleared, and a hold that has the medium loses it (R38, R119). -/
def Scheduler.depart (s : Scheduler) : Scheduler :=
  { s.endCycle .none with
    cycleStart := none, holds := [], medium := none,
    turn := match s.turn with
      | some ⟨_, .held⟩ => none
      | t => t }

/-- A hold joins the hold list (R36, R37). -/
def Dev.askHold (d : Dev) (g : Seg) (h : Hold) : Dev := d.modSched g fun s => { s with holds := s.holds ++ [h] }

/-- A hold is withdrawn from the list (R50). -/
def Dev.withdrawHold (d : Dev) (g : Seg) (h : Hold) : Dev :=
  d.modSched g fun s => { s with holds := s.holds.filter fun x => x != h }

/-- A hold that has the medium ends (R36, R37). -/
def Dev.endHold (d : Dev) (g : Seg) (h : Hold) : Dev :=
  d.modSched g fun s => if s.medium = some h then { s with medium := none } else s

/-- A discovery pass falls due (R50): only an IDLE pass state takes it; it asks for the medium while the segment is
ACTIVE or TRIAL and is deferred while it is STRAINED. -/
def Dev.passDue (d : Dev) (g : Seg) : Dev :=
  if (d.seg g).disc.pass == .idle then
    let d := d.modDisc g fun x => { x with pass := .due, intervalTimer := none }
    match (d.seg g).mon.state with
    | .active | .trial => d.askHold g .discovery
    | _ => d
  else d

/-- The discovery interval timer is started (R50). -/
def Dev.startInterval (d : Dev) (g : Seg) : Dev :=
  d.modDisc g fun x => { x with intervalTimer := some (d.clock + (d.seg g).cfg.discoveryInterval * Config.sec) }

end Sys2Proof.Machine
end

