-- ==== Sys2Proof/Machine/Forward.lean ====
section
/-! DEFINITION. The downstream queues (R92, R93): placing, removing and flushing frames, and the refuse-backoffs (R22). -/

namespace Sys2Proof.Machine

open Sys2Proof Host

/-- A frame's payload. -/
def DownFrame.payload (f : DownFrame) : List Byte := f.blocks.flatten

/-- The frame's DELIVER is being sent or awaits its reply (R21). -/
def Segment.inFlight (s : Segment) (f : DownFrame) : Bool :=
  match s.sched.turn with
  | some ⟨.deliver fid, .exchange _⟩ => fid == f.fid
  | some ⟨.deliver fid, .broadcast _⟩ => fid == f.fid
  | _ => false

/-- A frame on a downstream queue, by the model's own name of it. -/
def Dev.frame (d : Dev) (g : Seg) (fid : Nat) : Option DownFrame := (d.seg g).downq.find? fun f => f.fid == fid

/-- Change a frame on a downstream queue. -/
def Dev.modFrame (d : Dev) (g : Seg) (fid : Nat) (f : DownFrame → DownFrame) : Dev :=
  d.modSeg g fun s => { s with downq := modifyFirst (fun x => x.fid == fid) f s.downq }

/-- Place a frame at the tail of a downstream queue, its blocks already granted (R89, R91, R92). -/
def Dev.placeDown (d : Dev) (g : Seg) (dest fromNum : Nat) (m : Mark) (payload : List Byte) : Dev :=
  let f : DownFrame :=
    { fid := d.nextFid, dest := dest, fromNum := fromNum, mark := m, blocks := transitBlocks payload,
      enqueued := d.clock, failed := 0, refused := 0, flushMark := false }
  { d.modSeg g fun s => { s with downq := s.downq ++ [f] } with nextFid := d.nextFid + 1 }

/-- Remove a frame from its queue and free its blocks (R92). -/
def Dev.removeFrame (d : Dev) (g : Seg) (f : DownFrame) : Dev :=
  ((d.modSeg g fun s => { s with downq := removeFirst (fun x => x.fid == f.fid) s.downq }).freeTransit
    f.blocks.length).selectAll

/-- A DELIVER turn that still waits on carrier ends without an exchange when its frame has been taken away (R30). -/
def Dev.endHeldDeliver (d : Dev) (g : Seg) (fid : Nat) : Dev :=
  d.modSched g fun s =>
    match s.turn with
    | some ⟨.deliver x, .held⟩ => if x = fid then { s with turn := none } else s
    | _ => s

/-- One frame reached by a flush, not in flight: removed, its blocks freed, counted FLUSHED (R93). -/
def Dev.flushOne (d : Dev) (g : Seg) (f : DownFrame) : Dev :=
  ((d.endHeldDeliver g f.fid).removeFrame g f).dropSeg g .flushed

/-- Flush the frames of a queue that meet a condition; one whose DELIVER is in flight is marked and stays (R93). -/
def Dev.flush (d : Dev) (g : Seg) (p : DownFrame → Bool) : Dev :=
  let s := d.seg g
  let gone := s.downq.filter fun f => p f && !s.inFlight f
  let d := d.modSeg g fun s =>
    { s with downq := s.downq.map fun f => if p f && s.inFlight f then { f with flushMark := true } else f }
  gone.foldl (fun d f => d.flushOne g f) d

/-- A station's refuse-backoff ends (R22). -/
def Dev.endBackoff (d : Dev) (g : Seg) (n : Nat) : Dev :=
  d.modSeg g fun s => { s with backoffs := s.backoffs.filter fun b => b.number != n }

/-- A station's refuse-backoff starts, or starts again, to run 50 ms from now (R22). -/
def Dev.startBackoff (d : Dev) (g : Seg) (n : Nat) : Dev :=
  d.modSeg g fun s =>
    { s with backoffs := (s.backoffs.filter fun b => b.number != n) ++ [⟨n, d.clock + 50 * Config.ms⟩] }

/-- The flush of one station's frames, with its backoff (R44, R45, R93). -/
def Dev.flushStation (d : Dev) (g : Seg) (n : Nat) : Dev :=
  (d.flush g fun f => f.dest == n).endBackoff g n

/-- The flush when a printer entry comes to name a station: its frames, and every broadcast of its segment (R93,
R94). -/
def Dev.flushForPrinter (d : Dev) (g : Seg) (n : Nat) : Dev :=
  (d.flush g fun f => f.dest == n || f.dest == 255).endBackoff g n

/-- The flush of a whole queue, with every backoff of the segment (R93, R119). -/
def Dev.flushQueue (d : Dev) (g : Seg) : Dev :=
  (d.flush g fun _ => true).modSeg g fun s => { s with backoffs := [] }

end Sys2Proof.Machine
end

