-- ==== Sys2Proof/Machine/Aliases.lean ====
section
/-! DEFINITION. The Alias Translator's table: lookup, allocation and withdrawal (R64 to R66, R72 to R77), conflicts with
station entries (R78, R79) and the base address (R63). -/

namespace Sys2Proof.Machine

open Sys2Proof Host

/-- The order of both tables: by segment, then by number (R41, R64). -/
def placeBefore (g : Seg) (n : Nat) (h : Seg) (m : Nat) : Bool :=
  decide (segNat g < segNat h) || (segNat g == segNat h && decide (n < m))

/-- The alias that holds a number on a segment. -/
def Dev.aliasAt (d : Dev) (g : Seg) (n : Nat) : Option AliasEntry :=
  d.aliases.find? fun a => a.seg == g && a.number == n

/-- Put an alias in its place in the table's order (R64). -/
def Dev.addAlias (d : Dev) (a : AliasEntry) : Dev :=
  { d with aliases := insertBy (fun x y => placeBefore x.seg x.number y.seg y.number) a d.aliases }

/-- Withdraw the aliases that meet a condition: they leave the table (R64). -/
def Dev.withdrawAliases (d : Dev) (p : AliasEntry → Bool) : Dev :=
  { d with aliases := d.aliases.filter fun a => !p a }

/-- Withdraw one alias (R64). -/
def Dev.withdrawAlias (d : Dev) (g : Seg) (n : Nat) : Dev :=
  d.withdrawAliases fun a => a.seg == g && a.number == n

/-- Change the alias that holds a number on a segment. -/
def Dev.modAlias (d : Dev) (g : Seg) (n : Nat) (f : AliasEntry → AliasEntry) : Dev :=
  { d with aliases := modifyFirst (fun a => a.seg == g && a.number == n) f d.aliases }

/-- The alias is used: last used takes the current uptime (R76). -/
def Dev.useAlias (d : Dev) (g : Seg) (n : Nat) : Dev := d.modAlias g n fun a => { a with lastUsed := d.uptime }

/-- The ACTIVE alias of a segment that names a target, STATIC before DYNAMIC (R72). -/
def Dev.aliasFor (d : Dev) (g : Seg) (t : Target) : Option AliasEntry :=
  let found := d.aliases.filter fun a => a.seg == g && a.state == .active && a.target == t
  match found.find? fun a => a.kind == .static with
  | some a => some a
  | none => found.head?

/-- A number is held on a segment, by a station entry or by an alias of any kind and state (R73). -/
def Dev.numberHeld (d : Dev) (g : Seg) (n : Nat) : Bool := (d.station g n).isSome || (d.aliasAt g n).isSome

/-- The lowest number of the segment's alias range that nothing holds (R73). -/
def Dev.freeNumber (d : Dev) (g : Seg) : Option Nat :=
  let c := (d.seg g).cfg
  ((List.range 255).filter fun n => decide (c.aliasLow ≤ n) && decide (n ≤ c.aliasHigh)).find? fun n =>
    !d.numberHeld g n

/-- The least recently used alias that meets a condition; ties go to the lowest segment, then number, the order of the
table (R74). -/
def Dev.lruAlias (d : Dev) (p : AliasEntry → Bool) : Option AliasEntry :=
  leastBy (fun a b => decide (a.lastUsed < b.lastUsed)) (d.aliases.filter p)

/-- Create a DYNAMIC alias (R73). -/
def Dev.newDynamic (d : Dev) (g : Seg) (n : Nat) (t : Target) : Dev :=
  d.addAlias { seg := g, number := n, kind := .dynamic, target := t, state := .active, lastUsed := d.uptime,
               created := d.uptime }

/-- The alias may be withdrawn for room: DYNAMIC, and its last use at least 10 s ago (R74); a time after the present
uptime is no age (DESIGN CHOICE, log entry 62). -/
def Dev.pastMinimumHold (d : Dev) (a : AliasEntry) : Bool :=
  a.kind == .dynamic && decide (a.lastUsed + Config.aliasMinimumHold ≤ d.uptime)

/-- Allocate a from number, making room if need be; an allocation that finds no room changes no entry and raises
ALIAS_EXHAUSTED (R73, R74). -/
def Dev.allocate (d : Dev) (g : Seg) (t : Target) : Dev × Option Nat :=
  let c := (d.seg g).cfg
  match d.freeNumber g with
  | some n =>
    if d.aliases.length < Config.aliasMax then (d.newDynamic g n t, some n)
    else
      match d.lruAlias d.pastMinimumHold with
      | some a =>
        let d := d.withdrawAlias a.seg a.number
        match d.freeNumber g with
        | some n => (d.newDynamic g n t, some n)
        | none => (d, none)
      | none => (d.raise .aliasExhausted (.segment g), none)
  | none =>
    match d.lruAlias fun a => d.pastMinimumHold a && a.seg == g && decide (c.aliasLow ≤ a.number)
        && decide (a.number ≤ c.aliasHigh) with
    | some a => ((d.withdrawAlias a.seg a.number).newDynamic g a.number t, some a.number)
    | none => (d.raise .aliasExhausted (.segment g), none)

/-- Find or allocate the number by which a segment knows a target (R72 to R75). -/
def Dev.fromNumber (d : Dev) (g : Seg) (t : Target) : Dev × Option Nat :=
  match d.aliasFor g t with
  | some a => (d.useAlias g a.number, some a.number)
  | none => d.allocate g t

/-- The conflict check, when a station entry comes into being on a number (R78). -/
def Dev.conflictCheck (d : Dev) (g : Seg) (n : Nat) : Dev :=
  match d.aliasAt g n with
  | none => d
  | some a =>
    match a.kind, a.state with
    | .dynamic, _ => d.withdrawAlias g n
    | .static, .active => (d.modAlias g n fun a => { a with state := .conflict }).raise .aliasConflict (.station g n)
    | .static, .conflict => d

/-- The conflict release, when a station entry on a number is removed (R79). -/
def Dev.conflictRelease (d : Dev) (g : Seg) (n : Nat) : Dev :=
  match d.aliasAt g n with
  | none => d
  | some a =>
    if a.kind == .static && a.state == .conflict then
      (d.modAlias g n fun a => { a with state := .active }).withdrawAliases fun b =>
        b.kind == .dynamic && b.seg == g && b.target == a.target
    else d

/-- The DYNAMIC alias is past the alias idle time (R77); a time after the present uptime is no age (DESIGN CHOICE, log
entry 62). -/
def Dev.aliasIdlePast (d : Dev) (a : AliasEntry) : Bool :=
  a.kind == .dynamic && decide (d.set.aliasIdle ≤ d.uptime - a.lastUsed)

/-- Withdraw the DYNAMIC aliases past the idle time (R77). -/
def Dev.withdrawIdle (d : Dev) : Dev := d.withdrawAliases d.aliasIdlePast

/-- Withdraw the DYNAMIC aliases of a segment outside its range (R66). -/
def Dev.withdrawOutside (d : Dev) (g : Seg) : Dev :=
  let c := (d.seg g).cfg
  d.withdrawAliases fun a =>
    a.kind == .dynamic && a.seg == g && (decide (a.number < c.aliasLow) || decide (c.aliasHigh < a.number))

/-- The target is an Ethernet address in the proxy range of a base address. -/
def inProxy (base : Addr) : Target → Bool
  | .ethernet a => inProxyRange base a
  | .station _ _ => false

/-- Withdraw the DYNAMIC aliases whose Ethernet address lies in the proxy range (R63). -/
def Dev.withdrawInProxy (d : Dev) : Dev :=
  d.withdrawAliases fun a => a.kind == .dynamic && inProxy d.set.base a.target

end Sys2Proof.Machine
end

