-- ==== Sys2Proof/Machine/Directory.lean ====
section
/-! DEFINITION. The Station Directory: entries and their removal (R40, R41, R45), what an entry's state hands on (R44),
misses and jabber strikes (R15, R42, R43), quarantine and release (R46 to R48), and the results of a discovery pass
(R55 to R58). -/

namespace Sys2Proof.Machine

open Sys2Proof Host

/-- A new entry's fields, with initial sequence state and all counts 0 (R16, R20, R55, R59). -/
def Station.fresh (eid : Nat) (g : Seg) (n : Nat) (st : StationState) (o : Origin) : Station :=
  { eid := eid, seg := g, number := n, state := st, cause := none, origin := o, role := .terminal, weight := 4,
    tap := none, misses := 0, dupStrikes := 0, jabStrikes := 0, lastSeq := none, pendingAck := .none, nextBit := false,
    lastHeard := none, absentSince := none }

/-- Put an entry into the table in its order, under a name of its own (R41). -/
def Dev.insertStation (d : Dev) (e : Station) : Dev :=
  { d with
    stations := insertBy (fun x y => placeBefore x.seg x.number y.seg y.number) { e with eid := d.nextEid } d.stations,
    nextEid := d.nextEid + 1 }

/-- An entry comes into being: it joins the table and the Alias Translator runs its conflict check (R78). -/
def Dev.createStation (d : Dev) (e : Station) : Dev := (d.insertStation e).conflictCheck e.seg e.number

/-- The removal of an entry and what it hands on (R45). -/
def Dev.removeStation (d : Dev) (e : Station) : Dev :=
  let d := { d with stations := removeFirst (fun x => x.eid == e.eid) d.stations }
  ((((d.flushStation e.seg e.number).conflictRelease e.seg e.number).skipVisits e.seg e.eid).endHeldPoll e.seg e.eid)

/-- An entry with a new state: absent since and the quarantine cause come and go with their states (R44). -/
def Station.inState (e : Station) (st : StationState) (c : Option QuarantineCause) (now : Nat) : Station :=
  { e with state := st, cause := if st = .quarantined then c else none,
           absentSince := if st = .absent then some now else none }

/-- An entry enters ABSENT, QUARANTINED or DUPLICATE, and the change is handed on (R44): its printer is LOST before jobs
of its source fail (DESIGN CHOICE, log entry 64). -/
def Dev.shutOut (d : Dev) (e : Station) (st : StationState) (c : Option QuarantineCause) : Dev :=
  let d := d.modStation e.eid fun e => e.inState st c d.uptime
  let d := d.flushStation e.seg e.number
  let d := match e.role, d.printerAt e.seg e.number with
    | .printer, some p => d.makeLost p
    | _, _ => d
  let d := if st = .absent then d else d.failSource e.seg e.number
  (d.skipVisits e.seg e.eid).endHeldPoll e.seg e.eid

/-- The Line Monitor asks the Directory to quarantine a station with cause SUSPECT (R46); STATION_SUSPECT is raised once
the change has been handed on (DESIGN CHOICE, log entry 68). -/
def Dev.quarantineSuspect (d : Dev) (g : Seg) (n : Nat) : Dev :=
  match d.station g n with
  | some e =>
    if e.state == .quarantined then d
    else (d.shutOut e .quarantined (some .suspect)).raise .stationSuspect (.station g n)
  | none => d

/-- A GOOD outcome reaches an entry: misses and strikes clear, last heard is set, and SLOW becomes PRESENT (R15, R42,
R43). -/
def Dev.stationGood (d : Dev) (e : Station) : Dev :=
  d.modStation e.eid fun e =>
    { e with misses := 0, jabStrikes := 0, lastHeard := some d.uptime,
             state := if e.state = .slow then .present else e.state }

/-- A failed outcome reaches an entry: one miss, a jabber strike or none, and the thresholds (R15, R42, R43). Where
the second jabber strike falls, R43 decides the state (DEDUCED, log entry 21). STATION_ABSENT and STATION_JABBER are raised
once the change has been handed on (DESIGN CHOICE, log entry 68). -/
def Dev.stationFailed (d : Dev) (e : Station) (c : FailCause) : Dev :=
  let misses := sat255 e.misses
  let strikes := if c = .jabber then e.jabStrikes + 1 else 0
  let d := d.modStation e.eid fun e =>
    { e with misses := misses, jabStrikes := if 2 ≤ strikes then 0 else strikes }
  if 2 ≤ strikes then
    if e.state = .quarantined then d
    else (d.shutOut e .quarantined (some .jabber)).raise .stationJabber (.station e.seg e.number)
  else
    match e.state with
    | .present => if 3 ≤ misses then d.modStation e.eid fun e => { e with state := .slow } else d
    | .slow =>
      if 13 ≤ misses then (d.shutOut e .absent none).raise .stationAbsent (.station e.seg e.number) else d
    | .absent | .quarantined | .duplicate => d

/-- STATION_QUARANTINE on an entry (R47). -/
def Dev.quarantineByManager (d : Dev) (e : Station) : Dev :=
  if e.state == .quarantined then d.modStation e.eid fun e => { e with cause := some .manager }
  else d.shutOut e .quarantined (some .manager)

/-- STATION_RELEASE on a QUARANTINED entry (R48): it enters ABSENT, which is handed on (R44). -/
def Dev.releaseStation (d : Dev) (e : Station) : Dev :=
  (d.shutOut e .absent none).modStation e.eid fun e => { e with misses := 0, jabStrikes := 0, dupStrikes := 0 }

/-- An entry that may be evicted or forgotten: DISCOVERED, TERMINAL, ABSENT, and named by no printer entry (R57, R58). -/
def Dev.forgettable (d : Dev) (e : Station) : Bool :=
  e.origin == .discovered && e.role == .terminal && e.state == .absent && (d.printerAt e.seg e.number).isNone

/-- The entry has been ABSENT for longer than the absent-forget time (R58); a time after the present uptime is no age
(DESIGN CHOICE, log entry 62). -/
def Dev.forgetPast (d : Dev) (e : Station) : Bool :=
  d.forgettable e &&
  match e.absentSince with
  | some t => decide (d.set.absentForget < d.uptime - t)
  | none => false

/-- Remove at once the entries already past the absent-forget time (R58). -/
def Dev.forgetAll (d : Dev) : Dev := (d.stations.filter d.forgetPast).foldl Dev.removeStation d

/-- Remove a station's entry at once if it is past the absent-forget time (R58). -/
def Dev.forgetAt (d : Dev) (g : Seg) (n : Nat) : Dev :=
  match d.station g n with
  | some e => if d.forgetPast e then d.removeStation e else d
  | none => d

/-- A pass must create an entry: into a full table it evicts the entry ABSENT longest, and where none qualifies the
station is not entered and STATION_TABLE_FULL is raised (R57). An entry made raises its event, and the Alias Translator
then runs its conflict check (R55, R56); one made DUPLICATE hands nothing else on (DESIGN CHOICE, log entry 55). `true`
where it was made. -/
def Dev.enterStation (d : Dev) (e : Station) (k : EventKind) : Dev × Bool :=
  let enter := fun (d : Dev) =>
    ((d.insertStation e).raise k (.station e.seg e.number)).conflictCheck e.seg e.number
  if d.stations.length < Config.stationMax then (enter d, true)
  else
    match leastBy (fun a b => decide (a.absentSince.getD 0 < b.absentSince.getD 0))
        (d.stations.filter d.forgettable) with
    | some old => (enter (d.removeStation old), true)
    | none => (d.raise .stationTableFull (.segment e.seg), false)

/-- What being found CLEAN does to a standing entry (R55). -/
def Station.foundClean (e : Station) (now : Nat) : Station :=
  let e : Station := { e with misses := 0, dupStrikes := 0, jabStrikes := 0, lastHeard := some now }
  match e.state with
  | .present | .quarantined => e
  | .slow | .duplicate => { e with state := .present }
  | .absent =>
    { e with state := .present, absentSince := none, lastSeq := none, pendingAck := .none, nextBit := false }

/-- The printer's sent mark is cleared when its station is found again after being ABSENT (R178). -/
def Dev.clearSentMark (d : Dev) (g : Seg) (n : Nat) : Dev :=
  match d.printerAt g n with
  | some p => d.modPrinter p fun p => { p with sentMark := none }
  | none => d

/-- A number found CLEAN is applied (R55). -/
def Dev.applyFound (d : Dev) (g : Seg) (n : Nat) : Dev :=
  match d.station g n with
  | some e =>
    let d := d.modStation e.eid fun e => e.foundClean d.uptime
    if e.state == .absent then d.clearSentMark g n else d
  | none =>
    (d.enterStation { Station.fresh 0 g n .present .discovered with lastHeard := some d.uptime } .stationNew).1

/-- A duplicate candidate is applied; `true` where it is kept for the new pending-duplicates list (R56, R57).
STATION_DUPLICATE is raised once the change has been handed on (DESIGN CHOICE, log entry 68). -/
def Dev.applyCandidate (d : Dev) (g : Seg) (n : Nat) : Dev × Bool :=
  match d.station g n with
  | some e =>
    match e.state with
    | .present | .slow | .absent =>
      let strikes := min (e.dupStrikes + 1) 2
      let d := d.modStation e.eid fun e => { e with dupStrikes := strikes }
      if strikes = 2 then ((d.shutOut e .duplicate none).raise .stationDuplicate (.station g n), false) else (d, false)
    | .duplicate => (d.modStation e.eid fun e => { e with dupStrikes := 2 }, false)
    | .quarantined => (d.modStation e.eid fun e => { e with dupStrikes := min (e.dupStrikes + 1) 2 }, false)
  | none =>
    if (d.seg g).disc.pendingDup.contains n then
      let r := d.enterStation
        { Station.fresh 0 g n .duplicate .discovered with dupStrikes := 2, lastHeard := some d.uptime }
        .stationDuplicate
      (r.1, !r.2)
    else (d, true)

/-- Apply the results of a pass in ascending number, and gather the numbers for the new pending-duplicates list (R55,
R56); a candidate whose entry takes its strike and is then evicted for a higher number is not among them (DESIGN CHOICE,
log entry 60). -/
def Dev.applyResults (g : Seg) (found cands : List Nat) : List Nat → Dev → List Nat → Dev × List Nat
  | [], d, kept => (d, kept)
  | n :: ns, d, kept =>
    if found.contains n then Dev.applyResults g found cands ns (d.applyFound g n) kept
    else if cands.contains n then
      let r := d.applyCandidate g n
      Dev.applyResults g found cands ns r.1 (if r.2 then kept ++ [n] else kept)
    else Dev.applyResults g found cands ns d kept

end Sys2Proof.Machine
end

