-- ==== Sys2Proof/Machine/Monitor.lean ====
section
/-! DEFINITION. The Line Monitor: segment states and the transmit enable (R109), departure from service (R119), charges,
drains and thresholds (R111 to R114), the suspect analysis (R117), trips and the isolation record (R118, R129), probe
results (R121, R123), and the beginning of probes (R132, R133). -/

namespace Sys2Proof.Machine

open Sys2Proof Host

/-- A turn whose exchange, or broadcast, is in flight (R9, R30). -/
def Segment.exchangeInFlight (s : Segment) : Bool :=
  match s.sched.turn with
  | some ⟨_, .exchange _⟩ => true
  | some ⟨_, .broadcast _⟩ => true
  | _ => false

/-- The probe pulse line is up: a shot's pulse, which is taken to stand from its launch until the shot is recorded (R138)
(DESIGN CHOICE, log entry 51). -/
def Segment.probePulse (s : Segment) : Bool := s.probe.phase == .shots && s.probe.capturing

/-- The transmit enable follows the segment state; outside service it stays on until an exchange in flight has ended,
and for a probe pulse (R109, R135). -/
def Segment.settleEnable (s : Segment) : Segment :=
  { s with txEnable := s.mon.state.mediumUsing || s.probePulse || (s.txEnable && s.exchangeInFlight) }

/-- A probe pulse is launched, and the transmit enable is up for it (R109, R135, R138). -/
def Segment.startPulse (s : Segment) (now : Nat) : Segment :=
  { s with probe := { s.probe with capturing := true, launched := now }, txEnable := true }

/-- A probe pulse and its capture end, or are cut off, and the transmit enable is again as the state and an exchange in
flight have it (R109, R135, R144). -/
def Segment.endPulse (s : Segment) : Segment :=
  { s with
    probe := { s.probe with capturing := false }
    txEnable := if s.probePulse then s.mon.state.mediumUsing || s.exchangeInFlight else s.txEnable }

/-- The segment goes to a state (R109). -/
def Dev.setSegState (d : Dev) (g : Seg) (st : SegState) : Dev :=
  d.modSeg g fun s => { s with mon := { s.mon with state := st } }.settleEnable

/-! ### Beginning a probe -/

/-- A probe begins its quiet check: it takes the settings as they stand and times its stretch from now (R132, R136). -/
def Dev.beginProbe (d : Dev) (g : Seg) (onHold : Bool) : Dev :=
  d.modProbe g fun p =>
    { p with phase := .quietCheck, onHold := onHold, params := (d.seg g).cfg.probeParams, checkStart := d.clock,
             stretchStart := d.clock, dcCode := none, shots := [], capturing := false }

/-- The Line Monitor asks for a probe: it begins at once on an IDLE Line Probe, and waits behind a manual one (R133). -/
def Dev.requestProbe (d : Dev) (g : Seg) (t : Trigger) : Dev :=
  if (d.seg g).probe.phase == .idle then (d.modProbe g fun p => { p with trigger := t }).beginProbe g false
  else d.modProbe g fun p => { p with waitingReq := some t }

/-- The segment enters STARTING and a START probe is asked for (R123). -/
def Dev.enterStarting (d : Dev) (g : Seg) : Dev := (d.setSegState g .starting).requestProbe g .start

/-! ### Departure from service -/

/-- The printers of a segment are made LOST (R119, R177). -/
def Dev.losePrinters (d : Dev) (g : Seg) : Dev :=
  printerIds.foldl (fun d i =>
    match d.printer i with
    | some p => if p.seg == g then d.makeLost i else d
    | none => d) d

/-- What a departure does to a manual probe: one that waits begins its quiet check at once outside the scheduler, and
one that has the medium runs on without its hold (R135). -/
def Dev.probeDeparts (d : Dev) (g : Seg) : Dev :=
  match (d.seg g).probe.phase with
  | .waiting => d.beginProbe g false
  | _ => d.modProbe g fun p => { p with onHold := false }

/-- A segment has left the medium-using states, and its neighbours are told (R119): its printers are LOST, in ascending
id, before the jobs of its sources fail (DESIGN CHOICE, log entry 64). -/
def Dev.depart (d : Dev) (g : Seg) : Dev :=
  let d := d.modSched g Scheduler.depart
  let d := d.flushQueue g
  let d := d.modDisc g fun x => { x with pass := .idle, intervalTimer := none, run := none }
  let d := d.losePrinters g
  let d := d.failSegmentSources g
  d.probeDeparts g

/-! ### Cooling and latching -/

/-- The attempt count leaves the segment another try: the limit is 15, or the count is at most the limit (R118). -/
def SegSettings.allows (c : SegSettings) (attempts : Nat) : Bool :=
  c.retryLimit == 15 || decide (attempts ≤ c.retryLimit)

/-- The segment goes to COOLING and its cooldown timer starts (R120). -/
def Dev.enterCooling (d : Dev) (g : Seg) : Dev :=
  (d.setSegState g .cooling).modMon g fun m =>
    { m with cooldownTimer := some (d.clock + (d.seg g).cfg.cooldown * Config.sec) }

/-! ### Trips -/

/-- The station other than 0 that names 6 or more of 8 recent failures (R117, R129). -/
def dominantOf (l : List Failure) : Option Nat :=
  if l.length < Config.recentMax then none
  else (l.map (·.number)).find? fun n => n != 0 && decide (6 ≤ (l.filter fun f => f.number == n).length)

/-- The isolation record as a trip captures it (R129). -/
def Dev.captureRecord (d : Dev) (g : Seg) (f : TripFrom) (w : WentTo) : IsolationRecord :=
  let m := (d.seg g).mon
  { uptime := d.uptime, fromState := f, strain := m.strain, run := m.run, lastCause := m.lastCause, recent := m.recent,
    dominant := dominantOf m.recent, attempts := m.attempts, wentTo := w, probe := (d.seg g).probe.last,
    tripsSince := 0 }

/-- Step 5 of R118: an empty record is captured, and a captured one counts the trip. -/
def Dev.recordTrip (d : Dev) (g : Seg) (f : TripFrom) (w : WentTo) : Dev :=
  match (d.seg g).mon.record with
  | none => d.modMon g fun m => { m with record := some (d.captureRecord g f w) }
  | some r => d.modMon g fun m => { m with record := some { r with tripsSince := sat255 r.tripsSince } }

/-- A trip (R118). -/
def Dev.trip (d : Dev) (g : Seg) (f : TripFrom) : Dev :=
  let d := d.modMon g fun m => { m with attempts := sat255 m.attempts, trialTimer := none }
  let cools := (d.seg g).cfg.allows (d.seg g).mon.attempts
  let w : WentTo := if cools then .cooling else .latched
  let d := if cools then d.enterCooling g else d.setSegState g .latched
  let d := d.raise .segTrip (.segment g)
  let d := if cools then d else d.raise .segLatched (.segment g)
  let d := d.countSeg g .trips
  let d := d.recordTrip g f w
  d.depart g

/-! ### Strain -/

/-- The suspect analysis (R117): the station's entry is the one that its number has now (DESIGN CHOICE, log entry 70). -/
def Dev.suspectAnalysis (d : Dev) (g : Seg) : Dev :=
  match dominantOf (d.seg g).mon.recent with
  | none => d
  | some n =>
    match d.station g n with
    | none => d
    | some e =>
      if e.state == .quarantined then d
      else (d.modMon g fun m => { m with run := 0 }).quarantineSuspect g n

/-- The segment goes from ACTIVE to STRAINED: SEG_WARN, a waiting discovery hold is withdrawn, and the suspect analysis
runs (R50, R114, R117). -/
def Dev.becomeStrained (d : Dev) (g : Seg) : Dev :=
  let d := (d.setSegState g .strained).raise .segWarn (.segment g)
  let d := if (d.seg g).disc.pass == .due then d.withdrawHold g .discovery else d
  d.suspectAnalysis g

/-- The segment returns from STRAINED to ACTIVE: SEG_RELIEVED, and a deferred pass asks for the medium (R50, R114). -/
def Dev.becomeRelieved (d : Dev) (g : Seg) : Dev :=
  let d := (d.setSegState g .active).raise .segRelieved (.segment g)
  if (d.seg g).disc.pass == .due then d.askHold g .discovery else d

/-- The thresholds are tested at the end of a charge or a drain (R114). -/
def Dev.testThresholds (d : Dev) (g : Seg) (drained : Bool) : Dev :=
  let c := (d.seg g).cfg
  let m := (d.seg g).mon
  match m.state with
  | .active =>
    if c.trip ≤ m.strain then d.trip g .active
    else if c.warn ≤ m.strain then d.becomeStrained g
    else d
  | .strained =>
    if c.trip ≤ m.strain then d.trip g .strained
    else if drained && decide (m.strain ≤ c.relieve) then d.becomeRelieved g
    else d
  | .trial => if c.trip ≤ m.strain then d.trip g .trial else d
  | .down | .starting | .cooling | .probing | .latched => d

/-- The weight of a cause (R115). -/
def SegSettings.weight (c : SegSettings) : FailCause → Nat
  | .timeout => c.wTimeout
  | .badCheck => c.wBadCheck
  | .badFrame => c.wBadFrame
  | .collision => c.wCollision
  | .jabber => c.wJabber

/-- An entry joins the recent-failures list at its newest end; the oldest of 8 leaves (R116). -/
def addFailure (l : List Failure) (f : Failure) : List Failure :=
  (if l.length < Config.recentMax then l else l.drop 1) ++ [f]

/-- Steps 1 to 7 of a charge (R112). -/
def Monitor.charged (m : Monitor) (c : SegSettings) (cause : FailCause) (n now : Nat) : Monitor :=
  let run := sat255 m.run
  let strain := min (m.strain + c.weight cause * min run 8) 4095
  { m with run := run, strain := strain, peak := max m.peak strain, lastCause := some cause,
           recent := addFailure m.recent ⟨n, cause, now⟩ }

/-- A charge with a cause and a station (R112). -/
def Dev.charge (d : Dev) (g : Seg) (cause : FailCause) (n : Nat) : Dev :=
  (d.modMon g fun m => m.charged (d.seg g).cfg cause n d.uptime).testThresholds g false

/-- A drain (R113). -/
def Dev.drain (d : Dev) (g : Seg) : Dev :=
  (d.modMon g fun m => { m with run := 0, strain := m.strain - (d.seg g).cfg.drain }).testThresholds g true

/-- A report reaches the Line Monitor: it acts on it only in a medium-using state, and a failure of a station that was
SLOW when the exchange began is neutral (R111). -/
def Dev.report (d : Dev) (g : Seg) (o : ExOutcome) (n : Nat) (wasSlow : Bool) : Dev :=
  if !d.inService g then d
  else
    match o with
    | .good => d.drain g
    | .failed c => if wasSlow then d else d.charge g c n

/-! ### Probe results -/

/-- The completion of a start probe in STARTING (R123). -/
def Dev.startProbeResult (d : Dev) (g : Seg) (passed : Bool) : Dev :=
  if passed then
    (((d.modMon g fun m => { m with strain := 0, run := 0 }).setSegState g .active).startCycle g).passDue g
  else
    let d := d.modMon g fun m => { m with attempts := 1 }
    if (d.seg g).cfg.retryLimit = 0 then (d.setSegState g .latched).raise .segLatched (.segment g)
    else d.enterCooling g

/-- The completion of a retry probe in PROBING (R121). -/
def Dev.retryProbeResult (d : Dev) (g : Seg) (passed : Bool) : Dev :=
  if passed then
    let c := (d.seg g).cfg
    let d := d.modMon g fun m =>
      { m with strain := c.preset, run := 0, trialTimer := some (d.clock + c.trialTime * Config.sec) }
    ((d.setSegState g .trial).startCycle g).startInterval g
  else
    let d := d.modMon g fun m => { m with attempts := sat255 m.attempts }
    if (d.seg g).cfg.allows (d.seg g).mon.attempts then d.enterCooling g
    else (d.setSegState g .latched).raise .segLatched (.segment g)

/-- The pass or fail of a START or RETRY probe is handed to the Line Monitor (R142). -/
def Dev.probeResult (d : Dev) (g : Seg) (t : Trigger) (passed : Bool) : Dev :=
  match t, (d.seg g).mon.state with
  | .start, .starting => d.startProbeResult g passed
  | .retry, .probing => d.retryProbeResult g passed
  | _, _ => d

end Sys2Proof.Machine
end

