-- ==== Sys2Proof/Machine/LineProbe.lean ====
section
/-! DEFINITION. The Line Probe: its steps (R136 to R138), the combination of shots and the distance (R139, R140), the
nearest taps (R141), completion and the result record (R142, R143), and aborts (R144). -/

namespace Sys2Proof.Machine

open Sys2Proof Host

/-- The DC verdict of a code (R137). -/
def ProbeParams.dcVerdict (p : ProbeParams) (code : Nat) : DcVerdict :=
  if code < p.dcLow then .low else if p.dcHigh < code then .high else .ok

/-- The number of shots, 2^k (R138). -/
def ProbeParams.shotCount (p : ProbeParams) : Nat := 2 ^ p.shotExponent

/-- A shot recorded an edge of the polarity. -/
def Shot.hasPolarity (q : Polarity) : Shot → Bool
  | .edge p _ => p == q
  | .none => false

/-- The count a shot recorded. -/
def Shot.count : Shot → Nat
  | .edge _ c => c
  | .none => 0

/-- How many shots recorded a polarity (R139). -/
def countPolarity (q : Polarity) (l : List Shot) : Nat := (l.filter (Shot.hasPolarity q)).length

/-- How many shots recorded NONE (R139). -/
def countNone (l : List Shot) : Nat := (l.filter fun s => s == Shot.none).length

/-- The echo by majority, before the end of the cable is weighed (R139). -/
def combineShots (l : List Shot) : EchoClass :=
  if l.length < 2 * countPolarity .positive l then .openLine
  else if l.length < 2 * countPolarity .negative l then .short
  else if l.length < 2 * countNone l then .none
  else .unstable

/-- The average of the majority shots, rounded to the nearest tick with halves up (R139). -/
def averageOf (q : Polarity) (l : List Shot) : Nat :=
  let counts := (l.filter (Shot.hasPolarity q)).map Shot.count
  (2 * counts.sum + counts.length) / (2 * counts.length)

/-- The average, where the echo has one (R139). -/
def echoAverage (l : List Shot) : Option Nat :=
  match combineShots l with
  | .openLine => some (averageOf .positive l)
  | .short => some (averageOf .negative l)
  | .openEnd | .none | .unstable => none

/-- The distance in metres of an average (R140). -/
def ProbeParams.distance (p : ProbeParams) (a : Nat) : Nat :=
  if a ≤ p.launchOffset then 0 else min (((a - p.launchOffset) * p.coefficient + 128) / 256) 2047

/-- The echo class (R140): an OPEN within 5 m of the written length is OPEN_END. -/
def ProbeParams.echoClass (p : ProbeParams) (l : List Shot) : EchoClass :=
  match combineShots l, echoAverage l with
  | .openLine, some a =>
    if 0 < p.segmentLength ∧ p.segmentLength ≤ p.distance a + 5 then .openEnd else .openLine
  | c, _ => c

/-- The tap before a distance: the entry of the segment with the greatest tap distance up to it; the table is in
ascending number, so the lower number is taken of two (R141). -/
def tapBefore (es : List Station) (dist : Nat) : Option Nat :=
  (leastBy (fun a b => decide (b.tap.getD 0 < a.tap.getD 0))
    (es.filter fun e => match e.tap with | some t => decide (t ≤ dist) | none => false)).map (·.number)

/-- The tap after a distance: the entry with the smallest tap distance beyond it (R141). -/
def tapAfter (es : List Station) (dist : Nat) : Option Nat :=
  (leastBy (fun a b => decide (a.tap.getD 0 < b.tap.getD 0))
    (es.filter fun e => match e.tap with | some t => decide (dist < t) | none => false)).map (·.number)

/-- The record of a probe that ends before its shots are combined (R136, R143): the fields of the steps it had finished,
the counts of shots among them only where it came to its shots (DESIGN CHOICE, log entry 26), and NEAR clear (DEDUCED,
log entry 66). -/
def Dev.partRecord (d : Dev) (g : Seg) (o : ProbeOutcome) : ProbeRecord :=
  let p := (d.seg g).probe
  let quiet : Option QuietVerdict := match p.phase with
    | .dcMeasure | .shots => some .quiet
    | .idle | .waiting | .quietCheck => none
  let shots : Option (List Shot) := match p.phase with
    | .shots => some p.shots
    | .idle | .waiting | .quietCheck | .dcMeasure => none
  let code := shots.bind fun _ => p.dcCode
  { uptime := d.uptime, trigger := p.trigger, outcome := o, quiet := quiet, dcCode := code,
    dcVerdict := code.map p.params.dcVerdict, fired := (shots.getD []).length,
    positives := shots.map (countPolarity .positive), negatives := shots.map (countPolarity .negative),
    nones := shots.map countNone, average := none, echo := none, distance := none, near := false, tapBefore := none,
    tapAfter := none }

/-- A probe passes: quiet, DC_OK and echo NONE (R140). -/
def probePasses (dc : Option DcVerdict) (echo : EchoClass) : Bool := dc == some .ok && echo == .none

/-- The record of a probe whose last shot has been combined (R139 to R141, R143). -/
def Dev.fullRecord (d : Dev) (g : Seg) : ProbeRecord :=
  let p := (d.seg g).probe
  let part := d.partRecord g .fail
  let avg := echoAverage p.shots
  let echo := p.params.echoClass p.shots
  let dist := avg.map p.params.distance
  let es := d.stations.filter fun e => e.seg == g
  { part with
    outcome := if probePasses part.dcVerdict echo then .pass else .fail, average := avg, echo := some echo,
    distance := dist, near := match avg with | some a => decide (a ≤ p.params.launchOffset) | none => false,
    tapBefore := dist.bind (tapBefore es), tapAfter := dist.bind (tapAfter es) }

/-- A probe completes (R142): its record is written and PROBE_DONE raised, a START or RETRY result is handed on, and a
waiting request begins or the Line Probe is IDLE and its hold ends (DESIGN CHOICE, log entry 27). -/
def Dev.completeProbe (d : Dev) (g : Seg) (r : ProbeRecord) : Dev :=
  let d := (d.modProbe g fun p => { p with last := some r }).raise .probeDone (.segment g)
  let d := if r.outcome = .aborted then d else d.probeResult g r.trigger (r.outcome == .pass)
  let held := (d.seg g).probe.onHold
  let d := (d.modSeg g Segment.endPulse).modProbe g fun p => { p with phase := .idle, onHold := false }
  let d := if held then d.endHold g .probe else d
  match (d.seg g).probe.waitingReq with
  | some t => (d.modProbe g fun p => { p with trigger := t, waitingReq := none }).beginProbe g false
  | none => d

/-- A waiting request is cleared, and a probe that waits or runs is aborted (R144). -/
def Dev.abortProbe (d : Dev) (g : Seg) : Dev :=
  let d := d.modProbe g fun p => { p with waitingReq := none }
  if (d.seg g).probe.phase == .idle then d else d.completeProbe g (d.partRecord g .aborted)

/-- A shot has been recorded, and its capture window ends with it: after the last one the probe completes, and otherwise
waits for its next launch (R135, R138, R139) (DESIGN CHOICE, log entry 51). -/
def Dev.recordShot (d : Dev) (g : Seg) (s : Shot) : Dev :=
  let d := (d.modSeg g Segment.endPulse).modProbe g fun p => { p with shots := p.shots ++ [s] }
  let p := (d.seg g).probe
  if p.params.shotCount ≤ p.shots.length then d.completeProbe g (d.fullRecord g) else d

/-- A pulse is launched and the capture counter starts (R138). -/
def Dev.launchShot (d : Dev) (g : Seg) : Dev := d.modSeg g fun s => s.startPulse d.clock

/-- QUIET_STRETCH (R136): one stretch has reached the quiet time within 50 ms of the check's start. -/
def Dev.quietStretch (d : Dev) (g : Seg) : Dev :=
  let p := (d.seg g).probe
  let t := p.stretchStart + p.params.quietTime * Config.ms
  if p.phase == .quietCheck && decide (t ≤ p.checkStart + 50 * Config.ms) then
    (d.reach t).modProbe g fun p => { p with phase := .dcMeasure }
  else d

/-- QUIET_STRETCH_BROKEN (R136): carrier restarts the stretch. -/
def Dev.quietStretchBroken (d : Dev) (g : Seg) : Dev :=
  if (d.seg g).probe.phase == .quietCheck then d.modProbe g fun p => { p with stretchStart := d.clock } else d

/-- JABBER_LINE (R136): 50 ms passed without a quiet stretch, and the probe completes failed. A stretch that reached the
quiet time has ended the quiet check before; a carrier that stands from the start breaks no stretch and ends here too. -/
def Dev.jabberLine (d : Dev) (g : Seg) : Dev :=
  let p := (d.seg g).probe
  if p.phase == .quietCheck then
    let d := d.reach (p.checkStart + 50 * Config.ms)
    d.completeProbe g { d.partRecord g .fail with quiet := some .jabberLine }
  else d

/-- DC_MEASUREMENT (R137): the code is kept with its verdict and the first shot is fired. -/
def Dev.dcMeasurement (d : Dev) (g : Seg) (code : Nat) : Dev :=
  if (d.seg g).probe.phase == .dcMeasure then
    (d.modProbe g fun p => { p with phase := .shots, dcCode := some code, shots := [] }).launchShot g
  else d

/-- SHOT_FIRE (R138): 50 µs after the last launch the next pulse is launched. -/
def Dev.shotFire (d : Dev) (g : Seg) : Dev :=
  let p := (d.seg g).probe
  if p.phase == .shots && !p.capturing && decide (p.shots.length < p.params.shotCount) then
    (d.reach (p.launched + 50 * Config.us)).launchShot g
  else d

/-- SHOT_ECHO (R138): an edge past the blank count and before the counter's end stops the counter. -/
def Dev.shotEcho (d : Dev) (g : Seg) (count : Nat) (q : Polarity) : Dev :=
  let p := (d.seg g).probe
  if p.phase == .shots && p.capturing && decide (p.params.blankCount < count) && decide (count < 4095) then
    (d.reach (p.launched + count)).recordShot g (.edge q count)
  else d

/-- SHOT_NONE (R138): the counter reached 4095 without an edge. -/
def Dev.shotNone (d : Dev) (g : Seg) : Dev :=
  let p := (d.seg g).probe
  if p.phase == .shots && p.capturing then (d.reach (p.launched + 4095)).recordShot g .none else d

end Sys2Proof.Machine
end

