-- ==== Sys2Proof/Machine/Resolve.lean ====
section
/-! DEFINITION. The resolution of destinations by the Alias Translator (R67 to R70) and the taking of frames by the
Forwarding Engine (R89 to R91), with the carrier frames it builds (R97, R98). -/

namespace Sys2Proof.Machine

open Sys2Proof Host

/-- Why a frame finds no way (the causes that R67 and R68 give). -/
inductive NoWay where
  | toBridge | unknownDest | unreachable | blocked | segDown | aliasExhausted
  deriving DecidableEq, Repr

/-- The cause as a segment counts it. -/
def NoWay.segDrop : NoWay → SegDrop
  | .toBridge => .toBridge
  | .unknownDest => .unknownDest
  | .unreachable => .unreachable
  | .blocked => .blocked
  | .segDown => .segDown
  | .aliasExhausted => .aliasExhausted

/-- The cause as the uplink counts it; a carrier frame is never to the bridge. -/
def NoWay.upDrop : NoWay → UpDrop
  | .toBridge => .unknownDest
  | .unknownDest => .unknownDest
  | .unreachable => .unreachable
  | .blocked => .blocked
  | .segDown => .segDown
  | .aliasExhausted => .aliasExhausted

/-- One copy of a broadcast: a DELIVER on a segment with a from number, or the carrier broadcast with its source
(R69). -/
inductive Copy where
  | down (seg : Seg) (fromNum : Nat)
  | up (src : Addr)
  deriving DecidableEq, Repr

/-- The Translator's results (04, "Resolving the destination of coax data"). -/
inductive Resolved where
  | relay (seg : Seg) (number fromNum : Nat)
  | broadcast (copies : List Copy)
  | carrier (dst src : Addr)
  | spool (seg : Seg) (number : Nat) (source : Source)
  | discard (c : NoWay)
  deriving DecidableEq, Repr

/-- The from number of a frame toward segment `k`: the source's own within its segment, else found or allocated (R68,
step 5). -/
def Dev.settleFrom (d : Dev) (k : Seg) : Source → Dev × Option Nat
  | .coax g n => if g = k then (d, some n) else d.fromNumber k (.station g n)
  | .ethernet a => d.fromNumber k (.ethernet a)

/-- The destination-station procedure (R68). -/
def Dev.toStation (d : Dev) (k : Seg) (n : Nat) (src : Source) : Dev × Resolved :=
  match d.station k n with
  | none => (d, .discard .unknownDest)
  | some e =>
    match e.state with
    | .absent => (d, .discard .unreachable)
    | .quarantined | .duplicate => (d, .discard .blocked)
    | .present | .slow =>
      if e.role = .printer then (d, .spool k n src)
      else if !d.inService k then (d, .discard .segDown)
      else
        match d.settleFrom k src with
        | (d', some f) => (d', .relay k n f)
        | (d', none) => (d', .discard .aliasExhausted)

/-- The broadcast DELIVERs, from 0, on the medium-using segments of a reach set (R69, R70). -/
def Dev.reachCopies (d : Dev) (r : Reach) : List Copy :=
  (allSegs.filter fun k => r.segs.get k && d.inService k).map fun k => .down k 0

/-- The BROADCAST list of a DATA from a station (R69); its own segment's copy is on the list also where the segment has
left service with the exchange in flight (DESIGN CHOICE, log entry 61). -/
def Dev.broadcastList (d : Dev) (g : Seg) (n : Nat) : List Copy :=
  let r := (d.seg g).cfg.reach
  .down g n :: d.reachCopies r ++ (if r.uplink && d.up.link then [.up (d.proxy g n)] else [])

/-- The resolution of a DATA from a station with a to number (R67). -/
def Dev.resolveCoax (d : Dev) (g : Seg) (n dest : Nat) : Dev × Resolved :=
  if dest = 0 then (d, .discard .toBridge)
  else if dest = 255 then (d, .broadcast (d.broadcastList g n))
  else if (d.station g dest).isSome then d.toStation g dest (.coax g n)
  else
    match d.aliasAt g dest with
    | some a =>
      if a.state = .active then
        let d := d.useAlias g dest
        match a.target with
        | .ethernet m => (d, .carrier m (d.proxy g n))
        | .station k m => d.toStation k m (.coax g n)
      else (d, .discard .unknownDest)
    | none => (d, .discard .unknownDest)

/-! ### Taking frames -/

/-- The verdict on a coax DATA (R17, R89). -/
inductive Verdict where
  | taken
  | busy
  | discarded (c : SegDrop)
  deriving DecidableEq, Repr

/-- The carrier DATA built for a coax DATA (R97). -/
def Dev.carrierData (d : Dev) (dst src : Addr) (m : Mark) (payload : List Byte) : UpFrame :=
  { kind := .carrierData, dst := dst, src := src, etherType := d.set.carrierType,
    body := carrierHeader 0x01#8 m 0 0 0 payload.length, blocks := transitBlocks payload }

/-- A frame with blocks joins the uplink queue: placed, its blocks granted, and its transmission begun where the port
is free. The frame stands in the queue before the grant can raise POOL_LOW and so offer a notice (R89) (DESIGN CHOICE,
log entry 31). -/
def Dev.queueUp (d : Dev) (f : UpFrame) : Dev :=
  ((d.modUp fun u => { u with queue := u.queue ++ [f] }).takeTransit f.blocks.length).startTx

/-- A frame relayed to a station whose role waits to be set is flushed at once (R94) (DEDUCED, log entry 23). -/
def Dev.flushAwaiting (d : Dev) (g : Seg) (n : Nat) : Dev :=
  match (d.printerAt g n).bind d.printer with
  | some p => if p.awaitingRole then d.flush g fun f => f.dest == n else d
  | none => d

/-- A frame joins a downstream queue with the blocks granted to it. -/
def Dev.queueDown (d : Dev) (g : Seg) (dest fromNum : Nat) (m : Mark) (payload : List Byte) : Dev :=
  ((d.placeDown g dest fromNum m payload).takeTransit (transitNeed payload.length)).flushAwaiting g dest

/-- A downstream queue holds 31 frames (R89, R91). -/
def Dev.downFull (d : Dev) (g : Seg) : Bool := decide (Config.downQueueMax ≤ (d.seg g).downq.length)

/-- The uplink queue holds 63 frames (R89, R91). -/
def Dev.upFull (d : Dev) : Bool := decide (Config.uplinkQueueMax ≤ d.up.queue.length)

/-- A copy meets a full queue (R90, step 1). -/
def Dev.copyBlocked (d : Dev) : Copy → Bool
  | .down g _ => d.downFull g
  | .up _ => d.upFull

/-- A copy is for a segment with a printer (R90, R94). -/
def Dev.copyWithheld (d : Dev) : Copy → Bool
  | .down g _ => d.segHasPrinter g
  | .up _ => false

/-- A withheld copy is counted in the drops of its segment (R90). -/
def Dev.countWithheld (d : Dev) : Copy → Dev
  | .down g _ => d.dropSeg g .broadcastWithheld
  | .up _ => d

/-- One copy is placed at the tail of its queue, its blocks accounted with those of the whole list (R90, step 3). -/
def Dev.placeCopy (m : Mark) (payload : List Byte) (d : Dev) : Copy → Dev
  | .down g f => d.placeDown g 255 f m payload
  | .up src =>
    d.modUp fun u => { u with queue := u.queue ++ [d.carrierData broadcastAddr src m payload] }

/-- How a broadcast list was taken (R90). -/
inductive ListAnswer where
  | taken | queueFull | poolShort
  deriving DecidableEq, Repr

/-- A BROADCAST list is taken whole or not at all, what is withheld apart (R90). `ok` is the request for blocks under
the rule of the frame's origin (DEDUCED, log entry 32). -/
def Dev.takeList (d : Dev) (copies : List Copy) (m : Mark) (payload : List Byte) (ok : Dev → Nat → Bool) :
    Dev × ListAnswer :=
  let gone := copies.filter d.copyWithheld
  let rest := copies.filter fun c => !d.copyWithheld c
  let d := gone.foldl Dev.countWithheld d
  let need := rest.length * transitNeed payload.length
  if rest.isEmpty then (d, .taken)
  else if rest.any d.copyBlocked then (d, .queueFull)
  else if !ok d need then (d, .poolShort)
  else (((rest.foldl (Dev.placeCopy m payload) d).takeTransit need).startTx, .taken)

/-- The verdict of the Spooler's answer for a coax source (R89, R150). -/
def UnitAnswer.verdict : UnitAnswer → Verdict
  | .accepted _ => .taken
  | .unavailable => .discarded .printRefused
  | .limit | .tableFull | .full => .busy

/-- The Forwarding Engine turns a resolution of a coax DATA into its verdict (R89). -/
def Dev.takeCoax (d : Dev) (r : Resolved) (m : Mark) (payload : List Byte) : Dev × Verdict :=
  match r with
  | .relay k n f =>
    if d.downFull k then (d, .busy)
    else if d.coaxTransitOk (transitNeed payload.length) then (d.queueDown k n f m payload, .taken)
    else (d, .busy)
  | .broadcast copies =>
    match d.takeList copies m payload Dev.coaxTransitOk with
    | (d, .taken) => (d, .taken)
    | (d, _) => (d, .busy)
  | .carrier dst src =>
    if !d.up.link then (d, .discarded .linkDown)
    else if d.upFull then (d, .busy)
    else if d.coaxTransitOk (transitNeed payload.length) then (d.queueUp (d.carrierData dst src m payload), .taken)
    else (d, .busy)
  | .spool k n src =>
    let r := d.takeUnit k n src payload m
    (r.1, r.2.verdict)
  | .discard c => (d, .discarded c.segDrop)

/-- A DATA at step 2 of R17: resolved, and taken by its result. -/
def Dev.forwardCoax (d : Dev) (g : Seg) (n dest : Nat) (m : Mark) (payload : List Byte) : Dev × Verdict :=
  let r := d.resolveCoax g n dest
  r.1.takeCoax r.2 m payload

/-! ### Carrier data from the uplink -/

/-- The status code of the Spooler's answer in a SPOOL_ACK (R150, R207). -/
def UnitAnswer.ackStatus : UnitAnswer → Nat
  | .accepted _ => 1
  | .full => 2
  | .limit | .tableFull => 3
  | .unavailable => 4

/-- The job id of a SPOOL_ACK: the job that took the unit, or 0 (R98). -/
def UnitAnswer.ackJob : UnitAnswer → Nat
  | .accepted j => j
  | .full | .limit | .tableFull | .unavailable => 0

/-- The SPOOL_ACK of a unit sent from `src` to the proxy address `dst` (R98). -/
def Dev.spoolAck (d : Dev) (src dst : Addr) (m : Mark) (unit : Nat) (a : UnitAnswer) : UpFrame :=
  { kind := .spoolAck, dst := src, src := dst, etherType := d.set.carrierType,
    body := carrierHeader 0x02#8 m unit a.ackStatus a.ackJob 0, blocks := [] }

/-- The resolution of a carrier DATA (R70); none is BAD_SOURCE. -/
def Dev.resolveCarrier (d : Dev) (src dst : Addr) : Dev × Option Resolved :=
  if !individual src || inProxyRange d.set.base src then (d, none)
  else if dst = broadcastAddr then (d, some (.broadcast (d.reachCopies d.set.uplinkReach)))
  else
    let off := dst.toNat - d.set.base.toNat
    let n := off % 256
    match segOf (off / 256) with
    | some g =>
      if n = 0 ∨ n = 255 then (d, some (.discard .unknownDest))
      else
        let r := d.toStation g n (.ethernet src)
        (r.1, some r.2)
    | none => (d, some (.discard .unknownDest))

/-- A carrier DATA is taken by its result (R91). The SPOOL_ACK is placed with its room, before anything the Spooler's
decision may offer to the uplink queue (R98) (DESIGN CHOICE, log entry 31). -/
def Dev.takeEther (d : Dev) (src dst : Addr) (c : CarrierData) (r : Resolved) : Dev :=
  match r with
  | .relay k n f =>
    if d.downFull k then d.dropUp .queueFull
    else if d.etherTransitOk (transitNeed c.payload.length) then d.queueDown k n f c.mark c.payload
    else d.dropUp .poolEmpty
  | .broadcast copies =>
    match d.takeList copies c.mark c.payload Dev.etherTransitOk with
    | (d, .taken) => d
    | (d, .queueFull) => d.dropUp .queueFull
    | (d, .poolShort) => d.dropUp .poolEmpty
  | .spool k n s =>
    if d.upFull then d.dropUp .queueFull
    else
      let a := (d.takeUnit k n s c.payload c.mark).2
      ((d.placeUp (d.spoolAck src dst c.mark c.unit a)).takeUnit k n s c.payload c.mark).1
  | .carrier _ _ => d
  | .discard w => d.dropUp w.upDrop

/-- A carrier frame passed by the filter: the carrier checks (R100), then resolution and taking (R70, R91). -/
def Dev.carrierIn (d : Dev) (src dst : Addr) (body : List Byte) : Dev :=
  match parseCarrier body with
  | none => d.dropUp .badCarrier
  | some c =>
    match d.resolveCarrier src dst with
    | (d, none) => d.dropUp .badSource
    | (d, some r) => d.takeEther src dst c r

end Sys2Proof.Machine
end

