-- ==== Sys2Proof/Machine/Exchange.lean ====
section
/-! DEFINITION. Turns and exchanges: the requesters and the grant of a turn (R25 to R30), the master frames (R3, R4), the
end of an exchange and whom its outcome reaches (R14 to R22), activity outside exchanges (R13), cycles (R34), and the
commands that stand for them. -/

namespace Sys2Proof.Machine

open Sys2Proof Host

/-! ### The requesters -/

/-- A station is in refuse-backoff (R22). -/
def Segment.inBackoff (s : Segment) (n : Nat) : Bool := s.backoffs.any fun b => b.number == n

/-- The oldest eligible frame of a queue, given the destinations of the older frames (R27). -/
def Segment.eligible (s : Segment) : List Nat → List DownFrame → Option DownFrame
  | _, [] => none
  | older, f :: fs =>
    if !older.contains f.dest && (f.dest == 255 || !s.inBackoff f.dest) then some f
    else s.eligible (f.dest :: older) fs

/-- The DELIVER requester's item (R27). -/
def Dev.deliverItem (d : Dev) (g : Seg) : Option DownFrame := (d.seg g).eligible [] (d.seg g).downq

/-- A printer of the segment holds a ready block: its item and its job's place (R28). A job for which an ending waits
is not fed (R161) (DEDUCED, log entry 28). -/
def Dev.readyOn (d : Dev) (g : Seg) (id : Nat) : Option (ReadyItem × Nat) :=
  match d.printer id, d.activeJob id with
  | some p, some j =>
    if p.seg == g && p.feed == .feeding && !d.endingWaits j.serial then p.ready.map fun r => (r, j.serial) else none
  | _, _ => none

/-- The time since which the oldest ready block of the segment has waited (R28). -/
def Dev.feedSince (d : Dev) (g : Seg) : Option Nat :=
  leastBy (fun a b => decide (a < b)) (printerIds.filterMap fun i => (d.readyOn g i).map fun r => r.1.since)

/-- The printer that a FEED grant serves: the first with a ready block, in ascending id from the feed pointer (R28). -/
def Dev.feedChoice (d : Dev) (g : Seg) : Option (Nat × Nat) :=
  ((List.range 8).map fun i => ((d.seg g).sched.feedPtr + i) % 8).findSome? fun i =>
    (d.readyOn g i).map fun r => (i, r.2)

/-- The visit's entry still stands and is PRESENT or SLOW (R33). -/
def Dev.pollable (d : Dev) (v : Visit) : Bool :=
  match d.stationById v.eid with
  | some e => e.state == .present || e.state == .slow
  | none => false

/-- The visits from the next one that can be made (R29, R33). -/
def Dev.visits (d : Dev) (g : Seg) : List Visit :=
  match (d.seg g).sched.cycle with
  | .running vs => vs.dropWhile fun v => !d.pollable v
  | .none | .empty | .ended => []

/-- A pending item has waited at least the urgent age (R26). -/
def Dev.urgentSince (d : Dev) (g : Seg) (t : Nat) : Bool :=
  decide (t + (d.seg g).cfg.urgentAge * Config.ms ≤ d.clock)

/-- A requester is requesting (R27 to R29). -/
def Dev.requests (d : Dev) (g : Seg) : Requester → Bool
  | .deliver => (d.deliverItem g).isSome
  | .feed => (d.feedChoice g).isSome
  | .poll => !(d.visits g).isEmpty

/-- A requester is urgent (R26). -/
def Dev.urgent (d : Dev) (g : Seg) : Requester → Bool
  | .deliver => match d.deliverItem g with
    | some f => d.urgentSince g f.enqueued
    | none => false
  | .feed => match d.feedSince g with
    | some t => d.urgentSince g t
    | none => false
  | .poll => false

/-- The requester that follows one in the rotation (R25). -/
def Requester.follow : Requester → Requester
  | .deliver => .feed
  | .feed => .poll
  | .poll => .deliver

/-- The three requesters in the rotation order from one on (R25, step 2). -/
def Requester.order (r : Requester) : List Requester := [r, r.follow, r.follow.follow]

/-- The choice of a turn (R25, steps 1 and 2). -/
def Dev.chooseRequester (d : Dev) (g : Seg) : Option Requester :=
  let cands := (d.seg g).sched.rotation.order.filter (d.requests g)
  match cands.find? (d.urgent g) with
  | some r => some r
  | none => cands.head?

/-- The item bound at the grant (R27 to R30). -/
def Dev.bindItem (d : Dev) (g : Seg) : Requester → Option TurnItem
  | .deliver => (d.deliverItem g).map fun f => .deliver f.fid
  | .feed => (d.feedChoice g).map fun c => .feed c.1 c.2
  | .poll => (d.visits g).head?.map fun v => .poll v.eid

/-- The pointers move at the grant: the rotation, the feed pointer past the printer served, the plan past its visit
(R25, R28, R29). -/
def Dev.movePointers (d : Dev) (g : Seg) (r : Requester) (item : TurnItem) : Dev :=
  let vs := d.visits g
  d.modSched g fun s =>
    let s := { s with rotation := r.follow }
    match item with
    | .feed i _ => { s with feedPtr := (i + 1) % 8 }
    | .poll _ => s.withVisits (vs.drop 1)
    | .deliver _ => s

/-! ### Master frames -/

/-- A unicast exchange begins: its frame is sent and its reply awaited until the timeout, counted from the frame's end
(R9). -/
def Dev.openExchange (d : Dev) (g : Seg) (item : TurnItem) (e : Station) (m : Mark) (zeroEnd : Bool)
    (bytes : List Byte) : Dev :=
  let sentAt := d.clock + frameTime bytes.length
  d.modSeg g fun s =>
    { s with
      lineOut := bytes
      sched := { s.sched with turn := some ⟨item, .exchange
        { number := e.number, eid := some e.eid, seq := e.nextBit, wasSlow := e.state == .slow, mark := m,
          zeroEnd := zeroEnd, sentAt := sentAt, deadline := sentAt + s.cfg.replyTimeout * Config.us,
          delimiter := false }⟩ } }

/-- The turn ends without an exchange: its item has gone (R30). -/
def Dev.dropTurn (d : Dev) (g : Seg) : Dev := d.modSched g fun s => { s with turn := none }

/-- A POLL is sent, carrying the pending ack, which becomes NONE (R3, R18). -/
def Dev.sendPoll (d : Dev) (g : Seg) (eid : Nat) : Dev :=
  match d.stationById eid with
  | some e =>
    (d.openExchange g (.poll eid) e .more false (pollBytes e.number e.pendingAck)).modStation eid fun e =>
      { e with pendingAck := .none }
  | none => d.dropTurn g

/-- A broadcast DELIVER is sent, with sequence bit 0 (R4). -/
def Dev.sendBroadcast (d : Dev) (g : Seg) (f : DownFrame) : Dev :=
  let bytes := deliverBytes 255 f.fromNum false f.mark f.payload
  d.modSeg g fun s =>
    { s with
      lineOut := bytes
      sched := { s.sched with turn := some ⟨.deliver f.fid, .broadcast (d.clock + frameTime bytes.length)⟩ } }

/-- A queued frame is sent in a DELIVER (R4, R27). -/
def Dev.sendDeliver (d : Dev) (g : Seg) (fid : Nat) : Dev :=
  match d.frame g fid with
  | some f =>
    if f.dest = 255 then d.sendBroadcast g f
    else
      match d.station g f.dest with
      | some e =>
        d.openExchange g (.deliver fid) e f.mark false (deliverBytes f.dest f.fromNum e.nextBit f.mark f.payload)
      | none => d.dropTurn g
  | none => d.dropTurn g

/-- The mark of a ready item: the sent mark once it has been sent, and before that LAST for the zero-length end or the
only block of a closed job (R171). -/
def feedMark (p : Printer) (j : Job) (zeroEnd : Bool) : Mark :=
  match p.sentMark with
  | some m => m
  | none => if zeroEnd || (!j.isOpen && decide (j.chain.length ≤ 1)) then .last else .more

/-- A ready item is sent in a DELIVER with from number 0, and its mark is kept for its resends (R28, R171). -/
def Dev.sendFeed (d : Dev) (g : Seg) (id serial : Nat) : Dev :=
  match d.printer id, d.jobBySerial serial with
  | some p, some j =>
    match d.station g p.number, p.ready with
    | some e, some r =>
      let m := feedMark p j r.zeroEnd
      let payload := if r.zeroEnd then [] else j.chain.headD []
      (d.openExchange g (.feed id serial) e m r.zeroEnd (deliverBytes p.number 0 e.nextBit m payload)).modPrinter id
        fun p => { p with sentMark := some m }
    | _, _ => d.dropTurn g
  | _, _ => d.dropTurn g

/-- The master frame of a turn is sent. -/
def Dev.sendTurn (d : Dev) (g : Seg) : TurnItem → Dev
  | .deliver fid => d.sendDeliver g fid
  | .feed id serial => d.sendFeed g id serial
  | .poll eid => d.sendPoll g eid

/-- Step 3 of R25 and the start of the turn; with carrier on the line the frame is held (R1, R30). -/
def Dev.grant (d : Dev) (g : Seg) (r : Requester) (item : TurnItem) (carrier : Bool) : Dev :=
  let d := d.movePointers g r item
  if carrier then d.modSched g fun s => { s with turn := some ⟨item, .held⟩ } else d.sendTurn g item

/-- The conditions of a decision: in service, no turn, no hold waiting or holding (R25, R36). -/
def Dev.mayDecide (d : Dev) (g : Seg) : Bool :=
  let s := (d.seg g).sched
  d.inService g && s.turn.isNone && s.holds.isEmpty && s.medium.isNone

/-- A decision of the Turn Scheduler (R25) (DESIGN CHOICE, log entry 3). -/
def Dev.turnGrant (d : Dev) (g : Seg) (carrier : Bool) : Dev :=
  if d.mayDecide g then
    match d.chooseRequester g with
    | some r =>
      match d.bindItem g r with
      | some item => d.grant g r item carrier
      | none => d
    | none => d
  else d

/-! ### DISCOVER frames (R5, R52) -/

/-- DISCOVER for the window in hand is sent, and its slots begin at its end. -/
def Dev.sendDiscover (d : Dev) (g : Seg) : Dev :=
  match (d.seg g).disc.run with
  | some r =>
    let bytes := discoverBytes r.group r.slotTime
    d.modSeg g fun s =>
      { s with
        lineOut := bytes
        disc := { s.disc with run := some { r with held := false, slotsFrom := d.clock + frameTime bytes.length } } }
  | none => d

/-- A DISCOVER waits for the carrier to fall (R1, R52). -/
def Segment.discoverHeld (s : Segment) : Bool :=
  match s.disc.run with
  | some r => r.held
  | none => false

/-- A discovery window is open: its DISCOVER has gone out (R5). -/
def Segment.windowOpen (s : Segment) : Bool :=
  match s.disc.run with
  | some r => !r.held
  | none => false

/-- Carrier falls: the held master frame is sent (R1). -/
def Dev.heldFrameStart (d : Dev) (g : Seg) : Dev :=
  match (d.seg g).sched.turn with
  | some ⟨item, .held⟩ => d.sendTurn g item
  | _ => if (d.seg g).discoverHeld then d.sendDiscover g else d

/-! ### The end of an exchange -/

/-- The outcome of a transit frame's DELIVER (R21, R22, R93). -/
def Dev.transitOutcome (d : Dev) (g : Seg) (f : DownFrame) (o : ExOutcome) (kind : Byte) : Dev :=
  if f.flushMark then (d.removeFrame g f).dropSeg g .flushed
  else
    match o with
    | .good =>
      if kind = kAccept then (d.removeFrame g f).countSeg g .framesOut
      else if Config.refuseTries ≤ f.refused + 1 then (d.removeFrame g f).dropSeg g .deliverRefused
      else d.modFrame g f.fid fun f => { f with refused := f.refused + 1 }
    | .failed _ =>
      if Config.deliverTries ≤ f.failed + 1 then (d.removeFrame g f).dropSeg g .deliverFailed
      else d.modFrame g f.fid fun f => { f with failed := f.failed + 1 }

/-- PAPER_OUT or OFFLINE stands in a reply (R175). -/
def flagged (f : TrunkFrame) : Bool := paperOut f || offline f

/-- A POLL's reply of a printer's station reaches the Feeder (R8, R174). -/
def Dev.polledOutcome (d : Dev) (eid : Nat) (o : ExOutcome) (f : TrunkFrame) : Dev :=
  match o, d.stationById eid with
  | .good, some e =>
    match e.role, d.printerAt e.seg e.number with
    | .printer, some p => d.printerPolled p (flagged f)
    | _, _ => d
  | _, _ => d

/-- What the Forwarding Engine or the Printer Feeder does with the outcome (R14). -/
def Dev.itemOutcome (d : Dev) (g : Seg) (item : TurnItem) (x : Exchange) (o : ExOutcome) (f : TrunkFrame) : Dev :=
  match item with
  | .deliver fid =>
    match d.frame g fid with
    | some q => d.transitOutcome g q o f.kind
    | none => d
  | .feed id serial =>
    match o with
    | .good =>
      if f.kind = kAccept then d.feedAccepted id serial x.zeroEnd x.mark (flagged f) else d.feedRefused id (flagged f)
    | .failed _ => d.feedFailed id
  | .poll eid => d.polledOutcome eid o f

/-- A GOOD DATA of an entry that stands (R17, R19). -/
def Dev.takeData (d : Dev) (g : Seg) (e : Station) (f : TrunkFrame) : Dev :=
  let seq := f.control.getLsbD 0
  match e.state with
  | .quarantined | .duplicate => d.dropSeg g .blockedSource
  | .present | .slow | .absent =>
    if e.lastSeq = some seq then (d.modStation e.eid fun e => { e with pendingAck := .ack }).dropSeg g .duplicate
    else
      match (d.countSeg g .framesIn).forwardCoax g e.number f.peer (frameMark f) f.payload with
      | (d, .taken) => d.modStation e.eid fun e => { e with pendingAck := .ack, lastSeq := some seq }
      | (d, .busy) => d.modStation e.eid fun e => { e with pendingAck := .busy }
      | (d, .discarded c) =>
        (d.modStation e.eid fun e => { e with pendingAck := .ack, lastSeq := some seq }).dropSeg g c

/-- The reply starts the refuse-backoff of a TERMINAL station: a REFUSE, or BUFFER_FULL in another reply (R8, R22). -/
def startsBackoff (e : Station) (f : TrunkFrame) : Bool :=
  e.role == .terminal && (f.kind == kRefuse || bufferFull f)

/-- What the Station Directory does with the outcome (R14 to R20, R42, R43). An entry removed in flight starts no backoff,
also where a new one has its number (R22, R45) (DESIGN CHOICE, log entry 53). -/
def Dev.directoryOutcome (d : Dev) (g : Seg) (x : Exchange) (o : ExOutcome) (f : TrunkFrame) : Dev :=
  match x.eid.bind d.stationById, o with
  | some e, .good =>
    let d := if f.kind = kData then d.takeData g e f else d
    let d := if f.kind = kAccept then d.modStation e.eid fun e => { e with nextBit := !e.nextBit } else d
    let d := if startsBackoff e f then d.startBackoff g e.number else d
    d.stationGood e
  | some e, .failed c => d.stationFailed e c
  | none, .good => if f.kind = kData then d.dropSeg g .sourceUnknown else d
  | none, .failed _ => d

/-- The counter of an outcome (R14, R182). -/
def ExOutcome.counter : ExOutcome → SegCounter
  | .good => .good
  | .failed c => .failure c

/-- An exchange ends and its outcome is handed on (R14): the turn ends, the Event Unit counts, then the Forwarding
Engine or the Feeder, the Directory and the Line Monitor act; the transmit enable follows (DESIGN CHOICE, log entry
11). -/
def Dev.endExchange (d : Dev) (g : Seg) (item : TurnItem) (x : Exchange) (o : ExOutcome) (f : TrunkFrame) : Dev :=
  let d := (d.dropTurn g).countSeg g o.counter
  let d := d.itemOutcome g item x o f
  let d := d.directoryOutcome g x o f
  let d := d.report g o x.number x.wasSlow
  d.modSeg g Segment.settleEnable

/-- The frame of a reply that is not used (R11). -/
def noFrame : TrunkFrame := parseTrunk []

/-- What the master frame of an exchange expects (R10). -/
def expectOf (item : TurnItem) (x : Exchange) : Expect :=
  match item with
  | .poll _ => .poll
  | .deliver _ | .feed _ _ => .deliver x.seq

/-- The exchange in flight on a segment, with its item (R9). -/
def Dev.exchange (d : Dev) (g : Seg) : Option (TurnItem × Exchange) :=
  match (d.seg g).sched.turn with
  | some ⟨item, .exchange x⟩ => some (item, x)
  | _ => none

/-- The reply window is open and the reply timeout has not run out (R9). -/
def Exchange.awaits (x : Exchange) (clock : Nat) : Bool := decide (x.sentAt ≤ clock) && decide (clock ≤ x.deadline)

/-- A reply that ends now can be received: its delimiter has come, or, on a medium-using segment, a delimiter that ended
from `least` to `most` bit cells ago came within the window (R9, R23) (DEDUCED, log entry 18). -/
def Dev.replyHeard (d : Dev) (g : Seg) (x : Exchange) (least most : Nat) : Bool :=
  x.delimiter || (d.inService g && decide (x.sentAt + least * Config.bitCell ≤ d.clock)
    && decide (d.clock ≤ x.deadline + most * Config.bitCell))

/-- START_DELIMITER_RECEIVED (R9). -/
def Dev.startDelimiter (d : Dev) (g : Seg) : Dev :=
  match d.exchange g with
  | some (item, x) =>
    if d.inService g && x.awaits d.clock then
      d.modSched g fun s => { s with turn := some ⟨item, .exchange { x with delimiter := true }⟩ }
    else d
  | none => d

/-- REPLY_RECEIVED (R11). -/
def Dev.replyReceived (d : Dev) (g : Seg) (r : Reply) : Dev :=
  match d.exchange g with
  | some (item, x) =>
    if d.replyHeard g x r.cells r.cells then
      d.endExchange g item x (classify (expectOf item x) x.number r) (parseTrunk r.bytes)
    else d
  | none => d

/-- REPLY_TIMEOUT (R9): at the deadline, where no valid start delimiter has come. -/
def Dev.replyTimeout (d : Dev) (g : Seg) : Dev :=
  match d.exchange g with
  | some (item, x) =>
    if x.delimiter then d else (d.reach x.deadline).endExchange g item x (.failed .timeout) noFrame
  | none => d

/-- The fewest bit cells from a start delimiter to JABBER: 2 ms past 9 bytes (R12). -/
def jabberLeast : Nat := 8 * 9 + 4000

/-- The most bit cells from a start delimiter to JABBER: 2 ms past a frame of 1024 payload bytes (R12). -/
def jabberMost : Nat := 8 * (9 + Config.payloadMax) + 4000

/-- REPLY_JABBER (R12). -/
def Dev.replyJabber (d : Dev) (g : Seg) : Dev :=
  match d.exchange g with
  | some (item, x) =>
    if d.replyHeard g x jabberLeast jabberMost then d.endExchange g item x (.failed .jabber) noFrame else d
  | none => d

/-- BROADCAST_SENT (R21, R30): the frame is freed and counted, under FLUSHED where a flush has marked it (DEDUCED, log
entry 19). -/
def Dev.broadcastSent (d : Dev) (g : Seg) : Dev :=
  match (d.seg g).sched.turn with
  | some ⟨.deliver fid, .broadcast t⟩ =>
    let d := (d.reach t).dropTurn g
    let d := match d.frame g fid with
      | some f =>
        if f.flushMark then (d.removeFrame g f).dropSeg g .flushed else (d.removeFrame g f).countSeg g .framesOut
      | none => d
    d.modSeg g Segment.settleEnable
  | _ => d

/-- BACKOFF_END (R22). -/
def Dev.backoffEnd (d : Dev) (g : Seg) (n : Nat) : Dev :=
  match (d.seg g).backoffs.find? fun b => b.number == n with
  | some b => (d.reach b.ends).endBackoff g n
  | none => d

/-! ### Activity outside exchanges (R13) -/

/-- The receiver is closed at a clock reading: a master frame is being sent, or a shot's pulse and capture run (R1,
R135). -/
def Segment.receiverClosed (s : Segment) (clock : Nat) : Bool :=
  (match s.sched.turn with
    | some ⟨_, .broadcast _⟩ => true
    | some ⟨_, .exchange x⟩ => decide (clock < x.sentAt)
    | some ⟨_, .held⟩ | none => false) || s.probe.capturing

/-- A reply is being received (R9). -/
def Segment.inReply (s : Segment) : Bool :=
  match s.sched.turn with
  | some ⟨_, .exchange x⟩ => x.delimiter
  | _ => false

/-- NOISE (R13): counted on a medium-using segment outside discovery windows and replies. -/
def Dev.noise (d : Dev) (g : Seg) : Dev :=
  let s := d.seg g
  if d.inService g && !s.windowOpen && !s.receiverClosed d.clock && !s.inReply then d.countSeg g .noise else d

/-- UNATTRIBUTED_JABBER (R13): counted as a JABBER failure and charged to station 0. -/
def Dev.unattributedJabber (d : Dev) (g : Seg) : Dev :=
  let s := d.seg g
  if d.inService g && !s.windowOpen && !s.receiverClosed d.clock && !s.exchangeInFlight then
    (d.countSeg g (.failure .jabber)).report g (.failed .jabber) 0 false
  else d

/-! ### Cycles (R34) -/

/-- CYCLE_START: the floor in effect has elapsed since the start of the cycle that ended. -/
def Dev.cycleStart (d : Dev) (g : Seg) : Dev :=
  let s := (d.seg g).sched
  if d.inService g && s.cycle == .ended then
    (d.reach (s.cycleStart.getD 0 + s.floorInEffect * Config.ms)).startCycle g
  else d

/-- EMPTY_CYCLE_END: 1 ms after its start. -/
def Dev.emptyCycleEnd (d : Dev) (g : Seg) : Dev :=
  let s := (d.seg g).sched
  if s.cycle == .empty then
    (d.reach (s.cycleStart.getD 0 + Config.ms)).modSched g fun s => s.endCycle .ended
  else d

/-! ### The commands -/

/-- TURN_GRANT (R25). -/
def execTurnGrant (g : Seg) (carrier : Bool) (dt : Nat) (s : State) : Host.Outcome State Fault Refusal :=
  .next { s with dev := (s.dev.elapse dt).turnGrant g carrier }

/-- HELD_FRAME_START (R1). -/
def execHeldFrameStart (g : Seg) (dt : Nat) (s : State) : Host.Outcome State Fault Refusal :=
  .next { s with dev := (s.dev.elapse dt).heldFrameStart g }

/-- BROADCAST_SENT (R21). -/
def execBroadcastSent (g : Seg) (s : State) : Host.Outcome State Fault Refusal :=
  .next { s with dev := s.dev.broadcastSent g }

/-- START_DELIMITER_RECEIVED (R9). -/
def execStartDelimiterReceived (g : Seg) (dt : Nat) (s : State) : Host.Outcome State Fault Refusal :=
  .next { s with dev := (s.dev.elapse dt).startDelimiter g }

/-- REPLY_RECEIVED (R11). -/
def execReplyReceived (g : Seg) (r : Reply) (dt : Nat) (s : State) : Host.Outcome State Fault Refusal :=
  .next { s with dev := (s.dev.elapse dt).replyReceived g r }

/-- REPLY_TIMEOUT (R9). -/
def execReplyTimeout (g : Seg) (s : State) : Host.Outcome State Fault Refusal :=
  .next { s with dev := s.dev.replyTimeout g }

/-- REPLY_JABBER (R12). -/
def execReplyJabber (g : Seg) (dt : Nat) (s : State) : Host.Outcome State Fault Refusal :=
  .next { s with dev := (s.dev.elapse dt).replyJabber g }

/-- BACKOFF_END (R22). -/
def execBackoffEnd (g : Seg) (n : Nat) (s : State) : Host.Outcome State Fault Refusal :=
  .next { s with dev := s.dev.backoffEnd g n }

/-- NOISE (R13). -/
def execNoise (g : Seg) (dt : Nat) (s : State) : Host.Outcome State Fault Refusal :=
  .next { s with dev := (s.dev.elapse dt).noise g }

/-- UNATTRIBUTED_JABBER (R13). -/
def execUnattributedJabber (g : Seg) (dt : Nat) (s : State) : Host.Outcome State Fault Refusal :=
  .next { s with dev := (s.dev.elapse dt).unattributedJabber g }

/-- CYCLE_START (R34). -/
def execCycleStart (g : Seg) (s : State) : Host.Outcome State Fault Refusal :=
  .next { s with dev := s.dev.cycleStart g }

/-- EMPTY_CYCLE_END (R34). -/
def execEmptyCycleEnd (g : Seg) (s : State) : Host.Outcome State Fault Refusal :=
  .next { s with dev := s.dev.emptyCycleEnd g }

end Sys2Proof.Machine
end

