-- ==== Sys2Proof/Machine/Discover.lean ====
section
/-! DEFINITION. The discovery pass (R50 to R56), the holds that take the medium (R36, R37), forgetting (R58) and the aging
of aliases (R77). -/

namespace Sys2Proof.Machine

open Sys2Proof Host

/-- The hold at the head of the list takes the medium: in service, no turn in progress, no hold having it (R36). -/
def Dev.mayHold (d : Dev) (g : Seg) : Bool :=
  let s := (d.seg g).sched
  d.inService g && s.turn.isNone && s.medium.isNone

/-- DISCOVER for the window in hand is sent, or held while carrier is present (R1, R52). -/
def Dev.openWindow (d : Dev) (g : Seg) (pass : PassState) (r : PassRun) (carrier : Bool) : Dev :=
  let d := d.modDisc g fun x => { x with pass := pass, run := some { r with held := carrier } }
  if carrier then d else d.sendDiscover g

/-- A pass begins at level 0 (R52). -/
def Dev.beginPass (d : Dev) (g : Seg) (carrier : Bool) : Dev :=
  d.openWindow g .level0
    { slotTime := (d.seg g).cfg.slotTime, group := none, groupsLeft := [], held := false, slotsFrom := 0,
      readings := [] } carrier

/-- HOLD_TAKES_MEDIUM (R36, R37). -/
def Dev.holdTakesMedium (d : Dev) (g : Seg) (carrier : Bool) : Dev :=
  match (d.seg g).sched.holds with
  | h :: hs =>
    if d.mayHold g then
      let d := d.modSched g fun s => { s with holds := hs, medium := some h }
      match h with
      | .discovery => d.beginPass g carrier
      | .probe => d.beginProbe g true
    else d
  | [] => d

/-- The places of the GARBLED slots of a window, ascending. -/
def garbledSlots (rs : List SlotReading) : List Nat :=
  (List.range rs.length).filter fun i => rs.getD i .empty == .garbled

/-- The numbers found CLEAN in a window (R53, R54). -/
def cleanNumbers (rs : List SlotReading) : List Nat :=
  rs.filterMap fun r => match r with
    | .clean n => some n
    | .empty | .garbled => none

/-- The numbers found CLEAN in the windows of a pass. -/
def foundIn (ws : List (Option Nat × List SlotReading)) : List Nat := ws.flatMap fun w => cleanNumbers w.2

/-- The duplicate candidates of a pass: the GARBLED slots of its level-1 windows (R54). -/
def candidatesIn (ws : List (Option Nat × List SlotReading)) : List Nat :=
  ws.flatMap fun w => match w.1 with
    | some h => (garbledSlots w.2).map fun l => 16 * h + l
    | none => []

/-- A pass ends: it is counted, the pass state becomes IDLE, its hold ends and the interval timer starts while the
segment is in service (R36, R50, R53, R55). -/
def Dev.endPass (d : Dev) (g : Seg) : Dev :=
  let d := d.countSeg g .passes
  let d := d.modDisc g fun x => { x with pass := .idle, run := none }
  let d := d.endHold g .discovery
  if d.inService g then d.startInterval g else d

/-- The station numbers, 1 to 254, ascending (R40). -/
def stationNumbers : List Nat := (List.range 254).map (· + 1)

/-- A completed pass applies its results and replaces the pending-duplicates list (R55, R56). The candidates 0 and 255
name no station, and are passed over (DESIGN CHOICE, log entry 29). -/
def Dev.completePass (d : Dev) (g : Seg) (ws : List (Option Nat × List SlotReading)) : Dev :=
  let r := Dev.applyResults g (foundIn ws) (candidatesIn ws) stationNumbers d []
  (r.1.modDisc g fun x => { x with pendingDup := r.2.take Config.pendingDupMax }).endPass g

/-- The line-trouble check has acted (R53): a COLLISION of station 0 is charged, and unless that took the segment out
of service the CLEAN level-0 slots are applied and the pass ends (DEDUCED, log entry 30). -/
def Dev.lineTrouble (d : Dev) (g : Seg) (rs : List SlotReading) : Dev :=
  let d := (d.countSeg g (.failure .collision)).report g (.failed .collision) 0 false
  if d.inService g then (Dev.applyResults g (cleanNumbers rs) [] stationNumbers d []).1.endPass g else d

/-- The window of the next garbled group, or the end of the pass (R54, R55). -/
def Dev.nextWindow (d : Dev) (g : Seg) (r : PassRun) (carrier : Bool) : Dev :=
  match r.groupsLeft with
  | h :: hs => d.openWindow g .level1 { r with group := some h, groupsLeft := hs } carrier
  | [] => d.completePass g r.readings

/-- DISCOVERY_WINDOW_END (R53, R54): the 16 slots are read, and the window leads on. -/
def Dev.windowEnd (d : Dev) (g : Seg) (slots : List SlotLine) (carrier : Bool) : Dev :=
  match (d.seg g).disc.run with
  | some r =>
    if r.held then d
    else
      let d := d.reach (r.slotsFrom + 16 * r.slotTime * Config.us)
      let rs := readWindow r.group slots
      let r := { r with readings := r.readings ++ [(r.group, rs)] }
      match r.group with
      | none =>
        if 9 ≤ (garbledSlots rs).length then d.lineTrouble g rs
        else d.nextWindow g { r with groupsLeft := garbledSlots rs } carrier
      | some _ => d.nextWindow g r carrier
  | none => d

/-- DISCOVERY_INTERVAL_EXPIRY (R50). -/
def Dev.intervalExpiry (d : Dev) (g : Seg) : Dev :=
  match (d.seg g).disc.intervalTimer with
  | some t => ((d.reach t).modDisc g fun x => { x with intervalTimer := none }).passDue g
  | none => d

/-- ABSENT_FORGET (R58) (DEDUCED, log entry 10). -/
def Dev.absentForget (d : Dev) (g : Seg) (n : Nat) : Dev := d.forgetAt g n

/-- ALIAS_IDLE_WITHDRAW (R77) (DEDUCED, log entry 10). -/
def Dev.aliasIdle (d : Dev) (g : Seg) (n : Nat) : Dev :=
  match d.aliasAt g n with
  | some a => if d.aliasIdlePast a then d.withdrawAlias g n else d
  | none => d

/-! ### The commands -/

/-- DISCOVERY_INTERVAL_EXPIRY (R50). -/
def execDiscoveryIntervalExpiry (g : Seg) (s : State) : Host.Outcome State Fault Refusal :=
  .next { s with dev := s.dev.intervalExpiry g }

/-- HOLD_TAKES_MEDIUM (R36). -/
def execHoldTakesMedium (g : Seg) (carrier : Bool) (dt : Nat) (s : State) : Host.Outcome State Fault Refusal :=
  .next { s with dev := (s.dev.elapse dt).holdTakesMedium g carrier }

/-- DISCOVERY_WINDOW_END (R53). -/
def execDiscoveryWindowEnd (g : Seg) (slots : List SlotLine) (carrier : Bool) (s : State) :
    Host.Outcome State Fault Refusal :=
  .next { s with dev := s.dev.windowEnd g slots carrier }

/-- ABSENT_FORGET (R58). -/
def execAbsentForget (g : Seg) (n : Nat) (s : State) : Host.Outcome State Fault Refusal :=
  .next { s with dev := s.dev.absentForget g n }

/-- ALIAS_IDLE_WITHDRAW (R77). -/
def execAliasIdleWithdraw (g : Seg) (n : Nat) (s : State) : Host.Outcome State Fault Refusal :=
  .next { s with dev := s.dev.aliasIdle g n }

/-- QUIET_STRETCH (R136). -/
def execQuietStretch (g : Seg) (s : State) : Host.Outcome State Fault Refusal :=
  .next { s with dev := s.dev.quietStretch g }

/-- QUIET_STRETCH_BROKEN (R136). -/
def execQuietStretchBroken (g : Seg) (dt : Nat) (s : State) : Host.Outcome State Fault Refusal :=
  .next { s with dev := (s.dev.elapse dt).quietStretchBroken g }

/-- JABBER_LINE (R136). -/
def execJabberLine (g : Seg) (s : State) : Host.Outcome State Fault Refusal :=
  .next { s with dev := s.dev.jabberLine g }

/-- DC_MEASUREMENT (R137). -/
def execDcMeasurement (g : Seg) (code : BitVec 10) (dt : Nat) (s : State) : Host.Outcome State Fault Refusal :=
  .next { s with dev := (s.dev.elapse dt).dcMeasurement g code.toNat }

/-- SHOT_FIRE (R138). -/
def execShotFire (g : Seg) (s : State) : Host.Outcome State Fault Refusal :=
  .next { s with dev := s.dev.shotFire g }

/-- SHOT_ECHO (R138). -/
def execShotEcho (g : Seg) (count : BitVec 12) (q : Polarity) (s : State) : Host.Outcome State Fault Refusal :=
  .next { s with dev := s.dev.shotEcho g count.toNat q }

/-- SHOT_NONE (R138). -/
def execShotNone (g : Seg) (s : State) : Host.Outcome State Fault Refusal :=
  .next { s with dev := s.dev.shotNone g }

end Sys2Proof.Machine
end

