-- ==== Sys2Proof/Machine/Segments.lean ====
section
/-! DEFINITION. The management operations on segments and stations (R47, R48, R51, R125 to R128, R134), the timers of the
Line Monitor (R120, R122), and the printers' and jobs' timers and endings (R146, R154, R161, R173, R179). -/

namespace Sys2Proof.Machine

open Sys2Proof Host

/-! ### Operations on a segment -/

/-- SEG_ENABLE (R125). -/
def Dev.enableSegment (d : Dev) (g : Seg) : Dev × Status :=
  if (d.seg g).mon.state = .down then
    ((d.modSeg g fun s => { s with cfg := { s.cfg with enabled := true } }).enterStarting g, .ok)
  else (d, .wrongState)

/-- The exchange, broadcast or held turn of a segment is abandoned (R23). -/
def Dev.abandonTurn (d : Dev) (g : Seg) : Dev := d.dropTurn g

/-- SEG_DISABLE (R126): the exchange or window is abandoned, endings that waited for it are applied, the probe is
aborted, and then a departure is handed on (DESIGN CHOICE, log entry 65). A frame that a flush had marked goes with
the abandoned exchange. -/
def Dev.disableSegment (d : Dev) (g : Seg) : Dev × Status :=
  let was := d.inService g
  let d := d.modSeg g fun s => { s with cfg := { s.cfg with enabled := false } }
  let d := (d.abandonTurn g).setSegState g .down
  let d := (d.applyEndings).abortProbe g
  let d := if was then d.depart g else d.flushQueue g
  (d.modMon g fun m => { m with strain := 0, run := 0, attempts := 0, cooldownTimer := none, trialTimer := none }, .ok)

/-- The states in which SEG_RESTORE is taken (R127). -/
def SegState.restorable : SegState → Bool
  | .cooling | .probing | .trial | .latched => true
  | .down | .starting | .active | .strained => false

/-- SEG_RESTORE (R127) (DEDUCED, log entry 25). -/
def Dev.restoreSegment (d : Dev) (g : Seg) : Dev × Status :=
  let st := (d.seg g).mon.state
  if st.restorable then
    let d := d.modMon g fun m => { m with cooldownTimer := none, trialTimer := none }
    let d := d.abortProbe g
    let d := if st = .trial then (d.setSegState g .starting).depart g else d
    ((d.modMon g fun m => { m with attempts := 0 }).enterStarting g, .ok)
  else (d, .wrongState)

/-- SEG_PROBE (R134). -/
def Dev.probeSegment (d : Dev) (g : Seg) : Dev × Status :=
  let s := d.seg g
  if s.probe.phase ≠ .idle ∨ s.probe.waitingReq.isSome then (d, .wrongState)
  else
    match s.mon.state with
    | .active | .strained | .trial =>
      ((d.modProbe g fun p => { p with phase := .waiting, trigger := .manual, onHold := false }).askHold g .probe, .ok)
    | .down | .cooling | .latched => ((d.modProbe g fun p => { p with trigger := .manual }).beginProbe g false, .ok)
    | .starting | .probing => (d, .wrongState)

/-- SEG_DISCOVER (R51). -/
def Dev.discoverSegment (d : Dev) (g : Seg) : Dev × Status :=
  if d.inService g then (d.passDue g, .ok) else (d, .wrongState)

/-- SEG_CLEAR_RECORD (R128). -/
def Dev.clearRecord (d : Dev) (g : Seg) : Dev × Status :=
  (d.modMon g fun m => { m with record := none, peak := 0, recent := [] }, .ok)

/-- An operation on the segment that an argument names; RANGE outside 0 to 3 (R200). -/
def Dev.onSegment (d : Dev) (seg : Byte) (f : Dev → Seg → Dev × Status) : Dev × Status :=
  match segOf seg.toNat with
  | some g => f d g
  | none => (d, .range)

/-! ### Operations on a station -/

/-- STATION_QUARANTINE on an entry (R47). -/
def Dev.quarantineEntry (d : Dev) (e : Station) : Dev × Status := (d.quarantineByManager e, .ok)

/-- STATION_RELEASE on an entry (R48). -/
def Dev.releaseEntry (d : Dev) (e : Station) : Dev × Status :=
  if e.state = .quarantined then (d.releaseStation e, .ok) else (d, .wrongState)

/-- An operation on the station that arguments name; RANGE for a bad segment or number, NO_ENTRY where no entry exists
(R47, R48, R200). -/
def Dev.onStation (d : Dev) (seg number : Byte) (f : Dev → Station → Dev × Status) : Dev × Status :=
  match segOf seg.toNat with
  | none => (d, .range)
  | some g =>
    if number.toNat = 0 ∨ number.toNat = 255 then (d, .range)
    else
      match d.station g number.toNat with
      | some e => f d e
      | none => (d, .noEntry)

/-! ### Timers of the Line Monitor -/

/-- COOLDOWN_EXPIRY (R120). -/
def Dev.cooldownExpiry (d : Dev) (g : Seg) : Dev :=
  match (d.seg g).mon.state, (d.seg g).mon.cooldownTimer with
  | .cooling, some t =>
    (((d.reach t).modMon g fun m => { m with cooldownTimer := none }).setSegState g .probing).requestProbe g .retry
  | _, _ => d

/-- TRIAL_EXPIRY (R122). -/
def Dev.trialExpiry (d : Dev) (g : Seg) : Dev :=
  match (d.seg g).mon.state, (d.seg g).mon.trialTimer with
  | .trial, some t =>
    let d := (d.reach t).modMon g fun m => { m with trialTimer := none, attempts := 0 }
    (((d.setSegState g .active).raise .segRestored (.segment g))).passDue g
  | _, _ => d

/-! ### Printers and jobs -/

/-- IDLE_CLOSE (R154) (DEDUCED, log entry 10). -/
def Dev.idleClose (d : Dev) (job : Nat) : Dev :=
  match d.jobById job with
  | some j => if d.jobIdlePast j then d.closeJob j.serial else d
  | none => d

/-- A DELIVER that the flushes for a new printer wait for is in flight: one to the station, or a broadcast of the segment
(R94, R146). -/
def Segment.flushPending (s : Segment) (n : Nat) : Bool :=
  s.downq.any fun f => s.inFlight f && (f.dest == n || f.dest == 255)

/-- ROLE_SET (R146, R168) (DEDUCED, log entry 24). The flushes of R94 are made again at the setting of the role, and a
refuse-backoff of the station that began after the printer's WRITE ends with them (DESIGN CHOICE, log entry 77). -/
def Dev.roleSet (d : Dev) (id : Nat) : Dev :=
  match d.printer id with
  | some p =>
    if p.awaitingRole && !(d.seg p.seg).flushPending p.number then
      match d.station p.seg p.number with
      | some e =>
        let d := d.flushForPrinter p.seg p.number
        let d := d.modStation e.eid fun e => { e with role := .printer }
        (d.modPrinter id fun p =>
          { p with awaitingRole := false, feed := if p.enabled then .idle else .disabled, ready := none,
                   sentMark := none, failCount := 0, busyTimer := none, holdTimer := none,
                   disablePending := false }).select id
      | none => d
    else d
  | none => d

/-- BUSY_RETRY_EXPIRY (R173). -/
def Dev.busyRetryExpiry (d : Dev) (id : Nat) : Dev :=
  match d.printer id with
  | some p =>
    match p.feed, p.busyTimer with
    | .waitReady, some t => (d.reach t).enterFeeding id
    | _, _ => d
  | none => d

/-- HOLD_TIMER_EXPIRY (R160, R179): every job of the printer fails, in ascending id. -/
def Dev.holdTimerExpiry (d : Dev) (id : Nat) : Dev :=
  match d.printer id with
  | some p =>
    match p.feed, p.holdTimer with
    | .lost, some t =>
      let d := (d.reach t).modPrinter id fun p => { p with holdTimer := none }
      let jobs := sortBy (fun a b => decide (a.id < b.id)) (d.spool.jobs.filter fun j => j.printer == id)
      jobs.foldl (fun d j => d.endJobOrWait j.serial (.failed .printerLost) .nobody) d
    | _, _ => d
  | none => d

/-! ### The commands -/

/-- COOLDOWN_EXPIRY (R120). -/
def execCooldownExpiry (g : Seg) (s : State) : Host.Outcome State Fault Refusal :=
  .next { s with dev := s.dev.cooldownExpiry g }

/-- TRIAL_EXPIRY (R122). -/
def execTrialExpiry (g : Seg) (s : State) : Host.Outcome State Fault Refusal :=
  .next { s with dev := s.dev.trialExpiry g }

/-- IDLE_CLOSE (R154). -/
def execIdleClose (job : Byte) (s : State) : Host.Outcome State Fault Refusal :=
  .next { s with dev := s.dev.idleClose job.toNat }

/-- ROLE_SET (R146). -/
def execRoleSet (id : Nat) (s : State) : Host.Outcome State Fault Refusal := .next { s with dev := s.dev.roleSet id }

/-- BUSY_RETRY_EXPIRY (R173). -/
def execBusyRetryExpiry (id : Nat) (s : State) : Host.Outcome State Fault Refusal :=
  .next { s with dev := s.dev.busyRetryExpiry id }

/-- HOLD_TIMER_EXPIRY (R179). -/
def execHoldTimerExpiry (id : Nat) (s : State) : Host.Outcome State Fault Refusal :=
  .next { s with dev := s.dev.holdTimerExpiry id }

end Sys2Proof.Machine
end

