-- ==== Sys2Proof/Machine/Ethernet.lean ====
section
/-! DEFINITION. The Uplink MAC: link changes (R101, R102), the receive filter (R99) with admission (R193) and the pause
hold (R106), transmission (R96), the pause repeat (R104), and the holdoff of notices (R188, R189). -/

namespace Sys2Proof.Machine

open Sys2Proof Host

/-- A notice that is held back is offered again, where there is a notice address (R188, R189). -/
def Dev.reofferNotice (d : Dev) : Dev := if d.ev.heldBack.isSome then d.noticeTest else d

/-- LINK_UP (R102): the speed is taken, the pause state asks again, LINK_UP is raised, a held-back notice is offered,
and transmission begins (DESIGN CHOICE, log entries 3 and 42). -/
def Dev.linkUp (d : Dev) (speed : LinkSpeed) : Dev :=
  if d.up.link then d
  else
    let d := d.modUp fun u => { u with link := true, speed := speed }
    let d := if d.up.pauseOn then (d.sendPause .ask).startRepeat else d
    ((d.raise .linkUp .none).reofferNotice).startTx

/-- One frame of the uplink queue is discarded for a link that is DOWN: its blocks are freed and it is counted (R101). -/
def Dev.dropQueued (d : Dev) (f : UpFrame) : Dev := (d.freeTransit f.blocks.length).dropUp .linkDown

/-- LINK_DOWN (R101): a frame that a warm restart had left in transmission is cut off too, its blocks free already (R108);
a pause frame that waits is not sent (DESIGN CHOICE, log entries 3 and 50). -/
def Dev.linkDown (d : Dev) : Dev :=
  if d.up.link then
    let frames := d.up.queue
    let cut := d.up.leaving
    let d := d.modUp fun u =>
      { u with link := false, queue := [], txBusy := false, leaving := false, hold := none, repeatTimer := none
               pauseDue := [] }
    let d := if cut then d.dropUp .linkDown else d
    ((frames.foldl Dev.dropQueued d).raise .linkDown .none).selectAll
  else d

/-- The source may manage the part (R193, tests 1 and 2). -/
def Settings.admits (s : Settings) (a : Addr) : Bool :=
  individual a && ((s.manager0 == 0#48 && s.manager1 == 0#48) || a == s.manager0 || a == s.manager1)

/-- Admission of a management frame (R193). -/
def Dev.admission (d : Dev) (src : Addr) (body : List Byte) : Dev :=
  match d.set.admits src, parseRequest body with
  | true, some (tag, ops) =>
    if Config.requestMax ≤ d.agent.queue.length then d.dropUp .queueFull
    else d.modAgent fun a => { a with queue := a.queue ++ [⟨src, tag, ops⟩] }
  | _, _ => d.dropUp .notAdmitted

/-- A received pause frame sets, replaces or ends the pause hold (R106). -/
def Dev.pauseReceived (d : Dev) (time : Nat) : Dev :=
  if time = 0 then (d.modUp fun u => { u with hold := none }).startTx
  else d.modUp fun u => { u with hold := some (d.clock + holdTime time u.speed) }

/-- The receive filter: the first test that holds (R99). -/
def Dev.receive (d : Dev) (bs : List Byte) : Dev :=
  let dst := rxDst bs
  let body := rxBody bs
  if bs.length < 64 then d.countUp .runt
  else if 1518 < bs.length then d.countUp .long
  else if !fcsOk bs then d.countUp .crc
  else if dst = d.ownAddr ∧ rxType bs = d.set.mgmtType then (d.countUp .framesIn).admission (rxSrc bs) body
  else if (dst = pauseAddr ∨ dst = d.ownAddr) ∧ rxType bs = 0x8808#16 ∧ ofBe (body.take 2) = 1 then
    (d.countUp .pausesReceived).pauseReceived (ofBe ((body.drop 2).take 2))
  else if inProxyRange d.set.base dst ∧ rxType bs = d.set.carrierType then
    (d.countUp .framesIn).carrierIn (rxSrc bs) dst body
  else if dst = broadcastAddr ∧ rxType bs = d.set.carrierType then
    (d.countUp .framesIn).carrierIn (rxSrc bs) dst body
  else d.countUp .other

/-- UPLINK_FRAME_RECEIVED (R99): while the link is UP and the receiver enabled. -/
def Dev.uplinkReceived (d : Dev) (bs : List Byte) : Dev :=
  if d.up.link && d.up.rxEnabled then d.receive bs else d

/-- The port is free: pause frames that fell due go ahead of the queue, and the next frame begins (R96). -/
def Dev.portFree (d : Dev) : Dev :=
  let due := d.up.pauseDue
  let d := due.foldl Dev.emitPause (d.modUp fun u => { u with pauseDue := [] })
  (d.modUp fun u => { u with txBusy := false, leaving := false }).startTx

/-- FRAME_TRANSMITTED (R96): the head frame leaves the queue, its blocks are freed and it is counted; then the port is
free. A frame that a warm restart had taken from the queue, and whose blocks it had freed (R108), is only counted. -/
def Dev.frameTransmitted (d : Dev) : Dev :=
  match d.up.txBusy, d.up.leaving, d.up.queue with
  | true, true, _ => (d.countUp .framesOut).portFree
  | true, false, f :: fs =>
    let d := d.modUp fun u => { u with queue := fs }
    (((d.freeTransit f.blocks.length).countUp .framesOut).selectAll).portFree
  | _, _, _ => d

/-- PAUSE_REPEAT (R104). -/
def Dev.pauseRepeat (d : Dev) : Dev :=
  match d.up.repeatTimer with
  | some t => ((d.reach t).sendPause .ask).startRepeat
  | none => d

/-- PAUSE_HOLD_END (R106). -/
def Dev.pauseHoldEnd (d : Dev) : Dev :=
  match d.up.hold with
  | some t => ((d.reach t).modUp fun u => { u with hold := none }).startTx
  | none => d

/-- NOTICE_HOLDOFF (R188, R189): a held-back notice is offered again when the holdoff has run since its drop, where the
holdoff is above 0; otherwise the holdoff clock reaches the holdoff and a notice falls due; with no notice address there
is none. -/
def Dev.noticeHoldoff (d : Dev) : Dev :=
  let span := d.set.noticeHoldoff * Config.ms
  match d.ev.heldBack, d.ev.holdoff with
  | some t, _ => if 0 < d.set.noticeHoldoff then (d.reach (t + span)).noticeTest else d
  | none, some t => (d.reach (t + span)).noticeTest
  | none, none => d

/-! ### The commands -/

/-- LINK_UP (R102). -/
def execLinkUp (speed : LinkSpeed) (dt : Nat) (s : State) : Host.Outcome State Fault Refusal :=
  .next { s with dev := (s.dev.elapse dt).linkUp speed }

/-- LINK_DOWN (R101). -/
def execLinkDown (dt : Nat) (s : State) : Host.Outcome State Fault Refusal :=
  .next { s with dev := (s.dev.elapse dt).linkDown }

/-- UPLINK_FRAME_RECEIVED (R99). -/
def execUplinkFrameReceived (bs : List Byte) (dt : Nat) (s : State) : Host.Outcome State Fault Refusal :=
  .next { s with dev := (s.dev.elapse dt).uplinkReceived bs }

/-- FRAME_TRANSMITTED (R96). -/
def execFrameTransmitted (dt : Nat) (s : State) : Host.Outcome State Fault Refusal :=
  .next { s with dev := (s.dev.elapse dt).frameTransmitted }

/-- PAUSE_REPEAT (R104). -/
def execPauseRepeat (s : State) : Host.Outcome State Fault Refusal := .next { s with dev := s.dev.pauseRepeat }

/-- PAUSE_HOLD_END (R106). -/
def execPauseHoldEnd (s : State) : Host.Outcome State Fault Refusal := .next { s with dev := s.dev.pauseHoldEnd }

/-- NOTICE_HOLDOFF (R188). -/
def execNoticeHoldoff (s : State) : Host.Outcome State Fault Refusal := .next { s with dev := s.dev.noticeHoldoff }

end Sys2Proof.Machine
end

