-- ==== Sys2Proof/Machine/Tables.lean ====
section
/-! DEFINITION. The tables of management: their fields with lengths and ranges (R195, R209), the numbers of their
enumerations, the reading of an entry (R196), and the form of a WRITE and its field results (R197, R208). -/

namespace Sys2Proof.Machine

open Sys2Proof Host

/-! ### Fields -/

/-- A field of a table: the lengths its value may have (0 where it may be absent), whether it may be written, and the
range a written value is clamped to. -/
structure FieldSpec where
  lens : List Nat
  writable : Bool
  range : Option (Nat × Nat)
  deriving DecidableEq, Repr

/-- A writable number that is clamped to its range. -/
def clamped (len lo hi : Nat) : FieldSpec := ⟨[len], true, some (lo, hi)⟩
/-- A writable field that is not clamped. -/
def plain (len : Nat) : FieldSpec := ⟨[len], true, none⟩
/-- A read-only field. -/
def fixed (len : Nat) : FieldSpec := ⟨[len], false, none⟩
/-- A read-only optional field. -/
def option (len : Nat) : FieldSpec := ⟨[0, len], false, none⟩
/-- The lengths of a recent-failures list: a count byte and 6 bytes for each entry (R209). -/
def failureLens : List Nat := (List.range 9).map fun n => 1 + 6 * n

/-- The fields of SETTINGS, from code 1 (R199, R209). -/
def settingsSpec : List FieldSpec :=
  [plain 6, clamped 2 0 512, clamped 2 0 512, clamped 2 0 1792, plain 2, plain 2, plain 2, plain 2,
    clamped 2 1 65535, clamped 4 60 86400, clamped 4 30 86400, plain 1, clamped 2 5 3600, clamped 2 1 256, plain 6,
    clamped 1 1 32, clamped 2 0 60000, plain 4, plain 12, fixed 2, fixed 2, fixed 2, fixed 1, fixed 1, fixed 6,
    fixed 2, fixed 1, fixed 4]

/-- The fields of SEGMENT, from code 1 (R195, R209). -/
def segmentSpec : List FieldSpec :=
  [clamped 2 100 3000, clamped 2 1 1000, clamped 2 0 1000, fixed 2, fixed 2, option 1, option 1, fixed 1,
    clamped 2 10 3600, clamped 2 60 500, plain 1, plain 1, plain 1, clamped 1 0 255, clamped 1 0 255, clamped 1 0 255,
    clamped 1 0 255, clamped 1 0 255, clamped 1 0 255, clamped 2 1 4095, clamped 2 1 4095, clamped 2 1 4095,
    clamped 2 1 4095, clamped 1 0 15, clamped 2 1 3600, clamped 2 5 3600, fixed 1, fixed 1, fixed 2, fixed 1, fixed 2,
    fixed 1, option 1, option 2, ⟨failureLens, false, none⟩, clamped 1 1 20, clamped 2 0 1023, clamped 2 0 1023,
    clamped 1 0 4, clamped 1 0 255, clamped 1 0 255, clamped 2 128 320, clamped 2 0 2047]

/-- The fields of STATION, from code 1 (R40, R59, R209). -/
def stationSpec : List FieldSpec :=
  [plain 1, plain 1, fixed 1, option 1, plain 1, fixed 1, clamped 1 0 15, ⟨[0, 2], true, some (0, 2047)⟩, fixed 1,
    fixed 1, fixed 1, fixed 1, fixed 1, fixed 1, option 4, option 4]

/-- The fields of ALIAS, from code 1 (R64, R80, R209). -/
def aliasSpec : List FieldSpec := [plain 1, plain 1, plain 1, ⟨[3, 7], true, none⟩, fixed 1, fixed 4, fixed 4]

/-- The fields of PRINTER, from code 1 (R145, R146, R181, R209). -/
def printerSpec : List FieldSpec :=
  [plain 2, fixed 1, clamped 1 1 8, clamped 2 10 3600, clamped 2 50 5000, clamped 1 1 15, fixed 1, fixed 1, option 1,
    fixed 1, option 2]

/-- The fields of JOB, from code 1 (R148, R209). -/
def jobSpec : List FieldSpec :=
  [fixed 1, fixed 1, ⟨[3, 7], false, none⟩, fixed 1, fixed 1, fixed 2, fixed 4, fixed 4, fixed 4, fixed 4, option 4]

/-- The fields of FINISHED, from code 1 (R149, R209). -/
def finishedSpec : List FieldSpec :=
  [fixed 1, fixed 1, ⟨[3, 7], false, none⟩, fixed 1, option 1, fixed 4, fixed 4, fixed 4]

/-- The fields of PROBE, from code 1 (R143, R209). -/
def probeSpec : List FieldSpec :=
  [fixed 4, fixed 1, fixed 1, option 1, option 2, option 1, fixed 1, option 1, option 1, option 1, option 2, option 1,
    option 2, fixed 1, option 1, option 1]

/-- A field's full length. -/
def FieldSpec.full (f : FieldSpec) : Nat := f.lens.foldl max 0

/-- The largest field list of a table: every field present at its full length (R208). -/
def largestEntry (fs : List FieldSpec) : Nat := (fs.map fun f => 2 + f.full).sum

/-- The fields of RECORD, from code 1; the probe copy is a nested field list (R129, R209). -/
def recordSpec : List FieldSpec :=
  [fixed 4, fixed 1, fixed 2, fixed 1, option 1, ⟨failureLens, false, none⟩, option 2, fixed 1, fixed 1,
    option (largestEntry probeSpec), fixed 1]

/-- The tables of R195. -/
inductive Table where
  | settings | segment | station | aliases | printer | job | finished | probe | record
  deriving DecidableEq, Repr

/-- The table of a code (R208). -/
def Table.ofCode (c : Byte) : Option Table :=
  match c.toNat with
  | 1 => some .settings
  | 2 => some .segment
  | 3 => some .station
  | 4 => some .aliases
  | 5 => some .printer
  | 6 => some .job
  | 7 => some .finished
  | 8 => some .probe
  | 9 => some .record
  | _ => none

/-- How many indices a table has (R195). -/
def Table.indices : Table → Nat
  | .settings => 1
  | .segment => 4
  | .station => 256
  | .aliases => 128
  | .printer => 8
  | .job => 32
  | .finished => 16
  | .probe => 4
  | .record => 4

/-- The fields of a table. -/
def Table.spec : Table → List FieldSpec
  | .settings => settingsSpec
  | .segment => segmentSpec
  | .station => stationSpec
  | .aliases => aliasSpec
  | .printer => printerSpec
  | .job => jobSpec
  | .finished => finishedSpec
  | .probe => probeSpec
  | .record => recordSpec

/-! ### Enumerations, numbered from 0 in the order of their rules (R209) -/

/-- A byte of a number. -/
def byte (n : Nat) : Byte := BitVec.ofNat 8 n

/-- R110. -/
def FailCause.code (c : FailCause) : Nat := c.index
/-- R40. -/
def StationState.code : StationState → Nat
  | .present => 0 | .slow => 1 | .absent => 2 | .quarantined => 3 | .duplicate => 4
/-- R40. -/
def QuarantineCause.code : QuarantineCause → Nat
  | .suspect => 0 | .jabber => 1 | .manager => 2
/-- R40. -/
def Origin.code : Origin → Nat
  | .discovered => 0 | .configured => 1
/-- R40. -/
def Role.code : Role → Nat
  | .terminal => 0 | .printer => 1
/-- R40: 0, 1, NONE. -/
def seqCode : Option Bool → Nat
  | some false => 0 | some true => 1 | none => 2
/-- R109. -/
def SegState.code : SegState → Nat
  | .down => 0 | .starting => 1 | .active => 2 | .strained => 3 | .cooling => 4 | .probing => 5 | .trial => 6
  | .latched => 7
/-- R24. -/
def Requester.code : Requester → Nat
  | .deliver => 0 | .feed => 1 | .poll => 2
/-- R64. -/
def AliasKind.code : AliasKind → Nat
  | .static => 0 | .dynamic => 1
/-- R64. -/
def AliasState.code : AliasState → Nat
  | .active => 0 | .conflict => 1
/-- R168. -/
def FeedState.code : FeedState → Nat
  | .idle => 0 | .feeding => 1 | .waitReady => 2 | .stalled => 3 | .lost => 4 | .disabled => 5
/-- R148. -/
def JobState.code : JobState → Nat
  | .filling => 0 | .queued => 1 | .active => 2
/-- R149. -/
def JobOutcome.code : JobOutcome → Nat
  | .done => 0 | .cancelled => 1 | .failed _ => 2
/-- R149. -/
def FailReason.code : FailReason → Nat
  | .sourceLost => 0 | .printerLost => 1 | .restart => 2
/-- R143. -/
def Trigger.code : Trigger → Nat
  | .start => 0 | .retry => 1 | .manual => 2
/-- R143. -/
def ProbeOutcome.code : ProbeOutcome → Nat
  | .pass => 0 | .fail => 1 | .aborted => 2
/-- R143. -/
def QuietVerdict.code : QuietVerdict → Nat
  | .quiet => 0 | .jabberLine => 1
/-- R143. -/
def DcVerdict.code : DcVerdict → Nat
  | .low => 0 | .ok => 1 | .high => 2
/-- R143. -/
def EchoClass.code : EchoClass → Nat
  | .openLine => 0 | .openEnd => 1 | .short => 2 | .none => 3 | .unstable => 4
/-- R129. -/
def TripFrom.code : TripFrom → Nat
  | .active => 0 | .strained => 1 | .trial => 2
/-- R129. -/
def WentTo.code : WentTo → Nat
  | .cooling => 0 | .latched => 1
/-- R192. -/
def StoreResult.code : StoreResult → Nat
  | .none => 0 | .done => 1 | .failed => 2

/-! ### Values of fields; an absent optional field has the value of length 0 -/

/-- A station in a field or a list: its segment, then its number (R209). -/
def stationBytes (g : Seg) (n : Nat) : List Byte := [byte (segNat g), byte n]

/-- An optional value. -/
def optBytes (len : Nat) (v : Option Nat) : List Byte :=
  match v with
  | some n => be len n
  | none => []

/-- A target (R209). -/
def Target.bytes : Target → List Byte
  | .ethernet a => 0#8 :: addrBytes a
  | .station g n => 1#8 :: stationBytes g n

/-- A job source (R209). -/
def Source.bytes : Source → List Byte
  | .ethernet a => 0#8 :: addrBytes a
  | .coax g n => 1#8 :: stationBytes g n

/-- A recent-failures list (R209). -/
def failureBytes (l : List Failure) : List Byte :=
  byte l.length :: (l.map fun f => [byte f.number, byte f.cause.code] ++ be 4 f.time).flatten

/-- The values of SETTINGS, from code 1. -/
def Dev.settingsValues (d : Dev) : List (List Byte) :=
  let s := d.set
  [addrBytes s.base, be 2 s.coaxFloor, be 2 s.transitReserve, be 2 s.spoolQuota, be 2 s.carrierType.toNat,
    be 2 s.mgmtType.toNat, be 2 s.pauseOn, be 2 s.pauseOff, be 2 s.pauseQuanta, be 4 s.absentForget, be 4 s.aliasIdle,
    [s.uplinkReach.byte], be 2 s.jobIdle, be 2 s.streamBlocks, addrBytes s.noticeAddr, be 1 s.noticeBatch,
    be 2 s.noticeHoldoff, be 4 s.noticeMask.toNat, addrBytes s.manager0 ++ addrBytes s.manager1, be 2 d.pool.free,
    be 2 d.pool.transit, be 2 d.pool.spool, [byte d.agent.saving.isSome.toNat], [byte d.agent.lastStore.code],
    addrBytes d.agent.identity.base, be 2 d.agent.identity.part.toNat, be 1 d.agent.identity.revision.toNat,
    be 4 d.uptime]

/-- The next visit of the plan, while a cycle is in progress and has one (R39). -/
def Dev.nextVisit (d : Dev) (g : Seg) : Option Visit := (d.visits g).head?

/-- The seconds left on the cooldown timer in COOLING, or on the trial timer in TRIAL (R130). -/
def Dev.segTimerLeft (d : Dev) (g : Seg) : Option Nat :=
  let m := (d.seg g).mon
  match m.state with
  | .cooling => m.cooldownTimer.map (secondsLeft d.clock)
  | .trial => m.trialTimer.map (secondsLeft d.clock)
  | .down | .starting | .active | .strained | .probing | .latched => none

/-- The values of a SEGMENT entry, from code 1 (R24, R39, R49, R66, R71, R115, R130, R132). -/
def Dev.segmentValues (d : Dev) (g : Seg) : List (List Byte) :=
  let s := d.seg g
  let c := s.cfg
  let m := s.mon
  [be 2 c.replyTimeout, be 2 c.urgentAge, be 2 c.cycleFloor, be 2 s.sched.floorInEffect, be 2 s.sched.cycleCount,
    optBytes 1 ((d.nextVisit g).map (·.subRound)), optBytes 1 ((d.nextVisit g).map (·.pass)),
    be 1 s.sched.rotation.code, be 2 c.discoveryInterval, be 2 c.slotTime, be 1 c.aliasLow, be 1 c.aliasHigh,
    [c.reach.byte], be 1 c.wTimeout, be 1 c.wBadCheck, be 1 c.wBadFrame, be 1 c.wCollision, be 1 c.wJabber,
    be 1 c.drain, be 2 c.relieve, be 2 c.warn, be 2 c.trip, be 2 c.preset, be 1 c.retryLimit, be 2 c.cooldown,
    be 2 c.trialTime, be 1 c.enabled.toNat, be 1 m.state.code, be 2 m.strain, be 1 m.run, be 2 m.peak, be 1 m.attempts,
    optBytes 1 (m.lastCause.map FailCause.code), optBytes 2 (d.segTimerLeft g), failureBytes m.recent, be 1 c.quietTime,
    be 2 c.dcLow, be 2 c.dcHigh, be 1 c.shotExponent, be 1 c.blankCount, be 1 c.launchOffset, be 2 c.coefficient,
    be 2 c.segmentLength]

/-- The values of a STATION entry, from code 1 (R40). -/
def Station.values (e : Station) : List (List Byte) :=
  [be 1 (segNat e.seg), be 1 e.number, be 1 e.state.code, optBytes 1 (e.cause.map QuarantineCause.code),
    be 1 e.origin.code, be 1 e.role.code, be 1 e.weight, optBytes 2 e.tap, be 1 e.misses, be 1 e.dupStrikes,
    be 1 e.jabStrikes, be 1 (seqCode e.lastSeq), be 1 (ackCode e.pendingAck), be 1 e.nextBit.toNat,
    optBytes 4 e.lastHeard, optBytes 4 e.absentSince]

/-- The values of an ALIAS entry, from code 1 (R64). -/
def AliasEntry.values (a : AliasEntry) : List (List Byte) :=
  [be 1 (segNat a.seg), be 1 a.number, be 1 a.kind.code, a.target.bytes, be 1 a.state.code, be 4 a.lastUsed,
    be 4 a.created]

/-- The seconds left on the hold timer in LOST or on the busy retry timer in WAIT_READY (R181); absent while the timer of
LOST is stopped (DESIGN CHOICE, log entry 54). -/
def Printer.timerLeft (p : Printer) (clock : Nat) : Option Nat :=
  match p.feed with
  | .lost => p.holdTimer.map (secondsLeft clock)
  | .waitReady => p.busyTimer.map (secondsLeft clock)
  | .idle | .feeding | .stalled | .disabled => none

/-- The values of a PRINTER entry, from code 1 (R145, R181). -/
def Dev.printerValues (d : Dev) (id : Nat) (p : Printer) : List (List Byte) :=
  [stationBytes p.seg p.number, be 1 p.enabled.toNat, be 1 p.jobLimit, be 2 p.holdTime, be 2 p.busyRetry,
    be 1 p.lostLimit, be 1 p.feed.code, be 1 (d.jobCount id), optBytes 1 ((d.activeJob id).map (·.id)),
    be 1 p.failCount, optBytes 2 (p.timerLeft d.clock)]

/-- The values of a JOB entry, from code 1 (R148). -/
def Job.values (j : Job) : List (List Byte) :=
  [be 1 j.id, be 1 j.printer, j.source.bytes, be 1 j.state.code, be 1 j.isOpen.toNat, be 2 j.chain.length,
    be 4 j.received, be 4 j.printed, be 4 j.created, be 4 j.lastArrival, optBytes 4 j.stamp]

/-- The reason of a FAILED outcome (R149). -/
def JobOutcome.reason : JobOutcome → Option FailReason
  | .failed r => some r
  | .done | .cancelled => none

/-- The values of a FINISHED entry, from code 1 (R149). -/
def Summary.values (x : Summary) : List (List Byte) :=
  [be 1 x.id, be 1 x.printer, x.source.bytes, be 1 x.outcome.code, optBytes 1 (x.outcome.reason.map FailReason.code),
    be 4 x.received, be 4 x.printed, be 4 x.ended]

/-- The values of a PROBE entry, from code 1 (R143), its NEAR flag 1 where it is set and 0 where it is clear (DESIGN
CHOICE, log entry 79). -/
def ProbeRecord.values (r : ProbeRecord) : List (List Byte) :=
  [be 4 r.uptime, be 1 r.trigger.code, be 1 r.outcome.code, optBytes 1 (r.quiet.map QuietVerdict.code),
    optBytes 2 r.dcCode, optBytes 1 (r.dcVerdict.map DcVerdict.code), be 1 r.fired, optBytes 1 r.positives,
    optBytes 1 r.negatives, optBytes 1 r.nones, optBytes 2 r.average, optBytes 1 (r.echo.map EchoClass.code),
    optBytes 2 r.distance, be 1 r.near.toNat, optBytes 1 r.tapBefore, optBytes 1 r.tapAfter]

/-- A field list, from code 1: code, length, value, an absent field left out (R196, R209). -/
def fieldList (code : Nat) : List (List Byte) → List Byte
  | [] => []
  | v :: vs => (if v.isEmpty then [] else [byte code, byte v.length] ++ v) ++ fieldList (code + 1) vs

/-- The values of a segment's RECORD entry, from code 1 (R129); its dominant station reads as segment and number (R209). -/
def IsolationRecord.values (g : Seg) (r : IsolationRecord) : List (List Byte) :=
  [be 4 r.uptime, be 1 r.fromState.code, be 2 r.strain, be 1 r.run, optBytes 1 (r.lastCause.map FailCause.code),
    failureBytes r.recent, (r.dominant.map (stationBytes g)).getD [], be 1 r.attempts, be 1 r.wentTo.code,
    match r.probe with
    | some p => fieldList 1 p.values
    | none => [],
    be 1 r.tripsSince]

/-- The jobs in the order of the JOB table: ascending id (R148). -/
def Dev.jobsById (d : Dev) : List Job := sortBy (fun a b => decide (a.id < b.id)) d.spool.jobs

/-- The values of the entry at an index of a table, if the index names one (R196). -/
def Dev.entryValues (d : Dev) (t : Table) (i : Nat) : Option (List (List Byte)) :=
  match t with
  | .settings => some d.settingsValues
  | .segment => (segOf i).map d.segmentValues
  | .station => d.stations[i]?.map Station.values
  | .aliases => d.aliases[i]?.map AliasEntry.values
  | .printer => (d.printer i).map (d.printerValues i)
  | .job => d.jobsById[i]?.map Job.values
  | .finished => d.spool.finished[i]?.map Summary.values
  | .probe => (segOf i).bind fun g => (d.seg g).probe.last.map ProbeRecord.values
  | .record => (segOf i).bind fun g => (d.seg g).mon.record.map (IsolationRecord.values g)

/-- What an operation leaves: the part, its status and its data. -/
abbrev Answer := Dev × Status × List Byte

/-- An answer without data. -/
def bare (r : Dev × Status) : Answer := (r.1, r.2, [])

/-- READ (R196). -/
def Dev.readOp (d : Dev) (table index : Byte) : Answer :=
  match Table.ofCode table with
  | none => (d, .unknownTable, [])
  | some t =>
    if t.indices ≤ index.toNat then (d, .range, [])
    else
      match d.entryValues t index.toNat with
      | some vs => (d, .ok, fieldList 1 vs)
      | none => (d, .noEntry, [])

/-! ### The form of a WRITE -/

/-- The specification of a field code. -/
def specOf (fs : List FieldSpec) (code : Byte) : Option FieldSpec :=
  if code.toNat = 0 then none else fs[code.toNat - 1]?

/-- Every field named is defined and has a length of its field (R197, R209) (DESIGN CHOICE, log entry 40). -/
def fieldsSound (fs : List FieldSpec) (named : List Field) : Bool :=
  named.all fun f => match specOf fs f.code with
    | some s => s.lens.contains f.value.length
    | none => false

/-- The bytes a write gives for a field code; of two the later stands (DESIGN CHOICE, log entry 38). -/
def given (named : List Field) (code : Nat) : Option (List Byte) :=
  (named.reverse.find? fun f => f.code.toNat == code).map Field.value

/-- A field code is named. -/
def names (named : List Field) (code : Nat) : Bool := (given named code).isSome

/-- The number written for a field, clamped to its range, or the present one. -/
def clampedOr (named : List Field) (code lo hi old : Nat) : Nat :=
  match given named code with
  | some v => clamp lo hi (ofBe v)
  | none => old

/-- The number written for a field, or the present one. -/
def natOr (named : List Field) (code old : Nat) : Nat :=
  match given named code with
  | some v => ofBe v
  | none => old

/-- The status of one field of a taken write (R197). -/
def fieldStatus (fs : List FieldSpec) (f : Field) : Status :=
  match specOf fs f.code with
  | none => .range
  | some s =>
    if !s.writable then .readOnly
    else
      match s.range with
      | some (lo, hi) => if f.value.isEmpty ∨ clamp lo hi (ofBe f.value) = ofBe f.value then .ok else .clamped
      | none => .ok

/-- The status of a taken write (R197). -/
def writeStatus (fs : List FieldSpec) (named : List Field) : Status :=
  let sts := named.map (fieldStatus fs)
  if sts.contains .readOnly then .readOnly else if sts.contains .clamped then .clamped else .ok

/-- The field results of a taken write: code, field status, value length, stored value (R208). -/
def fieldResults (fs : List FieldSpec) (named : List Field) (stored : List (List Byte)) : List Byte :=
  (named.map fun f =>
    let v := stored.getD (f.code.toNat - 1) []
    [f.code, (fieldStatus fs f).code, byte v.length] ++ v).flatten

/-- The answer of a taken write, given the values that stand after it. -/
def taken (fs : List FieldSpec) (named : List Field) (d : Dev) (stored : List (List Byte)) : Answer :=
  (d, writeStatus fs named, fieldResults fs named stored)

end Sys2Proof.Machine
end

