-- ==== Sys2Proof/Machine/Writes.lean ====
section
/-! DEFINITION. WRITE and DELETE of the tables: SETTINGS (R62, R63, R86 to R88, R103 to R107, R188, R199), SEGMENT (R35,
R66, R71, R115, R130, R132), STATION (R59, R60), ALIAS (R80, R81) and PRINTER (R146, R147). -/

namespace Sys2Proof.Machine

open Sys2Proof Host

/-- Some field of a run of codes is named. -/
def namesAny (named : List Field) (codes : List Nat) : Bool := codes.any (names named)

/-! ### SETTINGS -/

/-- The settings a write would leave, its values clamped; the bits of the notice mask that name no kind are kept as written
(DESIGN CHOICE, log entry 72). -/
def Settings.written (s : Settings) (w : List Field) : Settings :=
  { s with
    base := match given w 1 with | some v => addrOf v | none => s.base
    coaxFloor := clampedOr w 2 0 512 s.coaxFloor
    transitReserve := clampedOr w 3 0 512 s.transitReserve
    spoolQuota := clampedOr w 4 0 1792 s.spoolQuota
    carrierType := BitVec.ofNat 16 (natOr w 5 s.carrierType.toNat)
    mgmtType := BitVec.ofNat 16 (natOr w 6 s.mgmtType.toNat)
    pauseOn := natOr w 7 s.pauseOn
    pauseOff := natOr w 8 s.pauseOff
    pauseQuanta := clampedOr w 9 1 65535 s.pauseQuanta
    absentForget := clampedOr w 10 60 86400 s.absentForget
    aliasIdle := clampedOr w 11 30 86400 s.aliasIdle
    uplinkReach := match given w 12 with
      | some v => { Reach.ofByte (v.headD 0#8) with uplink := false }
      | none => s.uplinkReach
    jobIdle := clampedOr w 13 5 3600 s.jobIdle
    streamBlocks := clampedOr w 14 1 256 s.streamBlocks
    noticeAddr := match given w 15 with | some v => addrOf v | none => s.noticeAddr
    noticeBatch := clampedOr w 16 1 32 s.noticeBatch
    noticeHoldoff := clampedOr w 17 0 60000 s.noticeHoldoff
    noticeMask := BitVec.ofNat 32 (natOr w 18 s.noticeMask.toNat)
    manager0 := match given w 19 with | some v => addrOf (v.take 6) | none => s.manager0
    manager1 := match given w 19 with | some v => addrOf (v.drop 6) | none => s.manager1 }

/-- A frame type may stand (R107). -/
def typeOk (t : BitVec 16) : Bool := decide (0x0600 ≤ t.toNat) && t != 0x8808#16

/-- The conditions of R62, R105, R107 and R199 on the settings themselves; a broken one refuses a write RANGE. -/
def Settings.sound (s : Settings) : Bool :=
  s.base.toNat % 1024 == 0 && typeOk s.carrierType && typeOk s.mgmtType && s.carrierType != s.mgmtType
    && decide (1 ≤ s.pauseOn) && decide (s.pauseOn < s.pauseOff) && decide (s.pauseOff ≤ 2048)
    && !groupBit s.manager0 && !groupBit s.manager1

/-- A STATIC alias names an address of the new proxy range (R63). -/
def Dev.staticInProxy (d : Dev) (base : Addr) : Bool :=
  d.aliases.any fun a => a.kind == .static && inProxy base a.target

/-- The effects of a taken SETTINGS write on the other blocks (R58, R63, R77, R105, R154, R156, R188, R189), in the order of
the fields' codes, the selection and the notice last (DESIGN CHOICE, log entry 69). -/
def Dev.settingsEffects (d : Dev) (w : List Field) (baseMoved : Bool) : Dev :=
  let d := if baseMoved then d.withdrawInProxy else d
  let d := if namesAny w [7, 8] then d.pauseTest else d
  let d := if names w 10 then d.forgetAll else d
  let d := if names w 11 then d.withdrawIdle else d
  let d := if names w 13 then d.closeIdleJobs else d
  let d := if namesAny w [4, 14] then d.selectAll else d
  if namesAny w [15, 16, 17, 18] then d.retimeHoldoff.noticeTest else d

/-- WRITE of the SETTINGS entry (R199) (DESIGN CHOICE, log entry 35). -/
def Dev.writeSettings (d : Dev) (w : List Field) : Answer :=
  if !fieldsSound settingsSpec w then (d, .range, [])
  else
    let new := d.set.written w
    let moved := new.base != d.set.base
    if !new.sound || decide (new.spoolQuota < d.pool.spool) then (d, .range, [])
    else if moved && d.staticInProxy new.base then (d, .inUse, [])
    else
      let d' := ({ d with set := new }).settingsEffects w moved
      taken settingsSpec w d' d'.settingsValues

/-! ### SEGMENT -/

/-- The settings of a segment that a write would leave, its values clamped. -/
def SegSettings.written (c : SegSettings) (w : List Field) : SegSettings :=
  { c with
    replyTimeout := clampedOr w 1 100 3000 c.replyTimeout
    urgentAge := clampedOr w 2 1 1000 c.urgentAge
    cycleFloor := clampedOr w 3 0 1000 c.cycleFloor
    discoveryInterval := clampedOr w 9 10 3600 c.discoveryInterval
    slotTime := clampedOr w 10 60 500 c.slotTime
    aliasLow := natOr w 11 c.aliasLow
    aliasHigh := natOr w 12 c.aliasHigh
    reach := match given w 13 with | some v => Reach.ofByte (v.headD 0#8) | none => c.reach
    wTimeout := clampedOr w 14 0 255 c.wTimeout
    wBadCheck := clampedOr w 15 0 255 c.wBadCheck
    wBadFrame := clampedOr w 16 0 255 c.wBadFrame
    wCollision := clampedOr w 17 0 255 c.wCollision
    wJabber := clampedOr w 18 0 255 c.wJabber
    drain := clampedOr w 19 0 255 c.drain
    relieve := clampedOr w 20 1 4095 c.relieve
    warn := clampedOr w 21 1 4095 c.warn
    trip := clampedOr w 22 1 4095 c.trip
    preset := clampedOr w 23 1 4095 c.preset
    retryLimit := clampedOr w 24 0 15 c.retryLimit
    cooldown := clampedOr w 25 1 3600 c.cooldown
    trialTime := clampedOr w 26 5 3600 c.trialTime
    quietTime := clampedOr w 36 1 20 c.quietTime
    dcLow := clampedOr w 37 0 1023 c.dcLow
    dcHigh := clampedOr w 38 0 1023 c.dcHigh
    shotExponent := clampedOr w 39 0 4 c.shotExponent
    blankCount := clampedOr w 40 0 255 c.blankCount
    launchOffset := clampedOr w 41 0 255 c.launchOffset
    coefficient := clampedOr w 42 128 320 c.coefficient
    segmentLength := clampedOr w 43 0 2047 c.segmentLength }

/-- The conditions of R66, R71, R115 and R132; a broken one refuses a write RANGE. -/
def SegSettings.sound (g : Seg) (c : SegSettings) : Bool :=
  decide (1 ≤ c.aliasLow) && decide (c.aliasLow ≤ c.aliasHigh) && decide (c.aliasHigh ≤ 254) && !c.reach.segs.get g
    && decide (c.relieve < c.warn) && decide (c.warn < c.trip) && decide (c.preset < c.trip)
    && decide (c.dcLow < c.dcHigh)

/-- WRITE of a SEGMENT entry (R130): a cycle floor takes effect at once out of service (R35), and an alias range
withdraws the DYNAMIC aliases outside it (R66). -/
def Dev.writeSegmentAt (d : Dev) (g : Seg) (w : List Field) : Answer :=
  if !fieldsSound segmentSpec w then (d, .range, [])
  else
    let new := (d.seg g).cfg.written w
    if !new.sound g then (d, .range, [])
    else
      let d' := d.modSeg g fun s => { s with cfg := new }
      let d' := if names w 3 && !d.inService g then
          d'.modSched g fun s => { s with floorInEffect := new.cycleFloor }
        else d'
      let d' := if namesAny w [11, 12] then d'.withdrawOutside g else d'
      taken segmentSpec w d' (d'.segmentValues g)

/-- WRITE of the SEGMENT table. -/
def Dev.writeSegment (d : Dev) (i : Nat) (w : List Field) : Answer :=
  match segOf i with
  | some g => d.writeSegmentAt g w
  | none => (d, .range, [])

/-! ### STATION -/

/-- The tap distance a write leaves (R59): written as absent with length 0. -/
def tapOr (w : List Field) (old : Option Nat) : Option Nat :=
  match given w 8 with
  | some v => if v.isEmpty then none else some (clamp 0 2047 (ofBe v))
  | none => old

/-- The origin a code stands for. -/
def originOf : Nat → Origin
  | 0 => .discovered
  | _ => .configured

/-- A station number names a station. -/
def stationNumber (n : Nat) : Bool := decide (1 ≤ n) && decide (n ≤ 254)

/-- A new entry, or an entry moved to a new pair, as a WRITE creates it (R59). -/
def Dev.writtenStation (d : Dev) (g : Seg) (n : Nat) (w : List Field) (origin : Origin) (weight : Nat)
    (tap : Option Nat) : Station :=
  { Station.fresh d.nextEid g n .absent (originOf (natOr w 5 origin.code)) with
    absentSince := some d.uptime, weight := clampedOr w 7 0 15 weight, tap := tapOr w tap }

/-- The values of the entry at a pair. -/
def Dev.stationValuesAt (d : Dev) (g : Seg) (n : Nat) : List (List Byte) :=
  match d.station g n with
  | some e => e.values
  | none => []

/-- An existing entry is changed in place: origin, weight and tap distance; one turned DISCOVERED is at once subject to
forgetting (R58, R59). A write that has its own entry forgotten so answers the values as written, before the removal
(DESIGN CHOICE, log entry 75). -/
def Dev.changeStation (d : Dev) (e : Station) (w : List Field) : Answer :=
  let origin := originOf (natOr w 5 e.origin.code)
  let d := d.modStation e.eid fun e =>
    { e with origin := origin, weight := clampedOr w 7 0 15 e.weight, tap := tapOr w e.tap }
  let a := taken stationSpec w d (d.stationValuesAt e.seg e.number)
  (if origin = .discovered then a.1.forgetAt e.seg e.number else a.1, a.2)

/-- A new entry is written (R59). -/
def Dev.writeNewStation (d : Dev) (w : List Field) : Answer :=
  match given w 1, given w 2 with
  | some sv, some nv =>
    match segOf (ofBe sv) with
    | none => (d, .range, [])
    | some g =>
      let n := ofBe nv
      if !stationNumber n then (d, .range, [])
      else if (d.station g n).isSome then (d, .inUse, [])
      else if Config.stationMax ≤ d.stations.length then (d, .full, [])
      else
        let d := d.createStation (d.writtenStation g n w .configured 4 none)
        taken stationSpec w d (d.stationValuesAt g n)
  | _, _ => (d, .range, [])

/-- An existing entry is written: moved where its segment or number changes (R59). -/
def Dev.writeOldStation (d : Dev) (e : Station) (w : List Field) : Answer :=
  match segOf (natOr w 1 (segNat e.seg)) with
  | none => (d, .range, [])
  | some g =>
    let n := natOr w 2 e.number
    if !stationNumber n then (d, .range, [])
    else if g = e.seg ∧ n = e.number then d.changeStation e w
    else if (d.station g n).isSome then (d, .inUse, [])
    else if e.role = .printer ∨ (d.printerAt e.seg e.number).isSome then (d, .inUse, [])
    else
      let d := d.removeStation e
      let d := d.createStation (d.writtenStation g n w e.origin e.weight e.tap)
      taken stationSpec w d (d.stationValuesAt g n)

/-- WRITE of the STATION table (R59). -/
def Dev.writeStation (d : Dev) (i : Nat) (w : List Field) : Answer :=
  if !fieldsSound stationSpec w || decide (1 < natOr w 5 0) then (d, .range, [])
  else
    match d.stations[i]? with
    | some e => d.writeOldStation e w
    | none => d.writeNewStation w

/-- DELETE of the STATION table (R60). -/
def Dev.deleteStation (d : Dev) (i : Nat) : Dev × Status :=
  match d.stations[i]? with
  | none => (d, .noEntry)
  | some e => if (d.printerAt e.seg e.number).isSome then (d, .inUse) else (d.removeStation e, .ok)

/-! ### ALIAS -/

/-- The target of a value (R209), if it has one of the two forms. -/
def targetOf (v : List Byte) : Option Target :=
  if v.length = 7 ∧ v.headD 0#8 = 0#8 then some (.ethernet (addrOf (v.drop 1)))
  else if v.length = 3 ∧ v.headD 0#8 = 1#8 then
    (segOf (v.getD 1 0#8).toNat).map fun g => .station g (v.getD 2 0#8).toNat
  else none

/-- An alias of a segment may name the target (R65, R80). -/
def targetOk (base : Addr) (g : Seg) : Target → Bool
  | .ethernet a => individual a && !inProxyRange base a
  | .station k n => k != g && stationNumber n

/-- Two aliases are the same entry: a number on a segment has at most one (R65). -/
def sameAlias (a b : AliasEntry) : Bool := a.seg == b.seg && a.number == b.number

/-- What an ALIAS write asks for: the segment, number and target, those of an existing entry where it omits them. -/
def askedAlias (w : List Field) (old : Option AliasEntry) : Option (Seg × Nat × Target) :=
  let seg := match given w 1 with
    | some v => segOf (ofBe v)
    | none => old.map (·.seg)
  let number := match given w 2 with
    | some v => some (ofBe v)
    | none => old.map (·.number)
  let target := match given w 4 with
    | some v => targetOf v
    | none => old.map (·.target)
  match seg, number, target with
  | some g, some n, some t => some (g, n, t)
  | _, _, _ => none

/-- Room for a new alias: in a full table the least recently used DYNAMIC entry goes, whatever its last use (R80,
step 3). No write that the model takes finds the table full: see `Dev.writeAlias` (DESIGN CHOICE, log entry 76). -/
def Dev.roomForAlias (d : Dev) : Dev :=
  if d.aliases.length < Config.aliasMax then d
  else
    match d.lruAlias fun a => a.kind == .dynamic with
    | some a => d.withdrawAlias a.seg a.number
    | none => d

/-- A taken ALIAS write (R80, steps 1 to 4); a number or target that the write leaves out stands for the one written
(DESIGN CHOICE, log entry 58). -/
def Dev.putAlias (d : Dev) (old : Option AliasEntry) (g : Seg) (n : Nat) (t : Target) : Dev :=
  let other := fun (a : AliasEntry) => match old with
    | some o => !sameAlias o a
    | none => true
  let d := d.withdrawAliases fun a => a.kind == .dynamic && a.seg == g && a.number == n && other a
  let d := d.withdrawAliases fun a => a.kind == .dynamic && a.seg == g && a.target == t && other a
  match old with
  | none =>
    d.roomForAlias.addAlias ⟨g, n, .static, t, .active, d.uptime, d.uptime⟩
  | some o =>
    let st : AliasState := if o.state = .conflict ∧ o.seg = g ∧ o.number = n then .conflict else .active
    (d.withdrawAlias o.seg o.number).addAlias ⟨g, n, .static, t, st, o.lastUsed, o.created⟩

/-- The refusals of R80 after RANGE, in their order. No write comes to FULL: see `Dev.writeAlias` (DESIGN CHOICE, log
entry 76). -/
def Dev.aliasRefused (d : Dev) (old : Option AliasEntry) (g : Seg) (n : Nat) (t : Target) : Option Status :=
  let moved := match old with
    | some o => decide (o.seg ≠ g ∨ o.number ≠ n)
    | none => true
  let other := d.aliases.filter fun a => a.kind == .static && (match old with
    | some o => !sameAlias o a
    | none => true)
  if moved && (d.station g n).isSome then some .inUse
  else if other.any fun a => a.seg == g && (a.number == n || a.target == t) then some .inUse
  else if old.isNone && decide (Config.aliasMax ≤ d.aliases.length) && d.aliases.all fun a => a.kind == .static then
    some .full
  else none

/-- The values of the alias at a pair. -/
def Dev.aliasValuesAt (d : Dev) (g : Seg) (n : Nat) : List (List Byte) :=
  match d.aliasAt g n with
  | some a => a.values
  | none => []

/-- WRITE of the ALIAS table (R80). While the table holds 128 aliases, a new one needs an index past 127, and RANGE for
such an index (R195, R197) comes before R80's FULL and its step 3, which no write then reaches (DESIGN CHOICE, log entry
76). -/
def Dev.writeAlias (d : Dev) (i : Nat) (w : List Field) : Answer :=
  if Table.aliases.indices ≤ i ∨ fieldsSound aliasSpec w = false ∨ natOr w 3 0 ≠ 0 then (d, .range, [])
  else
    let old := d.aliases[i]?
    match askedAlias w old with
    | none => (d, .range, [])
    | some (g, n, t) =>
      if !stationNumber n || !targetOk d.set.base g t then (d, .range, [])
      else
        match d.aliasRefused old g n t with
        | some st => (d, st, [])
        | none =>
          let d := d.putAlias old g n t
          taken aliasSpec w d (d.aliasValuesAt g n)

/-- DELETE of the ALIAS table (R81). -/
def Dev.deleteAlias (d : Dev) (i : Nat) : Dev × Status :=
  if Table.aliases.indices ≤ i then (d, .range)
  else
    match d.aliases[i]? with
    | some a => (d.withdrawAlias a.seg a.number, .ok)
    | none => (d, .noEntry)

/-! ### PRINTER -/

/-- A new printer entry at its defaults, awaiting its station's role (R145, R146, R168). -/
def Printer.fresh (g : Seg) (n : Nat) : Printer :=
  { seg := g, number := n, enabled := true, jobLimit := 8, holdTime := 600, busyRetry := 200, lostLimit := 5,
    feed := .lost, awaitingRole := true, ready := none, sentMark := none, failCount := 0, busyTimer := none,
    holdTimer := none, disablePending := false }

/-- The four numbers a write leaves in a printer entry. -/
def Printer.written (p : Printer) (w : List Field) : Printer :=
  { p with
    jobLimit := clampedOr w 3 1 8 p.jobLimit
    holdTime := clampedOr w 4 10 3600 p.holdTime
    busyRetry := clampedOr w 5 50 5000 p.busyRetry
    lostLimit := clampedOr w 6 1 15 p.lostLimit }

/-- A station returns to role TERMINAL, and forgetting applies to it again (R58, R146, R147). -/
def Dev.returnStation (d : Dev) (g : Seg) (n : Nat) : Dev :=
  match d.station g n with
  | some e => (d.modStation e.eid fun e => { e with role := .terminal }).forgetAt g n
  | none => d

/-- The values of the printer entry at an id. -/
def Dev.printerValuesAt (d : Dev) (id : Nat) : List (List Byte) :=
  match d.printer id with
  | some p => d.printerValues id p
  | none => []

/-- An entry comes to name a station: written, the station it left returned, and the station's frames with the segment's
broadcasts flushed (R94, R146). -/
def Dev.placePrinter (d : Dev) (id : Nat) (p : Printer) : Dev :=
  let old := d.printer id
  let d := d.setPrinter id (some p)
  let d := match old with
    | some o => d.returnStation o.seg o.number
    | none => d
  d.flushForPrinter p.seg p.number

/-- WRITE of a printer entry that keeps its station (R146). -/
def Dev.changePrinter (d : Dev) (id : Nat) (w : List Field) : Answer :=
  let d := d.modPrinter id fun p => p.written w
  taken printerSpec w d (d.printerValuesAt id)

/-- WRITE of a printer entry that names a station (R146): the refusals in their order. -/
def Dev.writePrinterTo (d : Dev) (id : Nat) (g : Seg) (n : Nat) (w : List Field) : Answer :=
  if (d.station g n).isNone then (d, .noEntry, [])
  else if ((d.printerAt g n).any fun i => i != id) then (d, .inUse, [])
  else
    match d.printer id with
    | none =>
      let d := d.placePrinter id ((Printer.fresh g n).written w)
      taken printerSpec w d (d.printerValuesAt id)
    | some o =>
      if o.seg = g ∧ o.number = n then d.changePrinter id w
      else if 0 < d.jobCount id then (d, .inUse, [])
      else
        let p := { Printer.fresh g n with enabled := o.enabled, jobLimit := o.jobLimit, holdTime := o.holdTime,
                                          busyRetry := o.busyRetry, lostLimit := o.lostLimit }
        let d := d.placePrinter id (p.written w)
        taken printerSpec w d (d.printerValuesAt id)

/-- WRITE of the PRINTER table (R146). -/
def Dev.writePrinter (d : Dev) (id : Nat) (w : List Field) : Answer :=
  if Config.printerMax ≤ id ∨ fieldsSound printerSpec w = false then (d, .range, [])
  else
    match given w 1 with
    | some v =>
      match segOf (v.getD 0 0#8).toNat with
      | some g =>
        let n := (v.getD 1 0#8).toNat
        if stationNumber n then d.writePrinterTo id g n w else (d, .range, [])
      | none => (d, .range, [])
    | none => if (d.printer id).isSome then d.changePrinter id w else (d, .range, [])

/-- DELETE of the PRINTER table (R147). -/
def Dev.deletePrinter (d : Dev) (id : Nat) : Dev × Status :=
  if Config.printerMax ≤ id then (d, .range)
  else
    match d.printer id with
    | none => (d, .noEntry)
    | some p =>
      if 0 < d.jobCount id then (d, .inUse) else ((d.setPrinter id none).returnStation p.seg p.number, .ok)

/-! ### Any table -/

/-- WRITE of the table and index named (R197). -/
def Dev.writeTable (d : Dev) (t : Table) (i : Nat) (w : List Field) : Answer :=
  match t with
  | .settings => if i = 0 then d.writeSettings w else (d, .range, [])
  | .segment => d.writeSegment i w
  | .station => d.writeStation i w
  | .aliases => d.writeAlias i w
  | .printer => d.writePrinter i w
  | .job | .finished | .probe | .record => (d, .readOnly, [])

/-- DELETE of the table and index named (R198). -/
def Dev.deleteIn (d : Dev) (t : Table) (i : Nat) : Dev × Status :=
  if t.indices ≤ i then (d, .range)
  else
    match t with
    | .station => d.deleteStation i
    | .aliases => d.deleteAlias i
    | .printer => d.deletePrinter i
    | .settings | .segment | .job | .finished | .probe | .record => (d, .readOnly)

/-- WRITE (R197) (DESIGN CHOICE, log entry 39). -/
def Dev.writeOp (d : Dev) (table index : Byte) (w : List Field) : Answer :=
  match Table.ofCode table with
  | some t => d.writeTable t index.toNat w
  | none => (d, .unknownTable, [])

/-- DELETE (R198) (DESIGN CHOICE, log entry 39). -/
def Dev.deleteOp (d : Dev) (table index : Byte) : Dev × Status :=
  match Table.ofCode table with
  | some t => d.deleteIn t index.toNat
  | none => (d, .unknownTable)

end Sys2Proof.Machine
end

