-- ==== Sys2Proof/Machine/Start.lean ====
section
/-! DEFINITION. The stored image (R201, R202), the identity (R203), the cold start (R204) and the warm restart (R205),
with the loading of the tables (R61, R82, R166), and the second of uptime. -/

namespace Sys2Proof.Machine

open Sys2Proof Host

/-! ### The image -/

/-- The image taken from the tables as they stand (R201, R202). -/
def Dev.takeImage (d : Dev) : StoredImage :=
  { settings := d.set
    segs := ⟨d.segs.s0.cfg, d.segs.s1.cfg, d.segs.s2.cfg, d.segs.s3.cfg⟩
    stations := (d.stations.filter fun e => e.origin == .configured).map fun e => ⟨e.seg, e.number, e.weight, e.tap⟩
    aliases := (d.aliases.filter fun a => a.kind == .static).map fun a => ⟨a.seg, a.number, a.target⟩
    printers := printerIds.filterMap fun i => (d.printer i).map fun p =>
      ⟨i, p.seg, p.number, p.enabled, p.jobLimit, p.holdTime, p.busyRetry, p.lostLimit⟩ }

/-- Settings with every value brought into its range, as a WRITE would clamp it (R201). -/
def Settings.inRange (s : Settings) : Settings :=
  { s with
    coaxFloor := clamp 0 512 s.coaxFloor, transitReserve := clamp 0 512 s.transitReserve,
    spoolQuota := clamp 0 1792 s.spoolQuota, pauseQuanta := clamp 1 65535 s.pauseQuanta,
    absentForget := clamp 60 86400 s.absentForget, aliasIdle := clamp 30 86400 s.aliasIdle,
    jobIdle := clamp 5 3600 s.jobIdle, streamBlocks := clamp 1 256 s.streamBlocks,
    noticeBatch := clamp 1 32 s.noticeBatch, noticeHoldoff := clamp 0 60000 s.noticeHoldoff }

/-- A segment's settings with every value brought into its range (R201). -/
def SegSettings.inRange (c : SegSettings) : SegSettings :=
  { c with
    replyTimeout := clamp 100 3000 c.replyTimeout, urgentAge := clamp 1 1000 c.urgentAge,
    cycleFloor := clamp 0 1000 c.cycleFloor, discoveryInterval := clamp 10 3600 c.discoveryInterval,
    slotTime := clamp 60 500 c.slotTime, wTimeout := clamp 0 255 c.wTimeout, wBadCheck := clamp 0 255 c.wBadCheck,
    wBadFrame := clamp 0 255 c.wBadFrame, wCollision := clamp 0 255 c.wCollision, wJabber := clamp 0 255 c.wJabber,
    drain := clamp 0 255 c.drain, relieve := clamp 1 4095 c.relieve, warn := clamp 1 4095 c.warn,
    trip := clamp 1 4095 c.trip, preset := clamp 1 4095 c.preset, retryLimit := clamp 0 15 c.retryLimit,
    cooldown := clamp 1 3600 c.cooldown, trialTime := clamp 5 3600 c.trialTime, quietTime := clamp 1 20 c.quietTime,
    dcLow := clamp 0 1023 c.dcLow, dcHigh := clamp 0 1023 c.dcHigh, shotExponent := clamp 0 4 c.shotExponent,
    blankCount := clamp 0 255 c.blankCount, launchOffset := clamp 0 255 c.launchOffset,
    coefficient := clamp 128 320 c.coefficient, segmentLength := clamp 0 2047 c.segmentLength }

/-- The image holds no value that a WRITE would refuse RANGE (R201). -/
def StoredImage.sound (m : StoredImage) : Bool :=
  m.settings.inRange.sound && allSegs.all (fun g => (m.segs.get g).inRange.sound g)
    && m.stations.all (fun e => stationNumber e.number)
    && m.aliases.all (fun a => stationNumber a.number && targetOk m.settings.base a.seg a.target)
    && m.printers.all (fun p => decide (p.id < Config.printerMax) && stationNumber p.number)

/-- The image that a start uses, if the area holds one that passes its check (R201). -/
def ImageArea.usable : ImageArea → Option StoredImage
  | .stored m true => if m.sound then some m else none
  | .stored _ false | .erased | .broken => none

/-! ### Loading the tables -/

/-- One CONFIGURED entry is created as saved (R61); a pair that an earlier entry of the image holds is passed over
(DESIGN CHOICE, log entry 17). -/
def Dev.loadStation (d : Dev) (s : SavedStation) : Dev :=
  if (d.station s.seg s.number).isSome || decide (Config.stationMax ≤ d.stations.length) then d
  else d.insertStation
    { Station.fresh d.nextEid s.seg s.number .absent .configured with
      absentSince := some d.uptime, weight := clamp 0 15 s.weight, tap := s.tap.map (clamp 0 2047) }

/-- The station of a loaded printer entry takes the role PRINTER (R166). -/
def Dev.makePrinterStation (d : Dev) (g : Seg) (n : Nat) : Dev :=
  match d.station g n with
  | some e => d.modStation e.eid fun e => { e with role := .printer }
  | none => d

/-- One printer entry is loaded, its station entry created where none stands; into a full station table it is not
loaded (R166, R168). An entry whose id or station an earlier one of the image holds is passed over (DESIGN CHOICE, log
entry 17). -/
def Dev.loadPrinter (d : Dev) (p : SavedPrinter) : Dev :=
  let d' := if (d.station p.seg p.number).isSome then d else d.loadStation ⟨p.seg, p.number, 4, none⟩
  if (d'.station p.seg p.number).isNone || (d.printerAt p.seg p.number).isSome || (d.printer p.id).isSome then d
  else
    (d'.makePrinterStation p.seg p.number).setPrinter p.id (some
      { Printer.fresh p.seg p.number with
        enabled := p.enabled, jobLimit := clamp 1 8 p.jobLimit, holdTime := clamp 10 3600 p.holdTime,
        busyRetry := clamp 50 5000 p.busyRetry, lostLimit := clamp 1 15 p.lostLimit,
        feed := if p.enabled then .idle else .disabled, awaitingRole := false })

/-- One STATIC alias is created as saved and run through the conflict check (R82); one whose number or target an
earlier alias of its segment holds is passed over (R65) (DESIGN CHOICE, log entry 17). -/
def Dev.loadAlias (d : Dev) (a : SavedAlias) : Dev :=
  if (d.aliases.any fun b => b.seg == a.seg && (b.number == a.number || b.target == a.target)) ||
      decide (Config.aliasMax ≤ d.aliases.length) then d
  else
    let d := d.addAlias ⟨a.seg, a.number, .static, a.target, .active, d.uptime, d.uptime⟩
    if (d.station a.seg a.number).isSome then d.conflictCheck a.seg a.number else d

/-- The three tables are built from an image (R61), each in the order in which the image holds it (DEDUCED, log entry
63). -/
def Dev.loadTables (d : Dev) (m : StoredImage) : Dev :=
  m.aliases.foldl Dev.loadAlias (m.printers.foldl Dev.loadPrinter (m.stations.foldl Dev.loadStation d))

/-- The settings and the segments' settings a start takes: the image's, or the defaults (R62, R201). -/
def Dev.startSettings (d : Dev) (m : Option StoredImage) : Settings × Four SegSettings :=
  match m with
  | some m =>
    (m.settings.inRange, ⟨m.segs.s0.inRange, m.segs.s1.inRange, m.segs.s2.inRange, m.segs.s3.inRange⟩)
  | none => (.defaults d.agent.identity.base, .const .defaults)

/-- The tables of an image are loaded, or left empty (R61, R82, R166). -/
def Dev.loadImage (d : Dev) (m : Option StoredImage) : Dev :=
  match m with
  | some m => d.loadTables m
  | none => d

/-- Each segment whose enabled field is yes enters STARTING (R110). -/
def Dev.startSegments (d : Dev) : Dev :=
  allSegs.foldl (fun d g => if (d.seg g).cfg.enabled then d.enterStarting g else d) d

/-! ### Cold start -/

/-- The identity as read from its area (R203). -/
def Agent.readIdentity (a : Agent) : Identity := if a.identityArea.2 then a.identityArea.1 else .zero

/-- Step 1 and 2 of R204: every block at its cold start value, the identity read; the flash is what it was. -/
def Dev.blank (d : Dev) : Dev :=
  { clock := 0, uptime := 0, set := .defaults d.agent.readIdentity.base, segs := .const (.fresh .defaults),
    stations := [], aliases := [], pool := ⟨Config.poolBlocks, 0, 0⟩, up := .fresh, spool := .fresh, ev := .fresh,
    agent := { Agent.fresh with identity := d.agent.readIdentity, image := d.agent.image,
                                identityArea := d.agent.identityArea },
    nextEid := 0, nextFid := 0 }

/-- The cold start (R204) (DEDUCED, log entry 43); the settings are in force when the tables load (DESIGN CHOICE, log entry
74). -/
def Dev.coldStart (d : Dev) : Dev :=
  let m := d.agent.image.usable
  let d := d.blank
  let s := d.startSettings m
  let d := { d with set := s.1, segs := ⟨.fresh s.2.s0, .fresh s.2.s1, .fresh s.2.s2, .fresh s.2.s3⟩ }
  let d := d.loadImage m
  let d := d.raise .coldStart .none
  let d := if m.isNone then d.raise .configDefaulted .none else d
  let d := d.modUp fun u => { u with rxEnabled := true }
  d.startSegments.selectAll

/-! ### Warm restart -/

/-- A segment as a warm restart leaves it before it starts: its isolation record and its last probe result are kept
(R110, R131, R205). -/
def Segment.restarted (s : Segment) (c : SegSettings) : Segment :=
  { Segment.fresh c with
    mon := { Monitor.fresh .down with record := s.mon.record }
    probe := { Probe.fresh c with last := s.probe.last }
    lineOut := s.lineOut }

/-- A job ends FAILED(RESTART): its summary and its count, with no event (R167) (DESIGN CHOICE, log entry 34). -/
def Dev.failForRestart (d : Dev) (j : Job) : Dev :=
  let x : Summary := ⟨j.id, j.printer, j.source, .failed .restart, j.received, j.printed, d.uptime⟩
  (d.modSpool fun s => { s with finished := addSummary s.finished x }).countQuietly (.spool .failed)

/-- Step 3 of R205 for the uplink: only the response to the RESTART stays, at the head; the pause state goes OFF with
a pause frame of time 0 if the link is UP, ahead of the queue (R96, R108). A frame being transmitted is sent whole (R96),
off the queue unless it is the response (DEDUCED, log entry 33). -/
def Dev.restartUplink (d : Dev) (resp : Option UpFrame) : Dev :=
  let own := resp.isSome && d.up.queue.length == 1 && !d.up.leaving
  let on := d.up.pauseOn
  let d := d.modUp fun u =>
    { u with queue := resp.toList, leaving := u.txBusy && !own, pauseOn := false, repeatTimer := none }
  let d := if on then d.sendPause .release else d
  d.startTx

/-- Steps 1 to 3 of R205: exchanges, passes, probes and requests are dropped, the queues emptied, every job ended, every
block FREE. The segments stand DOWN until step 6. -/
def Dev.tearDown (d : Dev) (resp : Option UpFrame) : Dev :=
  let d := d.jobsById.foldl Dev.failForRestart d
  let d := d.modSpool fun s =>
    { s with printers := List.replicate 8 none, jobs := [], stampCounter := 0, endings := [] }
  let d := { d with
    segs := ⟨d.segs.s0.restarted d.segs.s0.cfg, d.segs.s1.restarted d.segs.s1.cfg, d.segs.s2.restarted d.segs.s2.cfg,
      d.segs.s3.restarted d.segs.s3.cfg⟩
    stations := [], aliases := [], pool := ⟨Config.poolBlocks, 0, 0⟩ }
  let d := d.modAgent fun a => { a with queue := [], running := none }
  d.restartUplink resp

/-- Step 4 of R205: the event list is emptied, and RESTARTED raised (R191). -/
def Dev.restartEvents (d : Dev) : Dev :=
  (d.modEv fun e => { e with events := [], lost := 0, holdoff := none, heldBack := none, noticeNumber := 0 }).raise
    .restarted .none

/-- Step 5 of R205: the settings and the tables come from the image, or the defaults, the settings first (DESIGN CHOICE, log
entry 74); the notice mask of the image moves the holdoff clock as any change of the unmasked entries does (R188). -/
def Dev.rebuild (d : Dev) : Dev :=
  let m := d.agent.image.usable
  let s := d.startSettings m
  let d := { d with
    set := s.1
    segs := ⟨d.segs.s0.restarted s.2.s0, d.segs.s1.restarted s.2.s1, d.segs.s2.restarted s.2.s2,
      d.segs.s3.restarted s.2.s3⟩ }.retimeHoldoff
  let d := d.loadImage m
  if m.isNone then d.raise .configDefaulted .none else d

/-- The warm restart, the response to the request that ordered it having been placed or not (R205). -/
def Dev.warmRestart (d : Dev) (resp : Option UpFrame) : Dev :=
  (((d.tearDown resp).restartEvents).rebuild).startSegments.selectAll

/-! ### The second of uptime -/

/-- A second of uptime passes (R58, Terms): past 4294967295 the count's value is free (DESIGN CHOICE, log entries 2
and 5). -/
def Dev.uptimeSecond (d : Dev) : Dev :=
  { d with
    clock := (d.clock / Config.sec + 1) * Config.sec
    uptime := if d.uptime < 4294967295 then d.uptime + 1 else Config.uptimeAfterLast.toNat }

/-! ### The commands -/

/-- COLD_START (R204). -/
def execColdStart (s : State) : Host.Outcome State Fault Refusal := .next { s with dev := s.dev.coldStart }

/-- UPTIME_SECOND (R58). -/
def execUptimeSecond (s : State) : Host.Outcome State Fault Refusal := .next { s with dev := s.dev.uptimeSecond }

end Sys2Proof.Machine
end

