-- ==== Sys2Proof/Machine/Agent.lean ====
section
/-! DEFINITION. The Management Agent's operations: jobs and printers by command (R162 to R165), events and counters (R184,
R190), the store (R202), the identity (R203), and the running of a request (R194), with the commands that stand for
each. -/

namespace Sys2Proof.Machine

open Sys2Proof Host

/-! ### Operations of their own -/

/-- TAKE_EVENTS (R190). -/
def Dev.takeEvents (d : Dev) : Answer :=
  (d.modEv fun e => { e with events := [], lost := 0, holdoff := none }, .ok, d.eventData)

/-- COUNTERS_READ (R184, R208). -/
def Dev.countersRead (d : Dev) (group : Byte) : Answer :=
  match d.ev.group group.toNat with
  | some cs => (d, .ok, byte cs.length :: (cs.map fun c => be 2 c.value).flatten)
  | none => (d, .range, [])

/-- COUNTERS_CLEAR (R184). -/
def Dev.countersClear (d : Dev) (group : Byte) : Dev × Status :=
  match d.ev.group group.toNat with
  | some cs => (d.modEv fun e => e.setGroup group.toNat (Counter.zeros cs.length), .ok)
  | none => (d, .range)

/-- CONFIG_SAVE (R202): the image is taken at once; until the write ends the area fails its check (DESIGN CHOICE, log
entry 16). -/
def Dev.configSave (d : Dev) : Dev × Status :=
  if d.agent.saving.isSome then (d, .wrongState)
  else (d.modAgent fun a => { a with saving := some d.takeImage, image := .broken }, .ok)

/-- STORE_COMPLETE (R202). -/
def Dev.storeComplete (d : Dev) (ok : Bool) : Dev :=
  match d.agent.saving with
  | some m =>
    let d := d.modAgent fun a =>
      { a with saving := none, lastStore := if ok then .done else .failed,
               image := if ok then .stored m true else .broken }
    d.raise (if ok then .storeDone else .storeFailed) .none
  | none => d

/-- IDENT (R203, R208). -/
def Dev.identData (d : Dev) : List Byte :=
  be 2 0x5C21 ++ be 2 d.agent.identity.part.toNat ++ be 1 d.agent.identity.revision.toNat
    ++ addrBytes d.agent.identity.base ++ be 4 d.uptime

/-- JOB_CANCEL (R161, R162): none where the answer waits for an exchange. -/
def Dev.cancelJob (d : Dev) (job : Byte) (asker : Asker) : Dev × Option Status :=
  match d.jobById job.toNat with
  | none => (d, some .noEntry)
  | some j =>
    let d' := d.endJobOrWait j.serial .cancelled asker
    (d', if d.jobInFlight j.serial then none else some .ok)

/-! ### A request (R194, R208) -/

/-- The code of JOB_CANCEL. -/
def opJobCancel : Byte := 0x18#8
/-- The code of RESTART. -/
def opRestart : Byte := 0x20#8

/-- The codes that name an operation: the table operations and the commands in the order of R200. -/
def knownOp (c : Byte) : Bool :=
  (decide (0x01 ≤ c.toNat) && decide (c.toNat ≤ 0x03)) || (decide (0x10 ≤ c.toNat) && decide (c.toNat ≤ 0x21))

/-- The bytes of arguments a command needs (R208). -/
def argCount (c : Nat) : Nat :=
  match c with
  | 0x16 | 0x17 | 0x19 => 2
  | 0x1C | 0x1F | 0x20 | 0x21 => 0
  | _ => 1

/-- The largest data of a READ of a table code. -/
def readRoom (table : Byte) : Nat :=
  match Table.ofCode table with
  | some t => largestEntry t.spec
  | none => 0

/-- The largest data of a WRITE: for each field named 3 bytes and the field's full length. -/
def writeRoom (table : Byte) (w : List Field) : Nat :=
  match Table.ofCode table with
  | some t => (w.map fun f => 3 + ((specOf t.spec f.code).map FieldSpec.full).getD 0).sum
  | none => 0

/-- The largest data an operation can give (R208). -/
def Dev.opRoom (d : Dev) (op : Op) : Nat :=
  match op.code.toNat with
  | 0x01 => readRoom (op.args.getD 0 0#8)
  | 0x02 => writeRoom (op.args.getD 0 0#8) ((parseFields op.args.length (op.args.drop 2)).getD [])
  | 0x1C => 386
  | 0x1D => match d.ev.group (op.args.getD 0 0#8).toNat with
    | some cs => 1 + 2 * cs.length
    | none => 0
  | 0x21 => 15
  | _ => 0

/-- The bytes of results (R208). -/
def resultsLength (rs : List OpResult) : Nat := (rs.map fun r => 4 + r.data.length).sum

/-- The bytes of a response body (R208). -/
def responseRoom : Nat := 1494

/-- A WRITE's arguments: table, index and a whole field list (R208), tested before the table (DESIGN CHOICE, log entry
73). -/
def Dev.runWrite (d : Dev) (args : List Byte) : Answer :=
  match args with
  | t :: i :: rest =>
    match parseFields rest.length rest with
    | some w => d.writeOp t i w
    | none => (d, .range, [])
  | _ => (d, .range, [])

/-- A command with its arguments, JOB_CANCEL and RESTART apart (R200, R208). -/
def Dev.runCommand (d : Dev) (code : Nat) (args : List Byte) : Answer :=
  if args.length ≠ argCount code then (d, .range, [])
  else
    let a := args.getD 0 0#8
    let b := args.getD 1 0#8
    match code with
    | 0x10 => bare (d.onSegment a Dev.enableSegment)
    | 0x11 => bare (d.onSegment a Dev.disableSegment)
    | 0x12 => bare (d.onSegment a Dev.restoreSegment)
    | 0x13 => bare (d.onSegment a Dev.probeSegment)
    | 0x14 => bare (d.onSegment a Dev.discoverSegment)
    | 0x15 => bare (d.onSegment a Dev.clearRecord)
    | 0x16 => bare (d.onStation a b Dev.quarantineEntry)
    | 0x17 => bare (d.onStation a b Dev.releaseEntry)
    | 0x19 => bare (d.redirectJob a.toNat b.toNat)
    | 0x1A => bare (d.enablePrinter a.toNat)
    | 0x1B => bare (d.disablePrinter a.toNat)
    | 0x1C => d.takeEvents
    | 0x1D => d.countersRead a
    | 0x1E => bare (d.countersClear a)
    | 0x1F => bare d.configSave
    | 0x21 => (d, .ok, d.identData)
    | _ => (d, .unknownOp, [])

/-- An operation that is answered as it is run (R194); the argument length is tested before the table (DESIGN CHOICE, log
entry 73). -/
def Dev.runPlain (d : Dev) (op : Op) : Answer :=
  match op.code.toNat with
  | 0x01 => if op.args.length = 2 then d.readOp (op.args.getD 0 0#8) (op.args.getD 1 0#8) else (d, .range, [])
  | 0x02 => d.runWrite op.args
  | 0x03 =>
    if op.args.length = 2 then bare (d.deleteOp (op.args.getD 0 0#8) (op.args.getD 1 0#8)) else (d, .range, [])
  | c => d.runCommand c op.args

/-- Change the request in progress. -/
def Dev.modRunning (d : Dev) (f : Running → Running) : Dev :=
  d.modAgent fun a => { a with running := a.running.map f }

/-- An operation of the request in progress is answered. -/
def Dev.pushResult (d : Dev) (op : Op) (st : Status) (data : List Byte) : Dev :=
  d.modRunning fun r => { r with results := r.results ++ [⟨op.code, st, data⟩] }

/-- The results, in their order, that `room` bytes hold. -/
def fittingResults (room : Nat) : List OpResult → List OpResult
  | [] => []
  | r :: rs =>
    if 4 + r.data.length ≤ room then r :: fittingResults (room - (4 + r.data.length)) rs else []

/-- The response of a request (R194, R208): a frame of at most 1518 bytes, which the last results of operations not run
may not fit (DESIGN CHOICE, log entry 41). -/
def Dev.response (d : Dev) (r : Running) : UpFrame :=
  let results := fittingResults responseRoom r.results
  let body := (results.map OpResult.bytes).flatten
  { kind := .response, dst := r.src, src := d.ownAddr, etherType := d.set.mgmtType,
    body := mgmtHeader r.tag.toNat 2 results.length body.length ++ body, blocks := [] }

/-- The last operation has been answered: the response is built and offered, and a RESTART takes its course (R194,
R205). -/
def Dev.finishRequest (d : Dev) : Dev :=
  match d.agent.running with
  | none => d
  | some r =>
    let f := d.response r
    let room := d.uplinkRoom
    let d := (d.modAgent fun a => { a with running := none }).offerUp f
    if r.restart then d.warmRestart (if room then some f else none) else d

/-- RESTART in a request: answered, with the restart to follow the response (R205). -/
def Dev.orderRestart (d : Dev) (op : Op) : Dev :=
  if op.args.length ≠ 0 then d.pushResult op .range []
  else if d.agent.saving.isSome then d.pushResult op .wrongState []
  else (d.pushResult op .ok []).modRunning fun r => { r with restart := true }

/-- JOB_CANCEL in a request: answered, or waiting; the request waits with it (R162, R194). -/
def Dev.runCancel (d : Dev) (op : Op) (rest : List Op) : Dev × Bool :=
  if op.args.length ≠ 1 then (d.pushResult op .range [], false)
  else
    match d.cancelJob (op.args.getD 0 0#8) .request with
    | (d, some st) => (d.pushResult op st [], false)
    | (d, none) => (d.modRunning fun r => { r with waiting := true, answer := none, rest := rest }, true)

/-- The request in progress has no room in its response for the operation: 4 bytes and the largest data it can give
(R194, R208). -/
def Dev.shortOfRoom (d : Dev) (op : Op) : Bool :=
  match d.agent.running with
  | some r => decide (responseRoom < resultsLength r.results + 4 + d.opRoom op)
  | none => false

/-- A RESTART has been answered OK in the request in progress. -/
def Dev.restartOrdered (d : Dev) : Bool :=
  match d.agent.running with
  | some r => r.restart
  | none => false

/-- The operations of the request in progress run in their order, until its end or until one waits (R194). -/
def Dev.runOps : List Op → Dev → Dev
  | [], d => d.finishRequest
  | op :: ops, d =>
    if d.restartOrdered then Dev.runOps ops (d.pushResult op .wrongState [])
    else if !knownOp op.code then Dev.runOps ops (d.pushResult op .unknownOp [])
    else if d.shortOfRoom op then Dev.runOps ops (d.pushResult op .full [])
    else if op.code = opRestart then Dev.runOps ops (d.orderRestart op)
    else if op.code = opJobCancel then
      let r := d.runCancel op ops
      if r.2 then r.1 else Dev.runOps ops r.1
    else
      let a := d.runPlain op
      Dev.runOps ops (a.1.pushResult op a.2.1 a.2.2)

/-- RUN_REQUEST (R193, R194): the head of the queue is taken when no request is in progress (DESIGN CHOICE, log entry
9). -/
def Dev.runRequest (d : Dev) : Dev :=
  match d.agent.running, d.agent.queue with
  | none, q :: qs =>
    let d := d.modAgent fun a =>
      { a with queue := qs, running := some { src := q.src, tag := q.tag, results := [], rest := [], waiting := false,
                                              answer := none, restart := false } }
    Dev.runOps q.ops d
  | _, _ => d

/-- The request that waited goes on once its JOB_CANCEL has an answer (R162, R194). -/
def Dev.resumeRequest (d : Dev) : Dev :=
  match d.agent.running with
  | some r =>
    match r.waiting, r.answer with
    | true, some st =>
      let d := (d.modRunning fun r => { r with waiting := false, answer := none, rest := [] }).pushResult
        ⟨opJobCancel, []⟩ st []
      Dev.runOps r.rest d
    | _, _ => d
  | none => d

/-- ENDING_AFTER_EXCHANGE (R161): every ending whose exchange has ended is applied, and a request that waited for its
answer goes on. -/
def Dev.endingAfterExchange (d : Dev) : Dev := d.applyEndings.resumeRequest

/-! ### An operation given as a command of its own -/

/-- The answer of an operation given alone is kept where it can be read (the MODEL's own field) (DESIGN CHOICE, log
entry 47). -/
def Dev.answered (code : Byte) (a : Answer) : Dev :=
  a.1.modAgent fun g => { g with answer := some ⟨code, a.2.1, a.2.2⟩ }

/-- The next state after an operation given alone. -/
def answer (s : State) (code : Byte) (a : Answer) : Host.Outcome State Fault Refusal :=
  .next { s with dev := Dev.answered code a }

/-- RUN_REQUEST (R194). -/
def execRunRequest (dt : Nat) (s : State) : Host.Outcome State Fault Refusal :=
  .next { s with dev := (s.dev.elapse dt).runRequest }

/-- ENDING_AFTER_EXCHANGE (R161). -/
def execEndingAfterExchange (s : State) : Host.Outcome State Fault Refusal :=
  .next { s with dev := s.dev.endingAfterExchange }

/-- READ (R196). -/
def execRead (table index : Byte) (s : State) : Host.Outcome State Fault Refusal :=
  answer s 0x01#8 (s.dev.readOp table index)

/-- WRITE (R197). -/
def execWrite (table index : Byte) (w : List Field) (s : State) : Host.Outcome State Fault Refusal :=
  answer s 0x02#8 (s.dev.writeOp table index w)

/-- WRITE of the SETTINGS entry (R199). -/
def execWriteSettings (index : Byte) (w : List Field) (s : State) : Host.Outcome State Fault Refusal :=
  answer s 0x02#8 (s.dev.writeTable .settings index.toNat w)

/-- WRITE of a SEGMENT entry (R130). -/
def execWriteSegment (index : Byte) (w : List Field) (s : State) : Host.Outcome State Fault Refusal :=
  answer s 0x02#8 (s.dev.writeTable .segment index.toNat w)

/-- WRITE of the STATION table (R59). -/
def execWriteStation (index : Byte) (w : List Field) (s : State) : Host.Outcome State Fault Refusal :=
  answer s 0x02#8 (s.dev.writeTable .station index.toNat w)

/-- WRITE of the ALIAS table (R80). -/
def execWriteAlias (index : Byte) (w : List Field) (s : State) : Host.Outcome State Fault Refusal :=
  answer s 0x02#8 (s.dev.writeTable .aliases index.toNat w)

/-- WRITE of the PRINTER table (R146). -/
def execWritePrinter (index : Byte) (w : List Field) (s : State) : Host.Outcome State Fault Refusal :=
  answer s 0x02#8 (s.dev.writeTable .printer index.toNat w)

/-- DELETE (R198). -/
def execDelete (table index : Byte) (s : State) : Host.Outcome State Fault Refusal :=
  answer s 0x03#8 (bare (s.dev.deleteOp table index))

/-- DELETE of the STATION table (R60). -/
def execDeleteStation (index : Byte) (s : State) : Host.Outcome State Fault Refusal :=
  answer s 0x03#8 (bare (s.dev.deleteStation index.toNat))

/-- DELETE of the ALIAS table (R81). -/
def execDeleteAlias (index : Byte) (s : State) : Host.Outcome State Fault Refusal :=
  answer s 0x03#8 (bare (s.dev.deleteAlias index.toNat))

/-- DELETE of the PRINTER table (R147). -/
def execDeletePrinter (index : Byte) (s : State) : Host.Outcome State Fault Refusal :=
  answer s 0x03#8 (bare (s.dev.deletePrinter index.toNat))

/-- SEG_ENABLE (R125). -/
def execSegEnable (seg : Byte) (s : State) : Host.Outcome State Fault Refusal :=
  answer s 0x10#8 (bare (s.dev.onSegment seg Dev.enableSegment))

/-- SEG_DISABLE (R126). -/
def execSegDisable (seg : Byte) (s : State) : Host.Outcome State Fault Refusal :=
  answer s 0x11#8 (bare (s.dev.onSegment seg Dev.disableSegment))

/-- SEG_RESTORE (R127). -/
def execSegRestore (seg : Byte) (s : State) : Host.Outcome State Fault Refusal :=
  answer s 0x12#8 (bare (s.dev.onSegment seg Dev.restoreSegment))

/-- SEG_PROBE (R134). -/
def execSegProbe (seg : Byte) (s : State) : Host.Outcome State Fault Refusal :=
  answer s 0x13#8 (bare (s.dev.onSegment seg Dev.probeSegment))

/-- SEG_DISCOVER (R51). -/
def execSegDiscover (seg : Byte) (s : State) : Host.Outcome State Fault Refusal :=
  answer s 0x14#8 (bare (s.dev.onSegment seg Dev.discoverSegment))

/-- SEG_CLEAR_RECORD (R128). -/
def execSegClearRecord (seg : Byte) (s : State) : Host.Outcome State Fault Refusal :=
  answer s 0x15#8 (bare (s.dev.onSegment seg Dev.clearRecord))

/-- STATION_QUARANTINE (R47). -/
def execStationQuarantine (seg number : Byte) (s : State) : Host.Outcome State Fault Refusal :=
  answer s 0x16#8 (bare (s.dev.onStation seg number Dev.quarantineEntry))

/-- STATION_RELEASE (R48). -/
def execStationRelease (seg number : Byte) (s : State) : Host.Outcome State Fault Refusal :=
  answer s 0x17#8 (bare (s.dev.onStation seg number Dev.releaseEntry))

/-- JOB_CANCEL (R162): where it waits for an exchange it has no answer yet. -/
def execJobCancel (job : Byte) (s : State) : Host.Outcome State Fault Refusal :=
  let r := s.dev.cancelJob job .command
  .next { s with dev := r.1.modAgent fun a => { a with answer := r.2.map fun st => ⟨opJobCancel, st, []⟩ } }

/-- JOB_REDIRECT (R163). -/
def execJobRedirect (job printer : Byte) (s : State) : Host.Outcome State Fault Refusal :=
  answer s 0x19#8 (bare (s.dev.redirectJob job.toNat printer.toNat))

/-- PRINTER_ENABLE (R165). -/
def execPrinterEnable (printer : Byte) (s : State) : Host.Outcome State Fault Refusal :=
  answer s 0x1A#8 (bare (s.dev.enablePrinter printer.toNat))

/-- PRINTER_DISABLE (R164). -/
def execPrinterDisable (printer : Byte) (s : State) : Host.Outcome State Fault Refusal :=
  answer s 0x1B#8 (bare (s.dev.disablePrinter printer.toNat))

/-- TAKE_EVENTS (R190). -/
def execTakeEvents (s : State) : Host.Outcome State Fault Refusal := answer s 0x1C#8 s.dev.takeEvents

/-- COUNTERS_READ (R184). -/
def execCountersRead (group : Byte) (s : State) : Host.Outcome State Fault Refusal :=
  answer s 0x1D#8 (s.dev.countersRead group)

/-- COUNTERS_CLEAR (R184). -/
def execCountersClear (group : Byte) (s : State) : Host.Outcome State Fault Refusal :=
  answer s 0x1E#8 (bare (s.dev.countersClear group))

/-- CONFIG_SAVE (R202). -/
def execConfigSave (s : State) : Host.Outcome State Fault Refusal := answer s 0x1F#8 (bare s.dev.configSave)

/-- STORE_COMPLETE (R202). -/
def execStoreComplete (ok : Bool) (dt : Nat) (s : State) : Host.Outcome State Fault Refusal :=
  .next { s with dev := (s.dev.elapse dt).storeComplete ok }

/-- RESTART given alone (R205): it has no request, and so no response to keep (DESIGN CHOICE, log entry 47). -/
def execRestart (s : State) : Host.Outcome State Fault Refusal :=
  if s.dev.agent.saving.isSome then answer s opRestart (s.dev, .wrongState, [])
  else answer s opRestart (s.dev.warmRestart none, .ok, [])

/-- IDENT (R203). -/
def execIdent (s : State) : Host.Outcome State Fault Refusal := answer s 0x21#8 (s.dev, .ok, s.dev.identData)

end Sys2Proof.Machine
end

