-- ==== Sys2Proof/Machine/Dispatch.lean ====
section
/-! DEFINITION. The meaning of every command: one arm for each constructor of `Instr`, in the order of
spec/opcode_table.json. -/

namespace Sys2Proof.Machine

open Sys2Proof

/-- What a command does to everything but the queue of waiting commands. -/
def exec (i : Instr) (s : State) : Host.Outcome State Fault Refusal :=
  match i with
  | .coldStart => Sys2Proof.Machine.execColdStart s
  | .linkUp speed dt => Sys2Proof.Machine.execLinkUp speed dt s
  | .linkDown dt => Sys2Proof.Machine.execLinkDown dt s
  | .uplinkFrameReceived bytes dt => Sys2Proof.Machine.execUplinkFrameReceived bytes dt s
  | .frameTransmitted dt => Sys2Proof.Machine.execFrameTransmitted dt s
  | .pauseRepeat => Sys2Proof.Machine.execPauseRepeat s
  | .pauseHoldEnd => Sys2Proof.Machine.execPauseHoldEnd s
  | .turnGrant seg carrier dt => Sys2Proof.Machine.execTurnGrant seg carrier dt s
  | .heldFrameStart seg dt => Sys2Proof.Machine.execHeldFrameStart seg dt s
  | .broadcastSent seg => Sys2Proof.Machine.execBroadcastSent seg s
  | .replyReceived seg reply dt => Sys2Proof.Machine.execReplyReceived seg reply dt s
  | .replyTimeout seg => Sys2Proof.Machine.execReplyTimeout seg s
  | .replyJabber seg dt => Sys2Proof.Machine.execReplyJabber seg dt s
  | .backoffEnd seg number => Sys2Proof.Machine.execBackoffEnd seg number s
  | .noise seg dt => Sys2Proof.Machine.execNoise seg dt s
  | .unattributedJabber seg dt => Sys2Proof.Machine.execUnattributedJabber seg dt s
  | .cycleStart seg => Sys2Proof.Machine.execCycleStart seg s
  | .emptyCycleEnd seg => Sys2Proof.Machine.execEmptyCycleEnd seg s
  | .discoveryIntervalExpiry seg => Sys2Proof.Machine.execDiscoveryIntervalExpiry seg s
  | .holdTakesMedium seg carrier dt => Sys2Proof.Machine.execHoldTakesMedium seg carrier dt s
  | .discoveryWindowEnd seg slots carrier => Sys2Proof.Machine.execDiscoveryWindowEnd seg slots carrier s
  | .absentForget seg number => Sys2Proof.Machine.execAbsentForget seg number s
  | .aliasIdleWithdraw seg number => Sys2Proof.Machine.execAliasIdleWithdraw seg number s
  | .cooldownExpiry seg => Sys2Proof.Machine.execCooldownExpiry seg s
  | .trialExpiry seg => Sys2Proof.Machine.execTrialExpiry seg s
  | .quietStretch seg => Sys2Proof.Machine.execQuietStretch seg s
  | .jabberLine seg => Sys2Proof.Machine.execJabberLine seg s
  | .dcMeasurement seg code dt => Sys2Proof.Machine.execDcMeasurement seg code dt s
  | .shotFire seg => Sys2Proof.Machine.execShotFire seg s
  | .shotEcho seg count polarity => Sys2Proof.Machine.execShotEcho seg count polarity s
  | .shotNone seg => Sys2Proof.Machine.execShotNone seg s
  | .idleClose job => Sys2Proof.Machine.execIdleClose job s
  | .endingAfterExchange => Sys2Proof.Machine.execEndingAfterExchange s
  | .roleSet printer => Sys2Proof.Machine.execRoleSet printer s
  | .busyRetryExpiry printer => Sys2Proof.Machine.execBusyRetryExpiry printer s
  | .holdTimerExpiry printer => Sys2Proof.Machine.execHoldTimerExpiry printer s
  | .noticeHoldoff => Sys2Proof.Machine.execNoticeHoldoff s
  | .runRequest dt => Sys2Proof.Machine.execRunRequest dt s
  | .read table index => Sys2Proof.Machine.execRead table index s
  | .write table index fields => Sys2Proof.Machine.execWrite table index fields s
  | .writeSettings index fields => Sys2Proof.Machine.execWriteSettings index fields s
  | .writeSegment index fields => Sys2Proof.Machine.execWriteSegment index fields s
  | .writeStation index fields => Sys2Proof.Machine.execWriteStation index fields s
  | .writeAlias index fields => Sys2Proof.Machine.execWriteAlias index fields s
  | .writePrinter index fields => Sys2Proof.Machine.execWritePrinter index fields s
  | .delete table index => Sys2Proof.Machine.execDelete table index s
  | .deleteStation index => Sys2Proof.Machine.execDeleteStation index s
  | .deleteAlias index => Sys2Proof.Machine.execDeleteAlias index s
  | .deletePrinter index => Sys2Proof.Machine.execDeletePrinter index s
  | .segEnable seg => Sys2Proof.Machine.execSegEnable seg s
  | .segDisable seg => Sys2Proof.Machine.execSegDisable seg s
  | .segRestore seg => Sys2Proof.Machine.execSegRestore seg s
  | .segProbe seg => Sys2Proof.Machine.execSegProbe seg s
  | .segDiscover seg => Sys2Proof.Machine.execSegDiscover seg s
  | .segClearRecord seg => Sys2Proof.Machine.execSegClearRecord seg s
  | .stationQuarantine seg number => Sys2Proof.Machine.execStationQuarantine seg number s
  | .stationRelease seg number => Sys2Proof.Machine.execStationRelease seg number s
  | .jobCancel job => Sys2Proof.Machine.execJobCancel job s
  | .jobRedirect job printer => Sys2Proof.Machine.execJobRedirect job printer s
  | .printerEnable printer => Sys2Proof.Machine.execPrinterEnable printer s
  | .printerDisable printer => Sys2Proof.Machine.execPrinterDisable printer s
  | .takeEvents => Sys2Proof.Machine.execTakeEvents s
  | .countersRead group => Sys2Proof.Machine.execCountersRead group s
  | .countersClear group => Sys2Proof.Machine.execCountersClear group s
  | .configSave => Sys2Proof.Machine.execConfigSave s
  | .storeComplete ok dt => Sys2Proof.Machine.execStoreComplete ok dt s
  | .restart => Sys2Proof.Machine.execRestart s
  | .ident => Sys2Proof.Machine.execIdent s
  | .startDelimiterReceived seg dt => Sys2Proof.Machine.execStartDelimiterReceived seg dt s
  | .uptimeSecond => Sys2Proof.Machine.execUptimeSecond s
  | .quietStretchBroken seg dt => Sys2Proof.Machine.execQuietStretchBroken seg dt s

end Sys2Proof.Machine
end

