-- ==== Sys2Proof/Safety.lean ====
section
/-! DEFINITION. The terms that statements about the CT418 use: the pieces of its state, what an operation leaves
unchanged (`Touches`), and what holds of every part that the manual's rules keep sound (the invariants). -/

namespace Sys2Proof.Machine

open Sys2Proof

/-- The state after an operation that leaves only its answer. -/
def State.withAnswer (s : State) (code : Byte) (st : Status) (bytes : List Byte) : State :=
  { s with dev := { s.dev with agent := { s.dev.agent with answer := some ⟨code, st, bytes⟩ } } }

/-! ### Pieces of the state -/

/-- The pieces into which a frame divides the part. A piece that every segment has stands for that of all four. -/
inductive Piece where
  | clock | uptime | settings
  | cfg | sched | mon | disc | probe | downq | backoffs | txEnable | lineOut
  | stations | aliases | pool
  | link | hold | upQueue | transmit | pauseState
  | printers | jobs | finished | jobNames | endings
  | segCounters | upCounters | spoolCounters | events
  | requests | store | identity | answer
  | names
  deriving DecidableEq, Repr

/-- A piece is the same in two parts. -/
def Piece.same (d e : Dev) : Piece → Prop
  | .clock => d.clock = e.clock
  | .uptime => d.uptime = e.uptime
  | .settings => d.set = e.set
  | .cfg => ∀ g, (d.seg g).cfg = (e.seg g).cfg
  | .sched => ∀ g, (d.seg g).sched = (e.seg g).sched
  | .mon => ∀ g, (d.seg g).mon = (e.seg g).mon
  | .disc => ∀ g, (d.seg g).disc = (e.seg g).disc
  | .probe => ∀ g, (d.seg g).probe = (e.seg g).probe
  | .downq => ∀ g, (d.seg g).downq = (e.seg g).downq
  | .backoffs => ∀ g, (d.seg g).backoffs = (e.seg g).backoffs
  | .txEnable => ∀ g, (d.seg g).txEnable = (e.seg g).txEnable
  | .lineOut => ∀ g, (d.seg g).lineOut = (e.seg g).lineOut
  | .stations => d.stations = e.stations
  | .aliases => d.aliases = e.aliases
  | .pool => d.pool = e.pool
  | .link => d.up.link = e.up.link ∧ d.up.speed = e.up.speed ∧ d.up.rxEnabled = e.up.rxEnabled
  | .hold => d.up.hold = e.up.hold
  | .upQueue => d.up.queue = e.up.queue
  | .transmit => d.up.txBusy = e.up.txBusy ∧ d.up.leaving = e.up.leaving ∧ d.up.portOut = e.up.portOut ∧
      d.up.pauseDue = e.up.pauseDue
  | .pauseState => d.up.pauseOn = e.up.pauseOn ∧ d.up.repeatTimer = e.up.repeatTimer
  | .printers => d.spool.printers = e.spool.printers
  | .jobs => d.spool.jobs = e.spool.jobs
  | .finished => d.spool.finished = e.spool.finished
  | .jobNames => d.spool.nextId = e.spool.nextId ∧ d.spool.stampCounter = e.spool.stampCounter ∧
      d.spool.nextSerial = e.spool.nextSerial
  | .endings => d.spool.endings = e.spool.endings
  | .segCounters => d.ev.segCounters = e.ev.segCounters
  | .upCounters => d.ev.upCounters = e.ev.upCounters
  | .spoolCounters => d.ev.spoolCounters = e.ev.spoolCounters
  | .events => d.ev.events = e.ev.events ∧ d.ev.lost = e.ev.lost ∧ d.ev.holdoff = e.ev.holdoff ∧
      d.ev.heldBack = e.ev.heldBack ∧ d.ev.noticeNumber = e.ev.noticeNumber
  | .requests => d.agent.queue = e.agent.queue ∧ d.agent.running = e.agent.running
  | .store => d.agent.saving = e.agent.saving ∧ d.agent.lastStore = e.agent.lastStore ∧ d.agent.image = e.agent.image
  | .identity => d.agent.identity = e.agent.identity ∧ d.agent.identityArea = e.agent.identityArea
  | .answer => d.agent.answer = e.agent.answer
  | .names => d.nextEid = e.nextEid ∧ d.nextFid = e.nextFid

/-- From one part to the other nothing outside these pieces has changed. -/
def Touches (l : List Piece) (d e : Dev) : Prop := ∀ p, p ∉ l → p.same d e

/-- The pieces of the uplink queue and the Event Unit that an event raised anywhere may move: the event joins the list,
and a notice may be queued, begin to be sent, or be dropped and counted (R186, R188, R189). -/
def Piece.raised : List Piece := [.events, .upCounters, .upQueue, .transmit]

/-- What counting one report of a segment may move: its counters, and what a COUNTER_HALF moves (R183). -/
def Piece.counted : List Piece := .segCounters :: Piece.raised

/-- What a change of the pause state may move. -/
def Piece.pausing : List Piece := .pauseState :: Piece.raised

/-- What a grant or a return of blocks may move. -/
def Piece.pooling : List Piece := .pool :: Piece.pausing

/-- What selection and a change of a feed state may move. -/
def Piece.selecting : List Piece := [.sched, .printers, .jobs, .jobNames] ++ Piece.raised

/-- What LOST and STALLED may move. -/
def Piece.losing : List Piece := [.sched, .printers] ++ Piece.raised

/-- What the ending of jobs and the taking of units may move. -/
def Piece.spooling : List Piece :=
  [.finished, .pool, .pauseState, .spoolCounters] ++ Piece.selecting

/-- What the applying of endings may move. -/
def Piece.ending : List Piece := [.endings, .requests, .answer] ++ Piece.spooling

/-- What the outcome of a feed item may move. -/
def Piece.feeding : List Piece := .segCounters :: Piece.spooling

/-- What the removing of frames may move. -/
def Piece.flushing : List Piece := [.downq, .backoffs, .segCounters, .pool, .pauseState] ++ Piece.selecting

/-- What the finding of a from number may move. -/
def Piece.aliasing : List Piece := .aliases :: Piece.raised

/-- What the Station Directory may move. -/
def Piece.directing : List Piece :=
  [.stations, .aliases, .names, .endings, .finished, .spoolCounters] ++ Piece.flushing

/-- What the Line Monitor may move: an outcome can take a segment out of service. -/
def Piece.monitoring : List Piece := [.mon, .txEnable, .disc, .probe] ++ Piece.directing

/-- What the end of a probe may move. -/
def Piece.probing : List Piece := [.mon, .txEnable, .sched, .disc, .probe] ++ Piece.raised

/-- What the taking of a frame may move. -/
def Piece.forwarding : List Piece := [.aliases, .names, .finished, .spoolCounters] ++ Piece.flushing

/-- What the sending of a master frame may move. -/
def Piece.sending : List Piece := [.sched, .lineOut, .stations, .printers]

/-- What an item's outcome may move. -/
def Piece.settling : List Piece := [.finished, .spoolCounters] ++ Piece.flushing

/-- What the end of a pass may move. -/
def Piece.passing : List Piece := .lineOut :: Piece.monitoring

/-- What an operation on a segment may move. -/
def Piece.commanding : List Piece := [.cfg, .requests, .answer] ++ Piece.monitoring

/-! ### Invariants -/

/-- A list of places is strictly ascending: by segment, then by number (R41, R64). -/
def ascending (l : List (Seg × Nat)) : Prop := l.Pairwise fun a b => placeBefore a.1 a.2 b.1 b.2 = true

/-- The event list holds at most 32 entries, and at most one for a kind and a subject (R186). -/
def EventsOk (d : Dev) : Prop :=
  d.ev.events.length ≤ Config.eventMax ∧ (d.ev.events.map fun e => (e.kind, e.subject)).Nodup

/-- The station table holds at most 256 entries in ascending segment and number, one for each pair (R41); the model's own
names of its entries differ and are below the next one. -/
def StationsOk (d : Dev) : Prop :=
  ascending (d.stations.map fun e => (e.seg, e.number)) ∧ d.stations.length ≤ Config.stationMax ∧
    (d.stations.map (·.eid)).Nodup ∧ ∀ e ∈ d.stations, e.eid < d.nextEid

/-- The alias table holds at most 128 entries in ascending segment and number, one for each number of a segment (R64,
R65). -/
def AliasesOk (d : Dev) : Prop :=
  ascending (d.aliases.map fun a => (a.seg, a.number)) ∧ d.aliases.length ≤ Config.aliasMax

/-- The blocks that the frames on a downstream queue hold. -/
def downBlocks (l : List DownFrame) : Nat := (l.map fun f => f.blocks.length).sum

/-- The blocks that the frames on the uplink queue hold. -/
def upBlocks (l : List UpFrame) : Nat := (l.map fun f => f.blocks.length).sum

/-- The blocks that the chains of jobs hold. -/
def jobBlocks (l : List Job) : Nat := (l.map fun j => j.chain.length).sum

/-- Every block is accounted for (R83): free, transit and spool make 2048, the transit blocks are those of the queued
frames and the spool blocks those of the jobs' chains; the model's own names of the frames of a queue differ and are
below the next one. -/
def PoolOk (d : Dev) : Prop :=
  d.pool.free + d.pool.transit + d.pool.spool = Config.poolBlocks ∧
  d.pool.transit = (allSegs.map fun g => downBlocks (d.seg g).downq).sum + upBlocks d.up.queue ∧
  d.pool.spool = jobBlocks d.spool.jobs ∧
  ∀ g, ((d.seg g).downq.map (·.fid)).Nodup ∧ ∀ f ∈ (d.seg g).downq, f.fid < d.nextFid

/-- While the link is DOWN nothing is queued, sent, held or repeated (R95, R101, R103, R104); and what is in
transmission is the head of the uplink queue, or a frame that a warm restart has taken from it (R96, R108). -/
def UplinkOk (d : Dev) : Prop :=
  (d.up.link = false →
    d.up.queue = [] ∧ d.up.txBusy = false ∧ d.up.hold = none ∧ d.up.repeatTimer = none ∧ d.up.pauseDue = []) ∧
  (d.up.txBusy = true → d.up.leaving = false → d.up.queue ≠ []) ∧ (d.up.leaving = true → d.up.txBusy = true)

/-- A segment's transmit enable is on in a medium-using state, and otherwise only until an exchange in flight has ended
or for a probe pulse (R109, R135). -/
def EnableOk (d : Dev) : Prop :=
  ∀ g, ((d.seg g).mon.state.mediumUsing = true → (d.seg g).txEnable = true) ∧
    ((d.seg g).txEnable = true → (d.seg g).mon.state.mediumUsing = true ∨ (d.seg g).exchangeInFlight = true ∨
      (d.seg g).probePulse = true)

/-- Every setting lies in its range and no pair of settings breaks its rule (R66, R71, R87, R105, R107, R115, R132,
R199). -/
def SettingsOk (d : Dev) : Prop :=
  d.set.inRange = d.set ∧ ({ d.set with base := 0#48 } : Settings).sound = true ∧
    ∀ g, (d.seg g).cfg.inRange = (d.seg g).cfg ∧ (d.seg g).cfg.sound g = true

/-- The printer table has its 8 places (R145), and the lists with a capacity keep it: 31 frames on a downstream queue
(R92), 63 on the uplink queue (R95), 4 requests (R193), 16 summaries (R149), 8 recent failures (R116), kept in an
isolation record too (R129), 32 pending duplicates (R49). -/
def ListsOk (d : Dev) : Prop :=
  d.spool.printers.length = Config.printerMax ∧
  (∀ g, (d.seg g).downq.length ≤ Config.downQueueMax ∧ (d.seg g).mon.recent.length ≤ Config.recentMax ∧
    (∀ r ∈ (d.seg g).mon.record, r.recent.length ≤ Config.recentMax) ∧
    (d.seg g).disc.pendingDup.length ≤ Config.pendingDupMax) ∧
  d.up.queue.length ≤ Config.uplinkQueueMax ∧ d.agent.queue.length ≤ Config.requestMax ∧
  d.spool.finished.length ≤ Config.finishedMax

/-- The counters of each group are as many as R182 names: 26 for a segment, 19 for the uplink, 5 for the spool. -/
def CountersOk (d : Dev) : Prop :=
  (∀ g, (d.ev.segCounters.get g).length = 26) ∧ d.ev.upCounters.length = 19 ∧ d.ev.spoolCounters.length = 5

/-- The spool holds no more blocks than its quota (R87). -/
def QuotaOk (d : Dev) : Prop := d.pool.spool ≤ d.set.spoolQuota

/-- The pause state is as its last test left it: ON only with the free count below the pause-off level, OFF only with it
at the pause-on level or above (R103). -/
def PauseOk (d : Dev) : Prop :=
  (d.up.pauseOn = true → d.pool.free < d.set.pauseOff) ∧ (d.up.pauseOn = false → d.set.pauseOn ≤ d.pool.free)

/-- The conditions that bind the alias table (R65), with the numbers of station entries (R40): numbers 1 to 254; a
STATION target on another segment and an ETHERNET target individual and outside the proxy range; a DYNAMIC alias
ACTIVE; no ACTIVE alias on a station entry's number; on a segment at most one STATIC and at most one ACTIVE alias of a
target. -/
def AliasRulesOk (d : Dev) : Prop :=
  (∀ e ∈ d.stations, 1 ≤ e.number ∧ e.number ≤ 254) ∧
  (∀ a ∈ d.aliases, 1 ≤ a.number ∧ a.number ≤ 254 ∧ targetOk d.set.base a.seg a.target = true ∧
    (a.kind = .dynamic → a.state = .active) ∧ (a.state = .active → d.station a.seg a.number = none)) ∧
  d.aliases.Pairwise fun a b => ¬ (a.seg = b.seg ∧ a.target = b.target ∧
    (a.kind = .static ∧ b.kind = .static ∨ a.state = .active ∧ b.state = .active))

/-- Each printer entry has a station of its own, which stands in the station table (R45, R145), and numbers in their ranges
(R145); the poll weights and tap distances of station entries are in theirs (R40). -/
def PrintersOk (d : Dev) : Prop :=
  (∀ i p, d.printer i = some p → (d.station p.seg p.number).isSome = true ∧
    clamp 1 8 p.jobLimit = p.jobLimit ∧ clamp 10 3600 p.holdTime = p.holdTime ∧
    clamp 50 5000 p.busyRetry = p.busyRetry ∧ clamp 1 15 p.lostLimit = p.lostLimit) ∧
  (∀ i k p q, d.printer i = some p → d.printer k = some q → (p.seg, p.number) = (q.seg, q.number) → i = k) ∧
  ∀ e ∈ d.stations, e.weight ≤ 15 ∧ ∀ m, e.tap = some m → m ≤ 2047

/-- The job table (R148, R155): at most 32 records, with ids from 1 to 255 and no id or place twice; no printer has two
ACTIVE jobs and no source two open jobs for one printer; a job's printer has an entry, and that of an ACTIVE job is not
IDLE, DISABLED or awaiting its station's role, as one that waits for it is LOST (R168); a QUEUED job is closed. -/
def JobsOk (d : Dev) : Prop :=
  d.spool.jobs.length ≤ Config.jobMax ∧ (d.spool.jobs.map (·.id)).Nodup ∧ (d.spool.jobs.map (·.serial)).Nodup ∧
  1 ≤ d.spool.nextId ∧ d.spool.nextId ≤ 255 ∧
  (∀ j ∈ d.spool.jobs, 1 ≤ j.id ∧ j.id ≤ 255 ∧ j.serial < d.spool.nextSerial ∧
    (j.state = .queued → j.isOpen = false) ∧
    ∃ p, d.printer j.printer = some p ∧
      (j.state = .active → p.feed ≠ .idle ∧ p.feed ≠ .disabled ∧ p.awaitingRole = false)) ∧
  (∀ i p, d.printer i = some p → p.awaitingRole = true → p.feed = .lost) ∧
  d.spool.jobs.Pairwise fun a b => a.printer = b.printer →
    ¬ (a.state = .active ∧ b.state = .active) ∧ ¬ (a.source = b.source ∧ a.isOpen = true ∧ b.isOpen = true)

/-! ### What a statement assumes of a frame that arrives -/

/-- The bytes are a sound carrier DATA for station `n` of segment `g`, received on an UP link from an individual address
outside the proxy range, at the end of a time `dt` (R70, R96, R99, R100). -/
def CarrierFor (s : State) (bs : List Byte) (g : Seg) (n : Nat) (c : CarrierData) : Prop :=
  s.dev.up.link = true ∧ s.dev.up.rxEnabled = true ∧ 64 ≤ bs.length ∧ bs.length ≤ 1518 ∧ fcsOk bs = true ∧
  (rxDst bs).toNat = s.dev.set.base.toNat + 256 * segNat g + n ∧ 1 ≤ n ∧ n ≤ 254 ∧
  rxType bs = s.dev.set.carrierType ∧ s.dev.set.carrierType ≠ s.dev.set.mgmtType ∧
  s.dev.set.carrierType ≠ 0x8808#16 ∧ individual (rxSrc bs) = true ∧
  inProxyRange s.dev.set.base (rxSrc bs) = false ∧ rxDst bs ≠ broadcastAddr ∧ parseCarrier (rxBody bs) = some c

/-- No printer is IDLE, so that a change of the spool count selects no job (R156). -/
def NoneIdle (d : Dev) : Prop := ∀ i p, d.printer i = some p → p.feed ≠ .idle

/-- A printer takes no new job (R152): it is disabled or LOST, or its segment is out of service. -/
def TakesNoJob (d : Dev) (p : Printer) : Prop := p.enabled = false ∨ p.feed = .lost ∨ d.inService p.seg = false

/-- From one part to the other a unit has joined an open job, which stays open (R151). -/
def UnitJoins (d e : Dev) (j : Job) (payload : List Byte) : Prop :=
  e.jobBySerial j.serial = some { j with
    chain := j.chain ++ spoolBlocks payload, received := addBytes j.received payload.length
    lastArrival := d.uptime } ∧
  (∀ m, m ≠ j.serial → e.jobBySerial m = d.jobBySerial m) ∧
  e.pool.free = d.pool.free - spoolNeed payload.length ∧ e.pool.spool = d.pool.spool + spoolNeed payload.length

/-- From one part to the other a unit has opened a job of a source for a printer, under the next free id (R148, R152). -/
def UnitOpens (d e : Dev) (i : Nat) (x : Source) (payload : List Byte) : Prop :=
  let id := freeJobId d.spool.jobs 255 d.spool.nextId
  e.spool.jobs = d.spool.jobs ++ [{
    serial := d.spool.nextSerial, id := id, printer := i, source := x, state := .filling, isOpen := true,
    chain := spoolBlocks payload, received := payload.length, printed := 0, created := d.uptime,
    lastArrival := d.uptime, stamp := none }] ∧
  e.spool.nextId = id % 255 + 1 ∧
  e.pool.free = d.pool.free - spoolNeed payload.length ∧ e.pool.spool = d.pool.spool + spoolNeed payload.length

/-- From one part to the other a unit has been refused: of the jobs at most the last arrival of its open job has moved,
and no block (R151, R152). -/
def UnitRefused (d e : Dev) (o : Option Job) : Prop :=
  (∀ j, o = some j → e.jobBySerial j.serial = some { j with lastArrival := d.uptime } ∧
    ∀ m, m ≠ j.serial → e.jobBySerial m = d.jobBySerial m) ∧
  (o = none → e.spool.jobs = d.spool.jobs) ∧ e.pool = d.pool

/-- A segment is ACTIVE with its strain below both thresholds, so that a good exchange only drains it (R113, R114). -/
def CalmLine (q : Segment) : Prop := q.mon.state = .active ∧ q.mon.strain < q.cfg.warn ∧ q.mon.strain < q.cfg.trip

end Sys2Proof.Machine
end

