-- ==== Sys2Proof/Certificates/Slice0/Obligations.lean ====
section
/-! DEFINITION. The statements about the CT418 that are put to the provers. A statement of a command says where it
completes with the effect its rule gives it, what it changes, and by `Touches` that nothing else has changed. -/

open Sys2Proof Sys2Proof.Machine

/-! ### The machine -/

/-- A step takes the command at the front of the queue and runs it with the queue's rest; with none waiting the
block idles, which is the model's choice (log entry 1). Every command ends in a next state, and leaves the commands
that wait as they are. -/
def Obligations.StepRunsFrontCommand : Prop :=
  ((∀ (c : Instr) (cs : List Instr) (d : Dev), step ⟨d, c :: cs⟩ = exec c ⟨d, cs⟩) ∧
   ∀ d : Dev, step ⟨d, []⟩ = .next ⟨d, []⟩) ∧
  (∀ (c : Instr) (s : State), ∃ t, exec c s = .next t ∧ t.pending = s.pending)

/-- The invariants hold at reset. Rests on the model's choices: the reset state (log entry 4), reset values the
manual omits (46). -/
def Obligations.ResetMeetsTheInvariants : Prop :=
  EventsOk State.reset.dev ∧ StationsOk State.reset.dev ∧ AliasesOk State.reset.dev ∧ PoolOk State.reset.dev ∧
  UplinkOk State.reset.dev ∧ EnableOk State.reset.dev ∧ SettingsOk State.reset.dev ∧ ListsOk State.reset.dev ∧
  CountersOk State.reset.dev ∧ QuotaOk State.reset.dev ∧ PauseOk State.reset.dev ∧ AliasRulesOk State.reset.dev ∧
  JobsOk State.reset.dev ∧ PrintersOk State.reset.dev

/-- Every step keeps the event list to 32 entries and to one entry for a kind and a subject (R186). Every step keeps
the groups of counters whole (R182). -/
def Obligations.StepKeepsTheEventUnit : Prop :=
  (∀ s t : State, step s = .next t → EventsOk s.dev → EventsOk t.dev) ∧
  (∀ s t : State, step s = .next t → CountersOk s.dev → CountersOk t.dev)

/-- Every step keeps the station table in its order, to 256 entries, one for a segment and number (R41). Every step
keeps the alias table in its order, to 128 entries, one for a number of a segment (R64, R65). Every step keeps the
conditions of R65 on the aliases' numbers, targets, kinds and states, and the station numbers within 1 to 254 (R40),
from a state whose tables are in order and whose settings keep their rules. Rests on the model's choices: duplicate
candidates 0 and 255 (log entry 29). -/
def Obligations.StepKeepsTheTables : Prop :=
  (∀ s t : State, step s = .next t → StationsOk s.dev → StationsOk t.dev) ∧
  (∀ s t : State, step s = .next t → AliasesOk s.dev → AliasesOk t.dev) ∧
  (∀ s t : State, step s = .next t → StationsOk s.dev → AliasesOk s.dev → SettingsOk s.dev → AliasRulesOk s.dev →
    AliasRulesOk t.dev)

/-- Every step accounts for every block of the pool: free, or held by a queued frame, or held by a job's chain
(R83). Every step keeps the spool count within the spool quota (R87). Every step keeps the pause state as its last
test left it: ON only with the free count below the pause-off level, OFF only with it at the pause-on level or above
(R103), from a state whose settings keep their rules. -/
def Obligations.StepKeepsPoolAccount : Prop :=
  (∀ s t : State, step s = .next t → PoolOk s.dev → PoolOk t.dev) ∧
  (∀ s t : State, step s = .next t → QuotaOk s.dev → QuotaOk t.dev) ∧
  (∀ s t : State, step s = .next t → SettingsOk s.dev → PauseOk s.dev → PauseOk t.dev)

/-- Every step keeps the uplink empty and silent while the link is DOWN, and in transmission only the head of its
queue or a frame that a warm restart has taken from it (R95, R96, R101, R108). Every step keeps each segment's
transmit enable on in service and elsewhere only for an exchange in flight or a probe pulse (R109, R135). Rests on
the model's choices: a frame in transmission at a warm restart (log entry 33), a pause frame that waits when the link
goes DOWN (50), how long a pulse stands (51). -/
def Obligations.StepKeepsUplinkAndEnables : Prop :=
  (∀ s t : State, step s = .next t → UplinkOk s.dev → UplinkOk t.dev) ∧
  (∀ s t : State, step s = .next t → EnableOk s.dev → EnableOk t.dev)

/-- Every step keeps every setting in its range and every pair of settings to its rule (R66, R71, R105, R107, R115,
R132, R199). Every step keeps within their capacities the printer places, the downstream and uplink queues, the
request queue, the finished list, the recent failures, kept in an isolation record too, and the pending duplicates
(R49, R92, R95, R116, R129, R145, R149, R193), from a state whose settings keep their rules. Every step keeps the job
table to 32 records with ids of their own (R148), one ACTIVE job for a printer and one open job for a source and
printer (R155), from a state with its printer places. Every step keeps the printer entries to a station each, which
has an entry (R45, R145), and their numbers, the poll weights and the tap distances in their ranges (R40, R145), from
a state with its station table in order and its printer places. -/
def Obligations.StepKeepsSettingsAndCapacities : Prop :=
  (∀ s t : State, step s = .next t → SettingsOk s.dev → SettingsOk t.dev) ∧
  (∀ s t : State, step s = .next t → SettingsOk s.dev → ListsOk s.dev → ListsOk t.dev) ∧
  (∀ s t : State, step s = .next t → ListsOk s.dev → JobsOk s.dev → JobsOk t.dev) ∧
  (∀ s t : State, step s = .next t → StationsOk s.dev → ListsOk s.dev → PrintersOk s.dev → PrintersOk t.dev)

/-! ### Starts and time -/

/-- COLD_START of a part whose image area holds no usable image: every block at its cold start value, the settings
at their defaults with the factory base address, the identity read again, the flash as it was. COLD_START of any
part: time, queues, jobs and the uplink start over, each enabled segment is STARTING and each other one DOWN, the
receiver is enabled, every block is free, and the flash is as it was. COLD_START of a part whose image area holds an
image taken from a sound part: the settings of that part and of its segments, its CONFIGURED stations, ABSENT, with
their weights and tap distances, its printer entries, on stations of role PRINTER, and its STATIC aliases, in CONFLICT
where a station entry has the number; nothing else stands in the three tables. Rests on the model's choices: the bytes
of the flash (log entry 16), reset values the manual omits (46). -/
def Obligations.ColdStartStartsOver : Prop :=
  (∀ s : State, s.dev.agent.image.usable = none →
     let id := if s.dev.agent.identityArea.2 then s.dev.agent.identityArea.1 else ⟨0#48, 0#16, 0#8⟩
     exec .coldStart s = .next { s with dev := { Dev.reset with
       set := Settings.defaults id.base
       agent := { Dev.reset.agent with
         identity := id, image := s.dev.agent.image, identityArea := s.dev.agent.identityArea } } }) ∧
  (∀ s : State, ∃ t, exec .coldStart s = .next t ∧ t.pending = s.pending ∧
     t.dev.uptime = 0 ∧ t.dev.pool = ⟨2048, 0, 0⟩ ∧
     t.dev.up.link = false ∧ t.dev.up.rxEnabled = true ∧ t.dev.up.queue = [] ∧ t.dev.up.pauseOn = false ∧
     t.dev.up.hold = none ∧ t.dev.spool.jobs = [] ∧ t.dev.spool.finished = [] ∧ t.dev.spool.nextId = 1 ∧
     t.dev.agent.queue = [] ∧ t.dev.agent.running = none ∧ t.dev.agent.saving = none ∧
     t.dev.agent.image = s.dev.agent.image ∧ t.dev.agent.identityArea = s.dev.agent.identityArea ∧
     ∀ g, (t.dev.seg g).downq = [] ∧ (t.dev.seg g).mon.record = none ∧ (t.dev.seg g).probe.last = none ∧
       (t.dev.seg g).txEnable = false ∧
       (t.dev.seg g).mon.state = if (t.dev.seg g).cfg.enabled then .starting else .down) ∧
  (∀ s u : State, SettingsOk u.dev → u.dev.set.base.toNat % 1024 = 0 → StationsOk u.dev → AliasesOk u.dev →
     AliasRulesOk u.dev → ListsOk u.dev → PrintersOk u.dev → s.dev.agent.image = .stored u.dev.takeImage true →
     ∃ t, exec .coldStart s = .next t ∧ t.pending = s.pending ∧ t.dev.set = u.dev.set ∧
       (∀ g, (t.dev.seg g).cfg = (u.dev.seg g).cfg) ∧
       (∀ g n, (t.dev.station g n).isSome = true ↔
         (∃ e, u.dev.station g n = some e ∧ e.origin = .configured) ∨ (u.dev.printerAt g n).isSome = true) ∧
       (∀ g n e, u.dev.station g n = some e → e.origin = .configured → ∃ k, t.dev.station g n = some k ∧
         k.state = .absent ∧ k.absentSince = some 0 ∧ k.origin = .configured ∧ k.weight = e.weight ∧ k.tap = e.tap ∧
         k.role = if (u.dev.printerAt g n).isSome then .printer else .terminal) ∧
       (∀ i p, u.dev.printer i = some p → ∃ k, t.dev.station p.seg p.number = some k ∧ k.role = .printer ∧
         k.state = .absent ∧ k.origin = .configured) ∧
       (∀ i, t.dev.printer i = (u.dev.printer i).map fun p =>
         { Printer.fresh p.seg p.number with
           enabled := p.enabled, jobLimit := p.jobLimit, holdTime := p.holdTime, busyRetry := p.busyRetry
           lostLimit := p.lostLimit, feed := if p.enabled then .idle else .disabled, awaitingRole := false }) ∧
       (∀ a, a ∈ t.dev.aliases ↔ ∃ b ∈ u.dev.aliases, b.kind = .static ∧ a =
         ⟨b.seg, b.number, .static, b.target,
           if (t.dev.station b.seg b.number).isSome then .conflict else .active, 0, 0⟩))

/-- RESTART with no store in progress: the downstream queues, the requests and the jobs are dropped, the uplink queue
holds nothing but a notice of the restart's own events, a frame being transmitted goes on, every block is free, each
enabled segment is STARTING; the uptime, the link, the pause hold, the isolation records, the last probe results, the
identity and the flash are kept, and every counter but those that the restart itself reports to: pauses sent, the
drops of a notice, and FAILED, which counts the jobs it ends. RESTART while a store is in progress is answered
WRONG_STATE and changes nothing. Rests on the model's choices: the uplink at a restart (log entry 33), operations
given alone and their answers (47). -/
def Obligations.RestartKeepsWhatItMust : Prop :=
  (∀ s : State, s.dev.agent.saving = none → ∃ t, exec .restart s = .next t ∧ t.pending = s.pending ∧
     t.dev.agent.answer = some ⟨0x20#8, .ok, []⟩ ∧
     t.dev.uptime = s.dev.uptime ∧ t.dev.pool = ⟨2048, 0, 0⟩ ∧ t.dev.spool.jobs = [] ∧ t.dev.spool.endings = [] ∧
     t.dev.agent.queue = [] ∧ t.dev.agent.running = none ∧ t.dev.agent.image = s.dev.agent.image ∧
     t.dev.agent.identity = s.dev.agent.identity ∧ t.dev.agent.lastStore = s.dev.agent.lastStore ∧
     t.dev.up.link = s.dev.up.link ∧ t.dev.up.speed = s.dev.up.speed ∧ t.dev.up.hold = s.dev.up.hold ∧
     t.dev.up.pauseOn = false ∧ t.dev.up.repeatTimer = none ∧ (∀ f ∈ t.dev.up.queue, f.kind = .notice) ∧
     (s.dev.up.txBusy = true →
       t.dev.up.txBusy = true ∧ t.dev.up.leaving = true ∧ t.dev.up.portOut = s.dev.up.portOut) ∧
     t.dev.ev.segCounters = s.dev.ev.segCounters ∧
     (∀ c : UpCounter, c ≠ .pausesSent → c ≠ .drop .queueFull → c ≠ .drop .linkDown →
       t.dev.ev.counter (.uplink c) = s.dev.ev.counter (.uplink c)) ∧
     (∀ c : SpoolCounter, c ≠ .failed → t.dev.ev.counter (.spool c) = s.dev.ev.counter (.spool c)) ∧
     (CountersOk s.dev → (s.dev.ev.counter (.spool .failed)).value ≤ 65535 →
       (t.dev.ev.counter (.spool .failed)).value =
         min ((s.dev.ev.counter (.spool .failed)).value + s.dev.spool.jobs.length) 65535) ∧
     ∀ g, (t.dev.seg g).downq = [] ∧ (t.dev.seg g).mon.record = (s.dev.seg g).mon.record ∧
       (t.dev.seg g).probe.last = (s.dev.seg g).probe.last ∧ (t.dev.seg g).txEnable = false ∧
       (t.dev.seg g).mon.state = if (t.dev.seg g).cfg.enabled then .starting else .down) ∧
  (∀ (s : State) (m : StoredImage), s.dev.agent.saving = some m →
     exec .restart s = .next (s.withAnswer 0x20#8 .wrongState []))

/-- UPTIME_SECOND counts one second where the 32-bit count has a next one, and moves nothing but time. Rests on the
model's choices: time (log entry 2), and the tests that R58, R77 and R154 make as a second passes, which are commands
of their own (10). -/
def Obligations.UptimeSecondCounts : Prop :=
  ∀ s : State, ∃ t, exec .uptimeSecond s = .next t ∧ t.pending = s.pending ∧
    (s.dev.uptime < 4294967295 → t.dev.uptime = s.dev.uptime + 1) ∧ s.dev.clock < t.dev.clock ∧
    Touches [.clock, .uptime] s.dev t.dev

/-! ### The uplink -/

/-- LINK_UP while the link is DOWN: the link is UP at the PHY's speed, a pause state that is ON sends a pause frame
with the pause quanta, counts it and starts its repeat timer again, and with the pause state OFF LINK_UP joins a
list with room. LINK_DOWN while the link is UP: the uplink queue is emptied and its blocks are freed, and the
transmission, the pause hold and the repeat timer stop. Rests on the model's choices: time (log entry 2), a pause
frame takes no time (14). -/
def Obligations.LinkChangesReachTheUplink : Prop :=
  (∀ (speed : LinkSpeed) (dt : Nat) (s : State), s.dev.up.link = false →
     ∃ t, exec (.linkUp speed dt) s = .next t ∧ t.pending = s.pending ∧
       t.dev.up.link = true ∧ t.dev.up.speed = speed ∧ t.dev.clock = s.dev.clock + dt ∧
       (s.dev.up.pauseOn = true →
         t.dev.up.repeatTimer = some (s.dev.clock + dt + repeatPeriod s.dev.set.pauseQuanta speed)) ∧
       (s.dev.up.pauseOn = true → s.dev.up.txBusy = false → CountersOk s.dev →
         (t.dev.ev.counter (.uplink .pausesSent)).value =
           min ((s.dev.ev.counter (.uplink .pausesSent)).value + 1) 65535 ∧
         (s.dev.up.queue = [] → s.dev.set.noticeAddr = 0#48 → s.dev.ev.heldBack = none →
           t.dev.up.portOut = ethWire (pauseBytes s.dev.ownAddr (BitVec.ofNat 16 s.dev.set.pauseQuanta)))) ∧
       (s.dev.up.pauseOn = false → s.dev.ev.events.length < 32 →
         ∃ e ∈ t.dev.ev.events, e.kind = .linkUp ∧ e.subject = .none) ∧
       Touches ([.clock, .link, .pauseState] ++ Piece.raised) s.dev t.dev) ∧
  (∀ (dt : Nat) (s : State), s.dev.up.link = true →
     ∃ t, exec (.linkDown dt) s = .next t ∧ t.pending = s.pending ∧
       t.dev.up.link = false ∧ t.dev.up.speed = s.dev.up.speed ∧ t.dev.up.queue = [] ∧ t.dev.up.txBusy = false ∧
       t.dev.up.hold = none ∧ t.dev.up.repeatTimer = none ∧
       t.dev.pool.free = s.dev.pool.free + upBlocks s.dev.up.queue ∧
       t.dev.pool.transit = s.dev.pool.transit - upBlocks s.dev.up.queue ∧ t.dev.pool.spool = s.dev.pool.spool ∧
       Touches ([.clock, .link, .hold, .pool, .pauseState] ++ Piece.selecting) s.dev t.dev)

/-- UPLINK_FRAME_RECEIVED: a runt, a long frame, a frame that fails its check and a frame no test of the filter
takes are counted under their own counters, and nothing else of them is used. UPLINK_FRAME_RECEIVED of a pause
frame: the pause hold is set or replaced, to run for the frame's time in 512 bit times at the link speed, and a time
of 0 ends it. Rests on the model's choices: time (log entry 2). -/
def Obligations.ReceiverDiscardsAndHolds : Prop :=
  (∀ (bs : List Byte) (dt : Nat) (s : State), s.dev.up.link = true → s.dev.up.rxEnabled = true →
     let d := s.dev.elapse dt
     (bs.length < 64 → exec (.uplinkFrameReceived bs dt) s = .next { s with dev := d.countUp .runt }) ∧
     (1518 < bs.length → exec (.uplinkFrameReceived bs dt) s = .next { s with dev := d.countUp .long }) ∧
     (64 ≤ bs.length → bs.length ≤ 1518 → fcsOk bs = false →
       exec (.uplinkFrameReceived bs dt) s = .next { s with dev := d.countUp .crc }) ∧
     (64 ≤ bs.length → bs.length ≤ 1518 → fcsOk bs = true → rxType bs ≠ s.dev.set.mgmtType →
       rxType bs ≠ s.dev.set.carrierType → rxType bs ≠ 0x8808#16 →
       exec (.uplinkFrameReceived bs dt) s = .next { s with dev := d.countUp .other })) ∧
  (∀ (bs : List Byte) (dt : Nat) (s : State), s.dev.up.link = true → s.dev.up.rxEnabled = true →
     64 ≤ bs.length → bs.length ≤ 1518 → fcsOk bs = true → rxDst bs = pauseAddr → rxType bs = 0x8808#16 →
     s.dev.set.mgmtType ≠ 0x8808#16 → ofBe ((rxBody bs).take 2) = 1 →
     let time := ofBe (((rxBody bs).drop 2).take 2)
     ∃ t, exec (.uplinkFrameReceived bs dt) s = .next t ∧ t.pending = s.pending ∧
       (time = 0 → t.dev.up.hold = none) ∧
       (time ≠ 0 → s.dev.up.speed = .mbps100 → t.dev.up.hold = some (s.dev.clock + dt + time * 512)) ∧
       (time ≠ 0 → s.dev.up.speed = .mbps10 → t.dev.up.hold = some (s.dev.clock + dt + time * 5120)) ∧
       Touches ([.clock, .hold] ++ Piece.raised) s.dev t.dev)

/-- UPLINK_FRAME_RECEIVED of a management request from an admitted source: it joins a queue of fewer than 4, and is
dropped at a full one. -/
def Obligations.RequestJoinsTheQueue : Prop :=
  ∀ (bs : List Byte) (dt : Nat) (s : State) (tag : BitVec 16) (ops : List Op),
    s.dev.up.link = true → s.dev.up.rxEnabled = true → 64 ≤ bs.length → bs.length ≤ 1518 → fcsOk bs = true →
    rxDst bs = s.dev.set.base + 1023#48 → rxType bs = s.dev.set.mgmtType → s.dev.set.admits (rxSrc bs) = true →
    parseRequest (rxBody bs) = some (tag, ops) →
    ∃ t, exec (.uplinkFrameReceived bs dt) s = .next t ∧ t.pending = s.pending ∧
      t.dev.agent.queue = (if s.dev.agent.queue.length < 4 then s.dev.agent.queue ++ [⟨rxSrc bs, tag, ops⟩]
        else s.dev.agent.queue) ∧
      t.dev.agent.running = s.dev.agent.running ∧
      Touches ([.clock, .requests] ++ Piece.raised) s.dev t.dev

/-- UPLINK_FRAME_RECEIVED of a carrier DATA for a TERMINAL station in service that an alias stands for the source of:
one frame joins the station's downstream queue, with the alias's number as its from number, the blocks are taken, and
the alias is used. Where none stands for it, in a table with room, a DYNAMIC alias is made for it on the lowest
number of the segment's alias range that no station and no alias holds. For a printer's station it is a print unit,
here one marked MORE with no printer IDLE: it joins its source's open job whatever the printer's state, or opens a
job where the tests of R152 pass, or is refused by the first that fails, and a SPOOL_ACK with the answer joins the
uplink queue. Rests on the model's choices: time (log entry 2), a job's byte count past its range (7), the SPOOL_ACK
before what the decision offers (31). -/
def Obligations.CarrierDataIsRelayed : Prop :=
  (∀ (bs : List Byte) (dt : Nat) (s : State) (g : Seg) (n : Nat) (e : Station) (a : AliasEntry) (c : CarrierData),
    CarrierFor s bs g n c → s.dev.station g n = some e → e.state = .present ∨ e.state = .slow →
    e.role = .terminal → s.dev.inService g = true → s.dev.aliasFor g (.ethernet (rxSrc bs)) = some a →
    s.dev.printerAt g n = none → (s.dev.seg g).downq.length < 31 →
    max 1 ((c.payload.length + 255) / 256) ≤ s.dev.pool.free →
    ∃ t, exec (.uplinkFrameReceived bs dt) s = .next t ∧ t.pending = s.pending ∧
      (t.dev.seg g).downq = (s.dev.seg g).downq ++ [{
        fid := s.dev.nextFid, dest := n, fromNum := a.number, mark := c.mark, blocks := transitBlocks c.payload,
        enqueued := s.dev.clock + dt, failed := 0, refused := 0, flushMark := false }] ∧
      t.dev.pool.free = s.dev.pool.free - max 1 ((c.payload.length + 255) / 256) ∧
      t.dev.aliases = (s.dev.useAlias g a.number).aliases ∧
      (∀ h, h ≠ g → t.dev.seg h = s.dev.seg h) ∧
      Touches ([.clock, .downq, .names, .aliases, .pool, .pauseState] ++ Piece.raised) s.dev t.dev) ∧
  (∀ (bs : List Byte) (dt : Nat) (s : State) (g : Seg) (n m : Nat) (e : Station) (c : CarrierData),
    CarrierFor s bs g n c → s.dev.station g n = some e → e.state = .present ∨ e.state = .slow →
    e.role = .terminal → s.dev.inService g = true → s.dev.aliasFor g (.ethernet (rxSrc bs)) = none →
    s.dev.aliases.length < 128 → (s.dev.seg g).cfg.aliasLow ≤ m → m ≤ (s.dev.seg g).cfg.aliasHigh → m ≤ 254 →
    s.dev.station g m = none → s.dev.aliasAt g m = none →
    (∀ k, (s.dev.seg g).cfg.aliasLow ≤ k → k < m →
      (s.dev.station g k).isSome = true ∨ (s.dev.aliasAt g k).isSome = true) →
    s.dev.printerAt g n = none → (s.dev.seg g).downq.length < 31 →
    max 1 ((c.payload.length + 255) / 256) ≤ s.dev.pool.free →
    let a : AliasEntry := ⟨g, m, .dynamic, .ethernet (rxSrc bs), .active, s.dev.uptime, s.dev.uptime⟩
    ∃ t, exec (.uplinkFrameReceived bs dt) s = .next t ∧ t.pending = s.pending ∧
      (t.dev.seg g).downq = (s.dev.seg g).downq ++ [{
        fid := s.dev.nextFid, dest := n, fromNum := m, mark := c.mark, blocks := transitBlocks c.payload,
        enqueued := s.dev.clock + dt, failed := 0, refused := 0, flushMark := false }] ∧
      t.dev.pool.free = s.dev.pool.free - max 1 ((c.payload.length + 255) / 256) ∧
      t.dev.aliasAt g m = some a ∧ (∀ b, b ∈ t.dev.aliases ↔ b = a ∨ b ∈ s.dev.aliases) ∧
      (∀ h, h ≠ g → t.dev.seg h = s.dev.seg h) ∧
      Touches ([.clock, .downq, .names, .aliases, .pool, .pauseState] ++ Piece.raised) s.dev t.dev) ∧
  (∀ (bs : List Byte) (dt : Nat) (s : State) (g : Seg) (n i : Nat) (e : Station) (p : Printer) (c : CarrierData),
    CarrierFor s bs g n c → s.dev.station g n = some e → e.state = .present ∨ e.state = .slow → e.role = .printer →
    s.dev.printerAt g n = some i → s.dev.printer i = some p → s.dev.up.queue.length < 63 →
    (s.dev.ev.counter (.uplink .framesIn)).value ≠ 32767 → NoneIdle s.dev → c.mark = .more →
    let x := Source.ethernet (rxSrc bs)
    let room := s.dev.spoolOk (spoolNeed c.payload.length)
    let job := freeJobId s.dev.spool.jobs 255 s.dev.spool.nextId
    let acked := fun (t : State) (u : UnitAnswer) =>
      s.dev.up.queue ++ [s.dev.spoolAck (rxSrc bs) (rxDst bs) .more c.unit u] <+: t.dev.up.queue
    ∃ t, exec (.uplinkFrameReceived bs dt) s = .next t ∧ t.pending = s.pending ∧
      (∀ j, s.dev.openJob x i = some j → s.dev.jobBySerial j.serial = some j →
        (room = true → acked t (.accepted j.id) ∧ UnitJoins s.dev t.dev j c.payload) ∧
        (room = false → acked t .full ∧ UnitRefused s.dev t.dev (some j))) ∧
      (s.dev.openJob x i = none →
        (TakesNoJob s.dev p → acked t .unavailable ∧ UnitRefused s.dev t.dev none) ∧
        (¬ TakesNoJob s.dev p → p.jobLimit ≤ s.dev.jobCount i → acked t .limit ∧ UnitRefused s.dev t.dev none) ∧
        (¬ TakesNoJob s.dev p → s.dev.jobCount i < p.jobLimit →
          (32 ≤ s.dev.spool.jobs.length → acked t .tableFull ∧ UnitRefused s.dev t.dev none) ∧
          (s.dev.spool.jobs.length < 32 → room = false → acked t .full ∧ UnitRefused s.dev t.dev none) ∧
          (s.dev.spool.jobs.length < 32 → room = true →
            acked t (.accepted job) ∧ UnitOpens s.dev t.dev i x c.payload))) ∧
      Touches ([.clock, .jobs, .jobNames, .printers, .pool, .pauseState, .spoolCounters] ++ Piece.raised) s.dev t.dev)

/-- FRAME_TRANSMITTED: the head frame leaves the queue, its blocks are freed and it is counted, every pause frame
that waits is sent and counted, with the one that those blocks make due, and then the next frame begins where no
pause hold runs. FRAME_TRANSMITTED of a frame that a warm restart has taken from the queue: the same, with no frame
leaving it and no block freed. PAUSE_REPEAT: another pause frame falls due, after the frame being sent if there is
one, and the timer starts again. PAUSE_HOLD_END: the hold ends, and the head of the uplink queue begins to be sent on
an UP link. Rests on the model's choices: time (log entry 2), a pause frame takes no time (14), a frame in
transmission at a warm restart (33). -/
def Obligations.TransmissionsFollowOneAnother : Prop :=
  (∀ (dt : Nat) (s : State) (f : UpFrame) (fs : List UpFrame),
     s.dev.up.txBusy = true → s.dev.up.leaving = false → s.dev.up.queue = f :: fs →
     ∃ t, exec (.frameTransmitted dt) s = .next t ∧ t.pending = s.pending ∧
       fs <+: t.dev.up.queue ∧ t.dev.up.pauseDue = [] ∧
       t.dev.pool.free = s.dev.pool.free + f.blocks.length ∧
       (CountersOk s.dev → (t.dev.ev.counter (.uplink .framesOut)).value =
         min ((s.dev.ev.counter (.uplink .framesOut)).value + 1) 65535) ∧
       (s.dev.up.link = true → PauseOk s.dev → CountersOk s.dev →
         (s.dev.ev.counter (.uplink .pausesSent)).value ≤ 65535 →
         let release := s.dev.up.pauseOn = true ∧ s.dev.set.pauseOff ≤ s.dev.pool.free + f.blocks.length
         (t.dev.ev.counter (.uplink .pausesSent)).value =
           min ((s.dev.ev.counter (.uplink .pausesSent)).value + s.dev.up.pauseDue.length + (if release then 1 else 0))
             65535) ∧
       (∀ g gs, fs = g :: gs → s.dev.up.link = true → s.dev.up.hold = none →
         t.dev.up.txBusy = true ∧ t.dev.up.portOut = ethWire g.bytes) ∧
       Touches ([.clock, .pool, .pauseState] ++ Piece.selecting) s.dev t.dev) ∧
  (∀ (dt : Nat) (s : State), s.dev.up.txBusy = true → s.dev.up.leaving = true →
     ∃ t, exec (.frameTransmitted dt) s = .next t ∧ t.pending = s.pending ∧
       s.dev.up.queue <+: t.dev.up.queue ∧ t.dev.up.pauseDue = [] ∧ t.dev.up.leaving = false ∧
       (CountersOk s.dev → (t.dev.ev.counter (.uplink .framesOut)).value =
         min ((s.dev.ev.counter (.uplink .framesOut)).value + 1) 65535) ∧
       (CountersOk s.dev → (s.dev.ev.counter (.uplink .pausesSent)).value ≤ 65535 →
         (t.dev.ev.counter (.uplink .pausesSent)).value =
           min ((s.dev.ev.counter (.uplink .pausesSent)).value + s.dev.up.pauseDue.length) 65535) ∧
       (∀ g gs, s.dev.up.queue = g :: gs → s.dev.up.link = true → s.dev.up.hold = none →
         t.dev.up.txBusy = true ∧ t.dev.up.portOut = ethWire g.bytes) ∧
       Touches (.clock :: Piece.raised) s.dev t.dev) ∧
  (∀ (s : State) (due : Nat), s.dev.up.repeatTimer = some due → s.dev.up.link = true →
     ∃ t, exec .pauseRepeat s = .next t ∧ t.pending = s.pending ∧ t.dev.clock = max s.dev.clock due ∧
       t.dev.up.repeatTimer = some (max s.dev.clock due + repeatPeriod s.dev.set.pauseQuanta s.dev.up.speed) ∧
       t.dev.up.pauseOn = s.dev.up.pauseOn ∧
       (s.dev.up.txBusy = true →
         t.dev.up.pauseDue = s.dev.up.pauseDue ++ [.ask] ∧ t.dev.ev = s.dev.ev) ∧
       (s.dev.up.txBusy = false → (s.dev.ev.counter (.uplink .pausesSent)).value ≠ 32767 →
         t.dev.up.portOut = ethWire (pauseBytes s.dev.ownAddr (BitVec.ofNat 16 s.dev.set.pauseQuanta))) ∧
       Touches ([.clock, .pauseState] ++ Piece.raised) s.dev t.dev) ∧
  (∀ (s : State) (due : Nat), s.dev.up.hold = some due →
     ∃ t, exec .pauseHoldEnd s = .next t ∧ t.pending = s.pending ∧ t.dev.clock = max s.dev.clock due ∧
       t.dev.up.hold = none ∧
       (∀ f fs, s.dev.up.queue = f :: fs → s.dev.up.link = true → s.dev.up.txBusy = false →
         t.dev.up.txBusy = true ∧ t.dev.up.portOut = ethWire f.bytes) ∧
       Touches [.clock, .hold, .transmit] s.dev t.dev)

/-! ### The Event Unit -/

/-- A new kind and subject that finds the event list full is weighed by its severity: where its number is smaller
than the largest of the list, the oldest entry of that largest number gives way to it, and otherwise it is discarded
and counted lost. -/
def Obligations.FullEventListWeighsBySeverity : Prop :=
  ∀ (d : Dev) (k : EventKind) (x : Subject), d.ev.events.length = 32 →
    (∀ e ∈ d.ev.events, ¬ (e.kind = k ∧ e.subject = x)) →
    let low := lowestSeverity d.ev.events
    (∀ e ∈ d.ev.events, e.kind.severity ≤ low) ∧ (∃ e ∈ d.ev.events, e.kind.severity = low) ∧
    (k.severity < low → ∃ before after out, d.ev.events = before ++ out :: after ∧ out.kind.severity = low ∧
      (∀ e ∈ before, e.kind.severity ≠ low) ∧
      (d.recordEvent k x).1.ev.events = before ++ after ++ [⟨k, x, d.uptime, 0, true⟩] ∧
      (d.recordEvent k x).1.ev.lost = d.ev.lost) ∧
    (low ≤ k.severity → (d.recordEvent k x).1.ev.events = d.ev.events ∧
      (d.recordEvent k x).1.ev.lost = min (d.ev.lost + 1) 255)

/-- One report to a counter of a segment, of the uplink or of the spool: its value rises by 1 and stays at 65535, and
the report that takes it from 32767 to 32768 with its half flag clear sets the flag and raises COUNTER_HALF. No other
counter moves, but where COUNTER_HALF makes a notice fall due that the uplink queue cannot take, whose drop is
counted. -/
def Obligations.CounterReportRisesByOne : Prop :=
  (∀ (d : Dev) (c : CounterId), CountersOk d →
    let v := (d.ev.counter c).value
    (v ≠ 32767 ∨ (d.ev.counter c).half = true →
      (∀ x, (d.count c).ev.counter x =
        if x = c then ⟨min (v + 1) 65535, (d.ev.counter c).half⟩ else d.ev.counter x) ∧
      Touches [.segCounters, .upCounters, .spoolCounters] d (d.count c)) ∧
    (v = 32767 → (d.ev.counter c).half = false → c ≠ .uplink (.drop .queueFull) → c ≠ .uplink (.drop .linkDown) →
      (d.count c).ev.counter c = ⟨32768, true⟩ ∧
      (∀ x, x ≠ c → x ≠ .uplink (.drop .queueFull) → x ≠ .uplink (.drop .linkDown) →
        (d.count c).ev.counter x = d.ev.counter x) ∧
      (d.ev.events.length < 32 →
        ∃ e ∈ (d.count c).ev.events, e.kind = .counterHalf ∧ e.subject = .counter c))) ∧
  (∀ (d : Dev) (g : Seg) (c : SegCounter), CountersOk d →
    ((d.countSeg g c).ev.counter (.seg g c)).value = min ((d.ev.counter (.seg g c)).value + 1) 65535 ∧
    ((d.countSeg g c).ev.counter (.seg g c)).half =
      ((d.ev.counter (.seg g c)).half || decide ((d.ev.counter (.seg g c)).value = 32767)) ∧
    (∀ h x, (h, x) ≠ (g, c) → (d.countSeg g c).ev.counter (.seg h x) = d.ev.counter (.seg h x)) ∧
    ((d.ev.counter (.seg g c)).value = 32767 → (d.ev.counter (.seg g c)).half = false → d.ev.events.length < 32 →
      ∃ e ∈ (d.countSeg g c).ev.events, e.kind = .counterHalf ∧ e.subject = .counter (.seg g c)) ∧
    Touches Piece.counted d (d.countSeg g c))

/-- NOTICE_HOLDOFF with room on the uplink queue: a notice of the whole list is queued, every unsent flag clears,
the holdoff clock stops and the notice number goes on. Rests on the model's choices: time (log entry 2), the byte of
the unsent flag in a notice (79). -/
def Obligations.HoldoffSendsANotice : Prop :=
  ∀ (s : State) (due : Nat), s.dev.set.noticeAddr ≠ 0#48 → s.dev.up.link = true → s.dev.up.queue.length < 63 →
    (s.dev.ev.heldBack = none ∧ s.dev.ev.holdoff = some due ∨
      s.dev.ev.heldBack = some due ∧ 0 < s.dev.set.noticeHoldoff) →
    ∃ t, exec .noticeHoldoff s = .next t ∧ t.pending = s.pending ∧
      t.dev.clock = max s.dev.clock (due + s.dev.set.noticeHoldoff * Config.ms) ∧
      t.dev.up.queue = s.dev.up.queue ++ [s.dev.noticeFrame] ∧
      t.dev.ev.events = s.dev.ev.events.map (fun e => { e with unsent := false }) ∧
      t.dev.ev.holdoff = none ∧ t.dev.ev.heldBack = none ∧ t.dev.ev.lost = s.dev.ev.lost ∧
      t.dev.ev.noticeNumber = (s.dev.ev.noticeNumber + 1) % 65536 ∧
      Touches [.clock, .upQueue, .transmit, .events] s.dev t.dev

/-- TAKE_EVENTS answers OK with the lost-events count and every entry, oldest first, and empties the list.
COUNTERS_READ answers the values of a group's counters in their order and changes none; COUNTERS_CLEAR sets them and
their half flags to 0; a group outside 0 to 5 is RANGE for both. Rests on the model's choices: operations given
alone and their answers (log entry 47), the byte of the unsent flag (79). -/
def Obligations.EventsAndCountersAreRead : Prop :=
  (∀ s : State, exec .takeEvents s = .next { s with dev := { s.dev with
     ev := { s.dev.ev with events := [], lost := 0, holdoff := none }
     agent := { s.dev.agent with answer := some ⟨0x1C#8, .ok,
       [BitVec.ofNat 8 s.dev.ev.lost, BitVec.ofNat 8 s.dev.ev.events.length] ++
         (s.dev.ev.events.map Event.bytes).flatten⟩ } } }) ∧
  (∀ (b : Byte) (s : State),
     (∀ cs, s.dev.ev.group b.toNat = some cs →
       exec (.countersRead b) s =
         .next (s.withAnswer 0x1D#8 .ok (byte cs.length :: (cs.map fun c => be 2 c.value).flatten)) ∧
       ∃ t, exec (.countersClear b) s = .next t ∧ t.pending = s.pending ∧
         t.dev.ev.group b.toNat = some (List.replicate cs.length ⟨0, false⟩) ∧
         (∀ m, m ≠ b.toNat → t.dev.ev.group m = s.dev.ev.group m) ∧
         t.dev.agent.answer = some ⟨0x1E#8, .ok, []⟩ ∧
         Touches [.segCounters, .upCounters, .spoolCounters, .answer] s.dev t.dev) ∧
     (5 < b.toNat →
       exec (.countersRead b) s = .next (s.withAnswer 0x1D#8 .range []) ∧
       exec (.countersClear b) s = .next (s.withAnswer 0x1E#8 .range [])))

/-! ### Turns and exchanges -/

/-- A decision of a Turn Scheduler that may decide: the requester granted is requesting, is urgent if any is, and is
the first such in the rotation order; the rotation pointer then names the one that follows it, and the turn opened
is bound to that requester's item, its frame held where carrier is on the line. A DELIVER granted on a quiet line
sends its frame: a broadcast with bit 0 until its end, a unicast with the station's next bit, its reply awaited from
the frame's end for the reply timeout. Where nobody requests, or the scheduler may not decide, nothing but time
moves. Rests on the model's choices: time (log entry 2), events that cannot happen (3). -/
def Obligations.TurnGrantTakesTheFirstInRotation : Prop :=
  ∀ (g : Seg) (carrier : Bool) (dt : Nat) (s : State),
    let d := s.dev.elapse dt
    (d.mayDecide g = true → (∃ r, d.requests g r = true) →
      ∃ t r item before after, exec (.turnGrant g carrier dt) s = .next t ∧ t.pending = s.pending ∧
        d.chooseRequester g = some r ∧ d.bindItem g r = some item ∧
        (s.dev.seg g).sched.rotation.order = before ++ r :: after ∧ d.requests g r = true ∧
        ((∃ q, d.requests g q = true ∧ d.urgent g q = true) → d.urgent g r = true) ∧
        (∀ q ∈ before, d.requests g q = true → d.urgent g r = true ∧ d.urgent g q = false) ∧
        (t.dev.seg g).sched.rotation = r.follow ∧
        (carrier = true → (t.dev.seg g).sched.turn = some ⟨item, .held⟩ ∧
          (t.dev.seg g).lineOut = (s.dev.seg g).lineOut) ∧
        (carrier = false → (t.dev.seg g).sched.turn = none ∨
          ∃ ph, (t.dev.seg g).sched.turn = some ⟨item, ph⟩ ∧ ph ≠ .held) ∧
        (∀ f, r = .deliver → carrier = false → d.deliverItem g = some f → ((s.dev.seg g).downq.map (·.fid)).Nodup →
          (f.dest = 255 →
            let sent := deliverBytes 255 f.fromNum false f.mark f.blocks.flatten
            (t.dev.seg g).lineOut = sent ∧
            (t.dev.seg g).sched.turn =
              some ⟨.deliver f.fid, .broadcast (s.dev.clock + dt + frameTime sent.length)⟩) ∧
          (∀ e, f.dest ≠ 255 → s.dev.station g f.dest = some e →
            let sent := deliverBytes f.dest f.fromNum e.nextBit f.mark f.blocks.flatten
            (t.dev.seg g).lineOut = sent ∧
            ∃ x, (t.dev.seg g).sched.turn = some ⟨.deliver f.fid, .exchange x⟩ ∧ x.number = e.number ∧
              x.eid = some e.eid ∧ x.seq = e.nextBit ∧ x.delimiter = false ∧
              x.sentAt = s.dev.clock + dt + frameTime sent.length ∧
              x.deadline = x.sentAt + (s.dev.seg g).cfg.replyTimeout * Config.us)) ∧
        (∀ h, h ≠ g → t.dev.seg h = s.dev.seg h) ∧
        Touches (.clock :: Piece.sending) s.dev t.dev) ∧
    (d.mayDecide g = false ∨ (∀ r, d.requests g r = false) →
      exec (.turnGrant g carrier dt) s = .next { s with dev := d })

/-- A POLL granted on a quiet line: the POLL carries the station's pending ack, which becomes NONE, and its reply is
awaited for the reply timeout from its end. Rests on the model's choices: time (log entry 2). -/
def Obligations.PollGrantSendsPoll : Prop :=
  ∀ (g : Seg) (dt : Nat) (s : State) (v : Visit) (vs : List Visit) (e : Station),
    (s.dev.elapse dt).mayDecide g = true → (s.dev.elapse dt).chooseRequester g = some .poll →
    s.dev.visits g = v :: vs → s.dev.stationById v.eid = some e →
    ∃ t, exec (.turnGrant g false dt) s = .next t ∧ t.pending = s.pending ∧
      (t.dev.seg g).lineOut = pollBytes e.number e.pendingAck ∧
      (t.dev.seg g).sched.turn = some ⟨.poll v.eid, .exchange
        { number := e.number, eid := some e.eid, seq := e.nextBit, wasSlow := decide (e.state = .slow), mark := .more,
          zeroEnd := false, sentAt := s.dev.clock + dt + 90 * Config.bitCell,
          deadline := s.dev.clock + dt + 90 * Config.bitCell + (s.dev.seg g).cfg.replyTimeout * Config.us,
          delimiter := false }⟩ ∧
      t.dev.stationById v.eid = some { e with pendingAck := .none } ∧
      (vs ≠ [] → (t.dev.seg g).sched.cycle = .running vs) ∧
      (vs = [] → (t.dev.seg g).sched.cycle = .ended ∧
        (t.dev.seg g).sched.cycleCount = ((s.dev.seg g).sched.cycleCount + 1) % 65536) ∧
      (∀ h, h ≠ g → t.dev.seg h = s.dev.seg h) ∧
      Touches [.clock, .sched, .lineOut, .stations] s.dev t.dev

/-- A DELIVER turn whose frame was held for the carrier, when the carrier falls: the DELIVER of the bound frame is
sent with the station's next downstream sequence bit, or as a broadcast with bit 0. -/
def Obligations.HeldDeliverIsSent : Prop :=
  ∀ (g : Seg) (dt : Nat) (s : State) (fid : Nat) (f : DownFrame),
    (s.dev.seg g).sched.turn = some ⟨.deliver fid, .held⟩ → s.dev.frame g fid = some f →
    (f.dest = 255 → ∃ t, exec (.heldFrameStart g dt) s = .next t ∧ t.pending = s.pending ∧
      (t.dev.seg g).lineOut = deliverBytes 255 f.fromNum false f.mark f.blocks.flatten ∧
      (∃ sent, (t.dev.seg g).sched.turn = some ⟨.deliver fid, .broadcast sent⟩) ∧
      (∀ h, h ≠ g → t.dev.seg h = s.dev.seg h) ∧ Touches [.clock, .sched, .lineOut] s.dev t.dev) ∧
    (∀ e, f.dest ≠ 255 → s.dev.station g f.dest = some e →
      ∃ t x, exec (.heldFrameStart g dt) s = .next t ∧ t.pending = s.pending ∧
      (t.dev.seg g).lineOut = deliverBytes f.dest f.fromNum e.nextBit f.mark f.blocks.flatten ∧
      (t.dev.seg g).sched.turn = some ⟨.deliver fid, .exchange x⟩ ∧ x.number = e.number ∧ x.seq = e.nextBit ∧
      x.delimiter = false ∧ (∀ h, h ≠ g → t.dev.seg h = s.dev.seg h) ∧
      Touches [.clock, .sched, .lineOut] s.dev t.dev)

/-- A FEED granted on a quiet line: the printer's ready item goes out from number 0 with its sent mark, or, sent for
the first time, with LAST for the zero-length end or the only block of a closed job and MORE otherwise; the mark is
kept. REPLY_RECEIVED of its ACCEPT without a status flag on a calm line, no printer IDLE: the block leaves the job and
is freed, and the next item is ready, or a LAST ends the job DONE. REPLY_RECEIVED of its REFUSE: the printer is
WAIT_READY until its busy retry. REPLY_TIMEOUT: one failure more, and at the lost limit the printer is LOST. Rests on
the model's choices: time (log entry 2), a job's byte count past its range (7), the order of the blocks (11), a reply
without its delimiter (18), a job whose ending waits (28). -/
def Obligations.FeedGrantSendsTheReadyItem : Prop :=
  (∀ (g : Seg) (dt : Nat) (s : State) (i n : Nat) (p : Printer) (j : Job) (r : ReadyItem) (e : Station),
    (s.dev.elapse dt).mayDecide g = true → (s.dev.elapse dt).chooseRequester g = some .feed →
    s.dev.feedChoice g = some (i, n) → s.dev.printer i = some p → p.ready = some r →
    s.dev.jobBySerial n = some j → s.dev.station g p.number = some e →
    let m := p.sentMark.getD
      (if r.zeroEnd = true ∨ j.isOpen = false ∧ j.chain.length ≤ 1 then Mark.last else Mark.more)
    ∃ t, exec (.turnGrant g false dt) s = .next t ∧ t.pending = s.pending ∧
      (t.dev.seg g).lineOut = deliverBytes p.number 0 e.nextBit m (if r.zeroEnd then [] else j.chain.headD []) ∧
      t.dev.printer i = some { p with sentMark := some m } ∧ (t.dev.seg g).sched.feedPtr = (i + 1) % 8 ∧
      (∀ h, h ≠ g → t.dev.seg h = s.dev.seg h) ∧
      Touches [.clock, .sched, .lineOut, .printers] s.dev t.dev) ∧
  (∀ (g : Seg) (reply : Reply) (dt : Nat) (s : State) (i n : Nat) (x : Exchange) (p : Printer),
    let f := parseTrunk reply.bytes
    (s.dev.seg g).sched.turn = some ⟨.feed i n, .exchange x⟩ →
    (s.dev.elapse dt).replyHeard g x reply.cells reply.cells = true →
    classify (.deliver x.seq) x.number reply = .good → flagged f = false → s.dev.printer i = some p →
    p.feed = .feeding → CalmLine (s.dev.seg g) →
    (∀ j, f.kind = kAccept → s.dev.activeJob i = some j → s.dev.jobBySerial n = some j →
      (s.dev.spool.jobs.map (·.serial)).Nodup → NoneIdle s.dev →
      let left := if x.zeroEnd = true then j.chain else j.chain.drop 1
      let printed := if x.zeroEnd = true then j.printed else addBytes j.printed (j.chain.headD []).length
      ∃ t, exec (.replyReceived g reply dt) s = .next t ∧ t.pending = s.pending ∧ (t.dev.seg g).sched.turn = none ∧
        (x.mark = .more →
          t.dev.jobBySerial n = some { j with chain := left, printed := printed } ∧
          t.dev.pool.free = s.dev.pool.free + (j.chain.length - left.length) ∧
          t.dev.printer i = some { p with
            failCount := 0, sentMark := none
            ready := if left = [] ∧ j.isOpen = true then none else some ⟨left.isEmpty, s.dev.clock + dt⟩ }) ∧
        (x.mark = .last → t.dev.jobBySerial n = none ∧
          t.dev.spool.finished = addSummary s.dev.spool.finished
            ⟨j.id, j.printer, j.source, .done, j.received, printed, s.dev.uptime⟩) ∧
        Touches ([.clock, .mon, .txEnable, .stations, .backoffs] ++ Piece.feeding) s.dev t.dev) ∧
    (f.kind = kRefuse →
      ∃ t, exec (.replyReceived g reply dt) s = .next t ∧ t.pending = s.pending ∧ (t.dev.seg g).sched.turn = none ∧
        t.dev.printer i = some { p with
          failCount := 0, feed := .waitReady, ready := none
          busyTimer := some (s.dev.clock + dt + p.busyRetry * Config.ms) } ∧
        (∀ k, k ≠ i → t.dev.printer k = s.dev.printer k) ∧
        Touches ([.clock, .sched, .mon, .txEnable, .stations, .backoffs, .printers] ++ Piece.counted) s.dev t.dev)) ∧
  (∀ (g : Seg) (s : State) (i n : Nat) (x : Exchange) (e : Station) (p : Printer),
    let q := s.dev.seg g
    let strain := min (q.mon.strain + q.cfg.wTimeout * min (min (q.mon.run + 1) 255) 8) 4095
    let fails := min (p.failCount + 1) 15
    q.sched.turn = some ⟨.feed i n, .exchange x⟩ → x.delimiter = false → x.eid = some e.eid →
    s.dev.stationById e.eid = some e → e.state = .present → q.mon.state = .active → strain < q.cfg.warn →
    strain < q.cfg.trip → s.dev.printer i = some p → p.feed = .feeding →
    ∃ t, exec (.replyTimeout g) s = .next t ∧ t.pending = s.pending ∧ (t.dev.seg g).sched.turn = none ∧
      (fails < p.lostLimit → t.dev.printer i = some { p with failCount := fails }) ∧
      (p.lostLimit ≤ fails →
        t.dev.printer i = some { p with
          feed := .lost, ready := none, busyTimer := none, failCount := 0
          holdTimer := some (max s.dev.clock x.deadline + p.holdTime * Config.sec) } ∧
        (s.dev.ev.events.length < 32 → ∃ v ∈ t.dev.ev.events, v.kind = .printerLost ∧ v.subject = .printer i)) ∧
      (∀ k, k ≠ i → t.dev.printer k = s.dev.printer k) ∧
      Touches ([.clock, .sched, .mon, .txEnable, .stations, .printers] ++ Piece.counted) s.dev t.dev)

/-- START_DELIMITER_RECEIVED from the master frame's end to the deadline, on a segment in service, marks the reply
begun, and moves nothing else. NOISE on a segment in service outside windows, replies and closed receivers is
counted; UNATTRIBUTED_JABBER outside an exchange is counted as a JABBER failure and charged to station 0. Out of
service, or with the receiver closed, neither does anything. Rests on the model's choices: time (log entry 2), events
that cannot happen (3). -/
def Obligations.LineActivityIsTaken : Prop :=
  (∀ (g : Seg) (dt : Nat) (s : State) (item : TurnItem) (x : Exchange),
     (s.dev.seg g).sched.turn = some ⟨item, .exchange x⟩ → s.dev.inService g = true → x.sentAt ≤ s.dev.clock + dt →
     s.dev.clock + dt ≤ x.deadline →
     ∃ t, exec (.startDelimiterReceived g dt) s = .next t ∧ t.pending = s.pending ∧
       t.dev.seg g = { s.dev.seg g with sched := { (s.dev.seg g).sched with
         turn := some ⟨item, .exchange { x with delimiter := true }⟩ } } ∧
       (∀ h, h ≠ g → t.dev.seg h = s.dev.seg h) ∧ Touches [.clock, .sched] s.dev t.dev) ∧
  (∀ (g : Seg) (dt : Nat) (s : State),
     let d := s.dev.elapse dt
     let q := s.dev.seg g
     let closed := q.receiverClosed (s.dev.clock + dt)
     (s.dev.inService g = true → q.windowOpen = false → closed = false → q.inReply = false →
       exec (.noise g dt) s = .next { s with dev := d.countSeg g .noise }) ∧
     (s.dev.inService g = true → q.windowOpen = false → closed = false → q.exchangeInFlight = false →
       ∃ t, exec (.unattributedJabber g dt) s = .next t ∧ t.pending = s.pending ∧
         (t.dev.seg g).mon.strain = min (q.mon.strain + q.cfg.wJabber * min (min (q.mon.run + 1) 255) 8) 4095 ∧
         (t.dev.seg g).mon.lastCause = some .jabber ∧
         (t.dev.seg g).mon.recent = addFailure q.mon.recent ⟨0, .jabber, s.dev.uptime⟩ ∧
         (t.dev.seg g).mon.peak =
           max q.mon.peak (min (q.mon.strain + q.cfg.wJabber * min (min (q.mon.run + 1) 255) 8) 4095) ∧
         (CountersOk s.dev → (t.dev.ev.counter (.seg g (.failure .jabber))).value =
           min ((s.dev.ev.counter (.seg g (.failure .jabber))).value + 1) 65535) ∧
         Touches (.clock :: Piece.monitoring) s.dev t.dev) ∧
     (s.dev.inService g = false ∨ closed = true →
       exec (.noise g dt) s = .next { s with dev := d } ∧
       exec (.unattributedJabber g dt) s = .next { s with dev := d }))

/-- REPLY_RECEIVED that classifies GOOD: the turn ends, the station's misses and jabber strikes return to 0 and it
is heard now; an ACCEPT turns its downstream sequence bit, and no other reply does. Rests on the model's choices:
the order of the blocks (log entry 11), a reply without its delimiter (18). -/
def Obligations.GoodReplyReachesTheDirectory : Prop :=
  ∀ (g : Seg) (reply : Reply) (dt : Nat) (s : State) (item : TurnItem) (x : Exchange) (e : Station),
    (s.dev.seg g).sched.turn = some ⟨item, .exchange x⟩ →
    (s.dev.elapse dt).replyHeard g x reply.cells reply.cells = true →
    classify (expectOf item x) x.number reply = .good → x.eid = some e.eid → s.dev.stationById e.eid = some e →
    ∃ t e', exec (.replyReceived g reply dt) s = .next t ∧ t.pending = s.pending ∧
      (t.dev.seg g).sched.turn = none ∧ t.dev.stationById e.eid = some e' ∧
      e'.seg = e.seg ∧ e'.number = e.number ∧ e'.misses = 0 ∧ e'.jabStrikes = 0 ∧
      e'.lastHeard = some s.dev.uptime ∧ e'.weight = e.weight ∧ e'.role = e.role ∧ e'.dupStrikes = e.dupStrikes ∧
      e'.nextBit = (if (parseTrunk reply.bytes).kind = kAccept then !e.nextBit else e.nextBit) ∧
      Touches (.clock :: Piece.monitoring) s.dev t.dev

/-- A DELIVER ended by an ACCEPT on a calm line: its frame leaves the queue and its blocks are freed; the line
drains. A DELIVER refused by a TERMINAL station: the refusal is counted on its frame, which stays, or at the 40th is
dropped and freed, and the station backs off for 50 ms. REPLY_TIMEOUT of a DELIVER to a PRESENT station, where the
charge leaves an ACTIVE segment below its thresholds: the failure is counted on its frame, which stays, or at the
third is dropped and freed. Rests on the model's choices: time (log entry 2), the order of the blocks (11), a reply
without its delimiter (18). -/
def Obligations.AcceptedFrameIsFreed : Prop :=
  (∀ (g : Seg) (reply : Reply) (dt : Nat) (s : State) (fid : Nat) (x : Exchange) (f : DownFrame),
    (s.dev.seg g).sched.turn = some ⟨.deliver fid, .exchange x⟩ → s.dev.frame g fid = some f → f.flushMark = false →
    (s.dev.elapse dt).replyHeard g x reply.cells reply.cells = true →
    classify (.deliver x.seq) x.number reply = .good → (parseTrunk reply.bytes).kind = kAccept →
    CalmLine (s.dev.seg g) →
    ∃ t, exec (.replyReceived g reply dt) s = .next t ∧ t.pending = s.pending ∧
      (t.dev.seg g).sched.turn = none ∧
      (t.dev.seg g).downq = removeFirst (fun q => q.fid == fid) (s.dev.seg g).downq ∧
      t.dev.pool.free = s.dev.pool.free + f.blocks.length ∧
      t.dev.pool.transit = s.dev.pool.transit - f.blocks.length ∧
      (t.dev.seg g).mon = { (s.dev.seg g).mon with
        run := 0, strain := (s.dev.seg g).mon.strain - (s.dev.seg g).cfg.drain } ∧
      (∀ h, h ≠ g → (t.dev.seg h).downq = (s.dev.seg h).downq ∧ (t.dev.seg h).mon = (s.dev.seg h).mon) ∧
      Touches ([.clock, .mon, .txEnable, .stations] ++ Piece.flushing) s.dev t.dev) ∧
  (∀ (g : Seg) (reply : Reply) (dt : Nat) (s : State) (fid : Nat) (x : Exchange) (f : DownFrame) (e : Station),
    (s.dev.seg g).sched.turn = some ⟨.deliver fid, .exchange x⟩ → s.dev.frame g fid = some f → f.flushMark = false →
    (s.dev.elapse dt).replyHeard g x reply.cells reply.cells = true →
    classify (.deliver x.seq) x.number reply = .good → (parseTrunk reply.bytes).kind = kRefuse →
    CalmLine (s.dev.seg g) → x.eid = some e.eid → s.dev.stationById e.eid = some e → e.role = .terminal →
    ∃ t, exec (.replyReceived g reply dt) s = .next t ∧ t.pending = s.pending ∧ (t.dev.seg g).sched.turn = none ∧
      (f.refused + 1 < 40 → t.dev.frame g fid = some { f with refused := f.refused + 1 } ∧ t.dev.pool = s.dev.pool) ∧
      (40 ≤ f.refused + 1 → (t.dev.seg g).downq = removeFirst (fun q => q.fid == fid) (s.dev.seg g).downq ∧
        t.dev.pool.free = s.dev.pool.free + f.blocks.length ∧
        (CountersOk s.dev → (t.dev.ev.counter (.seg g (.drop .deliverRefused))).value =
          min ((s.dev.ev.counter (.seg g (.drop .deliverRefused))).value + 1) 65535)) ∧
      (∀ b, b ∈ (t.dev.seg g).backoffs ↔ b = ⟨e.number, s.dev.clock + dt + 50 * Config.ms⟩ ∨
        b ∈ (s.dev.seg g).backoffs ∧ b.number ≠ e.number) ∧
      Touches ([.clock, .mon, .txEnable, .stations] ++ Piece.flushing) s.dev t.dev) ∧
  (∀ (g : Seg) (s : State) (fid : Nat) (x : Exchange) (f : DownFrame) (e : Station),
    let q := s.dev.seg g
    let strain := min (q.mon.strain + q.cfg.wTimeout * min (min (q.mon.run + 1) 255) 8) 4095
    q.sched.turn = some ⟨.deliver fid, .exchange x⟩ → s.dev.frame g fid = some f → f.flushMark = false →
    x.delimiter = false → x.eid = some e.eid → s.dev.stationById e.eid = some e → e.state = .present →
    q.mon.state = .active → strain < q.cfg.warn → strain < q.cfg.trip →
    ∃ t, exec (.replyTimeout g) s = .next t ∧ t.pending = s.pending ∧ (t.dev.seg g).sched.turn = none ∧
      (f.failed + 1 < 3 → t.dev.frame g fid = some { f with failed := f.failed + 1 } ∧ t.dev.pool = s.dev.pool) ∧
      (3 ≤ f.failed + 1 → (t.dev.seg g).downq = removeFirst (fun q => q.fid == fid) q.downq ∧
        t.dev.pool.free = s.dev.pool.free + f.blocks.length ∧
        (CountersOk s.dev → (t.dev.ev.counter (.seg g (.drop .deliverFailed))).value =
          min ((s.dev.ev.counter (.seg g (.drop .deliverFailed))).value + 1) 65535)) ∧
      Touches ([.clock, .mon, .txEnable, .stations] ++ Piece.flushing) s.dev t.dev)

/-- A POLL answered with the DATA its station sent last, on a calm line: it is acknowledged and not forwarded again.
A POLL answered with new DATA for a TERMINAL station of the same segment, on a calm line, with room on its queue and
in the pool above the coax floor: one frame joins the queue, the DATA is acknowledged and its sequence bit kept. A
POLL answered with new DATA to an ACTIVE alias whose target is an Ethernet address, on a calm line: the alias is
used; on an UP link, with room on the uplink queue and in the pool above the coax floor, one carrier DATA from the
sender's proxy address to that address joins the uplink queue with its blocks, and the DATA is acknowledged and its
sequence bit kept; without that room it is answered BUSY; and on a DOWN link it is acknowledged and dropped under
LINK_DOWN. New DATA for a printer's station, here marked MORE with no printer IDLE, is a print unit: it joins its
source's open job or opens a job and is acknowledged; without room for it in the pool, at the printer or in the job
table it is answered BUSY, its sequence bit not kept; and where the printer takes no new job it is acknowledged and
dropped under PRINT_REFUSED. Rests on the model's choices: time (log entry 2), a job's byte count past its range (7),
the order of the blocks (11), a reply without its delimiter (18), the carrier DATA before what its blocks raise (31).
-/
def Obligations.DataIsRelayedOnce : Prop :=
  (∀ (g : Seg) (reply : Reply) (dt : Nat) (s : State) (x : Exchange) (e : Station),
     (s.dev.seg g).sched.turn = some ⟨.poll e.eid, .exchange x⟩ → x.eid = some e.eid →
     s.dev.stationById e.eid = some e → e.state = .present → e.role = .terminal →
     (s.dev.elapse dt).replyHeard g x reply.cells reply.cells = true →
     classify .poll x.number reply = .good → (parseTrunk reply.bytes).kind = kData →
     e.lastSeq = some ((parseTrunk reply.bytes).control.getLsbD 0) → CalmLine (s.dev.seg g) →
     ∃ t, exec (.replyReceived g reply dt) s = .next t ∧ t.pending = s.pending ∧
       t.dev.stationById e.eid = some { e with
         pendingAck := .ack, misses := 0, jabStrikes := 0, lastHeard := some s.dev.uptime } ∧
       Touches ([.clock, .sched, .mon, .txEnable, .stations, .backoffs] ++ Piece.counted) s.dev t.dev) ∧
  (∀ (g : Seg) (reply : Reply) (dt : Nat) (s : State) (x : Exchange) (e k : Station),
     let f := parseTrunk reply.bytes
     (s.dev.seg g).sched.turn = some ⟨.poll e.eid, .exchange x⟩ → x.eid = some e.eid →
     s.dev.stationById e.eid = some e → e.state = .present → e.role = .terminal →
     (s.dev.elapse dt).replyHeard g x reply.cells reply.cells = true →
     classify .poll x.number reply = .good → f.kind = kData → e.lastSeq ≠ some (f.control.getLsbD 0) →
     f.peer ≠ 0 → f.peer ≠ 255 → s.dev.station g f.peer = some k → k.state = .present ∨ k.state = .slow →
     k.role = .terminal → s.dev.printerAt g f.peer = none → (s.dev.seg g).downq.length < 31 →
     max 1 ((f.payload.length + 255) / 256) + s.dev.set.coaxFloor ≤ s.dev.pool.free → CalmLine (s.dev.seg g) →
     ∃ t, exec (.replyReceived g reply dt) s = .next t ∧ t.pending = s.pending ∧
       (t.dev.seg g).downq = (s.dev.seg g).downq ++ [{
         fid := s.dev.nextFid, dest := f.peer, fromNum := e.number, mark := frameMark f,
         blocks := transitBlocks f.payload, enqueued := s.dev.clock + dt, failed := 0, refused := 0,
         flushMark := false }] ∧
       t.dev.pool.free = s.dev.pool.free - max 1 ((f.payload.length + 255) / 256) ∧
       t.dev.stationById e.eid = some { e with
         pendingAck := .ack, lastSeq := some (f.control.getLsbD 0), misses := 0, jabStrikes := 0,
         lastHeard := some s.dev.uptime } ∧
       (∀ h, h ≠ g → (t.dev.seg h).downq = (s.dev.seg h).downq) ∧
       Touches ([.clock, .sched, .mon, .txEnable, .stations, .backoffs, .downq, .names, .pool, .pauseState] ++
         Piece.counted) s.dev t.dev) ∧
  (∀ (g : Seg) (reply : Reply) (dt : Nat) (s : State) (x : Exchange) (e : Station) (a : AliasEntry) (m : Addr),
     let f := parseTrunk reply.bytes
     (s.dev.seg g).sched.turn = some ⟨.poll e.eid, .exchange x⟩ → x.eid = some e.eid →
     s.dev.stationById e.eid = some e → e.state = .present → e.role = .terminal →
     (s.dev.elapse dt).replyHeard g x reply.cells reply.cells = true →
     classify .poll x.number reply = .good → f.kind = kData → e.lastSeq ≠ some (f.control.getLsbD 0) →
     f.peer ≠ 0 → f.peer ≠ 255 → s.dev.station g f.peer = none → s.dev.aliasAt g f.peer = some a →
     a.state = .active → a.target = .ethernet m → CalmLine (s.dev.seg g) →
     (s.dev.ev.counter (.seg g .good)).value ≠ 32767 → (s.dev.ev.counter (.seg g .framesIn)).value ≠ 32767 →
     let need := max 1 ((f.payload.length + 255) / 256)
     let room := s.dev.up.queue.length < 63 ∧ need + s.dev.set.coaxFloor ≤ s.dev.pool.free
     let acked := fun (t : State) => t.dev.stationById e.eid = some { e with
       pendingAck := .ack, lastSeq := some (f.control.getLsbD 0), misses := 0, jabStrikes := 0,
       lastHeard := some s.dev.uptime }
     ∃ t, exec (.replyReceived g reply dt) s = .next t ∧ t.pending = s.pending ∧
       t.dev.aliases = (s.dev.useAlias g f.peer).aliases ∧
       (s.dev.up.link = true → room → acked t ∧
         s.dev.up.queue ++ [{
           kind := .carrierData, dst := m, src := s.dev.proxy g e.number, etherType := s.dev.set.carrierType
           body := carrierHeader 0x01#8 (frameMark f) 0 0 0 f.payload.length
           blocks := transitBlocks f.payload }] <+: t.dev.up.queue ∧
         t.dev.pool.free = s.dev.pool.free - need ∧ t.dev.pool.transit = s.dev.pool.transit + need) ∧
       (s.dev.up.link = true → ¬ room → t.dev.pool = s.dev.pool ∧
         t.dev.stationById e.eid = some { e with
           pendingAck := .busy, misses := 0, jabStrikes := 0, lastHeard := some s.dev.uptime }) ∧
       (s.dev.up.link = false → acked t ∧ t.dev.pool = s.dev.pool ∧
         (CountersOk s.dev → (t.dev.ev.counter (.seg g (.drop .linkDown))).value =
           min ((s.dev.ev.counter (.seg g (.drop .linkDown))).value + 1) 65535)) ∧
       Touches ([.clock, .sched, .mon, .txEnable, .stations, .backoffs, .aliases, .pool, .pauseState] ++
         Piece.counted) s.dev t.dev) ∧
  (∀ (g : Seg) (reply : Reply) (dt : Nat) (s : State) (x : Exchange) (e k : Station) (i : Nat) (p : Printer),
     let f := parseTrunk reply.bytes
     (s.dev.seg g).sched.turn = some ⟨.poll e.eid, .exchange x⟩ → x.eid = some e.eid →
     s.dev.stationById e.eid = some e → e.state = .present → e.role = .terminal →
     (s.dev.elapse dt).replyHeard g x reply.cells reply.cells = true →
     classify .poll x.number reply = .good → f.kind = kData → e.lastSeq ≠ some (f.control.getLsbD 0) →
     f.peer ≠ 0 → f.peer ≠ 255 → s.dev.station g f.peer = some k → k.state = .present ∨ k.state = .slow →
     k.role = .printer → s.dev.printerAt g f.peer = some i → s.dev.printer i = some p → NoneIdle s.dev →
     frameMark f = .more → CalmLine (s.dev.seg g) →
     let src := Source.coax g e.number
     let room := s.dev.spoolOk (spoolNeed f.payload.length)
     let acked := fun (t : State) => t.dev.stationById e.eid = some { e with
       pendingAck := .ack, lastSeq := some (f.control.getLsbD 0), misses := 0, jabStrikes := 0,
       lastHeard := some s.dev.uptime }
     let busy := fun (t : State) => t.dev.stationById e.eid = some { e with
       pendingAck := .busy, misses := 0, jabStrikes := 0, lastHeard := some s.dev.uptime }
     ∃ t, exec (.replyReceived g reply dt) s = .next t ∧ t.pending = s.pending ∧
       (∀ j, s.dev.openJob src i = some j → s.dev.jobBySerial j.serial = some j →
         (room = true → acked t ∧ UnitJoins s.dev t.dev j f.payload) ∧
         (room = false → busy t ∧ UnitRefused s.dev t.dev (some j))) ∧
       (s.dev.openJob src i = none →
         (TakesNoJob s.dev p → acked t ∧ UnitRefused s.dev t.dev none ∧
           (CountersOk s.dev → (t.dev.ev.counter (.seg g (.drop .printRefused))).value =
             min ((s.dev.ev.counter (.seg g (.drop .printRefused))).value + 1) 65535)) ∧
         (¬ TakesNoJob s.dev p →
           (p.jobLimit ≤ s.dev.jobCount i ∨ 32 ≤ s.dev.spool.jobs.length ∨ room = false →
             busy t ∧ UnitRefused s.dev t.dev none) ∧
           (s.dev.jobCount i < p.jobLimit → s.dev.spool.jobs.length < 32 → room = true →
             acked t ∧ UnitOpens s.dev t.dev i src f.payload))) ∧
       Touches ([.clock, .sched, .mon, .txEnable, .stations, .backoffs, .jobs, .jobNames, .printers, .pool,
         .pauseState, .spoolCounters] ++ Piece.counted) s.dev t.dev)

/-- REPLY_TIMEOUT of a POLL to a PRESENT station, where the charge leaves an ACTIVE segment below its thresholds:
the charge is the cause's weight times the run, at most 8, and the station has one more miss and is SLOW from the
third. Rests on the model's choices: time (log entry 2), the order of the blocks (11). -/
def Obligations.TimeoutChargesAndMisses : Prop :=
  ∀ (g : Seg) (s : State) (x : Exchange) (e : Station),
    let m := (s.dev.seg g).mon
    let c := (s.dev.seg g).cfg
    let strain := min (m.strain + c.wTimeout * min (min (m.run + 1) 255) 8) 4095
    (s.dev.seg g).sched.turn = some ⟨.poll e.eid, .exchange x⟩ → x.delimiter = false → x.eid = some e.eid →
    x.wasSlow = false → s.dev.stationById e.eid = some e → e.state = .present → m.state = .active →
    strain < c.warn → strain < c.trip →
    ∃ t, exec (.replyTimeout g) s = .next t ∧ t.pending = s.pending ∧ t.dev.clock = max s.dev.clock x.deadline ∧
      (t.dev.seg g).sched.turn = none ∧
      t.dev.stationById e.eid = some { e with
        misses := min (e.misses + 1) 255, jabStrikes := 0, state := if 2 ≤ e.misses then .slow else .present } ∧
      (t.dev.seg g).mon = { m with
        run := min (m.run + 1) 255, strain := strain, peak := max m.peak strain, lastCause := some .timeout
        recent := addFailure m.recent ⟨x.number, .timeout, s.dev.uptime⟩ } ∧
      (∀ h, h ≠ g → t.dev.seg h = s.dev.seg h) ∧
      Touches ([.clock, .sched, .mon, .txEnable, .stations] ++ Piece.counted) s.dev t.dev

/-- REPLY_JABBER of a station with a jabber strike that is not QUARANTINED: the second strike shuts it out as
QUARANTINED with cause JABBER. Rests on the model's choices: the order of the blocks (log entry 11), a reply without
its delimiter (18), the state that the second strike leaves (21). -/
def Obligations.SecondJabberStrikeQuarantines : Prop :=
  ∀ (g : Seg) (dt : Nat) (s : State) (item : TurnItem) (x : Exchange) (e : Station),
    StationsOk s.dev → (s.dev.seg g).sched.turn = some ⟨item, .exchange x⟩ →
    (s.dev.elapse dt).replyHeard g x jabberLeast jabberMost = true →
    x.eid = some e.eid → s.dev.stationById e.eid = some e → e.jabStrikes = 1 → e.state ≠ .quarantined →
    ∃ t e', exec (.replyJabber g dt) s = .next t ∧ t.pending = s.pending ∧ (t.dev.seg g).sched.turn = none ∧
      t.dev.stationById e.eid = some e' ∧ e'.seg = e.seg ∧ e'.number = e.number ∧
      e'.state = .quarantined ∧ e'.cause = some .jabber ∧ e'.jabStrikes = 0 ∧ e'.misses = min (e.misses + 1) 255 ∧
      Touches (.clock :: Piece.monitoring) s.dev t.dev

/-- BROADCAST_SENT: the frame is freed, whether its flush was asked for or not, and the turn ends. BACKOFF_END of a
station in refuse-backoff: it leaves the segment's backoffs, and only time moves besides. Rests on the model's
choices: time (log entry 2), a broadcast a flush has marked (19). -/
def Obligations.BroadcastsAndBackoffsEnd : Prop :=
  (∀ (g : Seg) (s : State) (fid due : Nat) (f : DownFrame),
     (s.dev.seg g).sched.turn = some ⟨.deliver fid, .broadcast due⟩ → s.dev.frame g fid = some f →
     ∃ t, exec (.broadcastSent g) s = .next t ∧ t.pending = s.pending ∧ t.dev.clock = max s.dev.clock due ∧
       (t.dev.seg g).sched.turn = none ∧
       (t.dev.seg g).downq = removeFirst (fun q => q.fid == fid) (s.dev.seg g).downq ∧
       t.dev.pool.free = s.dev.pool.free + f.blocks.length ∧
       (∀ h, h ≠ g → (t.dev.seg h).downq = (s.dev.seg h).downq) ∧
       Touches ([.clock, .txEnable] ++ Piece.flushing) s.dev t.dev) ∧
  (∀ (g : Seg) (n : Nat) (s : State) (b : Backoff), (s.dev.seg g).backoffs.find? (fun b => b.number == n) = some b →
     ∃ t, exec (.backoffEnd g n) s = .next t ∧ t.pending = s.pending ∧ t.dev.clock = max s.dev.clock b.ends ∧
       (∀ q, q ∈ (t.dev.seg g).backoffs ↔ q ∈ (s.dev.seg g).backoffs ∧ q.number ≠ n) ∧
       (∀ h, h ≠ g → t.dev.seg h = s.dev.seg h) ∧ Touches [.clock, .backoffs] s.dev t.dev)

/-! ### Cycles, holds and discovery -/

/-- In the plan of a cycle a PRESENT TERMINAL station of weight 0 to 15 has as many visits as its weight, spread
over the four sub-rounds as the weight's quarter with the remainder in the first ones, at most one in a pass. -/
def Obligations.PlanVisitsEachStationByWeight : Prop :=
  ∀ (es : List Station) (e : Station) (cycle : Nat), e ∈ es → (es.map (·.eid)).Nodup → e.state = .present →
    e.role = .terminal → e.weight ≤ 15 →
    ((planOf es cycle).filter fun v => v.eid == e.eid).length = e.weight ∧
    (∀ i, i < 4 → ((planOf es cycle).filter fun v => v.eid == e.eid && v.subRound == i).length =
      e.weight / 4 + if i < e.weight % 4 then 1 else 0) ∧
    (∀ i j, ((planOf es cycle).filter fun v => v.eid == e.eid && v.subRound == i && v.pass == j).length ≤ 1) ∧
    ((planOf es cycle).map fun v => (v.subRound, v.pass)).Pairwise (fun a b => a.1 < b.1 ∨ a.1 = b.1 ∧ a.2 ≤ b.2)

/-- CYCLE_START after the floor: the start is recorded, the written floor taken into effect and the plan built.
EMPTY_CYCLE_END ends a cycle without a visit 1 ms after its start and counts it. Rests on the model's choices: time
(log entry 2). -/
def Obligations.CyclesStartAndEnd : Prop :=
  ∀ (g : Seg) (s : State),
    let q := s.dev.seg g
    (s.dev.inService g = true → q.sched.cycle = .ended →
      let plan := planOf (s.dev.stations.filter fun e => e.seg == g) q.sched.cycleCount
      let now := max s.dev.clock (q.sched.cycleStart.getD 0 + q.sched.floorInEffect * Config.ms)
      ∃ t, exec (.cycleStart g) s = .next t ∧ t.pending = s.pending ∧ t.dev.clock = now ∧
        t.dev.seg g = { q with sched := { q.sched with
          cycleStart := some now, floorInEffect := q.cfg.cycleFloor,
          cycle := if plan = [] then .empty else .running plan } } ∧
        (∀ h, h ≠ g → t.dev.seg h = s.dev.seg h) ∧ Touches [.clock, .sched] s.dev t.dev) ∧
    (q.sched.cycle = .empty →
      ∃ t, exec (.emptyCycleEnd g) s = .next t ∧ t.pending = s.pending ∧
        t.dev.clock = max s.dev.clock (q.sched.cycleStart.getD 0 + Config.ms) ∧
        t.dev.seg g = { q with sched := { q.sched with
          cycle := .ended, cycleCount := (q.sched.cycleCount + 1) % 65536 } } ∧
        (∀ h, h ≠ g → t.dev.seg h = s.dev.seg h) ∧ Touches [.clock, .sched] s.dev t.dev)

/-- DISCOVERY_INTERVAL_EXPIRY with no pass due or running makes a pass due: it asks for the medium in ACTIVE and
TRIAL and is deferred in STRAINED. SEG_DISCOVER, naming a segment: in service it is answered OK, and a pass that was
IDLE falls due, to ask for the medium unless the segment is STRAINED; out of service it is answered WRONG_STATE and
nothing changes. A number outside 0 to 3 is RANGE. Rests on the model's choices: time (log entry 2), operations
given alone and their answers (47). -/
def Obligations.PassesFallDue : Prop :=
  (∀ (g : Seg) (s : State) (due : Nat), (s.dev.seg g).disc.intervalTimer = some due →
     (s.dev.seg g).disc.pass = .idle →
     ∃ t, exec (.discoveryIntervalExpiry g) s = .next t ∧ t.pending = s.pending ∧ t.dev.clock = max s.dev.clock due ∧
       (t.dev.seg g).disc = { (s.dev.seg g).disc with pass := .due, intervalTimer := none } ∧
       (t.dev.seg g).sched = { (s.dev.seg g).sched with
         holds := if (s.dev.seg g).mon.state = .active ∨ (s.dev.seg g).mon.state = .trial
           then (s.dev.seg g).sched.holds ++ [.discovery] else (s.dev.seg g).sched.holds } ∧
       (∀ h, h ≠ g → t.dev.seg h = s.dev.seg h) ∧ Touches [.clock, .disc, .sched] s.dev t.dev) ∧
  (∀ (b : Byte) (s : State),
     (∀ g, segOf b.toNat = some g →
       let q := s.dev.seg g
       (q.mon.state = .active ∨ q.mon.state = .strained ∨ q.mon.state = .trial →
         ∃ t, exec (.segDiscover b) s = .next t ∧ t.pending = s.pending ∧
           t.dev.agent.answer = some ⟨0x14#8, .ok, []⟩ ∧
           (q.disc.pass ≠ .idle → t.dev.seg g = q) ∧
           (q.disc.pass = .idle → t.dev.seg g = { q with
             disc := { q.disc with pass := .due, intervalTimer := none }
             sched := { q.sched with
               holds := if q.mon.state = .strained then q.sched.holds else q.sched.holds ++ [.discovery] } }) ∧
           (∀ h, h ≠ g → t.dev.seg h = s.dev.seg h) ∧ Touches [.disc, .sched, .answer] s.dev t.dev) ∧
       (q.mon.state ≠ .active → q.mon.state ≠ .strained → q.mon.state ≠ .trial →
         exec (.segDiscover b) s = .next (s.withAnswer 0x14#8 .wrongState []))) ∧
     (segOf b.toNat = none →
       exec (.segDiscover b) s = .next (s.withAnswer 0x14#8 .range [])))

/-- HOLD_TAKES_MEDIUM when the scheduler may give it: the first hold leaves the list and has the medium. A discovery
hold begins a pass at level 0, its DISCOVER sent on a quiet line; a probe hold begins the probe's quiet check. Rests
on the model's choices: time (log entry 2). -/
def Obligations.FirstHoldTakesTheMedium : Prop :=
  ∀ (g : Seg) (carrier : Bool) (dt : Nat) (s : State) (h : Hold) (hs : List Hold),
    let q := s.dev.seg g
    q.sched.holds = h :: hs → s.dev.inService g = true → q.sched.turn = none → q.sched.medium = none →
    ∃ t, exec (.holdTakesMedium g carrier dt) s = .next t ∧ t.pending = s.pending ∧
      (t.dev.seg g).sched = { q.sched with holds := hs, medium := some h } ∧
      (h = .discovery → (t.dev.seg g).disc.pass = .level0 ∧ (t.dev.seg g).probe = q.probe ∧
        (carrier = false → (t.dev.seg g).lineOut = discoverBytes none q.cfg.slotTime ∧
          ∃ r, (t.dev.seg g).disc.run = some r ∧ r.group = none ∧ r.held = false ∧
            r.slotsFrom = s.dev.clock + dt + 106 * Config.bitCell) ∧
        (carrier = true → (t.dev.seg g).lineOut = q.lineOut ∧
          ∃ r, (t.dev.seg g).disc.run = some r ∧ r.group = none ∧ r.held = true)) ∧
      (h = .probe → (t.dev.seg g).disc = q.disc ∧ (t.dev.seg g).lineOut = q.lineOut ∧
        (t.dev.seg g).probe = { q.probe with
          phase := .quietCheck, onHold := true, params := q.cfg.probeParams, checkStart := s.dev.clock + dt,
          stretchStart := s.dev.clock + dt, dcCode := none, shots := [], capturing := false }) ∧
      (∀ k, k ≠ g → t.dev.seg k = s.dev.seg k) ∧ Touches [.clock, .sched, .disc, .probe, .lineOut] s.dev t.dev

/-- DISCOVERY_WINDOW_END of a level-0 window with 1 to 8 garbled slots: the pass goes on to a level-1 window for the
lowest garbled group, with the others to follow, and its DISCOVER is sent on a quiet line. DISCOVERY_WINDOW_END of a
level-0 window that is quiet but for one CLEAN number without an entry: the pass completes, the station is entered
PRESENT as a DISCOVERED TERMINAL of weight 4, the pass state is IDLE, the pending-duplicates list is empty and the
interval timer runs. Rests on the model's choices: time (log entry 2). -/
def Obligations.WindowsEnd : Prop :=
  (∀ (g : Seg) (slots : List SlotLine) (s : State) (r : PassRun) (x : Nat) (xs : List Nat),
     (s.dev.seg g).disc.run = some r → r.held = false → r.group = none →
     garbledSlots (readWindow none slots) = x :: xs → xs.length ≤ 7 →
     let now := max s.dev.clock (r.slotsFrom + 16 * r.slotTime * Config.us)
     ∃ t, exec (.discoveryWindowEnd g slots false) s = .next t ∧ t.pending = s.pending ∧ t.dev.clock = now ∧
       t.dev.seg g = { s.dev.seg g with
         lineOut := discoverBytes (some x) r.slotTime
         disc := { (s.dev.seg g).disc with
           pass := .level1
           run := some { r with
             group := some x, groupsLeft := xs, held := false, slotsFrom := now + 106 * Config.bitCell,
             readings := r.readings ++ [(none, readWindow none slots)] } } } ∧
       (∀ k, k ≠ g → t.dev.seg k = s.dev.seg k) ∧ Touches [.clock, .disc, .lineOut] s.dev t.dev) ∧
  (∀ (g : Seg) (slots : List SlotLine) (carrier : Bool) (s : State) (r : PassRun) (n : Nat),
     (s.dev.seg g).disc.run = some r → r.held = false → r.group = none → r.readings = [] →
     garbledSlots (readWindow none slots) = [] → cleanNumbers (readWindow none slots) = [n] →
     s.dev.station g n = none → s.dev.stations.length < 256 → s.dev.inService g = true →
     ∃ t e, exec (.discoveryWindowEnd g slots carrier) s = .next t ∧ t.pending = s.pending ∧
       t.dev.station g n = some e ∧ e.state = .present ∧ e.origin = .discovered ∧ e.role = .terminal ∧ e.weight = 4 ∧
       e.misses = 0 ∧ e.lastSeq = none ∧ e.pendingAck = .none ∧ e.nextBit = false ∧ e.tap = none ∧
       e.lastHeard = some s.dev.uptime ∧
       (∀ h m, (h, m) ≠ (g, n) → t.dev.station h m = s.dev.station h m) ∧
       (t.dev.seg g).disc.pass = .idle ∧ (t.dev.seg g).disc.run = none ∧ (t.dev.seg g).disc.pendingDup = [] ∧
       (t.dev.seg g).disc.intervalTimer =
         some (t.dev.clock + (s.dev.seg g).cfg.discoveryInterval * Config.sec) ∧
       Touches ([.clock, .stations, .names, .aliases, .disc, .sched] ++ Piece.counted) s.dev t.dev)

/-! ### The Station Directory -/

/-- ABSENT_FORGET of a DISCOVERED TERMINAL that no printer names and that has been ABSENT for longer than the absent-
forget time removes its entry; one not past that time, any other entry and a number without one are left alone.
ALIAS_IDLE_WITHDRAW takes a DYNAMIC alias past the alias idle time out of the table and no other entry; one not past
it, a STATIC alias and a number without one are left alone. Rests on the model's choices: events that cannot happen
(log entry 3), tests as commands of their own (10), a recorded time after the uptime (62). -/
def Obligations.AgedEntriesLeave : Prop :=
  (∀ (g : Seg) (n : Nat) (s : State) (e : Station), StationsOk s.dev → s.dev.station g n = some e →
     (∀ since, e.origin = .discovered → e.role = .terminal → e.state = .absent → s.dev.printerAt g n = none →
       e.absentSince = some since → s.dev.set.absentForget < s.dev.uptime - since →
       ∃ t, exec (.absentForget g n) s = .next t ∧ t.pending = s.pending ∧ t.dev.station g n = none ∧
         (∀ h m, (h, m) ≠ (g, n) → t.dev.station h m = s.dev.station h m) ∧
         Touches Piece.directing s.dev t.dev) ∧
     ((∀ since, e.absentSince = some since → s.dev.uptime - since ≤ s.dev.set.absentForget) →
       exec (.absentForget g n) s = .next s) ∧
     (e.origin = .configured ∨ e.role = .printer ∨ e.state ≠ .absent ∨ (s.dev.printerAt g n).isSome = true →
       exec (.absentForget g n) s = .next s)) ∧
  (∀ (g : Seg) (n : Nat) (s : State) (a : AliasEntry), s.dev.aliasAt g n = some a →
     (a.kind = .dynamic → s.dev.set.aliasIdle ≤ s.dev.uptime - a.lastUsed →
       exec (.aliasIdleWithdraw g n) s = .next { s with dev := { s.dev with
         aliases := s.dev.aliases.filter fun x => !(x.seg == g && x.number == n) } }) ∧
     (a.kind = .static ∨ s.dev.uptime - a.lastUsed < s.dev.set.aliasIdle →
       exec (.aliasIdleWithdraw g n) s = .next s)) ∧
  (∀ (g : Seg) (n : Nat) (s : State),
     (s.dev.station g n = none → exec (.absentForget g n) s = .next s) ∧
     (s.dev.aliasAt g n = none → exec (.aliasIdleWithdraw g n) s = .next s))

/-- STATION_QUARANTINE, naming an entry that is not QUARANTINED: it becomes so with cause MANAGER, and no frame for
it stays on its segment's queue but one that the flush has marked. One already QUARANTINED takes the cause alone. An
entry that does not exist is NO_ENTRY. STATION_RELEASE: a QUARANTINED entry becomes ABSENT from now with its misses
and strikes 0; any other entry is WRONG_STATE. Rests on the model's choices: operations given alone and their
answers (log entry 47). -/
def Obligations.StationsAreShutOutAndReleased : Prop :=
  (∀ (b c : Byte) (s : State) (g : Seg), segOf b.toNat = some g → 1 ≤ c.toNat → c.toNat ≤ 254 →
     (∀ e, s.dev.station g c.toNat = some e → StationsOk s.dev →
       ∃ t e', exec (.stationQuarantine b c) s = .next t ∧ t.pending = s.pending ∧
         t.dev.agent.answer = some ⟨0x16#8, .ok, []⟩ ∧ t.dev.station g c.toNat = some e' ∧ e'.eid = e.eid ∧
         e'.state = .quarantined ∧ e'.cause = some .manager ∧ e'.misses = e.misses ∧ e'.lastSeq = e.lastSeq ∧
         e'.nextBit = e.nextBit ∧
         (∀ h m, (h, m) ≠ (g, c.toNat) → t.dev.station h m = s.dev.station h m) ∧
         (e.state = .quarantined → Touches [.stations, .answer] s.dev t.dev) ∧
         (e.state ≠ .quarantined → ((s.dev.seg g).downq.map (·.fid)).Nodup →
           ∀ f ∈ (t.dev.seg g).downq, f.dest = c.toNat → f.flushMark = true) ∧
         Touches (.answer :: Piece.directing) s.dev t.dev) ∧
     (s.dev.station g c.toNat = none →
       exec (.stationQuarantine b c) s = .next (s.withAnswer 0x16#8 .noEntry []))) ∧
  (∀ (b c : Byte) (s : State) (g : Seg) (e : Station), StationsOk s.dev → segOf b.toNat = some g → 1 ≤ c.toNat →
     c.toNat ≤ 254 → s.dev.station g c.toNat = some e →
     (e.state = .quarantined →
       ∃ t, exec (.stationRelease b c) s = .next t ∧ t.pending = s.pending ∧
         t.dev.agent.answer = some ⟨0x17#8, .ok, []⟩ ∧
         t.dev.station g c.toNat = some { e with
           state := .absent, cause := none, absentSince := some s.dev.uptime, misses := 0, jabStrikes := 0,
           dupStrikes := 0 } ∧
         (∀ h m, (h, m) ≠ (g, c.toNat) → t.dev.station h m = s.dev.station h m) ∧
         Touches (.answer :: Piece.directing) s.dev t.dev) ∧
     (e.state ≠ .quarantined →
       exec (.stationRelease b c) s = .next (s.withAnswer 0x17#8 .wrongState [])))

/-! ### The Line Monitor and the Line Probe -/

/-- COOLDOWN_EXPIRY of a COOLING segment: it goes to PROBING and its retry probe begins, or waits behind a manual
one. TRIAL_EXPIRY of a segment in TRIAL: it is ACTIVE with no attempt counted, and a pass that was IDLE falls due.
Rests on the model's choices: time (log entry 2). -/
def Obligations.SegmentTimersExpire : Prop :=
  (∀ (g : Seg) (s : State) (due : Nat), (s.dev.seg g).mon.state = .cooling →
     (s.dev.seg g).mon.cooldownTimer = some due →
     let now := max s.dev.clock due
     ∃ t, exec (.cooldownExpiry g) s = .next t ∧ t.pending = s.pending ∧ t.dev.clock = now ∧
       (t.dev.seg g).mon = { (s.dev.seg g).mon with state := .probing, cooldownTimer := none } ∧
       ((s.dev.seg g).probe.phase = .idle → (t.dev.seg g).probe.phase = .quietCheck ∧
         (t.dev.seg g).probe.trigger = .retry ∧ (t.dev.seg g).probe.onHold = false ∧
         (t.dev.seg g).probe.params = (s.dev.seg g).cfg.probeParams ∧ (t.dev.seg g).probe.checkStart = now) ∧
       ((s.dev.seg g).probe.phase ≠ .idle →
         (t.dev.seg g).probe = { (s.dev.seg g).probe with waitingReq := some .retry }) ∧
       (∀ h, h ≠ g → t.dev.seg h = s.dev.seg h) ∧ Touches [.clock, .mon, .txEnable, .probe] s.dev t.dev) ∧
  (∀ (g : Seg) (s : State) (due : Nat), (s.dev.seg g).mon.state = .trial → (s.dev.seg g).mon.trialTimer = some due →
     ∃ t, exec (.trialExpiry g) s = .next t ∧ t.pending = s.pending ∧ t.dev.clock = max s.dev.clock due ∧
       (t.dev.seg g).mon = { (s.dev.seg g).mon with state := .active, trialTimer := none, attempts := 0 } ∧
       (t.dev.seg g).txEnable = true ∧
       ((s.dev.seg g).disc.pass = .idle → (t.dev.seg g).disc.pass = .due ∧
         (t.dev.seg g).sched.holds = (s.dev.seg g).sched.holds ++ [.discovery]) ∧
       (s.dev.ev.events.length < 32 →
         ∃ e ∈ t.dev.ev.events, e.kind = .segRestored ∧ e.subject = .segment g) ∧
       (∀ h, h ≠ g → t.dev.seg h = s.dev.seg h) ∧
       Touches ([.clock, .mon, .txEnable, .disc, .sched] ++ Piece.raised) s.dev t.dev)

/-- A charge that carries an ACTIVE segment to its trip threshold trips it: one more attempt, COOLING while the
retry limit allows another try and LATCHED otherwise, the transmit enable off once no exchange is in flight, nothing
left to send, and its first trip recorded. The charge here is that of an unattributed JABBER. Rests on the model's
choices: time (log entry 2). -/
def Obligations.TripTakesTheSegmentOut : Prop :=
  ∀ (g : Seg) (dt : Nat) (s : State),
    let q := s.dev.seg g
    let attempts := min (q.mon.attempts + 1) 255
    let cools := q.cfg.retryLimit = 15 ∨ attempts ≤ q.cfg.retryLimit
    q.mon.state = .active → q.windowOpen = false → q.receiverClosed (s.dev.clock + dt) = false →
    q.exchangeInFlight = false → q.cfg.trip ≤ min (q.mon.strain + q.cfg.wJabber * min (min (q.mon.run + 1) 255) 8) 4095 → q.cfg.trip ≤ 4095 →
    (q.downq.map (·.fid)).Nodup →
    ∃ t, exec (.unattributedJabber g dt) s = .next t ∧ t.pending = s.pending ∧
      (cools → (t.dev.seg g).mon.state = .cooling ∧
        (t.dev.seg g).mon.cooldownTimer = some (s.dev.clock + dt + q.cfg.cooldown * Config.sec)) ∧
      (¬ cools → (t.dev.seg g).mon.state = .latched) ∧
      (t.dev.seg g).mon.attempts = attempts ∧ (t.dev.seg g).txEnable = false ∧ (t.dev.seg g).downq = [] ∧
      (t.dev.seg g).backoffs = [] ∧ (t.dev.seg g).sched.holds = [] ∧ (t.dev.seg g).sched.medium = none ∧
      (t.dev.seg g).sched.turn = none ∧ (t.dev.seg g).sched.cycle = .none ∧ (t.dev.seg g).disc.pass = .idle ∧
      (t.dev.seg g).disc.intervalTimer = none ∧
      (q.mon.record = none → ∃ r, (t.dev.seg g).mon.record = some r ∧ r.fromState = .active ∧
        r.lastCause = some .jabber ∧ r.attempts = attempts ∧ r.tripsSince = 0) ∧
      (∀ r, q.mon.record = some r →
        (t.dev.seg g).mon.record = some { r with tripsSince := min (r.tripsSince + 1) 255 }) ∧
      Touches (.clock :: Piece.monitoring) s.dev t.dev

/-- The steps of a probe on its segment: a quiet stretch of the quiet time ends the quiet check, carrier starts the
stretch again, and the next shot is launched 50 µs after the last, the transmit enable raised for it. A shot that is
not the last: an echo edge past the blank count, or a counter that runs out, is recorded in its place, the transmit
enable falls back to what the state and an exchange in flight ask, and the probe waits for its next launch. Rests on
the model's choices: time (log entry 2), how long a pulse and its capture stand (51). -/
def Obligations.ProbeStepsAdvance : Prop :=
  (∀ (g : Seg) (s : State),
     let p := (s.dev.seg g).probe
     let stretch := p.stretchStart + p.params.quietTime * Config.ms
     (p.phase = .quietCheck → stretch ≤ p.checkStart + 50 * Config.ms →
       ∃ t, exec (.quietStretch g) s = .next t ∧ t.pending = s.pending ∧ t.dev.clock = max s.dev.clock stretch ∧
         t.dev.seg g = { s.dev.seg g with probe := { p with phase := .dcMeasure } } ∧
         (∀ h, h ≠ g → t.dev.seg h = s.dev.seg h) ∧ Touches [.clock, .probe] s.dev t.dev) ∧
     (∀ dt, p.phase = .quietCheck →
       ∃ t, exec (.quietStretchBroken g dt) s = .next t ∧ t.pending = s.pending ∧
         t.dev.seg g = { s.dev.seg g with probe := { p with stretchStart := s.dev.clock + dt } } ∧
         (∀ h, h ≠ g → t.dev.seg h = s.dev.seg h) ∧ Touches [.clock, .probe] s.dev t.dev) ∧
     (p.phase = .shots → p.capturing = false → p.shots.length < 2 ^ p.params.shotExponent →
       let now := max s.dev.clock (p.launched + 50 * Config.us)
       ∃ t, exec (.shotFire g) s = .next t ∧ t.pending = s.pending ∧ t.dev.clock = now ∧
         t.dev.seg g = { s.dev.seg g with
           txEnable := true, probe := { p with capturing := true, launched := now } } ∧
         (∀ h, h ≠ g → t.dev.seg h = s.dev.seg h) ∧ Touches [.clock, .probe, .txEnable] s.dev t.dev)) ∧
  (∀ (g : Seg) (s : State),
     let p := (s.dev.seg g).probe
     let enable := s.dev.inService g || (s.dev.seg g).exchangeInFlight
     p.phase = .shots → p.capturing = true → p.shots.length + 1 < 2 ^ p.params.shotExponent →
     (∀ (count : BitVec 12) (pol : Polarity), p.params.blankCount < count.toNat → count.toNat < 4095 →
       ∃ t, exec (.shotEcho g count pol) s = .next t ∧ t.pending = s.pending ∧
         t.dev.clock = max s.dev.clock (p.launched + count.toNat) ∧
         t.dev.seg g = { s.dev.seg g with
           txEnable := enable
           probe := { p with shots := p.shots ++ [.edge pol count.toNat], capturing := false } } ∧
         (∀ h, h ≠ g → t.dev.seg h = s.dev.seg h) ∧ Touches [.clock, .probe, .txEnable] s.dev t.dev) ∧
     ∃ t, exec (.shotNone g) s = .next t ∧ t.pending = s.pending ∧
       t.dev.clock = max s.dev.clock (p.launched + 4095) ∧
       t.dev.seg g = { s.dev.seg g with
         txEnable := enable, probe := { p with shots := p.shots ++ [.none], capturing := false } } ∧
       (∀ h, h ≠ g → t.dev.seg h = s.dev.seg h) ∧ Touches [.clock, .probe, .txEnable] s.dev t.dev)

/-- The DC measurement gives a code, and the code its verdict: below dc low, from dc low to dc high, above dc high.
The code is kept whatever the verdict, and the probe goes to SHOTS in every case (R137); its first shot is fired at
once, the transmit enable raised for its pulse (R135, R138). Rests on the model's choices: time (log entry 2), how
long a pulse stands (51). -/
def Obligations.DcMeasurementGivesItsVerdict : Prop :=
  ∀ (g : Seg) (code : BitVec 10) (dt : Nat) (s : State), (s.dev.seg g).probe.phase = .dcMeasure →
    let p := (s.dev.seg g).probe
    (p.params.dcVerdict code.toNat = if code.toNat < p.params.dcLow then .low
      else if code.toNat ≤ p.params.dcHigh then .ok else .high) ∧
    ∃ t, exec (.dcMeasurement g code dt) s = .next t ∧ t.pending = s.pending ∧
      t.dev.clock = s.dev.clock + dt ∧
      t.dev.seg g = { s.dev.seg g with
        txEnable := true
        probe := { p with
          phase := .shots, dcCode := some code.toNat, shots := [], capturing := true, launched := t.dev.clock } } ∧
      (t.dev.partRecord g .fail).dcCode = some code.toNat ∧
      (t.dev.partRecord g .fail).dcVerdict = some (p.params.dcVerdict code.toNat) ∧
      (∀ h, h ≠ g → t.dev.seg h = s.dev.seg h) ∧ Touches [.clock, .probe, .txEnable] s.dev t.dev

/-- The shots are combined by polarity, a strict majority of all deciding, and the average is that of the majority's
counts, rounded to the nearest tick with halves up. -/
def Obligations.ShotsAreCombinedByMajority : Prop :=
  ∀ l : List Shot,
    let p := countPolarity .positive l
    let n := countPolarity .negative l
    let z := countNone l
    p + n + z = l.length ∧
    (2 * p > l.length → combineShots l = .openLine ∧ 2 * n ≤ l.length ∧ 2 * z ≤ l.length) ∧
    (2 * n > l.length → combineShots l = .short) ∧ (2 * z > l.length → combineShots l = .none) ∧
    (2 * p ≤ l.length → 2 * n ≤ l.length → 2 * z ≤ l.length → combineShots l = .unstable) ∧
    (echoAverage l = if 2 * p > l.length then
        some ((2 * ((l.filter (Shot.hasPolarity .positive)).map Shot.count).sum + p) / (2 * p))
      else if 2 * n > l.length then
        some ((2 * ((l.filter (Shot.hasPolarity .negative)).map Shot.count).sum + n) / (2 * n))
      else none)

/-- The distance, NEAR flag, echo class and pass of a finished probe, from its shots, its DC code and its settings,
with the shots fired and the counts of their classes. -/
def Obligations.ProbeRecordLocatesTheFault : Prop :=
  ∀ (g : Seg) (d : Dev),
    let p := (d.seg g).probe
    let r := d.fullRecord g
    p.phase = .shots →
    (∀ a, echoAverage p.shots = some a →
      r.average = some a ∧
      (a ≤ p.params.launchOffset → r.distance = some 0 ∧ r.near = true) ∧
      (p.params.launchOffset < a → r.near = false ∧ r.distance =
        some (min (((a - p.params.launchOffset) * p.params.coefficient + 128) / 256) 2047)) ∧
      (combineShots p.shots = .openLine → ∃ dist, r.distance = some dist ∧
        r.echo = some (if 0 < p.params.segmentLength ∧ p.params.segmentLength ≤ dist + 5 then .openEnd
          else .openLine))) ∧
    (echoAverage p.shots = none → r.average = none ∧ r.distance = none ∧ r.near = false ∧ r.tapBefore = none ∧
      r.tapAfter = none) ∧
    (combineShots p.shots ≠ .openLine → r.echo = some (combineShots p.shots)) ∧ r.quiet = some .quiet ∧
    (r.outcome = .pass ↔ (∃ c, p.dcCode = some c ∧ p.params.dcLow ≤ c ∧ c ≤ p.params.dcHigh) ∧
      combineShots p.shots = .none) ∧ r.outcome ≠ .aborted ∧
    r.fired = p.shots.length ∧ r.positives = some (countPolarity .positive p.shots) ∧
    r.negatives = some (countPolarity .negative p.shots) ∧ r.nones = some (countNone p.shots)

/-- JABBER_LINE ends a manual probe in its quiet check: its record says FAIL and JABBER_LINE with nothing measured,
the Line Probe is IDLE, and the segment's state is as it was. The last shot of a START probe on a STARTING segment,
all shots NONE and the DC code in its range: the probe passes, and the segment is ACTIVE without strain, its first
cycle started and a discovery pass due. Rests on the model's choices: time (log entry 2), the shots of a
probe that ends early (26), when PROBE_DONE is raised (27). -/
def Obligations.ProbesComplete : Prop :=
  (∀ (g : Seg) (s : State),
     let p := (s.dev.seg g).probe
     p.phase = .quietCheck → p.trigger = .manual → p.waitingReq = none →
     ∃ t r, exec (.jabberLine g) s = .next t ∧ t.pending = s.pending ∧
       t.dev.clock = max s.dev.clock (p.checkStart + 50 * Config.ms) ∧
       (t.dev.seg g).probe.phase = .idle ∧ (t.dev.seg g).probe.last = some r ∧ r.outcome = .fail ∧
       r.trigger = .manual ∧ r.uptime = s.dev.uptime ∧ r.quiet = some .jabberLine ∧ r.dcCode = none ∧ r.fired = 0 ∧
       r.positives = none ∧ r.negatives = none ∧ r.nones = none ∧ r.average = none ∧
       r.echo = none ∧ r.distance = none ∧
       (t.dev.seg g).mon = (s.dev.seg g).mon ∧
       (p.onHold = true → (s.dev.seg g).sched.medium = some .probe → (t.dev.seg g).sched.medium = none) ∧
       (∀ h, h ≠ g → t.dev.seg h = s.dev.seg h) ∧
       Touches ([.clock, .probe, .sched] ++ Piece.raised) s.dev t.dev) ∧
  (∀ (g : Seg) (s : State) (code : Nat),
     let p := (s.dev.seg g).probe
     p.phase = .shots → p.capturing = true → p.trigger = .start → p.waitingReq = none → p.onHold = false →
     p.dcCode = some code → p.params.dcLow ≤ code → code ≤ p.params.dcHigh →
     p.shots.length + 1 = 2 ^ p.params.shotExponent → (∀ x ∈ p.shots, x = .none) →
     (s.dev.seg g).mon.state = .starting → (s.dev.seg g).disc.pass = .idle →
     ∃ t r, exec (.shotNone g) s = .next t ∧ t.pending = s.pending ∧ (t.dev.seg g).probe.phase = .idle ∧
       (t.dev.seg g).probe.last = some r ∧ r.outcome = .pass ∧ r.echo = some .none ∧ r.dcVerdict = some .ok ∧
       (t.dev.seg g).mon = { (s.dev.seg g).mon with state := .active, strain := 0, run := 0 } ∧
       (t.dev.seg g).txEnable = true ∧
       (t.dev.seg g).sched.cycleStart = some t.dev.clock ∧ (t.dev.seg g).disc.pass = .due ∧
       (t.dev.seg g).sched.holds = (s.dev.seg g).sched.holds ++ [.discovery] ∧
       (∀ h, h ≠ g → t.dev.seg h = s.dev.seg h) ∧ Touches (.clock :: Piece.probing) s.dev t.dev)

/-! ### The Print Spooler and the Printer Feeder -/

/-- The blocks of a payload of 0 to 1024 bytes: a transit frame has the greater of 1 and ceil(len / 256), a spool
unit ceil(len / 256), none for an empty one; every block of a unit holds 1 to 256 bytes and they spell the unit in
its order. Responses, notices and SPOOL_ACKs have none. -/
def Obligations.PayloadsAreCutIntoBlocks : Prop :=
  ∀ (bs : List Byte) (d : Dev) (r : Running) (a b : Addr) (m : Mark) (u : Nat) (x : UnitAnswer),
    (transitBlocks bs).length = max 1 ((bs.length + 255) / 256) ∧
    (spoolBlocks bs).length = (bs.length + 255) / 256 ∧
    (∀ x ∈ spoolBlocks bs, 1 ≤ x.length ∧ x.length ≤ 256) ∧
    (spoolBlocks bs).flatten = bs ∧ (transitBlocks bs).flatten = bs ∧
    (d.response r).blocks = [] ∧ d.noticeFrame.blocks = [] ∧ (d.spoolAck a b m u x).blocks = []

/-- IDLE_CLOSE of an open job past the job idle time: a FILLING job becomes QUEUED with the next queued stamp, where
its printer is not IDLE; an ACTIVE job whose chain is empty, at a FEEDING printer with nothing ready, has its
zero-length end made ready. A job not past that time is left as it is. Rests on the model's choices: time (log entry
2), events that cannot happen (3), tests as commands of their own (10), a recorded time after the uptime (62). -/
def Obligations.IdleJobsAreClosed : Prop :=
  ∀ (id : Byte) (s : State) (j : Job), s.dev.jobById id.toNat = some j → s.dev.jobBySerial j.serial = some j →
    (j.isOpen = true → s.dev.set.jobIdle ≤ s.dev.uptime - j.lastArrival → j.state = .filling →
      (∀ p, s.dev.printer j.printer = some p → p.feed ≠ .idle) →
      ∃ t, exec (.idleClose id) s = .next t ∧ t.pending = s.pending ∧
        t.dev.jobBySerial j.serial =
          some { j with isOpen := false, state := .queued, stamp := some s.dev.spool.stampCounter } ∧
        t.dev.spool.stampCounter = (s.dev.spool.stampCounter + 1) % 4294967296 ∧
        t.dev.spool.nextId = s.dev.spool.nextId ∧
        (∀ m, m ≠ j.serial → t.dev.jobBySerial m = s.dev.jobBySerial m) ∧
        Touches [.jobs, .jobNames] s.dev t.dev) ∧
    (∀ p, j.isOpen = true → s.dev.set.jobIdle ≤ s.dev.uptime - j.lastArrival → j.state = .active →
      s.dev.activeJob j.printer = some j → s.dev.printer j.printer = some p → p.feed = .feeding → p.ready = none →
      j.chain = [] →
      ∃ t, exec (.idleClose id) s = .next t ∧ t.pending = s.pending ∧
        t.dev.jobBySerial j.serial = some { j with isOpen := false } ∧
        t.dev.printer j.printer = some { p with ready := some ⟨true, s.dev.clock⟩ } ∧
        (∀ m, m ≠ j.serial → t.dev.jobBySerial m = s.dev.jobBySerial m) ∧
        (∀ i, i ≠ j.printer → t.dev.printer i = s.dev.printer i) ∧ Touches [.jobs, .printers] s.dev t.dev) ∧
    (j.isOpen = false ∨ s.dev.uptime - j.lastArrival < s.dev.set.jobIdle → exec (.idleClose id) s = .next s)

/-- JOB_CANCEL: with no DELIVER of the job's item in flight the job ends CANCELLED at once, its blocks freed and its
summary placed; with one in flight the ending waits, and ENDING_AFTER_EXCHANGE applies it once the exchange has
ended. An id that no job has is NO_ENTRY. Rests on the model's choices: operations given alone and their answers
(log entry 47). -/
def Obligations.CancelledJobsEnd : Prop :=
  (∀ (id : Byte) (s : State) (j : Job), s.dev.jobById id.toNat = some j → s.dev.jobBySerial j.serial = some j →
    (s.dev.spool.jobs.map (·.serial)).Nodup →
    (s.dev.jobInFlight j.serial = false →
      ∃ t, exec (.jobCancel id) s = .next t ∧ t.pending = s.pending ∧
        t.dev.agent.answer = some ⟨0x18#8, .ok, []⟩ ∧ t.dev.jobBySerial j.serial = none ∧
        t.dev.spool.finished = addSummary s.dev.spool.finished
          ⟨j.id, j.printer, j.source, .cancelled, j.received, j.printed, s.dev.uptime⟩ ∧
        t.dev.pool.free = s.dev.pool.free + j.chain.length ∧ t.dev.pool.spool = s.dev.pool.spool - j.chain.length ∧
        t.dev.spool.endings = s.dev.spool.endings ∧ Touches (.answer :: Piece.spooling) s.dev t.dev) ∧
    (s.dev.jobInFlight j.serial = true →
      ∃ t, exec (.jobCancel id) s = .next t ∧ t.pending = s.pending ∧ t.dev.agent.answer = none ∧
        t.dev.spool.endings = s.dev.spool.endings ++ [⟨j.serial, .cancelled, .command⟩] ∧
        Touches [.endings, .answer] s.dev t.dev)) ∧
  (∀ (s : State) (j : Job) (o : JobOutcome) (w : Asker), s.dev.spool.endings = [⟨j.serial, o, w⟩] →
    s.dev.agent.running = none → s.dev.jobBySerial j.serial = some j → s.dev.jobInFlight j.serial = false →
    (s.dev.spool.jobs.map (·.serial)).Nodup →
    ∃ t, exec .endingAfterExchange s = .next t ∧ t.pending = s.pending ∧ t.dev.spool.endings = [] ∧
      t.dev.jobBySerial j.serial = none ∧
      t.dev.spool.finished = addSummary s.dev.spool.finished
        ⟨j.id, j.printer, j.source, o, j.received, j.printed, s.dev.uptime⟩ ∧
      t.dev.pool.free = s.dev.pool.free + j.chain.length ∧
      t.dev.agent.answer = (if w = .command then some ⟨0x18#8, .ok, []⟩ else s.dev.agent.answer) ∧
      Touches Piece.ending s.dev t.dev) ∧
  (∀ (id : Byte) (s : State), s.dev.jobById id.toNat = none →
    exec (.jobCancel id) s = .next (s.withAnswer 0x18#8 .noEntry []))

/-- PRINTER_DISABLE of an enabled printer: without an ACTIVE job it is DISABLED at once, with one when that job
ends. PRINTER_ENABLE of a DISABLED printer: without jobs it is IDLE with no failures counted, and with QUEUED jobs the
one of the lowest stamp becomes ACTIVE and, where the printer can be reached, is fed; an enabled printer is
WRONG_STATE. JOB_REDIRECT of a QUEUED job to an enabled printer that is neither IDLE nor LOST and has room: the job
is that printer's. Ids outside 0 to 7 are RANGE. Rests on the model's choices: operations given alone and their
answers (log entry 47). -/
def Obligations.PrintersAreEnabledAndDisabled : Prop :=
  ∀ (b : Byte) (s : State),
    (∀ p, b.toNat < 8 → s.dev.printer b.toNat = some p →
      (p.enabled = true → p.awaitingRole = false → s.dev.activeJob b.toNat = none →
        ∃ t, exec (.printerDisable b) s = .next t ∧ t.pending = s.pending ∧
          t.dev.agent.answer = some ⟨0x1B#8, .ok, []⟩ ∧
          t.dev.printer b.toNat =
            some { p with enabled := false, feed := .disabled, ready := none, holdTimer := none } ∧
          (∀ i, i ≠ b.toNat → t.dev.printer i = s.dev.printer i) ∧ Touches [.printers, .answer] s.dev t.dev) ∧
      (∀ j, p.enabled = true → s.dev.activeJob b.toNat = some j →
        ∃ t, exec (.printerDisable b) s = .next t ∧ t.pending = s.pending ∧
          t.dev.agent.answer = some ⟨0x1B#8, .ok, []⟩ ∧
          t.dev.printer b.toNat = some { p with enabled := false, disablePending := true } ∧
          (∀ i, i ≠ b.toNat → t.dev.printer i = s.dev.printer i) ∧ Touches [.printers, .answer] s.dev t.dev) ∧
      (p.enabled = false → p.feed = .disabled → s.dev.jobCount b.toNat = 0 →
        ∃ t, exec (.printerEnable b) s = .next t ∧ t.pending = s.pending ∧
          t.dev.agent.answer = some ⟨0x1A#8, .ok, []⟩ ∧
          t.dev.printer b.toNat =
            some { p with enabled := true, feed := .idle, disablePending := false, failCount := 0 } ∧
          (∀ i, i ≠ b.toNat → t.dev.printer i = s.dev.printer i) ∧ Touches [.printers, .answer] s.dev t.dev) ∧
      (∀ j, p.enabled = false → p.feed = .disabled → s.dev.printerReachable p = true →
        s.dev.activeJob b.toNat = none → s.dev.jobBySerial j.serial = some j → j.printer = b.toNat →
        j.state = .queued → j.isOpen = false → (s.dev.spool.jobs.map (·.serial)).Nodup →
        (∀ k ∈ s.dev.spool.jobs, k.printer = b.toNat → k.state = .queued → k ≠ j → jobBefore j k = true) →
        ∃ t, exec (.printerEnable b) s = .next t ∧ t.pending = s.pending ∧
          t.dev.agent.answer = some ⟨0x1A#8, .ok, []⟩ ∧
          t.dev.jobBySerial j.serial = some { j with state := .active } ∧
          t.dev.printer b.toNat = some { p with
            enabled := true, feed := .feeding, disablePending := false, failCount := 0, busyTimer := none
            ready := some ⟨j.chain.isEmpty, s.dev.clock⟩ } ∧
          (∀ m, m ≠ j.serial → t.dev.jobBySerial m = s.dev.jobBySerial m) ∧
          (∀ i, i ≠ b.toNat → t.dev.printer i = s.dev.printer i) ∧
          Touches [.printers, .jobs, .answer] s.dev t.dev) ∧
      (p.enabled = true → exec (.printerEnable b) s = .next (s.withAnswer 0x1A#8 .wrongState []))) ∧
    (∀ (c : Byte) (j : Job) (p : Printer), s.dev.jobById c.toNat = some j → s.dev.jobBySerial j.serial = some j →
      b.toNat < 8 → s.dev.printer b.toNat = some p → j.state = .queued → p.enabled = true → p.feed ≠ .lost →
      p.feed ≠ .idle → j.printer ≠ b.toNat → s.dev.jobCount b.toNat < p.jobLimit →
      ∃ t, exec (.jobRedirect c b) s = .next t ∧ t.pending = s.pending ∧
        t.dev.agent.answer = some ⟨0x19#8, .ok, []⟩ ∧
        t.dev.jobBySerial j.serial = some { j with printer := b.toNat } ∧
        (∀ m, m ≠ j.serial → t.dev.jobBySerial m = s.dev.jobBySerial m) ∧ Touches [.jobs, .answer] s.dev t.dev) ∧
    (8 ≤ b.toNat → exec (.printerDisable b) s = .next (s.withAnswer 0x1B#8 .range []) ∧
      exec (.printerEnable b) s = .next (s.withAnswer 0x1A#8 .range []) ∧
      ∀ c, exec (.jobRedirect c b) s = .next (s.withAnswer 0x19#8 .range []))

/-- ROLE_SET of a printer that awaits its station's role, with no DELIVER that its flushes wait for in flight and no
job yet: the station is a PRINTER, the printer is IDLE, or DISABLED where it is not enabled, and no frame for the
station and no broadcast stays on the segment's queue. Rests on the model's choices: when the role is set (log entry
24), the flushes made again there (77). -/
def Obligations.PrinterTakesItsStation : Prop :=
  ∀ (i : Nat) (s : State) (p : Printer) (e : Station), s.dev.printer i = some p → p.awaitingRole = true →
    p.feed = .lost → (s.dev.seg p.seg).flushPending p.number = false → s.dev.station p.seg p.number = some e →
    s.dev.stationById e.eid = some e → s.dev.jobCount i = 0 → ((s.dev.seg p.seg).downq.map (·.fid)).Nodup →
    ∃ t, exec (.roleSet i) s = .next t ∧ t.pending = s.pending ∧
      t.dev.stationById e.eid = some { e with role := .printer } ∧
      (∀ m, m ≠ e.eid → t.dev.stationById m = s.dev.stationById m) ∧
      t.dev.printer i = some { p with
        awaitingRole := false, feed := if p.enabled = true then .idle else .disabled, ready := none, sentMark := none,
        failCount := 0, busyTimer := none, holdTimer := none, disablePending := false } ∧
      (∀ f ∈ (t.dev.seg p.seg).downq, f.dest ≠ p.number ∧ f.dest ≠ 255) ∧
      (∀ h, h ≠ p.seg → (t.dev.seg h).downq = (s.dev.seg h).downq) ∧
      Touches (.stations :: Piece.flushing) s.dev t.dev

/-- BUSY_RETRY_EXPIRY of a WAIT_READY printer: it is FEEDING, and the head block of its ACTIVE job's chain is ready
again. HOLD_TIMER_EXPIRY of a LOST printer, none of whose jobs has a DELIVER in flight: every job of the printer has
ended. Rests on the model's choices: time (log entry 2). -/
def Obligations.PrinterTimersExpire : Prop :=
  (∀ (i : Nat) (s : State) (p : Printer) (due : Nat) (j : Job), s.dev.printer i = some p → p.feed = .waitReady →
    p.busyTimer = some due → s.dev.activeJob i = some j → j.chain ≠ [] →
    ∃ t, exec (.busyRetryExpiry i) s = .next t ∧ t.pending = s.pending ∧ t.dev.clock = max s.dev.clock due ∧
      t.dev.printer i = some { p with
        feed := .feeding, busyTimer := none, ready := some ⟨false, max s.dev.clock due⟩ } ∧
      (∀ k, k ≠ i → t.dev.printer k = s.dev.printer k) ∧ Touches [.clock, .printers] s.dev t.dev) ∧
  (∀ (i : Nat) (s : State) (p : Printer) (due : Nat), s.dev.printer i = some p → p.feed = .lost →
    p.holdTimer = some due → (s.dev.spool.jobs.map (·.serial)).Nodup →
    (∀ j ∈ s.dev.spool.jobs, j.printer = i → s.dev.jobInFlight j.serial = false) →
    ∃ t q, exec (.holdTimerExpiry i) s = .next t ∧ t.pending = s.pending ∧ t.dev.clock = max s.dev.clock due ∧
      t.dev.printer i = some q ∧ q.holdTimer = none ∧ q.seg = p.seg ∧ q.number = p.number ∧ q.enabled = p.enabled ∧
      (∀ j ∈ t.dev.spool.jobs, j.printer ≠ i) ∧
      (∀ j ∈ s.dev.spool.jobs, j.printer ≠ i → ∃ k ∈ t.dev.spool.jobs, k.serial = j.serial ∧ k.chain = j.chain) ∧
      (s.dev.jobCount i = 0 → Touches [.clock, .printers] s.dev t.dev) ∧
      Touches (.clock :: .endings :: Piece.spooling) s.dev t.dev)

/-! ### The Management Agent -/

/-- RUN_REQUEST of a request of one READ, or of one IDENT, in a part with its lists within their capacities, on an UP
link with room: the request leaves the queue, and one response with the operation's result goes to the requester's
address with its tag. Rests on the model's choices: time (log entry 2), one step for a request (9). -/
def Obligations.RequestsAreAnswered : Prop :=
  ∀ (dt : Nat) (s : State) (q : Request) (qs : List Request), s.dev.agent.running = none →
    s.dev.agent.queue = q :: qs → ListsOk s.dev → s.dev.up.link = true → s.dev.up.queue.length < 63 →
    let d := s.dev.elapse dt
    let reply := fun (r : OpResult) =>
      ({ kind := .response, dst := q.src, src := s.dev.set.base + 1023#48, etherType := s.dev.set.mgmtType,
         body := mgmtHeader q.tag.toNat 2 1 r.bytes.length ++ r.bytes, blocks := [] } : UpFrame)
    (∀ table index, q.ops = [⟨0x01#8, [table, index]⟩] →
      ∃ t, exec (.runRequest dt) s = .next t ∧ t.pending = s.pending ∧ t.dev.agent.queue = qs ∧
        t.dev.agent.running = none ∧
        t.dev.up.queue =
          s.dev.up.queue ++ [reply ⟨0x01#8, (d.readOp table index).2.1, (d.readOp table index).2.2⟩] ∧
        Touches [.clock, .requests, .upQueue, .transmit] s.dev t.dev) ∧
    (q.ops = [⟨0x21#8, []⟩] →
      ∃ t, exec (.runRequest dt) s = .next t ∧ t.pending = s.pending ∧ t.dev.agent.queue = qs ∧
        t.dev.agent.running = none ∧ t.dev.up.queue = s.dev.up.queue ++ [reply ⟨0x21#8, .ok,
          be 2 0x5C21 ++ be 2 s.dev.agent.identity.part.toNat ++ be 1 s.dev.agent.identity.revision.toNat ++
          be 6 s.dev.agent.identity.base.toNat ++ be 4 s.dev.uptime⟩] ∧
        Touches [.clock, .requests, .upQueue, .transmit] s.dev t.dev)

/-- READ moves nothing but the answer: OK with every field of the entry that the index names, NO_ENTRY where there
is none, RANGE past the table's indices and UNKNOWN_TABLE for a code that names no table. The jobs stand in ascending
id. Rests on the model's choices: operations given alone and their answers (log entry 47), the timer left of a LOST
printer (54), the byte of the NEAR flag (79). -/
def Obligations.ReadAnswersTheEntry : Prop :=
  ∀ (table index : Byte) (s : State),
    let reads := fun (st : Status) (bs : List Byte) =>
      exec (.read table index) s = .next (s.withAnswer 0x01#8 st bs)
    (table.toNat = 0 ∨ 9 < table.toNat → reads .unknownTable []) ∧
    (∀ t, Table.ofCode table = some t → t.indices ≤ index.toNat → reads .range []) ∧
    (table = 3#8 → (∀ e, s.dev.stations[index.toNat]? = some e → reads .ok (fieldList 1 e.values)) ∧
      (s.dev.stations[index.toNat]? = none → reads .noEntry [])) ∧
    (table = 2#8 → ∀ g, segOf index.toNat = some g → reads .ok (fieldList 1 (s.dev.segmentValues g))) ∧
    (table = 4#8 → index.toNat < 128 →
      (∀ a, s.dev.aliases[index.toNat]? = some a → reads .ok (fieldList 1 a.values)) ∧
      (s.dev.aliases[index.toNat]? = none → reads .noEntry [])) ∧
    (table = 5#8 → index.toNat < 8 →
      (∀ p, s.dev.printer index.toNat = some p → reads .ok (fieldList 1 (s.dev.printerValues index.toNat p))) ∧
      (s.dev.printer index.toNat = none → reads .noEntry [])) ∧
    (table = 1#8 → index = 0#8 → reads .ok (fieldList 1 s.dev.settingsValues)) ∧
    (table = 6#8 → index.toNat < 32 →
      (∀ j, s.dev.jobsById[index.toNat]? = some j → reads .ok (fieldList 1 j.values)) ∧
      (s.dev.jobsById[index.toNat]? = none → reads .noEntry [])) ∧
    s.dev.jobsById.Perm s.dev.spool.jobs ∧ s.dev.jobsById.Pairwise (fun a b => a.id ≤ b.id) ∧
    (table = 7#8 → index.toNat < 16 →
      (∀ x, s.dev.spool.finished[index.toNat]? = some x → reads .ok (fieldList 1 x.values)) ∧
      (s.dev.spool.finished[index.toNat]? = none → reads .noEntry [])) ∧
    (table = 9#8 → ∀ g, segOf index.toNat = some g →
      (∀ r, (s.dev.seg g).mon.record = some r → reads .ok (fieldList 1 (r.values g))) ∧
      ((s.dev.seg g).mon.record = none → reads .noEntry [])) ∧
    (table = 8#8 → ∀ g, segOf index.toNat = some g →
      (∀ r, (s.dev.seg g).probe.last = some r → reads .ok (fieldList 1 r.values)) ∧
      ((s.dev.seg g).probe.last = none → reads .noEntry []))

/-- WRITE of the SETTINGS entry, the base address kept: a sound field list is taken, the coax floor and the stream
blocks clamped to their ranges, and the answer returns the values stored; an unsound one, or one that would break a
rule of the settings, is RANGE and nothing changes, a base address with one of its low 10 bits set among them. A new
base address is IN_USE, and nothing changes, where a STATIC alias names an address of its proxy range; otherwise it is
taken and the DYNAMIC aliases of such addresses are withdrawn. Rests on the model's choices: the order of refusals
(log entry 35), a field named twice (38), operations given alone and their answers (47). -/
def Obligations.SettingsAreWritten : Prop :=
  ∀ (w : List Field) (s : State),
    let new := s.dev.set.written w
    (fieldsSound settingsSpec w = true → new.sound = true → s.dev.pool.spool ≤ new.spoolQuota →
      new.base = s.dev.set.base →
      ∃ t, exec (.writeSettings 0#8 w) s = .next t ∧ exec (.write 1#8 0#8 w) s = .next t ∧ t.pending = s.pending ∧
        t.dev.set = new ∧
        t.dev.agent.answer =
          some ⟨0x02#8, writeStatus settingsSpec w, fieldResults settingsSpec w t.dev.settingsValues⟩ ∧
        (namesAny w [4, 7, 8, 10, 11, 13, 14, 15, 16, 17, 18] = false → Touches [.settings, .answer] s.dev t.dev) ∧
        Touches (.settings :: .answer :: Piece.directing) s.dev t.dev) ∧
    (fieldsSound settingsSpec w = true → new.sound = true → s.dev.pool.spool ≤ new.spoolQuota →
      new.base ≠ s.dev.set.base →
      ((∃ a ∈ s.dev.aliases, a.kind = .static ∧ inProxy new.base a.target = true) →
        exec (.writeSettings 0#8 w) s = .next (s.withAnswer 0x02#8 .inUse []) ∧
        exec (.write 1#8 0#8 w) s = .next (s.withAnswer 0x02#8 .inUse [])) ∧
      ((∀ a ∈ s.dev.aliases, a.kind = .static → inProxy new.base a.target = false) →
        namesAny w [4, 7, 8, 10, 11, 13, 14, 15, 16, 17, 18] = false →
        ∃ t, exec (.writeSettings 0#8 w) s = .next t ∧ exec (.write 1#8 0#8 w) s = .next t ∧ t.pending = s.pending ∧
          t.dev.set = new ∧
          (∀ a, a ∈ t.dev.aliases ↔ a ∈ s.dev.aliases ∧ ¬ (a.kind = .dynamic ∧ inProxy new.base a.target = true)) ∧
          t.dev.agent.answer =
            some ⟨0x02#8, writeStatus settingsSpec w, fieldResults settingsSpec w t.dev.settingsValues⟩ ∧
          Touches [.settings, .aliases, .answer] s.dev t.dev)) ∧
    (new.base.toNat % 1024 ≠ 0 → new.sound = false) ∧
    (∀ v, given w 2 = some v → new.coaxFloor = max 0 (min (ofBe v) 512)) ∧
    (∀ v, given w 14 = some v → new.streamBlocks = max 1 (min (ofBe v) 256)) ∧
    (given w 2 = none → new.coaxFloor = s.dev.set.coaxFloor) ∧
    (fieldsSound settingsSpec w = false ∨ new.sound = false ∨ new.spoolQuota < s.dev.pool.spool →
      exec (.writeSettings 0#8 w) s = .next (s.withAnswer 0x02#8 .range []) ∧
      exec (.write 1#8 0#8 w) s = .next (s.withAnswer 0x02#8 .range []))

/-- WRITE of a SEGMENT entry: a sound field list is taken, a cycle floor at once where the segment is out of
service, and an alias range withdraws the segment's DYNAMIC aliases outside it; one that breaks a rule is RANGE and
nothing changes. Rests on the model's choices: a field named twice (log entry 38), operations given alone and their
answers (47). -/
def Obligations.SegmentsAreWritten : Prop :=
  ∀ (i : Byte) (g : Seg) (w : List Field) (s : State), segOf i.toNat = some g →
    let q := s.dev.seg g
    let new := q.cfg.written w
    (fieldsSound segmentSpec w = true → new.sound g = true →
      ∃ t, exec (.writeSegment i w) s = .next t ∧ exec (.write 2#8 i w) s = .next t ∧ t.pending = s.pending ∧
        t.dev.seg g = { q with
          cfg := new
          sched := { q.sched with
            floorInEffect := if names w 3 = true ∧ s.dev.inService g = false then new.cycleFloor
              else q.sched.floorInEffect } } ∧
        (names w 11 = true ∨ names w 12 = true → ∀ a, a ∈ t.dev.aliases ↔ a ∈ s.dev.aliases ∧
          ¬ (a.kind = .dynamic ∧ a.seg = g ∧ (a.number < new.aliasLow ∨ new.aliasHigh < a.number))) ∧
        (names w 11 = false → names w 12 = false → t.dev.aliases = s.dev.aliases) ∧
        t.dev.agent.answer =
          some ⟨0x02#8, writeStatus segmentSpec w, fieldResults segmentSpec w (t.dev.segmentValues g)⟩ ∧
        (∀ h, h ≠ g → t.dev.seg h = s.dev.seg h) ∧ Touches [.cfg, .sched, .aliases, .answer] s.dev t.dev) ∧
    (∀ v, given w 9 = some v → new.discoveryInterval = max 10 (min (ofBe v) 3600)) ∧
    (fieldsSound segmentSpec w = false ∨ new.sound g = false →
      exec (.writeSegment i w) s = .next (s.withAnswer 0x02#8 .range []) ∧
      exec (.write 2#8 i w) s = .next (s.withAnswer 0x02#8 .range []))

/-- WRITE of the STATION table creates an ABSENT, CONFIGURED TERMINAL at a free segment and number, and changes the
weight and tap distance of a standing entry that it leaves CONFIGURED; DELETE removes an entry that no printer
names, is IN_USE for one that a printer names, and NO_ENTRY past the table's end. Rests on the model's choices: a
field named twice (log entry 38), operations given alone and their answers (47). -/
def Obligations.StationsAreWrittenAndDeleted : Prop :=
  (∀ (i : Byte) (w : List Field) (s : State) (g : Seg) (n : Nat) (sv nv : List Byte),
    fieldsSound stationSpec w = true → natOr w 5 0 ≤ 1 → s.dev.stations[i.toNat]? = none → given w 1 = some sv →
    given w 2 = some nv → segOf (ofBe sv) = some g → ofBe nv = n → 1 ≤ n → n ≤ 254 → s.dev.station g n = none →
    s.dev.stations.length < 256 →
    ∃ t e, exec (.writeStation i w) s = .next t ∧ exec (.write 3#8 i w) s = .next t ∧ t.pending = s.pending ∧
      t.dev.station g n = some e ∧ e.state = .absent ∧ e.absentSince = some s.dev.uptime ∧ e.role = .terminal ∧
      (given w 5 = none → e.origin = .configured) ∧ (given w 7 = none → e.weight = 4) ∧
      (∀ v, given w 7 = some v → e.weight = min (ofBe v) 15) ∧ (given w 8 = none → e.tap = none) ∧
      e.misses = 0 ∧ e.lastSeq = none ∧ e.pendingAck = .none ∧ e.nextBit = false ∧ e.lastHeard = none ∧
      (∀ h m, (h, m) ≠ (g, n) → t.dev.station h m = s.dev.station h m) ∧
      (s.dev.aliasAt g n = none → t.dev.aliases = s.dev.aliases) ∧
      t.dev.agent.answer = some ⟨0x02#8, writeStatus stationSpec w, fieldResults stationSpec w e.values⟩ ∧
      Touches (.stations :: .names :: .answer :: Piece.aliasing) s.dev t.dev) ∧
  (∀ (i : Byte) (w : List Field) (s : State) (e : Station), StationsOk s.dev → fieldsSound stationSpec w = true →
    natOr w 5 e.origin.code = 1 → s.dev.stations[i.toNat]? = some e → given w 1 = none → given w 2 = none →
    1 ≤ e.number → e.number ≤ 254 →
    ∃ t, exec (.writeStation i w) s = .next t ∧ exec (.write 3#8 i w) s = .next t ∧ t.pending = s.pending ∧
      t.dev.station e.seg e.number = some { e with
        origin := .configured, weight := clampedOr w 7 0 15 e.weight, tap := tapOr w e.tap } ∧
      (∀ h m, (h, m) ≠ (e.seg, e.number) → t.dev.station h m = s.dev.station h m) ∧
      Touches [.stations, .answer] s.dev t.dev) ∧
  (∀ (i : Byte) (s : State),
    (∀ e, StationsOk s.dev → s.dev.stations[i.toNat]? = some e → s.dev.printerAt e.seg e.number = none →
      ∃ t, exec (.deleteStation i) s = .next t ∧ exec (.delete 3#8 i) s = .next t ∧ t.pending = s.pending ∧
        t.dev.agent.answer = some ⟨0x03#8, .ok, []⟩ ∧ t.dev.station e.seg e.number = none ∧
        (∀ h m, (h, m) ≠ (e.seg, e.number) → t.dev.station h m = s.dev.station h m) ∧
        Touches (.answer :: Piece.directing) s.dev t.dev) ∧
    (∀ e k, s.dev.stations[i.toNat]? = some e → s.dev.printerAt e.seg e.number = some k →
      exec (.deleteStation i) s = .next (s.withAnswer 0x03#8 .inUse [])) ∧
    (s.dev.stations[i.toNat]? = none → exec (.deleteStation i) s = .next (s.withAnswer 0x03#8 .noEntry [])))

/-- WRITE of the ALIAS table into a free place, nothing refused and with room: the STATIC alias stands ACTIVE with
the current uptime, and the segment's DYNAMIC aliases that hold its number or name its target are withdrawn. DELETE
withdraws the alias of an index, NO_ENTRY where there is none. Rests on the model's choices: a field named twice
(log entry 38), operations given alone and their answers (47). -/
def Obligations.AliasesAreWrittenAndDeleted : Prop :=
  (∀ (i : Byte) (w : List Field) (s : State) (g : Seg) (n : Nat) (x : Target), i.toNat < 128 →
    fieldsSound aliasSpec w = true → natOr w 3 0 = 0 → s.dev.aliases[i.toNat]? = none →
    askedAlias w none = some (g, n, x) → 1 ≤ n → n ≤ 254 → targetOk s.dev.set.base g x = true →
    s.dev.aliasRefused none g n x = none → s.dev.aliases.length < 128 →
    let a : AliasEntry := ⟨g, n, .static, x, .active, s.dev.uptime, s.dev.uptime⟩
    ∃ t, exec (.writeAlias i w) s = .next t ∧ exec (.write 4#8 i w) s = .next t ∧ t.pending = s.pending ∧
      t.dev.aliasAt g n = some a ∧
      (∀ b, b ∈ t.dev.aliases ↔ b = a ∨ b ∈ s.dev.aliases ∧
        ¬ (b.kind = .dynamic ∧ b.seg = g ∧ (b.number = n ∨ b.target = x))) ∧
      t.dev.agent.answer = some ⟨0x02#8, writeStatus aliasSpec w, fieldResults aliasSpec w a.values⟩ ∧
      Touches [.aliases, .answer] s.dev t.dev) ∧
  (∀ (i : Byte) (s : State), i.toNat < 128 →
    (∀ a, s.dev.aliases[i.toNat]? = some a →
      ∃ t, exec (.deleteAlias i) s = .next t ∧ exec (.delete 4#8 i) s = .next t ∧ t.pending = s.pending ∧
        t.dev.agent.answer = some ⟨0x03#8, .ok, []⟩ ∧
        (∀ b, b ∈ t.dev.aliases ↔ b ∈ s.dev.aliases ∧ ¬ (b.seg = a.seg ∧ b.number = a.number)) ∧
        Touches [.aliases, .answer] s.dev t.dev) ∧
    (s.dev.aliases[i.toNat]? = none → exec (.deleteAlias i) s = .next (s.withAnswer 0x03#8 .noEntry [])))

/-- WRITE of the PRINTER table at a free id, naming a station that no printer names: the entry stands enabled and
LOST until the station's role is set, with its numbers clamped or at their defaults, and the frames for the station
and the segment's broadcasts are flushed, or marked where one is being sent. DELETE of an entry without jobs returns
its station to role TERMINAL. Rests on the model's choices: a field named twice (log entry 38), operations given
alone and their answers (47). -/
def Obligations.PrintersAreWrittenAndDeleted : Prop :=
  (∀ (i : Byte) (w : List Field) (s : State) (v : List Byte) (g : Seg) (n : Nat) (e : Station), i.toNat < 8 →
    s.dev.spool.printers.length = 8 → fieldsSound printerSpec w = true → given w 1 = some v →
    segOf (v.getD 0 0#8).toNat = some g → (v.getD 1 0#8).toNat = n → 1 ≤ n → n ≤ 254 →
    s.dev.printer i.toNat = none → s.dev.station g n = some e → s.dev.printerAt g n = none →
    ((s.dev.seg g).downq.map (·.fid)).Nodup →
    ∃ t p, exec (.writePrinter i w) s = .next t ∧ exec (.write 5#8 i w) s = .next t ∧ t.pending = s.pending ∧
      t.dev.printer i.toNat = some p ∧ p.seg = g ∧ p.number = n ∧ p.enabled = true ∧ p.feed = .lost ∧
      p.awaitingRole = true ∧ p.holdTimer = none ∧ p.jobLimit = clampedOr w 3 1 8 8 ∧
      p.holdTime = clampedOr w 4 10 3600 600 ∧ p.busyRetry = clampedOr w 5 50 5000 200 ∧
      p.lostLimit = clampedOr w 6 1 15 5 ∧
      (∀ f ∈ (t.dev.seg g).downq, f.dest = n ∨ f.dest = 255 → f.flushMark = true) ∧
      t.dev.agent.answer = some ⟨0x02#8, writeStatus printerSpec w,
        fieldResults printerSpec w (t.dev.printerValuesAt i.toNat)⟩ ∧
      Touches (.answer :: Piece.flushing) s.dev t.dev) ∧
  (∀ (i : Byte) (s : State),
    (∀ p e, i.toNat < 8 → StationsOk s.dev → s.dev.printer i.toNat = some p → s.dev.jobCount i.toNat = 0 →
      s.dev.station p.seg p.number = some e → e.origin = .configured →
      ∃ t, exec (.deletePrinter i) s = .next t ∧ exec (.delete 5#8 i) s = .next t ∧ t.pending = s.pending ∧
        t.dev.agent.answer = some ⟨0x03#8, .ok, []⟩ ∧ t.dev.printer i.toNat = none ∧
        t.dev.station p.seg p.number = some { e with role := .terminal } ∧
        (∀ k, k ≠ i.toNat → t.dev.printer k = s.dev.printer k) ∧
        (∀ h m, (h, m) ≠ (p.seg, p.number) → t.dev.station h m = s.dev.station h m) ∧
        Touches [.printers, .stations, .answer] s.dev t.dev) ∧
    (∀ p, i.toNat < 8 → s.dev.printer i.toNat = some p → 0 < s.dev.jobCount i.toNat →
      exec (.deletePrinter i) s = .next (s.withAnswer 0x03#8 .inUse [])) ∧
    (8 ≤ i.toNat → exec (.deletePrinter i) s = .next (s.withAnswer 0x03#8 .range [])))

/-- SEG_ENABLE of a DOWN segment: it is STARTING with a START probe begun, or waiting behind a manual one; in any
other state it is WRONG_STATE. SEG_DISABLE in any state: the segment is DOWN with its turn, its frames, its strain
and its timers gone, its probe ended and nothing of it left in service. Rests on the model's choices: time (log
entry 2), operations given alone and their answers (47). -/
def Obligations.SegmentsAreEnabledAndDisabled : Prop :=
  ∀ (b : Byte) (s : State) (g : Seg), segOf b.toNat = some g →
    let q := s.dev.seg g
    (q.mon.state = .down →
      ∃ t, exec (.segEnable b) s = .next t ∧ t.pending = s.pending ∧ t.dev.agent.answer = some ⟨0x10#8, .ok, []⟩ ∧
        (t.dev.seg g).cfg = { q.cfg with enabled := true } ∧ (t.dev.seg g).mon = { q.mon with state := .starting } ∧
        (q.probe.phase = .idle → (t.dev.seg g).probe = { q.probe with
          phase := .quietCheck, trigger := .start, onHold := false, params := q.cfg.probeParams,
          checkStart := s.dev.clock, stretchStart := s.dev.clock, dcCode := none, shots := [], capturing := false }) ∧
        (q.probe.phase ≠ .idle → (t.dev.seg g).probe = { q.probe with waitingReq := some .start }) ∧
        (∀ h, h ≠ g → t.dev.seg h = s.dev.seg h) ∧ Touches [.cfg, .mon, .txEnable, .probe, .answer] s.dev t.dev) ∧
    (q.mon.state ≠ .down → exec (.segEnable b) s = .next (s.withAnswer 0x10#8 .wrongState [])) ∧
    ((q.downq.map (·.fid)).Nodup →
      ∃ t, exec (.segDisable b) s = .next t ∧ t.pending = s.pending ∧ t.dev.agent.answer = some ⟨0x11#8, .ok, []⟩ ∧
        (t.dev.seg g).cfg = { q.cfg with enabled := false } ∧
        (t.dev.seg g).mon = { q.mon with
          state := .down, strain := 0, run := 0, attempts := 0, cooldownTimer := none, trialTimer := none } ∧
        (t.dev.seg g).txEnable = false ∧ (t.dev.seg g).sched.turn = none ∧ (t.dev.seg g).downq = [] ∧
        (t.dev.seg g).backoffs = [] ∧ (t.dev.seg g).probe.phase = .idle ∧ (t.dev.seg g).probe.waitingReq = none ∧
        (s.dev.inService g = true → (t.dev.seg g).sched.holds = [] ∧ (t.dev.seg g).sched.medium = none ∧
          (t.dev.seg g).sched.cycle = .none ∧ (t.dev.seg g).disc.pass = .idle ∧
          (t.dev.seg g).disc.intervalTimer = none ∧ (t.dev.seg g).disc.run = none) ∧
        (∀ h, h ≠ g → (t.dev.seg h).cfg = (s.dev.seg h).cfg ∧ (t.dev.seg h).mon = (s.dev.seg h).mon ∧
          (t.dev.seg h).probe = (s.dev.seg h).probe ∧ (t.dev.seg h).downq = (s.dev.seg h).downq) ∧
        Touches Piece.commanding s.dev t.dev)

/-- SEG_RESTORE of a COOLING, PROBING, TRIAL or LATCHED segment: STARTING with no attempt counted and no timer
running, its probe begun anew; elsewhere WRONG_STATE. SEG_PROBE of an IDLE Line Probe: in service it waits for the
medium behind the holds, in DOWN, COOLING and LATCHED its quiet check begins, and in STARTING and PROBING it is
WRONG_STATE. SEG_CLEAR_RECORD empties the isolation record, the peak strain and the recent failures. A number
outside 0 to 3 is RANGE for each. Rests on the model's choices: time (log entry 2), SEG_RESTORE (25), operations
given alone and their answers (47). -/
def Obligations.SegmentsAreRestoredAndProbed : Prop :=
  ∀ (b : Byte) (s : State),
    (∀ g, segOf b.toNat = some g →
      let q := s.dev.seg g
      (q.mon.state = .cooling ∨ q.mon.state = .probing ∨ q.mon.state = .trial ∨ q.mon.state = .latched →
        ∃ t, exec (.segRestore b) s = .next t ∧ t.pending = s.pending ∧
          t.dev.agent.answer = some ⟨0x12#8, .ok, []⟩ ∧
          (t.dev.seg g).mon = { q.mon with
            state := .starting, attempts := 0, cooldownTimer := none, trialTimer := none } ∧
          (t.dev.seg g).probe.phase = .quietCheck ∧ (t.dev.seg g).probe.trigger = .start ∧
          (t.dev.seg g).probe.onHold = false ∧ (t.dev.seg g).probe.checkStart = s.dev.clock ∧
          (t.dev.seg g).cfg = q.cfg ∧ Touches (.answer :: Piece.monitoring) s.dev t.dev) ∧
      (q.mon.state = .down ∨ q.mon.state = .starting ∨ q.mon.state = .active ∨ q.mon.state = .strained →
        exec (.segRestore b) s = .next (s.withAnswer 0x12#8 .wrongState [])) ∧
      (q.probe.phase = .idle → q.probe.waitingReq = none →
        q.mon.state = .active ∨ q.mon.state = .strained ∨ q.mon.state = .trial →
        ∃ t, exec (.segProbe b) s = .next t ∧ t.pending = s.pending ∧ t.dev.agent.answer = some ⟨0x13#8, .ok, []⟩ ∧
          t.dev.seg g = { q with
            probe := { q.probe with phase := .waiting, trigger := .manual, onHold := false }
            sched := { q.sched with holds := q.sched.holds ++ [.probe] } } ∧
          (∀ h, h ≠ g → t.dev.seg h = s.dev.seg h) ∧ Touches [.probe, .sched, .answer] s.dev t.dev) ∧
      (q.probe.phase = .idle → q.probe.waitingReq = none →
        q.mon.state = .down ∨ q.mon.state = .cooling ∨ q.mon.state = .latched →
        ∃ t, exec (.segProbe b) s = .next t ∧ t.pending = s.pending ∧ t.dev.agent.answer = some ⟨0x13#8, .ok, []⟩ ∧
          t.dev.seg g = { q with probe := { q.probe with
            phase := .quietCheck, trigger := .manual, onHold := false, params := q.cfg.probeParams,
            checkStart := s.dev.clock, stretchStart := s.dev.clock, dcCode := none, shots := [],
            capturing := false } } ∧
          (∀ h, h ≠ g → t.dev.seg h = s.dev.seg h) ∧ Touches [.probe, .answer] s.dev t.dev) ∧
      (q.probe.phase ≠ .idle ∨ q.probe.waitingReq ≠ none ∨ q.mon.state = .starting ∨ q.mon.state = .probing →
        exec (.segProbe b) s = .next (s.withAnswer 0x13#8 .wrongState [])) ∧
      ∃ t, exec (.segClearRecord b) s = .next t ∧ t.pending = s.pending ∧
        t.dev.agent.answer = some ⟨0x15#8, .ok, []⟩ ∧
        t.dev.seg g = { q with mon := { q.mon with record := none, peak := 0, recent := [] } } ∧
        (∀ h, h ≠ g → t.dev.seg h = s.dev.seg h) ∧ Touches [.mon, .answer] s.dev t.dev) ∧
    (segOf b.toNat = none →
      exec (.segEnable b) s = .next (s.withAnswer 0x10#8 .range []) ∧
      exec (.segDisable b) s = .next (s.withAnswer 0x11#8 .range []) ∧
      exec (.segRestore b) s = .next (s.withAnswer 0x12#8 .range []) ∧
      exec (.segProbe b) s = .next (s.withAnswer 0x13#8 .range []) ∧
      exec (.segClearRecord b) s = .next (s.withAnswer 0x15#8 .range []))

/-- CONFIG_SAVE takes an image of the tables as they stand and begins to store it; a second one before
STORE_COMPLETE is WRONG_STATE. STORE_COMPLETE leaves the image in the flash where it succeeded, and no usable image
where it failed, and raises STORE_DONE or STORE_FAILED. IDENT answers the product code, the identity and the uptime.
Rests on the model's choices: time (log entry 2), the image area (16), operations given alone and their answers
(47). -/
def Obligations.ConfigurationIsStored : Prop :=
  ∀ s : State,
    (s.dev.agent.saving = none →
      exec .configSave s = .next { s with dev := { s.dev with agent := { s.dev.agent with
        saving := some s.dev.takeImage, image := .broken, answer := some ⟨0x1F#8, .ok, []⟩ } } }) ∧
    (∀ m, s.dev.agent.saving = some m →
      exec .configSave s = .next (s.withAnswer 0x1F#8 .wrongState []) ∧
      ∀ (ok : Bool) (dt : Nat), ∃ t, exec (.storeComplete ok dt) s = .next t ∧ t.pending = s.pending ∧
        t.dev.clock = s.dev.clock + dt ∧ t.dev.agent.saving = none ∧
        t.dev.agent.lastStore = (if ok = true then .done else .failed) ∧
        t.dev.agent.image = (if ok = true then .stored m true else .broken) ∧
        (ok = false → t.dev.agent.image.usable = none) ∧
        (s.dev.ev.events.length < 32 → ∃ e ∈ t.dev.ev.events,
          e.kind = (if ok = true then .storeDone else .storeFailed) ∧ e.subject = .none) ∧
        Touches (.clock :: .store :: Piece.raised) s.dev t.dev) ∧
    exec .ident s = .next (s.withAnswer 0x21#8 .ok
      (be 2 0x5C21 ++ be 2 s.dev.agent.identity.part.toNat ++ be 1 s.dev.agent.identity.revision.toNat ++
        be 6 s.dev.agent.identity.base.toNat ++ be 4 s.dev.uptime))
end

