-- ==== Sys2Proof/Laws/State.lean ====
section
/-! SUPPORT. What each update of the part leaves as it was, one lemma for a field and an update, and what reading a
segment gives after one. -/

namespace Sys2Proof.Machine

open Sys2Proof

variable (d : Dev) (g h : Seg)

/-- Reading the place just set. -/
@[simp] theorem Four.get_set_same {α : Type} (f : Four α) (a : α) : (f.set g a).get g = a := by cases g <;> rfl

/-- Reading another place. -/
theorem Four.get_set_other {α : Type} (f : Four α) (a : α) (ne : h ≠ g) : (f.set g a).get h = f.get h := by
  cases g <;> cases h <;> first | rfl | exact absurd rfl ne

/-- Reading any place after a set. -/
theorem Four.get_set {α : Type} (f : Four α) (a : α) : (f.set g a).get h = if h = g then a else f.get h := by
  by_cases e : h = g
  · subst e; simp
  · simp [e, Four.get_set_other]

/-- Every place of a constant four. -/
@[simp] theorem Four.get_const {α : Type} (a : α) : (Four.const a).get g = a := by cases g <;> rfl


/-! ### `modSeg` -/

@[simp] theorem Dev.modSeg_clock (f : Segment → Segment) : (d.modSeg g f).clock = d.clock := rfl
@[simp] theorem Dev.modSeg_uptime (f : Segment → Segment) : (d.modSeg g f).uptime = d.uptime := rfl
@[simp] theorem Dev.modSeg_set (f : Segment → Segment) : (d.modSeg g f).set = d.set := rfl
@[simp] theorem Dev.modSeg_stations (f : Segment → Segment) : (d.modSeg g f).stations = d.stations := rfl
@[simp] theorem Dev.modSeg_aliases (f : Segment → Segment) : (d.modSeg g f).aliases = d.aliases := rfl
@[simp] theorem Dev.modSeg_pool (f : Segment → Segment) : (d.modSeg g f).pool = d.pool := rfl
@[simp] theorem Dev.modSeg_up (f : Segment → Segment) : (d.modSeg g f).up = d.up := rfl
@[simp] theorem Dev.modSeg_spool (f : Segment → Segment) : (d.modSeg g f).spool = d.spool := rfl
@[simp] theorem Dev.modSeg_ev (f : Segment → Segment) : (d.modSeg g f).ev = d.ev := rfl
@[simp] theorem Dev.modSeg_agent (f : Segment → Segment) : (d.modSeg g f).agent = d.agent := rfl
@[simp] theorem Dev.modSeg_nextEid (f : Segment → Segment) : (d.modSeg g f).nextEid = d.nextEid := rfl
@[simp] theorem Dev.modSeg_nextFid (f : Segment → Segment) : (d.modSeg g f).nextFid = d.nextFid := rfl

/-! ### `modSched` -/

@[simp] theorem Dev.modSched_clock (f : Scheduler → Scheduler) : (d.modSched g f).clock = d.clock := rfl
@[simp] theorem Dev.modSched_uptime (f : Scheduler → Scheduler) : (d.modSched g f).uptime = d.uptime := rfl
@[simp] theorem Dev.modSched_set (f : Scheduler → Scheduler) : (d.modSched g f).set = d.set := rfl
@[simp] theorem Dev.modSched_stations (f : Scheduler → Scheduler) : (d.modSched g f).stations = d.stations := rfl
@[simp] theorem Dev.modSched_aliases (f : Scheduler → Scheduler) : (d.modSched g f).aliases = d.aliases := rfl
@[simp] theorem Dev.modSched_pool (f : Scheduler → Scheduler) : (d.modSched g f).pool = d.pool := rfl
@[simp] theorem Dev.modSched_up (f : Scheduler → Scheduler) : (d.modSched g f).up = d.up := rfl
@[simp] theorem Dev.modSched_spool (f : Scheduler → Scheduler) : (d.modSched g f).spool = d.spool := rfl
@[simp] theorem Dev.modSched_ev (f : Scheduler → Scheduler) : (d.modSched g f).ev = d.ev := rfl
@[simp] theorem Dev.modSched_agent (f : Scheduler → Scheduler) : (d.modSched g f).agent = d.agent := rfl
@[simp] theorem Dev.modSched_nextEid (f : Scheduler → Scheduler) : (d.modSched g f).nextEid = d.nextEid := rfl
@[simp] theorem Dev.modSched_nextFid (f : Scheduler → Scheduler) : (d.modSched g f).nextFid = d.nextFid := rfl

/-! ### `modMon` -/

@[simp] theorem Dev.modMon_clock (f : Monitor → Monitor) : (d.modMon g f).clock = d.clock := rfl
@[simp] theorem Dev.modMon_uptime (f : Monitor → Monitor) : (d.modMon g f).uptime = d.uptime := rfl
@[simp] theorem Dev.modMon_set (f : Monitor → Monitor) : (d.modMon g f).set = d.set := rfl
@[simp] theorem Dev.modMon_stations (f : Monitor → Monitor) : (d.modMon g f).stations = d.stations := rfl
@[simp] theorem Dev.modMon_aliases (f : Monitor → Monitor) : (d.modMon g f).aliases = d.aliases := rfl
@[simp] theorem Dev.modMon_pool (f : Monitor → Monitor) : (d.modMon g f).pool = d.pool := rfl
@[simp] theorem Dev.modMon_up (f : Monitor → Monitor) : (d.modMon g f).up = d.up := rfl
@[simp] theorem Dev.modMon_spool (f : Monitor → Monitor) : (d.modMon g f).spool = d.spool := rfl
@[simp] theorem Dev.modMon_ev (f : Monitor → Monitor) : (d.modMon g f).ev = d.ev := rfl
@[simp] theorem Dev.modMon_agent (f : Monitor → Monitor) : (d.modMon g f).agent = d.agent := rfl
@[simp] theorem Dev.modMon_nextEid (f : Monitor → Monitor) : (d.modMon g f).nextEid = d.nextEid := rfl
@[simp] theorem Dev.modMon_nextFid (f : Monitor → Monitor) : (d.modMon g f).nextFid = d.nextFid := rfl

/-! ### `modDisc` -/

@[simp] theorem Dev.modDisc_clock (f : Discovery → Discovery) : (d.modDisc g f).clock = d.clock := rfl
@[simp] theorem Dev.modDisc_uptime (f : Discovery → Discovery) : (d.modDisc g f).uptime = d.uptime := rfl
@[simp] theorem Dev.modDisc_set (f : Discovery → Discovery) : (d.modDisc g f).set = d.set := rfl
@[simp] theorem Dev.modDisc_stations (f : Discovery → Discovery) : (d.modDisc g f).stations = d.stations := rfl
@[simp] theorem Dev.modDisc_aliases (f : Discovery → Discovery) : (d.modDisc g f).aliases = d.aliases := rfl
@[simp] theorem Dev.modDisc_pool (f : Discovery → Discovery) : (d.modDisc g f).pool = d.pool := rfl
@[simp] theorem Dev.modDisc_up (f : Discovery → Discovery) : (d.modDisc g f).up = d.up := rfl
@[simp] theorem Dev.modDisc_spool (f : Discovery → Discovery) : (d.modDisc g f).spool = d.spool := rfl
@[simp] theorem Dev.modDisc_ev (f : Discovery → Discovery) : (d.modDisc g f).ev = d.ev := rfl
@[simp] theorem Dev.modDisc_agent (f : Discovery → Discovery) : (d.modDisc g f).agent = d.agent := rfl
@[simp] theorem Dev.modDisc_nextEid (f : Discovery → Discovery) : (d.modDisc g f).nextEid = d.nextEid := rfl
@[simp] theorem Dev.modDisc_nextFid (f : Discovery → Discovery) : (d.modDisc g f).nextFid = d.nextFid := rfl

/-! ### `modProbe` -/

@[simp] theorem Dev.modProbe_clock (f : Probe → Probe) : (d.modProbe g f).clock = d.clock := rfl
@[simp] theorem Dev.modProbe_uptime (f : Probe → Probe) : (d.modProbe g f).uptime = d.uptime := rfl
@[simp] theorem Dev.modProbe_set (f : Probe → Probe) : (d.modProbe g f).set = d.set := rfl
@[simp] theorem Dev.modProbe_stations (f : Probe → Probe) : (d.modProbe g f).stations = d.stations := rfl
@[simp] theorem Dev.modProbe_aliases (f : Probe → Probe) : (d.modProbe g f).aliases = d.aliases := rfl
@[simp] theorem Dev.modProbe_pool (f : Probe → Probe) : (d.modProbe g f).pool = d.pool := rfl
@[simp] theorem Dev.modProbe_up (f : Probe → Probe) : (d.modProbe g f).up = d.up := rfl
@[simp] theorem Dev.modProbe_spool (f : Probe → Probe) : (d.modProbe g f).spool = d.spool := rfl
@[simp] theorem Dev.modProbe_ev (f : Probe → Probe) : (d.modProbe g f).ev = d.ev := rfl
@[simp] theorem Dev.modProbe_agent (f : Probe → Probe) : (d.modProbe g f).agent = d.agent := rfl
@[simp] theorem Dev.modProbe_nextEid (f : Probe → Probe) : (d.modProbe g f).nextEid = d.nextEid := rfl
@[simp] theorem Dev.modProbe_nextFid (f : Probe → Probe) : (d.modProbe g f).nextFid = d.nextFid := rfl

/-! ### `modEv` -/

@[simp] theorem Dev.modEv_clock (f : EventUnit → EventUnit) : (d.modEv f).clock = d.clock := rfl
@[simp] theorem Dev.modEv_uptime (f : EventUnit → EventUnit) : (d.modEv f).uptime = d.uptime := rfl
@[simp] theorem Dev.modEv_set (f : EventUnit → EventUnit) : (d.modEv f).set = d.set := rfl
@[simp] theorem Dev.modEv_segs (f : EventUnit → EventUnit) : (d.modEv f).segs = d.segs := rfl
@[simp] theorem Dev.modEv_stations (f : EventUnit → EventUnit) : (d.modEv f).stations = d.stations := rfl
@[simp] theorem Dev.modEv_aliases (f : EventUnit → EventUnit) : (d.modEv f).aliases = d.aliases := rfl
@[simp] theorem Dev.modEv_pool (f : EventUnit → EventUnit) : (d.modEv f).pool = d.pool := rfl
@[simp] theorem Dev.modEv_up (f : EventUnit → EventUnit) : (d.modEv f).up = d.up := rfl
@[simp] theorem Dev.modEv_spool (f : EventUnit → EventUnit) : (d.modEv f).spool = d.spool := rfl
@[simp] theorem Dev.modEv_agent (f : EventUnit → EventUnit) : (d.modEv f).agent = d.agent := rfl
@[simp] theorem Dev.modEv_nextEid (f : EventUnit → EventUnit) : (d.modEv f).nextEid = d.nextEid := rfl
@[simp] theorem Dev.modEv_nextFid (f : EventUnit → EventUnit) : (d.modEv f).nextFid = d.nextFid := rfl

/-! ### `modUp` -/

@[simp] theorem Dev.modUp_clock (f : Uplink → Uplink) : (d.modUp f).clock = d.clock := rfl
@[simp] theorem Dev.modUp_uptime (f : Uplink → Uplink) : (d.modUp f).uptime = d.uptime := rfl
@[simp] theorem Dev.modUp_set (f : Uplink → Uplink) : (d.modUp f).set = d.set := rfl
@[simp] theorem Dev.modUp_segs (f : Uplink → Uplink) : (d.modUp f).segs = d.segs := rfl
@[simp] theorem Dev.modUp_stations (f : Uplink → Uplink) : (d.modUp f).stations = d.stations := rfl
@[simp] theorem Dev.modUp_aliases (f : Uplink → Uplink) : (d.modUp f).aliases = d.aliases := rfl
@[simp] theorem Dev.modUp_pool (f : Uplink → Uplink) : (d.modUp f).pool = d.pool := rfl
@[simp] theorem Dev.modUp_spool (f : Uplink → Uplink) : (d.modUp f).spool = d.spool := rfl
@[simp] theorem Dev.modUp_ev (f : Uplink → Uplink) : (d.modUp f).ev = d.ev := rfl
@[simp] theorem Dev.modUp_agent (f : Uplink → Uplink) : (d.modUp f).agent = d.agent := rfl
@[simp] theorem Dev.modUp_nextEid (f : Uplink → Uplink) : (d.modUp f).nextEid = d.nextEid := rfl
@[simp] theorem Dev.modUp_nextFid (f : Uplink → Uplink) : (d.modUp f).nextFid = d.nextFid := rfl

/-! ### `modSpool` -/

@[simp] theorem Dev.modSpool_clock (f : Spooler → Spooler) : (d.modSpool f).clock = d.clock := rfl
@[simp] theorem Dev.modSpool_uptime (f : Spooler → Spooler) : (d.modSpool f).uptime = d.uptime := rfl
@[simp] theorem Dev.modSpool_set (f : Spooler → Spooler) : (d.modSpool f).set = d.set := rfl
@[simp] theorem Dev.modSpool_segs (f : Spooler → Spooler) : (d.modSpool f).segs = d.segs := rfl
@[simp] theorem Dev.modSpool_stations (f : Spooler → Spooler) : (d.modSpool f).stations = d.stations := rfl
@[simp] theorem Dev.modSpool_aliases (f : Spooler → Spooler) : (d.modSpool f).aliases = d.aliases := rfl
@[simp] theorem Dev.modSpool_pool (f : Spooler → Spooler) : (d.modSpool f).pool = d.pool := rfl
@[simp] theorem Dev.modSpool_up (f : Spooler → Spooler) : (d.modSpool f).up = d.up := rfl
@[simp] theorem Dev.modSpool_ev (f : Spooler → Spooler) : (d.modSpool f).ev = d.ev := rfl
@[simp] theorem Dev.modSpool_agent (f : Spooler → Spooler) : (d.modSpool f).agent = d.agent := rfl
@[simp] theorem Dev.modSpool_nextEid (f : Spooler → Spooler) : (d.modSpool f).nextEid = d.nextEid := rfl
@[simp] theorem Dev.modSpool_nextFid (f : Spooler → Spooler) : (d.modSpool f).nextFid = d.nextFid := rfl

/-! ### `modAgent` -/

@[simp] theorem Dev.modAgent_clock (f : Agent → Agent) : (d.modAgent f).clock = d.clock := rfl
@[simp] theorem Dev.modAgent_uptime (f : Agent → Agent) : (d.modAgent f).uptime = d.uptime := rfl
@[simp] theorem Dev.modAgent_set (f : Agent → Agent) : (d.modAgent f).set = d.set := rfl
@[simp] theorem Dev.modAgent_segs (f : Agent → Agent) : (d.modAgent f).segs = d.segs := rfl
@[simp] theorem Dev.modAgent_stations (f : Agent → Agent) : (d.modAgent f).stations = d.stations := rfl
@[simp] theorem Dev.modAgent_aliases (f : Agent → Agent) : (d.modAgent f).aliases = d.aliases := rfl
@[simp] theorem Dev.modAgent_pool (f : Agent → Agent) : (d.modAgent f).pool = d.pool := rfl
@[simp] theorem Dev.modAgent_up (f : Agent → Agent) : (d.modAgent f).up = d.up := rfl
@[simp] theorem Dev.modAgent_spool (f : Agent → Agent) : (d.modAgent f).spool = d.spool := rfl
@[simp] theorem Dev.modAgent_ev (f : Agent → Agent) : (d.modAgent f).ev = d.ev := rfl
@[simp] theorem Dev.modAgent_nextEid (f : Agent → Agent) : (d.modAgent f).nextEid = d.nextEid := rfl
@[simp] theorem Dev.modAgent_nextFid (f : Agent → Agent) : (d.modAgent f).nextFid = d.nextFid := rfl

/-! ### `modStation` -/

@[simp] theorem Dev.modStation_clock (n : Nat) (f : Station → Station) : (d.modStation n f).clock = d.clock := rfl
@[simp] theorem Dev.modStation_uptime (n : Nat) (f : Station → Station) : (d.modStation n f).uptime = d.uptime := rfl
@[simp] theorem Dev.modStation_set (n : Nat) (f : Station → Station) : (d.modStation n f).set = d.set := rfl
@[simp] theorem Dev.modStation_segs (n : Nat) (f : Station → Station) : (d.modStation n f).segs = d.segs := rfl
@[simp] theorem Dev.modStation_aliases (n : Nat) (f : Station → Station) : (d.modStation n f).aliases = d.aliases := rfl
@[simp] theorem Dev.modStation_pool (n : Nat) (f : Station → Station) : (d.modStation n f).pool = d.pool := rfl
@[simp] theorem Dev.modStation_up (n : Nat) (f : Station → Station) : (d.modStation n f).up = d.up := rfl
@[simp] theorem Dev.modStation_spool (n : Nat) (f : Station → Station) : (d.modStation n f).spool = d.spool := rfl
@[simp] theorem Dev.modStation_ev (n : Nat) (f : Station → Station) : (d.modStation n f).ev = d.ev := rfl
@[simp] theorem Dev.modStation_agent (n : Nat) (f : Station → Station) : (d.modStation n f).agent = d.agent := rfl
@[simp] theorem Dev.modStation_nextEid (n : Nat) (f : Station → Station) : (d.modStation n f).nextEid = d.nextEid := rfl
@[simp] theorem Dev.modStation_nextFid (n : Nat) (f : Station → Station) : (d.modStation n f).nextFid = d.nextFid := rfl

/-! ### `setPrinter` -/

@[simp] theorem Dev.setPrinter_clock (n : Nat) (p : Option Printer) : (d.setPrinter n p).clock = d.clock := rfl
@[simp] theorem Dev.setPrinter_uptime (n : Nat) (p : Option Printer) : (d.setPrinter n p).uptime = d.uptime := rfl
@[simp] theorem Dev.setPrinter_set (n : Nat) (p : Option Printer) : (d.setPrinter n p).set = d.set := rfl
@[simp] theorem Dev.setPrinter_segs (n : Nat) (p : Option Printer) : (d.setPrinter n p).segs = d.segs := rfl
@[simp] theorem Dev.setPrinter_stations (n : Nat) (p : Option Printer) : (d.setPrinter n p).stations = d.stations := rfl
@[simp] theorem Dev.setPrinter_aliases (n : Nat) (p : Option Printer) : (d.setPrinter n p).aliases = d.aliases := rfl
@[simp] theorem Dev.setPrinter_pool (n : Nat) (p : Option Printer) : (d.setPrinter n p).pool = d.pool := rfl
@[simp] theorem Dev.setPrinter_up (n : Nat) (p : Option Printer) : (d.setPrinter n p).up = d.up := rfl
@[simp] theorem Dev.setPrinter_ev (n : Nat) (p : Option Printer) : (d.setPrinter n p).ev = d.ev := rfl
@[simp] theorem Dev.setPrinter_agent (n : Nat) (p : Option Printer) : (d.setPrinter n p).agent = d.agent := rfl
@[simp] theorem Dev.setPrinter_nextEid (n : Nat) (p : Option Printer) : (d.setPrinter n p).nextEid = d.nextEid := rfl
@[simp] theorem Dev.setPrinter_nextFid (n : Nat) (p : Option Printer) : (d.setPrinter n p).nextFid = d.nextFid := rfl

/-! ### `modJob` -/

@[simp] theorem Dev.modJob_clock (n : Nat) (f : Job → Job) : (d.modJob n f).clock = d.clock := rfl
@[simp] theorem Dev.modJob_uptime (n : Nat) (f : Job → Job) : (d.modJob n f).uptime = d.uptime := rfl
@[simp] theorem Dev.modJob_set (n : Nat) (f : Job → Job) : (d.modJob n f).set = d.set := rfl
@[simp] theorem Dev.modJob_segs (n : Nat) (f : Job → Job) : (d.modJob n f).segs = d.segs := rfl
@[simp] theorem Dev.modJob_stations (n : Nat) (f : Job → Job) : (d.modJob n f).stations = d.stations := rfl
@[simp] theorem Dev.modJob_aliases (n : Nat) (f : Job → Job) : (d.modJob n f).aliases = d.aliases := rfl
@[simp] theorem Dev.modJob_pool (n : Nat) (f : Job → Job) : (d.modJob n f).pool = d.pool := rfl
@[simp] theorem Dev.modJob_up (n : Nat) (f : Job → Job) : (d.modJob n f).up = d.up := rfl
@[simp] theorem Dev.modJob_ev (n : Nat) (f : Job → Job) : (d.modJob n f).ev = d.ev := rfl
@[simp] theorem Dev.modJob_agent (n : Nat) (f : Job → Job) : (d.modJob n f).agent = d.agent := rfl
@[simp] theorem Dev.modJob_nextEid (n : Nat) (f : Job → Job) : (d.modJob n f).nextEid = d.nextEid := rfl
@[simp] theorem Dev.modJob_nextFid (n : Nat) (f : Job → Job) : (d.modJob n f).nextFid = d.nextFid := rfl

/-! ### `elapse` -/

@[simp] theorem Dev.elapse_uptime (n : Nat) : (d.elapse n).uptime = d.uptime := rfl
@[simp] theorem Dev.elapse_set (n : Nat) : (d.elapse n).set = d.set := rfl
@[simp] theorem Dev.elapse_segs (n : Nat) : (d.elapse n).segs = d.segs := rfl
@[simp] theorem Dev.elapse_stations (n : Nat) : (d.elapse n).stations = d.stations := rfl
@[simp] theorem Dev.elapse_aliases (n : Nat) : (d.elapse n).aliases = d.aliases := rfl
@[simp] theorem Dev.elapse_pool (n : Nat) : (d.elapse n).pool = d.pool := rfl
@[simp] theorem Dev.elapse_up (n : Nat) : (d.elapse n).up = d.up := rfl
@[simp] theorem Dev.elapse_spool (n : Nat) : (d.elapse n).spool = d.spool := rfl
@[simp] theorem Dev.elapse_ev (n : Nat) : (d.elapse n).ev = d.ev := rfl
@[simp] theorem Dev.elapse_agent (n : Nat) : (d.elapse n).agent = d.agent := rfl
@[simp] theorem Dev.elapse_nextEid (n : Nat) : (d.elapse n).nextEid = d.nextEid := rfl
@[simp] theorem Dev.elapse_nextFid (n : Nat) : (d.elapse n).nextFid = d.nextFid := rfl

/-! ### `reach` -/

@[simp] theorem Dev.reach_uptime (n : Nat) : (d.reach n).uptime = d.uptime := rfl
@[simp] theorem Dev.reach_set (n : Nat) : (d.reach n).set = d.set := rfl
@[simp] theorem Dev.reach_segs (n : Nat) : (d.reach n).segs = d.segs := rfl
@[simp] theorem Dev.reach_stations (n : Nat) : (d.reach n).stations = d.stations := rfl
@[simp] theorem Dev.reach_aliases (n : Nat) : (d.reach n).aliases = d.aliases := rfl
@[simp] theorem Dev.reach_pool (n : Nat) : (d.reach n).pool = d.pool := rfl
@[simp] theorem Dev.reach_up (n : Nat) : (d.reach n).up = d.up := rfl
@[simp] theorem Dev.reach_spool (n : Nat) : (d.reach n).spool = d.spool := rfl
@[simp] theorem Dev.reach_ev (n : Nat) : (d.reach n).ev = d.ev := rfl
@[simp] theorem Dev.reach_agent (n : Nat) : (d.reach n).agent = d.agent := rfl
@[simp] theorem Dev.reach_nextEid (n : Nat) : (d.reach n).nextEid = d.nextEid := rfl
@[simp] theorem Dev.reach_nextFid (n : Nat) : (d.reach n).nextFid = d.nextFid := rfl

/-! ### `withdrawAliases` -/

@[simp] theorem Dev.withdrawAliases_clock (p : AliasEntry → Bool) : (d.withdrawAliases p).clock = d.clock := rfl
@[simp] theorem Dev.withdrawAliases_uptime (p : AliasEntry → Bool) : (d.withdrawAliases p).uptime = d.uptime := rfl
@[simp] theorem Dev.withdrawAliases_set (p : AliasEntry → Bool) : (d.withdrawAliases p).set = d.set := rfl
@[simp] theorem Dev.withdrawAliases_segs (p : AliasEntry → Bool) : (d.withdrawAliases p).segs = d.segs := rfl
@[simp] theorem Dev.withdrawAliases_stations (p : AliasEntry → Bool) : (d.withdrawAliases p).stations = d.stations := rfl
@[simp] theorem Dev.withdrawAliases_pool (p : AliasEntry → Bool) : (d.withdrawAliases p).pool = d.pool := rfl
@[simp] theorem Dev.withdrawAliases_up (p : AliasEntry → Bool) : (d.withdrawAliases p).up = d.up := rfl
@[simp] theorem Dev.withdrawAliases_spool (p : AliasEntry → Bool) : (d.withdrawAliases p).spool = d.spool := rfl
@[simp] theorem Dev.withdrawAliases_ev (p : AliasEntry → Bool) : (d.withdrawAliases p).ev = d.ev := rfl
@[simp] theorem Dev.withdrawAliases_agent (p : AliasEntry → Bool) : (d.withdrawAliases p).agent = d.agent := rfl
@[simp] theorem Dev.withdrawAliases_nextEid (p : AliasEntry → Bool) : (d.withdrawAliases p).nextEid = d.nextEid := rfl
@[simp] theorem Dev.withdrawAliases_nextFid (p : AliasEntry → Bool) : (d.withdrawAliases p).nextFid = d.nextFid := rfl

/-! ### `addAlias` -/

@[simp] theorem Dev.addAlias_clock (a : AliasEntry) : (d.addAlias a).clock = d.clock := rfl
@[simp] theorem Dev.addAlias_uptime (a : AliasEntry) : (d.addAlias a).uptime = d.uptime := rfl
@[simp] theorem Dev.addAlias_set (a : AliasEntry) : (d.addAlias a).set = d.set := rfl
@[simp] theorem Dev.addAlias_segs (a : AliasEntry) : (d.addAlias a).segs = d.segs := rfl
@[simp] theorem Dev.addAlias_stations (a : AliasEntry) : (d.addAlias a).stations = d.stations := rfl
@[simp] theorem Dev.addAlias_pool (a : AliasEntry) : (d.addAlias a).pool = d.pool := rfl
@[simp] theorem Dev.addAlias_up (a : AliasEntry) : (d.addAlias a).up = d.up := rfl
@[simp] theorem Dev.addAlias_spool (a : AliasEntry) : (d.addAlias a).spool = d.spool := rfl
@[simp] theorem Dev.addAlias_ev (a : AliasEntry) : (d.addAlias a).ev = d.ev := rfl
@[simp] theorem Dev.addAlias_agent (a : AliasEntry) : (d.addAlias a).agent = d.agent := rfl
@[simp] theorem Dev.addAlias_nextEid (a : AliasEntry) : (d.addAlias a).nextEid = d.nextEid := rfl
@[simp] theorem Dev.addAlias_nextFid (a : AliasEntry) : (d.addAlias a).nextFid = d.nextFid := rfl

/-! ### The field an update changes -/

@[simp] theorem Dev.modSeg_seg (f : Segment → Segment) : (d.modSeg g f).seg g = f (d.seg g) := by
  simp [Dev.modSeg, Dev.seg]

theorem Dev.modSeg_seg_other (f : Segment → Segment) (ne : h ≠ g) : (d.modSeg g f).seg h = d.seg h := by
  simp [Dev.modSeg, Dev.seg, Four.get_set_other _ _ _ _ ne]

@[simp] theorem Dev.modSched_seg (f : Scheduler → Scheduler) :
    (d.modSched g f).seg g = { d.seg g with sched := f (d.seg g).sched } := by simp [Dev.modSched]

@[simp] theorem Dev.modMon_seg (f : Monitor → Monitor) :
    (d.modMon g f).seg g = { d.seg g with mon := f (d.seg g).mon } := by simp [Dev.modMon]

@[simp] theorem Dev.modDisc_seg (f : Discovery → Discovery) :
    (d.modDisc g f).seg g = { d.seg g with disc := f (d.seg g).disc } := by simp [Dev.modDisc]

@[simp] theorem Dev.modProbe_seg (f : Probe → Probe) :
    (d.modProbe g f).seg g = { d.seg g with probe := f (d.seg g).probe } := by simp [Dev.modProbe]

@[simp] theorem Dev.modEv_ev (f : EventUnit → EventUnit) : (d.modEv f).ev = f d.ev := rfl
@[simp] theorem Dev.modUp_up (f : Uplink → Uplink) : (d.modUp f).up = f d.up := rfl
@[simp] theorem Dev.modSpool_spool (f : Spooler → Spooler) : (d.modSpool f).spool = f d.spool := rfl
@[simp] theorem Dev.modAgent_agent (f : Agent → Agent) : (d.modAgent f).agent = f d.agent := rfl
@[simp] theorem Dev.elapse_clock (n : Nat) : (d.elapse n).clock = d.clock + n := rfl
@[simp] theorem Dev.reach_clock (n : Nat) : (d.reach n).clock = max d.clock n := rfl

/-- A segment's blocks are read from the segments alone. -/
theorem Dev.seg_congr {a b : Dev} (e : a.segs = b.segs) : a.seg g = b.seg g := by simp [Dev.seg, e]

@[simp] theorem Dev.elapse_seg (n : Nat) : (d.elapse n).seg g = d.seg g := rfl
@[simp] theorem Dev.reach_seg (n : Nat) : (d.reach n).seg g = d.seg g := rfl
@[simp] theorem Dev.modEv_seg (f : EventUnit → EventUnit) : (d.modEv f).seg g = d.seg g := rfl
@[simp] theorem Dev.modUp_seg (f : Uplink → Uplink) : (d.modUp f).seg g = d.seg g := rfl
@[simp] theorem Dev.modSpool_seg (f : Spooler → Spooler) : (d.modSpool f).seg g = d.seg g := rfl
@[simp] theorem Dev.modAgent_seg (f : Agent → Agent) : (d.modAgent f).seg g = d.seg g := rfl
@[simp] theorem Dev.modStation_seg (n : Nat) (f : Station → Station) : (d.modStation n f).seg g = d.seg g := rfl

/-! ### A probe pulse -/

variable (s : Segment)

@[simp] theorem Segment.startPulse_cfg (n : Nat) : (s.startPulse n).cfg = s.cfg := rfl
@[simp] theorem Segment.startPulse_mon (n : Nat) : (s.startPulse n).mon = s.mon := rfl
@[simp] theorem Segment.startPulse_sched (n : Nat) : (s.startPulse n).sched = s.sched := rfl
@[simp] theorem Segment.startPulse_disc (n : Nat) : (s.startPulse n).disc = s.disc := rfl
@[simp] theorem Segment.startPulse_downq (n : Nat) : (s.startPulse n).downq = s.downq := rfl
@[simp] theorem Segment.startPulse_backoffs (n : Nat) : (s.startPulse n).backoffs = s.backoffs := rfl
@[simp] theorem Segment.startPulse_lineOut (n : Nat) : (s.startPulse n).lineOut = s.lineOut := rfl
@[simp] theorem Segment.startPulse_txEnable (n : Nat) : (s.startPulse n).txEnable = true := rfl
@[simp] theorem Segment.startPulse_probe (n : Nat) :
    (s.startPulse n).probe = { s.probe with capturing := true, launched := n } := rfl
@[simp] theorem Segment.endPulse_cfg : s.endPulse.cfg = s.cfg := rfl
@[simp] theorem Segment.endPulse_mon : s.endPulse.mon = s.mon := rfl
@[simp] theorem Segment.endPulse_sched : s.endPulse.sched = s.sched := rfl
@[simp] theorem Segment.endPulse_disc : s.endPulse.disc = s.disc := rfl
@[simp] theorem Segment.endPulse_downq : s.endPulse.downq = s.downq := rfl
@[simp] theorem Segment.endPulse_backoffs : s.endPulse.backoffs = s.backoffs := rfl
@[simp] theorem Segment.endPulse_lineOut : s.endPulse.lineOut = s.lineOut := rfl
@[simp] theorem Segment.endPulse_probe : s.endPulse.probe = { s.probe with capturing := false } := rfl

/-- No pulse is up once one has ended. -/
@[simp] theorem Segment.endPulse_probePulse : s.endPulse.probePulse = false := by
  simp [Segment.probePulse]

/-! ### The trunk line (R1) -/

/-- The line time of the cells of a frame is that of its bytes. -/
theorem trunkCells_time (bs : List Byte) : (trunkCells bs).length * Config.bitCell = frameTime bs.length := by
  have h : (bs.flatMap byteCells).length = 8 * bs.length := by
    simp [byteCells, Nat.mul_comm]
  simp only [trunkCells, List.length_append, h, frameTime]

/-- A frame sent is a valid start delimiter and what follows it. -/
theorem trunkCells_validStart (bs : List Byte) : validStart (trunkCells bs) = true := by
  simp [validStart, trunkCells, startDelimiter]

/-- A byte is read back from its cells. -/
theorem cellsByte_byteCells (b : Byte) : cellsByte (byteCells b) = some b := by
  revert b; decide

/-- The bytes between the delimiters are read back from their cells. -/
theorem cellsBytes_trunk (bs : List Byte) :
    ∀ fuel, bs.length < fuel → cellsBytes fuel (bs.flatMap byteCells ++ endDelimiter) = some bs := by
  induction bs with
  | nil => intro fuel h; cases fuel with
    | zero => omega
    | succ n => rfl
  | cons b bs ih =>
    intro fuel h
    cases fuel with
    | zero => omega
    | succ n =>
      have hb : (List.flatMap byteCells (b :: bs) ++ endDelimiter) =
          byteCells b ++ (bs.flatMap byteCells ++ endDelimiter) := by simp
      have l8 : (byteCells b).length = 8 := rfl
      have ne : (byteCells b ++ (bs.flatMap byteCells ++ endDelimiter) == endDelimiter) = false := rfl
      rw [hb, cellsBytes, ne, List.take_left' l8, List.drop_left' l8, cellsByte_byteCells, ih n (by simpa using h)]
      rfl

/-- A frame sent is received whole, with the bytes that were sent (R1). -/
theorem receivedFrame_trunkCells (bs : List Byte) : receivedFrame (trunkCells bs) = some bs := by
  rw [receivedFrame, trunkCells_validStart, if_pos rfl]
  have : (trunkCells bs).drop 16 = bs.flatMap byteCells ++ endDelimiter := by
    simp [trunkCells, startDelimiter]
  rw [this]
  refine cellsBytes_trunk bs _ ?_
  simp [trunkCells, startDelimiter, endDelimiter, byteCells]
  omega

end Sys2Proof.Machine
end

