-- ==== Sys2Proof/Laws/Frames.lean ====
section
/-! SUPPORT. What each shared operation can touch, one lemma for an operation: everything outside the pieces named is as
it was. -/

namespace Sys2Proof.Machine

open Sys2Proof

variable {d e c : Dev} {l m n : List Piece}

-- one proof after the other: proofs that wait for each other side by side take a thread each
set_option Elab.async false

/-! ### How frames compose -/

theorem Touches.refl (l : List Piece) (d : Dev) : Touches l d d := by
  intro p _; cases p <;> simp [Piece.same]

theorem Piece.same_trans {p : Piece} (h : p.same d e) (k : p.same e c) : p.same d c := by
  cases p <;> simp_all [Piece.same]

theorem Touches.trans (h : Touches l d e) (k : Touches l e c) : Touches l d c := fun p hp =>
  Piece.same_trans (h p hp) (k p hp)

/-- Membership in a list of pieces, from what it computes to. -/
theorem Piece.mem_of {p : Piece} (h : l.contains p = true) : p ∈ l := by simpa using h

/-- Inclusion of lists of pieces, from what it computes to. -/
theorem Piece.subset_of (h : (l.all fun p => m.contains p) = true) : ∀ p ∈ l, p ∈ m := by simpa using h

theorem Touches.mono (h : Touches l d e) (s : ∀ p ∈ l, p ∈ m := by exact Piece.subset_of rfl) : Touches m d e :=
  fun p hp => h p fun q => hp (s p q)

/-- Two operations in turn touch what either does. -/
theorem Touches.then (h : Touches l d e) (k : Touches m e c) (hl : ∀ p ∈ l, p ∈ n := by exact Piece.subset_of rfl)
    (hm : ∀ p ∈ m, p ∈ n := by exact Piece.subset_of rfl) : Touches n d c := (h.mono hl).trans (k.mono hm)

theorem Touches.fold {α : Type} {f : Dev → α → Dev} (h : ∀ d a, Touches l d (f d a)) :
    ∀ (as : List α) (d : Dev), Touches l d (as.foldl f d)
  | [], d => .refl l d
  | a :: as, d => (h d a).trans (Touches.fold h as (f d a))

theorem Touches.ite {b : Prop} [Decidable b] (h : b → Touches l d e) (k : ¬ b → Touches l d c) :
    Touches l d (if b then e else c) := by
  split
  · exact h ‹_›
  · exact k ‹_›

/-! ### The updates of one piece -/

/-- A change of one segment touches the pieces of that segment that it changes. -/
theorem touches_modSeg (d : Dev) (g : Seg) (f : Segment → Segment)
    (h : ∀ p ∉ l, match p with
      | .cfg => (d.seg g).cfg = (f (d.seg g)).cfg
      | .sched => (d.seg g).sched = (f (d.seg g)).sched
      | .mon => (d.seg g).mon = (f (d.seg g)).mon
      | .disc => (d.seg g).disc = (f (d.seg g)).disc
      | .probe => (d.seg g).probe = (f (d.seg g)).probe
      | .downq => (d.seg g).downq = (f (d.seg g)).downq
      | .backoffs => (d.seg g).backoffs = (f (d.seg g)).backoffs
      | .txEnable => (d.seg g).txEnable = (f (d.seg g)).txEnable
      | .lineOut => (d.seg g).lineOut = (f (d.seg g)).lineOut
      | _ => True) : Touches l d (d.modSeg g f) := by
  intro p hp
  have := h p hp
  cases p <;> simp only [Piece.same, Dev.modSeg_clock, Dev.modSeg_uptime, Dev.modSeg_set, Dev.modSeg_stations,
    Dev.modSeg_aliases, Dev.modSeg_pool, Dev.modSeg_up, Dev.modSeg_spool, Dev.modSeg_ev, Dev.modSeg_agent,
    Dev.modSeg_nextEid, Dev.modSeg_nextFid, and_self] <;>
  · intro k
    by_cases q : k = g
    · subst q; simpa using this
    · rw [Dev.modSeg_seg_other _ _ _ _ q]

theorem touches_modSched (d : Dev) (g : Seg) (f : Scheduler → Scheduler) : Touches [.sched] d (d.modSched g f) :=
  touches_modSeg d g _ fun p hp => by cases p <;> first | exact absurd (Piece.mem_of rfl) hp | trivial

theorem touches_modMon (d : Dev) (g : Seg) (f : Monitor → Monitor) : Touches [.mon] d (d.modMon g f) :=
  touches_modSeg d g _ fun p hp => by cases p <;> first | exact absurd (Piece.mem_of rfl) hp | trivial

theorem touches_modDisc (d : Dev) (g : Seg) (f : Discovery → Discovery) : Touches [.disc] d (d.modDisc g f) :=
  touches_modSeg d g _ fun p hp => by cases p <;> first | exact absurd (Piece.mem_of rfl) hp | trivial

theorem touches_modProbe (d : Dev) (g : Seg) (f : Probe → Probe) : Touches [.probe] d (d.modProbe g f) :=
  touches_modSeg d g _ fun p hp => by cases p <;> first | exact absurd (Piece.mem_of rfl) hp | trivial

theorem touches_modStation (d : Dev) (n : Nat) (f : Station → Station) : Touches [.stations] d (d.modStation n f) := by
  intro p hp; cases p <;> first | exact absurd (Piece.mem_of rfl) hp | simp [Piece.same]

theorem touches_setPrinter (d : Dev) (n : Nat) (q : Option Printer) : Touches [.printers] d (d.setPrinter n q) := by
  intro p hp; cases p <;> first | exact absurd (Piece.mem_of rfl) hp | simp [Piece.same, Dev.setPrinter]

theorem touches_modPrinter (d : Dev) (n : Nat) (f : Printer → Printer) : Touches [.printers] d (d.modPrinter n f) := by
  unfold Dev.modPrinter; split
  · exact touches_setPrinter _ _ _
  · exact Touches.refl _ _

theorem touches_modJob (d : Dev) (n : Nat) (f : Job → Job) : Touches [.jobs] d (d.modJob n f) := by
  intro p hp; cases p <;> first | exact absurd (Piece.mem_of rfl) hp | simp [Piece.same, Dev.modJob]

theorem touches_withdrawAliases (d : Dev) (q : AliasEntry → Bool) : Touches [.aliases] d (d.withdrawAliases q) := by
  intro p hp; cases p <;> first | exact absurd (Piece.mem_of rfl) hp | simp [Piece.same, Dev.withdrawAliases, Dev.seg]

theorem touches_withdrawAlias (d : Dev) (g : Seg) (n : Nat) : Touches [.aliases] d (d.withdrawAlias g n) :=
  touches_withdrawAliases _ _

theorem touches_addAlias (d : Dev) (a : AliasEntry) : Touches [.aliases] d (d.addAlias a) := by
  intro p hp; cases p <;> first | exact absurd (Piece.mem_of rfl) hp | simp [Piece.same, Dev.addAlias, Dev.seg]

theorem touches_modAlias (d : Dev) (g : Seg) (n : Nat) (f : AliasEntry → AliasEntry) :
    Touches [.aliases] d (d.modAlias g n f) := by
  intro p hp; cases p <;> first | exact absurd (Piece.mem_of rfl) hp | simp [Piece.same, Dev.modAlias, Dev.seg]

theorem touches_elapse (d : Dev) (t : Nat) : Touches [.clock] d (d.elapse t) := by
  intro p hp; cases p <;> first | exact absurd (Piece.mem_of rfl) hp | simp [Piece.same, Dev.elapse, Dev.seg]

theorem touches_reach (d : Dev) (t : Nat) : Touches [.clock] d (d.reach t) := by
  intro p hp; cases p <;> first | exact absurd (Piece.mem_of rfl) hp | simp [Piece.same, Dev.reach, Dev.seg]

/-! ### The Event Unit and transmission -/

theorem touches_startTx (d : Dev) : Touches [.transmit] d d.startTx := by
  unfold Dev.startTx
  split
  · split
    · intro p hp; cases p <;> first | exact absurd (Piece.mem_of rfl) hp | simp [Piece.same]
    · exact .refl _ _
  · exact .refl _ _

theorem touches_placeUp (d : Dev) (f : UpFrame) : Touches [.upQueue, .transmit] d (d.placeUp f) :=
  Touches.then (l := [.upQueue]) (by
  intro p hp; cases p <;> first | exact absurd (Piece.mem_of rfl) hp | simp [Piece.same]) (touches_startTx _)

theorem touches_retimeHoldoff (d : Dev) : Touches [.events] d d.retimeHoldoff := by
  intro p hp; cases p <;> first | exact absurd (Piece.mem_of rfl) hp | simp [Piece.same, Dev.retimeHoldoff]

theorem touches_recordEvent (d : Dev) (k : EventKind) (s : Subject) : Touches [.events] d (d.recordEvent k s).1 := by
  unfold Dev.recordEvent
  dsimp only
  split
  · intro p hp; cases p <;> first | exact absurd (Piece.mem_of rfl) hp | simp [Piece.same]
  · refine Touches.trans (e := d.modEv _) ?_ (touches_retimeHoldoff _)
    intro p hp; cases p <;> first | exact absurd (Piece.mem_of rfl) hp | simp [Piece.same]

/-- The piece of a counter. -/
def CounterId.piece : CounterId → Piece
  | .seg _ _ => .segCounters
  | .uplink _ => .upCounters
  | .spool _ => .spoolCounters

theorem touches_bump (d : Dev) (c : CounterId) : Touches [c.piece] d (d.modEv fun e => e.bump c) := by
  intro p hp
  cases c with
  | seg g c => cases g <;> cases p <;>
      first | exact absurd (List.mem_singleton_self _) hp | simp [Piece.same, EventUnit.bump, CounterId.group, segNat, EventUnit.setGroup]
  | uplink c => cases p <;>
      first | exact absurd (List.mem_singleton_self _) hp | simp [Piece.same, EventUnit.bump, CounterId.group, EventUnit.setGroup]
  | spool c => cases p <;>
      first | exact absurd (List.mem_singleton_self _) hp | simp [Piece.same, EventUnit.bump, CounterId.group, EventUnit.setGroup]

theorem touches_countQuietly (d : Dev) (c : CounterId) : Touches [c.piece, .events] d (d.countQuietly c) := by
  unfold Dev.countQuietly
  dsimp only
  split
  · exact Touches.then (touches_bump d c) (touches_recordEvent _ _ _) (by simp) (by simp)
  · exact (touches_bump d c).mono (by simp)

theorem touches_offerNotice (d : Dev) : Touches Piece.raised d d.offerNotice := by
  unfold Dev.offerNotice
  split
  · refine Touches.then (touches_placeUp d d.noticeFrame) (m := [.events]) (by
  intro p hp; cases p <;> first | exact absurd (Piece.mem_of rfl) hp | simp [Piece.same])
  · refine Touches.then (m := [.events]) ((touches_countQuietly d (.uplink (.drop d.uplinkDropCause))).mono
      (m := Piece.raised) (by simp [CounterId.piece, Piece.raised])) (by
  intro p hp; cases p <;> first | exact absurd (Piece.mem_of rfl) hp | simp [Piece.same])

theorem touches_noticeTest (d : Dev) : Touches Piece.raised d d.noticeTest := by
  unfold Dev.noticeTest
  split
  · intro p hp; cases p <;> first | exact absurd (Piece.mem_of rfl) hp | simp [Piece.same]
  · split
    · exact touches_offerNotice d
    · exact .refl _ _

theorem touches_raise (d : Dev) (k : EventKind) (s : Subject) : Touches Piece.raised d (d.raise k s) := by
  unfold Dev.raise
  dsimp only
  split
  · exact Touches.then (touches_recordEvent d k s) (touches_noticeTest _)
  · exact (touches_recordEvent d k s).mono

theorem touches_count (d : Dev) (c : CounterId) : Touches (c.piece :: Piece.raised) d (d.count c) := by
  unfold Dev.count
  dsimp only
  split
  · exact Touches.then (touches_bump d c) (touches_raise _ _ _) (by simp) (fun _ h => List.mem_cons_of_mem _ h)
  · exact (touches_bump d c).mono (by simp)

theorem touches_countSeg (d : Dev) (g : Seg) (c : SegCounter) : Touches Piece.counted d (d.countSeg g c) :=
  touches_count d (.seg g c)

theorem touches_dropSeg (d : Dev) (g : Seg) (c : SegDrop) : Touches Piece.counted d (d.dropSeg g c) :=
  touches_count d (.seg g (.drop c))

theorem touches_countUp (d : Dev) (c : UpCounter) : Touches Piece.raised d (d.countUp c) :=
  (touches_count d _).mono (by simp [CounterId.piece, Piece.raised])

theorem touches_dropUp (d : Dev) (c : UpDrop) : Touches Piece.raised d (d.dropUp c) :=
  (touches_count d _).mono (by simp [CounterId.piece, Piece.raised])

theorem touches_countSpool (d : Dev) (c : SpoolCounter) :
    Touches (.spoolCounters :: Piece.raised) d (d.countSpool c) := touches_count d (.spool c)

theorem touches_offerUp (d : Dev) (f : UpFrame) : Touches Piece.raised d (d.offerUp f) := by
  unfold Dev.offerUp
  split
  · exact (touches_placeUp d f).mono
  · exact touches_dropUp _ _

/-! ### The pool and the pause state -/

theorem touches_emitPause (d : Dev) (k : PauseKind) : Touches Piece.raised d (d.emitPause k) :=
  Touches.then (l := [.transmit]) (by
  intro p hp; cases p <;> first | exact absurd (Piece.mem_of rfl) hp | simp [Piece.same]) (touches_countUp _ _)

theorem touches_sendPause (d : Dev) (k : PauseKind) : Touches Piece.raised d (d.sendPause k) := by
  unfold Dev.sendPause
  split
  · exact .refl _ _
  · split
    · intro p hp; cases p <;> first | exact absurd (Piece.mem_of rfl) hp | simp [Piece.same]
    · exact touches_emitPause _ _

theorem touches_startRepeat (d : Dev) : Touches [.pauseState] d d.startRepeat := by
  intro p hp; cases p <;> first | exact absurd (Piece.mem_of rfl) hp | simp [Piece.same, Dev.startRepeat]

theorem touches_pauseTest (d : Dev) : Touches Piece.pausing d d.pauseTest := by
  unfold Dev.pauseTest
  split
  · exact Touches.then (Touches.then (n := Piece.pausing) (Touches.then (n := Piece.pausing) (l := [.pauseState]) (by
  intro p hp; cases p <;> first | exact absurd (Piece.mem_of rfl) hp | simp [Piece.same])
      (touches_sendPause _ _)) (touches_startRepeat _)) (touches_raise _ _ _)
  · split
    · exact Touches.then (l := [.pauseState]) (by
  intro p hp; cases p <;> first | exact absurd (Piece.mem_of rfl) hp | simp [Piece.same]) (touches_sendPause _ _)
    · exact .refl _ _

theorem touches_pool (d : Dev) (q : Pool) : Touches [.pool] d { d with pool := q } := by
  intro p hp; cases p <;> first | exact absurd (Piece.mem_of rfl) hp | simp [Piece.same, Dev.seg]

theorem touches_takeTransit (d : Dev) (n : Nat) : Touches Piece.pooling d (d.takeTransit n) :=
  Touches.then (touches_pool d _) (touches_pauseTest _)

theorem touches_takeSpool (d : Dev) (n : Nat) : Touches Piece.pooling d (d.takeSpool n) :=
  Touches.ite (fun _ => .refl _ _) fun _ => Touches.then (touches_pool d _) (touches_pauseTest _)

theorem touches_freeTransit (d : Dev) (n : Nat) : Touches Piece.pooling d (d.freeTransit n) :=
  Touches.ite (fun _ => .refl _ _) fun _ => Touches.then (touches_pool d _) (touches_pauseTest _)

theorem touches_freeSpool (d : Dev) (n : Nat) : Touches Piece.pooling d (d.freeSpool n) :=
  Touches.ite (fun _ => .refl _ _) fun _ => Touches.then (touches_pool d _) (touches_pauseTest _)

/-- A frame of either branch's first part. -/
theorem touches_fst_ite {α : Type} {b : Prop} [Decidable b] {x y : Dev × α} (h : Touches l d x.1)
    (k : Touches l d y.1) : Touches l d (if b then x else y).1 := by
  split <;> assumption

/-! ### The Feeder and the endings of jobs -/

theorem touches_setJobNames (d : Dev) (f : Spooler → List Job) (i n : Spooler → Nat) : Touches [.jobs, .jobNames] d
    (d.modSpool fun s => { s with jobs := f s, nextId := i s, nextSerial := n s }) := by
  intro p hp; cases p <;> first | exact absurd (Piece.mem_of rfl) hp | simp [Piece.same]

theorem touches_setJobs (d : Dev) (f : Spooler → List Job) :
    Touches [.jobs] d (d.modSpool fun s => { s with jobs := f s }) := by
  intro p hp; cases p <;> first | exact absurd (Piece.mem_of rfl) hp | simp [Piece.same]

theorem touches_setFinished (d : Dev) (f : Spooler → List Summary) :
    Touches [.finished] d (d.modSpool fun s => { s with finished := f s }) := by
  intro p hp; cases p <;> first | exact absurd (Piece.mem_of rfl) hp | simp [Piece.same]

theorem touches_setEndings (d : Dev) (f : Spooler → List WaitingEnding) :
    Touches [.endings] d (d.modSpool fun s => { s with endings := f s }) := by
  intro p hp; cases p <;> first | exact absurd (Piece.mem_of rfl) hp | simp [Piece.same]

theorem touches_endHeldFeed (d : Dev) (g : Seg) (i : Nat) : Touches [.sched] d (d.endHeldFeed g i) :=
  touches_modSched _ _ _

theorem touches_offerItem (d : Dev) (i : Nat) : Touches [.printers] d (d.offerItem i) := by
  unfold Dev.offerItem
  split
  · split
    · exact touches_modPrinter _ _ _
    · exact .refl _ _
  · exact .refl _ _

theorem touches_enterFeeding (d : Dev) (i : Nat) : Touches [.printers] d (d.enterFeeding i) :=
  (touches_modPrinter d i _).trans (touches_offerItem _ _)

theorem touches_makeLost (d : Dev) (i : Nat) : Touches Piece.losing d (d.makeLost i) := by
  unfold Dev.makeLost
  split
  · split
    · exact .refl _ _
    · exact Touches.then (Touches.then (n := Piece.losing) (touches_endHeldFeed _ _ _) (touches_modPrinter _ _ _))
        (touches_raise _ _ _)
  · exact .refl _ _

theorem touches_makeStalled (d : Dev) (i : Nat) : Touches Piece.losing d (d.makeStalled i) := by
  unfold Dev.makeStalled
  split
  · exact Touches.then (Touches.then (n := Piece.losing) (touches_endHeldFeed _ _ _) (touches_modPrinter _ _ _))
      (touches_raise _ _ _)
  · exact .refl _ _

theorem touches_takeStamp (d : Dev) (n : Nat) : Touches [.jobs, .jobNames] d (d.takeStamp n) :=
  Touches.then (touches_modJob d n fun j => { j with stamp := some d.spool.stampCounter }) (m := [.jobNames]) (by
  intro p hp; cases p <;> first | exact absurd (Piece.mem_of rfl) hp | simp [Piece.same, Dev.takeStamp])

theorem touches_handOver (d : Dev) (i : Nat) (j : Job) : Touches Piece.selecting d (d.handOver i j) := by
  unfold Dev.handOver
  extract_lets +onlyGivenNames d1 d2
  have h1 : Touches Piece.selecting d d1 := Touches.ite (fun _ => (touches_takeStamp _ _).mono) fun _ => .refl _ _
  have h2 : Touches Piece.selecting d1 d2 := (touches_modJob _ _ _).mono
  refine (h1.trans h2).trans ?_
  split
  · exact Touches.ite (fun _ => (touches_enterFeeding _ _).mono) fun _ => (touches_makeLost _ _).mono
  · exact .refl _ _

theorem touches_select (d : Dev) (i : Nat) : Touches Piece.selecting d (d.select i) := by
  unfold Dev.select
  split
  · split
    · split
      · exact touches_handOver _ _ _
      · exact .refl _ _
    · exact .refl _ _
  · exact .refl _ _

theorem touches_selectAll (d : Dev) : Touches Piece.selecting d d.selectAll := Touches.fold touches_select _ _

theorem touches_enterIdle (d : Dev) (i : Nat) : Touches Piece.selecting d (d.enterIdle i) :=
  Touches.then (touches_modPrinter _ _ _) (touches_select _ _)

theorem touches_activeJobEnded (d : Dev) (i : Nat) : Touches Piece.selecting d (d.activeJobEnded i) := by
  unfold Dev.activeJobEnded
  split
  · extract_lets +onlyGivenNames d1
    have h1 : Touches Piece.selecting d d1 := Touches.then (touches_endHeldFeed _ _ _) (touches_modPrinter _ _ _)
    refine h1.trans ?_
    split
    · exact touches_enterIdle _ _
    · exact touches_enterIdle _ _
    · exact Touches.ite (fun _ => (touches_modPrinter _ _ _).mono) fun _ => .refl _ _
    · exact .refl _ _
    · exact .refl _ _
    · exact .refl _ _
  · exact .refl _ _

theorem touches_closeOut (d : Dev) (j : Job) (o : JobOutcome) : Touches Piece.spooling d (d.closeOut j o) := by
  unfold Dev.closeOut
  extract_lets +onlyGivenNames d1 d2 d3 d4
  have h1 : Touches [.jobs] d d1 := touches_setJobs d _
  have h2 : Touches Piece.spooling d1 d2 := (touches_freeSpool _ _).mono
  have h3 : Touches [.finished] d2 d3 := touches_setFinished d2 _
  have h4 : Touches Piece.spooling d3 d4 := (touches_countSpool _ _).mono
  refine Touches.trans (e := d4) ((h1.then h2).trans (h3.then h4)) ?_
  exact Touches.ite (fun _ => (touches_raise _ _ _).mono) fun _ => .refl _ _

theorem touches_endJob (d : Dev) (n : Nat) (o : JobOutcome) : Touches Piece.spooling d (d.endJob n o) := by
  unfold Dev.endJob
  split
  · extract_lets +onlyGivenNames d1 d2
    have h1 : Touches Piece.spooling d d1 := touches_closeOut _ _ _
    have h2 : Touches Piece.spooling d1 d2 := Touches.ite (fun _ => (touches_activeJobEnded _ _).mono) fun _ => .refl _ _
    exact (h1.trans h2).trans ((touches_selectAll _).mono)
  · exact .refl _ _

theorem touches_endJobOrWait (d : Dev) (n : Nat) (o : JobOutcome) (a : Asker) :
    Touches (.endings :: Piece.spooling) d (d.endJobOrWait n o a) :=
  Touches.ite (fun _ => Touches.mono (l := [.endings]) (by
  intro p hp; cases p <;> first | exact absurd (Piece.mem_of rfl) hp | simp [Piece.same])) fun _ => (touches_endJob _ _ _).mono

theorem touches_failSource (d : Dev) (g : Seg) (n : Nat) :
    Touches (.endings :: Piece.spooling) d (d.failSource g n) :=
  Touches.fold (fun _ _ => touches_endJobOrWait _ _ _ _) _ _

theorem touches_failSegmentSources (d : Dev) (g : Seg) :
    Touches (.endings :: Piece.spooling) d (d.failSegmentSources g) :=
  Touches.fold (fun _ _ => touches_endJobOrWait _ _ _ _) _ _

theorem touches_answerEnding (d : Dev) (a : Asker) (st : Status) :
    Touches [.requests, .answer] d (d.answerEnding a st) := by
  unfold Dev.answerEnding
  split
  · exact .refl _ _
  · intro p hp; cases p <;> first | exact absurd (Piece.mem_of rfl) hp | simp [Piece.same]
  · intro p hp; cases p <;> first | exact absurd (Piece.mem_of rfl) hp | simp [Piece.same]

theorem touches_applyEnding (d : Dev) (w : WaitingEnding) : Touches Piece.ending d (d.applyEnding w) := by
  unfold Dev.applyEnding
  split
  · exact Touches.then (touches_endJob _ _ _) (touches_answerEnding _ _ _)
  · exact (touches_answerEnding _ _ _).mono

theorem touches_applyEndings (d : Dev) : Touches Piece.ending d d.applyEndings :=
  Touches.trans (Touches.mono (e := d.modSpool _) (l := [.endings]) (by
  intro p hp; cases p <;> first | exact absurd (Piece.mem_of rfl) hp | simp [Piece.same]))
    (Touches.fold (fun _ _ => touches_applyEnding _ _) _ _)

theorem touches_printerStatus (d : Dev) (i : Nat) (f : Bool) : Touches Piece.selecting d (d.printerStatus i f) := by
  unfold Dev.printerStatus
  split
  · split
    iterate 3 exact Touches.ite (fun _ => (touches_makeStalled _ _).mono) fun _ => .refl _ _
    · exact Touches.ite (fun _ => .refl _ _) fun _ =>
        Touches.ite (fun _ => (touches_enterFeeding _ _).mono) fun _ => touches_enterIdle _ _
    iterate 2 exact .refl _ _
  · exact .refl _ _

theorem touches_printerRecovers (d : Dev) (i : Nat) (f : Bool) :
    Touches Piece.selecting d (d.printerRecovers i f) := by
  unfold Dev.printerRecovers
  split
  · split
    · extract_lets +onlyGivenNames d1
      refine Touches.trans (e := d1) ((touches_modPrinter _ _ _).mono) ?_
      exact Touches.ite (fun _ => (touches_makeStalled _ _).mono) fun _ =>
        Touches.ite (fun _ => (touches_enterFeeding _ _).mono) fun _ => touches_enterIdle _ _
    · exact .refl _ _
  · exact .refl _ _

theorem touches_printerPolled (d : Dev) (i : Nat) (f : Bool) : Touches Piece.selecting d (d.printerPolled i f) := by
  unfold Dev.printerPolled
  split
  · extract_lets +onlyGivenNames d1
    refine Touches.trans (e := d1) ((touches_modPrinter _ _ _).mono) ?_
    exact Touches.ite (fun _ => touches_printerRecovers _ _ _) fun _ => touches_printerStatus _ _ _
  · exact .refl _ _

theorem touches_itemAccepted (d : Dev) (i n : Nat) (z : Bool) (m : Mark) :
    Touches Piece.feeding d (d.itemAccepted i n z m) := by
  unfold Dev.itemAccepted
  extract_lets +onlyGivenNames d1 d2 d3
  have h1 : Touches Piece.feeding d d1 := by
    simp only [d1]; split
    · exact Touches.then (touches_modJob _ _ _) (touches_freeSpool _ _)
    · exact .refl _ _
  have h2 : Touches Piece.feeding d1 d2 := by
    simp only [d2]; split
    · exact (touches_countSeg _ _ _).mono
    · exact .refl _ _
  have h3 : Touches Piece.feeding d2 d3 := (touches_modPrinter _ _ _).mono
  exact (h1.trans (h2.trans h3)).trans (Touches.ite (fun _ => (touches_endJob _ _ _).mono) fun _ => .refl _ _)

theorem touches_feedAccepted (d : Dev) (i n : Nat) (z : Bool) (m : Mark) (f : Bool) :
    Touches Piece.feeding d (d.feedAccepted i n z m f) := by
  unfold Dev.feedAccepted
  split
  · extract_lets +onlyGivenNames d1
    refine Touches.trans (e := d1) ((touches_modPrinter _ _ _).mono) ?_
    refine Touches.ite (fun _ => Touches.then (touches_itemAccepted _ _ _ _ _) (touches_selectAll _)) fun _ => ?_
    refine Touches.ite (fun _ => ?_) fun _ => ?_
    · extract_lets +onlyGivenNames d2 d3
      have h2 : Touches Piece.feeding d1 d2 := (touches_modPrinter _ _ _).mono
      have h3 : Touches Piece.feeding d2 d3 := Touches.then (touches_itemAccepted _ _ _ _ _) (touches_selectAll _)
      refine (h2.trans h3).trans ?_
      split
      · exact Touches.ite (fun _ => (touches_raise _ _ _).mono) fun _ => .refl _ _
      · exact .refl _ _
    · exact Touches.then (Touches.then (n := Piece.feeding) (touches_itemAccepted _ _ _ _ _) (touches_offerItem _ _))
        (touches_selectAll _)
  · exact .refl _ _

theorem touches_feedRefused (d : Dev) (i : Nat) (f : Bool) : Touches Piece.selecting d (d.feedRefused i f) := by
  unfold Dev.feedRefused
  split
  · refine Touches.ite (fun _ => .refl _ _) fun _ => ?_
    extract_lets +onlyGivenNames d1
    refine Touches.trans (e := d1) ((touches_modPrinter _ _ _).mono) ?_
    exact Touches.ite (fun _ => touches_printerStatus _ _ _) fun _ =>
      Touches.ite (fun _ => (touches_modPrinter _ _ _).mono) fun _ => .refl _ _
  · exact .refl _ _

theorem touches_feedFailed (d : Dev) (i : Nat) : Touches Piece.losing d (d.feedFailed i) := by
  unfold Dev.feedFailed
  split
  · refine Touches.ite (fun _ => .refl _ _) fun _ => ?_
    extract_lets +onlyGivenNames n d1
    have h1 : Touches Piece.losing d d1 := (touches_modPrinter _ _ _).mono
    exact h1.trans (Touches.ite (fun _ => touches_makeLost _ _) fun _ => .refl _ _)
  · exact .refl _ _

theorem touches_closeJob (d : Dev) (n : Nat) : Touches Piece.selecting d (d.closeJob n) := by
  unfold Dev.closeJob
  split
  · split
    · exact Touches.then (Touches.then (n := Piece.selecting) (touches_takeStamp _ _) (touches_modJob _ _ _))
        (touches_select _ _)
    · exact Touches.then (touches_modJob _ _ _) (touches_offerItem _ _)
    · exact (touches_modJob _ _ _).mono
  · exact .refl _ _

theorem touches_appendUnit (d : Dev) (j : Job) (b : List Byte) (m : Mark) :
    Touches Piece.spooling d (d.appendUnit j b m).1 := by
  unfold Dev.appendUnit
  extract_lets +onlyGivenNames d1 bs
  have h1 : Touches Piece.spooling d d1 := (touches_modJob _ _ _).mono
  split
  · extract_lets +onlyGivenNames d2 d3
    have h2 : Touches Piece.spooling d1 d2 := (touches_modJob _ _ _).mono
    have h3 : Touches Piece.spooling d2 d3 := Touches.then (Touches.then (n := Piece.spooling) (touches_takeSpool _ _)
      (touches_offerItem _ _)) (touches_selectAll _)
    exact (h1.trans (h2.trans h3)).trans (Touches.ite (fun _ => (touches_closeJob _ _).mono) fun _ => .refl _ _)
  · exact h1

theorem touches_closeLast (d : Dev) (serial : Nat) (m : Mark) :
    Touches Piece.spooling d (if m = .last then d.closeJob serial else d).selectAll :=
  (Touches.ite (l := Piece.spooling) (fun _ => (touches_closeJob _ _).mono) fun _ => .refl _ _).trans
    ((touches_selectAll _).mono)

theorem touches_createJob (d : Dev) (i : Nat) (x : Source) (b : List Byte) (m : Mark) :
    Touches Piece.spooling d (d.createJob i x b m).1 := by
  unfold Dev.createJob
  extract_lets +onlyGivenNames bs
  split
  · exact .refl _ _
  · refine touches_fst_ite (.refl _ _) (touches_fst_ite (.refl _ _) (touches_fst_ite (.refl _ _)
      (touches_fst_ite (.refl _ _) ?_)))
    extract_lets +onlyGivenNames id serial job d1 d2
    have h1 : Touches Piece.spooling d d1 := Touches.mono (touches_setJobNames d _ _ _)
    have h2 : Touches Piece.spooling d1 d2 := (touches_takeSpool d1 bs.length).mono
    dsimp only
    exact (h1.trans h2).trans (touches_closeLast d2 serial m)

theorem touches_takeUnit (d : Dev) (g : Seg) (n : Nat) (x : Source) (b : List Byte) (m : Mark) :
    Touches Piece.spooling d (d.takeUnit g n x b m).1 := by
  unfold Dev.takeUnit
  extract_lets +onlyGivenNames r
  have h : Touches Piece.spooling d r.1 := by
    simp only [r]; split
    · exact .refl _ _
    · split
      · exact touches_appendUnit _ _ _ _
      · exact touches_createJob _ _ _ _ _
  split
  · exact h.trans ((touches_countSpool _ _).mono)
  · exact h.trans ((touches_countSpool _ _).mono)

theorem touches_closeIdleJobs (d : Dev) : Touches Piece.selecting d d.closeIdleJobs :=
  Touches.fold (fun _ _ => touches_closeJob _ _) _ _

theorem touches_redirectJob (d : Dev) (i t : Nat) : Touches Piece.selecting d (d.redirectJob i t).1 := by
  unfold Dev.redirectJob
  split
  · exact .refl _ _
  · split
    · repeat' split
      all_goals first | exact .refl _ _ | exact Touches.then (touches_modJob _ _ _) (touches_select _ _)
    · exact .refl _ _

theorem touches_disablePrinter (d : Dev) (i : Nat) : Touches [.printers] d (d.disablePrinter i).1 := by
  unfold Dev.disablePrinter
  repeat' split
  all_goals first | exact .refl _ _ | exact touches_modPrinter _ _ _

theorem touches_enablePrinter (d : Dev) (i : Nat) : Touches Piece.selecting d (d.enablePrinter i).1 := by
  unfold Dev.enablePrinter
  repeat' split
  all_goals first
    | exact .refl _ _
    | exact Touches.then (touches_modPrinter _ _ _) (touches_select _ _)
    | exact (touches_modPrinter _ _ _).mono

/-! ### Cycles, holds and downstream queues -/

theorem touches_startCycle (d : Dev) (g : Seg) : Touches [.sched] d (d.startCycle g) :=
  touches_modSeg d g _ fun p hp => by cases p <;> first | exact absurd (Piece.mem_of rfl) hp | trivial

theorem touches_skipVisits (d : Dev) (g : Seg) (i : Nat) : Touches [.sched] d (d.skipVisits g i) :=
  touches_modSched _ _ _

theorem touches_endHeldPoll (d : Dev) (g : Seg) (i : Nat) : Touches [.sched] d (d.endHeldPoll g i) :=
  touches_modSched _ _ _

theorem touches_askHold (d : Dev) (g : Seg) (h : Hold) : Touches [.sched] d (d.askHold g h) := touches_modSched _ _ _

theorem touches_withdrawHold (d : Dev) (g : Seg) (h : Hold) : Touches [.sched] d (d.withdrawHold g h) :=
  touches_modSched _ _ _

theorem touches_endHold (d : Dev) (g : Seg) (h : Hold) : Touches [.sched] d (d.endHold g h) := touches_modSched _ _ _

theorem touches_passDue (d : Dev) (g : Seg) : Touches [.disc, .sched] d (d.passDue g) := by
  unfold Dev.passDue
  refine Touches.ite (fun _ => ?_) fun _ => .refl _ _
  extract_lets +onlyGivenNames d1
  have h1 : Touches [.disc, .sched] d d1 := (touches_modDisc _ _ _).mono
  refine h1.trans ?_
  split
  · exact (touches_askHold _ _ _).mono
  · exact (touches_askHold _ _ _).mono
  · exact .refl _ _

theorem touches_startInterval (d : Dev) (g : Seg) : Touches [.disc] d (d.startInterval g) := touches_modDisc _ _ _

theorem touches_modFrame (d : Dev) (g : Seg) (n : Nat) (f : DownFrame → DownFrame) :
    Touches [.downq] d (d.modFrame g n f) :=
  touches_modSeg d g _ fun p hp => by cases p <;> first | exact absurd (Piece.mem_of rfl) hp | trivial

theorem touches_setDownq (d : Dev) (g : Seg) (f : Segment → List DownFrame) :
    Touches [.downq] d (d.modSeg g fun s => { s with downq := f s }) :=
  touches_modSeg d g _ fun p hp => by cases p <;> first | exact absurd (Piece.mem_of rfl) hp | trivial

theorem touches_setBackoffs (d : Dev) (g : Seg) (f : Segment → List Backoff) :
    Touches [.backoffs] d (d.modSeg g fun s => { s with backoffs := f s }) :=
  touches_modSeg d g _ fun p hp => by cases p <;> first | exact absurd (Piece.mem_of rfl) hp | trivial

theorem touches_nextFid (d : Dev) (n : Nat) : Touches [.names] d { d with nextFid := n } := by
  intro p hp; cases p <;> first | exact absurd (Piece.mem_of rfl) hp | simp [Piece.same, Dev.seg]

theorem touches_placeDown (d : Dev) (g : Seg) (k n : Nat) (m : Mark) (b : List Byte) :
    Touches [.downq, .names] d (d.placeDown g k n m b) :=
  Touches.then (touches_setDownq d g fun s => s.downq ++ [_]) (touches_nextFid _ _)

theorem touches_removeFrame (d : Dev) (g : Seg) (f : DownFrame) : Touches Piece.flushing d (d.removeFrame g f) :=
  Touches.then (Touches.then (n := Piece.flushing) (touches_setDownq _ _ _) (touches_freeTransit _ _))
    (touches_selectAll _)

theorem touches_endHeldDeliver (d : Dev) (g : Seg) (n : Nat) : Touches [.sched] d (d.endHeldDeliver g n) :=
  touches_modSched _ _ _

theorem touches_flushOne (d : Dev) (g : Seg) (f : DownFrame) : Touches Piece.flushing d (d.flushOne g f) :=
  Touches.then (Touches.then (n := Piece.flushing) (touches_endHeldDeliver _ _ _) (touches_removeFrame _ _ _))
    (touches_dropSeg _ _ _)

theorem touches_flush (d : Dev) (g : Seg) (q : DownFrame → Bool) : Touches Piece.flushing d (d.flush g q) :=
  Touches.trans ((touches_setDownq d g fun s => s.downq.map _).mono) (Touches.fold (fun _ _ => touches_flushOne _ _ _) _ _)

theorem touches_endBackoff (d : Dev) (g : Seg) (n : Nat) : Touches [.backoffs] d (d.endBackoff g n) :=
  touches_setBackoffs _ _ _

theorem touches_startBackoff (d : Dev) (g : Seg) (n : Nat) : Touches [.backoffs] d (d.startBackoff g n) :=
  touches_setBackoffs _ _ _

theorem touches_flushStation (d : Dev) (g : Seg) (n : Nat) : Touches Piece.flushing d (d.flushStation g n) :=
  Touches.then (touches_flush _ _ _) (touches_endBackoff _ _ _)

theorem touches_flushForPrinter (d : Dev) (g : Seg) (n : Nat) : Touches Piece.flushing d (d.flushForPrinter g n) :=
  Touches.then (touches_flush _ _ _) (touches_endBackoff _ _ _)

theorem touches_flushQueue (d : Dev) (g : Seg) : Touches Piece.flushing d (d.flushQueue g) :=
  Touches.then (touches_flush _ _ _) (touches_setBackoffs _ _ _)

/-! ### Aliases and stations -/

theorem touches_useAlias (d : Dev) (g : Seg) (n : Nat) : Touches [.aliases] d (d.useAlias g n) := touches_modAlias _ _ _ _

theorem touches_newDynamic (d : Dev) (g : Seg) (n : Nat) (t : Target) : Touches [.aliases] d (d.newDynamic g n t) :=
  touches_addAlias _ _

theorem touches_allocate (d : Dev) (g : Seg) (t : Target) : Touches Piece.aliasing d (d.allocate g t).1 := by
  unfold Dev.allocate
  dsimp only
  split
  · refine touches_fst_ite ((touches_newDynamic _ _ _ _).mono) ?_
    split
    · split
      · exact Touches.then (touches_withdrawAlias _ _ _) (touches_newDynamic _ _ _ _)
      · exact (touches_withdrawAlias _ _ _).mono
    · exact (touches_raise _ _ _).mono
  · split
    · exact Touches.then (touches_withdrawAlias _ _ _) (touches_newDynamic _ _ _ _)
    · exact (touches_raise _ _ _).mono

theorem touches_fromNumber (d : Dev) (g : Seg) (t : Target) : Touches Piece.aliasing d (d.fromNumber g t).1 := by
  unfold Dev.fromNumber
  split
  · exact (touches_useAlias _ _ _).mono
  · exact touches_allocate _ _ _

theorem touches_conflictCheck (d : Dev) (g : Seg) (n : Nat) : Touches Piece.aliasing d (d.conflictCheck g n) := by
  unfold Dev.conflictCheck
  split
  · exact .refl _ _
  · split
    · exact (touches_withdrawAlias _ _ _).mono
    · exact Touches.then (touches_modAlias _ _ _ _) (touches_raise _ _ _)
    · exact .refl _ _

theorem touches_conflictRelease (d : Dev) (g : Seg) (n : Nat) : Touches [.aliases] d (d.conflictRelease g n) := by
  unfold Dev.conflictRelease
  split
  · exact .refl _ _
  · exact Touches.ite (fun _ => (touches_modAlias _ _ _ _).trans (touches_withdrawAliases _ _)) fun _ => .refl _ _

theorem touches_insertStation (d : Dev) (e : Station) : Touches [.stations, .names] d (d.insertStation e) :=
  by
  intro p hp; cases p <;> first | exact absurd (Piece.mem_of rfl) hp | simp [Piece.same, Dev.insertStation, Dev.seg]

theorem touches_createStation (d : Dev) (e : Station) : Touches Piece.directing d (d.createStation e) :=
  Touches.then (touches_insertStation _ _) (touches_conflictCheck _ _ _)

theorem touches_dropEntry (d : Dev) (q : Station → Bool) :
    Touches [.stations] d { d with stations := removeFirst q d.stations } := by
  intro p hp; cases p <;> first | exact absurd (Piece.mem_of rfl) hp | simp [Piece.same, Dev.seg]

theorem touches_removeStation (d : Dev) (e : Station) : Touches Piece.directing d (d.removeStation e) := by
  unfold Dev.removeStation
  extract_lets +onlyGivenNames d1
  have h1 : Touches Piece.directing d d1 := (touches_dropEntry d fun x => x.eid == e.eid).mono
  exact h1.trans <| Touches.then (n := Piece.directing) (Touches.then (n := Piece.directing) (Touches.then (n := Piece.directing)
    (touches_flushStation _ _ _) (touches_conflictRelease _ _ _)) (touches_skipVisits _ _ _)) (touches_endHeldPoll _ _ _)

theorem touches_shutOut (d : Dev) (e : Station) (st : StationState) (q : Option QuarantineCause) :
    Touches Piece.directing d (d.shutOut e st q) := by
  unfold Dev.shutOut
  extract_lets +onlyGivenNames d1 d2 d3 d4
  have h1 : Touches Piece.directing d d1 := (touches_modStation _ _ _).mono
  have h2 : Touches Piece.directing d1 d2 := (touches_flushStation _ _ _).mono
  have h3 : Touches Piece.directing d2 d3 := by
    simp only [d3]; split
    · exact (touches_makeLost _ _).mono
    · exact .refl _ _
  have h4 : Touches Piece.directing d3 d4 :=
    Touches.ite (fun _ => .refl _ _) fun _ => (touches_failSource _ _ _).mono
  exact (h1.trans (h2.trans (h3.trans h4))).trans
    (Touches.then (touches_skipVisits _ _ _) (touches_endHeldPoll _ _ _))

theorem touches_quarantineSuspect (d : Dev) (g : Seg) (n : Nat) :
    Touches Piece.directing d (d.quarantineSuspect g n) := by
  unfold Dev.quarantineSuspect
  split
  · exact Touches.ite (fun _ => .refl _ _) fun _ => Touches.then (touches_shutOut _ _ _ _) (touches_raise _ _ _)
  · exact .refl _ _

theorem touches_stationGood (d : Dev) (e : Station) : Touches [.stations] d (d.stationGood e) :=
  touches_modStation _ _ _

theorem touches_stationFailed (d : Dev) (e : Station) (x : FailCause) :
    Touches Piece.directing d (d.stationFailed e x) := by
  unfold Dev.stationFailed
  extract_lets +onlyGivenNames ms st d1
  have h1 : Touches Piece.directing d d1 := (touches_modStation _ _ _).mono
  refine h1.trans (Touches.ite (fun _ => Touches.ite (fun _ => .refl _ _) fun _ =>
    Touches.then (touches_shutOut _ _ _ _) (touches_raise _ _ _)) fun _ => ?_)
  split
  · exact Touches.ite (fun _ => (touches_modStation _ _ _).mono) fun _ => .refl _ _
  · exact Touches.ite (fun _ => Touches.then (touches_shutOut _ _ _ _) (touches_raise _ _ _)) fun _ => .refl _ _
  all_goals exact .refl _ _

theorem touches_quarantineByManager (d : Dev) (e : Station) :
    Touches Piece.directing d (d.quarantineByManager e) :=
  Touches.ite (fun _ => (touches_modStation _ _ _).mono) fun _ => touches_shutOut _ _ _ _

theorem touches_releaseStation (d : Dev) (e : Station) : Touches Piece.directing d (d.releaseStation e) :=
  Touches.then (touches_shutOut _ _ _ _) (touches_modStation _ _ _)

theorem touches_forgetAll (d : Dev) : Touches Piece.directing d d.forgetAll :=
  Touches.fold touches_removeStation _ _

theorem touches_forgetAt (d : Dev) (g : Seg) (n : Nat) : Touches Piece.directing d (d.forgetAt g n) := by
  unfold Dev.forgetAt
  split
  · exact Touches.ite (fun _ => touches_removeStation _ _) fun _ => .refl _ _
  · exact .refl _ _

theorem touches_enterNew (d : Dev) (e : Station) (k : EventKind) (s : Subject) :
    Touches Piece.directing d (((d.insertStation e).raise k s).conflictCheck e.seg e.number) :=
  Touches.then (Touches.then (n := Piece.directing) (touches_insertStation _ _) (touches_raise _ _ _))
    (touches_conflictCheck _ _ _)

theorem touches_enterStation (d : Dev) (e : Station) (k : EventKind) :
    Touches Piece.directing d (d.enterStation e k).1 := by
  unfold Dev.enterStation
  dsimp only
  refine touches_fst_ite (touches_enterNew _ _ _ _) ?_
  split
  · exact (touches_removeStation _ _).trans (touches_enterNew _ _ _ _)
  · exact (touches_raise _ _ _).mono

theorem touches_clearSentMark (d : Dev) (g : Seg) (n : Nat) : Touches [.printers] d (d.clearSentMark g n) := by
  unfold Dev.clearSentMark
  split
  · exact touches_modPrinter _ _ _
  · exact .refl _ _

theorem touches_applyFound (d : Dev) (g : Seg) (n : Nat) : Touches Piece.directing d (d.applyFound g n) := by
  unfold Dev.applyFound
  split
  · extract_lets +onlyGivenNames d1
    have h1 : Touches Piece.directing d d1 := (touches_modStation _ _ _).mono
    exact h1.trans (Touches.ite (fun _ => (touches_clearSentMark _ _ _).mono) fun _ => .refl _ _)
  · exact touches_enterStation _ _ _

theorem touches_applyCandidate (d : Dev) (g : Seg) (n : Nat) :
    Touches Piece.directing d (d.applyCandidate g n).1 := by
  unfold Dev.applyCandidate
  split
  · split
    iterate 3
      refine touches_fst_ite ?_ ((touches_modStation _ _ _).mono)
      exact Touches.then (Touches.then (n := Piece.directing) (touches_modStation _ _ _) (touches_shutOut _ _ _ _))
        (touches_raise _ _ _)
    iterate 2 exact (touches_modStation _ _ _).mono
  · exact touches_fst_ite (touches_enterStation _ _ _) (.refl _ _)

theorem touches_applyResults (g : Seg) (fs cs : List Nat) : ∀ (ns : List Nat) (d : Dev) (ks : List Nat),
    Touches Piece.directing d (Dev.applyResults g fs cs ns d ks).1
  | [], d, ks => .refl _ _
  | n :: ns, d, ks => by
    unfold Dev.applyResults
    refine touches_fst_ite ((touches_applyFound _ _ _).trans (touches_applyResults g fs cs ns _ _)) ?_
    exact touches_fst_ite ((touches_applyCandidate _ _ _).trans (touches_applyResults g fs cs ns _ _))
      (touches_applyResults g fs cs ns _ _)

/-! ### The Line Monitor and the Line Probe -/

theorem touches_endPulse (d : Dev) (g : Seg) : Touches [.probe, .txEnable] d (d.modSeg g Segment.endPulse) :=
  touches_modSeg d g _ fun p hp => by cases p <;> first | exact absurd (Piece.mem_of rfl) hp | trivial

theorem touches_launchShot (d : Dev) (g : Seg) : Touches [.probe, .txEnable] d (d.launchShot g) :=
  touches_modSeg d g _ fun p hp => by cases p <;> first | exact absurd (Piece.mem_of rfl) hp | trivial

theorem touches_settle (d : Dev) (g : Seg) : Touches [.txEnable] d (d.modSeg g Segment.settleEnable) :=
  touches_modSeg d g _ fun p hp => by cases p <;> first | exact absurd (Piece.mem_of rfl) hp | trivial

theorem touches_setSegState (d : Dev) (g : Seg) (st : SegState) : Touches [.mon, .txEnable] d (d.setSegState g st) :=
  touches_modSeg d g _ fun p hp => by cases p <;> first | exact absurd (Piece.mem_of rfl) hp | trivial

theorem touches_beginProbe (d : Dev) (g : Seg) (h : Bool) : Touches [.probe] d (d.beginProbe g h) :=
  touches_modProbe _ _ _

theorem touches_requestProbe (d : Dev) (g : Seg) (t : Trigger) : Touches [.probe] d (d.requestProbe g t) :=
  Touches.ite (fun _ => (touches_modProbe _ _ _).trans (touches_beginProbe _ _ _)) fun _ => touches_modProbe _ _ _

theorem touches_enterStarting (d : Dev) (g : Seg) : Touches [.mon, .txEnable, .probe] d (d.enterStarting g) :=
  Touches.then (touches_setSegState _ _ _) (touches_requestProbe _ _ _)

theorem touches_losePrinters (d : Dev) (g : Seg) : Touches Piece.losing d (d.losePrinters g) := by
  refine Touches.fold (fun d i => ?_) _ _
  split
  · exact Touches.ite (fun _ => touches_makeLost _ _) fun _ => .refl _ _
  · exact .refl _ _

theorem touches_probeDeparts (d : Dev) (g : Seg) : Touches [.probe] d (d.probeDeparts g) := by
  unfold Dev.probeDeparts
  split
  · exact touches_beginProbe _ _ _
  · exact touches_modProbe _ _ _

theorem touches_depart (d : Dev) (g : Seg) : Touches Piece.monitoring d (d.depart g) := by
  unfold Dev.depart
  extract_lets +onlyGivenNames d1 d2 d3 d4 d5
  have h1 : Touches Piece.monitoring d d1 := (touches_modSched _ _ _).mono
  have h2 : Touches Piece.monitoring d1 d2 := (touches_flushQueue _ _).mono
  have h3 : Touches Piece.monitoring d2 d3 := (touches_modDisc _ _ _).mono
  have h4 : Touches Piece.monitoring d3 d4 := (touches_losePrinters _ _).mono
  have h5 : Touches Piece.monitoring d4 d5 := (touches_failSegmentSources _ _).mono
  exact (h1.trans (h2.trans (h3.trans (h4.trans h5)))).trans (touches_probeDeparts _ _).mono

theorem touches_enterCooling (d : Dev) (g : Seg) : Touches [.mon, .txEnable] d (d.enterCooling g) :=
  Touches.then (touches_setSegState _ _ _) (touches_modMon _ _ _)

theorem touches_recordTrip (d : Dev) (g : Seg) (f : TripFrom) (w : WentTo) : Touches [.mon] d (d.recordTrip g f w) := by
  unfold Dev.recordTrip
  split <;> exact touches_modMon _ _ _

theorem touches_trip (d : Dev) (g : Seg) (f : TripFrom) : Touches Piece.monitoring d (d.trip g f) := by
  unfold Dev.trip
  extract_lets +onlyGivenNames d1 cools w d2 d3 d4 d5 d6
  have h1 : Touches Piece.monitoring d d1 := (touches_modMon _ _ _).mono
  have h2 : Touches Piece.monitoring d1 d2 :=
    Touches.ite (fun _ => (touches_enterCooling _ _).mono) fun _ => (touches_setSegState _ _ _).mono
  have h3 : Touches Piece.monitoring d2 d3 := (touches_raise _ _ _).mono
  have h4 : Touches Piece.monitoring d3 d4 := Touches.ite (fun _ => .refl _ _) fun _ => (touches_raise _ _ _).mono
  have h5 : Touches Piece.monitoring d4 d5 := (touches_countSeg _ _ _).mono
  have h6 : Touches Piece.monitoring d5 d6 := (touches_recordTrip _ _ _ _).mono
  exact (h1.trans (h2.trans (h3.trans (h4.trans (h5.trans h6))))).trans (touches_depart _ _)

theorem touches_suspectAnalysis (d : Dev) (g : Seg) : Touches Piece.monitoring d (d.suspectAnalysis g) := by
  unfold Dev.suspectAnalysis
  split
  · exact .refl _ _
  · split
    · exact .refl _ _
    · exact Touches.ite (fun _ => .refl _ _) fun _ => Touches.then (touches_modMon _ _ _) (touches_quarantineSuspect _ _ _)

theorem touches_becomeStrained (d : Dev) (g : Seg) : Touches Piece.monitoring d (d.becomeStrained g) := by
  unfold Dev.becomeStrained
  extract_lets +onlyGivenNames d1 d2
  have h1 : Touches Piece.monitoring d d1 := Touches.then (touches_setSegState _ _ _) (touches_raise _ _ _)
  have h2 : Touches Piece.monitoring d1 d2 := Touches.ite (fun _ => (touches_withdrawHold _ _ _).mono) fun _ => .refl _ _
  exact (h1.trans h2).trans (touches_suspectAnalysis _ _)

theorem touches_becomeRelieved (d : Dev) (g : Seg) : Touches Piece.monitoring d (d.becomeRelieved g) := by
  unfold Dev.becomeRelieved
  extract_lets +onlyGivenNames d1
  have h1 : Touches Piece.monitoring d d1 := Touches.then (touches_setSegState _ _ _) (touches_raise _ _ _)
  exact h1.trans (Touches.ite (fun _ => (touches_askHold _ _ _).mono) fun _ => .refl _ _)

theorem touches_testThresholds (d : Dev) (g : Seg) (b : Bool) : Touches Piece.monitoring d (d.testThresholds g b) := by
  unfold Dev.testThresholds
  dsimp only
  split
  · exact Touches.ite (fun _ => touches_trip _ _ _) fun _ =>
      Touches.ite (fun _ => touches_becomeStrained _ _) fun _ => .refl _ _
  · exact Touches.ite (fun _ => touches_trip _ _ _) fun _ =>
      Touches.ite (fun _ => touches_becomeRelieved _ _) fun _ => .refl _ _
  · exact Touches.ite (fun _ => touches_trip _ _ _) fun _ => .refl _ _
  all_goals exact .refl _ _

theorem touches_charge (d : Dev) (g : Seg) (x : FailCause) (n : Nat) : Touches Piece.monitoring d (d.charge g x n) :=
  Touches.then (touches_modMon _ _ _) (touches_testThresholds _ _ _)

theorem touches_drain (d : Dev) (g : Seg) : Touches Piece.monitoring d (d.drain g) :=
  Touches.then (touches_modMon _ _ _) (touches_testThresholds _ _ _)

theorem touches_report (d : Dev) (g : Seg) (o : ExOutcome) (n : Nat) (b : Bool) :
    Touches Piece.monitoring d (d.report g o n b) := by
  unfold Dev.report
  refine Touches.ite (fun _ => .refl _ _) fun _ => ?_
  split
  · exact touches_drain _ _
  · exact Touches.ite (fun _ => .refl _ _) fun _ => touches_charge _ _ _ _

theorem touches_startProbeResult (d : Dev) (g : Seg) (b : Bool) : Touches Piece.probing d (d.startProbeResult g b) := by
  unfold Dev.startProbeResult
  refine Touches.ite (fun _ => ?_) fun _ => ?_
  · exact Touches.then (n := Piece.probing) (Touches.then (n := Piece.probing) (Touches.then (n := Piece.probing)
      (touches_modMon _ _ _) (touches_setSegState _ _ _)) (touches_startCycle _ _)) (touches_passDue _ _)
  · extract_lets +onlyGivenNames d1
    have h1 : Touches Piece.probing d d1 := (touches_modMon _ _ _).mono
    exact h1.trans (Touches.ite (fun _ => Touches.then (touches_setSegState _ _ _) (touches_raise _ _ _)) fun _ =>
      (touches_enterCooling _ _).mono)

theorem touches_retryProbeResult (d : Dev) (g : Seg) (b : Bool) : Touches Piece.probing d (d.retryProbeResult g b) := by
  unfold Dev.retryProbeResult
  refine Touches.ite (fun _ => ?_) fun _ => ?_
  · extract_lets +onlyGivenNames c d1
    have h1 : Touches Piece.probing d d1 := (touches_modMon _ _ _).mono
    exact h1.trans (Touches.then (n := Piece.probing) (Touches.then (n := Piece.probing)
      (touches_setSegState _ _ _) (touches_startCycle _ _)) (touches_startInterval _ _))
  · extract_lets +onlyGivenNames d1
    have h1 : Touches Piece.probing d d1 := (touches_modMon _ _ _).mono
    exact h1.trans (Touches.ite (fun _ => (touches_enterCooling _ _).mono) fun _ =>
      Touches.then (touches_setSegState _ _ _) (touches_raise _ _ _))

theorem touches_probeResult (d : Dev) (g : Seg) (t : Trigger) (b : Bool) :
    Touches Piece.probing d (d.probeResult g t b) := by
  unfold Dev.probeResult
  split
  · exact touches_startProbeResult _ _ _
  · exact touches_retryProbeResult _ _ _
  · exact .refl _ _

theorem touches_completeProbe (d : Dev) (g : Seg) (r : ProbeRecord) :
    Touches Piece.probing d (d.completeProbe g r) := by
  unfold Dev.completeProbe
  extract_lets +onlyGivenNames d1 d2 held d3 d4
  have h1 : Touches Piece.probing d d1 := Touches.then (touches_modProbe _ _ _) (touches_raise _ _ _)
  have h2 : Touches Piece.probing d1 d2 := Touches.ite (fun _ => .refl _ _) fun _ => touches_probeResult _ _ _ _
  have h3 : Touches Piece.probing d2 d3 := Touches.then (touches_endPulse _ _) (touches_modProbe _ _ _)
  have h4 : Touches Piece.probing d3 d4 := Touches.ite (fun _ => (touches_endHold _ _ _).mono) fun _ => .refl _ _
  refine (h1.trans (h2.trans (h3.trans h4))).trans ?_
  split
  · exact Touches.then (touches_modProbe _ _ _) (touches_beginProbe _ _ _)
  · exact .refl _ _

theorem touches_abortProbe (d : Dev) (g : Seg) : Touches Piece.probing d (d.abortProbe g) := by
  unfold Dev.abortProbe
  extract_lets +onlyGivenNames d1
  have h1 : Touches Piece.probing d d1 := (touches_modProbe _ _ _).mono
  exact h1.trans (Touches.ite (fun _ => .refl _ _) fun _ => touches_completeProbe _ _ _)

theorem touches_recordShot (d : Dev) (g : Seg) (x : Shot) : Touches Piece.probing d (d.recordShot g x) := by
  unfold Dev.recordShot
  extract_lets +onlyGivenNames d1 p
  have h1 : Touches Piece.probing d d1 := Touches.then (touches_endPulse _ _) (touches_modProbe _ _ _)
  exact h1.trans (Touches.ite (fun _ => touches_completeProbe _ _ _) fun _ => .refl _ _)

/-! ### Taking frames -/

theorem touches_settleFrom (d : Dev) (k : Seg) (x : Source) : Touches Piece.aliasing d (d.settleFrom k x).1 := by
  unfold Dev.settleFrom
  split
  · exact touches_fst_ite (.refl _ _) (touches_fromNumber _ _ _)
  · exact touches_fromNumber _ _ _

theorem touches_toStation (d : Dev) (k : Seg) (n : Nat) (x : Source) :
    Touches Piece.aliasing d (d.toStation k n x).1 := by
  unfold Dev.toStation
  split
  · exact .refl _ _
  · split
    iterate 3 exact .refl _ _
    all_goals
      refine touches_fst_ite (.refl _ _) (touches_fst_ite (.refl _ _) ?_)
      have h := touches_settleFrom d k x
      split <;> simp_all

theorem touches_resolveCoax (d : Dev) (g : Seg) (n k : Nat) : Touches Piece.aliasing d (d.resolveCoax g n k).1 := by
  unfold Dev.resolveCoax
  refine touches_fst_ite (.refl _ _) (touches_fst_ite (.refl _ _) (touches_fst_ite (touches_toStation _ _ _ _) ?_))
  split
  · refine touches_fst_ite ?_ (.refl _ _)
    dsimp only
    split
    · exact (touches_useAlias _ _ _).mono
    · exact Touches.then (touches_useAlias _ _ _) (touches_toStation _ _ _ _)
  · exact .refl _ _

theorem touches_resolveCarrier (d : Dev) (a b : Addr) : Touches Piece.aliasing d (d.resolveCarrier a b).1 := by
  unfold Dev.resolveCarrier
  refine touches_fst_ite (.refl _ _) (touches_fst_ite (.refl _ _) ?_)
  dsimp only
  split
  · exact touches_fst_ite (.refl _ _) (touches_toStation _ _ _ _)
  · exact .refl _ _

theorem touches_setUpQueue (d : Dev) (f : Uplink → List UpFrame) :
    Touches [.upQueue] d (d.modUp fun u => { u with queue := f u }) := by
  intro p hp; cases p <;> first | exact absurd (Piece.mem_of rfl) hp | simp [Piece.same]

theorem touches_queueUp (d : Dev) (f : UpFrame) : Touches Piece.pooling d (d.queueUp f) :=
  Touches.then (Touches.then (n := Piece.pooling) (touches_setUpQueue _ _) (touches_takeTransit _ _)) (touches_startTx _)

theorem touches_flushAwaiting (d : Dev) (g : Seg) (n : Nat) : Touches Piece.flushing d (d.flushAwaiting g n) := by
  unfold Dev.flushAwaiting
  split
  · exact Touches.ite (fun _ => touches_flush _ _ _) fun _ => .refl _ _
  · exact .refl _ _

theorem touches_queueDown (d : Dev) (g : Seg) (k n : Nat) (m : Mark) (b : List Byte) :
    Touches Piece.forwarding d (d.queueDown g k n m b) :=
  Touches.then (Touches.then (n := Piece.forwarding) (touches_placeDown _ _ _ _ _ _) (touches_takeTransit _ _))
    (touches_flushAwaiting _ _ _)

theorem touches_countWithheld (d : Dev) (x : Copy) : Touches Piece.counted d (d.countWithheld x) := by
  unfold Dev.countWithheld
  split
  · exact touches_dropSeg _ _ _
  · exact .refl _ _

theorem touches_placeCopy (m : Mark) (b : List Byte) (d : Dev) (x : Copy) :
    Touches [.downq, .names, .upQueue] d (d.placeCopy m b x) := by
  unfold Dev.placeCopy
  split
  · exact (touches_placeDown _ _ _ _ _ _).mono
  · exact (touches_setUpQueue _ _).mono

theorem touches_takeList (d : Dev) (l : List Copy) (m : Mark) (b : List Byte) (ok : Dev → Nat → Bool) :
    Touches Piece.forwarding d (d.takeList l m b ok).1 := by
  unfold Dev.takeList
  extract_lets +onlyGivenNames gone rest d1 need
  have h1 : Touches Piece.forwarding d d1 := (Touches.fold touches_countWithheld _ _).mono
  refine touches_fst_ite h1 (touches_fst_ite h1 (touches_fst_ite h1 (h1.trans ?_)))
  exact Touches.then (n := Piece.forwarding) (Touches.then (n := Piece.forwarding)
    (Touches.fold (touches_placeCopy m b) _ _) (touches_takeTransit _ _)) (touches_startTx _)

theorem touches_takeCoax (d : Dev) (r : Resolved) (m : Mark) (b : List Byte) :
    Touches Piece.forwarding d (d.takeCoax r m b).1 := by
  unfold Dev.takeCoax
  split
  · exact touches_fst_ite (.refl _ _) (touches_fst_ite (touches_queueDown _ _ _ _ _ _) (.refl _ _))
  · rename_i copies
    have h := touches_takeList d copies m b Dev.coaxTransitOk
    split <;> simp_all
  · exact touches_fst_ite (.refl _ _) (touches_fst_ite (.refl _ _)
      (touches_fst_ite ((touches_queueUp _ _).mono) (.refl _ _)))
  · exact (touches_takeUnit _ _ _ _ _ _).mono
  · exact .refl _ _

theorem touches_forwardCoax (d : Dev) (g : Seg) (n k : Nat) (m : Mark) (b : List Byte) :
    Touches Piece.forwarding d (d.forwardCoax g n k m b).1 :=
  Touches.then (touches_resolveCoax _ _ _ _) (touches_takeCoax _ _ _ _)

theorem touches_takeEther (d : Dev) (x y : Addr) (q : CarrierData) (r : Resolved) :
    Touches Piece.forwarding d (d.takeEther x y q r) := by
  unfold Dev.takeEther
  split
  · exact Touches.ite (fun _ => (touches_dropUp _ _).mono) fun _ =>
      Touches.ite (fun _ => touches_queueDown _ _ _ _ _ _) fun _ => (touches_dropUp _ _).mono
  · rename_i copies
    have h := touches_takeList d copies q.mark q.payload Dev.etherTransitOk
    split
    · simp_all
    · exact Touches.trans (by simp_all) ((touches_dropUp _ _).mono)
    · exact Touches.trans (by simp_all) ((touches_dropUp _ _).mono)
  · exact Touches.ite (fun _ => (touches_dropUp _ _).mono) fun _ =>
      Touches.then (touches_placeUp _ _) (touches_takeUnit _ _ _ _ _ _)
  · exact .refl _ _
  · exact (touches_dropUp _ _).mono

theorem touches_carrierIn (d : Dev) (x y : Addr) (b : List Byte) : Touches Piece.forwarding d (d.carrierIn x y b) := by
  unfold Dev.carrierIn
  split
  · exact (touches_dropUp _ _).mono
  · have h := touches_resolveCarrier d x y
    split
    · exact Touches.trans (e := _) (Touches.mono (l := Piece.aliasing) (by simp_all)) ((touches_dropUp _ _).mono)
    · exact Touches.trans (Touches.mono (l := Piece.aliasing) (by simp_all)) (touches_takeEther _ _ _ _ _)

/-! ### Turns and exchanges -/

theorem touches_openExchange (d : Dev) (g : Seg) (i : TurnItem) (e : Station) (m : Mark) (z : Bool) (b : List Byte) :
    Touches [.sched, .lineOut] d (d.openExchange g i e m z b) :=
  touches_modSeg d g _ fun p hp => by cases p <;> first | exact absurd (Piece.mem_of rfl) hp | trivial

theorem touches_dropTurn (d : Dev) (g : Seg) : Touches [.sched] d (d.dropTurn g) := touches_modSched _ _ _

theorem touches_movePointers (d : Dev) (g : Seg) (r : Requester) (i : TurnItem) :
    Touches [.sched] d (d.movePointers g r i) := touches_modSched _ _ _

theorem touches_sendPoll (d : Dev) (g : Seg) (n : Nat) : Touches Piece.sending d (d.sendPoll g n) := by
  unfold Dev.sendPoll
  split
  · exact Touches.then (touches_openExchange _ _ _ _ _ _ _) (touches_modStation _ _ _)
  · exact (touches_dropTurn _ _).mono

theorem touches_sendBroadcast (d : Dev) (g : Seg) (f : DownFrame) :
    Touches [.sched, .lineOut] d (d.sendBroadcast g f) :=
  touches_modSeg d g _ fun p hp => by cases p <;> first | exact absurd (Piece.mem_of rfl) hp | trivial

theorem touches_sendDeliver (d : Dev) (g : Seg) (n : Nat) : Touches [.sched, .lineOut] d (d.sendDeliver g n) := by
  unfold Dev.sendDeliver
  split
  · refine Touches.ite (fun _ => touches_sendBroadcast _ _ _) fun _ => ?_
    split
    · exact touches_openExchange _ _ _ _ _ _ _
    · exact (touches_dropTurn _ _).mono
  · exact (touches_dropTurn _ _).mono

theorem touches_sendFeed (d : Dev) (g : Seg) (i n : Nat) : Touches Piece.sending d (d.sendFeed g i n) := by
  unfold Dev.sendFeed
  split
  · split
    · exact Touches.then (touches_openExchange _ _ _ _ _ _ _) (touches_modPrinter _ _ _)
    · exact (touches_dropTurn _ _).mono
  · exact (touches_dropTurn _ _).mono

theorem touches_sendTurn (d : Dev) (g : Seg) (i : TurnItem) : Touches Piece.sending d (d.sendTurn g i) := by
  unfold Dev.sendTurn
  split
  · exact (touches_sendDeliver _ _ _).mono
  · exact touches_sendFeed _ _ _ _
  · exact touches_sendPoll _ _ _

theorem touches_turnGrant (d : Dev) (g : Seg) (b : Bool) : Touches Piece.sending d (d.turnGrant g b) := by
  unfold Dev.turnGrant
  refine Touches.ite (fun _ => ?_) fun _ => .refl _ _
  split
  · split
    · exact Touches.then (touches_movePointers _ _ _ _) (Touches.ite (l := Piece.sending)
        (fun _ => (touches_modSched _ _ _).mono) fun _ => touches_sendTurn _ _ _)
    · exact .refl _ _
  · exact .refl _ _

theorem touches_sendDiscover (d : Dev) (g : Seg) : Touches [.disc, .lineOut] d (d.sendDiscover g) := by
  unfold Dev.sendDiscover
  split
  · exact touches_modSeg d g _ fun p hp => by cases p <;> first | exact absurd (Piece.mem_of rfl) hp | trivial
  · exact .refl _ _

theorem touches_heldFrameStart (d : Dev) (g : Seg) :
    Touches (.disc :: Piece.sending) d (d.heldFrameStart g) := by
  unfold Dev.heldFrameStart
  split
  · exact (touches_sendTurn _ _ _).mono
  · exact Touches.ite (fun _ => (touches_sendDiscover _ _).mono) fun _ => .refl _ _

theorem touches_transitOutcome (d : Dev) (g : Seg) (f : DownFrame) (o : ExOutcome) (k : Byte) :
    Touches Piece.flushing d (d.transitOutcome g f o k) := by
  unfold Dev.transitOutcome
  refine Touches.ite (fun _ => Touches.then (touches_removeFrame _ _ _) (touches_dropSeg _ _ _)) fun _ => ?_
  split
  · exact Touches.ite (fun _ => Touches.then (touches_removeFrame _ _ _) (touches_countSeg _ _ _)) fun _ =>
      Touches.ite (fun _ => Touches.then (touches_removeFrame _ _ _) (touches_dropSeg _ _ _)) fun _ =>
        (touches_modFrame _ _ _ _).mono
  · exact Touches.ite (fun _ => Touches.then (touches_removeFrame _ _ _) (touches_dropSeg _ _ _)) fun _ =>
      (touches_modFrame _ _ _ _).mono

theorem touches_polledOutcome (d : Dev) (n : Nat) (o : ExOutcome) (f : TrunkFrame) :
    Touches Piece.selecting d (d.polledOutcome n o f) := by
  unfold Dev.polledOutcome
  split
  · split
    · exact touches_printerPolled _ _ _
    · exact .refl _ _
  · exact .refl _ _

theorem touches_itemOutcome (d : Dev) (g : Seg) (i : TurnItem) (x : Exchange) (o : ExOutcome) (f : TrunkFrame) :
    Touches Piece.settling d (d.itemOutcome g i x o f) := by
  unfold Dev.itemOutcome
  split
  · split
    · exact (touches_transitOutcome _ _ _ _ _).mono
    · exact .refl _ _
  · split
    · exact Touches.ite (fun _ => (touches_feedAccepted _ _ _ _ _ _).mono) fun _ => (touches_feedRefused _ _ _).mono
    · exact (touches_feedFailed _ _).mono
  · exact (touches_polledOutcome _ _ _ _).mono

theorem touches_takeData (d : Dev) (g : Seg) (e : Station) (f : TrunkFrame) :
    Touches Piece.directing d (d.takeData g e f) := by
  unfold Dev.takeData
  dsimp only
  split
  iterate 2 exact (touches_dropSeg _ _ _).mono
  all_goals
    refine Touches.ite (fun _ => Touches.then (touches_modStation _ _ _) (touches_dropSeg _ _ _)) fun _ => ?_
    have h : Touches Piece.directing d ((d.countSeg g .framesIn).forwardCoax g e.number f.peer (frameMark f) f.payload).1 :=
      Touches.then (touches_countSeg _ _ _) (touches_forwardCoax _ _ _ _ _ _)
    split
    · exact Touches.trans (by simp_all) ((touches_modStation _ _ _).mono)
    · exact Touches.trans (by simp_all) ((touches_modStation _ _ _).mono)
    · exact Touches.trans (by simp_all) (Touches.then (touches_modStation _ _ _) (touches_dropSeg _ _ _))

theorem touches_directoryOutcome (d : Dev) (g : Seg) (x : Exchange) (o : ExOutcome) (f : TrunkFrame) :
    Touches Piece.directing d (d.directoryOutcome g x o f) := by
  unfold Dev.directoryOutcome
  split
  · extract_lets +onlyGivenNames d1 d2 d3
    have h1 : Touches Piece.directing d d1 := Touches.ite (fun _ => touches_takeData _ _ _ _) fun _ => .refl _ _
    have h2 : Touches Piece.directing d1 d2 := Touches.ite (fun _ => (touches_modStation _ _ _).mono) fun _ => .refl _ _
    have h3 : Touches Piece.directing d2 d3 := Touches.ite (fun _ => (touches_startBackoff _ _ _).mono) fun _ => .refl _ _
    exact (h1.trans (h2.trans h3)).trans (touches_stationGood _ _).mono
  · exact touches_stationFailed _ _ _
  · exact Touches.ite (fun _ => (touches_dropSeg _ _ _).mono) fun _ => .refl _ _
  · exact .refl _ _

theorem touches_endExchange (d : Dev) (g : Seg) (i : TurnItem) (x : Exchange) (o : ExOutcome) (f : TrunkFrame) :
    Touches Piece.monitoring d (d.endExchange g i x o f) := by
  unfold Dev.endExchange
  extract_lets +onlyGivenNames d1 d2 d3 d4
  have h1 : Touches Piece.monitoring d d1 := Touches.then (touches_dropTurn _ _) (touches_countSeg _ _ _)
  have h2 : Touches Piece.monitoring d1 d2 := (touches_itemOutcome _ _ _ _ _ _).mono
  have h3 : Touches Piece.monitoring d2 d3 := (touches_directoryOutcome _ _ _ _ _).mono
  have h4 : Touches Piece.monitoring d3 d4 := touches_report _ _ _ _ _
  exact (h1.trans (h2.trans (h3.trans h4))).trans (touches_settle _ _).mono

/-! ### The discovery pass -/

theorem touches_openWindow (d : Dev) (g : Seg) (p : PassState) (r : PassRun) (b : Bool) :
    Touches [.disc, .lineOut] d (d.openWindow g p r b) := by
  unfold Dev.openWindow
  extract_lets +onlyGivenNames d1
  have h1 : Touches [.disc, .lineOut] d d1 := (touches_modDisc _ _ _).mono
  exact h1.trans (Touches.ite (fun _ => .refl _ _) fun _ => touches_sendDiscover _ _)

theorem touches_endPass (d : Dev) (g : Seg) : Touches Piece.passing d (d.endPass g) := by
  unfold Dev.endPass
  extract_lets +onlyGivenNames d1 d2 d3
  have h1 : Touches Piece.passing d d1 := (touches_countSeg _ _ _).mono
  have h2 : Touches Piece.passing d1 d2 := (touches_modDisc _ _ _).mono
  have h3 : Touches Piece.passing d2 d3 := (touches_endHold _ _ _).mono
  exact (h1.trans (h2.trans h3)).trans (Touches.ite (fun _ => (touches_startInterval _ _).mono) fun _ => .refl _ _)

theorem touches_completePass (d : Dev) (g : Seg) (ws : List (Option Nat × List SlotReading)) :
    Touches Piece.passing d (d.completePass g ws) :=
  Touches.then (n := Piece.passing) (Touches.then (n := Piece.passing) (touches_applyResults _ _ _ _ _ _)
    (touches_modDisc _ _ _)) (touches_endPass _ _)

theorem touches_lineTrouble (d : Dev) (g : Seg) (rs : List SlotReading) :
    Touches Piece.passing d (d.lineTrouble g rs) := by
  unfold Dev.lineTrouble
  extract_lets +onlyGivenNames d1
  have h1 : Touches Piece.passing d d1 := Touches.then (touches_countSeg _ _ _) (touches_report _ _ _ _ _)
  exact h1.trans (Touches.ite (fun _ => Touches.then (touches_applyResults _ _ _ _ _ _) (touches_endPass _ _)) fun _ =>
    .refl _ _)

theorem touches_nextWindow (d : Dev) (g : Seg) (r : PassRun) (b : Bool) :
    Touches Piece.passing d (d.nextWindow g r b) := by
  unfold Dev.nextWindow
  split
  · exact (touches_openWindow _ _ _ _ _).mono
  · exact touches_completePass _ _ _

/-! ### Management -/

theorem touches_storeAnswer (d : Dev) (f : Agent → Option OpResult) :
    Touches [.answer] d (d.modAgent fun a => { a with answer := f a }) := by
  intro p hp; cases p <;> first | exact absurd (Piece.mem_of rfl) hp | simp [Piece.same]

theorem touches_setSettings (d : Dev) (s : Settings) : Touches [.settings] d { d with set := s } := by
  intro p hp; cases p <;> first | exact absurd (Piece.mem_of rfl) hp | simp [Piece.same, Dev.seg]

theorem touches_returnStation (d : Dev) (g : Seg) (n : Nat) : Touches Piece.directing d (d.returnStation g n) := by
  unfold Dev.returnStation
  split
  · exact Touches.then (touches_modStation _ _ _) (touches_forgetAt _ _ _)
  · exact .refl _ _

theorem touches_placePrinter (d : Dev) (i : Nat) (q : Printer) : Touches Piece.directing d (d.placePrinter i q) := by
  unfold Dev.placePrinter
  extract_lets +onlyGivenNames old d1 d2
  have h1 : Touches Piece.directing d d1 := (touches_setPrinter _ _ _).mono
  have h2 : Touches Piece.directing d1 d2 := by
    unfold d2; clear_value old
    cases old with
    | some o => exact touches_returnStation _ _ _
    | none => exact .refl _ _
  exact (h1.trans h2).trans (touches_flushForPrinter _ _ _).mono

theorem touches_settingsEffects (d : Dev) (w : List Field) (b : Bool) :
    Touches (.pauseState :: Piece.directing) d (d.settingsEffects w b) := by
  unfold Dev.settingsEffects
  extract_lets +onlyGivenNames d1 d2 d3 d4 d5 d6
  let l : List Piece := .pauseState :: Piece.directing
  have h1 : Touches l d d1 := Touches.ite (fun _ => (touches_withdrawAliases _ _).mono) fun _ => .refl _ _
  have h2 : Touches l d1 d2 := Touches.ite (fun _ => (touches_pauseTest _).mono) fun _ => .refl _ _
  have h3 : Touches l d2 d3 := Touches.ite (fun _ => (touches_forgetAll _).mono) fun _ => .refl _ _
  have h4 : Touches l d3 d4 := Touches.ite (fun _ => (touches_withdrawAliases _ _).mono) fun _ => .refl _ _
  have h5 : Touches l d4 d5 := Touches.ite (fun _ => (touches_closeIdleJobs _).mono) fun _ => .refl _ _
  have h6 : Touches l d5 d6 := Touches.ite (fun _ => (touches_selectAll _).mono) fun _ => .refl _ _
  exact (h1.trans (h2.trans (h3.trans (h4.trans (h5.trans h6))))).trans
    (Touches.ite (fun _ => Touches.then (touches_retimeHoldoff _) (touches_noticeTest _)) fun _ => .refl _ _)

theorem touches_setCfg (d : Dev) (g : Seg) (f : Segment → SegSettings) :
    Touches [.cfg] d (d.modSeg g fun s => { s with cfg := f s }) :=
  touches_modSeg d g _ fun p hp => by cases p <;> first | exact absurd (Piece.mem_of rfl) hp | trivial

theorem touches_enableSegment (d : Dev) (g : Seg) : Touches Piece.commanding d (d.enableSegment g).1 :=
  touches_fst_ite (Touches.then (touches_setCfg _ _ _) (touches_enterStarting _ _)) (.refl _ _)

theorem touches_disableSegment (d : Dev) (g : Seg) : Touches Piece.commanding d (d.disableSegment g).1 := by
  unfold Dev.disableSegment
  extract_lets +onlyGivenNames was d1 d2 d3 d4
  have h1 : Touches Piece.commanding d d1 := (touches_setCfg _ _ _).mono
  have h2 : Touches Piece.commanding d1 d2 := Touches.then (touches_dropTurn _ _) (touches_setSegState _ _ _)
  have h3 : Touches Piece.commanding d2 d3 := Touches.then (touches_applyEndings _) (touches_abortProbe _ _)
  have h4 : Touches Piece.commanding d3 d4 := Touches.ite (fun _ => (touches_depart _ _).mono) fun _ =>
    (touches_flushQueue _ _).mono
  exact (h1.trans (h2.trans (h3.trans h4))).trans (touches_modMon _ _ _).mono

theorem touches_restoreSegment (d : Dev) (g : Seg) : Touches Piece.monitoring d (d.restoreSegment g).1 := by
  unfold Dev.restoreSegment
  extract_lets +onlyGivenNames st
  refine touches_fst_ite ?_ (.refl _ _)
  extract_lets +onlyGivenNames d1 d2 d3
  have h1 : Touches Piece.monitoring d d1 := (touches_modMon _ _ _).mono
  have h2 : Touches Piece.monitoring d1 d2 := (touches_abortProbe _ _).mono
  have h3 : Touches Piece.monitoring d2 d3 := Touches.ite (fun _ => Touches.then (touches_setSegState _ _ _)
    (touches_depart _ _)) fun _ => .refl _ _
  exact (h1.trans (h2.trans h3)).trans (Touches.then (touches_modMon _ _ _) (touches_enterStarting _ _))

end Sys2Proof.Machine
end

