-- ==== Sys2Proof/Laws/Tables.lean ====
section
/-! SUPPORT. What READ can answer: the values of an entry keep to the lengths of its table's fields, so that the answer
fits a response. -/

namespace Sys2Proof.Machine

open Sys2Proof

@[simp] theorem be_length (n x : Nat) : (be n x).length = n := by
  induction n with
  | zero => rfl
  | succ n ih => simp [be, ih]

@[simp] theorem addrBytes_length (a : Addr) : (addrBytes a).length = 6 := be_length 6 _

theorem optBytes_length_le (n : Nat) (v : Option Nat) : (optBytes n v).length ≤ n := by
  cases v <;> simp [optBytes]

theorem target_bytes_length_le (t : Target) : t.bytes.length ≤ 7 := by
  cases t <;> simp [Target.bytes, stationBytes]

theorem source_bytes_length_le (x : Source) : x.bytes.length ≤ 7 := by
  cases x <;> simp [Source.bytes, stationBytes]

theorem failureBytes_length (l : List Failure) : (failureBytes l).length = 1 + 6 * l.length := by
  induction l with
  | nil => rfl
  | cons f l ih => simp [failureBytes] at ih ⊢; omega

theorem failureBytes_length_le (l : List Failure) (h : l.length ≤ Config.recentMax) :
    (failureBytes l).length ≤ (⟨failureLens, false, none⟩ : FieldSpec).full := by
  rw [failureBytes_length]
  have : (⟨failureLens, false, none⟩ : FieldSpec).full = 49 := by decide
  have : Config.recentMax = 8 := rfl
  omega

/-- The values keep to the lengths of the fields. -/
abbrev Fits (vs : List (List Byte)) (fs : List FieldSpec) : Prop := List.Forall₂ (fun v f => v.length ≤ f.full) vs fs

/-- A field list of values that keep to their fields is no longer than the largest entry (R208). -/
theorem fieldList_length_le {vs : List (List Byte)} {fs : List FieldSpec} (h : Fits vs fs) :
    ∀ c, (fieldList c vs).length ≤ largestEntry fs := by
  induction h with
  | nil => intro c; simp [fieldList]
  | @cons v f vs fs hv _ ih =>
    intro c
    have hs := ih (c + 1)
    have : largestEntry (f :: fs) = 2 + f.full + largestEntry fs := rfl
    rw [fieldList, List.length_append, this]
    split <;> simp <;> omega

theorem fits_settings (d : Dev) : Fits d.settingsValues settingsSpec := by
  simp [Dev.settingsValues, settingsSpec, FieldSpec.full, plain, clamped, fixed]

theorem fits_segment (d : Dev) (g : Seg) (h : (d.seg g).mon.recent.length ≤ Config.recentMax) :
    Fits (d.segmentValues g) segmentSpec := by
  have := failureBytes_length_le _ h
  simpa [Dev.segmentValues, segmentSpec, FieldSpec.full, plain, clamped, fixed, option, optBytes_length_le] using this

theorem fits_station (e : Station) : Fits e.values stationSpec := by
  simp [Station.values, stationSpec, FieldSpec.full, plain, clamped, fixed, option, optBytes_length_le]

theorem fits_alias (a : AliasEntry) : Fits a.values aliasSpec := by
  simp [AliasEntry.values, aliasSpec, FieldSpec.full, plain, fixed, target_bytes_length_le]

theorem fits_printer (d : Dev) (i : Nat) (p : Printer) : Fits (d.printerValues i p) printerSpec := by
  simp [Dev.printerValues, printerSpec, FieldSpec.full, plain, clamped, fixed, option, stationBytes, optBytes_length_le]

theorem fits_job (j : Job) : Fits j.values jobSpec := by
  simp [Job.values, jobSpec, FieldSpec.full, fixed, option, source_bytes_length_le, optBytes_length_le]

theorem fits_finished (x : Summary) : Fits x.values finishedSpec := by
  simp [Summary.values, finishedSpec, FieldSpec.full, fixed, option, source_bytes_length_le, optBytes_length_le]

theorem fits_probe (r : ProbeRecord) : Fits r.values probeSpec := by
  simp [ProbeRecord.values, probeSpec, FieldSpec.full, fixed, option, optBytes_length_le]

theorem fits_record (g : Seg) (r : IsolationRecord) (h : r.recent.length ≤ Config.recentMax) :
    Fits (r.values g) recordSpec := by
  have h1 := failureBytes_length_le _ h
  have h2 : ∀ p : ProbeRecord, (fieldList 1 p.values).length ≤ largestEntry probeSpec := fun p =>
    fieldList_length_le (fits_probe p) 1
  cases hp : r.probe <;> cases hd : r.dominant <;>
    simpa [IsolationRecord.values, recordSpec, FieldSpec.full, fixed, option, stationBytes, optBytes_length_le, hp, hd, h2]
      using h1

/-- The values of an entry keep to the lengths of its table's fields, in a part with its lists within their capacities. -/
theorem fits_entryValues {d : Dev} {t : Table} {i : Nat} {vs : List (List Byte)} (h : ListsOk d)
    (hv : d.entryValues t i = some vs) : Fits vs t.spec := by
  cases t <;> simp only [Dev.entryValues, Option.map_eq_some_iff, Option.bind_eq_some_iff, Option.some.injEq] at hv
  · exact hv ▸ fits_settings d
  · obtain ⟨g, -, rfl⟩ := hv; exact fits_segment d g (h.2.1 g).2.1
  · obtain ⟨e, -, rfl⟩ := hv; exact fits_station e
  · obtain ⟨a, -, rfl⟩ := hv; exact fits_alias a
  · obtain ⟨p, -, rfl⟩ := hv; exact fits_printer d i p
  · obtain ⟨j, -, rfl⟩ := hv; exact fits_job j
  · obtain ⟨x, -, rfl⟩ := hv; exact fits_finished x
  · obtain ⟨g, -, r, -, rfl⟩ := hv; exact fits_probe r
  · obtain ⟨g, -, r, hr, rfl⟩ := hv; exact fits_record g r ((h.2.1 g).2.2.1 r hr)

/-- The data of a READ is within the room kept for it (R208). -/
theorem readOp_length_le {d : Dev} (h : ListsOk d) (table index : Byte) :
    (d.readOp table index).2.2.length ≤ readRoom table := by
  unfold Dev.readOp readRoom
  cases Table.ofCode table with
  | none => simp
  | some t =>
    dsimp only
    split
    · simp
    · split
      · next hv => exact fieldList_length_le (fits_entryValues h hv) 1
      · simp

/-- A response without another result has room for that of any READ (R208). -/
theorem readRoom_le (table : Byte) : 4 + readRoom table ≤ responseRoom := by
  unfold readRoom
  split
  · next t _ => cases t <;> decide
  · decide

end Sys2Proof.Machine
end

