-- ==== Sys2Proof/WellFormed.lean ====
section
/-! DEFINITION. The operands that each command can carry: the numbers, lengths and counts that its rule admits. -/

namespace Sys2Proof

/-- A station number, 1 to 254 (00_scope.md). -/
def wfNumber (n : Nat) : Bool := decide (1 ≤ n) && decide (n ≤ 254)

/-- A printer id, 0 to 7 (R145). -/
def wfPrinter (n : Nat) : Bool := decide (n < Config.printerMax)

/-- A reply carries at most the 1034 bytes at which JABBER is declared, and its carrier lasts at least as long as its
bytes (R1, R12). -/
def wfReply (r : Reply) : Bool := decide (r.bytes.length ≤ 1034) && decide (8 * r.bytes.length ≤ r.cells)

/-- A discovery slot of 60 to 500 µs, 1000 bit cells at most, holds at most 122 bytes between delimiters (R1, R49). -/
def wfSlot : SlotLine → Bool
  | .quiet => true
  | .noise => true
  | .frame bs _ _ => decide (bs.length ≤ 122)

/-- A field's value has a length that its length byte can state (R209). -/
def wfField (f : Field) : Bool := decide (f.value.length ≤ 255)

/-- A field list that an operation can carry: its argument length is one byte, for table, index and fields (R208). -/
def wfFields (w : List Field) : Bool :=
  w.all wfField && decide ((w.map fun f => 2 + f.value.length).sum + 2 ≤ 255)

/-- The operands that a command can carry (DEDUCED, log entry 49). -/
def Instr.wf : Instr → Bool
  | .coldStart => true
  | .linkUp _ _ => true
  | .linkDown _ => true
  | .uplinkFrameReceived bs _ => !bs.isEmpty
  | .frameTransmitted _ => true
  | .pauseRepeat => true
  | .pauseHoldEnd => true
  | .turnGrant _ _ _ => true
  | .heldFrameStart _ _ => true
  | .broadcastSent _ => true
  | .replyReceived _ r _ => wfReply r
  | .replyTimeout _ => true
  | .replyJabber _ _ => true
  | .backoffEnd _ n => wfNumber n
  | .noise _ _ => true
  | .unattributedJabber _ _ => true
  | .cycleStart _ => true
  | .emptyCycleEnd _ => true
  | .discoveryIntervalExpiry _ => true
  | .holdTakesMedium _ _ _ => true
  | .discoveryWindowEnd _ slots _ => decide (slots.length = 16) && slots.all wfSlot
  | .absentForget _ n => wfNumber n
  | .aliasIdleWithdraw _ n => wfNumber n
  | .cooldownExpiry _ => true
  | .trialExpiry _ => true
  | .quietStretch _ => true
  | .jabberLine _ => true
  | .dcMeasurement _ _ _ => true
  | .shotFire _ => true
  | .shotEcho _ count _ => decide (count.toNat < 4095)
  | .shotNone _ => true
  | .idleClose job => decide (1 ≤ job.toNat)
  | .endingAfterExchange => true
  | .roleSet p => wfPrinter p
  | .busyRetryExpiry p => wfPrinter p
  | .holdTimerExpiry p => wfPrinter p
  | .noticeHoldoff => true
  | .runRequest _ => true
  | .read _ _ => true
  | .write _ _ w => wfFields w
  | .writeSettings _ w => wfFields w
  | .writeSegment _ w => wfFields w
  | .writeStation _ w => wfFields w
  | .writeAlias _ w => wfFields w
  | .writePrinter _ w => wfFields w
  | .delete _ _ => true
  | .deleteStation _ => true
  | .deleteAlias _ => true
  | .deletePrinter _ => true
  | .segEnable _ => true
  | .segDisable _ => true
  | .segRestore _ => true
  | .segProbe _ => true
  | .segDiscover _ => true
  | .segClearRecord _ => true
  | .stationQuarantine _ _ => true
  | .stationRelease _ _ => true
  | .jobCancel _ => true
  | .jobRedirect _ _ => true
  | .printerEnable _ => true
  | .printerDisable _ => true
  | .takeEvents => true
  | .countersRead _ => true
  | .countersClear _ => true
  | .configSave => true
  | .storeComplete _ _ => true
  | .restart => true
  | .ident => true
  | .startDelimiterReceived _ _ => true
  | .uptimeSecond => true
  | .quietStretchBroken _ _ => true

end Sys2Proof
end

