-- ==== Sys2Proof/Tests/Slice0.lean ====
section
/-! SUPPORT. Tests: the operand checks, the manual's worked examples, and for every obligation with hypotheses a state
and operands that meet them (`witness_…`). Expected results are the manual's or worked by hand from its rules. -/

namespace Sys2Proof.Tests

set_option Elab.async false

open Sys2Proof Sys2Proof.Machine

/-! ### Operand checks (WellFormed) -/

theorem test_wf_takes_a_sound_command :
    (Instr.replyReceived .s0 ⟨[0#8], false, true, 8⟩ 0).wf = true ∧ (Instr.backoffEnd .s1 254).wf = true ∧
    (Instr.discoveryWindowEnd .s2 (List.replicate 16 .quiet) false).wf = true ∧
    (Instr.write 2#8 0#8 [⟨31#8, [0x13#8, 0x88#8]⟩]).wf = true := by decide +kernel

theorem test_wf_refuses_an_empty_frame : (Instr.uplinkFrameReceived [] 0).wf = false := by decide

theorem test_wf_refuses_a_reply_past_jabber :
    (Instr.replyReceived .s0 ⟨List.replicate 1035 0#8, false, false, 9000⟩ 0).wf = false := by decide +kernel

theorem test_wf_refuses_a_reply_shorter_than_its_bytes :
    (Instr.replyReceived .s0 ⟨[0#8, 0#8], false, true, 15⟩ 0).wf = false := by decide

theorem test_wf_refuses_a_short_window :
    (Instr.discoveryWindowEnd .s0 (List.replicate 15 .quiet) false).wf = false := by decide

theorem test_wf_refuses_a_frame_too_long_for_its_slot :
    (Instr.discoveryWindowEnd .s0 (.frame (List.replicate 123 0#8) true false :: List.replicate 15 .quiet) false).wf
      = false := by decide +kernel

theorem test_wf_refuses_station_numbers_0_and_255 :
    (Instr.backoffEnd .s0 0).wf = false ∧ (Instr.absentForget .s0 255).wf = false ∧
    (Instr.aliasIdleWithdraw .s0 255).wf = false := by decide

theorem test_wf_refuses_printer_8 :
    (Instr.roleSet 8).wf = false ∧ (Instr.busyRetryExpiry 8).wf = false ∧ (Instr.holdTimerExpiry 8).wf = false := by
  decide

theorem test_wf_refuses_an_echo_at_4095 : (Instr.shotEcho .s0 4095#12 .positive).wf = false := by decide

theorem test_wf_refuses_job_0 : (Instr.idleClose 0#8).wf = false := by decide

theorem test_wf_refuses_a_field_past_its_length_byte :
    (Instr.writeSettings 0#8 [⟨1#8, List.replicate 256 0#8⟩]).wf = false := by decide +kernel

theorem test_wf_refuses_fields_past_the_argument_length :
    (Instr.writeStation 0#8 [⟨1#8, List.replicate 200 0#8⟩, ⟨2#8, List.replicate 50 0#8⟩]).wf = false := by
  decide +kernel

/-! ### The words of the table -/

/-- No row of the table has bits, so no word spells a command. -/
theorem test_no_word_spells_a_command : decodeTableWord 8 0x21 = none ∧ decodeTableWord 0 0 = none := by decide

/-! ### Parts the tests are made on -/

/-- A station entry as it is created. -/
def sta (eid : Nat) (g : Seg) (n : Nat) (st : StationState) : Station := Station.fresh eid g n st .configured

/-- A part with segment 0 ACTIVE between two cycles, the link up, and the station entries given. -/
def live (es : List Station) : Dev :=
  let d := Dev.reset.modSeg .s0 fun q =>
    { q with mon := { q.mon with state := .active }, probe := { q.probe with phase := .idle }, txEnable := true
             sched := { q.sched with cycle := .ended, cycleStart := some 0 } }
  { d with stations := es, nextEid := es.length, up := { d.up with link := true, speed := .mbps100 } }

/-- The test holds of the part that a command answers. -/
def after (c : Instr) (d : Dev) (p : Dev → Bool) : Bool :=
  match exec c ⟨d, []⟩ with
  | .next t => p t.dev
  | .fault _ | .refused _ => false

/-- The part after commands, each on what the one before left. -/
def runs : List Instr → Dev → Dev
  | [], d => d
  | c :: cs, d =>
    match exec c ⟨d, []⟩ with
    | .next t => runs cs t.dev
    | .fault _ | .refused _ => d

/-- A whole reply of a station, without error: header, payload, check (R1, R2). -/
def replyOf (kind : Byte) (number peer : Nat) (control : Byte) (payload : List Byte) : Reply :=
  let bs := trunkBytes kind number peer control payload
  ⟨bs, false, true, 8 * bs.length + 2⟩

/-- A frame as the uplink receives it. -/
def frameOf (dst src : Addr) (ty : Nat) (body : List Byte) : List Byte :=
  ethWire (addrBytes dst ++ addrBytes src ++ be 2 ty ++ body)

/-! ### Bytes (R2, R96, R206) -/

/-- The check of the nine digits under this polynomial, start value and order is 0x29B1. -/
theorem test_trunk_check : crc16 [0x31#8, 0x32#8, 0x33#8, 0x34#8, 0x35#8, 0x36#8, 0x37#8, 0x38#8,
  0x39#8] = 0x29B1#16 := by
  decide +kernel

/-- The Ethernet check of the nine digits is 0xCBF43926. -/
theorem test_ethernet_check :
    crc32 [0x31#8, 0x32#8, 0x33#8, 0x34#8, 0x35#8, 0x36#8, 0x37#8, 0x38#8, 0x39#8] = 0xCBF43926#32 := by decide +kernel

/-- R3, R206: kind 01, station 17, peer 0, the ack code 1 for ACK, status 0, length 0. -/
theorem test_poll_bytes : (pollBytes 17 .ack).take 7 = [1#8, 17#8, 0#8, 1#8, 0#8, 0#8, 0#8] := by decide +kernel

/-- R4, R206: kind 02, sequence bit 1 and LAST give control 3, and the length of 2 bytes stands high byte first. -/
theorem test_deliver_bytes :
    (deliverBytes 5 9 true .last [0xAA#8, 0xBB#8]).take 9 = [2#8, 5#8, 9#8, 3#8, 0#8, 0#8, 2#8, 0xAA#8, 0xBB#8] := by
  decide +kernel

/-! ### Worked example: a poll plan (02) -/

/-- The station entries of segment 1 when cycle 16 starts. -/
def planStations : List Station :=
  [sta 0 .s1 3 .present, { sta 1 .s1 17 .present with weight := 6 }, { sta 2 .s1 40 .present with weight := 1 },
   { sta 3 .s1 52 .present with weight := 0 }, sta 4 .s1 88 .slow, sta 5 .s1 101 .absent]

/-- The snapshot's twelve visits, in order. -/
theorem test_poll_plan_of_cycle_16 :
    (planOf planStations 16).map (·.number) = [3, 17, 40, 88, 17, 3, 17, 17, 3, 17, 3, 17] := by decide +kernel

/-- In cycle 17 the SLOW station has no visit. -/
theorem test_poll_plan_of_cycle_17 : (planOf planStations 17).all (fun v => v.number != 88) = true := by
  decide +kernel

/-! ### Worked example: a lost acknowledgement (01) -/

/-- s0:17, polled, whose last accepted bit is 1, and s0:40; the exchange with s0:17 is in flight. -/
def polled : Dev :=
  (live [{ sta 0 .s0 17 .present with lastSeq := some true }, sta 1 .s0 40 .present]).modSched .s0 fun q =>
    { q with
      cycle := .running [⟨1, 40, 0, 0⟩]
      turn := some ⟨.poll 0, .exchange ⟨17, some 0, false, false, .more, false, 0, 40000, false⟩⟩ }

/-- DATA, sequence 0, to 40, mark LAST, cut short to 4 bytes. -/
def frameA : Reply := replyOf kData 17 40 0x02#8 [1#8, 2#8, 3#8, 4#8]

/-- Step 1: the frame is queued for s0:40, the pending ack is ACK, the last accepted bit 0. -/
theorem test_new_data_is_taken :
    after (.replyReceived .s0 frameA 20000) polled (fun d =>
      (d.stationById 0).map (fun e => (e.pendingAck, e.lastSeq)) == some (.ack, some false) &&
      (d.seg .s0).downq.map (fun f => (f.dest, f.fromNum, f.mark, f.blocks.length)) == [(40, 17, .last, 1)] &&
      d.pool == ⟨2047, 1, 0⟩) = true := by decide +kernel

/-- Step 4: the resend is acknowledged, counted DUPLICATE, and not queued again. -/
theorem test_resent_data_is_not_taken_again :
    after (.replyReceived .s0 frameA 20000) (polled.modStation 0 fun e => { e with lastSeq := some false }) (fun d =>
      (d.stationById 0).map (·.pendingAck) == some .ack && (d.seg .s0).downq == [] &&
      (d.ev.counter (.seg .s0 (.drop .duplicate))).value == 1) = true := by decide +kernel

/-- Step 2: a TIMEOUT gives one miss, and 40 is charged. -/
theorem test_timeout_is_charged :
    after (.replyTimeout .s0) polled (fun d =>
      (d.stationById 0).map (·.misses) == some 1 && (d.seg .s0).mon.strain == 40) = true := by decide +kernel

/-! ### Worked example: a delivery that fails and is refused (01) -/

/-- Frame B for s0:5, in flight, and frame C for s0:9. -/
def delivering (failed refused : Nat) : Dev :=
  let d := live [{ sta 0 .s0 5 .present with nextBit := true }, sta 1 .s0 9 .present]
  let d := { d with pool := ⟨2045, 3, 0⟩, nextFid := 2 }
  d.modSeg .s0 fun q => { q with
    downq := [⟨0, 5, 17, .last, [List.replicate 256 0#8, List.replicate 44 0#8], 0, failed, refused, false⟩,
      ⟨1, 9, 17, .last, [[0#8]], 0, 0, 0, false⟩]
    sched := { q.sched with turn := some ⟨.deliver 0, 
      .exchange ⟨5, some 0, true, false, .last, false, 0, 40000, false⟩⟩ } }

/-- Step 3: a REFUSE counts on the frame, clears the misses, turns no bit, and backs off for 50 ms. -/
theorem test_refuse_backs_off :
    after (.replyReceived .s0 (replyOf kRefuse 5 0 0x01#8 []) 20000) (delivering 2 0) (fun d =>
      (d.frame .s0 0).map (fun f => (f.failed, f.refused)) == some (2, 1) &&
      (d.stationById 0).map (fun e => (e.misses, e.nextBit)) == some (0, true) &&
      (d.seg .s0).backoffs == [⟨5, 20000 + 50 * Config.ms⟩]) = true := by decide +kernel

/-- Step 5: the third failure drops the frame, DELIVER_FAILED, and frees its 2 blocks. -/
theorem test_third_failure_drops_the_frame :
    after (.replyTimeout .s0) (delivering 2 1) (fun d =>
      (d.seg .s0).downq.map (·.dest) == [9] && d.pool == ⟨2047, 1, 0⟩ &&
      (d.ev.counter (.seg .s0 (.drop .deliverFailed))).value == 1) = true := by decide +kernel

/-- An ACCEPT frees the frame and turns the station's bit. -/
theorem test_accept_frees_the_frame :
    after (.replyReceived .s0 (replyOf kAccept 5 0 0x01#8 []) 20000) (delivering 0 0) (fun d =>
      (d.seg .s0).downq.map (·.dest) == [9] && (d.stationById 0).map (·.nextBit) == some false) = true := by
  decide +kernel

/-! ### Worked example: rotation and urgency (02) -/

/-- At 9.0 ms the rotation pointer stands at POLL and frame B has waited 20 ms: DELIVER is urgent and is granted. -/
theorem test_urgent_deliver_passes_poll :
    after (.turnGrant .s0 false 0)
      ({ ((delivering 0 0).modSched .s0 fun q => { q with turn := none, rotation := .poll, cycle := .running [⟨0, 5,
        0, 0⟩] })
          with clock := 20 * Config.ms })
      (fun d => (d.seg .s0).sched.turn.map (·.item) == some (.deliver 0) && (d.seg .s0).sched.rotation == .feed)
      = true := by decide +kernel

/-- A tick less, and the pointer decides. -/
theorem test_no_urgency_before_the_age :
    after (.turnGrant .s0 false 0)
      ({ ((delivering 0 0).modSched .s0 fun q => { q with turn := none, rotation := .poll, cycle := .running [⟨0, 5,
        0, 0⟩] })
          with clock := 20 * Config.ms - 1 })
      (fun d => (d.seg .s0).sched.turn.map (·.item) == some (.poll 0)) = true := by decide +kernel

/-! ### Worked example: a discovery pass with a duplicated number (03) -/

/-- The level-0 window: s0:5 alone, 20, 23, 23 and 30 together, 47 alone. -/
theorem test_level_0_readings :
    let p := fun n => SlotLine.frame (trunkBytes kPresence n 0 0#8 []) true false
    let rs := readWindow none [p 5, .noise, p 47]
    cleanNumbers rs = [5, 47] ∧ garbledSlots rs = [1] := by decide +kernel

/-- The level-1 window of prefix 1. -/
theorem test_level_1_readings :
    let p := fun n => SlotLine.frame (trunkBytes kPresence n 0 0#8 []) true false
    let q := SlotLine.quiet
    let rs := readWindow (some 1) [q, q, q, q, p 20, q, q, .noise, q, q, q, q, q, q, p 30]
    cleanNumbers rs = [20, 30] ∧ candidatesIn [(some 1, rs)] = [23] := by decide +kernel

/-! ### Addresses of the worked example of 04 -/

theorem test_proxy_addresses :
    let d := { Dev.reset with set := { Dev.reset.set with base := 0x0A3C11400C00#48 } }
    d.ownAddr = 0x0A3C11400FFF#48 ∧ d.proxy .s1 17 = 0x0A3C11400D11#48 ∧ d.proxy .s2 9 = 0x0A3C11400E09#48 := by
  decide +kernel

/-! ### Worked example: pool pressure (05) -/

/-- The part at step 3: free 193, transit 855, spool 1000; and at step 8. -/
theorem test_spool_reserve :
    let d := fun p => { live [] with pool := p }
    (d ⟨193, 855, 1000⟩).spoolOk 4 = false ∧ (d ⟨308, 740, 1000⟩).spoolOk 4 = true ∧
    (d ⟨196, 852, 1000⟩).coaxTransitOk 3 = true ∧ (d ⟨66, 982, 1000⟩).coaxTransitOk 3 = false ∧
    (d ⟨193, 855, 1000⟩).etherTransitOk 4 = true := by decide +kernel

/-- Step 4: 189 is below pause-on, so the state is ON, a pause frame with 1024 goes out, and POOL_LOW is raised. -/
theorem test_pause_goes_on :
    let d := ({ live [] with pool := ⟨193, 855, 1000⟩ }).takeTransit 4
    d.up.pauseOn = true ∧ d.up.portOut = ethWire (pauseBytes d.ownAddr 1024#16) ∧
    d.ev.events.any (fun e => e.kind == .poolLow) = true ∧ d.up.repeatTimer = some 262144 := by decide +kernel

/-- Step 9: at a free count of 384 exactly the state is OFF, and a pause frame with time 0 goes out. -/
theorem test_pause_goes_off :
    let d := { live [] with pool := ⟨383, 740, 925⟩ }
    let d := (d.modUp fun u => { u with pauseOn := true, repeatTimer := some 9 }).freeSpool 1
    d.up.pauseOn = false ∧ d.up.portOut = ethWire (pauseBytes d.ownAddr 0#16) ∧ d.up.repeatTimer = none := by
  decide +kernel

/-! ### Worked example: the link goes down (05) -/

/-- Step 1: four frames are dropped, and the blocks of the two carrier DATA are freed. -/
theorem test_link_down_empties_the_queue :
    let f := fun k (bs : List Block) => (⟨k, 0#48, 0#48, 0#16, [], bs⟩ : UpFrame)
    let d := { live [] with pool := ⟨500, 1548, 0⟩ }
    after (.linkDown 5) (d.modUp fun u => { u with
        txBusy := true
        queue := [f .carrierData [[], []], f .response [], f .spoolAck [], f .carrierData [[]]] })
      (fun d => d.up.queue == [] && d.pool.free == 503 && (d.ev.counter (.uplink (.drop .linkDown))).value == 4 &&
        d.ev.events.any (fun e => e.kind == .linkDown)) = true := by decide +kernel

/-! ### Worked example: a cable break (06) -/

/-- Failures in a row of a part with no station to miss: the strain climbs by 40 times the run, at most 8. -/
theorem test_strain_of_a_cable_break :
    let m := (Dev.reset.seg .s0).mon
    let c := SegSettings.defaults
    let f := fun (m : Monitor) n => m.charged c .timeout n 5000
    let m8 := [3, 5, 8, 11, 14, 17, 20, 23].foldl f m
    let m14 := [26, 29, 31, 34, 37, 40].foldl f m8
    m8.strain = 1440 ∧ m8.run = 8 ∧ m14.strain = 3360 ∧ m14.run = 14 ∧ m14.peak = 3360 ∧
    m14.recent.map (·.number) = [20, 23, 26, 29, 31, 34, 37, 40] ∧ dominantOf m14.recent = none := by decide +kernel

/-- The fourteenth failure trips the segment: COOLING with attempt count 1, for 30 s, and the record taken. -/
theorem test_trip_of_a_cable_break :
    let f := fun n => (⟨n, .timeout, 5000⟩ : Failure)
    after (.replyTimeout .s0)
      { (polled.modMon .s0 fun m => { m with
          state := .strained, strain := 3040, run := 13, peak := 3040, recent := [17, 20, 23, 26, 29, 31, 34,
            37].map f })
        with uptime := 5000 }
      (fun d =>
        let m := (d.seg .s0).mon
        m.state == .cooling && m.attempts == 1 && m.strain == 3360 &&
          m.cooldownTimer == some (40000 + 30 * Config.sec) &&
        m.record.map (fun r => (r.uptime, r.fromState, r.strain, r.run, r.attempts, r.wentTo, r.tripsSince)) ==
          some (5000, .strained, 3360, 14, 1, .cooling, 0) &&
        d.ev.events.any (fun e => e.kind == .segTrip) && !(d.seg .s0).txEnable) = true := by decide +kernel

/-! ### Worked example: a suspect station (06) -/

/-- The BAD_CHECK of the sixth entry of eight takes the strain to 1201: STRAINED, and the station is shut out. -/
theorem test_suspect_station_is_shut_out :
    let f := fun n c => (⟨n, c, 0⟩ : Failure)
    let d := polled.modMon .s0 fun m => { m with
      strain := 1177
      recent := [f 8 .timeout, f 17 .badCheck, f 12 .timeout, f 17 .collision, f 17 .badCheck, f 40 .badFrame,
        f 17 .badCheck, f 17 .badCheck] }
    after (.replyReceived .s0 { frameA with bytes := frameA.bytes ++ [0#8], cells := frameA.cells + 8 } 20000) d
      (fun d =>
      let m := (d.seg .s0).mon
      m.strain == 1201 && m.state == .strained && m.run == 0 &&
      (d.stationById 0).map (fun e => (e.state, e.cause)) == some (.quarantined, some .suspect) &&
      d.ev.events.any (fun e => e.kind == .stationSuspect && e.subject == .station .s0 17)) = true := by decide +kernel

/-- A GOOD exchange takes 3 from 1180. -/
theorem test_good_exchange_drains :
    after (.replyReceived .s0 (replyOf kIdle 17 0 0#8 []) 20000)
      (polled.modMon .s0 fun m => { m with strain := 1180 })
      (fun d => (d.seg .s0).mon.strain == 1177) = true := by decide +kernel

/-! ### Worked examples of 07 -/

/-- The example of R139, and the same with its fourth shot POSITIVE. -/
theorem test_shot_averages :
    let p := Shot.edge .positive
    echoAverage [p 300, p 300, p 301, .edge .negative 77] = some 300 ∧
      echoAverage [p 300, p 300, p 301, p 301] = some 301 ∧
    echoAverage [p 300, p 300, .none, .none] = none := by decide +kernel

/-- Locating a break: segment 0 LATCHED, its segment length 520 m, four taps written. -/
def broken : Dev :=
  let t := fun e n m => { sta e .s0 n .present with tap := some m }
  let d := live [t 0 3 40, t 1 17 380, t 2 40 402, t 3 88 470]
  d.modSeg .s0 fun q => { q with mon := { q.mon with state := .latched }, cfg := { q.cfg with segmentLength := 520 } }

/-- SEG_PROBE, 2 ms of quiet, the code 934, and shots at 412, 415, 413 and 414. -/
theorem test_locating_a_break :
    let e := fun n => Instr.shotEcho .s0 n .positive
    let f := Instr.shotFire .s0
    let d := runs [.segProbe 0#8, .quietStretch .s0, .dcMeasurement .s0 934#10 10000, e 412#12, f, e 415#12, f,
      e 413#12,
      f, e 414#12] broken
    (d.seg .s0).probe.phase = .idle ∧ (d.seg .s0).mon.state = .latched ∧
    (d.seg .s0).probe.last = some ⟨0, .manual, .fail, some .quiet, some 934, some .high, 4, some 4, some 0, some 0, some 414,
      some .openLine, some 391, false, some 17, some 40⟩ := by decide +kernel

/-- A cut at the bridge: shots at 20, 21, 21 and 22 average 21, at 3 m; at 16, 17, 17 and 18 the average is 17,
  at 0 m. -/
theorem test_cut_at_the_bridge :
    let p := Shot.edge .positive
    let q := SegSettings.defaults.probeParams
    echoAverage [p 20, p 21, p 21, p 22] = some 21 ∧ q.distance 21 = 3 ∧
      echoAverage [p 16, p 17, p 17, p 18] = some 17 ∧
    q.distance 17 = 0 := by decide +kernel

/-! ### Worked examples of 08 and 09 -/

/-- Printer 2 on s0:60, IDLE, with a job limit of 2; s0:60 is its PRINTER station. -/
def printing (p : Printer → Printer) (jobs : List Job) : Dev :=
  let d := live [sta 0 .s0 9 .present, { sta 1 .s0 60 .present with role := .printer }]
  let q := { Printer.fresh .s0 60 with jobLimit := 2, feed := .idle, awaitingRole := false }
  let used := (jobs.map fun j => j.chain.length).sum
  { (d.setPrinter 2 (some (p q))).modSpool fun s => { s with
      jobs := jobs, nextId := 9, stampCounter := 40, nextSerial := jobs.length } with pool := ⟨2048 - used, 0, used⟩ }

/-- A job of printer 2 that holds the blocks. -/
def jobOf (serial id : Nat) (st : JobState) (isOpen : Bool) (chain : List Block) : Job :=
  { serial := serial, id := id, printer := 2, source := .coax .s2 9, state := st, isOpen := isOpen, chain := chain,
    received := (chain.map List.length).sum, printed := 0, created := 0, lastArrival := 0, stamp := none }

/-- What holds of printers 0 to 7 of `printing` holds of every printer it has. -/
theorem printing_all (q : Printer → Printer) (jobs : List Job) (ok : Printer → Bool)
    (h : ∀ i : Fin 8, ((printing q jobs).printer i).all ok = true) (len : (printing q jobs).spool.printers.length = 8)
    (i : Nat) (p : Printer) (hp : (printing q jobs).printer i = some p) : ok p = true := by
  by_cases hi : i < 8
  · have := h ⟨i, hi⟩
    simpa [hp] using this
  · have : (printing q jobs).printer i = none := by
      unfold Dev.printer
      exact List.getD_eq_default _ _ (by omega)
    simp [this] at hp

/-- `printing` has one printer, 2. -/
theorem printing_at (q : Printer → Printer) (jobs : List Job) :
    ∀ (i : Nat) (p : Printer), (printing q jobs).printer i = some p →
      i = 2 ∧ p = q { Printer.fresh .s0 60 with jobLimit := 2, feed := .idle, awaitingRole := false }
  | 2, _, h => ⟨rfl, (Option.some.inj h).symm⟩
  | 0, _, h | 1, _, h | 3, _, h | 4, _, h | 5, _, h | 6, _, h | 7, _, h | _ + 8, _, h => nomatch h

/-- The printer of `printing` has a station entry of its own and numbers in their ranges, where its own change leaves
them so. -/
theorem printing_printersOk (q : Printer → Printer) (jobs : List Job)
    (h : let p := q { Printer.fresh .s0 60 with jobLimit := 2, feed := .idle, awaitingRole := false }
      (p.seg, p.number) = (.s0, 60) ∧ clamp 1 8 p.jobLimit = p.jobLimit ∧ clamp 10 3600 p.holdTime = p.holdTime ∧
        clamp 50 5000 p.busyRetry = p.busyRetry ∧ clamp 1 15 p.lostLimit = p.lostLimit) :
    PrintersOk (printing q jobs) :=
  ⟨fun i p hp => by
      obtain ⟨rfl, rfl⟩ := printing_at _ _ i p hp
      refine ⟨?_, h.2⟩
      rw [(Prod.mk.inj h.1).1, (Prod.mk.inj h.1).2]
      rfl,
    fun i k p r hi hk _ => (printing_at _ _ i p hi).1.trans (printing_at _ _ k r hk).1.symm,
    fun e he => by
      rcases List.mem_pair.mp (show e ∈ [sta 0 .s0 9 .present, { sta 1 .s0 60 .present with role := .printer }] from he)
        with rfl | rfl <;> exact ⟨by decide, nofun⟩⟩

/-- No printer of `printing` is IDLE where its one printer is not. -/
theorem printing_noneIdle (q : Printer → Printer) (jobs : List Job)
    (h : ∀ i : Fin 8, ((printing q jobs).printer i).all (fun p => p.feed != .idle) = true)
    (len : (printing q jobs).spool.printers.length = 8) : NoneIdle (printing q jobs) := fun i p hp hf => by
  have := printing_all q jobs _ h len i p hp
  simp [hf] at this

theorem noneIdle_modSched {d : Dev} {g : Seg} {f : Scheduler → Scheduler} (h : NoneIdle d) : NoneIdle (d.modSched g f) := h

/-- Step 3 of 08: a third source's unit at a printer with two jobs is refused LIMIT. -/
theorem test_third_job_is_refused :
    let d := printing id [jobOf 0 7 .filling true [[1#8]],
      { jobOf 1 8 .filling true [[1#8]] with source := .ethernet 3#48 }]
    (d.takeUnit .s0 60 (.ethernet 4#48) [1#8] .more).2 = .limit := by decide +kernel

/-- Step 4 of 08: the LAST unit closes job 8, which takes stamp 40 and is chosen at once. -/
theorem test_last_unit_closes_and_is_chosen :
    let d := printing id [jobOf 0 7 .filling true [[1#8]],
      { jobOf 1 8 .filling true [[1#8]] with source := .ethernet 3#48 }]
    let e := (d.takeUnit .s0 60 (.ethernet 3#48) [1#8, 2#8] .last).1
    (e.jobById 8).map (fun j => (j.state, j.isOpen, j.chain.length, j.stamp)) = some (.active, false, 2, some 40) ∧
    (e.printer 2).map (·.feed) = some .feeding ∧ e.spool.stampCounter = 41 := by decide +kernel

/-- R152, R156: a LAST first unit closes its job at once, which is chosen before an older FILLING one. -/
theorem test_last_first_unit_goes_to_the_front :
    let d := printing id [{ jobOf 0 7 .filling true [[1#8]] with source := .ethernet 3#48 }]
    let e := (d.takeUnit .s0 60 (.ethernet 4#48) [1#8] .last).1
    e.spool.jobs.map (fun j => (j.state, j.isOpen)) = [(.filling, true), (.active, false)] := by decide +kernel

/-- Step 10 of 08: 120 s after its last arrival the streaming job is closed, and its zero-length end is made ready. -/
theorem test_idle_close_ends_a_stream :
    let d := { printing (fun p => { p with feed := .feeding }) [jobOf 0 7 .active true []] with uptime := 120 }
    after (.idleClose 7#8) d (fun d =>
      (d.jobById 7).map (·.isOpen) == some false && (d.printer 2).map (·.ready) == some (some ⟨true, 0⟩)) = true ∧
    after (.idleClose 7#8) { d with uptime := 119 } (fun d => (d.jobById 7).map (·.isOpen) == some true) = true := by
  decide +kernel

/-- Printer 2 FEEDING the one block of a closed job, its DELIVER in flight with LAST; s0:60 polled next. -/
def feedingLast (fails : Nat) : Dev :=
  (printing (fun p => { p with feed := .feeding, ready := some ⟨false, 0⟩, sentMark := some .last, failCount := fails })
    [{ jobOf 0 7 .active false [[1#8, 2#8]] with printed := 512, received := 514 }]).modSched .s0 fun q =>
      { q with turn := some ⟨.feed 2 0, .exchange ⟨60, some 1, false, false, .last, false, 0, 40000, false⟩⟩ }

/-- Step 13 of 09: the ACCEPT of the LAST block ends the job DONE, and the printer is IDLE. -/
theorem test_accept_of_last_ends_the_job :
    after (.replyReceived .s0 (replyOf kAccept 60 0 0#8 []) 20000) (feedingLast 0) (fun d =>
      (d.printer 2).map (·.feed) == some .idle && d.spool.jobs == [] && d.pool == ⟨2048, 0, 0⟩ &&
      d.spool.finished.map (fun x => (x.id, x.outcome, x.received, x.printed)) == [(7, .done, 514, 514)] &&
      (d.stationById 1).map (·.nextBit) == some true) = true := by decide +kernel

/-- Step 5 of 09: a plain REFUSE keeps the block and waits for the busy retry of 200 ms. -/
theorem test_refuse_waits_for_the_busy_retry :
    after (.replyReceived .s0 (replyOf kRefuse 60 0 0#8 []) 20000) (feedingLast 0) (fun d =>
      (d.printer 2).map (fun p => (p.feed, p.busyTimer, p.sentMark)) ==
        some (.waitReady, some (20000 + 200 * Config.ms), some .last)) = true := by decide +kernel

/-- Step 11 of 09: the fifth failure makes the printer LOST, with its hold timer running. -/
theorem test_fifth_failure_loses_the_printer :
    after (.replyTimeout .s0) (feedingLast 4) (fun d =>
      (d.printer 2).map (fun p => (p.feed, p.failCount, p.holdTimer)) ==
        some (.lost, 0, some (40000 + 600 * Config.sec)) &&
      d.ev.events.any (fun e => e.kind == .printerLost && e.subject == .printer 2)) = true := by decide +kernel

/-- Step 2 of 09: an ACCEPT with PAPER_OUT takes the block and stalls the printer. -/
theorem test_paper_out_stalls :
    let d := printing (fun p => { p with feed := .feeding, ready := some ⟨false, 0⟩, sentMark := some .more })
      [jobOf 0 7 .active false [[1#8], [2#8]]]
    let d := d.modSched .s0 fun q =>
      { q with turn := some ⟨.feed 2 0, .exchange ⟨60, some 1, false, false, .more, false, 0, 40000, false⟩⟩ }
    let body := [kAccept, 60#8, 0#8, 0#8, 1#8, 0#8, 0#8]
    after (.replyReceived .s0 ⟨body ++ be 2 (crc16 body).toNat, false, true, 80⟩ 20000) d (fun d =>
      (d.printer 2).map (·.feed) == some .stalled &&
        (d.jobById 7).map (fun j => (j.chain, j.printed)) == some ([[2#8]], 1) &&
      d.ev.events.any (fun e => e.kind == .printerStalled)) = true := by decide +kernel

/-! ### Worked example: batching and a full list (10) -/

/-- A list of 32 entries, every one sent: 28 INFO, the oldest first, and 4 WARNING. -/
def fullList : Dev :=
  let e := fun k n => (⟨k, .station .s3 n, 0, 0, false⟩ : Event)
  Dev.reset.modEv fun v => { v with
    holdoff := none
    events := (List.range 28).map (fun n => e .stationNew (n + 1)) ++ (List.range 4).map (fun n => e .aliasConflict
      (n + 1)) }

/-- At 120 ms the WARNING takes the place of the oldest INFO entry. -/
theorem test_warning_displaces_info :
    let d := (fullList.recordEvent .stationDuplicate (.station .s3 23)).1
    d.ev.events.length = 32 ∧ d.ev.events.head?.map (·.subject) = some (.station .s3 2) ∧ d.ev.lost = 0 ∧
    d.ev.events.getLast?.map (·.kind) = some .stationDuplicate := by decide +kernel

/-- At 180 ms the repeat finds its entry; at 300 ms a new INFO is discarded and counted lost. -/
theorem test_repeat_and_discard :
    let d := (fullList.recordEvent .stationNew (.station .s3 5)).1
    let e := (d.recordEvent .probeDone (.segment .s1)).1
    (d.ev.events.filter fun x => x.repeats == 1).map (·.subject) = [.station .s3 5] ∧ e.ev.events = d.ev.events ∧
    e.ev.lost = 1 := by decide +kernel

/-! ### Worked example: a request that saves and restarts (11) -/

/-- Operation 1: cooldown 5000 is clamped to 3600 (0x0E10), the state is read-only; the whole is READ_ONLY. -/
theorem test_clamped_cooldown_and_read_only_state :
    after (.writeSegment 2#8 [⟨25#8, [0x13#8, 0x88#8]⟩, ⟨28#8, [2#8]⟩]) Dev.reset (fun d =>
      (d.seg .s2).cfg.cooldown == 3600 && (d.seg .s2).mon.state == .starting &&
      d.agent.answer.map (·.status) == some .readOnly) = true := by decide +kernel

/-- Operation 2: number 0 is refused RANGE. -/
theorem test_station_number_0_is_refused :
    after (.writeStation 40#8 [⟨2#8, [0#8]⟩]) Dev.reset (fun d =>
      d.agent.answer == some ⟨2#8, .range, []⟩ && d.stations == []) = true := by decide +kernel

/-- Operations 3 and 4: the image is taken; RESTART is WRONG_STATE while it is stored; STORE_DONE ends it. -/
theorem test_save_then_restart :
    after .configSave Dev.reset (fun d => d.agent.answer == some ⟨0x1F#8, .ok, []⟩ && d.agent.saving.isSome &&
      after .restart d (fun e => e.agent.answer == some ⟨0x20#8, .wrongState, []⟩ && e.segs == d.segs) &&
      after (.storeComplete true 5) d (fun e => e.agent.lastStore == .done && e.agent.saving.isNone &&
        e.agent.image.usable.isSome && e.ev.events.any (fun x => x.kind == .storeDone))) = true := by decide +kernel

/-! ### Receiving from Ethernet -/

/-- A frame that the bridge sends passes its own frame check. -/
theorem fcsOk_append (p : List Byte) : fcsOk (p ++ fcsBytes p) = true := by
  have h : (fcsBytes p).length = 4 := by simp [fcsBytes, be]
  simp [fcsOk, h]

theorem fcsOk_frameOf (dst src : Addr) (ty : Nat) (body : List Byte) : fcsOk (frameOf dst src ty body) = true :=
  fcsOk_append _

/-- R99: 63 bytes are a runt. -/
theorem test_runt :
    after (.uplinkFrameReceived (List.replicate 63 0#8) 0) (live []) (fun d =>
      (d.ev.counter (.uplink .runt)).value == 1 && (d.ev.counter (.uplink .crc)).value == 0) = true := by decide +kernel

/-! ### Witnesses: the machine, starts and the uplink -/

/-- The machine with this part and nothing waiting. -/
def on (d : Dev) : State := ⟨d, []⟩

/-- A part with a poll in flight, a frame queued on each side of the bridge and a job, and a reply that comes. -/
def sound : State :=
  let d := { polled with pool := ⟨2045, 2, 1⟩, nextFid := 1 }
  let d := d.modSeg .s0 fun q => { q with downq := [⟨0, 40, 17, .last, [[1#8]], 0, 0, 0, false⟩] }
  let d := d.modUp fun u => { u with txBusy := true, queue := [⟨.carrierData, 0#48, 0#48, 0#16, [], [[1#8]]⟩] }
  ⟨d.modSpool fun p => { p with jobs := [jobOf 0 1 .filling true [[1#8]]] }, [.replyReceived .s0 frameA 20000]⟩

theorem witness_StepKeepsTheEventUnit :
    ∃ t, step sound = .next t ∧ EventsOk sound.dev ∧ CountersOk sound.dev :=
  ⟨_, rfl, by unfold EventsOk; decide +kernel, fun g => by cases g <;> decide +kernel, by decide +kernel⟩

/-- The settings of `sound` keep their rules. -/
theorem sound_settings : SettingsOk sound.dev :=
  ⟨by decide +kernel, by decide +kernel, fun g => by cases g <;> decide +kernel⟩

theorem witness_StepKeepsTheTables :
    ∃ t, step sound = .next t ∧ StationsOk sound.dev ∧ AliasesOk sound.dev ∧ SettingsOk sound.dev ∧
      AliasRulesOk sound.dev :=
  ⟨_, rfl, by unfold StationsOk ascending; decide +kernel, by unfold AliasesOk ascending; decide +kernel,
    sound_settings, by unfold AliasRulesOk; decide +kernel⟩

theorem witness_StepKeepsPoolAccount :
    ∃ t, step sound = .next t ∧ PoolOk sound.dev ∧ QuotaOk sound.dev ∧ SettingsOk sound.dev ∧ PauseOk sound.dev :=
  ⟨_, rfl, ⟨by decide +kernel, by decide +kernel, by decide +kernel, fun g => by cases g <;> decide +kernel⟩,
    by unfold QuotaOk; decide +kernel, sound_settings, by unfold PauseOk; decide +kernel⟩

/-- The pause state ON, its condition at its last value. -/
theorem witness_StepKeepsPoolAccount_paused :
    PauseOk { sound.dev with pool := ⟨383, 1665, 0⟩, up := { sound.dev.up with pauseOn := true } } := by
  unfold PauseOk; decide +kernel

theorem witness_StepKeepsUplinkAndEnables : ∃ t, step sound = .next t ∧ UplinkOk sound.dev ∧ EnableOk sound.dev :=
  ⟨_, rfl, by unfold UplinkOk; decide +kernel, fun g => by cases g <;> decide +kernel⟩

theorem witness_StepKeepsSettingsAndCapacities :
    ∃ t, step sound = .next t ∧ SettingsOk sound.dev ∧ ListsOk sound.dev :=
  ⟨_, rfl, sound_settings, ⟨by decide +kernel, fun g => by cases g <;> decide +kernel, by decide +kernel⟩⟩

/-- Printer 2 FEEDING one job, another FILLING and a third QUEUED, and a unit's idle close that waits. -/
theorem witness_StepKeepsSettingsAndCapacities_jobs :
    let s : State := ⟨printing (fun p => { p with feed := .feeding }) [jobOf 0 7 .active true [],
      { jobOf 1 8 .filling true [[1#8]] with source := .ethernet 3#48 }, jobOf 2 255 .queued false []], [.idleClose 7#8]⟩
    ∃ t, step s = .next t ∧ ListsOk s.dev ∧ StationsOk s.dev ∧ PrintersOk s.dev ∧ JobsOk s.dev :=
  ⟨_, rfl, ⟨by decide +kernel, fun g => by cases g <;> decide +kernel, by decide +kernel⟩,
    by unfold StationsOk ascending; decide +kernel, printing_printersOk _ _ (by decide +kernel),
    by decide +kernel, by decide +kernel, by decide +kernel, by decide +kernel, by decide +kernel,
    fun j h => by
      have hp : ∀ j ∈ [jobOf 0 7 .active true [],
          { jobOf 1 8 .filling true [[1#8]] with source := .ethernet 3#48 }, jobOf 2 255 .queued false []],
          1 ≤ j.id ∧ j.id ≤ 255 ∧ j.serial < 3 ∧ (j.state = .queued → j.isOpen = false) ∧ j.printer = 2 := by
        decide +kernel
      obtain ⟨a, b, c, e, f⟩ := hp j h
      exact ⟨a, b, c, e, { Printer.fresh .s0 60 with jobLimit := 2, feed := .feeding, awaitingRole := false },
        by rw [f]; rfl, by intro; decide⟩,
    fun i p hp hw => by
      have := printing_all _ _ (fun p => !p.awaitingRole) (by decide +kernel) (by decide +kernel) i p hp
      simp [hw] at this,
    by decide +kernel⟩

theorem witness_ColdStartStartsOver : (on polled).dev.agent.image.usable = none := by decide +kernel

/-- A part with a printer on s0:60 and two STATIC aliases, one of them on the number of s0:9. -/
def imaged : Dev :=
  { printing id [] with aliases :=
      [⟨.s0, 9, .static, .station .s1 4, .conflict, 0, 0⟩, ⟨.s0, 30, .static, .ethernet 0x020000000001#48, .active, 0, 0⟩] }

theorem witness_ColdStartStartsOver_image :
    let s := on ((live []).modAgent fun a => { a with image := .stored imaged.takeImage true })
    SettingsOk imaged ∧ imaged.set.base.toNat % 1024 = 0 ∧ StationsOk imaged ∧ AliasesOk imaged ∧ AliasRulesOk imaged ∧
    ListsOk imaged ∧ PrintersOk imaged ∧ s.dev.agent.image = .stored imaged.takeImage true ∧
    (∃ e, imaged.station .s0 9 = some e ∧ e.origin = .configured) ∧ (imaged.printerAt .s0 60).isSome = true ∧
    after .coldStart s.dev (fun d => d.aliases.map (·.state) == [.conflict, .active] &&
      d.stations.map (fun e => (e.number, e.role)) == [(9, .terminal), (60, .printer)]) = true :=
  ⟨⟨by decide +kernel, by decide +kernel, fun g => by cases g <;> decide +kernel⟩, by decide +kernel,
    by unfold StationsOk ascending; decide +kernel, by unfold AliasesOk ascending; decide +kernel,
    by unfold AliasRulesOk; decide +kernel,
    ⟨by decide +kernel, fun g => by cases g <;> decide +kernel, by decide +kernel⟩,
    printing_printersOk id [] (by decide +kernel), rfl, ⟨_, rfl, rfl⟩, by decide +kernel, by decide +kernel⟩

theorem witness_RestartKeepsWhatItMust :
    ((on polled).dev.agent.saving = none ∧ CountersOk polled ∧ (polled.ev.counter (.spool .failed)).value ≤ 65535) ∧
    (on (polled.modAgent fun a => { a with saving := some polled.takeImage })).dev.agent.saving =
      some polled.takeImage :=
  ⟨⟨by decide +kernel, ⟨fun g => by cases g <;> decide +kernel, by decide +kernel⟩, by decide +kernel⟩,
    by decide +kernel⟩

/-- R96, R108: a response being sent when a RESTART comes is sent whole, off the queue, and counted at its end. -/
theorem test_restart_lets_the_frame_go_on :
    let d := (live []).modUp fun u => { u with txBusy := true, queue := [⟨.response, 1#48, 2#48, 0x88B6#16, [], []⟩] }
    after .restart d (fun d => d.up.txBusy && d.up.leaving && d.up.queue == [] &&
      after (.frameTransmitted 0) d (fun e => !e.up.txBusy && !e.up.leaving &&
        (e.ev.counter (.uplink .framesOut)).value == 1)) = true := by decide +kernel

/-- The last second that the count of 32 bits has a next one for. -/
theorem witness_UptimeSecondCounts : (on { polled with uptime := 4294967294 }).dev.uptime < 4294967295 := by
  decide +kernel

theorem witness_LinkChangesReachTheUplink :
    (Dev.reset.up.link = false ∧ Dev.reset.up.pauseOn = false ∧ Dev.reset.ev.events.length < 32) ∧
    (let d := Dev.reset.modUp fun u => { u with pauseOn := true }
     d.up.link = false ∧ d.up.pauseOn = true ∧ d.up.txBusy = false ∧ CountersOk d ∧ d.up.queue = [] ∧
      d.set.noticeAddr = 0#48 ∧ d.ev.heldBack = none) ∧ (live []).up.link = true :=
  ⟨by decide +kernel, ⟨by decide, by decide, by decide, ⟨fun g => by cases g <;> decide +kernel, by decide +kernel⟩,
    by decide +kernel⟩, by decide +kernel⟩

/-- A frame of a host to the own address. -/
def toOwn (ty : Nat) (body : List Byte) : List Byte := frameOf 0x3FF#48 0x020000000001#48 ty body

theorem witness_ReceiverDiscardsAndHolds :
    let d := live []
    d.up.link = true ∧ d.up.rxEnabled = true ∧ (List.replicate 63 0#8).length < 64 ∧
    1518 < (List.replicate 1519 0#8).length ∧
    (64 ≤ (List.replicate 64 0#8).length ∧ (List.replicate 64 0#8).length ≤ 1518 ∧
      fcsOk (List.replicate 64 0#8) = false) ∧
    (let bs := toOwn 0x0800 []
     64 ≤ bs.length ∧ bs.length ≤ 1518 ∧ fcsOk bs = true ∧ rxType bs ≠ d.set.mgmtType ∧ rxType bs ≠ d.set.carrierType ∧
      rxType bs ≠ 0x8808#16) ∧
    (∀ time, time = 0 ∨ time = 65535 →
      let bs := frameOf pauseAddr 0x020000000001#48 0x8808 (be 2 1 ++ be 2 time)
      64 ≤ bs.length ∧ bs.length ≤ 1518 ∧ fcsOk bs = true ∧ rxDst bs = pauseAddr ∧ rxType bs = 0x8808#16 ∧
      d.set.mgmtType ≠ 0x8808#16 ∧ ofBe ((rxBody bs).take 2) = 1 ∧ ofBe (((rxBody bs).drop 2).take 2) = time) ∧
    d.up.speed = .mbps100 ∧ (d.modUp fun u => { u with speed := .mbps10 }).up.speed = .mbps10 := by
  refine ⟨by decide, by decide, by decide, by decide +kernel, ⟨by decide, by decide, by decide +kernel⟩,
    ⟨by decide +kernel, by decide +kernel, fcsOk_frameOf _ _ _ _, by decide +kernel, by decide +kernel,
      by decide +kernel⟩,
    ?_, by decide, by decide⟩
  rintro time (rfl | rfl) <;>
    exact ⟨by decide +kernel, by decide +kernel, fcsOk_frameOf _ _ _ _, by decide +kernel, by decide +kernel,
      by decide +kernel, by decide +kernel, by decide +kernel⟩

/-- A request of one IDENT. -/
def identRequest : List Byte := toOwn 0x88B6 (mgmtHeader 0x31 1 1 2 ++ [0x21#8, 0#8])

theorem witness_RequestJoinsTheQueue :
    let d := live []
    let q : Request := ⟨1#48, 0#16, []⟩
    (d.up.link = true ∧ d.up.rxEnabled = true ∧ 64 ≤ identRequest.length ∧ identRequest.length ≤ 1518 ∧
      fcsOk identRequest = true ∧ rxDst identRequest = d.set.base + 1023#48 ∧ rxType identRequest = d.set.mgmtType ∧
      d.set.admits (rxSrc identRequest) = true ∧ parseRequest (rxBody identRequest) = some (0x31#16, [⟨0x21#8, []⟩])) ∧
    (d.modAgent fun a => { a with queue := [q, q, q] }).agent.queue.length < 4 ∧
    ¬ (d.modAgent fun a => { a with queue := [q, q, q, q] }).agent.queue.length < 4 :=
  ⟨⟨by decide, by decide, by decide +kernel, by decide +kernel, fcsOk_frameOf _ _ _ _, by decide +kernel,
    by decide +kernel, by decide +kernel, by decide +kernel⟩, by decide, by decide⟩

/-- A host that an alias stands for on segment 0, and two stations. -/
def bridged : Dev :=
  { live [sta 0 .s0 17 .present, sta 1 .s0 40 .present] with
    aliases := [⟨.s0, 225, .dynamic, .ethernet 0x020000000001#48, .active, 0, 0⟩], uptime := 20 }

/-- A carrier DATA of one byte to s0:17. -/
def carrierFrame : List Byte :=
  frameOf 17#48 0x020000000001#48 0x88B5 (carrierHeader 1#8 .last 0 0 0 1 ++ [0x41#8])

theorem witness_CarrierDataIsRelayed :
    let d := bridged
    let bs := carrierFrame
    let e := sta 0 .s0 17 .present
    let a : AliasEntry := ⟨.s0, 225, .dynamic, .ethernet 0x020000000001#48, .active, 0, 0⟩
    d.up.link = true ∧ d.up.rxEnabled = true ∧ 64 ≤ bs.length ∧ bs.length ≤ 1518 ∧ fcsOk bs = true ∧
    (rxDst bs).toNat = d.set.base.toNat + 256 * segNat .s0 + 17 ∧ rxType bs = d.set.carrierType ∧
    d.set.carrierType ≠ d.set.mgmtType ∧ d.set.carrierType ≠ 0x8808#16 ∧ individual (rxSrc bs) = true ∧
    inProxyRange d.set.base (rxSrc bs) = false ∧ rxDst bs ≠ broadcastAddr ∧
    parseCarrier (rxBody bs) = some ⟨.last, 0, [0x41#8]⟩ ∧ d.station .s0 17 = some e ∧ e.state = .present ∧
    e.role = .terminal ∧ d.inService .s0 = true ∧ d.aliasFor .s0 (.ethernet (rxSrc bs)) = some a ∧
    d.printerAt .s0 17 = none ∧ (d.seg .s0).downq.length < 31 ∧ max 1 ((1 + 255) / 256) ≤ d.pool.free := by
  refine ⟨?_, ?_, ?_, ?_, fcsOk_frameOf _ _ _ _, ?_⟩ <;> decide +kernel

/-- With no alias for the host and none in the table, its number is the lowest of the alias range; with a station and an
alias on the two lowest, the next. -/
theorem witness_CarrierDataIsRelayed_allocates :
    let src := rxSrc carrierFrame
    let low := ((live []).seg .s0).cfg.aliasLow
    let held : Dev :=
      { live [sta 0 .s0 17 .present, sta 1 .s0 low .present] with
        aliases := [⟨.s0, low + 1, .dynamic, .station .s1 5, .active, 0, 0⟩] }
    ∀ d m, (d = { bridged with aliases := [] } ∧ m = low) ∨ (d = held ∧ m = low + 2) →
      d.station .s0 17 = some (sta 0 .s0 17 .present) ∧ d.aliasFor .s0 (.ethernet src) = none ∧ d.aliases.length < 128 ∧
      (d.seg .s0).cfg.aliasLow ≤ m ∧ m ≤ (d.seg .s0).cfg.aliasHigh ∧ m ≤ 254 ∧ d.station .s0 m = none ∧
      d.aliasAt .s0 m = none ∧ (∀ k < m, (d.seg .s0).cfg.aliasLow ≤ k →
        (d.station .s0 k).isSome = true ∨ (d.aliasAt .s0 k).isSome = true) ∧
      d.printerAt .s0 17 = none ∧ d.inService .s0 = true ∧ (d.seg .s0).downq.length < 31 ∧
      max 1 ((1 + 255) / 256) ≤ d.pool.free := by
  rintro _ _ _ d m (⟨rfl, rfl⟩ | ⟨rfl, rfl⟩) <;> decide +kernel

/-- A carrier DATA of one byte, marked MORE, to printer 2 at s0:60. -/
def unitFrame : List Byte := frameOf 60#48 0x020000000003#48 0x88B5 (carrierHeader 1#8 .more 0 0 0 1 ++ [0x41#8])

/-- The frame is a carrier DATA for s0:60; the cases of R151 and R152 are those of `witness_DataIsRelayedOnce_units`, the
source a host's address. -/
theorem witness_CarrierDataIsRelayed_units :
    let src := Source.ethernet (rxSrc unitFrame)
    let stalled : Printer → Printer := fun p => { p with feed := .stalled }
    let mine : Job := { jobOf 0 7 .filling true [[1#8]] with source := src }
    let d := printing stalled [mine]
    let e := { sta 1 .s0 60 .present with role := .printer }
    CarrierFor (on d) unitFrame .s0 60 ⟨.more, 0, [0x41#8]⟩ ∧ d.station .s0 60 = some e ∧ e.state = .present ∧
    e.role = .printer ∧ d.printerAt .s0 60 = some 2 ∧ ((d.printer 2).map fun p => p.feed) = some .stalled ∧
    d.up.queue.length < 63 ∧ (d.ev.counter (.uplink .framesIn)).value ≠ 32767 ∧ NoneIdle d ∧
    d.openJob src 2 = some mine ∧ d.jobBySerial mine.serial = some mine ∧
    (printing stalled []).openJob src 2 = none ∧ NoneIdle (printing stalled []) := by
  refine ⟨⟨by decide, by decide, by decide +kernel, by decide +kernel, fcsOk_frameOf _ _ _ _, by decide +kernel,
    by decide, by decide, by decide +kernel⟩, by decide +kernel, by decide, by decide, by decide +kernel,
    by decide +kernel, by decide, by decide, printing_noneIdle _ _ (by decide +kernel) (by decide +kernel),
    by decide +kernel, by decide +kernel, by decide +kernel,
    printing_noneIdle _ _ (by decide +kernel) (by decide +kernel)⟩

/-- Two responses on the uplink queue, the first in transmission. -/
def sending : Dev :=
  let f : UpFrame := ⟨.response, 1#48, 2#48, 0x88B6#16, [], []⟩
  (live []).modUp fun u => { u with txBusy := true, queue := [f, f] }

theorem witness_TransmissionsFollowOneAnother :
    let f : UpFrame := ⟨.response, 1#48, 2#48, 0x88B6#16, [], []⟩
    (sending.up.txBusy = true ∧ sending.up.leaving = false ∧ sending.up.queue = [f, f] ∧ sending.up.link = true ∧
      sending.up.hold = none) ∧
    (let d := sending.modUp fun u => { u with leaving := true, pauseDue := [.ask] }
     d.up.txBusy = true ∧ d.up.leaving = true ∧ d.up.queue = [f, f] ∧ d.up.link = true ∧ d.up.hold = none ∧
      (d.ev.counter (.uplink .pausesSent)).value ≤ 65535) ∧
    (let d := sending.modUp fun u => { u with repeatTimer := some 7, pauseOn := true }
     d.up.repeatTimer = some 7 ∧ d.up.link = true ∧ d.up.txBusy = true) ∧
    (let d := (live []).modUp fun u => { u with repeatTimer := some 7, pauseOn := true }
     d.up.repeatTimer = some 7 ∧ d.up.link = true ∧ d.up.txBusy = false ∧
      (d.ev.counter (.uplink .pausesSent)).value ≠ 32767) ∧
    (let d := sending.modUp fun u => { u with hold := some 7, txBusy := false }
     d.up.hold = some 7 ∧ d.up.queue = [f, f] ∧ d.up.link = true ∧ d.up.txBusy = false) := by decide +kernel

/-- A pause frame waits, with the frame's block below the pause-off level and with it at that level. -/
theorem witness_TransmissionsFollowOneAnother_pauses :
    ∀ n, n = 1 ∨ n = 300 →
    let f : UpFrame := ⟨.carrierData, 1#48, 2#48, 0x88B5#16, [], [[1#8]]⟩
    let d := { live [] with pool := ⟨(live []).set.pauseOff - n, 1, 0⟩ }.modUp fun u =>
      { u with txBusy := true, queue := [f], pauseOn := true, pauseDue := [.ask] }
    d.up.txBusy = true ∧ d.up.leaving = false ∧ d.up.queue = [f] ∧ d.up.link = true ∧ PauseOk d ∧ CountersOk d ∧
    (d.ev.counter (.uplink .pausesSent)).value ≤ 65535 ∧ (d.set.pauseOff ≤ d.pool.free + f.blocks.length ↔ n = 1) := by
  rintro n (rfl | rfl) <;>
    exact ⟨rfl, rfl, rfl, rfl, by unfold PauseOk; decide +kernel, ⟨fun g => by cases g <;> decide +kernel, by decide +kernel⟩,
      by decide +kernel, by decide +kernel⟩

/-! ### Witnesses: the Event Unit -/

/-- A WARNING, 2, is above the lowest severity of the list, 3; an INFO is not. -/
theorem witness_FullEventListWeighsBySeverity :
    fullList.ev.events.length = 32 ∧
    (∀ e ∈ fullList.ev.events, ¬ (e.kind = .stationDuplicate ∧ e.subject = .station .s3 23)) ∧
    EventKind.stationDuplicate.severity < lowestSeverity fullList.ev.events ∧
    (∀ e ∈ fullList.ev.events, ¬ (e.kind = .probeDone ∧ e.subject = .segment .s1)) ∧
    lowestSeverity fullList.ev.events ≤ EventKind.probeDone.severity := by decide +kernel

/-- Counters of a segment, of the uplink and of the spool at 0, at 32767, at 65535, and at 32767 with the half flag set
before. -/
theorem witness_CounterReportRisesByOne :
    let d := fun v h => (live []).modEv fun e => { e with
      segCounters := .const (⟨v, h⟩ :: List.replicate 25 ⟨0, false⟩)
      upCounters := ⟨v, h⟩ :: List.replicate 18 ⟨0, false⟩, spoolCounters := ⟨v, h⟩ :: List.replicate 4 ⟨0, false⟩ }
    (∀ v h, CountersOk (d v h)) ∧ (d 32767 false).ev.events.length < 32 ∧
    ∀ c, c = CounterId.seg .s0 .good ∨ c = .uplink .framesIn ∨ c = .spool .accepted →
      ((d 32767 false).ev.counter c).value = 32767 ∧ ((d 32767 false).ev.counter c).half = false ∧
      c ≠ .uplink (.drop .queueFull) ∧ c ≠ .uplink (.drop .linkDown) ∧
      ((d 65535 true).ev.counter c).value = 65535 ∧ ((d 32767 true).ev.counter c).half = true := by
  refine ⟨fun v h => ⟨fun g => by cases g <;> rfl, rfl, rfl⟩, by decide, ?_⟩
  rintro c (rfl | rfl | rfl) <;> decide +kernel

theorem witness_HoldoffSendsANotice :
    let d := { live [] with set := { (live []).set with noticeAddr := 1#48 } }
    d.set.noticeAddr ≠ 0#48 ∧ d.up.link = true ∧ d.up.queue.length < 63 ∧ d.ev.heldBack = none ∧
    d.ev.holdoff = some 0 ∧
    (d.modEv fun e => { e with heldBack := some 3 }).ev.heldBack = some 3 ∧ 0 < d.set.noticeHoldoff := by decide +kernel

theorem witness_EventsAndCountersAreRead :
    (live []).ev.group (5#8).toNat = some (Counter.zeros 5) ∧ (live []).ev.group (0#8).toNat = some (Counter.zeros 26) ∧
    5 < (6#8).toNat := by decide +kernel

/-! ### Witnesses: turns and exchanges -/

/-- Segment 0 with no turn, polling s0:17 and then s0:40. -/
def polling : Dev :=
  (live [{ sta 0 .s0 17 .present with pendingAck := .busy }, sta 1 .s0 40 .present]).modSched .s0 fun q =>
    { q with cycle := .running [⟨0, 17, 0, 0⟩, ⟨1, 40, 0, 0⟩] }

theorem witness_TurnGrantTakesTheFirstInRotation :
    (polling.elapse 5).mayDecide .s0 = true ∧ (polling.elapse 5).requests .s0 .poll = true ∧
    (Dev.reset.elapse 5).mayDecide .s0 = false ∧
    ((live []).elapse 5).mayDecide .s0 = true ∧ (∀ r, ((live []).elapse 5).requests .s0 r = false) :=
  ⟨by decide +kernel, by decide +kernel, by decide +kernel, by decide +kernel, fun r => by cases r <;> decide +kernel⟩

/-- A DELIVER and a POLL request, the DELIVER at the urgent age: its frame is granted, to s0:5 or to all. -/
theorem witness_TurnGrantTakesTheFirstInRotation_urgent :
    ∀ n, n = 5 ∨ n = 255 →
    let d := { ((delivering 0 0).modSeg .s0 fun q => { q with
      downq := q.downq.map fun f => { f with dest := n }
      sched := { q.sched with turn := none, rotation := .poll, cycle := .running [⟨0, 5, 0, 0⟩] } })
      with clock := 20 * Config.ms }
    d.mayDecide .s0 = true ∧ d.requests .s0 .deliver = true ∧ d.urgent .s0 .deliver = true ∧
    d.requests .s0 .poll = true ∧ d.urgent .s0 .poll = false ∧ d.chooseRequester .s0 = some .deliver ∧
    (d.deliverItem .s0).map (fun f => (f.fid, f.dest)) = some (0, n) ∧ ((d.seg .s0).downq.map (·.fid)).Nodup ∧
    (n = 5 → d.station .s0 n = some { sta 0 .s0 5 .present with nextBit := true }) := by
  rintro n (rfl | rfl) <;> decide +kernel

theorem witness_PollGrantSendsPoll :
    ((polling.elapse 5).mayDecide .s0 = true ∧ (polling.elapse 5).chooseRequester .s0 = some .poll ∧
      polling.visits .s0 = [⟨0, 17, 0, 0⟩, ⟨1, 40, 0, 0⟩] ∧
      polling.stationById 0 = some { sta 0 .s0 17 .present with pendingAck := .busy }) ∧
    (let d := polling.modSched .s0 fun q => { q with cycle := .running [⟨1, 40, 3, 0⟩] }
     (d.elapse 0).mayDecide .s0 = true ∧ (d.elapse 0).chooseRequester .s0 = some .poll ∧
      d.visits .s0 = [⟨1, 40, 3, 0⟩] ∧ d.stationById 1 = some (sta 1 .s0 40 .present)) := by decide +kernel

theorem witness_HeldDeliverIsSent :
    let f := fun dest => (⟨0, dest, 17, .last, [[7#8]], 0, 0, 0, false⟩ : DownFrame)
    let d := fun dest => (live [sta 0 .s0 5 .present]).modSeg .s0 fun q =>
      { q with downq := [f dest], sched := { q.sched with turn := some ⟨.deliver 0, .held⟩ } }
    (((d 255).seg .s0).sched.turn = some ⟨.deliver 0, .held⟩ ∧ (d 255).frame .s0 0 = some (f 255) ∧
      (f 255).dest = 255) ∧
    (((d 5).seg .s0).sched.turn = some ⟨.deliver 0, .held⟩ ∧ (d 5).frame .s0 0 = some (f 5) ∧ (f 5).dest ≠ 255 ∧
      (d 5).station .s0 (f 5).dest = some (sta 0 .s0 5 .present)) := by decide +kernel

/-- Printer 2 FEEDING with an item ready, never sent: a block, or the zero-length end of an empty chain. -/
def feedReady (zeroEnd : Bool) : Dev :=
  printing (fun p => { p with feed := .feeding, ready := some ⟨zeroEnd, 0⟩ })
    [jobOf 0 7 .active false (if zeroEnd then [] else [[1#8]])]

theorem witness_FeedGrantSendsTheReadyItem :
    let p : Printer := { Printer.fresh .s0 60 with
      jobLimit := 2, feed := .feeding, awaitingRole := false, ready := some ⟨false, 0⟩ }
    let e := { sta 1 .s0 60 .present with role := .printer }
    ((feedReady false).elapse 0).mayDecide .s0 = true ∧ ((feedReady false).elapse 0).chooseRequester .s0 = some .feed ∧
    (feedReady false).feedChoice .s0 = some (2, 0) ∧ (feedReady false).printer 2 = some p ∧
    p.ready = some ⟨false, 0⟩ ∧ (feedReady false).jobBySerial 0 = some (jobOf 0 7 .active false [[1#8]]) ∧
    (feedReady false).station .s0 p.number = some e ∧
    ((feedReady true).elapse 0).chooseRequester .s0 = some .feed ∧
    (feedReady true).printer 2 = some { p with ready := some ⟨true, 0⟩ } := by decide +kernel

/-- The exchange of `feedingLast`, with another mark. -/
def feedX (m : Mark) : Exchange := ⟨60, some 1, false, false, m, false, 0, 40000, false⟩

/-- An ACCEPT and a REFUSE of a feed DELIVER, marked LAST and MORE, heard at the earliest reading. -/
theorem witness_FeedGrantSendsTheReadyItem_answers :
    ∀ m, m = Mark.last ∨ m = .more →
    let d := (feedingLast 0).modSched .s0 fun q => { q with turn := some ⟨.feed 2 0, .exchange (feedX m)⟩ }
    let j := { jobOf 0 7 .active false [[1#8, 2#8]] with printed := 512, received := 514 }
    let r := fun k => replyOf k 60 0 0#8 []
    (∀ k, k = kAccept ∨ k = kRefuse →
      (d.seg .s0).sched.turn = some ⟨.feed 2 0, .exchange (feedX m)⟩ ∧
      (d.elapse 3700).replyHeard .s0 (feedX m) (r k).cells (r k).cells = true ∧
      classify (.deliver false) 60 (r k) = .good ∧ flagged (parseTrunk (r k).bytes) = false ∧
      (parseTrunk (r k).bytes).kind = k) ∧
    ((d.printer 2).map fun p => p.feed) = some .feeding ∧ CalmLine (d.seg .s0) ∧ d.activeJob 2 = some j ∧
    d.jobBySerial 0 = some j ∧ (d.spool.jobs.map (·.serial)).Nodup ∧ NoneIdle d := by
  have h : NoneIdle (feedingLast 0) := noneIdle_modSched (printing_noneIdle
    (fun p => { p with feed := .feeding, ready := some ⟨false, 0⟩, sentMark := some .last, failCount := 0 })
    [{ jobOf 0 7 .active false [[1#8, 2#8]] with printed := 512, received := 514 }] (by decide +kernel) (by decide +kernel))
  rintro m (rfl | rfl)
  all_goals
    refine ⟨?_, by decide +kernel, by unfold CalmLine; decide +kernel, by decide +kernel, by decide +kernel,
      by decide +kernel, h⟩
    rintro k (rfl | rfl) <;> decide +kernel

/-- The failure before the lost limit of 5, and the one at it. -/
theorem witness_FeedGrantSendsTheReadyItem_fails :
    ∀ n, n = 3 ∨ n = 4 →
    let d := feedingLast n
    let q := d.seg .s0
    let e := { sta 1 .s0 60 .present with role := .printer }
    let strain := min (q.mon.strain + q.cfg.wTimeout * min (min (q.mon.run + 1) 255) 8) 4095
    q.sched.turn = some ⟨.feed 2 0, .exchange (feedX .last)⟩ ∧ (feedX .last).delimiter = false ∧
    (feedX .last).eid = some e.eid ∧ d.stationById e.eid = some e ∧ e.state = .present ∧ q.mon.state = .active ∧
    strain < q.cfg.warn ∧ strain < q.cfg.trip ∧
    ((d.printer 2).map fun p => (p.feed, p.failCount, p.lostLimit)) = some (.feeding, n, 5) ∧
    d.ev.events.length < 32 := by
  rintro n (rfl | rfl) <;> decide +kernel

/-- The exchange of `polled`. -/
def pollX : Exchange := ⟨17, some 0, false, false, .more, false, 0, 40000, false⟩

/-- The start delimiter comes at the frame's end, and at the deadline itself; a frame being sent closes the receiver. -/
theorem witness_LineActivityIsTaken :
    ((polled.seg .s0).sched.turn = some ⟨.poll 0, .exchange pollX⟩ ∧ polled.inService .s0 = true ∧
      pollX.sentAt ≤ polled.clock + 0 ∧ polled.clock + 40000 ≤ pollX.deadline) ∧
    (let q := (live []).seg .s0
     (live []).inService .s0 = true ∧ q.windowOpen = false ∧ q.receiverClosed 7 = false ∧ q.inReply = false ∧
      q.exchangeInFlight = false) ∧ CountersOk (live []) ∧
    (live []).inService .s1 = false ∧
    (let d := polled.modSched .s0 fun q =>
       { q with turn := some ⟨.poll 0, .exchange { pollX with sentAt := 8 }⟩ }
     (d.seg .s0).receiverClosed 7 = true ∧ (d.seg .s0).receiverClosed 8 = false) :=
  ⟨by decide +kernel, by decide +kernel, ⟨fun g => by cases g <;> decide +kernel, by decide +kernel⟩,
    by decide +kernel, by decide +kernel⟩

/-- The entry that `polled` polls. -/
def pollE : Station := { sta 0 .s0 17 .present with lastSeq := some true }

/-- The reply of 9 bytes is heard from the cell at which its delimiter can have come after the frame's end, to the one
after which it came past the deadline. -/
theorem witness_GoodReplyReachesTheDirectory :
    let r := replyOf kIdle 17 0 0#8 []
    (polled.seg .s0).sched.turn = some ⟨.poll 0, .exchange pollX⟩ ∧
    (polled.elapse 3700).replyHeard .s0 pollX r.cells r.cells = true ∧
    (polled.elapse 3699).replyHeard .s0 pollX r.cells r.cells = false ∧
    (polled.elapse 43700).replyHeard .s0 pollX r.cells r.cells = true ∧
    (polled.elapse 43701).replyHeard .s0 pollX r.cells r.cells = false ∧
    classify (expectOf (.poll 0) pollX) pollX.number r = .good ∧ pollX.eid = some pollE.eid ∧
    polled.stationById pollE.eid = some pollE := by decide +kernel

/-- The exchange of `delivering`. -/
def deliverX : Exchange := ⟨5, some 0, true, false, .last, false, 0, 40000, false⟩

/-- An ACCEPT; the 39th refusal and the 40th; the second failure and the third. -/
theorem witness_AcceptedFrameIsFreed :
    (∀ n, n = 38 ∨ n = 39 →
      let d := delivering 0 n
      let f : DownFrame := ⟨0, 5, 17, .last, [List.replicate 256 0#8, List.replicate 44 0#8], 0, 0, n, false⟩
      let e := { sta 0 .s0 5 .present with nextBit := true }
      (d.seg .s0).sched.turn = some ⟨.deliver 0, .exchange deliverX⟩ ∧ d.frame .s0 0 = some f ∧
      f.flushMark = false ∧ CalmLine (d.seg .s0) ∧ deliverX.eid = some e.eid ∧ d.stationById e.eid = some e ∧
      e.role = .terminal ∧ CountersOk d) ∧
    (∀ k, k = kAccept ∨ k = kRefuse →
      let r := replyOf k 5 0 1#8 []
      ((delivering 0 0).elapse 20000).replyHeard .s0 deliverX r.cells r.cells = true ∧
      classify (.deliver deliverX.seq) deliverX.number r = .good ∧ (parseTrunk r.bytes).kind = k) ∧
    (∀ n, n = 1 ∨ n = 2 →
      let q := (delivering n 0).seg .s0
      let strain := min (q.mon.strain + q.cfg.wTimeout * min (min (q.mon.run + 1) 255) 8) 4095
      q.sched.turn = some ⟨.deliver 0, .exchange deliverX⟩ ∧ deliverX.delimiter = false ∧
      ((delivering n 0).frame .s0 0).map (fun f => (f.failed, f.flushMark)) = some (n, false) ∧
      (sta 0 .s0 5 .present).state = .present ∧ q.mon.state = .active ∧ strain < q.cfg.warn ∧
      strain < q.cfg.trip) := by
  refine ⟨?_, ?_, ?_⟩
  · rintro n (rfl | rfl) <;>
      exact ⟨by decide +kernel, by decide +kernel, by decide, by unfold CalmLine; decide +kernel, by decide,
        by decide +kernel, by decide, fun g => by cases g <;> decide +kernel, by decide +kernel⟩
  · rintro k (rfl | rfl) <;> decide +kernel
  · rintro n (rfl | rfl) <;> decide +kernel

theorem witness_DataIsRelayedOnce :
    let r0 := frameA
    let r1 := replyOf kData 17 40 0x03#8 [1#8]
    let f := parseTrunk r0.bytes
    let polls := (polled.seg .s0).sched.turn = some ⟨.poll pollE.eid, .exchange pollX⟩ ∧ pollX.eid = some pollE.eid ∧
      polled.stationById pollE.eid = some pollE ∧ pollE.state = .present ∧ pollE.role = .terminal
    CalmLine (polled.seg .s0) ∧
    (polls ∧ (polled.elapse 20000).replyHeard .s0 pollX r1.cells r1.cells = true ∧
      classify .poll pollX.number r1 = .good ∧ (parseTrunk r1.bytes).kind = kData ∧
      pollE.lastSeq = some ((parseTrunk r1.bytes).control.getLsbD 0)) ∧
    (polls ∧ (polled.elapse 20000).replyHeard .s0 pollX r0.cells r0.cells = true ∧
      classify .poll pollX.number r0 = .good ∧ f.kind = kData ∧ pollE.lastSeq ≠ some (f.control.getLsbD 0) ∧
      f.peer ≠ 0 ∧ f.peer ≠ 255 ∧ polled.station .s0 f.peer = some (sta 1 .s0 40 .present) ∧
      (sta 1 .s0 40 .present).state = .present ∧ (sta 1 .s0 40 .present).role = .terminal ∧
      polled.printerAt .s0 f.peer = none ∧ (polled.seg .s0).downq.length < 31 ∧
      max 1 ((f.payload.length + 255) / 256) + polled.set.coaxFloor ≤ polled.pool.free) := by
  unfold CalmLine; decide +kernel

/-- Room on the uplink queue and in the pool; a full queue; a pool one block short; the link DOWN. -/
theorem witness_DataIsRelayedOnce_carrier :
    let a : AliasEntry := ⟨.s0, 225, .dynamic, .ethernet 0x020000000001#48, .active, 0, 0⟩
    let d := { polled with aliases := [a] }
    let r := replyOf kData 17 225 0x02#8 [1#8]
    let f := parseTrunk r.bytes
    let n : UpFrame := ⟨.notice, 1#48, 2#48, 0x88B6#16, [], []⟩
    let room := fun e : Dev => e.up.queue.length < 63 ∧ 1 + e.set.coaxFloor ≤ e.pool.free
    (d.seg .s0).sched.turn = some ⟨.poll pollE.eid, .exchange pollX⟩ ∧ pollX.eid = some pollE.eid ∧
    d.stationById pollE.eid = some pollE ∧ pollE.state = .present ∧ pollE.role = .terminal ∧
    (d.elapse 20000).replyHeard .s0 pollX r.cells r.cells = true ∧ classify .poll pollX.number r = .good ∧
    f.kind = kData ∧ pollE.lastSeq ≠ some (f.control.getLsbD 0) ∧ f.peer ≠ 0 ∧ f.peer ≠ 255 ∧
    d.station .s0 f.peer = none ∧ d.aliasAt .s0 f.peer = some a ∧ a.state = .active ∧
    a.target = .ethernet 0x020000000001#48 ∧ CalmLine (d.seg .s0) ∧ (d.ev.counter (.seg .s0 .good)).value ≠ 32767 ∧
    (d.ev.counter (.seg .s0 .framesIn)).value ≠ 32767 ∧ max 1 ((f.payload.length + 255) / 256) = 1 ∧
    d.up.link = true ∧ room d ∧ ¬ room (d.modUp fun u => { u with queue := List.replicate 63 n }) ∧
    ¬ room { d with pool := ⟨d.set.coaxFloor, 2048 - d.set.coaxFloor, 0⟩ } ∧
    (d.modUp fun u => { u with link := false }).up.link = false := by
  unfold CalmLine; decide +kernel

/-- The poll of s0:9, whose DATA is for printer 2 at s0:60. -/
def unitX : Exchange := ⟨9, some 0, false, false, .more, false, 0, 40000, false⟩

/-- The source's open job, with room for the unit and without; no open job, with room, with the printer at its limit of
2, with 32 jobs, without room, and with the printer disabled or LOST. -/
theorem witness_DataIsRelayedOnce_units :
    let stalled : Printer → Printer := fun p => { p with feed := .stalled }
    let mine : Job := { jobOf 0 7 .filling true [[1#8]] with source := .coax .s0 9 }
    let at_ := fun (d : Dev) => d.modSched .s0 fun q => { q with turn := some ⟨.poll 0, .exchange unitX⟩ }
    let tight := fun (d : Dev) => { d with pool := ⟨100, 1947, 1⟩ }
    let r := replyOf kData 9 60 0#8 [1#8]
    let f := parseTrunk r.bytes
    let e := sta 0 .s0 9 .present
    let k := { sta 1 .s0 60 .present with role := .printer }
    (let d := at_ (printing stalled [mine])
     (d.seg .s0).sched.turn = some ⟨.poll e.eid, .exchange unitX⟩ ∧ unitX.eid = some e.eid ∧
      d.stationById e.eid = some e ∧ e.state = .present ∧ e.role = .terminal ∧
      (d.elapse 20000).replyHeard .s0 unitX r.cells r.cells = true ∧ classify .poll unitX.number r = .good ∧
      f.kind = kData ∧ e.lastSeq ≠ some (f.control.getLsbD 0) ∧ f.peer ≠ 0 ∧ f.peer ≠ 255 ∧
      d.station .s0 f.peer = some k ∧ k.state = .present ∧ k.role = .printer ∧ d.printerAt .s0 f.peer = some 2 ∧
      frameMark f = .more ∧ CalmLine (d.seg .s0) ∧ NoneIdle d ∧ d.openJob (.coax .s0 9) 2 = some mine ∧
      d.jobBySerial mine.serial = some mine ∧ d.spoolOk (spoolNeed f.payload.length) = true ∧
      (tight d).spoolOk (spoolNeed f.payload.length) = false) ∧
    (let p : Printer := { Printer.fresh .s0 60 with jobLimit := 2, feed := .stalled, awaitingRole := false }
     let other := fun i n => { jobOf i (i + 1) .filling true [] with printer := n }
     let d := fun jobs => at_ (printing stalled jobs)
     let full := [other 0 2, other 1 2]
     let table := (List.range 32).map fun i => other i 3
     (∀ jobs, jobs = [] ∨ jobs = full ∨ jobs = table →
       (d jobs).openJob (.coax .s0 9) 2 = none ∧ (d jobs).printer 2 = some p) ∧
     (p.enabled = true ∧ p.feed ≠ .lost ∧ (d []).inService p.seg = true ∧ (d []).jobCount 2 < p.jobLimit ∧
       (d []).spool.jobs.length < 32 ∧ (d []).spoolOk (spoolNeed f.payload.length) = true ∧
       (tight (d [])).spoolOk (spoolNeed f.payload.length) = false) ∧
     p.jobLimit ≤ (d full).jobCount 2 ∧ ((d table).jobCount 2 < p.jobLimit ∧ 32 ≤ (d table).spool.jobs.length)) ∧
    TakesNoJob (live []) { Printer.fresh .s0 60 with enabled := false } ∧ TakesNoJob (live []) (Printer.fresh .s0 60) := by
  refine ⟨?_, ⟨?_, by decide +kernel⟩, .inl rfl, .inr (.inl rfl)⟩
  · refine ⟨by decide +kernel, by decide, by decide +kernel, by decide, by decide, by decide +kernel, by decide +kernel,
      by decide +kernel, by decide +kernel, by decide +kernel, by decide +kernel, by decide +kernel, by decide, by decide,
      by decide +kernel, by decide +kernel, by unfold CalmLine; decide +kernel, ?_, by decide +kernel, by decide +kernel,
      by decide +kernel, by decide +kernel⟩
    exact noneIdle_modSched (printing_noneIdle (fun p => { p with feed := .stalled })
      [{ jobOf 0 7 .filling true [[1#8]] with source := .coax .s0 9 }] (by decide +kernel) (by decide +kernel))
  · rintro jobs (rfl | rfl | rfl) <;> decide +kernel

/-- The third miss, and a first one. -/
theorem witness_TimeoutChargesAndMisses :
    ∀ n, n = 0 ∨ n = 2 →
    let d := polled.modStation 0 fun e => { e with misses := n }
    let e := { pollE with misses := n }
    let m := (d.seg .s0).mon
    let c := (d.seg .s0).cfg
    let strain := min (m.strain + c.wTimeout * min (min (m.run + 1) 255) 8) 4095
    (d.seg .s0).sched.turn = some ⟨.poll e.eid, .exchange pollX⟩ ∧ pollX.delimiter = false ∧ pollX.eid = some e.eid ∧
    pollX.wasSlow = false ∧ d.stationById e.eid = some e ∧ e.state = .present ∧ m.state = .active ∧ strain < c.warn ∧
    strain < c.trip := by
  rintro n (rfl | rfl) <;> decide +kernel

/-- Heard from the fewest cells after the frame's end, to the most after the deadline. -/
theorem witness_SecondJabberStrikeQuarantines :
    let d := polled.modStation 0 fun e => { e with jabStrikes := 1 }
    let e := { pollE with jabStrikes := 1 }
    StationsOk d ∧ (d.seg .s0).sched.turn = some ⟨.poll 0, .exchange pollX⟩ ∧
    (d.elapse 203600).replyHeard .s0 pollX jabberLeast jabberMost = true ∧
    (d.elapse 203599).replyHeard .s0 pollX jabberLeast jabberMost = false ∧
    (d.elapse 653200).replyHeard .s0 pollX jabberLeast jabberMost = true ∧
    pollX.eid = some e.eid ∧ d.stationById e.eid = some e ∧ e.jabStrikes = 1 ∧ e.state ≠ .quarantined := by
  unfold StationsOk ascending; decide +kernel

theorem witness_BroadcastsAndBackoffsEnd :
    let f : DownFrame := ⟨0, 255, 17, .last, [[7#8]], 0, 0, 0, true⟩
    let d := (live []).modSeg .s0 fun q => { q with
      downq := [f], backoffs := [⟨5, 70⟩], sched := { q.sched with turn := some ⟨.deliver 0, .broadcast 9⟩ } }
    (d.seg .s0).sched.turn = some ⟨.deliver 0, .broadcast 9⟩ ∧ d.frame .s0 0 = some f ∧
    (d.seg .s0).backoffs.find? (fun b => b.number == 5) = some ⟨5, 70⟩ := by decide +kernel

/-! ### Witnesses: cycles, holds, discovery and the tables' aging -/

/-- A station of weight 6 in the plan of cycle 16. -/
theorem witness_PlanVisitsEachStationByWeight :
    let e := { sta 1 .s1 17 .present with weight := 6 }
    e ∈ planStations ∧ (planStations.map (·.eid)).Nodup ∧ e.state = .present ∧ e.role = .terminal ∧ e.weight ≤ 15 := by
  decide +kernel

theorem witness_CyclesStartAndEnd :
    ((live []).inService .s0 = true ∧ ((live []).seg .s0).sched.cycle = .ended) ∧
    ((live planStations).inService .s0 = true ∧ ((live planStations).seg .s0).sched.cycle = .ended) ∧
    (((live []).modSched .s0 fun q => { q with cycle := .empty }).seg .s0).sched.cycle = .empty := by decide +kernel

/-- Segment 0 with its interval timer running, in a state. -/
def timed (st : SegState) : Dev :=
  (live []).modSeg .s0 fun q =>
    { q with mon := { q.mon with state := st }, disc := { q.disc with intervalTimer := some 900 } }

theorem witness_PassesFallDue :
    (∀ st, st = .active ∨ st = .strained ∨ st = .trial →
      ((timed st).seg .s0).disc.intervalTimer = some 900 ∧ ((timed st).seg .s0).disc.pass = .idle ∧
      ((timed st).seg .s0).mon.state = st) ∧
    segOf (0#8).toNat = some .s0 ∧ segOf (3#8).toNat = some .s3 ∧ segOf (4#8).toNat = none ∧
    (let q := ((timed .active).modDisc .s0 fun x => { x with pass := .due }).seg .s0
     q.mon.state = .active ∧ q.disc.pass ≠ .idle) ∧
    (let q := (Dev.reset).seg .s0
     q.mon.state ≠ .active ∧ q.mon.state ≠ .strained ∧ q.mon.state ≠ .trial) := by
  refine ⟨?_, by decide +kernel⟩
  rintro st (rfl | rfl | rfl) <;> decide +kernel

theorem witness_FirstHoldTakesTheMedium :
    ∀ h, h = Hold.discovery ∨ h = .probe →
    let d := (live []).modSched .s0 fun q => { q with holds := [h] }
    let q := d.seg .s0
    q.sched.holds = h :: [] ∧ d.inService .s0 = true ∧ q.sched.turn = none ∧ q.sched.medium = none := by
  rintro h (rfl | rfl) <;> decide +kernel

/-- Segment 0 in the level-0 window of a pass. -/
def inWindow : Dev :=
  (live []).modSeg .s0 fun q => { q with
    sched := { q.sched with medium := some .discovery }
    disc := { q.disc with pass := .level0, run := some ⟨120, none, [], false, 100, []⟩ } }

/-- One garbled slot, and eight. -/
theorem witness_WindowsEnd :
    let r : PassRun := ⟨120, none, [], false, 100, []⟩
    ((inWindow.seg .s0).disc.run = some r ∧ r.held = false ∧ r.group = none ∧ r.readings = []) ∧
    (garbledSlots (readWindow none [.quiet, .noise]) = 1 :: [] ∧ ([] : List Nat).length ≤ 7) ∧
    (garbledSlots (readWindow none (List.replicate 8 .noise)) = 0 :: [1, 2, 3, 4, 5, 6, 7] ∧
      [1, 2, 3, 4, 5, 6, 7].length ≤ 7) ∧
    (let slots := [SlotLine.frame (trunkBytes kPresence 5 0 0#8 []) true false]
     garbledSlots (readWindow none slots) = [] ∧ cleanNumbers (readWindow none slots) = [5] ∧
      inWindow.station .s0 5 = none ∧ inWindow.stations.length < 256 ∧ inWindow.inService .s0 = true) := by
  decide +kernel

/-- One second past the absent-forget time and at it, a DYNAMIC alias at the alias idle time and a second short of it. -/
theorem witness_AgedEntriesLeave :
    let e := { sta 0 .s0 17 .absent with origin := .discovered, absentSince := some 0 }
    let a : AliasEntry := ⟨.s0, 225, .dynamic, .ethernet 1#48, .active, 0, 0⟩
    let b : AliasEntry := ⟨.s0, 226, .static, .ethernet 1#48, .active, 0, 0⟩
    let d := { live [e, sta 1 .s0 18 .present] with uptime := 3601, aliases := [a, b] }
    (StationsOk d ∧ d.station .s0 17 = some e ∧ e.origin = .discovered ∧ e.role = .terminal ∧ e.state = .absent ∧
      d.printerAt .s0 17 = none ∧ e.absentSince = some 0 ∧ d.set.absentForget < d.uptime - 0) ∧
    { d with uptime := 3600 }.uptime - 0 ≤ d.set.absentForget ∧
    (d.station .s0 18 = some (sta 1 .s0 18 .present) ∧ (sta 1 .s0 18 .present).state ≠ .absent) ∧
    (d.aliasAt .s0 225 = some a ∧ a.kind = .dynamic ∧ { d with uptime := 300 }.set.aliasIdle ≤ 300 - a.lastUsed) ∧
    { d with uptime := 299 }.uptime - a.lastUsed < d.set.aliasIdle ∧
    d.aliasAt .s0 226 = some b ∧ b.kind = .static ∧ d.station .s0 1 = none ∧ d.aliasAt .s0 254 = none := by
  unfold StationsOk ascending; decide +kernel

/-- Numbers 1 and 254, with an entry and without. -/
theorem witness_StationsAreShutOutAndReleased :
    let d := live [sta 0 .s0 1 .present, sta 1 .s0 254 .quarantined]
    segOf (0#8).toNat = some .s0 ∧ 1 ≤ (1#8).toNat ∧ (254#8).toNat ≤ 254 ∧ StationsOk d ∧
    (d.station .s0 1 = some (sta 0 .s0 1 .present) ∧ (sta 0 .s0 1 .present).state ≠ .quarantined ∧
      ((d.seg .s0).downq.map (·.fid)).Nodup) ∧
    (d.station .s0 254 = some (sta 1 .s0 254 .quarantined) ∧ (sta 1 .s0 254 .quarantined).state = .quarantined) ∧
    d.station .s0 2 = none := by
  unfold StationsOk ascending; decide +kernel

/-! ### Witnesses: the Line Monitor and the Line Probe -/

theorem witness_SegmentTimersExpire :
    (∀ ph, ph = ProbePhase.idle ∨ ph = .shots →
      let d := (live []).modSeg .s0 fun q => { q with
        mon := { q.mon with state := .cooling, cooldownTimer := some 9 }, probe := { q.probe with phase := ph } }
      (d.seg .s0).mon.state = .cooling ∧ (d.seg .s0).mon.cooldownTimer = some 9 ∧ (d.seg .s0).probe.phase = ph) ∧
    (let d := (live []).modMon .s0 fun m => { m with state := .trial, trialTimer := some 9 }
     (d.seg .s0).mon.state = .trial ∧ (d.seg .s0).mon.trialTimer = some 9 ∧ (d.seg .s0).disc.pass = .idle ∧
      d.ev.events.length < 32) := by
  refine ⟨?_, by decide +kernel⟩
  rintro ph (rfl | rfl) <;> decide +kernel

/-- The charge takes the strain to the trip threshold itself; the fourth try is within the retry limit, the fifth is
past it. -/
theorem witness_TripTakesTheSegmentOut :
    ∀ n, n = 3 ∨ n = 4 →
    let d := (live []).modMon .s0 fun m => { m with strain := 3104, attempts := n }
    let q := d.seg .s0
    q.mon.state = .active ∧ q.windowOpen = false ∧ q.receiverClosed 0 = false ∧ q.exchangeInFlight = false ∧
    q.cfg.trip = min (q.mon.strain + q.cfg.wJabber * min (min (q.mon.run + 1) 255) 8) 4095 ∧ q.cfg.trip ≤ 4095 ∧
    (q.downq.map (·.fid)).Nodup ∧ (n = 3 → min (q.mon.attempts + 1) 255 ≤ q.cfg.retryLimit) ∧
    (n = 4 → ¬ (q.cfg.retryLimit = 15 ∨ min (q.mon.attempts + 1) 255 ≤ q.cfg.retryLimit)) := by
  rintro n (rfl | rfl) <;> decide +kernel

/-- Segment 0's probe in a phase. -/
def probing (ph : ProbePhase) (f : Probe → Probe) : Dev := (live []).modProbe .s0 fun p => f { p with phase := ph }

/-- The last stretch that the 50 ms can hold; the fourth of four shots; counts just past the blank count and just short
of the counter's end. -/
theorem witness_ProbeStepsAdvance :
    (let p := ((probing .quietCheck fun p => { p with stretchStart := 48 * Config.ms }).seg .s0).probe
     p.phase = .quietCheck ∧ p.stretchStart + p.params.quietTime * Config.ms = p.checkStart + 50 * Config.ms) ∧
    (let p := ((probing .shots fun p => { p with shots := [.none, .none, .none] }).seg .s0).probe
     p.phase = .shots ∧ p.capturing = false ∧ p.shots.length < 2 ^ p.params.shotExponent) ∧
    (let p := ((probing .shots fun p => { p with shots := [.none, .none], capturing := true }).seg .s0).probe
     p.phase = .shots ∧ p.capturing = true ∧ p.shots.length + 1 < 2 ^ p.params.shotExponent ∧
      p.params.blankCount < (25#12).toNat ∧ (25#12).toNat < 4095 ∧ p.params.blankCount < (4094#12).toNat ∧
      (4094#12).toNat < 4095) := by decide +kernel

/-- A code below dc low, one at dc low, one at dc high, one above it. -/
theorem witness_DcMeasurementGivesItsVerdict :
    let p := ((probing .dcMeasure id).seg .s0).probe
    p.phase = .dcMeasure ∧ (119#10).toNat < p.params.dcLow ∧ (120#10).toNat = p.params.dcLow ∧
    (880#10).toNat = p.params.dcHigh ∧ p.params.dcHigh < (881#10).toNat := by decide +kernel

/-- Majorities of each kind, a tie, and no shots at all. -/
theorem witness_ShotsAreCombinedByMajority :
    let p := Shot.edge .positive 9
    let n := Shot.edge .negative 9
    (2 * countPolarity .positive [p, p, n] > [p, p, n].length) ∧ (2 * countPolarity .negative [n, n, p] > 3) ∧
    2 * countNone [.none, .none, p] > 3 ∧
    (2 * countPolarity .positive [p, p, n, .none] ≤ 4 ∧ 2 * countPolarity .negative [p, p, n, .none] ≤ 4 ∧
      2 * countNone [p, p, n, .none] ≤ 4) ∧ countNone [] = 0 := by decide +kernel

/-- Averages at the launch offset and one past it, and a probe that passes. -/
theorem witness_ProbeRecordLocatesTheFault :
    let s := fun a => ((probing .shots fun p => { p with shots := [.edge .positive a] }).seg .s0).probe
    ((s 18).phase = .shots ∧ echoAverage (s 18).shots = some 18 ∧ 18 ≤ (s 18).params.launchOffset) ∧
    (echoAverage (s 19).shots = some 19 ∧ (s 19).params.launchOffset < 19 ∧ combineShots (s 19).shots = .openLine) ∧
    (let p := ((probing .shots fun p => { p with shots := [.none], dcCode := some 120 }).seg .s0).probe
     echoAverage p.shots = none ∧ combineShots p.shots ≠ .openLine ∧ combineShots p.shots = .none ∧
      p.dcCode = some 120 ∧ p.params.dcLow ≤ 120) := by decide +kernel

theorem witness_ProbesComplete :
    (let d := (probing .quietCheck fun p => { p with trigger := .manual, onHold := true }).modSched .s0 fun q =>
      { q with medium := some .probe }
     let p := (d.seg .s0).probe
     p.phase = .quietCheck ∧ p.trigger = .manual ∧ p.waitingReq = none ∧ p.onHold = true ∧
      (d.seg .s0).sched.medium = some .probe) ∧
    (let d := (probing .shots fun p => { p with
        capturing := true, shots := [.none, .none, .none], dcCode := some 880 }).modMon .s0 fun m =>
        { m with state := .starting }
     let p := (d.seg .s0).probe
     p.phase = .shots ∧ p.capturing = true ∧ p.trigger = .start ∧ p.waitingReq = none ∧ p.onHold = false ∧
      p.dcCode = some 880 ∧ p.params.dcLow ≤ 880 ∧ 880 ≤ p.params.dcHigh ∧
      p.shots.length + 1 = 2 ^ p.params.shotExponent ∧ (∀ x ∈ p.shots, x = .none) ∧
      (d.seg .s0).mon.state = .starting ∧ (d.seg .s0).disc.pass = .idle) := by decide +kernel

/-! ### Witnesses: the Print Spooler and the Printer Feeder -/

/-- Closed at the job idle time exactly, and left alone a second before it. -/
theorem witness_IdleJobsAreClosed :
    let d := fun up st (p : Printer → Printer) (chain : List Block) =>
      { printing p [jobOf 0 7 st true chain] with uptime := up }
    (let s := d 120 .filling (fun p => { p with feed := .feeding }) [[1#8]]
     let j := jobOf 0 7 .filling true [[1#8]]
     s.jobById (7#8).toNat = some j ∧ s.jobBySerial j.serial = some j ∧ j.isOpen = true ∧
      s.set.jobIdle = s.uptime - j.lastArrival ∧ j.state = .filling ∧
        ((s.printer 2).map fun p => p.feed) = some .feeding) ∧
    (let s := d 120 .active (fun p => { p with feed := .feeding }) []
     let j := jobOf 0 7 .active true []
     s.jobById (7#8).toNat = some j ∧ s.jobBySerial j.serial = some j ∧ s.set.jobIdle ≤ s.uptime - j.lastArrival ∧
      j.state = .active ∧ s.activeJob j.printer = some j ∧
      (s.printer 2).map (fun p => (p.feed, p.ready)) = some (.feeding, none) ∧ j.chain = []) ∧
    (d 119 .filling id []).uptime - 0 < (d 119 .filling id []).set.jobIdle := by decide +kernel

/-- The job of `feedingLast`, whose DELIVER is in flight; the same with no turn; and no job 8. -/
theorem witness_CancelledJobsEnd :
    let j := { jobOf 0 7 .active false [[1#8, 2#8]] with printed := 512, received := 514 }
    let d := feedingLast 0
    let q := d.modSched .s0 fun q => { q with turn := none }
    (d.jobById (7#8).toNat = some j ∧ d.jobBySerial j.serial = some j ∧ (d.spool.jobs.map (·.serial)).Nodup ∧
      d.jobInFlight j.serial = true) ∧
    (q.jobById (7#8).toNat = some j ∧ q.jobBySerial j.serial = some j ∧ q.jobInFlight j.serial = false) ∧
    (let e := q.modSpool fun s => { s with endings := [⟨0, .cancelled, .command⟩] }
     e.spool.endings = [⟨j.serial, .cancelled, .command⟩] ∧ e.agent.running = none ∧
      e.jobBySerial j.serial = some j ∧ e.jobInFlight j.serial = false) ∧
    d.jobById (8#8).toNat = none := by decide +kernel

theorem witness_PrintersAreEnabledAndDisabled :
    let p : Printer := { Printer.fresh .s0 60 with jobLimit := 2, feed := .idle, awaitingRole := false }
    let off : Printer := { p with enabled := false, feed := .disabled }
    ((2#8).toNat < 8 ∧ (printing id []).printer (2#8).toNat = some p ∧ p.enabled = true ∧ p.awaitingRole = false ∧
      (printing id []).activeJob (2#8).toNat = none) ∧
    (printing id [jobOf 0 7 .active true []]).activeJob (2#8).toNat = some (jobOf 0 7 .active true []) ∧
    ((printing (fun _ => off) []).printer (2#8).toNat = some off ∧ off.enabled = false ∧ off.feed = .disabled ∧
      (printing (fun _ => off) []).jobCount (2#8).toNat = 0) ∧
    (let j := { jobOf 0 7 .queued false [[1#8]] with printer := 3 }
     let w : Printer := { p with feed := .feeding }
     let d := printing (fun _ => w) [j]
     d.jobById (7#8).toNat = some j ∧ d.jobBySerial j.serial = some j ∧ d.printer (2#8).toNat = some w ∧
      j.state = .queued ∧ w.enabled = true ∧ w.feed ≠ .lost ∧ w.feed ≠ .idle ∧ j.printer ≠ (2#8).toNat ∧
      d.jobCount (2#8).toNat < w.jobLimit) ∧ 8 ≤ (8#8).toNat := by decide +kernel

/-- A DISABLED printer with two QUEUED jobs, the older stamp just before the count wraps. -/
theorem witness_PrintersAreEnabledAndDisabled_selects :
    let p : Printer := { Printer.fresh .s0 60 with
      jobLimit := 2, awaitingRole := false, enabled := false, feed := .disabled }
    let j := { jobOf 0 7 .queued false [[1#8]] with stamp := some 4294967295 }
    let k := { jobOf 1 8 .queued false [[2#8]] with stamp := some 0 }
    let d := printing (fun _ => p) [k, j]
    d.printer (2#8).toNat = some p ∧ d.printerReachable p = true ∧ d.activeJob (2#8).toNat = none ∧
    d.jobBySerial j.serial = some j ∧ j.printer = (2#8).toNat ∧ j.state = .queued ∧ j.isOpen = false ∧
    (d.spool.jobs.map (·.serial)).Nodup ∧
    ∀ x ∈ d.spool.jobs, x.printer = (2#8).toNat → x.state = .queued → x ≠ j → jobBefore j x = true := by
  decide +kernel

theorem witness_PrinterTakesItsStation :
    let d := printing (fun _ => Printer.fresh .s0 60) []
    let p := Printer.fresh .s0 60
    let e := { sta 1 .s0 60 .present with role := .printer }
    d.printer 2 = some p ∧ p.awaitingRole = true ∧ p.feed = .lost ∧ (d.seg p.seg).flushPending p.number = false ∧
    d.station p.seg p.number = some e ∧ d.stationById e.eid = some e ∧ d.jobCount 2 = 0 ∧
    ((d.seg p.seg).downq.map (·.fid)).Nodup := by decide +kernel

theorem witness_PrinterTimersExpire :
    (let p : Printer := { Printer.fresh .s0 60 with
        jobLimit := 2, feed := .waitReady, awaitingRole := false, busyTimer := some 7 }
     let d := printing (fun _ => p) [jobOf 0 7 .active true [[1#8]]]
     d.printer 2 = some p ∧ p.feed = .waitReady ∧ p.busyTimer = some 7 ∧
      d.activeJob 2 = some (jobOf 0 7 .active true [[1#8]]) ∧ (jobOf 0 7 .active true [[1#8]]).chain ≠ []) ∧
    (let p : Printer := { Printer.fresh .s0 60 with jobLimit := 2, awaitingRole := false, holdTimer := some 7 }
     let d := printing (fun _ => p) [jobOf 0 7 .active true [[1#8]]]
     d.printer 2 = some p ∧ p.feed = .lost ∧ p.holdTimer = some 7 ∧ (d.spool.jobs.map (·.serial)).Nodup ∧
      (∀ j ∈ d.spool.jobs, j.printer = 2 → d.jobInFlight j.serial = false) ∧
      (printing (fun _ => p) []).jobCount 2 = 0) := by decide +kernel

/-! ### Witnesses: the Management Agent -/

/-- A request of one operation waits. -/
def asked (op : Op) : Dev := (live []).modAgent fun a => { a with queue := [⟨1#48, 0x31#16, [op]⟩] }

theorem witness_RequestsAreAnswered :
    ∀ op, op = Op.mk 0x01#8 [1#8, 0#8] ∨ op = ⟨0x21#8, []⟩ →
    ListsOk (asked op) ∧
    (asked op).agent.running = none ∧ (asked op).agent.queue = (⟨1#48, 0x31#16, [op]⟩ : Request) :: [] ∧
    (asked op).up.link = true ∧ (asked op).up.queue.length < 63 := by
  rintro op (rfl | rfl) <;>
    exact ⟨⟨by decide +kernel, fun g => by cases g <;> decide +kernel, by decide +kernel⟩, by decide +kernel⟩

theorem witness_ReadAnswersTheEntry :
    let a : AliasEntry := ⟨.s0, 225, .dynamic, .ethernet 1#48, .active, 0, 0⟩
    let x : Summary := ⟨7, 2, .coax .s0 9, .done, 1, 1, 0⟩
    let d := { printing id [jobOf 0 9 .filling true [], jobOf 1 7 .filling true []] with aliases := List.replicate 128 a }
    let d := d.modSpool fun s => { s with finished := [x] }
    let r := (live []).partRecord .s3 .aborted
    let c := (live []).captureRecord .s3 .active .cooling
    let e := (live []).modSeg .s3 fun q =>
      { q with probe := { q.probe with last := some r }, mon := { q.mon with record := some c } }
    (0#8).toNat = 0 ∧ 9 < (10#8).toNat ∧ Table.ofCode 5#8 = some .printer ∧ Table.printer.indices ≤ (8#8).toNat ∧
    d.stations[(1#8).toNat]? = some { sta 1 .s0 60 .present with role := .printer } ∧
    d.stations[(255#8).toNat]? = none ∧ segOf (3#8).toNat = some .s3 ∧ d.aliases[(127#8).toNat]? = some a ∧
    (d.printer (2#8).toNat).isSome = true ∧ (e.seg .s3).probe.last = some r ∧ (d.seg .s3).probe.last = none ∧
    (e.seg .s3).mon.record = some c ∧ (d.seg .s3).mon.record = none ∧
    d.jobsById[(0#8).toNat]? = some (jobOf 1 7 .filling true []) ∧ d.jobsById[(31#8).toNat]? = none ∧
    d.spool.finished[(0#8).toNat]? = some x ∧ d.spool.finished[(15#8).toNat]? = none := by
  decide +kernel

/-- A coax floor above its range; a spool quota below the spool count; a pause-on above pause-off; an undefined code. -/
theorem witness_SettingsAreWritten :
    let d := printing id [jobOf 0 7 .active true [[1#8]]]
    let w : List Field := [⟨2#8, [2#8, 1#8]⟩, ⟨14#8, [0#8, 0#8]⟩]
    let new := d.set.written w
    (fieldsSound settingsSpec w = true ∧ new.sound = true ∧ d.pool.spool ≤ new.spoolQuota ∧ new.base = d.set.base ∧
      given w 2 = some [2#8, 1#8] ∧ 512 < ofBe [2#8, 1#8] ∧ given w 14 = some [0#8, 0#8]) ∧
    (namesAny w [4, 7, 8, 10, 11, 13, 14, 15, 16, 17, 18] = true ∧
      namesAny [⟨2#8, [2#8, 1#8]⟩] [4, 7, 8, 10, 11, 13, 14, 15, 16, 17, 18] = false ∧ given [] 2 = none) ∧
    (d.set.written [⟨4#8, [0#8, 0#8]⟩]).spoolQuota < d.pool.spool ∧
    (d.set.written [⟨7#8, [1#8, 0x81#8]⟩]).sound = false ∧ fieldsSound settingsSpec [⟨29#8, []⟩] = false := by
  decide +kernel

/-- A new base address with no alias in its range, and with a STATIC or a DYNAMIC one; one with its lowest bit set. -/
theorem witness_SettingsAreWritten_base :
    let w : List Field := [⟨1#8, [2#8, 0#8, 0#8, 0#8, 0#8, 0#8]⟩]
    let a : AliasKind → AliasEntry := fun k => ⟨.s0, 225, k, .ethernet 0x0200000003FF#48, .active, 0, 0⟩
    let new := (live []).set.written w
    (fieldsSound settingsSpec w = true ∧ new.sound = true ∧ (live []).pool.spool ≤ new.spoolQuota ∧
      new.base ≠ (live []).set.base ∧ namesAny w [4, 7, 8, 10, 11, 13, 14, 15, 16, 17, 18] = false) ∧
    ((a .static).kind = .static ∧ inProxy new.base (a .static).target = true) ∧
    ((a .dynamic).kind = .dynamic ∧ inProxy new.base (a .dynamic).target = true) ∧
    ((live []).set.written [⟨1#8, [2#8, 0#8, 0#8, 0#8, 0#8, 1#8]⟩]).base.toNat % 1024 ≠ 0 := by
  decide +kernel

/-- A cycle floor and an alias range of a segment out of service; a relieve threshold at the warn threshold. -/
theorem witness_SegmentsAreWritten :
    let w : List Field := [⟨3#8, [0#8, 9#8]⟩, ⟨9#8, [0#8, 9#8]⟩, ⟨11#8, [230#8]⟩]
    let c := SegSettings.defaults
    (segOf (1#8).toNat = some .s1 ∧ fieldsSound segmentSpec w = true ∧ (c.written w).sound .s1 = true ∧
      names w 3 = true ∧ (live []).inService .s1 = false ∧ names w 11 = true ∧ given w 9 = some [0#8, 9#8] ∧
      ofBe [0#8, 9#8] < 10 ∧ ((live []).seg .s1).cfg = c) ∧
    (fieldsSound segmentSpec [] = true ∧ (c.written []).sound .s1 = true ∧ names [] 11 = false ∧ names [] 12 = false) ∧
    (c.written [⟨20#8, [4#8, 0xB0#8]⟩]).sound .s1 = false := by decide +kernel

theorem witness_StationsAreWrittenAndDeleted :
    let d := printing id []
    let e := sta 0 .s0 9 .present
    let k := { sta 1 .s0 60 .present with role := .printer }
    (∀ n : Byte, n = 1#8 ∨ n = 254#8 →
      let w : List Field := [⟨1#8, [3#8]⟩, ⟨2#8, [n]⟩]
      fieldsSound stationSpec w = true ∧ natOr w 5 0 ≤ 1 ∧ d.stations[(2#8).toNat]? = none ∧ given w 1 = some [3#8] ∧
      given w 2 = some [n] ∧ segOf (ofBe [3#8]) = some .s3 ∧ ofBe [n] = n.toNat ∧ 1 ≤ n.toNat ∧ n.toNat ≤ 254 ∧
      d.station .s3 n.toNat = none ∧ d.stations.length < 256 ∧ given w 5 = none ∧ given w 7 = none ∧ given w 8 = none ∧
      d.aliasAt .s3 n.toNat = none) ∧
    (let w : List Field := [⟨7#8, [16#8]⟩]
     StationsOk d ∧ fieldsSound stationSpec w = true ∧ natOr w 5 e.origin.code = 1 ∧
      d.stations[(0#8).toNat]? = some e ∧ given w 1 = none ∧ given w 2 = none ∧ 1 ≤ e.number ∧ e.number ≤ 254) ∧
    d.printerAt e.seg e.number = none ∧ d.stations[(1#8).toNat]? = some k ∧ d.printerAt k.seg k.number = some 2 := by
  refine ⟨?_, ?_⟩
  · rintro n (rfl | rfl) <;> decide +kernel
  · unfold StationsOk ascending; decide +kernel

theorem witness_AliasesAreWrittenAndDeleted :
    let d := live []
    let w : List Field := [⟨1#8, [0#8]⟩, ⟨2#8, [254#8]⟩, ⟨4#8, [0#8, 2#8, 0#8, 0#8, 0#8, 0#8, 1#8]⟩]
    let x := Target.ethernet 0x020000000001#48
    let a : AliasEntry := ⟨.s0, 225, .dynamic, .ethernet 1#48, .active, 0, 0⟩
    ((127#8).toNat < 128 ∧ fieldsSound aliasSpec w = true ∧ natOr w 3 0 = 0 ∧ d.aliases[(127#8).toNat]? = none ∧
      askedAlias w none = some (.s0, 254, x) ∧ 1 ≤ 254 ∧ 254 ≤ 254 ∧ targetOk d.set.base .s0 x = true ∧
      d.aliasRefused none .s0 254 x = none ∧ d.aliases.length < 128) ∧
    ({ d with aliases := [a] }).aliases[(0#8).toNat]? = some a ∧
      ({ d with aliases := [a] }).aliases[(1#8).toNat]? = none := by
  decide +kernel

theorem witness_PrintersAreWrittenAndDeleted :
    let d := printing id []
    let e := sta 0 .s0 9 .present
    let w : List Field := [⟨1#8, [0#8, 9#8]⟩, ⟨6#8, [16#8]⟩]
    let p : Printer := { Printer.fresh .s0 60 with jobLimit := 2, feed := .idle, awaitingRole := false }
    let k := { sta 1 .s0 60 .present with role := .printer }
    ((7#8).toNat < 8 ∧ d.spool.printers.length = 8 ∧ fieldsSound printerSpec w = true ∧ given w 1 = some [0#8, 9#8] ∧
      segOf ([0#8, 9#8].getD 0 0#8).toNat = some .s0 ∧ ([0#8, 9#8].getD 1 0#8).toNat = 9 ∧
      d.printer (7#8).toNat = none ∧ d.station .s0 9 = some e ∧ d.printerAt .s0 9 = none ∧
      ((d.seg .s0).downq.map (·.fid)).Nodup) ∧
    ((2#8).toNat < 8 ∧ StationsOk d ∧ d.printer (2#8).toNat = some p ∧ d.jobCount (2#8).toNat = 0 ∧
      d.station p.seg p.number = some k ∧ k.origin = .configured) ∧
    0 < (printing id [jobOf 0 7 .active true []]).jobCount (2#8).toNat ∧ 8 ≤ (8#8).toNat := by
  unfold StationsOk ascending; decide +kernel

theorem witness_SegmentsAreEnabledAndDisabled :
    (∀ ph, ph = ProbePhase.idle ∨ ph = .shots →
      let q := ((probing ph id).modMon .s0 fun m => { m with state := .down }).seg .s0
      segOf (0#8).toNat = some .s0 ∧ q.mon.state = .down ∧ q.probe.phase = ph) ∧
    ((live []).seg .s0).mon.state ≠ .down ∧ (((delivering 0 0).seg .s0).downq.map (·.fid)).Nodup ∧
    (delivering 0 0).inService .s0 = true := by
  refine ⟨?_, by decide +kernel⟩
  rintro ph (rfl | rfl) <;> decide +kernel

theorem witness_SegmentsAreRestoredAndProbed :
    let q := fun st => ((live []).modMon .s0 fun m => { m with state := st }).seg .s0
    segOf (0#8).toNat = some .s0 ∧ segOf (4#8).toNat = none ∧
    (∀ st, st = .cooling ∨ st = .probing ∨ st = .trial ∨ st = .latched ∨ st = .down ∨ st = .starting ∨ st = .active ∨
      st = .strained → (q st).mon.state = st ∧ (q st).probe.phase = .idle ∧ (q st).probe.waitingReq = none) ∧
    ((probing .shots id).seg .s0).probe.phase ≠ .idle ∧
    ((probing .idle fun p => { p with waitingReq := some .start }).seg .s0).probe.waitingReq ≠ none := by
  refine ⟨by decide, by decide, ?_, by decide +kernel⟩
  rintro st (rfl | rfl | rfl | rfl | rfl | rfl | rfl | rfl) <;> decide +kernel

theorem witness_ConfigurationIsStored :
    (live []).agent.saving = none ∧ (live []).ev.events.length < 32 ∧
    ((live []).modAgent fun a => { a with saving := some (live []).takeImage }).agent.saving =
      some (live []).takeImage := by decide +kernel

end Sys2Proof.Tests
end

