-- ==== Sys2Proof/Proofs/ShotCombination.lean ====
section
/-! The combination of a probe's shots (R139): the counts of the three kinds of shots, the echo class by strict majority,
and the average of the majority's counts. -/

namespace Sys2Proof.Machine

open Sys2Proof

@[simp] theorem countPolarity_nil (q : Polarity) : countPolarity q [] = 0 := rfl

@[simp] theorem countNone_nil : countNone [] = 0 := rfl

@[simp] theorem countPolarity_cons_edge (q r : Polarity) (c : Nat) (l : List Shot) :
    countPolarity q (.edge r c :: l) = countPolarity q l + if r = q then 1 else 0 := by
  by_cases h : r = q <;> simp [countPolarity, Shot.hasPolarity, h]

@[simp] theorem countPolarity_cons_none (q : Polarity) (l : List Shot) :
    countPolarity q (.none :: l) = countPolarity q l := rfl

@[simp] theorem countNone_cons_edge (r : Polarity) (c : Nat) (l : List Shot) :
    countNone (.edge r c :: l) = countNone l := rfl

@[simp] theorem countNone_cons_none (l : List Shot) : countNone (.none :: l) = countNone l + 1 := rfl

/-- The three counts divide the shots among them, so that at most one of them is a strict majority. -/
theorem shotCounts_add (l : List Shot) :
    countPolarity .positive l + countPolarity .negative l + countNone l = l.length := by
  induction l with
  | nil => rfl
  | cons x l ih =>
    cases x with
    | none => simp; omega
    | edge r c => cases r <;> simp <;> omega

theorem combineShots_of_positives {l : List Shot} (h : l.length < 2 * countPolarity .positive l) :
    combineShots l = .openLine := if_pos h

/-- The model asks for the positive majority first; the division of the shots makes the order immaterial. -/
theorem combineShots_of_negatives {l : List Shot} (h : l.length < 2 * countPolarity .negative l) :
    combineShots l = .short := by
  have sum := shotCounts_add l
  have noPositives : ¬ l.length < 2 * countPolarity .positive l := by omega
  rw [combineShots, if_neg noPositives, if_pos h]

theorem combineShots_of_nones {l : List Shot} (h : l.length < 2 * countNone l) : combineShots l = .none := by
  have sum := shotCounts_add l
  have noPositives : ¬ l.length < 2 * countPolarity .positive l := by omega
  have noNegatives : ¬ l.length < 2 * countPolarity .negative l := by omega
  rw [combineShots, if_neg noPositives, if_neg noNegatives, if_pos h]

theorem combineShots_of_no_majority {l : List Shot} (hp : 2 * countPolarity .positive l ≤ l.length)
    (hn : 2 * countPolarity .negative l ≤ l.length) (hz : 2 * countNone l ≤ l.length) :
    combineShots l = .unstable := by
  rw [combineShots, if_neg (Nat.not_lt.mpr hp), if_neg (Nat.not_lt.mpr hn), if_neg (Nat.not_lt.mpr hz)]

/-- The shots averaged are as many as were counted. -/
theorem averageOf_eq (q : Polarity) (l : List Shot) :
    averageOf q l =
      (2 * ((l.filter (Shot.hasPolarity q)).map Shot.count).sum + countPolarity q l) / (2 * countPolarity q l) := by
  simp only [averageOf, countPolarity, List.length_map]

theorem echoAverage_of_positives {l : List Shot} (h : l.length < 2 * countPolarity .positive l) :
    echoAverage l = some (averageOf .positive l) := by
  rw [echoAverage, combineShots_of_positives h]

theorem echoAverage_of_negatives {l : List Shot} (h : l.length < 2 * countPolarity .negative l) :
    echoAverage l = some (averageOf .negative l) := by
  rw [echoAverage, combineShots_of_negatives h]

/-- Without a majority of either polarity the class is NONE or UNSTABLE, and neither has an average. -/
theorem echoAverage_of_no_polarity {l : List Shot} (hp : 2 * countPolarity .positive l ≤ l.length)
    (hn : 2 * countPolarity .negative l ≤ l.length) : echoAverage l = none := by
  rcases Nat.lt_or_ge l.length (2 * countNone l) with hz | hz
  · rw [echoAverage, combineShots_of_nones hz]
  · rw [echoAverage, combineShots_of_no_majority hp hn hz]

theorem echoAverage_eq (l : List Shot) :
    echoAverage l =
      if l.length < 2 * countPolarity .positive l then some (averageOf .positive l)
      else if l.length < 2 * countPolarity .negative l then some (averageOf .negative l)
      else none := by
  split_ifs with hp hn
  · exact echoAverage_of_positives hp
  · exact echoAverage_of_negatives hn
  · exact echoAverage_of_no_polarity (Nat.not_lt.mp hp) (Nat.not_lt.mp hn)

/-- Settles O42: the three counts add up to the number of shots, which decides each class and its average. -/
theorem shotsAreCombinedByMajority : Obligations.ShotsAreCombinedByMajority := by
  intro l p n z
  have sum : p + n + z = l.length := shotCounts_add l
  refine ⟨sum, fun hp => ⟨combineShots_of_positives hp, by omega, by omega⟩, combineShots_of_negatives,
    combineShots_of_nones, combineShots_of_no_majority, ?_⟩
  rw [echoAverage_eq, averageOf_eq, averageOf_eq]

end Sys2Proof.Machine
end

