-- ==== Sys2Proof/Proofs/FullEventList.lean ====
section
/-! An event that finds the event list full (R187): what the largest severity number of a list is, which entry gives way,
and what the Event Unit holds after the event. -/

namespace Sys2Proof.Machine

open Sys2Proof

/-! ### The largest severity number of a list -/

/-- `lowestSeverity` starts its fold at 0, which no longer shows once the list holds an entry. -/
theorem max?_severities_eq_lowestSeverity {l : List Event} (nonempty : l ≠ []) :
    (l.map (·.kind.severity)).max? = some (lowestSeverity l) := by
  cases l with
  | nil => exact absurd rfl nonempty
  | cons e l => simp only [lowestSeverity, List.map_cons, List.max?_cons', List.foldl_cons, List.foldl_map, Nat.zero_max]

theorem severity_le_lowestSeverity {l : List Event} {e : Event} (he : e ∈ l) : e.kind.severity ≤ lowestSeverity l :=
  (List.max?_eq_some_iff.mp (max?_severities_eq_lowestSeverity (List.ne_nil_of_mem he))).2 _ (List.mem_map_of_mem he)

theorem exists_severity_eq_lowestSeverity {l : List Event} (nonempty : l ≠ []) :
    ∃ e ∈ l, e.kind.severity = lowestSeverity l :=
  List.mem_map.mp (List.max?_eq_some_iff.mp (max?_severities_eq_lowestSeverity nonempty)).1

/-! ### The entry that gives way -/

theorem removeFirst_eq_eraseP {α : Type} (p : α → Bool) (l : List α) : removeFirst p l = l.eraseP p := by
  induction l with
  | nil => rfl
  | cons a l ih => cases h : p a <;> simp [removeFirst, h, ih]

/-- The list is in the order of age, oldest first, so that the first entry of the largest number is the oldest of it. -/
theorem removeFirst_lowestSeverity {l : List Event} (nonempty : l ≠ []) :
    ∃ before after out, l = before ++ out :: after ∧ out.kind.severity = lowestSeverity l ∧
      (∀ e ∈ before, e.kind.severity ≠ lowestSeverity l) ∧
      removeFirst (fun e => e.kind.severity == lowestSeverity l) l = before ++ after := by
  obtain ⟨e, he, hlow⟩ := exists_severity_eq_lowestSeverity nonempty
  obtain ⟨out, before, after, earlier, hout, hl, herase⟩ :=
    List.exists_of_eraseP (p := fun e => e.kind.severity == lowestSeverity l) he (beq_iff_eq.mpr hlow)
  refine ⟨before, after, out, hl, beq_iff_eq.mp hout, fun b hb => ?_, ?_⟩
  · exact fun heq => earlier b hb (beq_iff_eq.mpr heq)
  · rw [removeFirst_eq_eraseP, herase]

/-! ### A new kind and subject at a full list -/

section FullList

variable {l : List Event} {k : EventKind} {x : Subject} (now : Nat)

/-- A new kind and subject is no repeat of an entry (R186). -/
theorem any_same_eq_false (new : ∀ e ∈ l, ¬ (e.kind = k ∧ e.subject = x)) :
    (l.any fun e => e.kind == k && e.subject == x) = false := by
  simpa using new

theorem recordEvent_of_full (full : l.length = Config.eventMax) (new : ∀ e ∈ l, ¬ (e.kind = k ∧ e.subject = x)) :
    recordEvent l now k x =
      if k.severity < lowestSeverity l then
        (removeFirst (fun e => e.kind.severity == lowestSeverity l) l ++ [⟨k, x, now, 0, true⟩], false)
      else (l, true) := by
  have noRoom : ¬ l.length < Config.eventMax := by omega
  simp only [recordEvent, any_same_eq_false new, if_neg noRoom, Bool.false_eq_true, if_false]

end FullList

/-! ### The Event Unit after an event -/

@[simp] theorem Dev.retimeHoldoff_events (d : Dev) : d.retimeHoldoff.ev.events = d.ev.events := rfl

@[simp] theorem Dev.retimeHoldoff_lost (d : Dev) : d.retimeHoldoff.ev.lost = d.ev.lost := rfl

section Unit

variable {d : Dev} {k : EventKind} {x : Subject} {l : List Event}

theorem Dev.recordEvent_of_kept (kept : Machine.recordEvent d.ev.events d.uptime k x = (l, false)) :
    (d.recordEvent k x).1.ev.events = l ∧ (d.recordEvent k x).1.ev.lost = d.ev.lost := by
  rw [Dev.recordEvent, kept]
  exact ⟨Dev.retimeHoldoff_events _, Dev.retimeHoldoff_lost _⟩

theorem Dev.recordEvent_of_discarded (discarded : Machine.recordEvent d.ev.events d.uptime k x = (l, true)) :
    (d.recordEvent k x).1.ev.events = d.ev.events ∧ (d.recordEvent k x).1.ev.lost = min (d.ev.lost + 1) 255 := by
  rw [Dev.recordEvent, discarded]
  exact ⟨rfl, rfl⟩

end Unit

/-- Settles O16: a full list holds an entry of its largest severity number, and the comparison with that number decides
whether its oldest entry gives way or the event is lost. -/
theorem fullEventListWeighsBySeverity : Obligations.FullEventListWeighsBySeverity := by
  intro d k x full new low
  have nonempty : d.ev.events ≠ [] := List.ne_nil_of_length_pos (by omega)
  have recorded := recordEvent_of_full d.uptime full new
  refine ⟨fun e => severity_le_lowestSeverity, exists_severity_eq_lowestSeverity nonempty, fun severer => ?_,
    fun notSeverer => ?_⟩
  · rw [if_pos severer] at recorded
    obtain ⟨before, after, out, hl, hout, hbefore, hremoved⟩ := removeFirst_lowestSeverity nonempty
    rw [hremoved] at recorded
    exact ⟨before, after, out, hl, hout, hbefore, Dev.recordEvent_of_kept recorded⟩
  · rw [if_neg (Nat.not_lt.mpr notSeverer)] at recorded
    exact Dev.recordEvent_of_discarded recorded

end Sys2Proof.Machine
end

