-- ==== Sys2Proof/Proofs/Reports.lean ====
section
/-! What an event raised and a report counted leave in the Event Unit (R182 to R189): the counters one by one, and the
entries of the event list. -/

namespace Sys2Proof.Machine

open Sys2Proof

-- one proof after another: proofs that wait for each other take a thread each
set_option Elab.async false

/-! ### The event list -/

/-- The event list has an entry of a kind and a subject. -/
def HasEvent (l : List Event) (k : EventKind) (s : Subject) : Prop := ∃ e ∈ l, e.kind = k ∧ e.subject = s

theorem mem_modifyFirst_of_mem {α : Type} {p : α → Bool} {f : α → α} {a : α} {l : List α} (h : a ∈ l) :
    a ∈ modifyFirst p f l ∨ f a ∈ modifyFirst p f l := by
  induction l with
  | nil => exact absurd h List.not_mem_nil
  | cons b l ih =>
    cases hb : p b <;> simp only [modifyFirst, hb, Bool.false_eq_true, if_false, if_true] <;>
      rcases List.mem_cons.mp h with rfl | h
    · exact .inl List.mem_cons_self
    · exact (ih h).imp (List.mem_cons_of_mem _) (List.mem_cons_of_mem _)
    · exact .inr List.mem_cons_self
    · exact .inl (List.mem_cons_of_mem _ h)

/-- A repeat keeps every entry's kind and subject (R186). -/
theorem HasEvent.modifyFirst {l : List Event} {k : EventKind} {s : Subject} (h : HasEvent l k s) (p : Event → Bool)
    {f : Event → Event} (same : ∀ e, (f e).kind = e.kind ∧ (f e).subject = e.subject) :
    HasEvent (modifyFirst p f l) k s := by
  obtain ⟨e, he, hk, hs⟩ := h
  rcases mem_modifyFirst_of_mem (p := p) (f := f) he with hm | hm
  · exact ⟨e, hm, hk, hs⟩
  · exact ⟨f e, hm, (same e).1.trans hk, (same e).2.trans hs⟩

theorem severity_le (k : EventKind) : k.severity ≤ 3 := by cases k <;> decide

theorem lowestSeverity_le (l : List Event) : lowestSeverity l ≤ 3 := by
  cases l with
  | nil => decide
  | cons e l =>
    obtain ⟨x, -, hx⟩ := exists_severity_eq_lowestSeverity (List.cons_ne_nil e l)
    exact hx ▸ severity_le _

/-- An event joins a list with room, or repeats an entry of its kind and subject (R186). -/
theorem recordEvent_joins {l : List Event} (room : l.length < Config.eventMax) (now : Nat) (k : EventKind) (s : Subject) :
    (recordEvent l now k s).2 = false ∧ HasEvent (recordEvent l now k s).1 k s := by
  unfold recordEvent
  dsimp only
  split
  · rename_i same
    obtain ⟨e, he, hks⟩ := List.any_eq_true.mp same
    simp only [Bool.and_eq_true, beq_iff_eq] at hks
    exact ⟨rfl, HasEvent.modifyFirst ⟨e, he, hks⟩ _ (by intro e; exact ⟨rfl, rfl⟩)⟩
  · exact ⟨rfl, ⟨k, s, now, 0, true⟩, by simp, rfl, rfl⟩

/-- COUNTER_HALF is of the lowest severity: no entry gives way to it (R185, R187). -/
theorem recordEvent_counterHalf_keeps {l : List Event} {k : EventKind} {s : Subject} (h : HasEvent l k s) (now : Nat)
    (x : Subject) : HasEvent (recordEvent l now .counterHalf x).1 k s := by
  have noWay : ¬ EventKind.counterHalf.severity < lowestSeverity l := Nat.not_lt.mpr (lowestSeverity_le l)
  simp only [recordEvent, noWay, if_false]
  split
  · exact h.modifyFirst _ (by intro e; exact ⟨rfl, rfl⟩)
  · split
    · obtain ⟨e, he, hks⟩ := h
      exact ⟨e, List.mem_append_left _ he, hks⟩
    · exact h

section Unit

variable {d : Dev} {k : EventKind} {s : Subject}

theorem Dev.recordEvent_events (d : Dev) (k : EventKind) (s : Subject) : (d.recordEvent k s).1.ev.events =
    if (Machine.recordEvent d.ev.events d.uptime k s).2 then d.ev.events
    else (Machine.recordEvent d.ev.events d.uptime k s).1 := by
  unfold Dev.recordEvent
  dsimp only
  split <;> rfl

theorem Dev.countQuietly_keeps (h : HasEvent d.ev.events k s) (c : CounterId) :
    HasEvent (d.countQuietly c).ev.events k s := by
  have bumped : HasEvent (d.modEv fun e => e.bump c).ev.events k s := by
    have same : (d.ev.bump c).events = d.ev.events := by
      cases c with
      | seg g c => cases g <;> rfl
      | uplink c => rfl
      | spool c => rfl
    rwa [Dev.modEv_ev, same]
  unfold Dev.countQuietly
  dsimp only
  split
  · rw [Dev.recordEvent_events]
    split
    · exact bumped
    · exact recordEvent_counterHalf_keeps bumped _ _
  · exact bumped

theorem Dev.offerNotice_keeps (h : HasEvent d.ev.events k s) : HasEvent d.offerNotice.ev.events k s := by
  unfold Dev.offerNotice
  split
  · have same : (d.placeUp d.noticeFrame).ev = d.ev := by
      unfold Dev.placeUp Dev.startTx
      split
      · split <;> rfl
      · rfl
    obtain ⟨e, he, hk, hs⟩ := h
    refine ⟨{ e with unsent := false }, ?_, hk, hs⟩
    rw [Dev.modEv_ev, same]
    exact List.mem_map_of_mem he
  · exact Dev.countQuietly_keeps h _

theorem Dev.noticeTest_keeps (h : HasEvent d.ev.events k s) : HasEvent d.noticeTest.ev.events k s := by
  unfold Dev.noticeTest
  split
  · exact h
  · split
    · exact Dev.offerNotice_keeps h
    · exact h

/-- An event raised joins a list with room (R186). -/
theorem Dev.raise_joins (room : d.ev.events.length < Config.eventMax) (k : EventKind) (s : Subject) :
    HasEvent (d.raise k s).ev.events k s := by
  have joined : HasEvent (d.recordEvent k s).1.ev.events k s := by
    obtain ⟨kept, joins⟩ := recordEvent_joins room d.uptime k s
    rw [Dev.recordEvent_events, kept]
    exact joins
  unfold Dev.raise
  dsimp only
  split
  · exact Dev.noticeTest_keeps joined
  · exact joined

end Unit

end Sys2Proof.Machine
end

