-- ==== Sys2Proof/Proofs/Answers.lean ====
section
/-! The commands that answer from the state as it stands: what each leaves, and what its answer holds. -/

namespace Sys2Proof.Machine

open Sys2Proof

/-! ### A step -/

/-- Every command ends in a next state with the waiting commands as they were. -/
theorem exec_next (c : Instr) (s : State) : ∃ t, exec c s = .next t ∧ t.pending = s.pending := by
  cases c
  case restart =>
    show ∃ t, execRestart s = .next t ∧ t.pending = s.pending
    unfold execRestart
    split
    · exact ⟨_, rfl, rfl⟩
    · exact ⟨_, rfl, rfl⟩
  all_goals exact ⟨_, rfl, rfl⟩

/-- Settles O1: `step` unfolds to the front command, and no command's meaning touches the queue of waiting commands. -/
theorem stepRunsFrontCommand : Obligations.StepRunsFrontCommand :=
  ⟨⟨fun _ _ _ => rfl, fun _ => rfl⟩, exec_next⟩

/-- Settles O10: a second that passes brings the clock to the next whole second, which lies after it. -/
theorem uptimeSecondCounts : Obligations.UptimeSecondCounts := by
  intro s
  refine ⟨_, rfl, rfl, fun below => if_pos below, ?_, ?_⟩
  · have := Nat.div_add_mod s.dev.clock Config.sec
    have := Nat.mod_lt s.dev.clock (show 0 < Config.sec by decide)
    show s.dev.clock < (s.dev.clock / Config.sec + 1) * Config.sec
    rw [Nat.add_mul, Nat.one_mul, Nat.mul_comm]
    omega
  · intro p hp
    cases p <;> first | exact absurd (Piece.mem_of rfl) hp | simp [Piece.same, Dev.uptimeSecond, Dev.seg]

/-! ### Counter groups -/

theorem EventUnit.group_isSome {e : EventUnit} {n : Nat} : (e.group n).isSome = true ↔ n ≤ 5 := by
  match n with
  | 0 | 1 | 2 | 3 | 4 | 5 => simp [EventUnit.group]
  | n + 6 => simp [EventUnit.group]

theorem EventUnit.group_setGroup {e : EventUnit} {n : Nat} (h : n ≤ 5) (cs : List Counter) :
    (e.setGroup n cs).group n = some cs := by
  match n with
  | 0 | 1 | 2 | 3 | 4 | 5 => rfl
  | n + 6 => omega

theorem EventUnit.group_setGroup_other {e : EventUnit} {n m : Nat} (h : m ≠ n) (cs : List Counter) :
    (e.setGroup n cs).group m = e.group m := by
  match n, m with
  | 0, 0 | 1, 1 | 2, 2 | 3, 3 | 4, 4 | 5, 5 => exact absurd rfl h
  | 0, 1 | 0, 2 | 0, 3 | 0, 4 | 0, 5 | 1, 0 | 1, 2 | 1, 3 | 1, 4 | 1, 5 | 2, 0 | 2, 1 | 2, 3 | 2, 4 | 2, 5
  | 3, 0 | 3, 1 | 3, 2 | 3, 4 | 3, 5 | 4, 0 | 4, 1 | 4, 2 | 4, 3 | 4, 5 | 5, 0 | 5, 1 | 5, 2 | 5, 3 | 5, 4 => rfl
  | n + 6, _ => rfl
  | 0, m + 6 | 1, m + 6 | 2, m + 6 | 3, m + 6 | 4, m + 6 | 5, m + 6 => rfl

theorem EventUnit.setGroup_events (e : EventUnit) (n : Nat) (cs : List Counter) :
    (e.setGroup n cs).events = e.events ∧ (e.setGroup n cs).lost = e.lost ∧ (e.setGroup n cs).holdoff = e.holdoff ∧
      (e.setGroup n cs).heldBack = e.heldBack ∧ (e.setGroup n cs).noticeNumber = e.noticeNumber := by
  unfold EventUnit.setGroup
  split <;> exact ⟨rfl, rfl, rfl, rfl, rfl⟩

/-- A command given alone that clears the counters of a group. -/
theorem touches_clearGroup (d : Dev) (n : Nat) (cs : List Counter) (r : OpResult) :
    Touches [.segCounters, .upCounters, .spoolCounters, .answer] d
      ((d.modEv fun e => e.setGroup n cs).modAgent fun a => { a with answer := some r }) := by
  have events := d.ev.setGroup_events n cs
  intro p hp
  cases p <;> first | exact absurd (Piece.mem_of rfl) hp | simp [Piece.same, Dev.seg, Dev.modEv, Dev.modAgent, events]

/-- Settles O19: the operations on a group go by whether its number names one. -/
theorem eventsAndCountersAreRead : Obligations.EventsAndCountersAreRead := by
  refine ⟨fun s => rfl, fun b s => ⟨fun cs hcs => ?_, fun above => ?_⟩⟩
  · have named : b.toNat ≤ 5 := EventUnit.group_isSome.mp (by rw [hcs]; rfl)
    have read : s.dev.countersRead b = (s.dev, .ok, byte cs.length :: (cs.map fun c => be 2 c.value).flatten) := by
      rw [Dev.countersRead, hcs]
    have clear : s.dev.countersClear b =
        (s.dev.modEv fun e => e.setGroup b.toNat (Counter.zeros cs.length), .ok) := by
      rw [Dev.countersClear, hcs]
    refine ⟨?_, ?_⟩
    · show answer s 0x1D#8 (s.dev.countersRead b) = _
      rw [read]
      rfl
    · show ∃ t, answer s 0x1E#8 (bare (s.dev.countersClear b)) = .next t ∧ _
      rw [clear]
      refine ⟨_, rfl, rfl, EventUnit.group_setGroup named _, fun m hm => EventUnit.group_setGroup_other hm _, rfl, ?_⟩
      exact touches_clearGroup s.dev b.toNat _ _
  · have unnamed : s.dev.ev.group b.toNat = none := by
      have := mt (EventUnit.group_isSome (e := s.dev.ev) (n := b.toNat)).mp (by omega)
      simpa using this
    refine ⟨?_, ?_⟩
    · show answer s 0x1D#8 (s.dev.countersRead b) = _
      rw [Dev.countersRead, unnamed]
      rfl
    · show answer s 0x1E#8 (bare (s.dev.countersClear b)) = _
      rw [Dev.countersClear, unnamed]
      rfl

/-! ### The store -/

theorem Dev.raise_agent (d : Dev) (k : EventKind) (s : Subject) : (d.raise k s).agent = d.agent := by
  obtain ⟨hq, hr⟩ := touches_raise d k s .requests (by decide)
  obtain ⟨hs, hl, hi⟩ := touches_raise d k s .store (by decide)
  obtain ⟨hn, ha⟩ := touches_raise d k s .identity (by decide)
  have hw := touches_raise d k s .answer (by decide)
  cases h : (d.raise k s).agent
  cases h' : d.agent
  simp_all [Piece.same]

theorem Dev.storeComplete_of_saving {d : Dev} {m : StoredImage} (saving : d.agent.saving = some m) (ok : Bool) :
    d.storeComplete ok = (d.modAgent fun a =>
      { a with saving := none, lastStore := if ok then .done else .failed,
               image := if ok then .stored m true else .broken }).raise
        (if ok then .storeDone else .storeFailed) .none := by
  rw [Dev.storeComplete, saving]

/-- Settles O60: the store is begun only where none is in progress, and its end decides the image area. -/
theorem configurationIsStored : Obligations.ConfigurationIsStored := by
  intro s
  refine ⟨fun idle => ?_, fun m saving => ⟨?_, fun ok dt => ?_⟩, rfl⟩
  · show answer s 0x1F#8 (bare s.dev.configSave) = _
    rw [Dev.configSave, idle]
    rfl
  · show answer s 0x1F#8 (bare s.dev.configSave) = _
    rw [Dev.configSave, saving]
    rfl
  · refine ⟨_, rfl, rfl, ?_⟩
    have stored := Dev.storeComplete_of_saving (d := s.dev.elapse dt) saving ok
    have kept := touches_raise ((s.dev.elapse dt).modAgent fun a =>
      { a with saving := none, lastStore := if ok then .done else .failed,
               image := if ok then .stored m true else .broken }) (if ok then .storeDone else .storeFailed) .none
    simp only [stored, Dev.raise_agent]
    refine ⟨(kept .clock (by decide)).symm, rfl, rfl, rfl, fun failed => ?_, fun room => ?_, ?_⟩
    · rw [Dev.modAgent_agent, failed]
      rfl
    · exact Dev.raise_joins (d := (s.dev.elapse dt).modAgent _) room _ _
    · have marked : Touches [.store] (s.dev.elapse dt) ((s.dev.elapse dt).modAgent fun a =>
          { a with saving := none, lastStore := if ok then .done else .failed,
                   image := if ok then .stored m true else .broken }) := by
        intro p hp
        cases p <;> first | exact absurd (Piece.mem_of rfl) hp | simp [Piece.same]
      exact Touches.then (touches_elapse s.dev dt) (Touches.then (n := .store :: Piece.raised) marked kept)

end Sys2Proof.Machine
end

