-- ==== Sys2Proof/Proofs/TableReads.lean ====
section
/-! READ (R196): the order of the JOB table, and what an index of each table answers. -/

namespace Sys2Proof.Machine

open Sys2Proof

-- one proof after another: proofs that wait for each other take a thread each
set_option Elab.async false

/-! ### Sorting -/

section Sorting

variable {α : Type}

theorem insertBy_perm (lt : α → α → Bool) (a : α) (l : List α) : (insertBy lt a l).Perm (a :: l) := by
  induction l with
  | nil => exact .refl _
  | cons b l ih =>
    rw [insertBy]
    split
    · exact .refl _
    · exact (ih.cons b).trans (.swap a b l)

/-- A sorted list stays sorted when an entry is inserted by a strict key order. -/
theorem insertBy_sorted (key : α → Nat) (a : α) {l : List α} (h : l.Pairwise fun a b => key a ≤ key b) :
    (insertBy (fun a b => decide (key a < key b)) a l).Pairwise fun a b => key a ≤ key b := by
  induction l with
  | nil => exact List.pairwise_singleton _ _
  | cons b l ih =>
    obtain ⟨hb, hl⟩ := List.pairwise_cons.mp h
    rw [insertBy]
    split
    · rename_i lt
      have lt : key a < key b := of_decide_eq_true lt
      refine List.pairwise_cons.mpr ⟨fun c hc => ?_, h⟩
      rcases List.mem_cons.mp hc with rfl | hc
      · exact lt.le
      · exact lt.le.trans (hb c hc)
    · rename_i le
      have le : key b ≤ key a := by simpa using le
      refine List.pairwise_cons.mpr ⟨fun c hc => ?_, ih hl⟩
      rcases List.mem_cons.mp ((insertBy_perm _ a l).subset hc) with rfl | hc
      · exact le
      · exact hb c hc

theorem foldl_insertBy_perm (lt : α → α → Bool) (l : List α) :
    ∀ acc : List α, (l.foldl (fun acc a => insertBy lt a acc) acc).Perm (l ++ acc) := by
  induction l with
  | nil => intro acc; exact .refl _
  | cons a l ih =>
    intro acc
    exact (ih _).trans (((insertBy_perm lt a acc).append_left l).trans List.perm_middle)

theorem sortBy_perm (lt : α → α → Bool) (l : List α) : (sortBy lt l).Perm l := by
  unfold sortBy
  simpa using foldl_insertBy_perm lt l []

theorem sortBy_sorted (key : α → Nat) (l : List α) :
    (sortBy (fun a b => decide (key a < key b)) l).Pairwise fun a b => key a ≤ key b := by
  have sorted : ∀ (l acc : List α), (acc.Pairwise fun a b => key a ≤ key b) →
      (l.foldl (fun acc a => insertBy (fun a b => decide (key a < key b)) a acc) acc).Pairwise
        fun a b => key a ≤ key b := by
    intro l
    induction l with
    | nil => intro acc h; exact h
    | cons a l ih => intro acc h; exact ih _ (insertBy_sorted key a h)
  exact sorted l [] .nil

end Sorting

/-! ### The tables -/

section Reads

variable {d : Dev} {table index : Byte} {t : Table}

theorem readOp_unknown (h : Table.ofCode table = none) : d.readOp table index = (d, .unknownTable, []) := by
  rw [Dev.readOp, h]

theorem readOp_range (h : Table.ofCode table = some t) (past : t.indices ≤ index.toNat) :
    d.readOp table index = (d, .range, []) := by
  simp only [Dev.readOp, h, past, if_true]

theorem readOp_entry (h : Table.ofCode table = some t) (index_lt : index.toNat < t.indices) :
    (∀ vs, d.entryValues t index.toNat = some vs → d.readOp table index = (d, .ok, fieldList 1 vs)) ∧
    (d.entryValues t index.toNat = none → d.readOp table index = (d, .noEntry, [])) := by
  have within : ¬ t.indices ≤ index.toNat := by omega
  constructor
  · intro vs hvs
    simp only [Dev.readOp, h, within, if_false, hvs]
  · intro hnone
    simp only [Dev.readOp, h, within, if_false, hnone]

/-- The READ of an index whose entry, if there is one, is that of a lookup. -/
theorem reads_lookup {α : Type} {s : State} {x : Option α} {values : α → List (List Byte)}
    (h : Table.ofCode table = some t) (index_lt : index.toNat < t.indices)
    (entry : s.dev.entryValues t index.toNat = x.map values) :
    (∀ a, x = some a → exec (.read table index) s = .next (s.withAnswer 0x01#8 .ok (fieldList 1 (values a)))) ∧
    (x = none → exec (.read table index) s = .next (s.withAnswer 0x01#8 .noEntry [])) := by
  obtain ⟨found, missing⟩ := readOp_entry (d := s.dev) h index_lt
  constructor
  · rintro a rfl
    exact congrArg (answer s 0x01#8) (found _ entry)
  · rintro rfl
    exact congrArg (answer s 0x01#8) (missing entry)

theorem segOf_lt {n : Nat} {g : Seg} (h : segOf n = some g) : n < 4 := by
  match n with
  | 0 | 1 | 2 | 3 => omega
  | n + 4 => exact absurd h (by simp [segOf])

theorem ofCode_none (h : table.toNat = 0 ∨ 9 < table.toNat) : Table.ofCode table = none := by
  unfold Table.ofCode
  split <;> first | rfl | omega

end Reads

/-- Settles O52: each table's READ is that of its lookup. -/
theorem readAnswersTheEntry : Obligations.ReadAnswersTheEntry := by
  intro table index s
  refine ⟨fun unknown => ?_, fun t known past => ?_, ?_, ?_, ?_, ?_, ?_, ?_, sortBy_perm _ _, sortBy_sorted Job.id _,
    ?_, ?_, ?_⟩
  · exact congrArg (answer s 0x01#8) (readOp_unknown (ofCode_none unknown))
  · exact congrArg (answer s 0x01#8) (readOp_range known past)
  · rintro rfl
    exact reads_lookup (t := .station) rfl index.isLt rfl
  · rintro rfl g hg
    exact (reads_lookup (t := .segment) (x := some g) rfl (segOf_lt hg) (by rw [Dev.entryValues, hg])).1 g rfl
  · rintro rfl within
    exact reads_lookup (t := .aliases) rfl within rfl
  · rintro rfl within
    exact reads_lookup (t := .printer) rfl within rfl
  · rintro rfl rfl
    rfl
  · rintro rfl within
    exact reads_lookup (t := .job) rfl within rfl
  · rintro rfl within
    exact reads_lookup (t := .finished) rfl within rfl
  · rintro rfl g hg
    exact reads_lookup (t := .record) rfl (segOf_lt hg) (by rw [Dev.entryValues, hg]; rfl)
  · rintro rfl g hg
    exact reads_lookup (t := .probe) rfl (segOf_lt hg) (by rw [Dev.entryValues, hg]; rfl)

end Sys2Proof.Machine
end

