-- ==== Sys2Proof/Proofs/Reset.lean ====
section
/-! The invariants at reset (log entry 4): the part after a cold start whose flash holds nothing. -/

namespace Sys2Proof.Machine

open Sys2Proof

-- one proof after another: proofs that wait for each other take a thread each
set_option Elab.async false

theorem Dev.reset_seg (g : Seg) : Dev.reset.seg g = Segment.started .defaults := by cases g <;> rfl

theorem Dev.reset_printer (i : Nat) : Dev.reset.printer i = none := by
  show (List.replicate 8 (none : Option Printer)).getD i none = none
  simp only [List.getD_eq_getElem?_getD, List.getElem?_replicate]
  split <;> rfl

theorem reset_eventsOk : EventsOk Dev.reset := by
  refine ⟨?_, ?_⟩ <;> decide

theorem reset_poolOk : PoolOk Dev.reset := by
  refine ⟨rfl, rfl, rfl, fun g => ?_⟩
  rw [Dev.reset_seg]
  exact ⟨List.nodup_nil, fun f hf => absurd hf List.not_mem_nil⟩

theorem reset_enableOk : EnableOk Dev.reset := by
  intro g
  rw [Dev.reset_seg]
  exact ⟨fun h => absurd h Bool.false_ne_true, fun h => absurd h Bool.false_ne_true⟩

theorem reset_settingsOk : SettingsOk Dev.reset := by
  refine ⟨by decide, by decide, fun g => ?_⟩
  rw [Dev.reset_seg]
  cases g <;> decide

theorem reset_listsOk : ListsOk Dev.reset := by
  refine ⟨rfl, fun g => ?_, ?_, ?_, ?_⟩
  · rw [Dev.reset_seg]
    refine ⟨?_, ?_, fun r hr => ?_, ?_⟩
    all_goals first | decide | exact absurd hr (by simp [Segment.started, Monitor.fresh])
  all_goals decide

theorem reset_jobsOk : JobsOk Dev.reset := by
  refine ⟨by decide, .nil, .nil, by decide, by decide, fun j hj => absurd hj List.not_mem_nil, fun i p hp => ?_, .nil⟩
  rw [Dev.reset_printer] at hp
  exact absurd hp (by simp)

theorem reset_printersOk : PrintersOk Dev.reset := by
  refine ⟨fun i p hp => ?_, fun i k p q hp => ?_, fun e he => absurd he List.not_mem_nil⟩ <;>
  · rw [Dev.reset_printer] at hp
    exact absurd hp (by simp)

/-- Settles O2: the tables, queues and the job table are empty and each setting is at its default. -/
theorem resetMeetsTheInvariants : Obligations.ResetMeetsTheInvariants :=
  ⟨reset_eventsOk, ⟨.nil, by decide, .nil, fun e he => absurd he List.not_mem_nil⟩, ⟨.nil, by decide⟩, reset_poolOk,
    ⟨fun _ => ⟨rfl, rfl, rfl, rfl, rfl⟩, fun h => absurd h Bool.false_ne_true, fun h => absurd h Bool.false_ne_true⟩,
    reset_enableOk, reset_settingsOk, reset_listsOk, ⟨fun g => by cases g <;> decide, by decide, by decide⟩,
    Nat.zero_le _, ⟨fun h => absurd h Bool.false_ne_true, fun _ => by decide⟩,
    ⟨fun e he => absurd he List.not_mem_nil, fun a ha => absurd ha List.not_mem_nil, .nil⟩, reset_jobsOk,
    reset_printersOk⟩

end Sys2Proof.Machine
end

