-- ==== Sys2Proof/Proofs/PayloadBlocks.lean ====
section
/-! How a payload is cut into blocks (R85). -/

namespace Sys2Proof.Machine

open Sys2Proof

-- one proof after another: proofs that wait for each other take a thread each
set_option Elab.async false

theorem length_cutBlocks : ∀ (fuel : Nat) (bs : List Byte), bs.length ≤ fuel →
    (cutBlocks fuel bs).length = (bs.length + 255) / 256
  | _, [], _ => by simp [cutBlocks]
  | fuel + 1, b :: bs, h => by
    have rest := length_cutBlocks fuel ((b :: bs).drop 256) (by
      simp only [List.length_drop, List.length_cons] at *
      omega)
    rw [cutBlocks, List.length_cons, rest, List.length_drop, List.length_cons]
    omega

theorem flatten_cutBlocks : ∀ (fuel : Nat) (bs : List Byte), bs.length ≤ fuel → (cutBlocks fuel bs).flatten = bs
  | _, [], _ => by simp [cutBlocks]
  | fuel + 1, b :: bs, h => by
    have rest := flatten_cutBlocks fuel ((b :: bs).drop 256) (by
      simp only [List.length_drop, List.length_cons] at *
      omega)
    rw [cutBlocks, List.flatten_cons, rest, List.take_append_drop]

theorem mem_cutBlocks : ∀ (fuel : Nat) (bs : List Byte), ∀ x ∈ cutBlocks fuel bs, 1 ≤ x.length ∧ x.length ≤ 256
  | _, [] => by simp [cutBlocks]
  | 0, _ :: _ => by simp [cutBlocks]
  | fuel + 1, b :: bs => by
    intro x hx
    rcases List.mem_cons.mp hx with rfl | hx
    · simp only [List.length_take, List.length_cons]
      omega
    · exact mem_cutBlocks fuel _ x hx

/-- A spool unit takes as many blocks as it asks for (R85). -/
theorem length_spoolBlocks (bs : List Byte) : (spoolBlocks bs).length = spoolNeed bs.length :=
  length_cutBlocks _ bs (Nat.le_refl _)

/-- A transit frame takes as many blocks as it asks for (R85). -/
theorem length_transitBlocks (bs : List Byte) : (transitBlocks bs).length = transitNeed bs.length := by
  cases bs with
  | nil => rfl
  | cons b bs =>
    refine (length_cutBlocks _ (b :: bs) (Nat.le_refl _)).trans ?_
    rw [transitNeed, List.length_cons]
    omega

theorem flatten_transitBlocks (bs : List Byte) : (transitBlocks bs).flatten = bs := by
  cases bs with
  | nil => rfl
  | cons b bs => exact flatten_cutBlocks _ (b :: bs) (Nat.le_refl _)

/-- Settles O45: the cut takes 256 bytes for a block as long as bytes are left. -/
theorem payloadsAreCutIntoBlocks : Obligations.PayloadsAreCutIntoBlocks := fun bs _ _ _ _ _ _ _ =>
  ⟨length_transitBlocks bs, length_spoolBlocks bs, mem_cutBlocks _ bs, flatten_cutBlocks _ bs (Nat.le_refl _),
    flatten_transitBlocks bs, rfl, rfl, rfl⟩

end Sys2Proof.Machine
end

