-- ==== Sys2Proof/Proofs/PollPlan.lean ====
section
/-! The poll plan (R31, R32): the visits of one station, sub-round by sub-round and pass by pass. -/

namespace Sys2Proof.Machine

open Sys2Proof

/-- In a list with keys of their own, the entries of a key that meet a condition are one or none. -/
theorem countP_key {α : Type} (key : α → Nat) (p : α → Bool) {a : α} {l : List α} (nodup : (l.map key).Nodup)
    (ha : a ∈ l) : l.countP (fun b => key b == key a && p b) = if p a then 1 else 0 := by
  induction l with
  | nil => exact absurd ha List.not_mem_nil
  | cons b l ih =>
    rw [List.map_cons, List.nodup_cons] at nodup
    rcases List.mem_cons.mp ha with rfl | ha
    · have rest : l.countP (fun b => key b == key a && p b) = 0 := List.countP_eq_zero.mpr fun c hc hpc => by
        simp only [Bool.and_eq_true, beq_iff_eq] at hpc
        exact nodup.1 (List.mem_map.mpr ⟨c, hc, hpc.1⟩)
      rw [List.countP_cons, rest]
      simp
    · have hne : key b ≠ key a := fun h => nodup.1 (List.mem_map.mpr ⟨a, ha, h.symm⟩)
      rw [List.countP_cons, ih nodup.2 ha]
      simp [hne]

section Plan

variable {es : List Station} {e : Station} {cycle : Nat}

/-- A pass visits a station at most once, and does so as long as visits of the sub-round are left (R31). -/
theorem countP_passVisits (nodup : (es.map (·.eid)).Nodup) (he : e ∈ es) (i j : Nat) (q : Nat → Nat → Bool) :
    (passVisits es cycle i j).countP (fun v => v.eid == e.eid && q v.subRound v.pass) =
      if j < stationVisits e cycle i ∧ q i j = true then 1 else 0 := by
  have one := countP_key (·.eid) (fun e => decide (j < stationVisits e cycle i) && q i j) nodup he
  simp only [Bool.and_eq_true, decide_eq_true_eq] at one
  rw [passVisits, List.countP_map, List.countP_filter, ← one]
  refine List.countP_congr fun x _ => ?_
  simp only [Function.comp_apply, Bool.and_eq_true, decide_eq_true_eq]
  tauto

/-- The visits of a station in the whole plan. -/
theorem countP_planOf (nodup : (es.map (·.eid)).Nodup) (he : e ∈ es) (q : Nat → Nat → Bool) :
    (planOf es cycle).countP (fun v => v.eid == e.eid && q v.subRound v.pass) =
      ((List.range 4).map fun i => ((List.range 4).map fun j =>
        if j < stationVisits e cycle i ∧ q i j = true then 1 else 0).sum).sum := by
  simp only [planOf, List.countP_flatMap, Function.comp_def, countP_passVisits nodup he]

/-- A PRESENT TERMINAL is visited by its weight (R31). -/
theorem stationVisits_of_present (present : e.state = .present) (terminal : e.role = .terminal) (i : Nat) :
    stationVisits e cycle i = e.weight / 4 + if i < e.weight % 4 then 1 else 0 := by
  simp [stationVisits, present, visitsIn, planWeight, terminal]

/-- The plan goes through the sub-rounds and their passes in ascending order. -/
theorem planOf_ordered (es : List Station) (cycle : Nat) : ((planOf es cycle).map fun v => (v.subRound, v.pass)).Pairwise
    fun a b => a.1 < b.1 ∨ a.1 = b.1 ∧ a.2 ≤ b.2 := by
  have place : ∀ i j, ∀ v ∈ passVisits es cycle i j, v.subRound = i ∧ v.pass = j := by
    intro i j v hv
    obtain ⟨x, -, rfl⟩ := List.mem_map.mp hv
    exact ⟨rfl, rfl⟩
  have ascending : (List.range 4).Pairwise (· < ·) := List.pairwise_lt_range
  rw [List.pairwise_map, planOf, List.pairwise_flatMap]
  refine ⟨fun i _ => List.pairwise_flatMap.mpr ⟨fun j _ => ?_, ascending.imp fun {j k} hjk v hv u hu => ?_⟩,
    ascending.imp fun {i k} hik v hv u hu => ?_⟩
  · refine (List.pairwise_of_forall_mem_list fun v hv u hu => ?_)
    rw [(place i j v hv).1, (place i j v hv).2, (place i j u hu).1, (place i j u hu).2]
    exact .inr ⟨rfl, Nat.le_refl _⟩
  · rw [(place i j v hv).1, (place i j v hv).2, (place i k u hu).1, (place i k u hu).2]
    exact .inr ⟨rfl, hjk.le⟩
  · obtain ⟨j, -, hv⟩ := List.mem_flatMap.mp hv
    obtain ⟨l, -, hu⟩ := List.mem_flatMap.mp hu
    rw [(place i j v hv).1, (place k l u hu).1]
    exact .inl hik

end Plan

/-- As many of four passes are below a count of visits as the count says. -/
theorem sum_passes (v : Nat) : ((List.range 4).map fun j => if j < v then 1 else 0).sum = min v 4 := by
  simp only [List.range_succ, List.range_zero, List.nil_append, List.map_append, List.map_cons, List.map_nil,
    List.sum_append, List.sum_cons, List.sum_nil]
  split_ifs <;> omega

/-- A sum of which one place alone counts, and counts at most 1. -/
theorem sum_le_one {f : Nat → Nat} {i : Nat} {l : List Nat} (nodup : l.Nodup) (one : f i ≤ 1)
    (others : ∀ k, k ≠ i → f k = 0) : (l.map f).sum ≤ 1 := by
  induction l with
  | nil => exact Nat.zero_le _
  | cons k l ih =>
    obtain ⟨hk, hl⟩ := List.nodup_cons.mp nodup
    rw [List.map_cons, List.sum_cons]
    by_cases hki : k = i
    · subst hki
      have rest : (l.map f).sum = 0 := List.sum_eq_zero fun x hx => by
        obtain ⟨m, hm, rfl⟩ := List.mem_map.mp hx
        exact others m fun hmk => hk (hmk ▸ hm)
      omega
    · rw [others k hki, Nat.zero_add]
      exact ih hl

/-- Settles O31: the visits of a station are counted over the sixteen passes. -/
theorem planVisitsEachStationByWeight : Obligations.PlanVisitsEachStationByWeight := by
  intro es e cycle he nodup present terminal light
  have visits := stationVisits_of_present (cycle := cycle) present terminal
  refine ⟨?_, fun i hi => ?_, fun i j => ?_, planOf_ordered es cycle⟩
  · have total := countP_planOf (cycle := cycle) nodup he fun _ _ => true
    simp only [Bool.and_true, and_true, sum_passes, visits] at total
    rw [← List.countP_eq_length_filter, total]
    simp only [List.range_succ, List.range_zero, List.nil_append, List.map_append, List.map_cons, List.map_nil,
      List.sum_append, List.sum_cons, List.sum_nil]
    split_ifs <;> omega
  · have inSub := countP_planOf (cycle := cycle) nodup he fun k _ => k == i
    have others : ∀ k ∈ List.range 4, ((List.range 4).map fun j =>
        if j < stationVisits e cycle k ∧ (k == i) = true then 1 else 0).sum =
          if k = i then min (stationVisits e cycle i) 4 else 0 := by
      intro k _
      by_cases hki : k = i
      · simp [hki, sum_passes]
      · simp [hki]
    rw [← List.countP_eq_length_filter, inSub, List.map_congr_left others, visits]
    have : i = 0 ∨ i = 1 ∨ i = 2 ∨ i = 3 := by omega
    rcases this with rfl | rfl | rfl | rfl <;> simp [List.range_succ] <;> split_ifs <;> omega
  · have inPass := countP_planOf (cycle := cycle) nodup he fun k l => k == i && l == j
    simp only [Bool.and_assoc]
    rw [← List.countP_eq_length_filter, inPass]
    refine sum_le_one (i := i) List.nodup_range ?_ fun k hk => ?_
    · refine sum_le_one (i := j) List.nodup_range ?_ fun l hl => ?_
      · split_ifs <;> omega
      · simp [hl]
    · simp [hk]

end Sys2Proof.Machine
end

