-- ==== Sys2Proof/Proofs/Laws.lean ====
section
/-! The invariants as one family of laws. An operation under way may break a law for a while (a frame has left its queue
and its blocks are not yet free): `Slack` says how far, and a law is stated for a slack. `Sound` gathers the laws that a
proof asks for; each operation of the model is then shown once to keep a part sound. -/

namespace Sys2Proof.Machine

open Sys2Proof

-- one proof after another: proofs that wait for each other take a thread each
set_option Elab.async false

/-- The laws: the invariants, with those apart that other laws rest on. -/
inductive Law where
  | events | counters
  | stations | aliases | numbers | rules
  | pool | fids | quota | pause
  | uplink | enable
  | settings | lists | places | jobs | printers
  deriving DecidableEq, Repr

/-- What an operation under way still owes. -/
structure Slack where
  /-- transit blocks counted beyond those of the queued frames -/
  transit : Int
  /-- spool blocks counted beyond those of the jobs' chains -/
  spool : Int
  /-- segments whose transmit enable is still to be settled -/
  unsettled : List Seg
  /-- the frame in transmission has left the uplink queue -/
  headGone : Bool
  /-- the pause state is still to be tested -/
  pauseStale : Bool
  /-- numbers whose conflict check is still to be made -/
  unchecked : List (Seg × Nat)

/-- The slack with other counts of blocks owed. -/
def Slack.owing (w : Slack) (t s : Int) : Slack := { w with transit := t, spool := s }

/-- Nothing owed. -/
def Slack.none : Slack := ⟨0, 0, [], false, false, []⟩

/-- The block account of R83 with what is owed. -/
def PoolAccount (w : Slack) (d : Dev) : Prop :=
  d.pool.free + d.pool.transit + d.pool.spool = Config.poolBlocks ∧
  (d.pool.transit : Int) =
    ((allSegs.map fun g => downBlocks (d.seg g).downq).sum + upBlocks d.up.queue : Nat) + w.transit ∧
  (d.pool.spool : Int) = (jobBlocks d.spool.jobs : Nat) + w.spool

/-- The frames' names of the model: different on a queue, and below the next one. -/
def FidsOk (d : Dev) : Prop :=
  ∀ g, ((d.seg g).downq.map (·.fid)).Nodup ∧ ∀ f ∈ (d.seg g).downq, f.fid < d.nextFid

/-- `UplinkOk`, where the frame in transmission may have left the queue. -/
def UplinkSlack (w : Slack) (u : Uplink) : Prop :=
  (u.link = false → u.queue = [] ∧ u.txBusy = false ∧ u.hold = none ∧ u.repeatTimer = none ∧ u.pauseDue = []) ∧
  (u.txBusy = true → u.leaving = false → w.headGone = true ∨ u.queue ≠ []) ∧ (u.leaving = true → u.txBusy = true)

/-- `EnableOk` of one segment, where it may still be unsettled. -/
def EnableSlack (w : Slack) (g : Seg) (s : Segment) : Prop :=
  (s.mon.state.mediumUsing = true → s.txEnable = true) ∧
  (s.txEnable = true → s.mon.state.mediumUsing = true ∨ s.exchangeInFlight = true ∨ s.probePulse = true ∨
    g ∈ w.unsettled)

/-- The station numbers of R40. -/
def NumbersOk (d : Dev) : Prop := ∀ e ∈ d.stations, 1 ≤ e.number ∧ e.number ≤ 254

/-- What R65 asks of one ALIAS entry. -/
def AliasFit (w : Slack) (d : Dev) (a : AliasEntry) : Prop :=
  1 ≤ a.number ∧ a.number ≤ 254 ∧ targetOk d.set.base a.seg a.target = true ∧
  (a.kind = .dynamic → a.state = .active) ∧
  (a.state = .active → (a.seg, a.number) ∈ w.unchecked ∨ d.station a.seg a.number = none)

/-- Two aliases of a target that R65 does not allow on one segment. -/
def AliasClash (a b : AliasEntry) : Prop :=
  a.seg = b.seg ∧ a.target = b.target ∧ (a.kind = .static ∧ b.kind = .static ∨ a.state = .active ∧ b.state = .active)

/-- What R116 and R129 ask of a Line Monitor's lists. -/
def MonitorLists (m : Monitor) : Prop :=
  m.recent.length ≤ Config.recentMax ∧ ∀ r ∈ m.record, r.recent.length ≤ Config.recentMax

/-- The capacities of `ListsOk`, the printer places apart. -/
def CapacityOk (d : Dev) : Prop :=
  (∀ g, (d.seg g).downq.length ≤ Config.downQueueMax ∧ MonitorLists (d.seg g).mon ∧
    (d.seg g).disc.pendingDup.length ≤ Config.pendingDupMax) ∧
  d.up.queue.length ≤ Config.uplinkQueueMax ∧ d.agent.queue.length ≤ Config.requestMax ∧
  d.spool.finished.length ≤ Config.finishedMax

/-- What a job record is to the other records and to the printers; the printers of `hs` have been given a job and not yet a
feed state for it. -/
def JobFit (hs : List Nat) (d : Dev) (j : Job) : Prop :=
  1 ≤ j.id ∧ j.id ≤ 255 ∧ j.serial < d.spool.nextSerial ∧ (j.state = .queued → j.isOpen = false) ∧
  ∃ p, d.printer j.printer = some p ∧ (j.state = .active →
    j.printer ∈ hs ∨ p.feed ≠ .idle ∧ p.feed ≠ .disabled ∧ p.awaitingRole = false)

/-- Two job records that R155 does not allow beside one another. -/
def JobClash (a b : Job) : Prop :=
  a.printer = b.printer ∧ (a.state = .active ∧ b.state = .active ∨
    a.source = b.source ∧ a.isOpen = true ∧ b.isOpen = true)

/-- `JobsOk`, where printers may still be handed their jobs. -/
def JobTableOk (hs : List Nat) (d : Dev) : Prop :=
  d.spool.jobs.length ≤ Config.jobMax ∧ (d.spool.jobs.map (·.id)).Nodup ∧ (d.spool.jobs.map (·.serial)).Nodup ∧
  (1 ≤ d.spool.nextId ∧ d.spool.nextId ≤ 255) ∧ (∀ j ∈ d.spool.jobs, JobFit hs d j) ∧
  (∀ i p, d.printer i = some p → p.awaitingRole = true → p.feed = .lost) ∧
  d.spool.jobs.Pairwise fun a b => ¬ JobClash a b

/-- The numbers of a printer entry lie in their ranges (R145). -/
def PrinterRanges (p : Printer) : Prop :=
  clamp 1 8 p.jobLimit = p.jobLimit ∧ clamp 10 3600 p.holdTime = p.holdTime ∧
  clamp 50 5000 p.busyRetry = p.busyRetry ∧ clamp 1 15 p.lostLimit = p.lostLimit

/-- The numbers of a station entry lie in their ranges (R40). -/
def StationRanges (e : Station) : Prop := e.weight ≤ 15 ∧ ∀ m, e.tap = some m → m ≤ 2047

/-- What a law says of a part, given what is owed. -/
def Law.Holds (w : Slack) (d : Dev) : Law → Prop
  | .events => EventsOk d
  | .counters => CountersOk d
  | .stations => StationsOk d
  | .aliases => AliasesOk d
  | .numbers => NumbersOk d
  | .rules => (∀ a ∈ d.aliases, AliasFit w d a) ∧ d.aliases.Pairwise fun a b => ¬ AliasClash a b
  | .pool => PoolAccount w d
  | .fids => FidsOk d
  | .quota => QuotaOk d
  | .pause => w.pauseStale = true ∨ PauseOk d
  | .uplink => UplinkSlack w d.up
  | .enable => ∀ g, EnableSlack w g (d.seg g)
  | .settings => SettingsOk d
  | .lists => CapacityOk d
  | .places => d.spool.printers.length = Config.printerMax
  | .jobs => JobTableOk [] d
  | .printers => PrintersOk d

/-- The pieces of the state that a law reads. -/
def Law.reads : Law → List Piece
  | .events => [.events]
  | .counters => [.segCounters, .upCounters, .spoolCounters]
  | .stations => [.stations, .names]
  | .aliases => [.aliases]
  | .numbers => [.stations]
  | .rules => [.stations, .aliases, .settings]
  | .pool => [.pool, .downq, .upQueue, .jobs]
  | .fids => [.downq, .names]
  | .quota => [.pool, .settings]
  | .pause => [.pool, .settings, .pauseState]
  | .uplink => [.link, .hold, .upQueue, .transmit, .pauseState]
  | .enable => [.mon, .txEnable, .sched, .probe]
  | .settings => [.settings, .cfg]
  | .lists => [.downq, .mon, .disc, .upQueue, .requests, .finished]
  | .places => [.printers]
  | .jobs => [.jobs, .jobNames, .printers]
  | .printers => [.printers, .stations]

/-- A law reads nothing but its pieces. -/
theorem Law.holds_congr {w : Slack} {d e : Dev} (k : Law) (same : ∀ p ∈ k.reads, p.same d e) (h : k.Holds w d) :
    k.Holds w e := by
  cases k <;>
    simp only [Law.reads, List.mem_cons, List.not_mem_nil, or_false, forall_eq_or_imp, forall_eq, Piece.same] at same <;>
    simp only [Law.Holds] at h ⊢
  case events => simpa only [EventsOk, same.1] using h
  case counters => simpa only [CountersOk, same] using h
  case stations => simpa only [StationsOk, same] using h
  case aliases => simpa only [AliasesOk, same] using h
  case numbers => simpa only [NumbersOk, same] using h
  case rules => simpa only [AliasFit, Dev.station, same] using h
  case pool => simpa only [PoolAccount, same] using h
  case fids => simpa only [FidsOk, same] using h
  case quota => simpa only [QuotaOk, same] using h
  case pause => simpa only [PauseOk, same] using h
  case uplink => simpa only [UplinkSlack, same] using h
  case enable => simpa only [EnableSlack, Segment.exchangeInFlight, Segment.probePulse, same] using h
  case settings => simpa only [SettingsOk, same] using h
  case lists => simpa only [CapacityOk, MonitorLists, same] using h
  case places => simpa only [same] using h
  case jobs => simpa only [JobTableOk, JobFit, Dev.printer, same] using h
  case printers => simpa only [PrintersOk, Dev.printer, Dev.station, same] using h

/-- A set of laws holds those that its laws rest on. -/
structure Closed (G : Law → Prop) : Prop where
  rules : G .rules → G .stations ∧ G .aliases ∧ G .numbers ∧ G .settings
  pause : G .pause → G .settings
  lists : G .lists → G .settings
  pool : G .pool → G .fids
  jobs : G .jobs → G .places
  printers : G .printers → G .places ∧ G .stations

/-- A part that keeps a closed set of laws, but for what is owed; no more blocks are shown by their owners than are
counted. -/
structure Sound (G : Law → Prop) (w : Slack) (d : Dev) : Prop where
  closed : Closed G
  owed : G .pool → 0 ≤ w.transit ∧ 0 ≤ w.spool
  holds : ∀ k, G k → k.Holds w d

section Update

variable {G : Law → Prop} {w v : Slack} {d e : Dev} {l : List Piece}

/-- An operation that touches some pieces needs to be shown only the laws that read them. -/
theorem Sound.update (h : Sound G w d) (t : Touches l d e)
    (step : ∀ k, G k → (k.reads.any fun p => l.contains p) = true → k.Holds w e) : Sound G w e where
  closed := h.closed
  owed := h.owed
  holds k hk := by
    by_cases hr : (k.reads.any fun p => l.contains p) = true
    · exact step k hk hr
    · refine k.holds_congr (fun p hp => t p fun hl => hr ?_) (h.holds k hk)
      exact List.any_eq_true.mpr ⟨p, hp, by simpa using hl⟩

/-- An operation that touches only pieces that no law reads. -/
theorem Sound.quiet (h : Sound G w d) (t : Touches l d e)
    (unread : ∀ k : Law, (k.reads.any fun p => l.contains p) = false := by intro k; cases k <;> rfl) : Sound G w e :=
  h.update t fun k _ hr => absurd hr (by rw [unread k]; exact Bool.false_ne_true)

/-- The same, where the laws that see the difference of two slacks are among those that read the pieces. -/
theorem Sound.updateTo (h : Sound G w d) (t : Touches l d e)
    (owed : G .pool → 0 ≤ v.transit ∧ 0 ≤ v.spool)
    (same : ∀ k : Law, (k.reads.any fun p => l.contains p) = false → k.Holds w e → k.Holds v e)
    (step : ∀ k, G k → (k.reads.any fun p => l.contains p) = true → k.Holds v e) : Sound G v e where
  closed := h.closed
  owed := owed
  holds k hk := by
    cases hr : (k.reads.any fun p => l.contains p)
    · refine same k hr (k.holds_congr (fun p hp => t p fun hl => ?_) (h.holds k hk))
      exact Bool.false_ne_true (hr.symm.trans (List.any_eq_true.mpr ⟨p, hp, by simpa using hl⟩))
    · exact step k hk hr

/-- Another slack, where the laws that see the difference hold. -/
theorem Sound.reslack (h : Sound G w d) (step : ∀ k, G k → k.Holds w d → k.Holds v d)
    (owed : G .pool → 0 ≤ v.transit ∧ 0 ≤ v.spool := by exact h.owed) : Sound G v d where
  closed := h.closed
  owed := owed
  holds k hk := step k hk (h.holds k hk)

/-- What is owed is read by the block account alone. -/
theorem Sound.repay {t s : Int} (h : Sound G (w.owing t s) d) (paid : G .pool → t = w.transit ∧ s = w.spool) :
    Sound G w d :=
  h.reslack (fun k hk hold => by
    cases k
    case pool =>
      obtain ⟨ht, hs⟩ := paid hk
      obtain ⟨total, transit, spool⟩ := hold
      exact ⟨total, transit.trans (by rw [← ht]; rfl), spool.trans (by rw [← hs]; rfl)⟩
    all_goals exact hold) fun hk => by
      obtain ⟨ht, hs⟩ := paid hk
      rw [← ht, ← hs]
      exact h.owed hk

end Update

end Sys2Proof.Machine
end

