-- ==== Sys2Proof/Proofs/KeptByEvents.lean ====
section
/-! The laws are kept by the Event Unit's operations, by what joins the uplink queue, and by the pause state's test. -/

namespace Sys2Proof.Machine

open Sys2Proof

-- one proof after another: proofs that wait for each other take a thread each
set_option Elab.async false

/-! ### Lists changed at one place -/

section Lists

variable {α β : Type} {p : α → Bool} {f : α → α}

/-- What a change of one entry keeps of each entry, it keeps of the list. -/
theorem map_modifyFirst (key : α → β) (same : ∀ a, p a = true → key (f a) = key a) (l : List α) :
    (modifyFirst p f l).map key = l.map key := by
  induction l with
  | nil => rfl
  | cons a l ih =>
    cases h : p a
    · simp [modifyFirst, h, ih]
    · simp [modifyFirst, h, same a h]

@[simp] theorem length_modifyFirst (l : List α) : (modifyFirst p f l).length = l.length := by
  simpa using congrArg List.length (map_modifyFirst (p := p) (f := f) (fun _ => ()) (fun _ _ => rfl) l)

theorem mem_modifyFirst {a : α} {l : List α} (h : a ∈ modifyFirst p f l) :
    a ∈ l ∨ ∃ b ∈ l, p b = true ∧ a = f b := by
  induction l with
  | nil => exact .inl h
  | cons b l ih =>
    cases hb : p b
    · simp only [modifyFirst, hb, Bool.false_eq_true, if_false, List.mem_cons] at h
      rcases h with rfl | h
      · exact .inl List.mem_cons_self
      · rcases ih h with h | ⟨c, hc, hp⟩
        · exact .inl (List.mem_cons_of_mem _ h)
        · exact .inr ⟨c, List.mem_cons_of_mem _ hc, hp⟩
    · simp only [modifyFirst, hb, if_true, List.mem_cons] at h
      rcases h with rfl | h
      · exact .inr ⟨b, List.mem_cons_self, hb, rfl⟩
      · exact .inl (List.mem_cons_of_mem _ h)

theorem removeFirst_sublist (l : List α) : (removeFirst p l).Sublist l := by
  rw [removeFirst_eq_eraseP]; exact List.eraseP_sublist

theorem mem_of_mem_removeFirst {a : α} {l : List α} (h : a ∈ removeFirst p l) : a ∈ l :=
  (removeFirst_sublist l).subset h

end Lists

section Keep

variable {G : Law → Prop} {w : Slack} {d : Dev}

/-! ### The event list and the counters -/

theorem recordEvent_ok {l : List Event} (now : Nat) (k : EventKind) (s : Subject) (len : l.length ≤ Config.eventMax)
    (nodup : (l.map fun e => (e.kind, e.subject)).Nodup) :
    (recordEvent l now k s).1.length ≤ Config.eventMax ∧
      ((recordEvent l now k s).1.map fun e => (e.kind, e.subject)).Nodup := by
  have joins : ∀ m : List Event, m.Sublist l → ¬ (l.any fun e => e.kind == k && e.subject == s) = true →
      ((m ++ ([⟨k, s, now, 0, true⟩] : List Event)).map fun e => (e.kind, e.subject)).Nodup := by
    intro m hm new
    rw [List.map_append, List.nodup_append]
    refine ⟨nodup.sublist (hm.map _), by simp, ?_⟩
    rintro x hx y hy rfl
    simp only [List.map_cons, List.map_nil, List.mem_singleton] at hy
    obtain ⟨e, he, rfl⟩ := List.mem_map.mp hx
    obtain ⟨hk, hs⟩ := Prod.mk.inj hy
    exact new (List.any_eq_true.mpr ⟨e, hm.subset he, by simp [hk, hs]⟩)
  unfold recordEvent
  dsimp only
  split
  · refine ⟨by rwa [length_modifyFirst], ?_⟩
    rwa [map_modifyFirst (fun e : Event => (e.kind, e.subject)) (by intro _ _; rfl)]
  · rename_i new
    split
    · refine ⟨?_, joins l (.refl _) new⟩
      rw [List.length_append, List.length_singleton]
      omega
    · split
      · refine ⟨?_, joins _ (removeFirst_sublist l) new⟩
        have nonempty : l ≠ [] := by rintro rfl; simp [Config.eventMax] at *
        obtain ⟨before, after, out, hl, -, -, hr⟩ := removeFirst_lowestSeverity nonempty
        rw [hr, List.length_append, List.length_singleton]
        rw [hl] at len
        simp only [List.length_append, List.length_cons] at len ⊢
        omega
      · exact ⟨len, nodup⟩

/-- A change of the Event Unit that keeps its two laws. -/
theorem Sound.modEv (h : Sound G w d) (f : EventUnit → EventUnit) (he : EventsOk d → EventsOk (d.modEv f))
    (hc : CountersOk d → CountersOk (d.modEv f)) : Sound G w (d.modEv f) := by
  refine h.update (l := [.events, .segCounters, .upCounters, .spoolCounters]) ?_ ?_
  · intro p hp; cases p <;> first | exact absurd (Piece.mem_of rfl) hp | simp [Piece.same]
  · intro k hk hr
    cases k <;> try exact absurd hr (by decide)
    case events => exact he (h.holds _ hk)
    case counters => exact hc (h.holds _ hk)

theorem Sound.retimeHoldoff (h : Sound G w d) : Sound G w d.retimeHoldoff := h.modEv _ id id

theorem Sound.recordEvent (h : Sound G w d) (k : EventKind) (s : Subject) : Sound G w (d.recordEvent k s).1 := by
  unfold Dev.recordEvent
  dsimp only
  split
  · exact h.modEv (fun e => { e with lost := sat255 e.lost }) id id
  · exact (h.modEv (fun e => { e with events := (Machine.recordEvent d.ev.events d.uptime k s).1 })
      (fun he => recordEvent_ok d.uptime k s he.1 he.2) id).retimeHoldoff

theorem bump_counters (e : EventUnit) (c : CounterId) :
    (∀ g, ((e.bump c).segCounters.get g).length = (e.segCounters.get g).length) ∧
      (e.bump c).upCounters.length = e.upCounters.length ∧ (e.bump c).spoolCounters.length = e.spoolCounters.length ∧
      (e.bump c).events = e.events := by
  cases c with
  | seg g c => cases g <;> refine ⟨fun h => ?_, rfl, rfl, rfl⟩ <;> cases h <;>
      simp [EventUnit.bump, CounterId.group, segNat, EventUnit.group, EventUnit.setGroup, Four.get]
  | uplink c => simp [EventUnit.bump, CounterId.group, EventUnit.group, EventUnit.setGroup]
  | spool c => simp [EventUnit.bump, CounterId.group, EventUnit.group, EventUnit.setGroup]

theorem Sound.bump (h : Sound G w d) (c : CounterId) : Sound G w (d.modEv fun e => e.bump c) := by
  obtain ⟨hs, hu, hp, he⟩ := bump_counters d.ev c
  exact h.modEv _ (by simp only [EventsOk, Dev.modEv_ev, he, imp_self])
    (by simp only [CountersOk, Dev.modEv_ev, hs, hu, hp, imp_self])

theorem Sound.countQuietly (h : Sound G w d) (c : CounterId) : Sound G w (d.countQuietly c) := by
  unfold Dev.countQuietly
  dsimp only
  split
  · exact (h.bump c).recordEvent _ _
  · exact h.bump c

/-! ### The uplink -/

/-- A change of the Uplink MAC that keeps the laws which read it; the slack takes up the blocks of the queue. -/
theorem Sound.modUp (h : Sound G w d) (f : Uplink → Uplink)
    (hq : G .lists → (f d.up).queue.length ≤ d.up.queue.length ∨ (f d.up).queue.length ≤ Config.uplinkQueueMax)
    (hb : upBlocks (f d.up).queue = upBlocks d.up.queue) (hp : (f d.up).pauseOn = d.up.pauseOn)
    (hu : UplinkSlack w d.up → UplinkSlack w (f d.up)) : Sound G w (d.modUp f) := by
  refine h.update (l := [.link, .hold, .upQueue, .transmit, .pauseState]) ?_ ?_
  · intro p hp; cases p <;> first | exact absurd (Piece.mem_of rfl) hp | simp [Piece.same]
  · intro k hk hr
    cases k <;> try exact absurd hr (by decide)
    case pool =>
      have hold := h.holds _ hk
      simpa only [Law.Holds, PoolAccount, Dev.modUp_up, Dev.modUp_pool, Dev.modUp_seg, Dev.modUp_spool, hb] using hold
    case pause =>
      have hold := h.holds _ hk
      simpa only [Law.Holds, PauseOk, Dev.modUp_up, Dev.modUp_pool, Dev.modUp_set, hp] using hold
    case uplink => exact hu (h.holds _ hk)
    case lists =>
      obtain ⟨hs, hl, hrest⟩ := h.holds _ hk
      exact ⟨hs, by rcases hq hk with hq | hq <;> simp only [Dev.modUp_up] <;> omega, hrest⟩

theorem Sound.startTx (h : Sound G w d) : Sound G w d.startTx := by
  unfold Dev.startTx
  split
  · rename_i f fs hqueue
    split
    · rename_i hc
      simp only [Bool.and_eq_true] at hc
      refine h.modUp _ (fun _ => .inl (Nat.le_refl _)) rfl rfl fun ⟨hdown, hbusy, hleaving⟩ => ⟨fun hl => ?_, fun _ _ => ?_, fun _ => rfl⟩
      · exact absurd (hc.1.1.symm.trans hl) (by decide)
      · exact .inr (by simp [hqueue])
    · exact h
  · exact h

/-- A frame without blocks joins a queue with room on an UP link. -/
theorem Sound.placeUp (h : Sound G w d) (f : UpFrame) (none : f.blocks = []) (link : d.up.link = true)
    (room : d.up.queue.length < Config.uplinkQueueMax) : Sound G w (d.placeUp f) := by
  refine Sound.startTx (h.modUp _ (fun _ => .inr ?_) ?_ rfl fun ⟨hdown, hbusy, hleaving⟩ => ⟨fun hl => ?_, fun _ _ => ?_, hleaving⟩)
  · simpa using room
  · simp [upBlocks, none]
  · simp [link] at hl
  · exact .inr (by simp)

/-- What `uplinkRoom` tests. -/
theorem uplinkRoom_iff : d.uplinkRoom = true ↔ d.up.link = true ∧ d.up.queue.length < Config.uplinkQueueMax := by
  simp [Dev.uplinkRoom]

/-! ### Notices and reports -/

theorem Sound.offerNotice (h : Sound G w d) : Sound G w d.offerNotice := by
  unfold Dev.offerNotice
  split
  · rename_i room
    obtain ⟨link, len⟩ := uplinkRoom_iff.mp room
    refine (h.placeUp _ rfl link len).modEv _ (fun he => ?_) id
    simpa [EventsOk, Function.comp_def] using he
  · exact (h.countQuietly _).modEv _ id id

theorem Sound.noticeTest (h : Sound G w d) : Sound G w d.noticeTest := by
  unfold Dev.noticeTest
  split
  · exact h.modEv _ id id
  · split
    · exact h.offerNotice
    · exact h

theorem Sound.raise (h : Sound G w d) (k : EventKind) (s : Subject) : Sound G w (d.raise k s) := by
  unfold Dev.raise
  dsimp only
  split
  · exact (h.recordEvent k s).noticeTest
  · exact h.recordEvent k s

theorem Sound.count (h : Sound G w d) (c : CounterId) : Sound G w (d.count c) := by
  unfold Dev.count
  dsimp only
  split
  · exact (h.bump c).raise _ _
  · exact h.bump c

theorem Sound.countSeg (h : Sound G w d) (g : Seg) (c : SegCounter) : Sound G w (d.countSeg g c) := h.count _
theorem Sound.dropSeg (h : Sound G w d) (g : Seg) (c : SegDrop) : Sound G w (d.dropSeg g c) := h.count _
theorem Sound.countUp (h : Sound G w d) (c : UpCounter) : Sound G w (d.countUp c) := h.count _
theorem Sound.dropUp (h : Sound G w d) (c : UpDrop) : Sound G w (d.dropUp c) := h.count _
theorem Sound.countSpool (h : Sound G w d) (c : SpoolCounter) : Sound G w (d.countSpool c) := h.count _

theorem Sound.offerUp (h : Sound G w d) (f : UpFrame) (none : f.blocks = []) : Sound G w (d.offerUp f) := by
  unfold Dev.offerUp
  split
  · rename_i room
    obtain ⟨link, len⟩ := uplinkRoom_iff.mp room
    exact h.placeUp f none link len
  · exact h.dropUp _

/-! ### Pause frames and the pause state -/

theorem Sound.emitPause (h : Sound G w d) (k : PauseKind) : Sound G w (d.emitPause k) :=
  Sound.countUp (h.modUp _ (fun _ => .inl (Nat.le_refl _)) rfl rfl id) _

theorem Sound.sendPause (h : Sound G w d) (k : PauseKind) : Sound G w (d.sendPause k) := by
  unfold Dev.sendPause
  split
  · exact h
  · rename_i link
    split
    · exact h.modUp _ (fun _ => .inl (Nat.le_refl _)) rfl rfl fun ⟨hdown, hrest⟩ => ⟨fun hl => absurd hl (by simpa using link), hrest⟩
    · exact h.emitPause k

theorem Sound.startRepeat (h : Sound G w d) : Sound G w d.startRepeat := by
  refine h.modUp _ (fun _ => .inl (Nat.le_refl _)) rfl rfl fun ⟨hdown, hrest⟩ => ⟨fun hl => ?_, hrest⟩
  obtain ⟨hq, hb, hh, hr, hp⟩ := hdown hl
  have hl : d.up.link = false := hl
  exact ⟨hq, hb, hh, by simp [hl], hp⟩

/-- The pause state may be left to be tested. -/
theorem Sound.forgetPause (h : Sound G w d) : Sound G { w with pauseStale := true } d :=
  h.reslack fun k _ hold => by
    cases k
    case pause => exact .inl rfl
    all_goals exact hold

/-- The pause state is as its test left it. -/
theorem Sound.pauseTested (h : Sound G { w with pauseStale := true } d) (ok : G .pause → PauseOk d) : Sound G w d :=
  h.reslack fun k hk hold => by
    cases k
    case pause => exact .inr (ok hk)
    all_goals exact hold

theorem pauseLevels_lt (h : SettingsOk d) : d.set.pauseOn < d.set.pauseOff := by
  have hs := h.2.1
  simp only [Settings.sound, Bool.and_eq_true, decide_eq_true_eq] at hs
  obtain ⟨⟨⟨⟨-, hlt⟩, -⟩, -⟩, -⟩ := hs
  exact hlt

/-- A flip of the pause state, its levels and the free count being as it says. -/
theorem Sound.flipPause (h : Sound G { w with pauseStale := true } d) (f : Uplink → Uplink)
    (hq : (f d.up).queue = d.up.queue) (hu : UplinkSlack w d.up → UplinkSlack w (f d.up))
    (ok : G .pause → PauseOk (d.modUp f)) : Sound G w (d.modUp f) := by
  refine Sound.pauseTested (h.update (l := [.link, .hold, .upQueue, .transmit, .pauseState]) ?_ ?_) ok
  · intro p hp; cases p <;> first | exact absurd (Piece.mem_of rfl) hp | simp [Piece.same]
  · intro k hk hr
    cases k <;> try exact absurd hr (by decide)
    case pool =>
      have hold := h.holds _ hk
      simpa only [Law.Holds, PoolAccount, Dev.modUp_up, Dev.modUp_pool, Dev.modUp_seg, Dev.modUp_spool, hq] using hold
    case pause => exact .inl rfl
    case uplink => exact hu (h.holds _ hk)
    case lists =>
      have hold := h.holds _ hk
      simpa only [Law.Holds, CapacityOk, Dev.modUp_up, Dev.modUp_seg, Dev.modUp_spool, Dev.modUp_agent, hq] using hold

theorem Sound.pauseTest (h : Sound G { w with pauseStale := true } d) : Sound G w d.pauseTest := by
  have levels : G .pause → d.set.pauseOn < d.set.pauseOff := fun hp =>
    pauseLevels_lt (h.holds .settings (h.closed.pause hp))
  unfold Dev.pauseTest
  split
  · rename_i low
    simp only [Bool.and_eq_true, decide_eq_true_eq] at low
    refine (((h.flipPause _ rfl id fun hp => ⟨fun _ => ?_, fun off => ?_⟩).sendPause .ask).startRepeat).raise _ _
    · have := levels hp
      simp only [Dev.modUp_pool, Dev.modUp_set]
      omega
    · simp at off
  · rename_i notLow
    split
    · rename_i high
      simp only [Bool.and_eq_true, decide_eq_true_eq] at high
      refine (h.flipPause _ rfl (fun ⟨hdown, hrest⟩ => ⟨fun hl => ?_, hrest⟩) fun hp => ⟨fun on => ?_, fun _ => ?_⟩).sendPause .release
      · obtain ⟨hq, hb, hh, hr, hpd⟩ := hdown hl
        exact ⟨hq, hb, hh, rfl, hpd⟩
      · simp at on
      · have := levels hp
        simp only [Dev.modUp_pool, Dev.modUp_set]
        omega
    · rename_i notHigh
      refine h.pauseTested fun _ => ⟨fun on => ?_, fun off => ?_⟩
      · simpa [on] using notHigh
      · simpa [off] using notLow

/-! ### The block counts -/

/-- Blocks change hands: the account stays whole, and what the owners do not yet show is owed. -/
theorem Sound.movePool (h : Sound G w d) (q : Pool) (t s : Int)
    (whole : G .pool → q.free + q.transit + q.spool = d.pool.free + d.pool.transit + d.pool.spool ∧
      t = w.transit + (q.transit - d.pool.transit) ∧ s = w.spool + (q.spool - d.pool.spool) ∧ 0 ≤ t ∧ 0 ≤ s)
    (quota : G .quota → q.spool ≤ d.pool.spool ∨ q.spool ≤ d.set.spoolQuota) :
    Sound G { w.owing t s with pauseStale := true } { d with pool := q } := by
  refine h.updateTo (touches_pool d q) (fun hk => ?_) (fun k hr hold => ?_) fun k hk hr => ?_
  · obtain ⟨-, -, -, ht, hs⟩ := whole hk
    exact ⟨ht, hs⟩
  · cases k <;> first | exact absurd hr (by decide) | exact hold
  · cases k <;> try exact absurd hr (by decide)
    case pool =>
      obtain ⟨total, transit, spool⟩ := h.holds .pool hk
      obtain ⟨sum, ht, hs, -⟩ := whole hk
      refine ⟨sum.trans total, ?_, ?_⟩
      · simp only [Slack.owing, Dev.seg, ht] at transit ⊢
        omega
      · simp only [Slack.owing, hs]
        omega
    case quota =>
      have hold : d.pool.spool ≤ d.set.spoolQuota := h.holds _ hk
      rcases quota hk with hq | hq
      · exact hq.trans hold
      · exact hq
    case pause => exact .inl rfl

theorem Sound.takeTransit (h : Sound G w d) (n : Nat) (enough : n ≤ d.pool.free) :
    Sound G (w.owing (w.transit + n) w.spool) (d.takeTransit n) :=
  Sound.pauseTest <| h.movePool ⟨d.pool.free - n, d.pool.transit + n, d.pool.spool⟩ _ _
    (fun hk => by have := h.owed hk; simp only; omega) fun _ => .inl (Nat.le_refl _)

/-- What `spoolOk` tests. -/
theorem spoolOk_iff (n : Nat) : d.spoolOk n = true ↔
    n = 0 ∨ d.pool.spool + n ≤ d.set.spoolQuota ∧ d.set.transitReserve + n ≤ d.pool.free := by
  simp [Dev.spoolOk]

theorem Sound.takeSpool (h : Sound G w d) (n : Nat) (ok : d.spoolOk n = true) :
    Sound G (w.owing w.transit (w.spool + n)) (d.takeSpool n) := by
  unfold Dev.takeSpool
  split
  · rename_i hz
    simpa [hz, Slack.owing] using h
  · rename_i hz
    rcases (spoolOk_iff n).mp ok with hn | ⟨hquota, hfree⟩
    · exact absurd hn hz
    · exact Sound.pauseTest <| h.movePool ⟨d.pool.free - n, d.pool.transit, d.pool.spool + n⟩ _ _
        (fun hk => by have := h.owed hk; simp only; omega) fun _ => .inr hquota

theorem Sound.freeTransit (h : Sound G w d) (n : Nat) (owed : G .pool → (n : Int) ≤ w.transit) :
    Sound G (w.owing (w.transit - n) w.spool) (d.freeTransit n) := by
  unfold Dev.freeTransit
  split
  · rename_i hz
    simpa [hz, Slack.owing] using h
  · refine Sound.pauseTest <| h.movePool ⟨d.pool.free + n, d.pool.transit - n, d.pool.spool⟩ _ _
      (fun hk => ?_) fun _ => .inl (Nat.le_refl _)
    obtain ⟨total, transit, spool⟩ := h.holds .pool hk
    have := owed hk
    have := h.owed hk
    simp only
    omega

theorem Sound.freeSpool (h : Sound G w d) (n : Nat) (owed : G .pool → (n : Int) ≤ w.spool) :
    Sound G (w.owing w.transit (w.spool - n)) (d.freeSpool n) := by
  unfold Dev.freeSpool
  split
  · rename_i hz
    simpa [hz, Slack.owing] using h
  · refine Sound.pauseTest <| h.movePool ⟨d.pool.free + n, d.pool.transit, d.pool.spool - n⟩ _ _
      (fun hk => ?_) fun _ => .inl (Nat.sub_le _ _)
    obtain ⟨total, transit, spool⟩ := h.holds .pool hk
    have := owed hk
    have := h.owed hk
    simp only
    omega

end Keep

end Sys2Proof.Machine
end

