-- ==== Sys2Proof/Proofs/KeptBySpool.lean ====
section
/-! The laws are kept by the Printer Feeder and the Print Spooler: what a change of a printer entry or of a job record must
leave alone, and then selection, the endings of jobs and the taking of units. -/

namespace Sys2Proof.Machine

open Sys2Proof

-- one proof after another: proofs that wait for each other take a thread each
set_option Elab.async false

section Keep

variable {G : Law → Prop} {w : Slack} {d : Dev}

/-! ### Turn Schedulers, lists of the Spooler, the Agent -/

/-- A turn's exchange, or broadcast, is in flight. -/
def turnInFlight : Option Turn → Bool
  | some ⟨_, .exchange _⟩ => true
  | some ⟨_, .broadcast _⟩ => true
  | some ⟨_, .held⟩ => false
  | none => false

theorem Segment.exchangeInFlight_eq (s : Segment) : s.exchangeInFlight = turnInFlight s.sched.turn := by
  unfold Segment.exchangeInFlight turnInFlight
  rcases s.sched.turn with _ | ⟨_, _ | _ | _⟩ <;> rfl

/-- A change of a Turn Scheduler that ends no exchange in flight. -/
theorem Sound.modSched (h : Sound G w d) (g : Seg) (f : Scheduler → Scheduler)
    (inFlight : turnInFlight (d.seg g).sched.turn = true → turnInFlight (f (d.seg g).sched).turn = true) :
    Sound G w (d.modSched g f) := by
  refine h.update (touches_modSched d g f) fun k hk hr => ?_
  cases k <;> try exact absurd hr (by decide)
  case enable =>
    intro s
    have hold : EnableSlack w s (d.seg s) := h.holds _ hk s
    by_cases hs : s = g
    · subst hs
      rw [Dev.modSched_seg]
      refine ⟨hold.1, fun on => ?_⟩
      rcases hold.2 on with hm | hx | hp
      · exact .inl hm
      · rw [Segment.exchangeInFlight_eq] at hx
        exact .inr (.inl ((Segment.exchangeInFlight_eq _).trans (inFlight hx)))
      · exact .inr (.inr hp)
    · rwa [Dev.modSched, Dev.modSeg_seg_other _ _ _ _ hs]

theorem Sound.endHeldFeed (h : Sound G w d) (g : Seg) (i : Nat) : Sound G w (d.endHeldFeed g i) := by
  refine h.modSched g _ fun hx => ?_
  split
  · rename_i held
    rw [held] at hx
    exact absurd hx Bool.false_ne_true
  · exact hx

/-- A change of the finished list within its capacity. -/
theorem Sound.setFinished (h : Sound G w d) (f : Spooler → List Summary)
    (len : d.spool.finished.length ≤ Config.finishedMax → (f d.spool).length ≤ Config.finishedMax) :
    Sound G w (d.modSpool fun s => { s with finished := f s }) := by
  refine h.update (touches_setFinished d f) fun k hk hr => ?_
  cases k <;> try exact absurd hr (by decide)
  case lists =>
    obtain ⟨hs, hu, ha, hf⟩ := h.holds _ hk
    exact ⟨hs, hu, ha, len hf⟩

theorem length_addSummary_le {l : List Summary} (x : Summary) (h : l.length ≤ Config.finishedMax) :
    (addSummary l x).length ≤ Config.finishedMax := by
  unfold addSummary
  split
  · rw [List.length_append, List.length_singleton]; omega
  · rw [List.length_append, List.length_singleton, List.length_drop]
    simp only [Config.finishedMax] at *
    omega

theorem Sound.setEndings (h : Sound G w d) (f : Spooler → List WaitingEnding) :
    Sound G w (d.modSpool fun s => { s with endings := f s }) := h.quiet (touches_setEndings d f)

/-- A change of the Agent that adds no request to its queue. -/
theorem Sound.modAgent (h : Sound G w d) (f : Agent → Agent)
    (len : (f d.agent).queue.length ≤ d.agent.queue.length ∨ (f d.agent).queue.length ≤ Config.requestMax) :
    Sound G w (d.modAgent f) := by
  refine h.update (l := [.requests, .store, .identity, .answer]) ?_ fun k hk hr => ?_
  · intro p hp; cases p <;> first | exact absurd (Piece.mem_of rfl) hp | simp [Piece.same]
  · cases k <;> try exact absurd hr (by decide)
    case lists =>
      obtain ⟨hs, hu, ha, hf⟩ := h.holds _ hk
      exact ⟨hs, hu, by rcases len with hl | hl <;> simp only [Dev.modAgent_agent] <;> omega, hf⟩

theorem Sound.answerEnding (h : Sound G w d) (a : Asker) (st : Status) : Sound G w (d.answerEnding a st) := by
  unfold Dev.answerEnding
  split
  · exact h
  all_goals exact h.modAgent _ (.inl (Nat.le_refl _))

/-! ### Printer entries -/

theorem Dev.printer_lt {i : Nat} {p : Printer} (h : d.printer i = some p) : i < d.spool.printers.length := by
  by_contra hn
  rw [Dev.printer, List.getD_eq_getElem?_getD, List.getElem?_eq_none (by omega)] at h
  exact absurd h (by simp)

theorem Dev.setPrinter_printer (i k : Nat) (q : Option Printer) :
    (d.setPrinter i q).printer k = if i = k ∧ i < d.spool.printers.length then q else d.printer k := by
  simp only [Dev.printer, Dev.setPrinter, Dev.modSpool_spool, List.getD_eq_getElem?_getD, List.getElem?_set]
  by_cases hik : i = k
  · subst hik
    by_cases hl : i < d.spool.printers.length
    · simp [hl]
    · simp [hl]
  · simp [hik]

theorem Dev.modPrinter_printer (i k : Nat) (f : Printer → Printer) :
    (d.modPrinter i f).printer k = if i = k then (d.printer k).map f else d.printer k := by
  unfold Dev.modPrinter
  split
  · rename_i p hp
    rw [Dev.setPrinter_printer]
    by_cases hik : i = k
    · subst hik
      simp [hp, Dev.printer_lt hp]
    · simp [hik]
  · rename_i hp
    by_cases hik : i = k
    · subst hik; simp [hp]
    · simp [hik]

theorem Dev.modPrinter_length (i : Nat) (f : Printer → Printer) :
    (d.modPrinter i f).spool.printers.length = d.spool.printers.length := by
  unfold Dev.modPrinter
  split
  · simp [Dev.setPrinter]
  · rfl

theorem Dev.modPrinter_spool (i : Nat) (f : Printer → Printer) :
    (d.modPrinter i f).spool.jobs = d.spool.jobs ∧ (d.modPrinter i f).spool.nextId = d.spool.nextId ∧
    (d.modPrinter i f).spool.nextSerial = d.spool.nextSerial := by
  unfold Dev.modPrinter
  split <;> exact ⟨rfl, rfl, rfl⟩

theorem Dev.modPrinter_stations (i : Nat) (f : Printer → Printer) :
    (d.modPrinter i f).stations = d.stations := by
  unfold Dev.modPrinter
  split <;> rfl

/-- A printer entry keeps its station and its numbers in their ranges. -/
def PlaceKept (f : Printer → Printer) : Prop :=
  ∀ p, (f p).seg = p.seg ∧ (f p).number = p.number ∧ (PrinterRanges p → PrinterRanges (f p))

/-- What the job table asks of a change of a printer's feeding: a printer that awaits its station's role stays LOST, and
one with an ACTIVE job does not come to IDLE, DISABLED or the awaiting. -/
def FeedKept (d : Dev) (i : Nat) (f : Printer → Printer) : Prop :=
  ∀ p, d.printer i = some p → ((f p).awaitingRole = true → (f p).feed = .lost) ∧
    ((∃ j ∈ d.spool.jobs, j.printer = i ∧ j.state = .active) →
      (f p).feed ≠ .idle ∧ (f p).feed ≠ .disabled ∧ (f p).awaitingRole = false)

theorem PrintersOk.modPrinter {i : Nat} {f : Printer → Printer} (place : PlaceKept f) (h : PrintersOk d) :
    PrintersOk (d.modPrinter i f) := by
  obtain ⟨entries, distinct, ranges⟩ := h
  have back : ∀ k q, (d.modPrinter i f).printer k = some q → ∃ p, d.printer k = some p ∧ q.seg = p.seg ∧
      q.number = p.number ∧ (PrinterRanges p → PrinterRanges q) := by
    intro k q hq
    rw [Dev.modPrinter_printer] at hq
    split at hq
    · obtain ⟨p, hp, rfl⟩ := Option.map_eq_some_iff.mp hq
      exact ⟨p, hp, place p⟩
    · exact ⟨q, hq, rfl, rfl, id⟩
  refine ⟨fun k q hq => ?_, fun k m q r hq hr same => ?_, ?_⟩
  · obtain ⟨p, hp, hs, hn, hranges⟩ := back k q hq
    obtain ⟨standing, numbers⟩ := entries k p hp
    refine ⟨?_, hranges numbers⟩
    simpa only [Dev.station, Dev.modPrinter_stations, hs, hn] using standing
  · obtain ⟨p, hp, hs, hn, -⟩ := back k q hq
    obtain ⟨p', hp', hs', hn', -⟩ := back m r hr
    exact distinct k m p p' hp hp' (by rw [← hs, ← hn, ← hs', ← hn', same])
  · rwa [Dev.modPrinter_stations]

theorem JobTableOk.modPrinter {hs : List Nat} {i : Nat} {f : Printer → Printer} (feed : FeedKept d i f)
    (h : JobTableOk (i :: hs) d) : JobTableOk hs (d.modPrinter i f) := by
  obtain ⟨len, ids, serials, next, fits, awaiting, clash⟩ := h
  obtain ⟨hjobs, hnext, hserial⟩ := d.modPrinter_spool i f
  simp only [JobTableOk, hjobs, hnext]
  refine ⟨len, ids, serials, next, fun j hj => ?_, fun k q hq haw => ?_, clash⟩
  · obtain ⟨lo, hi, before, closed, p, hp, busy⟩ := fits j hj
    refine ⟨lo, hi, by rwa [hserial], closed, ?_⟩
    rw [Dev.modPrinter_printer]
    split
    · rename_i hi
      subst hi
      refine ⟨f p, by rw [hp]; rfl, fun act => .inr ((feed p hp).2 ⟨j, hj, rfl, act⟩)⟩
    · rename_i hne
      refine ⟨p, hp, fun act => ?_⟩
      rcases busy act with hmem | hfeed
      · rcases List.mem_cons.mp hmem with heq | hmem
        · exact absurd heq.symm hne
        · exact .inl hmem
      · exact .inr hfeed
  · rw [Dev.modPrinter_printer] at hq
    split at hq
    · rename_i hik
      subst hik
      obtain ⟨p, hp, rfl⟩ := Option.map_eq_some_iff.mp hq
      exact (feed p hp).1 haw
    · exact awaiting k q hq haw

/-- A printer may be said to be handed a job. -/
theorem JobTableOk.hand {hs : List Nat} (h : JobTableOk hs d) (i : Nat) : JobTableOk (i :: hs) d := by
  obtain ⟨len, ids, serials, next, fits, rest⟩ := h
  refine ⟨len, ids, serials, next, fun j hj => ?_, rest⟩
  obtain ⟨lo, hi, before, closed, p, hp, busy⟩ := fits j hj
  exact ⟨lo, hi, before, closed, p, hp, fun act => (busy act).imp_left fun hm => List.mem_cons_of_mem _ hm⟩

theorem Sound.modPrinter (h : Sound G w d) {i : Nat} (f : Printer → Printer) (place : PlaceKept f)
    (feed : G .jobs → FeedKept d i f) : Sound G w (d.modPrinter i f) := by
  refine h.update (touches_modPrinter d i f) fun k hk hr => ?_
  cases k <;> try exact absurd hr (by decide)
  case places =>
    have hold := h.holds _ hk
    simpa only [Law.Holds, Dev.modPrinter_length] using hold
  case jobs => exact JobTableOk.modPrinter (feed hk) (JobTableOk.hand (h.holds .jobs hk) i)
  case printers => exact PrintersOk.modPrinter place (h.holds .printers hk)

/-- What the job table says of the printer entry at an id. -/
theorem Sound.feed_of_active (h : Sound G w d) (hk : G .jobs) {j : Job} (hj : j ∈ d.spool.jobs)
    (act : j.state = .active) {p : Printer} (hp : d.printer j.printer = some p) :
    p.feed ≠ .idle ∧ p.feed ≠ .disabled ∧ p.awaitingRole = false := by
  have table : JobTableOk [] d := h.holds .jobs hk
  obtain ⟨-, -, -, -, fits, -⟩ := table
  obtain ⟨-, -, -, -, q, hq, busy⟩ := fits j hj
  rw [hp] at hq
  obtain rfl := Option.some.inj hq
  exact (busy act).resolve_left (by simp)

/-- Only a LOST printer awaits its station's role (R168). -/
theorem Sound.not_awaiting (h : Sound G w d) (hk : G .jobs) {i : Nat} {p : Printer} (hp : d.printer i = some p)
    (hf : p.feed ≠ .lost) : p.awaitingRole = false := by
  have table : JobTableOk [] d := h.holds .jobs hk
  obtain ⟨-, -, -, -, -, awaiting, -⟩ := table
  by_contra haw
  exact hf (awaiting i p hp (by simpa using haw))

/-! ### Job records -/

/-- The sum of a measure over a list changed at its first entry of a kind. -/
theorem sum_modifyFirst {α : Type} {p : α → Bool} {f : α → α} (size : α → Nat) {a : α} {l : List α}
    (h : l.find? p = some a) :
    ((modifyFirst p f l).map size).sum + size a = (l.map size).sum + size (f a) := by
  induction l with
  | nil => exact absurd h (by simp)
  | cons b l ih =>
    cases hb : p b
    · rw [List.find?_cons_of_neg (by simp [hb])] at h
      have := ih h
      simp only [modifyFirst, hb, Bool.false_eq_true, if_false, List.map_cons, List.sum_cons]
      omega
    · rw [List.find?_cons_of_pos (by simp [hb])] at h
      obtain rfl := Option.some.inj h
      simp only [modifyFirst, hb, if_true, List.map_cons, List.sum_cons]
      omega

/-- The sum of a measure over a list that has lost its first entry of a kind. -/
theorem sum_removeFirst {α : Type} {p : α → Bool} (size : α → Nat) {a : α} {l : List α} (h : l.find? p = some a) :
    ((removeFirst p l).map size).sum + size a = (l.map size).sum := by
  induction l with
  | nil => exact absurd h (by simp)
  | cons b l ih =>
    cases hb : p b
    · rw [List.find?_cons_of_neg (by simp [hb])] at h
      have := ih h
      simp only [removeFirst, hb, Bool.false_eq_true, if_false, List.map_cons, List.sum_cons]
      omega
    · rw [List.find?_cons_of_pos (by simp [hb])] at h
      obtain rfl := Option.some.inj h
      simp only [removeFirst, hb, if_true, List.map_cons, List.sum_cons]
      omega

/-- In a list with keys of their own, a change of the first entry of a key is a change of that entry. -/
theorem modifyFirst_eq_map {α β : Type} [DecidableEq β] {p : α → Bool} (key : α → β) (k : β)
    (hp : ∀ a, p a = true ↔ key a = k) (f : α → α) {l : List α} (h : (l.map key).Nodup) :
    modifyFirst p f l = l.map fun a => if key a = k then f a else a := by
  induction l with
  | nil => rfl
  | cons a l ih =>
    rw [List.map_cons, List.nodup_cons] at h
    by_cases ha : key a = k
    · have rest : l.map (fun b => if key b = k then f b else b) = l := by
        conv_rhs => rw [← List.map_id l]
        refine List.map_congr_left fun b hb => if_neg fun hbn => ?_
        exact h.1 (List.mem_map.mpr ⟨b, hb, hbn.trans ha.symm⟩)
      simp [modifyFirst, (hp a).mpr ha, ha, rest]
    · have hpa : p a = false := by
        cases hpa : p a
        · rfl
        · exact absurd ((hp a).mp hpa) ha
      simp [modifyFirst, hpa, ha, ih h.2]

/-- The first entry that meets a condition is found again once it is changed. -/
theorem find?_modifyFirst {α : Type} {p : α → Bool} {f : α → α} {a : α} {l : List α} (h : l.find? p = some a)
    (still : p (f a) = true) : (modifyFirst p f l).find? p = some (f a) := by
  induction l with
  | nil => exact absurd h (by simp)
  | cons b l ih =>
    cases hb : p b
    · rw [List.find?_cons_of_neg (by simp [hb])] at h
      simp only [modifyFirst, hb, Bool.false_eq_true, if_false]
      rw [List.find?_cons_of_neg (by simp [hb])]
      exact ih h
    · rw [List.find?_cons_of_pos (by simp [hb])] at h
      obtain rfl := Option.some.inj h
      simp only [modifyFirst, hb, if_true]
      rw [List.find?_cons_of_pos still]

theorem Dev.jobBySerial_mem {n : Nat} {j : Job} (h : d.jobBySerial n = some j) : j ∈ d.spool.jobs ∧ j.serial = n :=
  ⟨List.mem_of_find?_eq_some h, by simpa using List.find?_some h⟩

theorem jobBlocks_modifyFirst {p : Job → Bool} {f : Job → Job} (chain : ∀ j, (f j).chain.length = j.chain.length)
    (l : List Job) : jobBlocks (modifyFirst p f l) = jobBlocks l := by
  rw [jobBlocks, map_modifyFirst (fun j : Job => j.chain.length) fun j _ => chain j, jobBlocks]

/-- A change of the job records, the blocks that leave the chains being owed. -/
theorem Sound.setJobs (h : Sound G w d) (f : Spooler → List Job) (s : Int)
    (blocks : G .pool → s = w.spool + (jobBlocks d.spool.jobs - jobBlocks (f d.spool)) ∧ 0 ≤ s)
    (table : G .jobs → JobTableOk [] d → JobTableOk [] (d.modSpool fun s => { s with jobs := f s })) :
    Sound G (w.owing w.transit s) (d.modSpool fun s => { s with jobs := f s }) := by
  refine h.updateTo (touches_setJobs d f) (fun hk => ?_) (fun k hr hold => ?_) fun k hk hr => ?_
  · exact ⟨(h.owed hk).1, (blocks hk).2⟩
  · cases k <;> first | exact absurd hr (by decide) | exact hold
  · cases k <;> try exact absurd hr (by decide)
    case pool =>
      obtain ⟨total, transit, spool⟩ := h.holds .pool hk
      obtain ⟨hs, -⟩ := blocks hk
      refine ⟨total, transit, ?_⟩
      simp only [Slack.owing, Dev.modSpool_pool, Dev.modSpool_spool, hs]
      omega
    case jobs => exact table hk (h.holds .jobs hk)

theorem JobClash.symm {a b : Job} (h : JobClash a b) : JobClash b a := by
  obtain ⟨hp, ⟨ha, hb⟩ | ⟨hs, ha, hb⟩⟩ := h
  · exact ⟨hp.symm, .inl ⟨hb, ha⟩⟩
  · exact ⟨hp.symm, .inr ⟨hs.symm, hb, ha⟩⟩

/-- The job table after a change of one record, from what the change does to that record. -/
theorem JobTableOk.modJob {hs ks : List Nat} (n : Nat) (f : Job → Job) (id : ∀ j, (f j).id = j.id)
    (serial : ∀ j, (f j).serial = j.serial) (other : ∀ j, JobFit hs d j → JobFit ks d j)
    (fit : ∀ j ∈ d.spool.jobs, j.serial = n → JobFit hs d j → JobFit ks d (f j))
    (apart : ∀ j ∈ d.spool.jobs, j.serial = n → ∀ b ∈ d.spool.jobs, ¬ JobClash j b → ¬ JobClash (f j) b)
    (h : JobTableOk hs d) : JobTableOk ks (d.modJob n f) := by
  obtain ⟨len, ids, serials, next, fits, awaiting, clash⟩ := h
  have jobs : (d.modJob n f).spool.jobs = d.spool.jobs.map fun j => if j.serial = n then f j else j :=
    modifyFirst_eq_map Job.serial n (fun j => by simp) f serials
  refine ⟨by rw [jobs, List.length_map]; exact len, ?_, ?_, next, fun j hj => ?_, awaiting, ?_⟩
  · rw [jobs, List.map_map]
    refine (List.map_congr_left fun j _ => ?_) ▸ ids
    dsimp only [Function.comp_apply]; split <;> simp [id]
  · rw [jobs, List.map_map]
    refine (List.map_congr_left fun j _ => ?_) ▸ serials
    dsimp only [Function.comp_apply]; split <;> simp [serial]
  · rw [jobs] at hj
    obtain ⟨b, hb, rfl⟩ := List.mem_map.mp hj
    show JobFit ks d _
    split
    · exact fit b hb ‹_› (fits b hb)
    · exact other b (fits b hb)
  · rw [jobs, List.pairwise_map]
    have serialsApart : d.spool.jobs.Pairwise fun a b => a.serial ≠ b.serial := List.pairwise_map.mp serials
    refine (clash.and serialsApart).imp_of_mem fun {a b} ha hb ⟨hab, hne⟩ => ?_
    by_cases hsa : a.serial = n
    · have hsb : b.serial ≠ n := fun hsb => hne (hsa.trans hsb.symm)
      simp only [hsa, hsb, if_true, if_false]
      exact apart a ha hsa b hb hab
    · simp only [hsa, if_false]
      split
      · exact fun hc => apart b hb ‹_› a ha (fun hc => hab hc.symm) hc.symm
      · exact hab

/-- What the job table reads of a record. -/
def Job.key (j : Job) : Nat × Nat × Nat × Source × JobState × Bool :=
  (j.id, j.serial, j.printer, j.source, j.state, j.isOpen)

theorem JobTableOk.modJob_same {hs : List Nat} {n : Nat} {f : Job → Job} (same : ∀ j, (f j).key = j.key)
    (h : JobTableOk hs d) : JobTableOk hs (d.modJob n f) := by
  have keys : ∀ j, (f j).id = j.id ∧ (f j).serial = j.serial ∧ (f j).printer = j.printer ∧ (f j).source = j.source ∧
      (f j).state = j.state ∧ (f j).isOpen = j.isOpen := fun j => by simpa [Job.key] using same j
  refine h.modJob n f (fun j => (keys j).1) (fun j => (keys j).2.1) (fun _ => id) (fun j _ _ hf => ?_)
    fun j _ _ b _ hc => ?_
  · obtain ⟨h1, h2, h3, h4, h5, h6⟩ := keys j
    simpa only [JobFit, h1, h2, h3, h5, h6] using hf
  · obtain ⟨h1, h2, h3, h4, h5, h6⟩ := keys j
    simpa only [JobClash, h3, h4, h5, h6] using hc

/-- A change of a record that the job table does not read, the blocks that leave its chain being owed. -/
theorem Sound.modJob_chain (h : Sound G w d) {n : Nat} {j : Job} (f : Job → Job) (found : d.jobBySerial n = some j)
    (same : ∀ j, (f j).key = j.key) (owed : G .pool → 0 ≤ w.spool + (j.chain.length - (f j).chain.length)) :
    Sound G (w.owing w.transit (w.spool + (j.chain.length - (f j).chain.length))) (d.modJob n f) := by
  refine h.setJobs (fun s => modifyFirst (fun j => j.serial == n) f s.jobs) _ (fun hk => ⟨?_, owed hk⟩)
    fun _ ht => JobTableOk.modJob_same same ht
  have sum := sum_modifyFirst (f := f) (fun j : Job => j.chain.length) found
  simp only [jobBlocks]
  omega

/-- A change of a record that the job table and the block account do not read. -/
theorem Sound.modJob_same (h : Sound G w d) {n : Nat} (f : Job → Job) (same : ∀ j, (f j).key = j.key)
    (chain : ∀ j, (f j).chain.length = j.chain.length) : Sound G w (d.modJob n f) := by
  refine h.setJobs (fun s => modifyFirst (fun j => j.serial == n) f s.jobs) w.spool (fun hk => ⟨?_, (h.owed hk).2⟩)
    fun _ ht => JobTableOk.modJob_same same ht
  rw [jobBlocks_modifyFirst chain]
  omega

theorem Sound.takeStamp (h : Sound G w d) (n : Nat) : Sound G w (d.takeStamp n) := by
  have stamped : Sound G w (d.modJob n fun j => { j with stamp := some d.spool.stampCounter }) :=
    h.modJob_same _ (fun _ => rfl) fun _ => rfl
  refine stamped.update (l := [.jobNames]) ?_ fun k hk hr => ?_
  · intro p hp; cases p <;> first | exact absurd (Piece.mem_of rfl) hp | simp [Piece.same, Dev.takeStamp]
  · cases k <;> try exact absurd hr (by decide)
    case jobs => exact stamped.holds .jobs hk

/-- A job becomes ACTIVE at an IDLE printer, which is handed it. -/
theorem Sound.activeTable (h : Sound G w d) (hk : G .jobs) {n i : Nat} {p : Printer} (hp : d.printer i = some p)
    (idle : p.feed = .idle) (mine : ∀ j ∈ d.spool.jobs, j.serial = n → j.printer = i) :
    JobTableOk [i] (d.modJob n fun j => { j with state := .active }) := by
  have table : JobTableOk [] d := h.holds .jobs hk
  refine table.modJob n _ (fun _ => rfl) (fun _ => rfl) (fun j hf => ?_) (fun j hj hn hf => ?_) fun j hj hn b hb hc => ?_
  · obtain ⟨lo, hi, before, closed, q, hq, busy⟩ := hf
    exact ⟨lo, hi, before, closed, q, hq, fun act => (busy act).imp_left fun hm => List.mem_cons_of_mem _ hm⟩
  · obtain ⟨lo, hi, before, closed, q, hq, busy⟩ := hf
    refine ⟨lo, hi, before, fun hs => absurd hs (by simp), q, hq, fun _ => .inl ?_⟩
    exact mine j hj hn ▸ List.mem_cons_self
  · rintro ⟨same, ⟨-, act⟩ | open'⟩
    · have hb' : b.printer = i := same.symm.trans (mine j hj hn)
      exact (h.feed_of_active hk hb act (hb' ▸ hp)).1 idle
    · exact hc ⟨same, .inr open'⟩

/-- The same with the feed state that the printer enters for the job. -/
theorem Sound.activate (h : Sound G w d) {n i : Nat} {p : Printer} (hp : d.printer i = some p) (idle : p.feed = .idle)
    (mine : G .jobs → ∀ j ∈ d.spool.jobs, j.serial = n → j.printer = i) (f : Printer → Printer) (place : PlaceKept f)
    (feeds : ∀ p, (f p).feed ≠ .idle ∧ (f p).feed ≠ .disabled) (sameRole : ∀ p, (f p).awaitingRole = p.awaitingRole) :
    Sound G w ((d.modJob n fun j => { j with state := .active }).modPrinter i f) := by
  refine h.update (l := [.jobs, .printers]) (Touches.then (touches_modJob d n _) (touches_modPrinter _ i f))
    fun k hk hr => ?_
  cases k <;> try exact absurd hr (by decide)
  case pool =>
    obtain ⟨total, transit, spool⟩ := h.holds .pool hk
    have frame := touches_modPrinter (d.modJob n fun j => { j with state := .active }) i f
    refine Law.holds_congr .pool (fun p hp => frame p ?_) (d := d.modJob n fun j => { j with state := .active })
      ⟨total, transit, ?_⟩
    · cases p <;> first | exact absurd hp (by decide) | decide
    · have same := jobBlocks_modifyFirst (p := fun j => j.serial == n) (f := fun j => { j with state := .active })
        (fun _ => rfl) d.spool.jobs
      exact spool.trans (by rw [← same]; rfl)
  case places => exact (Dev.modPrinter_length _ _).trans (h.holds .places hk)
  case jobs =>
    refine JobTableOk.modPrinter (fun q hq => ?_) (h.activeTable hk hp idle (mine hk))
    have hq : d.printer i = some q := hq
    obtain rfl := Option.some.inj (hp.symm.trans hq)
    have awake := h.not_awaiting hk hp (by simp [idle])
    exact ⟨fun haw => by simp [sameRole, awake] at haw, fun _ => ⟨(feeds p).1, (feeds p).2, (sameRole p).trans awake⟩⟩
  case printers =>
    have hold : PrintersOk d := h.holds .printers hk
    exact PrintersOk.modPrinter place (d := d.modJob n _) hold

end Keep

end Sys2Proof.Machine
end

