-- ==== Sys2Proof/Proofs/KeptByJobs.lean ====
section
/-! The laws are kept by selection, by the endings of jobs and by the taking of units (R149 to R180). -/

namespace Sys2Proof.Machine

open Sys2Proof

-- one proof after another: proofs that wait for each other take a thread each
set_option Elab.async false

section Keep

variable {G : Law → Prop} {w : Slack} {d : Dev}

/-! ### Feed states -/

/-- A change of a printer entry that leaves its station, its numbers and its feed state alone. -/
theorem Sound.modPrinter_same (h : Sound G w d) {i : Nat} (f : Printer → Printer)
    (place : ∀ p, (f p).seg = p.seg ∧ (f p).number = p.number ∧ (f p).feed = p.feed ∧
      (f p).awaitingRole = p.awaitingRole ∧ (PrinterRanges p → PrinterRanges (f p))) : Sound G w (d.modPrinter i f) := by
  refine h.modPrinter f (fun p => ?_) fun hk p hp => ?_
  · obtain ⟨hs, hn, -, -, hr⟩ := place p
    exact ⟨hs, hn, hr⟩
  · obtain ⟨-, -, hf, ha, -⟩ := place p
    have table : JobTableOk [] d := h.holds .jobs hk
    obtain ⟨-, -, -, -, -, awaiting, -⟩ := table
    refine ⟨fun haw => hf.trans (awaiting i p hp (ha ▸ haw)), ?_⟩
    rintro ⟨j, hj, rfl, act⟩
    rw [hf, ha]
    exact h.feed_of_active hk hj act hp

/-- A change of a printer that does not await its role to a feed state in which it may have a job. -/
theorem Sound.busyPrinter (h : Sound G w d) {i : Nat} (f : Printer → Printer) (place : PlaceKept f)
    (feeds : ∀ p, (f p).feed ≠ .idle ∧ (f p).feed ≠ .disabled) (sameRole : ∀ p, (f p).awaitingRole = p.awaitingRole)
    (awake : G .jobs → ∀ p, d.printer i = some p → p.awaitingRole = true → (f p).feed = .lost) :
    Sound G w (d.modPrinter i f) := by
  refine h.modPrinter f place fun hk p hp => ⟨fun haw => awake hk p hp (sameRole p ▸ haw), ?_⟩
  rintro ⟨j, hj, rfl, act⟩
  exact ⟨(feeds p).1, (feeds p).2, (sameRole p).trans (h.feed_of_active hk hj act hp).2.2⟩

/-- A change of a printer without an ACTIVE job, which does not await its role. -/
theorem Sound.freePrinter (h : Sound G w d) {i : Nat} (f : Printer → Printer) (place : PlaceKept f)
    (sameRole : ∀ p, (f p).awaitingRole = p.awaitingRole)
    (awake : G .jobs → ∀ p, d.printer i = some p → p.awaitingRole = false)
    (noActive : G .jobs → ∀ j ∈ d.spool.jobs, j.printer = i → j.state ≠ .active) : Sound G w (d.modPrinter i f) := by
  refine h.modPrinter f place fun hk p hp => ⟨fun haw => ?_, ?_⟩
  · simp [sameRole, awake hk p hp] at haw
  · rintro ⟨j, hj, hi, act⟩
    exact absurd act (noActive hk j hj hi)

theorem Sound.offerItem (h : Sound G w d) (i : Nat) : Sound G w (d.offerItem i) := by
  unfold Dev.offerItem
  split
  · split
    · exact h.modPrinter_same _ (by intro p; exact ⟨rfl, rfl, rfl, rfl, id⟩)
    · exact h
  · exact h

theorem Sound.enterFeeding (h : Sound G w d) (i : Nat)
    (awake : G .jobs → ∀ p, d.printer i = some p → p.awaitingRole = false) : Sound G w (d.enterFeeding i) := by
  refine (h.busyPrinter _ (by intro p; exact ⟨rfl, rfl, id⟩) (by intro p; simp) (by intro p; rfl)
    fun hk p hp haw => ?_).offerItem i
  simp [awake hk p hp] at haw

theorem Sound.makeLost (h : Sound G w d) (i : Nat) : Sound G w (d.makeLost i) := by
  unfold Dev.makeLost
  split
  · split
    · exact h
    · exact ((h.endHeldFeed _ i).busyPrinter _ (by intro p; exact ⟨rfl, rfl, id⟩) (by intro p; simp) (by intro p; rfl)
        (by intro _ _ _ _; rfl)).raise _ _
  · exact h

theorem Sound.makeStalled (h : Sound G w d) (i : Nat)
    (awake : G .jobs → ∀ p, d.printer i = some p → p.awaitingRole = false) : Sound G w (d.makeStalled i) := by
  unfold Dev.makeStalled
  split
  · refine ((h.endHeldFeed _ i).busyPrinter _ (by intro p; exact ⟨rfl, rfl, id⟩) (by intro p; simp) (by intro p; rfl)
      fun hk p hp haw => ?_).raise _ _
    have hp : d.printer i = some p := hp
    simp [awake hk p hp] at haw
  · exact h

/-! ### Selection -/

/-- The entry that a search for the least entry finds stands in the list. -/
theorem mem_of_leastBy {α : Type} {lt : α → α → Bool} {a : α} {l : List α} (h : leastBy lt l = some a) : a ∈ l := by
  induction l generalizing a with
  | nil => exact absurd h (by simp [leastBy])
  | cons b l ih =>
    rw [leastBy] at h
    split at h
    · obtain rfl := Option.some.inj h
      exact List.mem_cons_self
    · rename_i c hc
      split at h
      · obtain rfl := Option.some.inj h
        exact List.mem_cons_of_mem _ (ih hc)
      · obtain rfl := Option.some.inj h
        exact List.mem_cons_self

theorem Dev.chooseJob_mem {i : Nat} {j : Job} (h : d.chooseJob i = some j) : j ∈ d.spool.jobs ∧ j.printer = i := by
  have mine : ∀ {j}, j ∈ (d.spool.jobs.filter fun j => j.printer == i) → j ∈ d.spool.jobs ∧ j.printer = i := by
    intro j hj
    simpa using hj
  unfold Dev.chooseJob at h
  dsimp only at h
  split at h
  · rename_i k hk
    obtain rfl := Option.some.inj h
    exact mine (List.mem_of_mem_filter (mem_of_leastBy hk))
  · split at h
    · rename_i k hk
      obtain rfl := Option.some.inj h
      exact mine (List.mem_of_mem_filter (List.mem_of_find?_eq_some hk))
    · split at h
      · exact mine (List.mem_of_mem_filter (List.mem_of_head? h))
      · exact absurd h (by simp)

/-- The records of a serial, whose serials differ, are one record. -/
theorem Sound.same_serial (h : Sound G w d) (hk : G .jobs) {j b : Job} (hj : j ∈ d.spool.jobs) (hb : b ∈ d.spool.jobs)
    (same : b.serial = j.serial) : b = j := by
  have table : JobTableOk [] d := h.holds .jobs hk
  obtain ⟨-, -, serials, -⟩ := table
  exact List.inj_on_of_nodup_map serials hb hj same

theorem Dev.takeStamp_jobs (n : Nat) : (d.takeStamp n).spool.jobs =
    modifyFirst (fun j => j.serial == n) (fun j => { j with stamp := some d.spool.stampCounter }) d.spool.jobs := rfl

theorem Sound.handOver (h : Sound G w d) {i : Nat} {p : Printer} {j : Job} (hp : d.printer i = some p)
    (idle : p.feed = .idle) (hj : j ∈ d.spool.jobs) (mine : j.printer = i) : Sound G w (d.handOver i j) := by
  unfold Dev.handOver
  have start : Sound G w (if j.state == .filling then d.takeStamp j.serial else d) ∧
      (if j.state == .filling then d.takeStamp j.serial else d).printer i = some p ∧
      (G .jobs → ∀ b ∈ (if j.state == .filling then d.takeStamp j.serial else d).spool.jobs,
        b.serial = j.serial → b.printer = i) := by
    have here : G .jobs → ∀ b ∈ d.spool.jobs, b.serial = j.serial → b.printer = i := fun hk b hb same =>
      (congrArg Job.printer (h.same_serial hk hj hb same)).trans mine
    split
    · refine ⟨h.takeStamp _, hp, fun hk b hb same => ?_⟩
      rw [Dev.takeStamp_jobs] at hb
      rcases mem_modifyFirst hb with hb | ⟨c, hc, -, rfl⟩
      · exact here hk b hb same
      · exact here hk c hc same
    · exact ⟨h, hp, here⟩
  generalize (if j.state == .filling then d.takeStamp j.serial else d) = e at start
  obtain ⟨he, hpe, own⟩ := start
  have hpe' : (e.modJob j.serial fun j => { j with state := .active }).printer i = some p := hpe
  dsimp only
  rw [hpe']
  dsimp only
  split
  · exact (he.activate hpe idle own _ (by intro p; exact ⟨rfl, rfl, id⟩) (by intro p; simp) (by intro p; rfl)).offerItem i
  · unfold Dev.makeLost
    rw [hpe']
    dsimp only
    rw [if_neg (by simp [idle])]
    exact ((he.endHeldFeed p.seg i).activate hpe idle own _ (by intro p; exact ⟨rfl, rfl, id⟩) (by intro p; simp)
      (by intro p; rfl)).raise _ _

theorem Sound.select (h : Sound G w d) (i : Nat) : Sound G w (d.select i) := by
  unfold Dev.select
  split
  · rename_i p hp
    split
    · rename_i idle
      split
      · rename_i j hj
        obtain ⟨hmem, mine⟩ := Dev.chooseJob_mem hj
        exact h.handOver hp (by simpa using idle) hmem mine
      · exact h
    · exact h
  · exact h

/-- A fold of operations each of which keeps the laws. -/
theorem Sound.fold {α : Type} {f : Dev → α → Dev} (step : ∀ d a, Sound G w d → Sound G w (f d a)) :
    ∀ (as : List α) {d : Dev}, Sound G w d → Sound G w (as.foldl f d)
  | [], _, h => h
  | a :: as, d, h => Sound.fold step as (step d a h)

theorem Sound.selectAll (h : Sound G w d) : Sound G w d.selectAll := Sound.fold (fun _ i h => h.select i) _ h

theorem Sound.enterIdle (h : Sound G w d) (i : Nat)
    (awake : G .jobs → ∀ p, d.printer i = some p → p.awaitingRole = false)
    (noActive : G .jobs → ∀ j ∈ d.spool.jobs, j.printer = i → j.state ≠ .active) : Sound G w (d.enterIdle i) :=
  (h.freePrinter _ (by intro p; exact ⟨rfl, rfl, id⟩) (by intro p; rfl) awake noActive).select i

/-! ### The end of a job -/

theorem Dev.endHeldFeed_printer (g : Seg) (i k : Nat) : (d.endHeldFeed g i).printer k = d.printer k := rfl

theorem Sound.activeJobEnded (h : Sound G w d) (i : Nat)
    (awake : G .jobs → ∀ p, d.printer i = some p → p.awaitingRole = false)
    (noActive : G .jobs → ∀ j ∈ d.spool.jobs, j.printer = i → j.state ≠ .active) : Sound G w (d.activeJobEnded i) := by
  unfold Dev.activeJobEnded
  split
  · rename_i p hp
    have settled : Sound G w ((d.endHeldFeed p.seg i).modPrinter i fun p => { p with ready := none, sentMark := none }) :=
      (h.endHeldFeed _ i).modPrinter_same _ (by intro p; exact ⟨rfl, rfl, rfl, rfl, id⟩)
    have awake' : G .jobs → ∀ q, ((d.endHeldFeed p.seg i).modPrinter i fun p =>
        { p with ready := none, sentMark := none }).printer i = some q → q.awaitingRole = false := by
      intro hk q hq
      rw [Dev.modPrinter_printer, if_pos rfl] at hq
      obtain ⟨p, hp, rfl⟩ := Option.map_eq_some_iff.mp hq
      exact awake hk p hp
    have noActive' : G .jobs → ∀ j ∈ ((d.endHeldFeed p.seg i).modPrinter i fun p =>
        { p with ready := none, sentMark := none }).spool.jobs, j.printer = i → j.state ≠ .active := by
      intro hk j hj
      rw [(Dev.modPrinter_spool _ _).1] at hj
      exact noActive hk j hj
    dsimp only
    split
    · exact settled.enterIdle i awake' noActive'
    · exact settled.enterIdle i awake' noActive'
    · split
      · exact settled.freePrinter _ (by intro p; exact ⟨rfl, rfl, id⟩) (by intro p; rfl) awake' noActive'
      · exact settled
    all_goals exact settled
  · exact h

theorem Sound.dropJob (h : Sound G w d) {n : Nat} {j : Job} (found : d.jobBySerial n = some j) :
    Sound G (w.owing w.transit (w.spool + j.chain.length))
      (d.modSpool fun s => { s with jobs := removeFirst (fun x => x.serial == n) s.jobs }) := by
  refine h.setJobs (fun s => removeFirst (fun x => x.serial == n) s.jobs) _ (fun hk => ?_) fun hk table => ?_
  · have sum := sum_removeFirst (fun j : Job => j.chain.length) found
    have := h.owed hk
    simp only [jobBlocks]
    omega
  · obtain ⟨len, ids, serials, next, fits, awaiting, clash⟩ := table
    have sub := removeFirst_sublist (p := fun x : Job => x.serial == n) d.spool.jobs
    exact ⟨sub.length_le.trans len, ids.sublist (sub.map _), serials.sublist (sub.map _), next,
      fun j hj => fits j (sub.subset hj), awaiting, clash.sublist sub⟩

theorem Sound.closeOut (h : Sound G w d) {j : Job} (found : d.jobBySerial j.serial = some j) (o : JobOutcome) :
    Sound G w (d.closeOut j o) := by
  have freed : Sound G w ((d.modSpool fun s =>
      { s with jobs := removeFirst (fun x => x.serial == j.serial) s.jobs }).freeSpool j.chain.length) := by
    refine Sound.repay (t := w.transit) (s := w.spool + j.chain.length - j.chain.length)
      ((h.dropJob found).freeSpool j.chain.length fun hk => ?_) fun _ => ⟨rfl, by omega⟩
    have := h.owed hk
    simp only [Slack.owing]
    omega
  have counted := (freed.setFinished (fun s => addSummary s.finished
    ⟨j.id, j.printer, j.source, o, j.received, j.printed, ((d.modSpool fun s =>
      { s with jobs := removeFirst (fun x => x.serial == j.serial) s.jobs }).freeSpool j.chain.length).uptime⟩) (length_addSummary_le _)).countSpool o.counter
  unfold Dev.closeOut
  dsimp only
  split
  · exact counted.raise _ _
  · exact counted

/-- The jobs after the first steps of a job's end are those before without its record. -/
theorem Dev.closeOut_jobs (j : Job) (o : JobOutcome) :
    (d.closeOut j o).spool.jobs = removeFirst (fun x => x.serial == j.serial) d.spool.jobs := by
  have raised : ∀ e : Dev, ∀ k s, (e.raise k s).spool.jobs = e.spool.jobs := fun e k s =>
    (touches_raise e k s .jobs (by decide)).symm
  have counted : ∀ e : Dev, ∀ c, (e.countSpool c).spool.jobs = e.spool.jobs := fun e c =>
    (touches_countSpool e c .jobs (by decide)).symm
  have freed : ∀ e : Dev, ∀ n, (e.freeSpool n).spool.jobs = e.spool.jobs := fun e n =>
    (touches_freeSpool e n .jobs (by decide)).symm
  unfold Dev.closeOut
  dsimp only
  split
  · rw [raised, counted, Dev.modSpool_spool, freed]; rfl
  · rw [counted, Dev.modSpool_spool, freed]; rfl

theorem Dev.closeOut_printer (j : Job) (o : JobOutcome) (i : Nat) : (d.closeOut j o).printer i = d.printer i := by
  have raised : ∀ e : Dev, ∀ k s, (e.raise k s).spool.printers = e.spool.printers := fun e k s =>
    (touches_raise e k s .printers (by decide)).symm
  have counted : ∀ e : Dev, ∀ c, (e.countSpool c).spool.printers = e.spool.printers := fun e c =>
    (touches_countSpool e c .printers (by decide)).symm
  have freed : ∀ e : Dev, ∀ n, (e.freeSpool n).spool.printers = e.spool.printers := fun e n =>
    (touches_freeSpool e n .printers (by decide)).symm
  have printers : (d.closeOut j o).spool.printers = d.spool.printers := by
    unfold Dev.closeOut
    dsimp only
    split
    · rw [raised, counted, Dev.modSpool_spool, freed]; rfl
    · rw [counted, Dev.modSpool_spool, freed]; rfl
  rw [Dev.printer, Dev.printer, printers]

/-- In a list with keys of their own, removing the first entry of a key leaves none of that key. -/
theorem key_ne_of_mem_removeFirst {α : Type} (key : α → Nat) {n : Nat} {a : α} {l : List α} (nodup : (l.map key).Nodup)
    (h : a ∈ removeFirst (fun a => key a == n) l) : key a ≠ n := by
  induction l with
  | nil => exact absurd h (by simp [removeFirst])
  | cons b l ih =>
    rw [List.map_cons, List.nodup_cons] at nodup
    by_cases hb : key b = n
    · simp only [removeFirst, hb, beq_self_eq_true, if_true] at h
      exact fun ha => nodup.1 (List.mem_map.mpr ⟨a, h, ha.trans hb.symm⟩)
    · simp only [removeFirst, beq_eq_false_iff_ne.mpr hb, Bool.false_eq_true, if_false, List.mem_cons] at h
      rcases h with rfl | h
      · exact hb
      · exact ih nodup.2 h

/-- Without the record of its ACTIVE job a printer has none (R155). -/
theorem Sound.removed_not_active (h : Sound G w d) (hk : G .jobs) {j : Job}
    (found : d.jobBySerial j.serial = some j) (act : j.state = .active) :
    ∀ b ∈ removeFirst (fun x => x.serial == j.serial) d.spool.jobs, b.printer = j.printer → b.state ≠ .active := by
  have table : JobTableOk [] d := h.holds .jobs hk
  obtain ⟨-, -, serials, -, -, -, clash⟩ := table
  intro b hb same actb
  have hne : b ≠ j := fun heq => key_ne_of_mem_removeFirst Job.serial serials hb (congrArg Job.serial heq)
  have : Std.Symm fun a b => ¬ JobClash a b := ⟨fun _ _ hac hca => hac hca.symm⟩
  have apart : ∀ a ∈ d.spool.jobs, ∀ c ∈ d.spool.jobs, a ≠ c → ¬ JobClash a c := fun a ha c hc hac =>
    clash.forall ha hc hac
  exact apart b (mem_of_mem_removeFirst hb) j (Dev.jobBySerial_mem found).1 hne ⟨same, .inl ⟨actb, act⟩⟩

theorem Sound.endJob (h : Sound G w d) (n : Nat) (o : JobOutcome) : Sound G w (d.endJob n o) := by
  unfold Dev.endJob
  split
  · rename_i j hj
    obtain ⟨hmem, hserial⟩ := Dev.jobBySerial_mem hj
    have found : d.jobBySerial j.serial = some j := hserial ▸ hj
    have closed := h.closeOut found o
    refine Sound.selectAll ?_
    split
    · rename_i act
      have act : j.state = .active := by simpa using act
      refine closed.activeJobEnded _ (fun hk p hp => ?_) fun hk b hb => ?_
      · rw [Dev.closeOut_printer] at hp
        exact (h.feed_of_active hk hmem act hp).2.2
      · rw [Dev.closeOut_jobs] at hb
        exact h.removed_not_active hk found act b hb
    · exact closed
  · exact h

theorem Sound.endJobOrWait (h : Sound G w d) (n : Nat) (o : JobOutcome) (a : Asker) :
    Sound G w (d.endJobOrWait n o a) := by
  unfold Dev.endJobOrWait
  split
  · exact h.setEndings _
  · exact h.endJob n o

theorem Sound.failSource (h : Sound G w d) (g : Seg) (n : Nat) : Sound G w (d.failSource g n) :=
  Sound.fold (fun _ _ h => h.endJobOrWait _ _ _) _ h

theorem Sound.failSegmentSources (h : Sound G w d) (g : Seg) : Sound G w (d.failSegmentSources g) :=
  Sound.fold (fun _ _ h => h.endJobOrWait _ _ _) _ h

theorem Sound.applyEnding (h : Sound G w d) (x : WaitingEnding) : Sound G w (d.applyEnding x) := by
  unfold Dev.applyEnding
  split
  · exact (h.endJob _ _).answerEnding _ _
  · exact h.answerEnding _ _

theorem Sound.applyEndings (h : Sound G w d) : Sound G w d.applyEndings :=
  Sound.fold (fun _ _ h => h.applyEnding _) _ (h.setEndings _)

/-! ### The status of a printer and the outcomes of its items -/

/-- What `activeJob` says where it finds none. -/
theorem Dev.not_active_of_none {i : Nat} (h : (d.activeJob i).isSome ≠ true) :
    ∀ j ∈ d.spool.jobs, j.printer = i → j.state ≠ .active := by
  have hnone : d.activeJob i = none := by simpa using h
  intro j hj hi act
  have := List.find?_eq_none.mp hnone j hj
  simp [hi, act] at this

theorem Sound.printerStatus (h : Sound G w d) (i : Nat) (f : Bool) : Sound G w (d.printerStatus i f) := by
  unfold Dev.printerStatus
  split
  · rename_i p hp
    have awake : p.feed ≠ .lost → G .jobs → ∀ q, d.printer i = some q → q.awaitingRole = false := by
      intro hf hk q hq
      obtain rfl := Option.some.inj (hp.symm.trans hq)
      exact h.not_awaiting hk hp hf
    split
    case h_4 hf =>
      split
      · exact h
      · split
        · exact h.enterFeeding i (awake (by simp [hf]))
        · rename_i hnone
          exact h.enterIdle i (awake (by simp [hf])) fun _ => Dev.not_active_of_none hnone
    case h_5 => exact h
    case h_6 => exact h
    all_goals
      rename_i hf
      split
      · exact h.makeStalled i (awake (by simp [hf]))
      · exact h
  · exact h

/-- What a change of its other fields leaves of a printer entry. -/
theorem Dev.awake_modPrinter {i : Nat} {f : Printer → Printer} (sameRole : ∀ p, (f p).awaitingRole = p.awaitingRole)
    (awake : ∀ p, d.printer i = some p → p.awaitingRole = false) :
    ∀ p, (d.modPrinter i f).printer i = some p → p.awaitingRole = false := by
  intro q hq
  rw [Dev.modPrinter_printer, if_pos rfl] at hq
  obtain ⟨p, hp, rfl⟩ := Option.map_eq_some_iff.mp hq
  exact (sameRole p).trans (awake p hp)

theorem Sound.printerRecovers (h : Sound G w d) (i : Nat) (f : Bool) : Sound G w (d.printerRecovers i f) := by
  unfold Dev.printerRecovers
  split
  · rename_i p hp
    split
    · rename_i lost
      simp only [Bool.and_eq_true, Bool.not_eq_true', beq_iff_eq] at lost
      have changed : Sound G w (d.modPrinter i fun p => { p with holdTimer := none, failCount := 0 }) :=
        h.modPrinter_same _ (by intro p; exact ⟨rfl, rfl, rfl, rfl, id⟩)
      have awake : G .jobs → ∀ q, (d.modPrinter i fun p => { p with holdTimer := none, failCount := 0 }).printer i =
          some q → q.awaitingRole = false := fun _ => by
        refine Dev.awake_modPrinter (fun _ => rfl) fun q hq => ?_
        obtain rfl := Option.some.inj (hp.symm.trans hq)
        exact lost.1.2
      dsimp only
      split
      · exact changed.makeStalled i awake
      · split
        · exact changed.enterFeeding i awake
        · rename_i hnone
          exact changed.enterIdle i awake fun _ => Dev.not_active_of_none hnone
    · exact h
  · exact h

theorem Sound.printerPolled (h : Sound G w d) (i : Nat) (f : Bool) : Sound G w (d.printerPolled i f) := by
  unfold Dev.printerPolled
  split
  · have changed : Sound G w (d.modPrinter i fun p => { p with failCount := 0 }) :=
      h.modPrinter_same _ (by intro p; exact ⟨rfl, rfl, rfl, rfl, id⟩)
    dsimp only
    split
    · exact changed.printerRecovers i f
    · exact changed.printerStatus i f
  · exact h

/-- An accepted block leaves its job's chain and is freed (R172). -/
theorem Sound.headAccepted (h : Sound G w d) {n : Nat} {j : Job} (found : d.jobBySerial n = some j) :
    Sound G w ((d.modJob n fun j =>
      { j with chain := j.chain.drop 1, printed := addBytes j.printed (j.chain.headD []).length }).freeSpool
        (min 1 j.chain.length)) := by
  have taken := h.modJob_chain
    (fun j => { j with chain := j.chain.drop 1, printed := addBytes j.printed (j.chain.headD []).length }) found
    (fun _ => rfl) fun hk => by
      have := h.owed hk
      simp only [List.length_drop]
      omega
  refine Sound.repay (t := w.transit)
    (s := w.spool + (j.chain.length - (j.chain.drop 1).length) - (min 1 j.chain.length : Nat))
    (taken.freeSpool (min 1 j.chain.length) fun hk => ?_) fun _ => ⟨rfl, ?_⟩
  · have := h.owed hk
    simp only [Slack.owing, List.length_drop]
    omega
  · simp only [List.length_drop]
    omega

theorem Sound.itemAccepted_zeroEnd (h : Sound G w d) (i n : Nat) (m : Mark) : Sound G w (d.itemAccepted i n true m) := by
  have settled : ∀ c, Sound G w c → Sound G w (if m = .last then
      (c.modPrinter i fun p => { p with ready := none, sentMark := none }).endJob n .done
      else c.modPrinter i fun p => { p with ready := none, sentMark := none }) := by
    intro c hc
    have third : Sound G w (c.modPrinter i fun p => { p with ready := none, sentMark := none }) :=
      hc.modPrinter_same _ (by intro p; exact ⟨rfl, rfl, rfl, rfl, id⟩)
    split
    · exact third.endJob _ _
    · exact third
  unfold Dev.itemAccepted
  dsimp only
  cases hp : d.printer i
  · exact settled d h
  · exact settled _ (h.countSeg _ _)

theorem Sound.itemAccepted (h : Sound G w d) (i n : Nat) (z : Bool) (m : Mark) : Sound G w (d.itemAccepted i n z m) := by
  cases z
  · cases hj : d.jobBySerial n with
    | none =>
      have same : d.itemAccepted i n false m = d.itemAccepted i n true m := by
        simp only [Dev.itemAccepted, hj]
      exact same ▸ h.itemAccepted_zeroEnd i n m
    | some j =>
      have same : d.itemAccepted i n false m = ((d.modJob n fun j =>
          { j with chain := j.chain.drop 1, printed := addBytes j.printed (j.chain.headD []).length }).freeSpool
            (min 1 j.chain.length)).itemAccepted i n true m := by
        simp only [Dev.itemAccepted, hj]
      exact same ▸ (h.headAccepted hj).itemAccepted_zeroEnd i n m
  · exact h.itemAccepted_zeroEnd i n m

theorem Sound.feedAccepted (h : Sound G w d) (i n : Nat) (z : Bool) (m : Mark) (f : Bool) :
    Sound G w (d.feedAccepted i n z m f) := by
  unfold Dev.feedAccepted
  split
  · rename_i p hp
    have changed : Sound G w (d.modPrinter i fun p => { p with failCount := 0 }) :=
      h.modPrinter_same _ (by intro p; exact ⟨rfl, rfl, rfl, rfl, id⟩)
    dsimp only
    split
    · exact (changed.itemAccepted i n z m).selectAll
    · rename_i notLost
      have notLost : p.feed ≠ .lost := by simpa using notLost
      split
      · have stalled : Sound G w ((d.modPrinter i fun p => { p with failCount := 0 }).modPrinter i fun q =>
            { q with feed := if m = .last ∧ q.disablePending = true then q.feed else .stalled, ready := none
                     busyTimer := none }) := by
          refine changed.modPrinter _ (by intro p; exact ⟨rfl, rfl, id⟩) fun hk q hq => ?_
          have awake : q.awaitingRole = false := Dev.awake_modPrinter (d := d) (by intro p; rfl) (fun r hr => by
            obtain rfl := Option.some.inj (hp.symm.trans hr)
            exact h.not_awaiting hk hp notLost) q hq
          refine ⟨fun haw => by simp [awake] at haw, ?_⟩
          rintro ⟨j, hj, rfl, act⟩
          have busy := changed.feed_of_active hk hj act hq
          dsimp only
          split
          · exact busy
          · exact ⟨by simp, by simp, awake⟩
        have ended := (stalled.itemAccepted i n z m).selectAll
        split
        · split
          · exact ended.raise _ _
          · exact ended
        · exact ended
      · exact ((changed.itemAccepted i n z m).offerItem i).selectAll
  · exact h

theorem Sound.feedRefused (h : Sound G w d) (i : Nat) (f : Bool) : Sound G w (d.feedRefused i f) := by
  unfold Dev.feedRefused
  split
  · rename_i p hp
    split
    · exact h
    · rename_i notLost
      have changed : Sound G w (d.modPrinter i fun p => { p with failCount := 0 }) :=
        h.modPrinter_same _ (by intro p; exact ⟨rfl, rfl, rfl, rfl, id⟩)
      dsimp only
      split
      · exact changed.printerStatus i true
      · split
        · refine changed.busyPrinter _ (by intro p; exact ⟨rfl, rfl, id⟩) (by intro p; simp) (by intro p; rfl) ?_
          intro hk q hq haw
          have awake : q.awaitingRole = false := Dev.awake_modPrinter (d := d) (by intro p; rfl) (fun r hr => by
            obtain rfl := Option.some.inj (hp.symm.trans hr)
            exact h.not_awaiting hk hp (by simpa using notLost)) q hq
          simp [awake] at haw
        · exact changed
  · exact h

theorem Sound.feedFailed (h : Sound G w d) (i : Nat) : Sound G w (d.feedFailed i) := by
  unfold Dev.feedFailed
  split
  · rename_i p hp
    split
    · exact h
    · have changed : Sound G w (d.modPrinter i fun q => { q with failCount := min (p.failCount + 1) 15 }) :=
        h.modPrinter_same _ (by intro p; exact ⟨rfl, rfl, rfl, rfl, id⟩)
      dsimp only
      split
      · exact changed.makeLost i
      · exact changed
  · exact h

end Keep

end Sys2Proof.Machine
end

