-- ==== Sys2Proof/Proofs/KeptByUnits.lean ====
section
/-! The laws are kept by the Spooler's taking of units, by JOB_REDIRECT and by the enabling of printers (R150 to R165). -/

namespace Sys2Proof.Machine

open Sys2Proof

-- one proof after another: proofs that wait for each other take a thread each
set_option Elab.async false

section Keep

variable {G : Law → Prop} {w : Slack} {d : Dev}

/-! ### Closing -/

/-- A record that is closed, and perhaps queued. -/
theorem Sound.modJob_closed (h : Sound G w d) {n : Nat} (f : Job → Job)
    (same : ∀ j, (f j).id = j.id ∧ (f j).serial = j.serial ∧ (f j).printer = j.printer ∧
      (f j).chain.length = j.chain.length)
    (closed : ∀ j, (f j).isOpen = false ∧ ((f j).state = .active → j.state = .active)) : Sound G w (d.modJob n f) := by
  refine h.setJobs (fun s => modifyFirst (fun j => j.serial == n) f s.jobs) w.spool (fun hk => ⟨?_, (h.owed hk).2⟩)
    fun _ ht => ht.modJob n f (fun j => (same j).1) (fun j => (same j).2.1) (fun _ => id) (fun j _ _ hf => ?_)
      fun j _ _ b _ hc => ?_
  · rw [jobBlocks_modifyFirst fun j => (same j).2.2.2]
    omega
  · obtain ⟨hid, hserial, hprinter, -⟩ := same j
    obtain ⟨lo, hi, before, -, p, hp, busy⟩ := hf
    refine ⟨hid ▸ lo, hid ▸ hi, hserial ▸ before, fun _ => (closed j).1, p, hprinter ▸ hp, fun act => ?_⟩
    rw [hprinter]
    exact busy ((closed j).2 act)
  · obtain ⟨-, -, hprinter, -⟩ := same j
    rintro ⟨printers, ⟨act, actb⟩ | ⟨-, isOpen, -⟩⟩
    · exact hc ⟨hprinter ▸ printers, .inl ⟨(closed j).2 act, actb⟩⟩
    · exact absurd isOpen (by rw [(closed j).1]; exact Bool.false_ne_true)

theorem Sound.closeJob (h : Sound G w d) (n : Nat) : Sound G w (d.closeJob n) := by
  unfold Dev.closeJob
  split
  · split
    · exact ((h.takeStamp n).modJob_closed _ (by intro j; exact ⟨rfl, rfl, rfl, rfl⟩)
        (by intro j; exact ⟨rfl, fun act => JobState.noConfusion act⟩)).select _
    · exact (h.modJob_closed _ (by intro j; exact ⟨rfl, rfl, rfl, rfl⟩) (by intro j; exact ⟨rfl, id⟩)).offerItem _
    · exact h.modJob_closed _ (by intro j; exact ⟨rfl, rfl, rfl, rfl⟩) (by intro j; exact ⟨rfl, id⟩)
  · exact h

theorem Sound.closeIdleJobs (h : Sound G w d) : Sound G w d.closeIdleJobs := Sound.fold (fun _ _ h => h.closeJob _) _ h

/-! ### Units -/

/-- Blocks are granted for what then holds them: the order of the two does not matter. -/
theorem Sound.takeSpool_for (h : Sound G w d) {n : Nat} (ok : d.spoolOk n = true) {e : Dev}
    (none : n = 0 → Sound G w e)
    (held : n ≠ 0 → Sound G { w.owing w.transit (w.spool + n) with pauseStale := true }
        { d with pool := ⟨d.pool.free - n, d.pool.transit, d.pool.spool + n⟩ } →
      Sound G { w with pauseStale := true } { e with pool := ⟨e.pool.free - n, e.pool.transit, e.pool.spool + n⟩ }) :
    Sound G w (e.takeSpool n) := by
  unfold Dev.takeSpool
  split
  · rename_i hz
    exact none hz
  · rename_i hz
    rcases (spoolOk_iff n).mp ok with hn | ⟨hquota, hfree⟩
    · exact absurd hn hz
    · refine Sound.pauseTest (held hz (h.movePool _ _ _ (fun hk => ?_) fun _ => .inr hquota))
      have := h.owed hk
      simp only
      omega

theorem Dev.jobBySerial_isSome {j : Job} (hj : j ∈ d.spool.jobs) : ∃ k, d.jobBySerial j.serial = some k := by
  refine Option.isSome_iff_exists.mp (List.find?_isSome.mpr ⟨j, hj, by simp⟩)

/-- A unit's blocks join the chain of a job (R151). -/
theorem Sound.chainGrows (h : Sound G w d) {j : Job} (hj : j ∈ d.spool.jobs) (blocks : List Block) (received : Nat → Nat)
    (ok : d.spoolOk blocks.length = true) :
    Sound G w ((d.modJob j.serial fun j =>
      { j with chain := j.chain ++ blocks, received := received j.received }).takeSpool blocks.length) := by
  obtain ⟨k, found⟩ := Dev.jobBySerial_isSome hj
  refine h.takeSpool_for ok (fun hz => ?_) fun _ held => ?_
  · exact h.modJob_same _ (by intro j; rfl) (by intro j; simp [hz])
  · refine Sound.repay (t := w.transit)
      (s := w.spool + blocks.length + (k.chain.length - (k.chain ++ blocks).length)) ?_ fun _ => ⟨rfl, ?_⟩
    · refine held.modJob_chain (fun j => { j with chain := j.chain ++ blocks, received := received j.received }) found
        (fun _ => rfl) fun hk => ?_
      have := h.owed hk
      simp only [Slack.owing, List.length_append]
      omega
    · simp only [List.length_append]
      omega

theorem Sound.appendUnit (h : Sound G w d) {j : Job} (hj : j ∈ d.spool.jobs) (payload : List Byte) (m : Mark) :
    Sound G w (d.appendUnit j payload m).1 := by
  have arrived : Sound G w (d.modJob j.serial fun j => { j with lastArrival := d.uptime }) :=
    h.modJob_same _ (by intro j; rfl) (by intro j; rfl)
  have stands : ∃ k ∈ (d.modJob j.serial fun j => { j with lastArrival := d.uptime }).spool.jobs,
      k.serial = j.serial := by
    rcases mem_modifyFirst_of_mem (p := fun k : Job => k.serial == j.serial)
      (f := fun j => { j with lastArrival := d.uptime }) hj with hm | hm
    · exact ⟨_, hm, rfl⟩
    · exact ⟨_, hm, rfl⟩
  obtain ⟨k, hk, same⟩ := stands
  unfold Dev.appendUnit
  dsimp only
  split
  · rename_i ok
    have grown := same ▸ arrived.chainGrows hk (spoolBlocks payload) (fun r => addBytes r payload.length) ok
    have going := (grown.offerItem j.printer).selectAll
    dsimp only
    split
    · exact going.closeJob _
    · exact going
  · exact arrived

/-- A job id searched for lies in 1 to 255, and no record holds it but where each id tried on the way is held. -/
theorem freeJobId_spec (jobs : List Job) : ∀ fuel n, 1 ≤ n → n ≤ 255 →
    (1 ≤ freeJobId jobs fuel n ∧ freeJobId jobs fuel n ≤ 255) ∧
    ((∀ j ∈ jobs, j.id ≠ freeJobId jobs fuel n) ∨
      ∀ k, k < fuel → ∃ j ∈ jobs, j.id = (n - 1 + k) % 255 + 1) := by
  intro fuel
  induction fuel with
  | zero => exact fun n lo hi => ⟨⟨lo, hi⟩, .inr fun k hk => absurd hk (Nat.not_lt_zero k)⟩
  | succ fuel ih =>
    intro n lo hi
    rw [freeJobId]
    split
    · rename_i held
      obtain ⟨range, found⟩ := ih (n % 255 + 1) (by omega) (by omega)
      refine ⟨range, found.imp_right fun all k hk => ?_⟩
      obtain _ | k := k
      · obtain ⟨j, hj, hid⟩ := List.any_eq_true.mp held
        exact ⟨j, hj, by have := beq_iff_eq.mp hid; omega⟩
      · obtain ⟨j, hj, hid⟩ := all k (by omega)
        exact ⟨j, hj, hid.trans (by omega)⟩
    · rename_i free
      refine ⟨⟨lo, hi⟩, .inl fun j hj hid => free (List.any_eq_true.mpr ⟨j, hj, beq_iff_eq.mpr hid⟩)⟩

/-- Of 255 ids fewer than 255 records leave one free (R148). -/
theorem freeJobId_fresh {jobs : List Job} {n : Nat} (lo : 1 ≤ n) (hi : n ≤ 255) (room : jobs.length < Config.jobMax) :
    ∀ j ∈ jobs, j.id ≠ freeJobId jobs 255 n := by
  refine (freeJobId_spec jobs 255 n lo hi).2.resolve_right fun all => ?_
  have held : List.range' 1 255 ⊆ jobs.map (·.id) := by
    intro i hi'
    obtain ⟨lo', hi'⟩ := List.mem_range'_1.mp hi'
    obtain ⟨j, hj, hid⟩ := all ((i + 255 - n) % 255) (Nat.mod_lt _ (by decide))
    exact List.mem_map.mpr ⟨j, hj, hid.trans (by omega)⟩
  have := (List.subperm_of_subset (List.nodup_range' (s := 1) (n := 255)) held).length_le
  rw [List.length_range', List.length_map] at this
  simp only [Config.jobMax] at room
  omega

/-- A new record joins the job table (R148, R152). -/
theorem JobTableOk.addJob {hs : List Nat} (h : JobTableOk hs d) {j : Job} (room : d.spool.jobs.length < Config.jobMax)
    (id : j.id = freeJobId d.spool.jobs 255 d.spool.nextId) (serial : j.serial = d.spool.nextSerial)
    (filling : j.state = .filling) (place : ∃ p, d.printer j.printer = some p)
    (apart : d.openJob j.source j.printer = none) :
    JobTableOk hs (d.modSpool fun s =>
      { s with jobs := s.jobs ++ [j], nextId := j.id % 255 + 1, nextSerial := j.serial + 1 }) := by
  obtain ⟨len, ids, serials, next, fits, awaiting, clash⟩ := h
  obtain ⟨⟨lo, hi⟩, -⟩ := freeJobId_spec d.spool.jobs 255 d.spool.nextId next.1 next.2
  have fresh := freeJobId_fresh next.1 next.2 room
  refine ⟨?_, ?_, ?_, ?_, fun k hk => ?_, awaiting, ?_⟩
  · simp only [Dev.modSpool_spool, List.length_append, List.length_singleton]
    omega
  · simp only [Dev.modSpool_spool, List.map_append, List.map_cons, List.map_nil, List.nodup_append]
    refine ⟨ids, by simp, fun a ha b hb => ?_⟩
    obtain ⟨k, hk, rfl⟩ := List.mem_map.mp ha
    obtain rfl := List.mem_singleton.mp hb
    exact id ▸ fresh k hk
  · simp only [Dev.modSpool_spool, List.map_append, List.map_cons, List.map_nil, List.nodup_append]
    refine ⟨serials, by simp, fun a ha b hb => ?_⟩
    obtain ⟨k, hk, rfl⟩ := List.mem_map.mp ha
    obtain rfl := List.mem_singleton.mp hb
    have := (fits k hk).2.2.1
    omega
  · simp only [Dev.modSpool_spool]
    omega
  · rcases List.mem_append.mp hk with hk | hk
    · obtain ⟨lo, hi, before, rest⟩ := fits k hk
      refine ⟨lo, hi, ?_, rest⟩
      simp only [Dev.modSpool_spool]
      omega
    · obtain rfl := List.mem_singleton.mp hk
      obtain ⟨p, hp⟩ := place
      refine ⟨id ▸ lo, id ▸ hi, Nat.lt_succ_self _, fun hq => absurd (filling.symm.trans hq) (by decide), p, hp,
        fun act => absurd (filling.symm.trans act) (by decide)⟩
  · refine List.pairwise_append.mpr ⟨clash, List.pairwise_singleton _ _, fun k hk b hb => ?_⟩
    obtain rfl := List.mem_singleton.mp hb
    rintro ⟨printers, ⟨-, act⟩ | ⟨sources, isOpen, -⟩⟩
    · exact absurd (filling.symm.trans act) (by decide)
    · have := List.find?_eq_none.mp apart k hk
      simp [printers, sources, isOpen] at this

/-- The record joins with its blocks still to be granted, or granted already. -/
theorem Sound.addJob (h : Sound G w d) {j : Job} (s : Int) (room : d.spool.jobs.length < Config.jobMax)
    (id : j.id = freeJobId d.spool.jobs 255 d.spool.nextId) (serial : j.serial = d.spool.nextSerial)
    (filling : j.state = .filling) (place : ∃ p, d.printer j.printer = some p)
    (apart : d.openJob j.source j.printer = none) (blocks : G .pool → w.spool = s + j.chain.length ∧ 0 ≤ s) :
    Sound G (w.owing w.transit s) (d.modSpool fun s =>
      { s with jobs := s.jobs ++ [j], nextId := j.id % 255 + 1, nextSerial := j.serial + 1 }) := by
  refine h.updateTo (l := [.jobs, .jobNames]) ?_ (fun hk => ⟨(h.owed hk).1, (blocks hk).2⟩) (fun k hr hold => ?_)
    fun k hk hr => ?_
  · intro p hp; cases p <;> first | exact absurd (Piece.mem_of rfl) hp | simp [Piece.same]
  · cases k <;> first | exact absurd hr (by decide) | exact hold
  · cases k <;> try exact absurd hr (by decide)
    case pool =>
      obtain ⟨total, transit, spool⟩ := h.holds .pool hk
      obtain ⟨hs, -⟩ := blocks hk
      refine ⟨total, transit, ?_⟩
      simp only [jobBlocks] at spool
      simp only [Slack.owing, Dev.modSpool_pool, Dev.modSpool_spool, jobBlocks, List.map_append, List.sum_append,
        List.map_cons, List.map_nil, List.sum_cons, List.sum_nil]
      omega
    case jobs => exact JobTableOk.addJob (h.holds .jobs hk) room id serial filling place apart

theorem Sound.createJob (h : Sound G w d) {p : Nat} {x : Source} (apart : d.openJob x p = none) (payload : List Byte)
    (m : Mark) : Sound G w (d.createJob p x payload m).1 := by
  unfold Dev.createJob
  dsimp only
  split
  · exact h
  · rename_i pr hp
    split
    · exact h
    · split
      · exact h
      · split
        · exact h
        · rename_i room
          split
          · exact h
          · rename_i ok
            have ok : d.spoolOk (spoolBlocks payload).length = true := by simpa using ok
            have room : d.spool.jobs.length < Config.jobMax := Nat.not_le.mp room
            have taken : Sound G w ((d.modSpool fun s =>
                { s with
                  jobs := s.jobs ++ [{
                    serial := d.spool.nextSerial, id := freeJobId d.spool.jobs 255 d.spool.nextId, printer := p
                    source := x, state := .filling, isOpen := true, chain := spoolBlocks payload
                    received := payload.length, printed := 0, created := d.uptime, lastArrival := d.uptime
                    stamp := none }]
                  nextId := freeJobId d.spool.jobs 255 d.spool.nextId % 255 + 1
                  nextSerial := d.spool.nextSerial + 1 }).takeSpool (spoolBlocks payload).length) := by
              refine h.takeSpool_for ok (fun hz => ?_) fun _ held => ?_
              · exact Sound.repay (h.addJob w.spool room rfl rfl rfl ⟨pr, hp⟩ apart fun hk => by
                  have := h.owed hk
                  simp only [hz]
                  omega) fun _ => ⟨rfl, rfl⟩
              · exact Sound.repay (held.addJob (d := { d with pool := _ }) w.spool room rfl rfl rfl ⟨pr, hp⟩ apart
                  fun hk => ⟨rfl, (h.owed hk).2⟩) fun _ => ⟨rfl, rfl⟩
            dsimp only
            split
            · exact (taken.closeJob _).selectAll
            · exact taken.selectAll

theorem Dev.openJob_mem {x : Source} {p : Nat} {j : Job} (h : d.openJob x p = some j) : j ∈ d.spool.jobs :=
  List.mem_of_find?_eq_some h

theorem Sound.takeUnit (h : Sound G w d) (g : Seg) (n : Nat) (x : Source) (payload : List Byte) (m : Mark) :
    Sound G w (d.takeUnit g n x payload m).1 := by
  unfold Dev.takeUnit
  cases d.printerAt g n with
  | none => exact h.countSpool _
  | some p =>
    dsimp only
    cases hopen : d.openJob x p with
    | none =>
      have made := h.createJob hopen payload m
      dsimp only
      split
      · exact made.countSpool _
      · exact made.countSpool _
    | some j =>
      have appended := h.appendUnit (Dev.openJob_mem hopen) payload m
      dsimp only
      split
      · exact appended.countSpool _
      · exact appended.countSpool _

/-! ### Commands -/

theorem Dev.jobById_mem {n : Nat} {j : Job} (h : d.jobById n = some j) : j ∈ d.spool.jobs :=
  List.mem_of_find?_eq_some h

/-- A job that is not ACTIVE moves to another printer, where its source has no open job beside it (R163). -/
theorem Sound.moveJob (h : Sound G w d) {j : Job} {target : Nat} {p : Printer} (hj : j ∈ d.spool.jobs)
    (hp : d.printer target = some p) (waits : j.state ≠ .active)
    (apart : j.state = .filling → d.openJob j.source target = none) :
    Sound G w (d.modJob j.serial fun j => { j with printer := target }) := by
  refine h.setJobs (fun s => modifyFirst (fun k => k.serial == j.serial) (fun j => { j with printer := target }) s.jobs)
    w.spool (fun hk => ⟨?_, (h.owed hk).2⟩) fun hk table => ?_
  · rw [jobBlocks_modifyFirst (by intro j; rfl)]
    omega
  · refine table.modJob j.serial _ (fun _ => rfl) (fun _ => rfl) (fun _ => id) (fun k hk' hn hf => ?_)
      fun k hk' hn b hb hc => ?_
    · obtain rfl := h.same_serial hk hj hk' hn
      obtain ⟨lo, hi, before, closed, -⟩ := hf
      exact ⟨lo, hi, before, closed, p, hp, fun act => absurd act waits⟩
    · obtain rfl := h.same_serial hk hj hk' hn
      rintro ⟨printers, ⟨act, -⟩ | ⟨sources, isOpen, openb⟩⟩
      · exact waits act
      · obtain ⟨-, -, -, -, fits, -⟩ := table
        obtain ⟨-, -, -, closed, -⟩ := fits k hk'
        have filling : k.state = .filling := by
          cases hstate : k.state with
          | filling => rfl
          | queued => exact absurd (closed hstate) (by simpa using isOpen)
          | active => exact absurd hstate waits
        have := List.find?_eq_none.mp (apart filling) b hb
        have printers : b.printer = target := printers.symm
        have sources : b.source = k.source := sources.symm
        simp [printers, sources, openb] at this

theorem Sound.redirectJob (h : Sound G w d) (n target : Nat) : Sound G w (d.redirectJob n target).1 := by
  unfold Dev.redirectJob
  split
  · exact h
  · split
    · rename_i j p hj hp
      split
      · exact h
      · rename_i waits
        split
        · exact h
        · split
          · exact h
          · split
            · exact h
            · rename_i apart
              split
              · exact h
              · refine (h.moveJob (Dev.jobById_mem hj) hp (by simpa using waits) fun filling => ?_).select target
                simpa [filling] using apart
    · exact h

theorem Sound.disablePrinter (h : Sound G w d) (i : Nat) : Sound G w (d.disablePrinter i).1 := by
  unfold Dev.disablePrinter
  split
  · exact h
  · split
    · exact h
    · rename_i p hp
      split
      · exact h
      · split
        · exact h.modPrinter_same _ (by intro p; exact ⟨rfl, rfl, rfl, rfl, id⟩)
        · rename_i inactive
          split
          · exact h.modPrinter_same _ (by intro p; exact ⟨rfl, rfl, rfl, rfl, id⟩)
          · rename_i awake
            refine h.freePrinter _ (by intro p; exact ⟨rfl, rfl, id⟩) (by intro p; rfl) (fun _ q hq => ?_)
              fun _ => Dev.not_active_of_none inactive
            obtain rfl := Option.some.inj (hp.symm.trans hq)
            simpa using awake

theorem Sound.enablePrinter (h : Sound G w d) (i : Nat) : Sound G w (d.enablePrinter i).1 := by
  unfold Dev.enablePrinter
  split
  · exact h
  · split
    · exact h
    · rename_i p hp
      split
      · exact h
      · split
        · rename_i disabled
          have disabled : p.feed = .disabled := by simpa using disabled
          refine (h.freePrinter _ (by intro p; exact ⟨rfl, rfl, id⟩) (by intro p; rfl) (fun hk q hq => ?_)
            fun hk j hj hi act => ?_).select i
          · obtain rfl := Option.some.inj (hp.symm.trans hq)
            exact h.not_awaiting hk hp (by simp [disabled])
          · subst hi
            exact (h.feed_of_active hk hj act hp).2.1 disabled
        · exact h.modPrinter_same _ (by intro p; exact ⟨rfl, rfl, rfl, rfl, id⟩)

end Keep

end Sys2Proof.Machine
end

