-- ==== Sys2Proof/Proofs/KeptByQueues.lean ====
section
/-! The laws are kept by cycles and holds, and by the placing, removing and flushing of frames (R33 to R38, R92 to R94). -/

namespace Sys2Proof.Machine

open Sys2Proof

-- one proof after another: proofs that wait for each other take a thread each
set_option Elab.async false

section Keep

variable {G : Law → Prop} {w : Slack} {d : Dev}

/-! ### Cycles and holds -/

theorem Scheduler.endCycle_turn (s : Scheduler) (c : Cycle) : (s.endCycle c).turn = s.turn := by
  unfold Scheduler.endCycle
  split <;> rfl

theorem Scheduler.withVisits_turn (s : Scheduler) (vs : List Visit) : (s.withVisits vs).turn = s.turn := by
  unfold Scheduler.withVisits
  split
  · exact s.endCycle_turn _
  · rfl

theorem Sound.startCycle (h : Sound G w d) (g : Seg) : Sound G w (d.startCycle g) :=
  h.modSched g (fun s => { s with
    cycleStart := some d.clock, floorInEffect := (d.seg g).cfg.cycleFloor
    cycle := if (planOf (d.stations.filter fun e => e.seg == g) (d.seg g).sched.cycleCount).isEmpty then .empty
      else .running (planOf (d.stations.filter fun e => e.seg == g) (d.seg g).sched.cycleCount) }) id

theorem Sound.skipVisits (h : Sound G w d) (g : Seg) (n : Nat) : Sound G w (d.skipVisits g n) := by
  refine h.modSched g _ fun hx => ?_
  split
  · rwa [Scheduler.withVisits_turn]
  · exact hx

theorem Sound.endHeldPoll (h : Sound G w d) (g : Seg) (n : Nat) : Sound G w (d.endHeldPoll g n) := by
  refine h.modSched g _ fun hx => ?_
  split
  · rename_i held
    rw [held] at hx
    exact absurd hx Bool.false_ne_true
  · exact hx

theorem Sound.endHeldDeliver (h : Sound G w d) (g : Seg) (n : Nat) : Sound G w (d.endHeldDeliver g n) := by
  refine h.modSched g _ fun hx => ?_
  split
  · rename_i held
    rw [held] at hx
    exact absurd hx Bool.false_ne_true
  · exact hx

theorem Sound.askHold (h : Sound G w d) (g : Seg) (x : Hold) : Sound G w (d.askHold g x) := h.modSched g _ id

theorem Sound.withdrawHold (h : Sound G w d) (g : Seg) (x : Hold) : Sound G w (d.withdrawHold g x) :=
  h.modSched g _ id

theorem Sound.endHold (h : Sound G w d) (g : Seg) (x : Hold) : Sound G w (d.endHold g x) := by
  refine h.modSched g _ fun hx => ?_
  split <;> exact hx

/-- A change of a discovery engine that keeps the pending-duplicates list within its capacity. -/
theorem Sound.modDisc (h : Sound G w d) (g : Seg) (f : Discovery → Discovery)
    (len : (f (d.seg g).disc).pendingDup.length ≤ (d.seg g).disc.pendingDup.length ∨
      (f (d.seg g).disc).pendingDup.length ≤ Config.pendingDupMax) : Sound G w (d.modDisc g f) := by
  refine h.update (touches_modDisc d g f) fun k hk hr => ?_
  cases k <;> try exact absurd hr (by decide)
  case lists =>
    obtain ⟨segs, rest⟩ := h.holds .lists hk
    refine ⟨fun s => ?_, rest⟩
    obtain ⟨down, mon, dup⟩ := segs s
    by_cases hs : s = g
    · subst hs
      rw [Dev.modDisc_seg]
      exact ⟨down, mon, by rcases len with len | len <;> simp only <;> omega⟩
    · rw [Dev.modDisc, Dev.modSeg_seg_other _ _ _ _ hs]
      exact ⟨down, mon, dup⟩

theorem Sound.passDue (h : Sound G w d) (g : Seg) : Sound G w (d.passDue g) := by
  unfold Dev.passDue
  split
  · have due : Sound G w (d.modDisc g fun x => { x with pass := .due, intervalTimer := none }) :=
      h.modDisc g _ (.inl (Nat.le_refl _))
    dsimp only
    split
    · exact due.askHold _ _
    · exact due.askHold _ _
    · exact due
  · exact h

theorem Sound.startInterval (h : Sound G w d) (g : Seg) : Sound G w (d.startInterval g) :=
  h.modDisc g _ (.inl (Nat.le_refl _))

/-! ### A downstream queue -/

theorem sum_allSegs (f : Seg → Nat) : (allSegs.map f).sum = f .s0 + f .s1 + f .s2 + f .s3 := by
  simp only [allSegs, List.map_cons, List.map_nil, List.sum_cons, List.sum_nil]
  omega

/-- The blocks of all downstream queues after a change of one. -/
theorem downBlocks_modSeg (d : Dev) (g : Seg) (f : Segment → Segment) :
    (allSegs.map fun s => downBlocks ((d.modSeg g f).seg s).downq).sum + downBlocks (d.seg g).downq =
      (allSegs.map fun s => downBlocks (d.seg s).downq).sum + downBlocks (f (d.seg g)).downq := by
  rw [sum_allSegs, sum_allSegs]
  cases g <;> simp only [Dev.seg, Dev.modSeg, Four.get, Four.set] <;> omega

/-- A change of a downstream queue, the blocks that leave it being owed. -/
theorem Sound.setDownq (h : Sound G w d) (g : Seg) (f : Segment → List DownFrame) (t : Int)
    (blocks : G .pool → t = w.transit + (downBlocks (d.seg g).downq - downBlocks (f (d.seg g))) ∧ 0 ≤ t)
    (fids : G .fids → FidsOk d →
      ((f (d.seg g)).map (·.fid)).Nodup ∧ ∀ x ∈ f (d.seg g), x.fid < d.nextFid)
    (len : G .lists → (f (d.seg g)).length ≤ (d.seg g).downq.length ∨ (f (d.seg g)).length ≤ Config.downQueueMax) :
    Sound G (w.owing t w.spool) (d.modSeg g fun s => { s with downq := f s }) := by
  refine h.updateTo (touches_setDownq d g f) (fun hk => ⟨(blocks hk).2, (h.owed hk).2⟩) (fun k hr hold => ?_)
    fun k hk hr => ?_
  · cases k <;> first | exact absurd hr (by decide) | exact hold
  · cases k <;> try exact absurd hr (by decide)
    case pool =>
      obtain ⟨total, transit, spool⟩ := h.holds .pool hk
      obtain ⟨ht, -⟩ := blocks hk
      have sum := downBlocks_modSeg d g fun s => { s with downq := f s }
      refine ⟨total, ?_, spool⟩
      simp only [Slack.owing, Dev.modSeg_pool, Dev.modSeg_up, ht]
      simp only at sum
      omega
    case fids =>
      intro s
      have old : FidsOk d := h.holds .fids hk
      by_cases hs : s = g
      · subst hs
        rw [Dev.modSeg_seg]
        exact fids hk old
      · rw [Dev.modSeg_seg_other _ _ _ _ hs]
        exact old s
    case lists =>
      obtain ⟨segs, rest⟩ := h.holds .lists hk
      refine ⟨fun s => ?_, rest⟩
      obtain ⟨down, other⟩ := segs s
      by_cases hs : s = g
      · subst hs
        rw [Dev.modSeg_seg]
        exact ⟨by rcases len hk with len | len <;> simp only <;> omega, other⟩
      · rw [Dev.modSeg_seg_other _ _ _ _ hs]
        exact ⟨down, other⟩

theorem Sound.setDownq_same (h : Sound G w d) (g : Seg) (f : Segment → List DownFrame)
    (same : (f (d.seg g)).map (fun x => (x.fid, x.blocks.length)) =
      (d.seg g).downq.map fun x => (x.fid, x.blocks.length)) :
    Sound G w (d.modSeg g fun s => { s with downq := f s }) := by
  have fids := congrArg (List.map Prod.fst) same
  have blocks := congrArg (fun l => (l.map Prod.snd).sum) same
  have len := congrArg List.length same
  simp only [List.map_map, List.length_map, Function.comp_def] at fids blocks len
  refine Sound.repay (t := w.transit) (s := w.spool) (h.setDownq g f w.transit (fun hk => ⟨?_, (h.owed hk).1⟩)
    (fun _ ok => ⟨fids ▸ (ok g).1, fun x hx => ?_⟩) (fun _ => .inl len.le)) fun _ => ⟨rfl, rfl⟩
  · simp only [downBlocks, blocks]
    omega
  · have : x.fid ∈ (d.seg g).downq.map (·.fid) := fids ▸ List.mem_map_of_mem hx
    obtain ⟨y, hy, heq⟩ := List.mem_map.mp this
    exact heq ▸ (ok g).2 y hy

theorem Sound.modFrame (h : Sound G w d) (g : Seg) (n : Nat) (f : DownFrame → DownFrame)
    (same : ∀ x, (f x).fid = x.fid ∧ (f x).blocks = x.blocks) : Sound G w (d.modFrame g n f) := by
  refine h.setDownq_same g (fun s => modifyFirst (fun x => x.fid == n) f s.downq) ?_
  exact map_modifyFirst (fun x : DownFrame => (x.fid, x.blocks.length)) (fun x _ => by simp [same x]) _

/-! ### Frames that leave -/

/-- In a list with keys of their own, an entry is the first of its key. -/
theorem find?_key {α : Type} (key : α → Nat) {a : α} {l : List α} (nodup : (l.map key).Nodup) (ha : a ∈ l) :
    l.find? (fun b => key b == key a) = some a := by
  obtain ⟨b, hb⟩ := Option.isSome_iff_exists.mp
    (List.find?_isSome.mpr ⟨a, ha, by simp⟩ : (l.find? fun b => key b == key a).isSome = true)
  rw [hb, List.inj_on_of_nodup_map nodup (List.mem_of_find?_eq_some hb) ha (by simpa using List.find?_some hb)]

theorem Sound.removeFrame (h : Sound G w d) {g : Seg} {f : DownFrame} (hf : G .pool → f ∈ (d.seg g).downq) :
    Sound G w (d.removeFrame g f) := by
  have sub := removeFirst_sublist (p := fun x : DownFrame => x.fid == f.fid) (d.seg g).downq
  have gone : Sound G (w.owing (w.transit + f.blocks.length) w.spool)
      (d.modSeg g fun s => { s with downq := removeFirst (fun x => x.fid == f.fid) s.downq }) := by
    refine h.setDownq g (fun s => removeFirst (fun x => x.fid == f.fid) s.downq) _ (fun hk => ?_)
      (fun _ ok => ⟨(ok g).1.sublist (sub.map _), fun x hx => (ok g).2 x (sub.subset hx)⟩) (fun _ => .inl sub.length_le)
    have ok : FidsOk d := h.holds .fids (h.closed.pool hk)
    have sum := sum_removeFirst (fun x : DownFrame => x.blocks.length) (find?_key (·.fid) (ok g).1 (hf hk))
    have := h.owed hk
    simp only [downBlocks]
    omega
  refine Sound.selectAll (Sound.repay (t := w.transit + f.blocks.length - f.blocks.length) (s := w.spool)
    (gone.freeTransit f.blocks.length fun hk => ?_) fun _ => ⟨by omega, rfl⟩)
  have := h.owed hk
  simp only [Slack.owing]
  omega

theorem Sound.flushOne (h : Sound G w d) {g : Seg} {f : DownFrame} (hf : G .pool → f ∈ (d.seg g).downq) :
    Sound G w (d.flushOne g f) := by
  refine ((h.endHeldDeliver g f.fid).removeFrame fun hk => ?_).dropSeg _ _
  rw [← touches_endHeldDeliver d g f.fid .downq (by decide) g]
  exact hf hk

theorem Dev.flushOne_downq (d : Dev) (g : Seg) (f : DownFrame) :
    ((d.flushOne g f).seg g).downq = removeFirst (fun x => x.fid == f.fid) (d.seg g).downq := by
  unfold Dev.flushOne Dev.removeFrame
  rw [← touches_dropSeg _ g .flushed .downq (by decide) g, ← touches_selectAll _ .downq (by decide) g,
    ← touches_freeTransit _ _ .downq (by decide) g, Dev.modSeg_seg,
    ← touches_endHeldDeliver d g f.fid .downq (by decide) g]

theorem mem_removeFirst_of_ne {α : Type} {p : α → Bool} {a : α} {l : List α} (ha : a ∈ l) (hp : p a = false) :
    a ∈ removeFirst p l := by
  induction l with
  | nil => exact absurd ha List.not_mem_nil
  | cons b l ih =>
    cases hb : p b <;> simp only [removeFirst, hb, Bool.false_eq_true, if_false, if_true] <;>
      rcases List.mem_cons.mp ha with rfl | ha
    · exact List.mem_cons_self
    · exact List.mem_cons_of_mem _ (ih ha)
    · exact absurd (hp.symm.trans hb) Bool.false_ne_true
    · exact ha

/-- Frames of a queue leave it one after another. -/
theorem Sound.flushAll {g : Seg} : ∀ (gone : List DownFrame) {d : Dev}, Sound G w d →
    (G .pool → (gone.map (·.fid)).Nodup ∧ ∀ f ∈ gone, f ∈ (d.seg g).downq) →
    Sound G w (gone.foldl (fun d f => d.flushOne g f) d)
  | [], _, h, _ => h
  | f :: gone, d, h, here => by
    refine Sound.flushAll gone (h.flushOne fun hk => (here hk).2 f List.mem_cons_self) fun hk => ?_
    obtain ⟨nodup, mem⟩ := here hk
    obtain ⟨hf, rest⟩ := List.nodup_cons.mp nodup
    refine ⟨rest, fun x hx => ?_⟩
    rw [Dev.flushOne_downq]
    refine mem_removeFirst_of_ne (mem x (List.mem_cons_of_mem _ hx)) (beq_eq_false_iff_ne.mpr fun heq => hf ?_)
    exact List.mem_map.mpr ⟨x, hx, heq⟩

theorem Sound.flush (h : Sound G w d) (g : Seg) (p : DownFrame → Bool) : Sound G w (d.flush g p) := by
  have marked : Sound G w (d.modSeg g fun s => { s with
      downq := s.downq.map fun f => if p f && (d.seg g).inFlight f then { f with flushMark := true } else f }) := by
    refine h.setDownq_same g (fun s => s.downq.map fun f =>
      if p f && (d.seg g).inFlight f then { f with flushMark := true } else f) ?_
    rw [List.map_map]
    refine List.map_congr_left fun f _ => ?_
    simp only [Function.comp_apply]
    split <;> rfl
  refine Sound.flushAll _ marked fun hk => ?_
  have ok : FidsOk d := h.holds .fids (h.closed.pool hk)
  refine ⟨(ok g).1.sublist (List.filter_sublist.map _), fun f hf => ?_⟩
  obtain ⟨hmem, hcond⟩ := List.mem_filter.mp hf
  rw [Dev.modSeg_seg]
  refine List.mem_map.mpr ⟨f, hmem, if_neg fun both => ?_⟩
  simp only [Bool.and_eq_true, Bool.not_eq_true'] at hcond both
  exact absurd (hcond.2.symm.trans both.2) Bool.false_ne_true

theorem Sound.setBackoffs (h : Sound G w d) (g : Seg) (f : Segment → List Backoff) :
    Sound G w (d.modSeg g fun s => { s with backoffs := f s }) := h.quiet (touches_setBackoffs d g f)

theorem Sound.endBackoff (h : Sound G w d) (g : Seg) (n : Nat) : Sound G w (d.endBackoff g n) := h.setBackoffs _ _

theorem Sound.startBackoff (h : Sound G w d) (g : Seg) (n : Nat) : Sound G w (d.startBackoff g n) := h.setBackoffs _ _

theorem Sound.flushStation (h : Sound G w d) (g : Seg) (n : Nat) : Sound G w (d.flushStation g n) :=
  (h.flush g _).endBackoff g n

theorem Sound.flushForPrinter (h : Sound G w d) (g : Seg) (n : Nat) : Sound G w (d.flushForPrinter g n) :=
  (h.flush g _).endBackoff g n

theorem Sound.flushQueue (h : Sound G w d) (g : Seg) : Sound G w (d.flushQueue g) := (h.flush g _).setBackoffs g _

theorem Sound.flushAwaiting (h : Sound G w d) (g : Seg) (n : Nat) : Sound G w (d.flushAwaiting g n) := by
  unfold Dev.flushAwaiting
  split
  · split
    · exact h.flush _ _
    · exact h
  · exact h

/-! ### Frames that join -/

/-- A name is used up. -/
theorem Sound.nameFrame (h : Sound G w d) : Sound G w { d with nextFid := d.nextFid + 1 } := by
  refine h.update (touches_nextFid d _) fun k hk hr => ?_
  cases k <;> try exact absurd hr (by decide)
  case stations => exact h.holds .stations hk
  case fids =>
    intro g
    have ok : FidsOk d := h.holds .fids hk
    exact ⟨(ok g).1, fun f hf => Nat.lt_succ_of_lt ((ok g).2 f hf)⟩

/-- A frame joins a downstream queue with room, for blocks granted already (R89). -/
theorem Sound.placeDown (h : Sound G w d) {g : Seg} (k n : Nat) (m : Mark) (payload : List Byte)
    (room : G .lists → (d.seg g).downq.length < Config.downQueueMax)
    (granted : G .pool → (transitNeed payload.length : Int) ≤ w.transit) :
    Sound G (w.owing (w.transit - transitNeed payload.length) w.spool) (d.placeDown g k n m payload) := by
  refine h.nameFrame.setDownq g (fun s => s.downq ++ [⟨d.nextFid, k, n, m, transitBlocks payload, d.clock, 0, 0, false⟩])
    _ (fun hk => ?_) (fun hk _ => ?_) fun hk => .inr ?_
  · have := granted hk
    have size := length_transitBlocks payload
    simp only [downBlocks, List.map_append, List.sum_append, List.map_cons, List.map_nil, List.sum_cons, List.sum_nil,
      size, Dev.seg] at this ⊢
    omega
  · have ok : FidsOk d := h.holds .fids hk
    obtain ⟨nodup, below⟩ := ok g
    refine ⟨?_, fun f hf => ?_⟩
    · simp only [List.map_append, List.map_cons, List.map_nil, List.nodup_append]
      refine ⟨nodup, by simp, fun a ha b hb => ?_⟩
      obtain ⟨f, hf, rfl⟩ := List.mem_map.mp ha
      obtain rfl := List.mem_singleton.mp hb
      exact (below f hf).ne
    · rcases List.mem_append.mp hf with hf | hf
      · exact Nat.lt_succ_of_lt (below f hf)
      · obtain rfl := List.mem_singleton.mp hf
        exact Nat.lt_succ_self _
  · have : (d.seg g).downq.length < Config.downQueueMax := room hk
    simp only [List.length_append, List.length_singleton, Dev.seg] at this ⊢
    omega

/-- Blocks are granted for what holds them by then: the order of the two does not matter. -/
theorem Sound.takeTransit_for (h : Sound G w d) {n : Nat} (enough : n ≤ d.pool.free) {e : Dev}
    (held : Sound G { w.owing (w.transit + n) w.spool with pauseStale := true }
        { d with pool := ⟨d.pool.free - n, d.pool.transit + n, d.pool.spool⟩ } →
      Sound G { w with pauseStale := true } { e with pool := ⟨e.pool.free - n, e.pool.transit + n, e.pool.spool⟩ }) :
    Sound G w (e.takeTransit n) := by
  refine Sound.pauseTest (held (h.movePool _ _ _ (fun hk => ?_) fun _ => .inl (Nat.le_refl _)))
  have := h.owed hk
  simp only
  omega

theorem Sound.queueDown (h : Sound G w d) {g : Seg} (k n : Nat) (m : Mark) (payload : List Byte)
    (room : (d.seg g).downq.length < Config.downQueueMax) (enough : transitNeed payload.length ≤ d.pool.free) :
    Sound G w (d.queueDown g k n m payload) := by
  refine (h.takeTransit_for enough fun held => ?_).flushAwaiting g k
  refine Sound.repay (t := w.transit + transitNeed payload.length - transitNeed payload.length) (s := w.spool)
    (held.placeDown (g := g) k n m payload (fun _ => room) fun hk => ?_) fun _ => ⟨Int.add_sub_cancel _ _, rfl⟩
  have := h.owed hk
  show (transitNeed payload.length : Int) ≤ w.transit + transitNeed payload.length
  omega

end Keep

end Sys2Proof.Machine
end

