-- ==== Sys2Proof/Proofs/KeptByAliases.lean ====
section
/-! The laws are kept by the Alias Translator's table (R64 to R79): places in a table's order, aliases that come, change and
leave, and the checks against station entries. -/

namespace Sys2Proof.Machine

open Sys2Proof

-- one proof after another: proofs that wait for each other take a thread each
set_option Elab.async false

/-! ### Places in a table's order -/

theorem segNat_injective {g h : Seg} (same : segNat g = segNat h) : g = h := by
  cases g <;> cases h <;> first | rfl | exact absurd same (by decide)

theorem placeBefore_iff {g h : Seg} {n m : Nat} :
    placeBefore g n h m = true ↔ segNat g < segNat h ∨ g = h ∧ n < m := by
  simp only [placeBefore, Bool.or_eq_true, Bool.and_eq_true, decide_eq_true_eq, beq_iff_eq]
  exact or_congr_right (and_congr_left fun _ => ⟨segNat_injective, congrArg segNat⟩)

/-- The place that one list entry's key has before another's. -/
def PlaceLt (a b : Seg × Nat) : Prop := placeBefore a.1 a.2 b.1 b.2 = true

theorem PlaceLt.trans {a b c : Seg × Nat} (h : PlaceLt a b) (k : PlaceLt b c) : PlaceLt a c := by
  rw [PlaceLt, placeBefore_iff] at *
  rcases h with h | ⟨h, hn⟩ <;> rcases k with k | ⟨k, kn⟩
  · exact .inl (h.trans k)
  · exact .inl (k ▸ h)
  · exact .inl (h ▸ k)
  · exact .inr ⟨h.trans k, hn.trans kn⟩

theorem PlaceLt.ne {a b : Seg × Nat} (h : PlaceLt a b) : a ≠ b := by
  rintro rfl
  rcases placeBefore_iff.mp h with h | ⟨-, h⟩
  · exact Nat.lt_irrefl _ h
  · exact Nat.lt_irrefl _ h

theorem PlaceLt.total {a b : Seg × Nat} (hne : a ≠ b) (h : ¬ PlaceLt a b) : PlaceLt b a := by
  rw [PlaceLt, placeBefore_iff] at *
  rcases Nat.lt_trichotomy (segNat a.1) (segNat b.1) with lt | eq | gt
  · exact absurd (.inl lt) h
  · have seg := segNat_injective eq
    have : a.2 ≠ b.2 := fun num => hne (Prod.ext seg num)
    exact .inr ⟨seg.symm, by have := mt (fun lt => Or.inr ⟨seg, lt⟩) h; omega⟩
  · exact .inl gt

/-- Places in ascending order are places of their own. -/
theorem ascending_nodup {l : List (Seg × Nat)} (h : ascending l) : l.Nodup :=
  List.Pairwise.imp (fun {a b} (lt : PlaceLt a b) => lt.ne) h

/-- An entry put in its order by a place that no other has (R41, R64). -/
theorem ascending_insertBy {α : Type} (key : α → Seg × Nat) {a : α} {l : List α} (h : ascending (l.map key))
    (new : key a ∉ l.map key) :
    ascending ((insertBy (fun x y => placeBefore (key x).1 (key x).2 (key y).1 (key y).2) a l).map key) := by
  induction l with
  | nil => exact List.pairwise_singleton _ _
  | cons b l ih =>
    rw [List.map_cons, List.mem_cons, not_or] at new
    obtain ⟨hb, hl⟩ := List.pairwise_cons.mp h
    rw [insertBy]
    split
    · rename_i lt
      have lt : PlaceLt (key a) (key b) := lt
      refine List.pairwise_cons.mpr ⟨fun c hc => ?_, h⟩
      rcases List.mem_cons.mp hc with rfl | hc
      · exact lt
      · exact lt.trans (hb c hc)
    · rename_i notLt
      have lt : PlaceLt (key b) (key a) := .total new.1 notLt
      refine List.pairwise_cons.mpr ⟨fun c hc => ?_, ih hl new.2⟩
      obtain ⟨x, hx, rfl⟩ := List.mem_map.mp hc
      rcases List.mem_cons.mp ((insertBy_perm _ a l).subset hx) with rfl | hx
      · exact lt
      · exact hb _ (List.mem_map_of_mem hx)

/-- A table's lookup of a place finds nothing where no entry has it. -/
theorem find?_place {α : Type} (key : α → Seg × Nat) {g : Seg} {n : Nat} {l : List α} :
    (l.find? fun a => (key a).1 == g && (key a).2 == n) = none ↔ (g, n) ∉ l.map key := by
  rw [List.find?_eq_none]
  constructor
  · intro h hm
    obtain ⟨a, ha, hk⟩ := List.mem_map.mp hm
    exact h a ha (by simp [hk])
  · intro h a ha hk
    simp only [Bool.and_eq_true, beq_iff_eq] at hk
    exact h (List.mem_map.mpr ⟨a, ha, Prod.ext hk.1 hk.2⟩)

/-- An ALIAS entry's place. -/
def AliasEntry.place (a : AliasEntry) : Seg × Nat := (a.seg, a.number)

/-- A station entry's place. -/
def Station.place (e : Station) : Seg × Nat := (e.seg, e.number)

section Keep

variable {G : Law → Prop} {w : Slack} {d : Dev} {g : Seg} {n : Nat}

theorem Dev.aliasAt_none : d.aliasAt g n = none ↔ (g, n) ∉ d.aliases.map AliasEntry.place :=
  find?_place AliasEntry.place

theorem Dev.station_none : d.station g n = none ↔ (g, n) ∉ d.stations.map Station.place := find?_place Station.place

theorem Dev.aliasAt_mem {a : AliasEntry} (h : d.aliasAt g n = some a) : a ∈ d.aliases ∧ a.seg = g ∧ a.number = n := by
  refine ⟨List.mem_of_find?_eq_some h, ?_⟩
  simpa using List.find?_some h

theorem Dev.station_mem {e : Station} (h : d.station g n = some e) : e ∈ d.stations ∧ e.seg = g ∧ e.number = n := by
  refine ⟨List.mem_of_find?_eq_some h, ?_⟩
  simpa using List.find?_some h

/-- In a table in its order a number of a segment has one ALIAS entry (R65). -/
theorem AliasesOk.unique (h : AliasesOk d) {a b : AliasEntry} (ha : a ∈ d.aliases) (hb : b ∈ d.aliases)
    (same : a.place = b.place) : a = b :=
  List.inj_on_of_nodup_map (ascending_nodup h.1 : (d.aliases.map AliasEntry.place).Nodup) ha hb same

/-- In a table in its order a number of a segment has one station entry (R41). -/
theorem StationsOk.unique (h : StationsOk d) {a b : Station} (ha : a ∈ d.stations) (hb : b ∈ d.stations)
    (same : a.place = b.place) : a = b :=
  List.inj_on_of_nodup_map (ascending_nodup h.1 : (d.stations.map Station.place).Nodup) ha hb same

/-! ### Changes of the ALIAS table -/

theorem touches_setAliases (d : Dev) (l : List AliasEntry) : Touches [.aliases] d { d with aliases := l } := by
  intro p hp; cases p <;> first | exact absurd (Piece.mem_of rfl) hp | simp [Piece.same, Dev.seg]

theorem Sound.setAliases (h : Sound G w d) (l : List AliasEntry)
    (table : G .aliases → AliasesOk d → AliasesOk { d with aliases := l })
    (rules : G .rules → AliasesOk d → (∀ a ∈ d.aliases, AliasFit w d a) →
      (d.aliases.Pairwise fun a b => ¬ AliasClash a b) →
      (∀ a ∈ l, AliasFit w d a) ∧ l.Pairwise fun a b => ¬ AliasClash a b) : Sound G w { d with aliases := l } := by
  refine h.update (touches_setAliases d l) fun k hk hr => ?_
  cases k <;> try exact absurd hr (by decide)
  case aliases => exact table hk (h.holds .aliases hk)
  case rules =>
    obtain ⟨fits, apart⟩ := h.holds .rules hk
    exact rules hk (h.holds .aliases (h.closed.rules hk).2.1) fits apart

theorem Sound.withdrawAliases (h : Sound G w d) (p : AliasEntry → Bool) : Sound G w (d.withdrawAliases p) := by
  have sub : (d.aliases.filter fun a => !p a).Sublist d.aliases := List.filter_sublist
  exact h.setAliases _ (fun _ ok => ⟨ok.1.sublist (sub.map _), sub.length_le.trans ok.2⟩)
    fun _ _ fits apart => ⟨fun a ha => fits a (sub.subset ha), apart.sublist sub⟩

theorem Sound.withdrawAlias (h : Sound G w d) (g : Seg) (n : Nat) : Sound G w (d.withdrawAlias g n) :=
  h.withdrawAliases _

theorem AliasClash.symm {a b : AliasEntry} : AliasClash a b → AliasClash b a := by
  rintro ⟨segs, targets, both | both⟩
  · exact ⟨segs.symm, targets.symm, .inl both.symm⟩
  · exact ⟨segs.symm, targets.symm, .inr both.symm⟩

/-- A change of the first ALIAS entry of a place, from what it does to that ALIAS entry. -/
theorem Sound.modAlias (h : Sound G w d) (g : Seg) (n : Nat) (f : AliasEntry → AliasEntry)
    (place : ∀ a, (f a).place = a.place)
    (fit : G .rules → ∀ a ∈ d.aliases, a.seg = g → a.number = n → AliasFit w d a → AliasFit w d (f a))
    (apart : G .rules → ∀ a ∈ d.aliases, a.seg = g → a.number = n → ∀ b ∈ d.aliases, a ≠ b → ¬ AliasClash a b →
      ¬ AliasClash (f a) b) : Sound G w (d.modAlias g n f) := by
  have places : (modifyFirst (fun a => a.seg == g && a.number == n) f d.aliases).map AliasEntry.place =
      d.aliases.map AliasEntry.place := map_modifyFirst _ (fun a _ => place a) _
  refine h.setAliases _ (fun _ ok => ⟨?_, ?_⟩) fun hk ok fits clashes => ⟨fun a ha => ?_, ?_⟩
  · exact (congrArg ascending places).mpr ok.1
  · show List.length (modifyFirst _ _ _) ≤ _
    rw [length_modifyFirst]
    exact ok.2
  · rcases mem_modifyFirst ha with ha | ⟨b, hb, here, rfl⟩
    · exact fits a ha
    · simp only [Bool.and_eq_true, beq_iff_eq] at here
      exact fit hk b hb here.1 here.2 (fits b hb)
  · have unique : (d.aliases.map AliasEntry.place).Nodup := ascending_nodup ok.1
    have changed := modifyFirst_eq_map (p := fun a => a.seg == g && a.number == n) AliasEntry.place (g, n)
      (fun a => by simp [AliasEntry.place]) f unique
    rw [changed, List.pairwise_map]
    have placesApart : d.aliases.Pairwise fun a b => a.place ≠ b.place := List.pairwise_map.mp unique
    refine (clashes.and placesApart).imp_of_mem fun {a b} ha hb ⟨hab, hne⟩ => ?_
    have differ : a ≠ b := fun heq => hne (congrArg _ heq)
    by_cases hpa : a.place = (g, n)
    · have hpb : b.place ≠ (g, n) := fun hpb => hne (hpa.trans hpb.symm)
      obtain ⟨hs, hn⟩ := Prod.mk.inj hpa
      simp only [hpa, hpb, if_true, if_false]
      exact apart hk a ha hs hn b hb differ hab
    · simp only [hpa, if_false]
      split
      · rename_i hpb
        obtain ⟨hs, hn⟩ := Prod.mk.inj hpb
        exact fun hc => apart hk b hb hs hn a ha differ.symm (fun hc => hab hc.symm) hc.symm
      · exact hab

theorem Sound.useAlias (h : Sound G w d) (g : Seg) (n : Nat) : Sound G w (d.useAlias g n) :=
  h.modAlias g n _ (by intro a; rfl) (fun _ _ _ _ _ fit => fit) fun _ _ _ _ _ _ _ _ apart => apart

/-- An ALIAS entry joins the table at a place that no other ALIAS entry has (R64, R65). -/
theorem Sound.addAlias (h : Sound G w d) {a : AliasEntry}
    (room : G .aliases → d.aliases.length < Config.aliasMax ∧ d.aliasAt a.seg a.number = none)
    (rules : G .rules → AliasFit w d a ∧ ∀ b ∈ d.aliases, ¬ AliasClash a b) : Sound G w (d.addAlias a) := by
  have perm := insertBy_perm (fun x y : AliasEntry => placeBefore x.seg x.number y.seg y.number) a d.aliases
  refine h.setAliases _ (fun hk ok => ⟨?_, ?_⟩) fun hk _ fits clashes => ⟨fun b hb => ?_, ?_⟩
  · exact ascending_insertBy AliasEntry.place ok.1 (Dev.aliasAt_none.mp (room hk).2)
  · refine perm.length_eq.le.trans ?_
    have := (room hk).1
    rw [List.length_cons]
    omega
  · rcases List.mem_cons.mp (perm.subset hb) with rfl | hb
    · exact (rules hk).1
    · exact fits b hb
  · exact (perm.pairwise_iff fun {_ _} apart hc => apart hc.symm).mpr (List.pairwise_cons.mpr ⟨(rules hk).2, clashes⟩)

/-! ### Allocation -/

theorem Dev.freeNumber_spec (h : d.freeNumber g = some n) :
    (d.seg g).cfg.aliasLow ≤ n ∧ n ≤ (d.seg g).cfg.aliasHigh ∧ d.station g n = none ∧ d.aliasAt g n = none := by
  have mem := List.mem_of_find?_eq_some h
  have free := List.find?_some h
  simp only [List.mem_filter, Bool.and_eq_true, decide_eq_true_eq] at mem
  simp only [Dev.numberHeld, Bool.not_eq_true', Bool.or_eq_false_iff, Option.isSome_eq_false_iff,
    Option.isNone_iff_eq_none] at free
  exact ⟨mem.2.1, mem.2.2, free⟩

theorem Dev.aliasFor_none {t : Target} (h : d.aliasFor g t = none) :
    ∀ a ∈ d.aliases, ¬ (a.seg = g ∧ a.state = .active ∧ a.target = t) := by
  intro a ha ⟨hs, act, ht⟩
  unfold Dev.aliasFor at h
  dsimp only at h
  split at h
  · exact absurd h (by simp)
  · have none := List.head?_eq_none_iff.mp h
    have : a ∈ d.aliases.filter fun a => a.seg == g && a.state == .active && a.target == t :=
      List.mem_filter.mpr ⟨ha, by simp [hs, act, ht]⟩
    rw [none] at this
    exact absurd this List.not_mem_nil

theorem SegSettings.aliasRange {c : SegSettings} (h : c.sound g = true) : 1 ≤ c.aliasLow ∧ c.aliasHigh ≤ 254 := by
  simp only [SegSettings.sound, Bool.and_eq_true, decide_eq_true_eq] at h
  obtain ⟨⟨⟨⟨⟨⟨⟨low, -⟩, high⟩, -⟩, -⟩, -⟩, -⟩, -⟩ := h
  exact ⟨low, high⟩

theorem Sound.newDynamic (h : Sound G w d) {t : Target}
    (room : G .aliases → d.aliases.length < Config.aliasMax ∧ d.aliasAt g n = none)
    (number : G .rules → 1 ≤ n ∧ n ≤ 254) (target : G .rules → targetOk d.set.base g t = true)
    (free : G .rules → (g, n) ∈ w.unchecked ∨ d.station g n = none)
    (first : G .rules → ∀ a ∈ d.aliases, ¬ (a.seg = g ∧ a.state = .active ∧ a.target = t)) :
    Sound G w (d.newDynamic g n t) := by
  refine h.addAlias room fun hk => ⟨⟨(number hk).1, (number hk).2, target hk, fun _ => rfl, fun _ => free hk⟩, ?_⟩
  rintro b hb ⟨segs, targets, ⟨static, -⟩ | ⟨-, act⟩⟩
  · exact absurd static (by simp)
  · exact first hk b hb ⟨segs.symm, act, targets.symm⟩

theorem Dev.withdrawAlias_aliasAt (d : Dev) (g : Seg) (n : Nat) : (d.withdrawAlias g n).aliasAt g n = none :=
  List.find?_eq_none.mpr fun a ha here => by
    obtain ⟨-, other⟩ := List.mem_filter.mp ha
    simp [here] at other

theorem Dev.withdrawAlias_length {a : AliasEntry} (ha : a ∈ d.aliases) :
    (d.withdrawAlias a.seg a.number).aliases.length < d.aliases.length := by
  refine List.length_filter_lt_length_iff_exists.mpr ⟨a, ha, by simp⟩

theorem Sound.allocate (h : Sound G w d) {t : Target} (target : G .rules → targetOk d.set.base g t = true)
    (none : d.aliasFor g t = none) : Sound G w (d.allocate g t).1 := by
  have first := Dev.aliasFor_none none
  have range : G .rules → 1 ≤ (d.seg g).cfg.aliasLow ∧ (d.seg g).cfg.aliasHigh ≤ 254 := fun hk => by
    have ok : SettingsOk d := h.holds .settings (h.closed.rules hk).2.2.2
    exact SegSettings.aliasRange (ok.2.2 g).2
  unfold Dev.allocate
  dsimp only
  split
  · rename_i n hn
    obtain ⟨low, high, station, alias_⟩ := Dev.freeNumber_spec hn
    split
    · rename_i room
      exact h.newDynamic (fun _ => ⟨room, alias_⟩) (fun hk => by have := range hk; omega) target
        (fun _ => .inr station) fun _ => first
    · split
      · rename_i a ha
        have mem : a ∈ d.aliases := List.mem_of_mem_filter (mem_of_leastBy ha)
        have gone := h.withdrawAlias a.seg a.number
        split
        · rename_i m hm
          obtain ⟨low, high, station, alias_⟩ := Dev.freeNumber_spec hm
          refine gone.newDynamic (fun hk => ⟨?_, alias_⟩) (fun hk => ?_) target (fun _ => .inr station)
            fun _ b hb => first b (List.mem_of_mem_filter hb)
          · have ok : AliasesOk d := h.holds .aliases hk
            exact (Dev.withdrawAlias_length mem).trans_le ok.2
          · have low : (d.seg g).cfg.aliasLow ≤ m := low
            have high : m ≤ (d.seg g).cfg.aliasHigh := high
            have := range hk
            omega
        · exact gone
      · exact h.raise _ _
  · split
    · rename_i a ha
      have mem := mem_of_leastBy ha
      simp only [List.mem_filter, Bool.and_eq_true, decide_eq_true_eq, beq_iff_eq, Dev.pastMinimumHold] at mem
      obtain ⟨mem, ⟨⟨⟨dynamic, -⟩, here⟩, low⟩, high⟩ := mem
      subst here
      refine (h.withdrawAlias a.seg a.number).newDynamic (fun hk => ⟨?_, Dev.withdrawAlias_aliasAt d _ _⟩)
        (fun hk => by have := range hk; omega) target (fun hk => ?_) fun _ b hb => first b (List.mem_of_mem_filter hb)
      · have ok : AliasesOk d := h.holds .aliases hk
        exact (Dev.withdrawAlias_length mem).trans_le ok.2
      · obtain ⟨fits, -⟩ := h.holds .rules hk
        obtain ⟨-, -, -, active, free⟩ := fits a mem
        exact free (active dynamic)
    · exact h.raise _ _

theorem Sound.fromNumber (h : Sound G w d) {t : Target} (target : G .rules → targetOk d.set.base g t = true) :
    Sound G w (d.fromNumber g t).1 := by
  unfold Dev.fromNumber
  split
  · exact h.useAlias _ _
  · exact h.allocate target ‹_›

/-! ### The checks against station entries -/

/-- The slack of a station entry that has come into being and is still to be checked against the aliases (R78). -/
def Slack.checking (w : Slack) (g : Seg) (n : Nat) : Slack := { w with unchecked := (g, n) :: w.unchecked }

/-- The check is made where no ACTIVE ALIAS entry has the number. -/
theorem Sound.checked (h : Sound G (w.checking g n) d)
    (ok : G .rules → ∀ a ∈ d.aliases, a.seg = g → a.number = n → a.state ≠ .active) : Sound G w d :=
  h.reslack fun k hk hold => by
    cases k
    case rules =>
      obtain ⟨fits, apart⟩ := hold
      refine ⟨fun a ha => ?_, apart⟩
      obtain ⟨low, high, target, dynamic, free⟩ := fits a ha
      refine ⟨low, high, target, dynamic, fun act => (free act).imp_left fun open' => ?_⟩
      rcases List.mem_cons.mp open' with here | open'
      · obtain ⟨hs, hn⟩ := Prod.mk.inj here
        exact absurd act (ok hk a ha hs hn)
      · exact open'
    all_goals exact hold

theorem Sound.conflictCheck (h : Sound G (w.checking g n) d) : Sound G w (d.conflictCheck g n) := by
  have none_active : ∀ e : Dev, e.aliasAt g n = none → ∀ a ∈ e.aliases, a.seg = g → a.number = n → a.state ≠ .active := by
    intro e hnone a ha hs hn
    exact absurd (List.mem_map.mpr ⟨a, ha, Prod.ext hs hn⟩) (Dev.aliasAt_none.mp hnone)
  unfold Dev.conflictCheck
  split
  · rename_i hnone
    exact h.checked fun _ => none_active d hnone
  · rename_i a ha
    obtain ⟨mem, hs, hn⟩ := Dev.aliasAt_mem ha
    have only : G .rules → ∀ b ∈ d.aliases, b.seg = g → b.number = n → b = a := fun hk b hb hbs hbn => by
      have ok : AliasesOk d := h.holds .aliases (h.closed.rules hk).2.1
      exact ok.unique hb mem (Prod.ext (hbs.trans hs.symm) (hbn.trans hn.symm))
    split
    · exact (h.withdrawAlias g n).checked fun _ => none_active _ (Dev.withdrawAlias_aliasAt d g n)
    · rename_i static _
      have conflicted : Sound G (w.checking g n) (d.modAlias g n fun a => { a with state := .conflict }) := by
        refine h.modAlias g n _ (by intro a; rfl) (fun hk b hb hbs hbn fit => ?_) fun hk b hb hbs hbn c hc _ apart => ?_
        · obtain ⟨low, high, target, -, -⟩ := fit
          obtain rfl := only hk b hb hbs hbn
          exact ⟨low, high, target, fun dynamic => absurd (static.symm.trans dynamic) (by decide),
            fun act => AliasState.noConfusion act⟩
        · rintro ⟨segs, targets, both | ⟨act, -⟩⟩
          · exact apart ⟨segs, targets, .inl both⟩
          · exact AliasState.noConfusion act
      refine (conflicted.checked fun hk b hb hbs hbn act => ?_).raise _ _
      have ok : AliasesOk (d.modAlias g n fun a => { a with state := .conflict }) :=
        conflicted.holds .aliases (h.closed.rules hk).2.1
      have first : (d.modAlias g n fun a => { a with state := .conflict }).aliasAt g n =
          some { a with state := .conflict } := find?_modifyFirst ha (by simp [hs, hn])
      obtain ⟨memFirst, hs', hn'⟩ := Dev.aliasAt_mem first
      have := ok.unique hb memFirst (Prod.ext (hbs.trans hs'.symm) (hbn.trans hn'.symm))
      rw [this] at act
      exact AliasState.noConfusion act
    · rename_i _ conflict
      refine h.checked fun hk b hb hbs hbn act => ?_
      obtain rfl := only hk b hb hbs hbn
      exact absurd (conflict.symm.trans act) (by decide)

end Keep

end Sys2Proof.Machine
end

