-- ==== Sys2Proof/Proofs/KeptByDirectory.lean ====
section
/-! The laws are kept by the Station Directory: entries that come, change and leave, and the results of a discovery pass
(R40 to R60, R78, R79). -/

namespace Sys2Proof.Machine

open Sys2Proof

-- one proof after another: proofs that wait for each other take a thread each
set_option Elab.async false

section Keep

variable {G : Law → Prop} {w : Slack} {d : Dev} {g : Seg} {n : Nat}

theorem Sound.conflictRelease (h : Sound G w d) (left : G .rules → d.station g n = none) :
    Sound G w (d.conflictRelease g n) := by
  unfold Dev.conflictRelease
  split
  · exact h
  · rename_i a ha
    obtain ⟨mem, hs, hn⟩ := Dev.aliasAt_mem ha
    split
    · rename_i released
      simp only [Bool.and_eq_true, beq_iff_eq] at released
      obtain ⟨static, -⟩ := released
      have sub : ((modifyFirst (fun a => a.seg == g && a.number == n) (fun a => { a with state := .active })
          d.aliases).filter fun b => !(b.kind == .dynamic && b.seg == g && b.target == a.target)).Sublist
          (modifyFirst (fun a => a.seg == g && a.number == n) (fun a => { a with state := .active }) d.aliases) :=
        List.filter_sublist
      refine h.setAliases _ (fun _ ok => ⟨?_, ?_⟩) fun hk ok fits clashes => ?_
      · refine List.Pairwise.sublist (sub.map _) ?_
        exact (congrArg ascending (map_modifyFirst AliasEntry.place (by intro a _; rfl) d.aliases)).mpr ok.1
      · refine sub.length_le.trans ?_
        rw [length_modifyFirst]
        exact ok.2
      · have unique : (d.aliases.map AliasEntry.place).Nodup := ascending_nodup ok.1
        have changed := modifyFirst_eq_map (p := fun a => a.seg == g && a.number == n) AliasEntry.place (g, n)
          (fun a => by simp [AliasEntry.place]) (fun a => { a with state := .active }) unique
        have only : ∀ b ∈ d.aliases, b.place = (g, n) → b = a := fun b hb hp =>
          ok.unique hb mem (hp.trans (Prod.ext hs.symm hn.symm))
        refine ⟨fun b hb => ?_, ?_⟩
        · rcases mem_modifyFirst (sub.subset hb) with hb | ⟨c, hc, here, rfl⟩
          · exact fits b hb
          · simp only [Bool.and_eq_true, beq_iff_eq] at here
            obtain rfl := only c hc (Prod.ext here.1 here.2)
            obtain ⟨low, high, target, -, -⟩ := fits c hc
            exact ⟨low, high, target, fun _ => rfl, fun _ => .inr (hs ▸ hn ▸ left hk)⟩
        · refine List.pairwise_filter.mpr ?_
          refine (congrArg (List.Pairwise _) changed).mpr ?_
          rw [List.pairwise_map]
          have placesApart : d.aliases.Pairwise fun a b => a.place ≠ b.place := List.pairwise_map.mp unique
          refine (clashes.and placesApart).imp_of_mem fun {x y} hx hy ⟨hxy, hne⟩ => ?_
          -- a DYNAMIC ALIAS entry of the released target has been withdrawn, and a STATIC one clashed before
          have released : ∀ x y : AliasEntry, x ∈ d.aliases → x.place = (g, n) → ¬ AliasClash x y →
              (!(y.kind == .dynamic && y.seg == g && y.target == a.target)) = true →
              ¬ AliasClash { x with state := .active } y := by
            rintro x y hx hp hxy stays ⟨segs, targets, both | ⟨-, act⟩⟩
            · exact hxy ⟨segs, targets, .inl both⟩
            · obtain rfl := only x hx hp
              have segs : x.seg = y.seg := segs
              have targets : x.target = y.target := targets
              have : y.kind = .static := by
                cases hkind : y.kind
                · rfl
                · simp [hkind, ← segs, hs, targets] at stays
              exact hxy ⟨segs, targets, .inl ⟨static, this⟩⟩
          by_cases hpx : x.place = (g, n)
          · have hpy : y.place ≠ (g, n) := fun hpy => hne (hpx.trans hpy.symm)
            simp only [hpx, hpy, if_true, if_false]
            exact fun _ stays => released x y hx hpx hxy stays
          · simp only [hpx, if_false]
            split
            · rename_i hpy
              exact fun stays _ hc => released y x hy hpy (fun hc => hxy hc.symm) stays hc.symm
            · exact fun _ _ => hxy
    · exact h

theorem Sound.withdrawIdle (h : Sound G w d) : Sound G w d.withdrawIdle := h.withdrawAliases _

theorem Sound.withdrawOutside (h : Sound G w d) (g : Seg) : Sound G w (d.withdrawOutside g) := h.withdrawAliases _

/-! ### Changes of the station table -/

/-- A change of a station entry keeps its names and its place, and its numbers in their ranges. -/
def EntryKept (f : Station → Station) : Prop :=
  ∀ e, (f e).eid = e.eid ∧ (f e).place = e.place ∧ (StationRanges e → StationRanges (f e))

theorem Dev.station_isSome : (d.station g n).isSome = true ↔ (g, n) ∈ d.stations.map Station.place := by
  rw [← not_iff_not, ← Dev.station_none, Bool.not_eq_true, Option.isSome_eq_false_iff, Option.isNone_iff_eq_none]

/-- The laws of the aliases and the printers see the station table's places alone. -/
theorem Sound.modStation (h : Sound G w d) (i : Nat) (f : Station → Station) (kept : EntryKept f) :
    Sound G w (d.modStation i f) := by
  have places : (modifyFirst (fun e => e.eid == i) f d.stations).map Station.place = d.stations.map Station.place :=
    map_modifyFirst _ (fun e _ => (kept e).2.1) _
  have eids : (modifyFirst (fun e => e.eid == i) f d.stations).map (·.eid) = d.stations.map (·.eid) :=
    map_modifyFirst _ (fun e _ => (kept e).1) _
  have stations : (d.modStation i f).stations = modifyFirst (fun e => e.eid == i) f d.stations := rfl
  have back : ∀ e ∈ (d.modStation i f).stations, ∃ b ∈ d.stations, e.eid = b.eid ∧ e.place = b.place ∧
      (StationRanges b → StationRanges e) := by
    intro e he
    rcases mem_modifyFirst he with he | ⟨b, hb, -, rfl⟩
    · exact ⟨e, he, rfl, rfl, id⟩
    · exact ⟨b, hb, kept b⟩
  refine h.update (touches_modStation d i f) fun k hk hr => ?_
  cases k <;> try exact absurd hr (by decide)
  case stations =>
    obtain ⟨order, len, names, below⟩ := h.holds .stations hk
    refine ⟨(congrArg ascending places).mpr order, ?_, ?_, fun e he => ?_⟩
    · rwa [stations, length_modifyFirst]
    · rwa [stations, eids]
    · obtain ⟨b, hb, heid, -⟩ := back e he
      exact heid ▸ below b hb
  case numbers =>
    intro e he
    obtain ⟨b, hb, -, hplace, -⟩ := back e he
    have range : 1 ≤ b.number ∧ b.number ≤ 254 := (h.holds .numbers hk : NumbersOk d) b hb
    have : e.number = b.number := congrArg Prod.snd hplace
    omega
  case rules =>
    obtain ⟨fits, apart⟩ := h.holds .rules hk
    refine ⟨fun a ha => ?_, apart⟩
    obtain ⟨low, high, target, dynamic, free⟩ := fits a ha
    refine ⟨low, high, target, dynamic, fun act => (free act).imp_right fun hnone => ?_⟩
    rw [Dev.station_none] at hnone ⊢
    rwa [stations, places]
  case printers =>
    obtain ⟨entries, distinct, ranges⟩ := h.holds .printers hk
    refine ⟨fun k p hp => ?_, distinct, fun e he => ?_⟩
    · obtain ⟨standing, numbers⟩ := entries k p hp
      refine ⟨?_, numbers⟩
      rw [Dev.station_isSome] at standing ⊢
      rwa [stations, places]
    · obtain ⟨b, hb, -, -, hranges⟩ := back e he
      exact hranges (ranges b hb)

/-- A station entry joins the table at a place of its own, and is still to be checked against the aliases (R41, R78). -/
theorem Sound.insertStation (h : Sound G w d) {e : Station}
    (room : G .stations → d.stations.length < Config.stationMax ∧ d.station e.seg e.number = none)
    (number : G .numbers → 1 ≤ e.number ∧ e.number ≤ 254) (ranges : G .printers → StationRanges e) :
    Sound G (w.checking e.seg e.number) (d.insertStation e) := by
  have perm := insertBy_perm (fun x y : Station => placeBefore x.seg x.number y.seg y.number)
    { e with eid := d.nextEid } d.stations
  have mem : ∀ x ∈ (d.insertStation e).stations, x = { e with eid := d.nextEid } ∨ x ∈ d.stations := fun x hx =>
    List.mem_cons.mp (perm.subset hx)
  have places : ∀ p, p ∈ (d.insertStation e).stations.map Station.place ↔
      p = e.place ∨ p ∈ d.stations.map Station.place := fun p =>
    ((perm.map Station.place).mem_iff).trans List.mem_cons
  refine h.updateTo (touches_insertStation d e) h.owed (fun k hr hold => ?_) fun k hk hr => ?_
  · cases k <;> first | exact absurd hr (by decide) | exact hold
  · cases k <;> try exact absurd hr (by decide)
    case stations =>
      obtain ⟨order, len, names, below⟩ := h.holds .stations hk
      obtain ⟨lt, new⟩ := room hk
      refine ⟨ascending_insertBy Station.place order (Dev.station_none.mp new), ?_, ?_, fun x hx => ?_⟩
      · refine perm.length_eq.le.trans ?_
        rw [List.length_cons]
        omega
      · refine (perm.map (·.eid)).nodup_iff.mpr ?_
        rw [List.map_cons, List.nodup_cons]
        refine ⟨fun hm => ?_, names⟩
        obtain ⟨x, hx, heid⟩ := List.mem_map.mp hm
        have := below x hx
        simp only at heid
        omega
      · rcases mem x hx with rfl | hx
        · exact Nat.lt_succ_self _
        · exact Nat.lt_succ_of_lt (below x hx)
    case numbers =>
      intro x hx
      rcases mem x hx with rfl | hx
      · exact number hk
      · exact (h.holds .numbers hk : NumbersOk d) x hx
    case rules =>
      obtain ⟨fits, apart⟩ := h.holds .rules hk
      refine ⟨fun a ha => ?_, apart⟩
      obtain ⟨low, high, target, dynamic, free⟩ := fits a ha
      refine ⟨low, high, target, dynamic, fun act => ?_⟩
      rcases free act with open' | hnone
      · exact .inl (List.mem_cons_of_mem _ open')
      · by_cases here : (a.seg, a.number) = e.place
        · exact .inl (here ▸ List.mem_cons_self)
        · refine .inr (Dev.station_none.mpr fun hm => ?_)
          rcases (places _).mp hm with heq | hm
          · exact here heq
          · exact Dev.station_none.mp hnone hm
    case fids => exact h.holds .fids hk
    case printers =>
      obtain ⟨entries, distinct, old⟩ := h.holds .printers hk
      refine ⟨fun k p hp => ?_, distinct, fun x hx => ?_⟩
      · obtain ⟨standing, numbers⟩ := entries k p hp
        refine ⟨?_, numbers⟩
        rw [Dev.station_isSome] at standing ⊢
        exact (places _).mpr (.inr standing)
      · rcases mem x hx with rfl | hx
        · exact ranges hk
        · exact old x hx

theorem Sound.createStation (h : Sound G w d) {e : Station}
    (room : G .stations → d.stations.length < Config.stationMax ∧ d.station e.seg e.number = none)
    (number : G .numbers → 1 ≤ e.number ∧ e.number ≤ 254) (ranges : G .printers → StationRanges e) :
    Sound G w (d.createStation e) := (h.insertStation room number ranges).conflictCheck

/-! ### Entries that leave -/

/-- What `printerAt` says where it finds none. -/
theorem Dev.printerAt_none (h : d.printerAt g n = none) {i : Nat} {p : Printer} (hi : i < 8)
    (hp : d.printer i = some p) : (p.seg, p.number) ≠ (g, n) := by
  intro here
  obtain ⟨hs, hn⟩ := Prod.mk.inj here
  have := List.find?_eq_none.mp h i (List.mem_range.mpr hi)
  simp [hp, hs, hn] at this

theorem mem_removeFirst_place {i : Nat} {e : Station} (ok : StationsOk d) (he : e ∈ d.stations) (hi : e.eid = i) :
    ∀ p, p ∈ (removeFirst (fun x => x.eid == i) d.stations).map Station.place ↔
      p ∈ d.stations.map Station.place ∧ p ≠ e.place := by
  obtain ⟨order, -, names, -⟩ := ok
  have places : (d.stations.map Station.place).Nodup := ascending_nodup order
  subst hi
  intro p
  constructor
  · intro hm
    obtain ⟨x, hx, rfl⟩ := List.mem_map.mp hm
    have stays := mem_of_mem_removeFirst hx
    refine ⟨List.mem_map_of_mem stays, fun heq => ?_⟩
    have : x = e := List.inj_on_of_nodup_map places stays he heq
    exact key_ne_of_mem_removeFirst Station.eid names hx (congrArg Station.eid this)
  · rintro ⟨hm, hne⟩
    obtain ⟨x, hx, rfl⟩ := List.mem_map.mp hm
    refine List.mem_map_of_mem (mem_removeFirst_of_ne hx (beq_eq_false_iff_ne.mpr fun heid => hne ?_))
    exact congrArg _ (List.inj_on_of_nodup_map names hx he heid)

/-- A station entry that no printer names leaves the table (R45, R60). -/
theorem Sound.dropEntry (h : Sound G w d) {e : Station} (he : G .stations → e ∈ d.stations)
    (unnamed : G .printers → d.printerAt e.seg e.number = none) :
    Sound G w { d with stations := removeFirst (fun x => x.eid == e.eid) d.stations } := by
  have sub := removeFirst_sublist (p := fun x : Station => x.eid == e.eid) d.stations
  refine h.update (touches_dropEntry d _) fun k hk hr => ?_
  cases k <;> try exact absurd hr (by decide)
  case stations =>
    obtain ⟨order, len, names, below⟩ := h.holds .stations hk
    exact ⟨order.sublist (sub.map _), sub.length_le.trans len, names.sublist (sub.map _), fun x hx => below x (sub.subset hx)⟩
  case numbers => exact fun x hx => (h.holds .numbers hk : NumbersOk d) x (sub.subset hx)
  case rules =>
    obtain ⟨fits, apart⟩ := h.holds .rules hk
    refine ⟨fun a ha => ?_, apart⟩
    obtain ⟨low, high, target, dynamic, free⟩ := fits a ha
    refine ⟨low, high, target, dynamic, fun act => (free act).imp_right fun hnone => ?_⟩
    rw [Dev.station_none] at hnone ⊢
    exact fun hm => hnone ((sub.map _).subset hm)
  case printers =>
    obtain ⟨entries, distinct, ranges⟩ := h.holds .printers hk
    obtain ⟨places, stations⟩ := h.closed.printers hk
    have length : d.spool.printers.length = Config.printerMax := h.holds .places places
    refine ⟨fun k p hp => ?_, distinct, fun x hx => ranges x (sub.subset hx)⟩
    obtain ⟨standing, numbers⟩ := entries k p hp
    refine ⟨?_, numbers⟩
    rw [Dev.station_isSome] at standing ⊢
    have lt : k < 8 := (Dev.printer_lt hp).trans_eq length
    exact (mem_removeFirst_place (h.holds .stations stations) (he stations) rfl _).mpr
      ⟨standing, Dev.printerAt_none (unnamed hk) lt hp⟩

theorem Sound.removeStation (h : Sound G w d) {e : Station} (he : G .stations → e ∈ d.stations)
    (unnamed : G .printers → d.printerAt e.seg e.number = none) : Sound G w (d.removeStation e) := by
  refine ((((h.dropEntry he unnamed).flushStation e.seg e.number).conflictRelease fun hk => ?_).skipVisits
    e.seg e.eid).endHeldPoll e.seg e.eid
  have stations := (h.closed.rules hk).1
  rw [Dev.station_none, ← touches_flushStation { d with stations := removeFirst (fun x => x.eid == e.eid) d.stations }
    e.seg e.number .stations (by decide)]
  exact fun hm => ((mem_removeFirst_place (h.holds .stations stations) (he stations) rfl _).mp hm).2 rfl

theorem Dev.removeStation_stations (d : Dev) (e : Station) :
    (d.removeStation e).stations = removeFirst (fun x => x.eid == e.eid) d.stations := by
  unfold Dev.removeStation
  rw [← touches_endHeldPoll _ _ _ .stations (by decide), ← touches_skipVisits _ _ _ .stations (by decide),
    ← touches_conflictRelease _ _ _ .stations (by decide), ← touches_flushStation _ _ _ .stations (by decide)]

/-! ### Changes of state -/

theorem Sound.shutOut (h : Sound G w d) (e : Station) (st : StationState) (c : Option QuarantineCause) :
    Sound G w (d.shutOut e st c) := by
  have changed := (h.modStation e.eid (fun e => e.inState st c d.uptime)
    (by intro e; exact ⟨rfl, rfl, id⟩)).flushStation e.seg e.number
  have lost : ∀ p, Sound G w (((d.modStation e.eid fun e => e.inState st c d.uptime).flushStation e.seg
      e.number).makeLost p) := fun p => changed.makeLost p
  have handed : ∀ {x : Dev}, Sound G w x → Sound G w
      (((if st = .absent then x else x.failSource e.seg e.number).skipVisits e.seg e.eid).endHeldPoll e.seg e.eid) := by
    intro x hx
    refine Sound.endHeldPoll (Sound.skipVisits ?_ _ _) _ _
    split
    · exact hx
    · exact hx.failSource _ _
  unfold Dev.shutOut
  dsimp only
  refine handed ?_
  split
  · exact lost _
  · exact changed

theorem Sound.quarantineSuspect (h : Sound G w d) (g : Seg) (n : Nat) : Sound G w (d.quarantineSuspect g n) := by
  unfold Dev.quarantineSuspect
  split
  · split
    · exact h
    · exact (h.shutOut _ _ _).raise _ _
  · exact h

theorem Sound.stationGood (h : Sound G w d) (e : Station) : Sound G w (d.stationGood e) :=
  h.modStation _ _ (by intro e; exact ⟨rfl, rfl, id⟩)

theorem Sound.stationFailed (h : Sound G w d) (e : Station) (c : FailCause) : Sound G w (d.stationFailed e c) := by
  unfold Dev.stationFailed
  dsimp only
  generalize (if c = .jabber then e.jabStrikes + 1 else 0) = strikes
  have missed : ∀ k, Sound G w (d.modStation e.eid fun x => { x with misses := sat255 e.misses, jabStrikes := k }) :=
    fun _ => h.modStation _ _ (by intro e; exact ⟨rfl, rfl, id⟩)
  split
  · split
    · exact missed _
    · exact ((missed _).shutOut _ _ _).raise _ _
  · split
    · split
      · exact (missed _).modStation _ _ (by intro e; exact ⟨rfl, rfl, id⟩)
      · exact missed _
    · split
      · exact ((missed _).shutOut _ _ _).raise _ _
      · exact missed _
    all_goals exact missed _

theorem Sound.quarantineByManager (h : Sound G w d) (e : Station) : Sound G w (d.quarantineByManager e) := by
  unfold Dev.quarantineByManager
  split
  · exact h.modStation _ _ (by intro e; exact ⟨rfl, rfl, id⟩)
  · exact h.shutOut _ _ _

theorem Sound.releaseStation (h : Sound G w d) (e : Station) : Sound G w (d.releaseStation e) :=
  (h.shutOut _ _ _).modStation _ _ (by intro e; exact ⟨rfl, rfl, id⟩)

/-! ### Forgetting and entering -/

theorem Dev.forgettable_unnamed {e : Station} (h : d.forgettable e = true) : d.printerAt e.seg e.number = none := by
  simp only [Dev.forgettable, Bool.and_eq_true, Option.isNone_iff_eq_none] at h
  exact h.2

theorem Dev.forgetPast_unnamed {e : Station} (h : d.forgetPast e = true) : d.printerAt e.seg e.number = none := by
  simp only [Dev.forgetPast, Bool.and_eq_true] at h
  exact Dev.forgettable_unnamed h.1

theorem Sound.forgetAt (h : Sound G w d) (g : Seg) (n : Nat) : Sound G w (d.forgetAt g n) := by
  unfold Dev.forgetAt
  split
  · rename_i e he
    split
    · exact h.removeStation (fun _ => (Dev.station_mem he).1) fun _ => Dev.forgetPast_unnamed ‹_›
    · exact h
  · exact h

theorem Sound.enterStation (h : Sound G w d) {e : Station} (k : EventKind)
    (new : G .stations → d.station e.seg e.number = none) (number : G .numbers → 1 ≤ e.number ∧ e.number ≤ 254)
    (ranges : G .printers → StationRanges e) : Sound G w (d.enterStation e k).1 := by
  unfold Dev.enterStation
  dsimp only
  split
  · rename_i room
    exact ((h.insertStation (fun hk => ⟨room, new hk⟩) number ranges).raise _ _).conflictCheck
  · split
    · rename_i old hold
      obtain ⟨mem, forgettable⟩ := List.mem_filter.mp (mem_of_leastBy hold)
      have gone := h.removeStation (e := old) (fun _ => mem) fun _ => Dev.forgettable_unnamed forgettable
      refine ((gone.insertStation (fun hk => ⟨?_, ?_⟩) number ranges).raise _ _).conflictCheck
      · have ok : StationsOk d := h.holds .stations hk
        have := sum_removeFirst (fun _ => 1) (find?_key (·.eid) ok.2.2.1 mem)
        simp only [List.map_const', List.sum_replicate, smul_eq_mul, mul_one] at this
        rw [Dev.removeStation_stations]
        have := ok.2.1
        omega
      · have none := Dev.station_none.mp (new hk)
        rw [Dev.station_none, Dev.removeStation_stations]
        exact fun hm => none (((removeFirst_sublist _).map _).subset hm)
    · exact h.raise _ _

theorem Sound.clearSentMark (h : Sound G w d) (g : Seg) (n : Nat) : Sound G w (d.clearSentMark g n) := by
  unfold Dev.clearSentMark
  split
  · exact h.modPrinter_same _ (by intro p; exact ⟨rfl, rfl, rfl, rfl, id⟩)
  · exact h

theorem foundClean_kept (now : Nat) : EntryKept fun e => e.foundClean now := by
  intro e
  unfold Station.foundClean
  dsimp only
  split <;> exact ⟨rfl, rfl, id⟩

/-- A new entry has weight 4 and no tap distance (R55, R59). -/
theorem stationRanges_fresh (i : Nat) (g : Seg) (n : Nat) (st : StationState) (o : Origin) :
    StationRanges (Station.fresh i g n st o) :=
  ⟨show 4 ≤ 15 by decide, fun _ hm => Option.noConfusion rfl (heq_of_eq hm)⟩

theorem Sound.applyFound (h : Sound G w d) (g : Seg) {n : Nat} (number : 1 ≤ n ∧ n ≤ 254) :
    Sound G w (d.applyFound g n) := by
  unfold Dev.applyFound
  split
  · have found := h.modStation (‹Station›).eid _ (foundClean_kept d.uptime)
    dsimp only
    split
    · exact found.clearSentMark _ _
    · exact found
  · rename_i hnone
    exact h.enterStation _ (fun _ => hnone) (fun _ => number) fun _ => stationRanges_fresh 0 g n .present .discovered

theorem Sound.applyCandidate (h : Sound G w d) (g : Seg) {n : Nat} (number : G .numbers → 1 ≤ n ∧ n ≤ 254) :
    Sound G w (d.applyCandidate g n).1 := by
  unfold Dev.applyCandidate
  split
  · split
    all_goals try exact h.modStation _ _ (by intro e; exact ⟨rfl, rfl, id⟩)
    all_goals
      dsimp only
      split
      · exact ((h.modStation _ _ (by intro e; exact ⟨rfl, rfl, id⟩)).shutOut _ _ _).raise _ _
      · exact h.modStation _ _ (by intro e; exact ⟨rfl, rfl, id⟩)
  · rename_i hnone
    split
    · exact h.enterStation _ (fun _ => hnone) number fun _ => stationRanges_fresh 0 g n .duplicate .discovered
    · exact h

end Keep

end Sys2Proof.Machine
end

