-- ==== Sys2Proof/Proofs/KeptByLine.lean ====
section
/-! The laws are kept by the Line Monitor and the Line Probe: segment states and the transmit enable, charges and drains,
trips and departures, probes and their pulses (R109 to R144). -/

namespace Sys2Proof.Machine

open Sys2Proof

-- one proof after another: proofs that wait for each other take a thread each
set_option Elab.async false

section Keep

variable {G : Law → Prop} {w : Slack} {d : Dev} {g : Seg}

/-! ### The transmit enable -/

/-- The slack of a segment whose transmit enable is still to be settled. -/
def Slack.unsettling (w : Slack) (g : Seg) : Slack := { w with unsettled := g :: w.unsettled }

/-- A transmit enable may be left to be settled. -/
theorem Sound.unsettle (h : Sound G w d) (g : Seg) : Sound G (w.unsettling g) d :=
  h.reslack fun k _ hold => by
    cases k
    case enable =>
      refine fun s => ⟨(hold s).1, fun on => ?_⟩
      rcases (hold s).2 on with hm | hx | hp | hu
      · exact .inl hm
      · exact .inr (.inl hx)
      · exact .inr (.inr (.inl hp))
      · exact .inr (.inr (.inr (List.mem_cons_of_mem _ hu)))
    all_goals exact hold

/-- The transmit enable of every segment but one is as it was, and that one's is settled. -/
theorem Sound.settleSeg (h : Sound G (w.unsettling g) d) (f : Segment → Segment) {l : List Piece}
    (t : Touches l d (d.modSeg g f))
    (unread : ∀ k : Law, k ≠ .enable → k ≠ .lists → (k.reads.any fun p => l.contains p) = false)
    (downq : (f (d.seg g)).downq = (d.seg g).downq)
    (lists : MonitorLists (d.seg g).mon → MonitorLists (f (d.seg g)).mon)
    (disc : (f (d.seg g)).disc = (d.seg g).disc)
    (settled : ∀ v, EnableSlack v g (f (d.seg g))) : Sound G w (d.modSeg g f) := by
  refine h.updateTo t h.owed (fun k hr hold => ?_) fun k hk hr => ?_
  · cases k
    case enable =>
      intro s
      by_cases hs : s = g
      · subst hs
        rw [Dev.modSeg_seg]
        exact settled w
      · refine ⟨(hold s).1, fun on => ?_⟩
        rcases (hold s).2 on with hm | hx | hp | hu
        · exact .inl hm
        · exact .inr (.inl hx)
        · exact .inr (.inr (.inl hp))
        · exact .inr (.inr (.inr ((List.mem_cons.mp hu).resolve_left hs)))
    all_goals exact hold
  · by_cases he : k = .enable
    · subst he
      have old : ∀ s, EnableSlack (w.unsettling g) s (d.seg s) := h.holds .enable hk
      intro s
      by_cases hs : s = g
      · subst hs
        rw [Dev.modSeg_seg]
        exact settled w
      · rw [Dev.modSeg_seg_other _ _ _ _ hs]
        refine ⟨(old s).1, fun on => ?_⟩
        rcases (old s).2 on with hm | hx | hp | hu
        · exact .inl hm
        · exact .inr (.inl hx)
        · exact .inr (.inr (.inl hp))
        · exact .inr (.inr (.inr ((List.mem_cons.mp hu).resolve_left hs)))
    · by_cases hl : k = .lists
      · subst hl
        obtain ⟨segs, rest⟩ := h.holds .lists hk
        refine ⟨fun s => ?_, rest⟩
        obtain ⟨down, mon, dup⟩ := segs s
        by_cases hs : s = g
        · subst hs
          rw [Dev.modSeg_seg]
          exact ⟨by rwa [downq], lists mon, by rwa [disc]⟩
        · rw [Dev.modSeg_seg_other _ _ _ _ hs]
          exact ⟨down, mon, dup⟩
      · exact absurd hr (by rw [unread k he hl]; exact Bool.false_ne_true)

/-- A settled transmit enable is as R109 and R135 have it. -/
theorem enableSlack_settle (w : Slack) (g : Seg) (s : Segment) : EnableSlack w g s.settleEnable := by
  have pulse : s.settleEnable.probePulse = s.probePulse := rfl
  have flight : s.settleEnable.exchangeInFlight = s.exchangeInFlight := rfl
  have on : s.settleEnable.txEnable =
    (s.mon.state.mediumUsing || s.probePulse || (s.txEnable && s.exchangeInFlight)) := rfl
  have state : s.settleEnable.mon = s.mon := rfl
  rw [EnableSlack, pulse, flight, on, state]
  simp only [Bool.or_eq_true, Bool.and_eq_true]
  tauto

theorem Sound.setSegState (h : Sound G (w.unsettling g) d) (st : SegState) : Sound G w (d.setSegState g st) := by
  refine h.settleSeg _ (touches_setSegState d g st) ?_ rfl id rfl fun v => enableSlack_settle v g _
  intro k he hl
  cases k <;> first | exact absurd rfl he | exact absurd rfl hl | rfl

/-- A change of a segment's state settles its transmit enable. -/
theorem Sound.goTo (h : Sound G w d) (g : Seg) (st : SegState) : Sound G w (d.setSegState g st) :=
  (h.unsettle g).setSegState st

/-- A change of a Line Monitor that keeps its state and its lists within their capacities. -/
theorem Sound.modMon (h : Sound G w d) (g : Seg) (f : Monitor → Monitor)
    (state : (f (d.seg g).mon).state = (d.seg g).mon.state)
    (lists : MonitorLists (d.seg g).mon → MonitorLists (f (d.seg g).mon)) : Sound G w (d.modMon g f) := by
  refine h.update (touches_modMon d g f) fun k hk hr => ?_
  cases k <;> try exact absurd hr (by decide)
  case enable =>
    intro s
    have old : EnableSlack w s (d.seg s) := h.holds .enable hk s
    by_cases hs : s = g
    · subst hs
      rw [Dev.modMon_seg]
      refine ⟨fun inUse => old.1 ?_, fun on => (old.2 on).imp_left fun inUse => ?_⟩
      · rwa [← state]
      · show (f (d.seg s).mon).state.mediumUsing = true
        rwa [state]
    · rwa [Dev.modMon, Dev.modSeg_seg_other _ _ _ _ hs]
  case lists =>
    obtain ⟨segs, rest⟩ := h.holds .lists hk
    refine ⟨fun s => ?_, rest⟩
    obtain ⟨down, mon, dup⟩ := segs s
    by_cases hs : s = g
    · subst hs
      rw [Dev.modMon_seg]
      exact ⟨down, lists mon, dup⟩
    · rw [Dev.modMon, Dev.modSeg_seg_other _ _ _ _ hs]
      exact ⟨down, mon, dup⟩

/-- A change of a Line Probe that ends no pulse out of service. -/
theorem Sound.modProbe_of (h : Sound G w d) (g : Seg) (f : Probe → Probe)
    (pulse : (d.seg g).probePulse = true → (d.seg g).mon.state.mediumUsing = true ∨
      ((f (d.seg g).probe).phase == .shots && (f (d.seg g).probe).capturing) = true) :
    Sound G w (d.modProbe g f) := by
  refine h.update (touches_modProbe d g f) fun k hk hr => ?_
  cases k <;> try exact absurd hr (by decide)
  case enable =>
    intro s
    have old : EnableSlack w s (d.seg s) := h.holds .enable hk s
    by_cases hs : s = g
    · subst hs
      rw [Dev.modProbe_seg]
      refine ⟨old.1, fun on => ?_⟩
      rcases old.2 on with hm | hx | hp | hu
      · exact .inl hm
      · exact .inr (.inl hx)
      · exact (pulse hp).imp_right fun hp => .inr (.inl hp)
      · exact .inr (.inr (.inr hu))
    · rwa [Dev.modProbe, Dev.modSeg_seg_other _ _ _ _ hs]

/-- A change of a Line Probe that ends no pulse. -/
theorem Sound.modProbe (h : Sound G w d) (g : Seg) (f : Probe → Probe)
    (pulse : (d.seg g).probePulse = true → ((f (d.seg g).probe).phase == .shots && (f (d.seg g).probe).capturing) = true) :
    Sound G w (d.modProbe g f) := h.modProbe_of g f fun on => .inr (pulse on)

/-! ### Pulses -/

theorem Sound.endPulse (h : Sound G w d) (g : Seg) : Sound G w (d.modSeg g Segment.endPulse) := by
  refine h.update (touches_endPulse d g) fun k hk hr => ?_
  cases k <;> try exact absurd hr (by decide)
  case enable =>
    intro s
    have old : EnableSlack w s (d.seg s) := h.holds .enable hk s
    by_cases hs : s = g
    · subst hs
      rw [Dev.modSeg_seg]
      have flight : (d.seg s).endPulse.exchangeInFlight = (d.seg s).exchangeInFlight := rfl
      have on : (d.seg s).endPulse.txEnable = if (d.seg s).probePulse then
        (d.seg s).mon.state.mediumUsing || (d.seg s).exchangeInFlight else (d.seg s).txEnable := rfl
      have state : (d.seg s).endPulse.mon = (d.seg s).mon := rfl
      rw [EnableSlack] at old ⊢
      rw [flight, on, state]
      cases hp : (d.seg s).probePulse
      · simp only [hp, Bool.false_eq_true, false_or, if_false] at old ⊢
        exact ⟨old.1, fun h => (old.2 h).imp_right (Or.imp_right Or.inr)⟩
      · simp only [if_true, Bool.or_eq_true]
        tauto
    · rwa [Dev.modSeg_seg_other _ _ _ _ hs]

theorem Sound.launchShot (h : Sound G w d) (phase : (d.seg g).probe.phase = .shots) : Sound G w (d.launchShot g) := by
  refine h.update (touches_launchShot d g) fun k hk hr => ?_
  cases k <;> try exact absurd hr (by decide)
  case enable =>
    intro s
    have old : EnableSlack w s (d.seg s) := h.holds .enable hk s
    by_cases hs : s = g
    · subst hs
      rw [Dev.launchShot, Dev.modSeg_seg]
      refine ⟨fun _ => rfl, fun _ => .inr (.inr (.inl ?_))⟩
      simp [Segment.probePulse, Segment.startPulse, phase]
    · rwa [Dev.launchShot, Dev.modSeg_seg_other _ _ _ _ hs]

/-! ### The beginning of a probe -/

theorem Sound.beginProbe (h : Sound G w d) (onHold : Bool) (silent : (d.seg g).probePulse = false) :
    Sound G w (d.beginProbe g onHold) := h.modProbe g _ fun on => absurd (silent.symm.trans on) Bool.false_ne_true

theorem probePulse_of_phase {s : Segment} (h : s.probe.phase ≠ .shots) : s.probePulse = false := by
  simp [Segment.probePulse, h]

theorem Sound.requestProbe (h : Sound G w d) (g : Seg) (t : Trigger) : Sound G w (d.requestProbe g t) := by
  unfold Dev.requestProbe
  split
  · rename_i idle
    have idle : (d.seg g).probe.phase = .idle := by simpa using idle
    refine (h.modProbe g (fun p => { p with trigger := t }) fun on => ?_).beginProbe _ (probePulse_of_phase ?_)
    · rw [probePulse_of_phase (by simp [idle])] at on
      exact absurd on Bool.false_ne_true
    · rw [Dev.modProbe_seg]
      simp [idle]
  · exact h.modProbe g _ id

theorem Sound.enterStarting (h : Sound G (w.unsettling g) d) : Sound G w (d.enterStarting g) :=
  (h.setSegState .starting).requestProbe g .start

/-! ### Departure from service -/

theorem Scheduler.depart_turn (s : Scheduler) (h : turnInFlight s.turn = true) : turnInFlight s.depart.turn = true := by
  unfold Scheduler.depart
  dsimp only
  split
  · rename_i held
    rw [held] at h
    exact absurd h Bool.false_ne_true
  · exact h

theorem Sound.losePrinters (h : Sound G w d) (g : Seg) : Sound G w (d.losePrinters g) := by
  refine Sound.fold (fun d i h => ?_) _ h
  split
  · split
    · exact h.makeLost _
    · exact h
  · exact h

theorem Sound.probeDeparts (h : Sound G w d) (g : Seg) : Sound G w (d.probeDeparts g) := by
  unfold Dev.probeDeparts
  split
  · rename_i waiting
    exact h.beginProbe _ (probePulse_of_phase (by simp [waiting]))
  · exact h.modProbe g _ id

theorem Sound.depart (h : Sound G w d) (g : Seg) : Sound G w (d.depart g) :=
  ((((((h.modSched g Scheduler.depart (Scheduler.depart_turn _)).flushQueue g).modDisc g
    (fun x => { x with pass := .idle, intervalTimer := none, run := none }) (.inl (Nat.le_refl _))).losePrinters
      g).failSegmentSources g)).probeDeparts g

/-! ### Trips -/

theorem Sound.enterCooling (h : Sound G w d) (g : Seg) : Sound G w (d.enterCooling g) :=
  (h.goTo g .cooling).modMon g _ rfl id

theorem Sound.recordTrip (h : Sound G w d) (g : Seg) (f : TripFrom) (t : WentTo) : Sound G w (d.recordTrip g f t) := by
  unfold Dev.recordTrip
  split
  · refine h.modMon g _ rfl fun lists => ⟨lists.1, fun r hr => ?_⟩
    obtain rfl := Option.some.inj hr
    exact lists.1
  · rename_i r hr
    refine h.modMon g _ rfl fun lists => ⟨lists.1, fun q hq => ?_⟩
    obtain rfl := Option.some.inj hq
    exact lists.2 r hr

theorem Sound.trip (h : Sound G w d) (g : Seg) (f : TripFrom) : Sound G w (d.trip g f) := by
  unfold Dev.trip
  have counted : Sound G w (d.modMon g fun m => { m with attempts := sat255 m.attempts, trialTimer := none }) :=
    h.modMon g _ rfl id
  dsimp only
  split
  · exact ((((counted.enterCooling g).raise _ _).countSeg _ _).recordTrip _ _ _).depart g
  · exact (((((counted.goTo g .latched).raise _ _).raise _ _).countSeg _ _).recordTrip _ _ _).depart g

/-! ### Strain -/

theorem Sound.suspectAnalysis (h : Sound G w d) (g : Seg) : Sound G w (d.suspectAnalysis g) := by
  unfold Dev.suspectAnalysis
  split
  · exact h
  · split
    · exact h
    · split
      · exact h
      · exact (h.modMon g _ rfl id).quarantineSuspect _ _

theorem Sound.becomeStrained (h : Sound G w d) (g : Seg) : Sound G w (d.becomeStrained g) := by
  have strained := (h.goTo g .strained).raise .segWarn (.segment g)
  unfold Dev.becomeStrained
  dsimp only
  split
  · exact (strained.withdrawHold _ _).suspectAnalysis g
  · exact strained.suspectAnalysis g

theorem Sound.becomeRelieved (h : Sound G w d) (g : Seg) : Sound G w (d.becomeRelieved g) := by
  have relieved := (h.goTo g .active).raise .segRelieved (.segment g)
  unfold Dev.becomeRelieved
  dsimp only
  split
  · exact relieved.askHold _ _
  · exact relieved

theorem Sound.testThresholds (h : Sound G w d) (g : Seg) (drained : Bool) : Sound G w (d.testThresholds g drained) := by
  unfold Dev.testThresholds
  dsimp only
  split
  · split
    · exact h.trip _ _
    · split
      · exact h.becomeStrained g
      · exact h
  · split
    · exact h.trip _ _
    · split
      · exact h.becomeRelieved g
      · exact h
  · split
    · exact h.trip _ _
    · exact h
  all_goals exact h

theorem length_addFailure_le {l : List Failure} (f : Failure) (h : l.length ≤ Config.recentMax) :
    (addFailure l f).length ≤ Config.recentMax := by
  unfold addFailure
  split
  · rw [List.length_append, List.length_singleton]
    omega
  · rw [List.length_append, List.length_singleton, List.length_drop]
    simp only [Config.recentMax] at *
    omega

theorem Sound.charge (h : Sound G w d) (g : Seg) (c : FailCause) (n : Nat) : Sound G w (d.charge g c n) :=
  (h.modMon g _ rfl fun lists => ⟨length_addFailure_le _ lists.1, lists.2⟩).testThresholds g false

theorem Sound.drain (h : Sound G w d) (g : Seg) : Sound G w (d.drain g) := (h.modMon g _ rfl id).testThresholds g true

theorem Sound.report (h : Sound G w d) (g : Seg) (o : ExOutcome) (n : Nat) (slow : Bool) :
    Sound G w (d.report g o n slow) := by
  unfold Dev.report
  split
  · exact h
  · split
    · exact h.drain g
    · split
      · exact h
      · exact h.charge _ _ _

/-! ### Probe results -/

theorem Sound.startProbeResult (h : Sound G w d) (g : Seg) (passed : Bool) :
    Sound G w (d.startProbeResult g passed) := by
  unfold Dev.startProbeResult
  split
  · exact (((h.modMon g (fun m => { m with strain := 0, run := 0 }) rfl id).goTo g .active).startCycle g).passDue g
  · have counted : Sound G w (d.modMon g fun m => { m with attempts := 1 }) := h.modMon g _ rfl id
    dsimp only
    split
    · exact (counted.goTo g .latched).raise _ _
    · exact counted.enterCooling g

theorem Sound.retryProbeResult (h : Sound G w d) (g : Seg) (passed : Bool) :
    Sound G w (d.retryProbeResult g passed) := by
  unfold Dev.retryProbeResult
  split
  · exact (((h.modMon g _ rfl id).goTo g .trial).startCycle g).startInterval g
  · have counted : Sound G w (d.modMon g fun m => { m with attempts := sat255 m.attempts }) := h.modMon g _ rfl id
    dsimp only
    split
    · exact counted.enterCooling g
    · exact (counted.goTo g .latched).raise _ _

theorem Sound.probeResult (h : Sound G w d) (g : Seg) (t : Trigger) (passed : Bool) :
    Sound G w (d.probeResult g t passed) := by
  unfold Dev.probeResult
  split
  · exact h.startProbeResult g passed
  · exact h.retryProbeResult g passed
  · exact h

theorem Sound.completeProbe (h : Sound G w d) (g : Seg) (r : ProbeRecord) : Sound G w (d.completeProbe g r) := by
  have silent : ∀ {e : Dev}, Sound G w e → Sound G w ((e.modSeg g Segment.endPulse).modProbe g fun p =>
      { p with phase := .idle, onHold := false }) ∧
      (((e.modSeg g Segment.endPulse).modProbe g fun p => { p with phase := .idle, onHold := false }).seg
        g).probe.phase = .idle := by
    intro e he
    refine ⟨(he.endPulse g).modProbe g _ fun on => ?_, by rw [Dev.modProbe_seg]⟩
    rw [Dev.modSeg_seg, Segment.endPulse_probePulse] at on
    exact absurd on Bool.false_ne_true
  have resumed : ∀ {e : Dev}, Sound G w e → (e.seg g).probe.phase = .idle → Sound G w
      (match (e.seg g).probe.waitingReq with
        | some t => (e.modProbe g fun p => { p with trigger := t, waitingReq := none }).beginProbe g false
        | none => e) := by
    intro e he idle
    split
    · refine (he.modProbe g _ id).beginProbe _ (probePulse_of_phase ?_)
      rw [Dev.modProbe_seg]
      simp [idle]
    · exact he
  have released : ∀ {e : Dev} (held : Bool), Sound G w e → (e.seg g).probe.phase = .idle →
      Sound G w (if held then e.endHold g .probe else e) ∧
        ((if held then e.endHold g .probe else e).seg g).probe.phase = .idle := by
    intro e held he idle
    split
    · refine ⟨he.endHold g .probe, ?_⟩
      rw [← touches_endHold e g .probe .probe (by decide) g]
      exact idle
    · exact ⟨he, idle⟩
  have written : Sound G w ((d.modProbe g fun p => { p with last := some r }).raise .probeDone (.segment g)) :=
    (h.modProbe g _ id).raise _ _
  have handed : Sound G w (if r.outcome = .aborted then
      (d.modProbe g fun p => { p with last := some r }).raise .probeDone (.segment g)
      else ((d.modProbe g fun p => { p with last := some r }).raise .probeDone (.segment g)).probeResult g r.trigger
        (r.outcome == .pass)) := by
    split
    · exact written
    · exact written.probeResult _ _ _
  unfold Dev.completeProbe
  obtain ⟨quiet, idle⟩ := silent handed
  obtain ⟨free, idle⟩ := released _ quiet idle
  exact resumed free idle

theorem Sound.abortProbe (h : Sound G w d) (g : Seg) : Sound G w (d.abortProbe g) := by
  have cleared : Sound G w (d.modProbe g fun p => { p with waitingReq := none }) := h.modProbe g _ id
  unfold Dev.abortProbe
  dsimp only
  split
  · exact cleared
  · exact cleared.completeProbe _ _

theorem Sound.recordShot (h : Sound G w d) (g : Seg) (s : Shot) : Sound G w (d.recordShot g s) := by
  have recorded : Sound G w ((d.modSeg g Segment.endPulse).modProbe g fun p => { p with shots := p.shots ++ [s] }) :=
    (h.endPulse g).modProbe g _ id
  unfold Dev.recordShot
  dsimp only
  split
  · exact recorded.completeProbe _ _
  · exact recorded

/-! ### The steps of a probe -/

theorem Sound.elapse (h : Sound G w d) (t : Nat) : Sound G w (d.elapse t) := h.quiet (touches_elapse d t)

theorem Sound.reach (h : Sound G w d) (t : Nat) : Sound G w (d.reach t) := h.quiet (touches_reach d t)

theorem Sound.quietStretch (h : Sound G w d) (g : Seg) : Sound G w (d.quietStretch g) := by
  unfold Dev.quietStretch
  dsimp only
  split
  · rename_i due
    simp only [Bool.and_eq_true, beq_iff_eq] at due
    refine (h.reach _).modProbe g _ fun on => ?_
    have silent : (d.seg g).probePulse = false := probePulse_of_phase (by simp [due.1])
    exact absurd (silent.symm.trans on) Bool.false_ne_true
  · exact h

theorem Sound.quietStretchBroken (h : Sound G w d) (g : Seg) : Sound G w (d.quietStretchBroken g) := by
  unfold Dev.quietStretchBroken
  split
  · exact h.modProbe g _ id
  · exact h

theorem Sound.jabberLine (h : Sound G w d) (g : Seg) : Sound G w (d.jabberLine g) := by
  unfold Dev.jabberLine
  dsimp only
  split
  · exact (h.reach _).completeProbe _ _
  · exact h

theorem Sound.dcMeasurement (h : Sound G w d) (g : Seg) (code : Nat) : Sound G w (d.dcMeasurement g code) := by
  unfold Dev.dcMeasurement
  split
  · rename_i phase
    have silent : (d.seg g).probePulse = false := probePulse_of_phase (by
      have := beq_iff_eq.mp phase
      simp [this])
    refine (h.modProbe g _ fun on => absurd (silent.symm.trans on) Bool.false_ne_true).launchShot ?_
    rw [Dev.modProbe_seg]
  · exact h

theorem Sound.shotFire (h : Sound G w d) (g : Seg) : Sound G w (d.shotFire g) := by
  unfold Dev.shotFire
  dsimp only
  split
  · rename_i due
    simp only [Bool.and_eq_true, beq_iff_eq] at due
    exact (h.reach _).launchShot due.1.1
  · exact h

theorem Sound.shotEcho (h : Sound G w d) (g : Seg) (count : Nat) (q : Polarity) : Sound G w (d.shotEcho g count q) := by
  unfold Dev.shotEcho
  dsimp only
  split
  · exact (h.reach _).recordShot _ _
  · exact h

theorem Sound.shotNone (h : Sound G w d) (g : Seg) : Sound G w (d.shotNone g) := by
  unfold Dev.shotNone
  dsimp only
  split
  · exact (h.reach _).recordShot _ _
  · exact h

end Keep

end Sys2Proof.Machine
end

