-- ==== Sys2Proof/Proofs/KeptByForwarding.lean ====
section
/-! The laws are kept by the resolution of destinations and the taking of frames (R67 to R70, R89 to R91). -/

namespace Sys2Proof.Machine

open Sys2Proof

-- one proof after another: proofs that wait for each other take a thread each
set_option Elab.async false

section Keep

variable {G : Law → Prop} {w : Slack} {d : Dev} {g : Seg}

/-! ### The uplink queue -/

/-- A change of the uplink queue, the blocks that leave it being owed. -/
theorem Sound.setUpQueue (h : Sound G w d) (f : Uplink → Uplink) (t : Int)
    (len : G .lists → (f d.up).queue.length ≤ d.up.queue.length ∨ (f d.up).queue.length ≤ Config.uplinkQueueMax)
    (blocks : G .pool → t = w.transit + (upBlocks d.up.queue - upBlocks (f d.up).queue) ∧ 0 ≤ t)
    (pause : (f d.up).pauseOn = d.up.pauseOn)
    (uplink : G .uplink → UplinkSlack w d.up → UplinkSlack w (f d.up)) :
    Sound G (w.owing t w.spool) (d.modUp f) := by
  refine h.updateTo (l := [.link, .hold, .upQueue, .transmit, .pauseState]) ?_ (fun hk => ⟨(blocks hk).2, (h.owed hk).2⟩)
    (fun k hr hold => ?_) fun k hk hr => ?_
  · intro p hp; cases p <;> first | exact absurd (Piece.mem_of rfl) hp | simp [Piece.same]
  · cases k <;> first | exact absurd hr (by decide) | exact hold
  · cases k <;> try exact absurd hr (by decide)
    case pool =>
      obtain ⟨total, transit, spool⟩ := h.holds .pool hk
      obtain ⟨ht, -⟩ := blocks hk
      refine ⟨total, ?_, spool⟩
      simp only [Slack.owing, Dev.modUp_pool, Dev.modUp_up, Dev.modUp_seg, ht]
      omega
    case pause =>
      have hold := h.holds .pause hk
      simpa only [Law.Holds, PauseOk, Dev.modUp_up, Dev.modUp_pool, Dev.modUp_set, pause, Slack.owing] using hold
    case uplink => exact uplink hk (h.holds .uplink hk)
    case lists =>
      obtain ⟨hs, hl, hrest⟩ := h.holds .lists hk
      exact ⟨hs, by rcases len hk with hq | hq <;> simp only [Dev.modUp_up] <;> omega, hrest⟩

theorem upBlocks_append (l : List UpFrame) (f : UpFrame) : upBlocks (l ++ [f]) = upBlocks l + f.blocks.length := by
  simp [upBlocks]

/-- A frame joins the uplink queue, for blocks granted already. -/
theorem Sound.appendUp (h : Sound G w d) {f : UpFrame} (link : G .uplink → d.up.link = true)
    (room : G .lists → d.up.queue.length < Config.uplinkQueueMax) (granted : G .pool → (f.blocks.length : Int) ≤ w.transit) :
    Sound G (w.owing (w.transit - f.blocks.length) w.spool) (d.modUp fun u => { u with queue := u.queue ++ [f] }) := by
  refine h.setUpQueue _ _ (fun hk => .inr ?_) (fun hk => ?_) rfl fun hk ⟨down, busy, leaving⟩ =>
    ⟨fun off => ?_, fun _ _ => .inr (by simp), leaving⟩
  · have := room hk
    simp only [List.length_append, List.length_singleton]
    omega
  · have := granted hk
    rw [upBlocks_append]
    omega
  · exact absurd ((link hk).symm.trans off) (by decide)

/-- A frame without blocks joins the uplink queue. -/
theorem Sound.placeUp_free (h : Sound G w d) {f : UpFrame} (none : f.blocks = [])
    (link : G .uplink → d.up.link = true) (room : G .lists → d.up.queue.length < Config.uplinkQueueMax) :
    Sound G w (d.placeUp f) := by
  refine Sound.startTx (Sound.repay (h.appendUp (f := f) link room fun hk => ?_) fun _ => ⟨?_, rfl⟩)
  · have := h.owed hk
    simp only [none, List.length_nil]
    omega
  · simp only [none, List.length_nil]
    omega

theorem Sound.queueUp (h : Sound G w d) {f : UpFrame} (link : d.up.link = true)
    (room : d.up.queue.length < Config.uplinkQueueMax) (enough : f.blocks.length ≤ d.pool.free) :
    Sound G w (d.queueUp f) := by
  refine Sound.startTx (h.takeTransit_for enough fun held => ?_)
  refine Sound.repay (t := w.transit + f.blocks.length - f.blocks.length) (s := w.spool)
    (held.appendUp (f := f) (fun _ => link) (fun _ => room) fun hk => ?_) fun _ => ⟨Int.add_sub_cancel _ _, rfl⟩
  have := h.owed hk
  show (f.blocks.length : Int) ≤ w.transit + f.blocks.length
  omega

/-! ### Resolution -/

/-- What R65 asks of the party an ALIAS entry is made for. -/
def SourceOk (base : Addr) : Source → Prop
  | .coax _ n => 1 ≤ n ∧ n ≤ 254
  | .ethernet a => individual a = true ∧ inProxyRange base a = false

theorem Sound.settleFrom (h : Sound G w d) (k : Seg) {src : Source} (ok : G .rules → SourceOk d.set.base src) :
    Sound G w (d.settleFrom k src).1 := by
  cases src with
  | coax s n =>
    unfold Dev.settleFrom
    dsimp only
    split
    · exact h
    · rename_i other
      refine h.fromNumber fun hk => ?_
      have := ok hk
      simpa [targetOk, other, stationNumber, SourceOk] using this
  | ethernet a =>
    refine h.fromNumber fun hk => ?_
    have := ok hk
    simpa [targetOk, SourceOk] using this

theorem Sound.toStation (h : Sound G w d) (k : Seg) (n : Nat) {src : Source}
    (ok : G .rules → SourceOk d.set.base src) : Sound G w (d.toStation k n src).1 := by
  have settled := h.settleFrom k ok
  unfold Dev.toStation
  split
  · exact h
  · split
    all_goals try exact h
    all_goals
      split
      · exact h
      · split
        · exact h
        · split
          · rename_i heq
            rw [heq] at settled
            exact settled
          · rename_i heq
            rw [heq] at settled
            exact settled

/-- The queue that a copy joins. -/
def Copy.place : Copy → Option Seg
  | .down k _ => some k
  | .up _ => none

/-- Copies for queues of their own, one for the uplink only where its link is UP. -/
def CopiesOk (G : Law → Prop) (d : Dev) (l : List Copy) : Prop :=
  (G .lists → (l.map Copy.place).Nodup) ∧ ∀ a, Copy.up a ∈ l → d.up.link = true

/-- What is asked of the result of a resolution. -/
def ResultOk (G : Law → Prop) (d : Dev) : Resolved → Prop
  | .broadcast l => CopiesOk G d l
  | .relay _ _ _ | .carrier _ _ | .spool _ _ _ | .discard _ => True

theorem reachCopies_place (d : Dev) (r : Reach) : (d.reachCopies r).map Copy.place =
    (allSegs.filter fun k => r.segs.get k && d.inService k).map some := by
  simp [Dev.reachCopies, Copy.place, Function.comp_def]

theorem reachCopies_ok (d : Dev) (r : Reach) : CopiesOk G d (d.reachCopies r) := by
  refine ⟨fun _ => ?_, fun a ha => ?_⟩
  · rw [reachCopies_place]
    exact (List.Nodup.sublist List.filter_sublist (by decide)).map (Option.some_injective _)
  · obtain ⟨k, -, hk⟩ := List.mem_map.mp ha
    exact Copy.noConfusion hk

theorem Sound.broadcastList_ok (h : Sound G w d) (g : Seg) (n : Nat) : CopiesOk G d (d.broadcastList g n) := by
  unfold Dev.broadcastList
  refine ⟨fun hk => ?_, fun a ha => ?_⟩
  · have ok : SettingsOk d := h.holds .settings (h.closed.lists hk)
    have own : (d.seg g).cfg.reach.segs.get g = false := by
      have := (ok.2.2 g).2
      simp only [SegSettings.sound, Bool.and_eq_true, Bool.not_eq_true'] at this
      obtain ⟨⟨⟨⟨⟨-, own⟩, -⟩, -⟩, -⟩, -⟩ := this
      exact own
    dsimp only
    rw [List.cons_append, List.map_cons, List.map_append, reachCopies_place, List.nodup_cons, List.nodup_append,
      List.mem_append]
    refine ⟨?_, (List.Nodup.sublist List.filter_sublist (by decide)).map (Option.some_injective _), ?_, ?_⟩
    · rintro (hm | hm)
      · obtain ⟨k, hk, heq⟩ := List.mem_map.mp hm
        obtain rfl : k = g := Option.some.inj heq
        have := (List.mem_filter.mp hk).2
        simp [own] at this
      · split at hm
        · exact absurd hm (by simp [Copy.place])
        · exact absurd hm List.not_mem_nil
    · split <;> simp
    · rintro x hx y hy rfl
      obtain ⟨k, -, rfl⟩ := List.mem_map.mp hx
      split at hy
      · exact absurd hy (by simp [Copy.place])
      · exact absurd hy List.not_mem_nil
  · dsimp only at ha
    rw [List.cons_append, List.mem_cons, List.mem_append] at ha
    rcases ha with ha | ha | ha
    · exact Copy.noConfusion ha
    · obtain ⟨k, -, hk⟩ := List.mem_map.mp ha
      exact Copy.noConfusion hk
    · split at ha
      · rename_i link
        simp only [Bool.and_eq_true] at link
        exact link.2
      · exact absurd ha List.not_mem_nil

theorem toStation_result (d e : Dev) (k : Seg) (n : Nat) (src : Source) : ResultOk G e (d.toStation k n src).2 := by
  unfold Dev.toStation
  split
  · trivial
  · split
    all_goals try trivial
    all_goals
      split
      · trivial
      · split
        · trivial
        · split <;> trivial

theorem Sound.resolveCoax (h : Sound G w d) (g : Seg) {n : Nat} (dest : Nat) (number : G .rules → 1 ≤ n ∧ n ≤ 254) :
    Sound G w (d.resolveCoax g n dest).1 ∧ ResultOk G (d.resolveCoax g n dest).1 (d.resolveCoax g n dest).2 := by
  unfold Dev.resolveCoax
  split
  · exact ⟨h, trivial⟩
  · split
    · exact ⟨h, h.broadcastList_ok g n⟩
    · split
      · exact ⟨h.toStation _ _ number, toStation_result _ _ _ _ _⟩
      · split
        · split
          · have used := h.useAlias g dest
            dsimp only
            split
            · exact ⟨used, trivial⟩
            · exact ⟨used.toStation _ _ number, toStation_result _ _ _ _ _⟩
          · exact ⟨h, trivial⟩
        · exact ⟨h, trivial⟩

/-! ### Broadcast lists -/

theorem Sound.countWithheld (h : Sound G w d) (c : Copy) : Sound G w (d.countWithheld c) := by
  cases c
  · exact h.dropSeg _ _
  · exact h

theorem Dev.countWithheld_link (d : Dev) (c : Copy) : (d.countWithheld c).up.link = d.up.link := by
  cases c with
  | down k _ => exact (touches_dropSeg d k .broadcastWithheld .link (by decide)).1.symm
  | up _ => rfl

theorem foldl_countWithheld_link (l : List Copy) : ∀ d : Dev, (l.foldl Dev.countWithheld d).up.link = d.up.link := by
  induction l with
  | nil => intro d; rfl
  | cons c l ih => intro d; exact (ih _).trans (d.countWithheld_link c)

variable {m : Mark} {payload : List Byte}

theorem placeCopy_pool (d : Dev) (c : Copy) (q : Pool) :
    Dev.placeCopy m payload { d with pool := q } c = { Dev.placeCopy m payload d c with pool := q } ∧
      (Dev.placeCopy m payload d c).pool = d.pool := by
  cases c <;> exact ⟨rfl, rfl⟩

theorem foldl_placeCopy_pool (q : Pool) (l : List Copy) : ∀ d : Dev,
    l.foldl (Dev.placeCopy m payload) { d with pool := q } =
      { l.foldl (Dev.placeCopy m payload) d with pool := q } ∧ (l.foldl (Dev.placeCopy m payload) d).pool = d.pool := by
  induction l with
  | nil => intro d; exact ⟨rfl, rfl⟩
  | cons c l ih =>
    intro d
    obtain ⟨commute, same⟩ := placeCopy_pool (m := m) (payload := payload) d c q
    rw [List.foldl_cons, List.foldl_cons, commute]
    exact ⟨(ih _).1, (ih _).2.trans same⟩

/-- A copy does not fill another's queue. -/
theorem placeCopy_copyBlocked {c x : Copy} (hne : c.place ≠ x.place) :
    (Dev.placeCopy m payload d c).copyBlocked x = d.copyBlocked x := by
  cases c with
  | down k n =>
    cases x with
    | down l o =>
      have hlk : l ≠ k := fun heq => hne (congrArg some heq.symm)
      have same : ((d.placeDown k 255 n m payload).seg l).downq = (d.seg l).downq :=
        congrArg Segment.downq (Dev.modSeg_seg_other d k l (fun s => { s with
          downq := s.downq ++ [⟨d.nextFid, 255, n, m, transitBlocks payload, d.clock, 0, 0, false⟩] }) hlk)
      exact congrArg (fun q : List DownFrame => decide (Config.downQueueMax ≤ q.length)) same
    | up _ => rfl
  | up _ =>
    cases x with
    | down l o => rfl
    | up _ => exact absurd rfl hne

theorem Sound.placeCopy (h : Sound G w d) {c : Copy} (room : G .lists → d.copyBlocked c = false)
    (link : ∀ a, c = .up a → d.up.link = true) (granted : G .pool → (transitNeed payload.length : Int) ≤ w.transit) :
    Sound G (w.owing (w.transit - transitNeed payload.length) w.spool) (Dev.placeCopy m payload d c) := by
  cases c with
  | down k n =>
    refine h.placeDown _ _ _ _ (fun hk => ?_) granted
    have := room hk
    simpa [Dev.copyBlocked, Dev.downFull] using this
  | up a =>
    have size : (d.carrierData broadcastAddr a m payload).blocks.length = transitNeed payload.length :=
      length_transitBlocks payload
    refine size ▸ h.appendUp (f := d.carrierData broadcastAddr a m payload) (fun _ => link a rfl) (fun hk => ?_) ?_
    · have := room hk
      simpa [Dev.copyBlocked, Dev.upFull] using this
    · rwa [size]

theorem Dev.placeCopy_link (d : Dev) (c : Copy) : (Dev.placeCopy m payload d c).up.link = d.up.link := by
  cases c <;> rfl

/-- The copies of a list take their places one after another. -/
theorem Sound.placeCopies : ∀ (l : List Copy) {w : Slack} {d : Dev}, Sound G w d → CopiesOk G d l →
    (G .lists → ∀ c ∈ l, d.copyBlocked c = false) →
    (G .pool → (l.length * transitNeed payload.length : Nat) ≤ w.transit) →
    Sound G (w.owing (w.transit - (l.length * transitNeed payload.length : Nat)) w.spool)
      (l.foldl (Dev.placeCopy m payload) d)
  | [], w, d, h, _, _, _ => h.reslack (fun k _ hold => by
      cases k
      case pool =>
        obtain ⟨total, transit, spool⟩ := hold
        exact ⟨total, transit.trans (by simp [Slack.owing]), spool⟩
      all_goals exact hold) fun hk => by
        have := h.owed hk
        simpa [Slack.owing] using this
  | c :: l, w, d, h, ok, room, granted => by
    obtain ⟨apart, link⟩ := ok
    have size : (c :: l).length * transitNeed payload.length =
        transitNeed payload.length + l.length * transitNeed payload.length := by
      rw [List.length_cons, Nat.add_mul, Nat.one_mul, Nat.add_comm]
    have one := h.placeCopy (m := m) (payload := payload) (c := c) (fun hk => room hk c List.mem_cons_self)
      (fun a hc => link a (hc ▸ List.mem_cons_self)) fun hk => by
        have := granted hk
        rw [size] at this
        omega
    have rest := Sound.placeCopies l one ⟨fun hk => (List.nodup_cons.mp (apart hk)).2, fun a ha => ?_⟩
      (fun hk x hx => ?_) fun hk => ?_
    · refine Sound.reslack rest (fun k hk hold => ?_) fun hk => ?_
      · cases k
        case pool =>
          obtain ⟨total, transit, spool⟩ := hold
          refine ⟨total, transit.trans ?_, spool⟩
          simp only [Slack.owing, size]
          omega
        all_goals exact hold
      · have := granted hk
        have := h.owed hk
        simp only [Slack.owing]
        omega
    · rw [Dev.placeCopy_link]
      exact link a (List.mem_cons_of_mem _ ha)
    · rw [placeCopy_copyBlocked]
      · exact room hk x (List.mem_cons_of_mem _ hx)
      · exact fun heq => (List.nodup_cons.mp (apart hk)).1 (heq ▸ List.mem_map_of_mem hx)
    · have := granted hk
      rw [size] at this
      simp only [Slack.owing]
      omega

theorem Sound.takeList (h : Sound G w d) {l : List Copy} (ok : CopiesOk G d l) (m : Mark) (payload : List Byte)
    {may : Dev → Nat → Bool} (enough : ∀ d n, may d n = true → n ≤ d.pool.free) :
    Sound G w (d.takeList l m payload may).1 := by
  have counted : Sound G w ((l.filter d.copyWithheld).foldl Dev.countWithheld d) :=
    Sound.fold (fun _ c h => h.countWithheld c) _ h
  have link := foldl_countWithheld_link (l.filter d.copyWithheld) d
  have sub : (l.filter fun c => !d.copyWithheld c).Sublist l := List.filter_sublist
  have here : CopiesOk G ((l.filter d.copyWithheld).foldl Dev.countWithheld d) (l.filter fun c => !d.copyWithheld c) :=
    ⟨fun hk => (ok.1 hk).sublist (sub.map _), fun a ha => link.trans (ok.2 a (sub.subset ha))⟩
  unfold Dev.takeList
  dsimp only
  generalize (l.filter d.copyWithheld).foldl Dev.countWithheld d = e at *
  generalize (l.filter fun c => !d.copyWithheld c) = rest at *
  split
  · exact counted
  · split
    · exact counted
    · rename_i unblocked
      split
      · exact counted
      · rename_i granted
        have granted : may e (rest.length * transitNeed payload.length) = true := by simpa using granted
        refine Sound.startTx (counted.takeTransit_for (enough _ _ granted) fun held => ?_)
        obtain ⟨commute, same⟩ := foldl_placeCopy_pool (m := m) (payload := payload)
          ⟨e.pool.free - rest.length * transitNeed payload.length,
            e.pool.transit + rest.length * transitNeed payload.length, e.pool.spool⟩ rest e
        rw [same, ← commute]
        refine Sound.repay (held.placeCopies (m := m) (payload := payload) rest here (fun _ c hc => ?_) fun hk => ?_)
          fun _ => ⟨Int.add_sub_cancel _ _, rfl⟩
        · have free : e.copyBlocked c = false := by
            have := List.any_eq_false.mp (by simpa using unblocked) c hc
            simpa using this
          cases c <;> exact free
        · have := counted.owed hk
          show ((rest.length * transitNeed payload.length : Nat) : Int) ≤
            w.transit + (rest.length * transitNeed payload.length : Nat)
          omega

theorem coaxTransitOk_enough (d : Dev) (n : Nat) (h : d.coaxTransitOk n = true) : n ≤ d.pool.free := by
  simp only [Dev.coaxTransitOk, decide_eq_true_eq] at h
  omega

theorem etherTransitOk_enough (d : Dev) (n : Nat) (h : d.etherTransitOk n = true) : n ≤ d.pool.free := by
  simpa [Dev.etherTransitOk] using h

/-! ### Taking -/

theorem downFull_room {k : Seg} (h : ¬ d.downFull k = true) : (d.seg k).downq.length < Config.downQueueMax := by
  simpa [Dev.downFull] using h

theorem upFull_room (h : ¬ d.upFull = true) : d.up.queue.length < Config.uplinkQueueMax := by
  simpa [Dev.upFull] using h

theorem Sound.takeCoax (h : Sound G w d) {r : Resolved} (ok : ResultOk G d r) (m : Mark) (payload : List Byte) :
    Sound G w (d.takeCoax r m payload).1 := by
  cases r with
  | relay k n f =>
    unfold Dev.takeCoax
    dsimp only
    split
    · exact h
    · split
      · exact h.queueDown _ _ _ _ (downFull_room ‹_›) (coaxTransitOk_enough _ _ ‹_›)
      · exact h
  | broadcast l =>
    have taken := h.takeList ok m payload coaxTransitOk_enough
    unfold Dev.takeCoax
    dsimp only
    split
    · rename_i heq
      rw [heq] at taken
      exact taken
    · rename_i heq
      rw [heq] at taken
      exact taken
  | carrier dst src =>
    unfold Dev.takeCoax
    dsimp only
    split
    · exact h
    · split
      · exact h
      · split
        · rename_i link full granted
          refine h.queueUp (by simpa using link) (upFull_room full) ?_
          exact (length_transitBlocks payload).trans_le (coaxTransitOk_enough _ _ granted)
        · exact h
  | spool k n src => exact h.takeUnit _ _ _ _ _
  | discard c => exact h

theorem Sound.forwardCoax (h : Sound G w d) (g : Seg) {n : Nat} (dest : Nat) (m : Mark) (payload : List Byte)
    (number : G .rules → 1 ≤ n ∧ n ≤ 254) : Sound G w (d.forwardCoax g n dest m payload).1 := by
  obtain ⟨resolved, ok⟩ := h.resolveCoax g dest number
  exact resolved.takeCoax ok m payload

theorem Sound.resolveCarrier (h : Sound G w d) (src dst : Addr) : Sound G w (d.resolveCarrier src dst).1 ∧
    ∀ r, (d.resolveCarrier src dst).2 = some r → ResultOk G (d.resolveCarrier src dst).1 r := by
  unfold Dev.resolveCarrier
  split
  · exact ⟨h, fun r hr => absurd hr (by simp)⟩
  · rename_i good
    split
    · exact ⟨h, fun r hr => Option.some.inj hr ▸ reachCopies_ok _ _⟩
    · dsimp only
      split
      · split
        · exact ⟨h, fun r hr => Option.some.inj hr ▸ trivial⟩
        · refine ⟨h.toStation _ _ fun _ => ?_, fun r hr => Option.some.inj hr ▸ toStation_result _ _ _ _ _⟩
          simpa [SourceOk] using good
      · exact ⟨h, fun r hr => Option.some.inj hr ▸ trivial⟩

theorem Sound.takeEther (h : Sound G w d) (src dst : Addr) (c : CarrierData) {r : Resolved} (ok : ResultOk G d r)
    (link : G .uplink → d.up.link = true) : Sound G w (d.takeEther src dst c r) := by
  cases r with
  | relay k n f =>
    unfold Dev.takeEther
    dsimp only
    split
    · exact h.dropUp _
    · split
      · exact h.queueDown _ _ _ _ (downFull_room ‹_›) (etherTransitOk_enough _ _ ‹_›)
      · exact h.dropUp _
  | broadcast l =>
    have taken := h.takeList ok c.mark c.payload etherTransitOk_enough
    unfold Dev.takeEther
    dsimp only
    split
    all_goals
      rename_i heq
      rw [heq] at taken
    · exact taken
    · exact Sound.dropUp taken _
    · exact Sound.dropUp taken _
  | carrier _ _ => exact h
  | spool k n s =>
    unfold Dev.takeEther
    dsimp only
    split
    · exact h.dropUp _
    · exact (h.placeUp_free rfl link fun _ => upFull_room ‹_›).takeUnit _ _ _ _ _
  | discard x => exact h.dropUp _

theorem Sound.carrierIn (h : Sound G w d) (src dst : Addr) (body : List Byte) (link : d.up.link = true) :
    Sound G w (d.carrierIn src dst body) := by
  obtain ⟨resolved, ok⟩ := h.resolveCarrier src dst
  have same : (d.resolveCarrier src dst).1.up.link = d.up.link :=
    (touches_resolveCarrier d src dst .link (by decide)).1.symm
  unfold Dev.carrierIn
  split
  · exact h.dropUp _
  · split
    · rename_i heq
      rw [heq] at resolved
      exact Sound.dropUp resolved _
    · rename_i r heq
      rw [heq] at resolved ok same
      exact Sound.takeEther resolved _ _ _ (ok r rfl) fun _ => same.trans link

end Keep

end Sys2Proof.Machine
end

