-- ==== Sys2Proof/Proofs/KeptByExchanges.lean ====
section
/-! The laws are kept by turns and exchanges: the grant, the master frames, the end of an exchange and what its outcome
reaches (R9 to R35). -/

namespace Sys2Proof.Machine

open Sys2Proof

-- one proof after another: proofs that wait for each other take a thread each
set_option Elab.async false

section Keep

variable {G : Law → Prop} {w : Slack} {d : Dev} {g : Seg}

/-! ### Master frames -/

/-- A Turn Scheduler moves and a segment sends: no exchange in flight is ended. -/
theorem Sound.sendOn {e : Dev} (h : Sound G w d) (t : Touches [.sched, .lineOut] d e)
    (flight : ∀ s, turnInFlight (d.seg s).sched.turn = true → turnInFlight (e.seg s).sched.turn = true) :
    Sound G w e := by
  refine h.update t fun k hk hr => ?_
  cases k <;> try exact absurd hr (by decide)
  case enable =>
    intro s
    have old : EnableSlack w s (d.seg s) := h.holds .enable hk s
    have mon : (d.seg s).mon = (e.seg s).mon := t .mon (by decide) s
    have tx : (d.seg s).txEnable = (e.seg s).txEnable := t .txEnable (by decide) s
    have probe : (d.seg s).probe = (e.seg s).probe := t .probe (by decide) s
    rw [EnableSlack, mon, tx, Segment.exchangeInFlight_eq, Segment.probePulse, probe] at old
    rw [EnableSlack, Segment.exchangeInFlight_eq]
    exact ⟨old.1, fun on => (old.2 on).imp_right (Or.imp_left (flight s))⟩

/-- A discovery engine moves and a segment sends: the pending duplicates stay. -/
theorem Sound.discoverOn {e : Dev} (h : Sound G w d) (t : Touches [.disc, .lineOut] d e)
    (dup : ∀ s, (e.seg s).disc.pendingDup = (d.seg s).disc.pendingDup) : Sound G w e := by
  refine h.update t fun k hk hr => ?_
  cases k <;> try exact absurd hr (by decide)
  case lists =>
    obtain ⟨segs, up, requests, finished⟩ := h.holds .lists hk
    refine ⟨fun s => ?_, ?_, ?_, ?_⟩
    · have downq : (d.seg s).downq = (e.seg s).downq := t .downq (by decide) s
      have mon : (d.seg s).mon = (e.seg s).mon := t .mon (by decide) s
      rw [← downq, ← mon, dup s]
      exact segs s
    · rw [← (t .upQueue (by decide) : d.up.queue = e.up.queue)]
      exact up
    · rw [← (t .requests (by decide) : d.agent.queue = e.agent.queue ∧ _).1]
      exact requests
    · rw [← (t .finished (by decide) : d.spool.finished = e.spool.finished)]
      exact finished

/-- A segment's own turn decides what is in flight on it. -/
theorem Dev.flight_modSeg {f : Segment → Segment}
    (here : turnInFlight (d.seg g).sched.turn = true → turnInFlight (f (d.seg g)).sched.turn = true) (s : Seg)
    (on : turnInFlight (d.seg s).sched.turn = true) : turnInFlight ((d.modSeg g f).seg s).sched.turn = true := by
  by_cases hs : s = g
  · subst hs
    rw [Dev.modSeg_seg]
    exact here on
  · rwa [Dev.modSeg_seg_other _ _ _ _ hs]

theorem Sound.openExchange (h : Sound G w d) (g : Seg) (item : TurnItem) (e : Station) (m : Mark) (z : Bool)
    (bytes : List Byte) : Sound G w (d.openExchange g item e m z bytes) :=
  h.sendOn (touches_openExchange d g item e m z bytes).mono (Dev.flight_modSeg fun _ => rfl)

theorem Sound.sendBroadcast (h : Sound G w d) (g : Seg) (f : DownFrame) : Sound G w (d.sendBroadcast g f) :=
  h.sendOn (touches_sendBroadcast d g f).mono (Dev.flight_modSeg fun _ => rfl)

theorem Sound.sendDiscover (h : Sound G w d) (g : Seg) : Sound G w (d.sendDiscover g) := by
  refine h.discoverOn (touches_sendDiscover d g).mono fun s => ?_
  unfold Dev.sendDiscover
  split
  · by_cases hs : s = g
    · subst hs
      rw [Dev.modSeg_seg]
    · rw [Dev.modSeg_seg_other _ _ _ _ hs]
  · rfl

/-- A turn that is not in flight ends. -/
theorem Sound.dropTurn_idle (h : Sound G w d) (idle : turnInFlight (d.seg g).sched.turn = false) :
    Sound G w (d.dropTurn g) := h.modSched g _ fun on => absurd (idle.symm.trans on) Bool.false_ne_true

theorem Sound.sendPoll (h : Sound G w d) (n : Nat) (idle : turnInFlight (d.seg g).sched.turn = false) :
    Sound G w (d.sendPoll g n) := by
  unfold Dev.sendPoll
  split
  · exact (h.openExchange _ _ _ _ _ _).modStation _ _ (by intro e; exact ⟨rfl, rfl, id⟩)
  · exact h.dropTurn_idle idle

theorem Sound.sendDeliver (h : Sound G w d) (n : Nat) (idle : turnInFlight (d.seg g).sched.turn = false) :
    Sound G w (d.sendDeliver g n) := by
  unfold Dev.sendDeliver
  split
  · split
    · exact h.sendBroadcast _ _
    · split
      · exact h.openExchange _ _ _ _ _ _
      · exact h.dropTurn_idle idle
  · exact h.dropTurn_idle idle

theorem Sound.sendFeed (h : Sound G w d) (i n : Nat) (idle : turnInFlight (d.seg g).sched.turn = false) :
    Sound G w (d.sendFeed g i n) := by
  unfold Dev.sendFeed
  split
  · split
    · exact (h.openExchange _ _ _ _ _ _).modPrinter_same _ (by intro p; exact ⟨rfl, rfl, rfl, rfl, id⟩)
    · exact h.dropTurn_idle idle
  · exact h.dropTurn_idle idle

theorem Sound.sendTurn (h : Sound G w d) (item : TurnItem) (idle : turnInFlight (d.seg g).sched.turn = false) :
    Sound G w (d.sendTurn g item) := by
  cases item
  · exact h.sendDeliver _ idle
  · exact h.sendFeed _ _ idle
  · exact h.sendPoll _ idle

/-! ### The grant -/

theorem Dev.movePointers_turn (d : Dev) (g : Seg) (r : Requester) (item : TurnItem) :
    ((d.movePointers g r item).seg g).sched.turn = (d.seg g).sched.turn := by
  rw [Dev.movePointers, Dev.modSched_seg]
  dsimp only
  split
  · rfl
  · exact Scheduler.withVisits_turn _ _
  · rfl

theorem Sound.movePointers (h : Sound G w d) (g : Seg) (r : Requester) (item : TurnItem) :
    Sound G w (d.movePointers g r item) := by
  unfold Dev.movePointers
  refine h.modSched g _ fun on => ?_
  dsimp only
  split
  · exact on
  · rw [Scheduler.withVisits_turn]
    exact on
  · exact on

theorem Sound.grant (h : Sound G w d) (r : Requester) (item : TurnItem) (carrier : Bool)
    (idle : (d.seg g).sched.turn = none) : Sound G w (d.grant g r item carrier) := by
  have moved := h.movePointers g r item
  have still : turnInFlight ((d.movePointers g r item).seg g).sched.turn = false := by
    rw [Dev.movePointers_turn, idle]
    rfl
  unfold Dev.grant
  dsimp only
  split
  · exact moved.modSched g _ fun on => absurd (still.symm.trans on) Bool.false_ne_true
  · exact moved.sendTurn item still

theorem Sound.turnGrant (h : Sound G w d) (g : Seg) (carrier : Bool) : Sound G w (d.turnGrant g carrier) := by
  unfold Dev.turnGrant
  split
  · rename_i may
    have idle : (d.seg g).sched.turn = none := by
      simp only [Dev.mayDecide, Bool.and_eq_true, Option.isNone_iff_eq_none] at may
      exact may.1.1.2
    split
    · split
      · exact h.grant _ _ _ idle
      · exact h
    · exact h
  · exact h

theorem Sound.heldFrameStart (h : Sound G w d) (g : Seg) : Sound G w (d.heldFrameStart g) := by
  unfold Dev.heldFrameStart
  split
  · rename_i held
    exact h.sendTurn _ (by rw [held]; rfl)
  · split
    · exact h.sendDiscover g
    · exact h

/-! ### The end of an exchange -/

/-- A turn ends, and the transmit enable is still to be settled. -/
theorem Sound.dropTurn (h : Sound G w d) (g : Seg) : Sound G (w.unsettling g) (d.dropTurn g) := by
  refine h.updateTo (touches_modSched d g fun s => { s with turn := none }) h.owed (fun k hr hold => ?_) fun k hk hr => ?_
  · cases k <;> first | exact absurd hr (by decide) | exact hold
  · cases k <;> try exact absurd hr (by decide)
    case enable =>
      intro s
      have old : EnableSlack w s (d.seg s) := h.holds .enable hk s
      by_cases hs : s = g
      · subst hs
        rw [Dev.dropTurn, Dev.modSched_seg]
        exact ⟨old.1, fun _ => .inr (.inr (.inr List.mem_cons_self))⟩
      · rw [Dev.dropTurn, Dev.modSched, Dev.modSeg_seg_other _ _ _ _ hs]
        refine ⟨old.1, fun on => (old.2 on).imp_right (Or.imp_right (Or.imp_right (List.mem_cons_of_mem _)))⟩

theorem Sound.settle (h : Sound G (w.unsettling g) d) : Sound G w (d.modSeg g Segment.settleEnable) := by
  refine h.settleSeg _ (touches_settle d g) ?_ rfl id rfl fun v => enableSlack_settle v g _
  intro k he hl
  cases k <;> first | exact absurd rfl he | exact absurd rfl hl | rfl

theorem Dev.frame_mem {n : Nat} {f : DownFrame} (h : d.frame g n = some f) : f ∈ (d.seg g).downq :=
  List.mem_of_find?_eq_some h

theorem Sound.transitOutcome (h : Sound G w d) {f : DownFrame} (hf : f ∈ (d.seg g).downq) (o : ExOutcome) (k : Byte) :
    Sound G w (d.transitOutcome g f o k) := by
  have gone : Sound G w (d.removeFrame g f) := h.removeFrame fun _ => hf
  unfold Dev.transitOutcome
  split
  · exact gone.dropSeg _ _
  · split
    · split
      · exact gone.countSeg _ _
      · split
        · exact gone.dropSeg _ _
        · exact h.modFrame _ _ _ (by intro x; exact ⟨rfl, rfl⟩)
    · split
      · exact gone.dropSeg _ _
      · exact h.modFrame _ _ _ (by intro x; exact ⟨rfl, rfl⟩)

theorem Sound.polledOutcome (h : Sound G w d) (n : Nat) (o : ExOutcome) (f : TrunkFrame) :
    Sound G w (d.polledOutcome n o f) := by
  unfold Dev.polledOutcome
  split
  · split
    · exact h.printerPolled _ _
    · exact h
  · exact h

theorem Sound.itemOutcome (h : Sound G w d) (g : Seg) (item : TurnItem) (x : Exchange) (o : ExOutcome) (f : TrunkFrame) :
    Sound G w (d.itemOutcome g item x o f) := by
  cases item with
  | deliver n =>
    unfold Dev.itemOutcome
    dsimp only
    split
    · exact h.transitOutcome (Dev.frame_mem ‹_›) _ _
    · exact h
  | feed i n =>
    unfold Dev.itemOutcome
    dsimp only
    split
    · split
      · exact h.feedAccepted _ _ _ _ _
      · exact h.feedRefused _ _
    · exact h.feedFailed _
  | poll n => exact h.polledOutcome _ _ _

theorem Dev.stationById_mem {n : Nat} {e : Station} (h : d.stationById n = some e) : e ∈ d.stations :=
  List.mem_of_find?_eq_some h

theorem Sound.takeData (h : Sound G w d) (g : Seg) {e : Station} (he : e ∈ d.stations) (f : TrunkFrame) :
    Sound G w (d.takeData g e f) := by
  have number : G .rules → 1 ≤ e.number ∧ e.number ≤ 254 := fun hk =>
    (h.holds .numbers (h.closed.rules hk).2.2.1 : NumbersOk d) e he
  have forwarded := (h.countSeg g .framesIn).forwardCoax g f.peer (frameMark f) f.payload number
  unfold Dev.takeData
  dsimp only
  split
  · exact h.dropSeg _ _
  · exact h.dropSeg _ _
  all_goals
    split
    · exact (h.modStation _ _ (by intro e; exact ⟨rfl, rfl, id⟩)).dropSeg _ _
    · split
      all_goals
        rename_i heq
        rw [heq] at forwarded
      · exact Sound.modStation forwarded _ _ (by intro e; exact ⟨rfl, rfl, id⟩)
      · exact Sound.modStation forwarded _ _ (by intro e; exact ⟨rfl, rfl, id⟩)
      · exact (Sound.modStation forwarded _ _ (by intro e; exact ⟨rfl, rfl, id⟩)).dropSeg _ _

theorem Sound.directoryOutcome (h : Sound G w d) (g : Seg) (x : Exchange) (o : ExOutcome) (f : TrunkFrame) :
    Sound G w (d.directoryOutcome g x o f) := by
  unfold Dev.directoryOutcome
  split
  · rename_i e standing
    obtain ⟨n, -, hn⟩ := Option.bind_eq_some_iff.mp standing
    have he := Dev.stationById_mem hn
    have taken : Sound G w (if f.kind = kData then d.takeData g e f else d) := by
      split
      · exact h.takeData g he f
      · exact h
    dsimp only
    generalize (if f.kind = kData then d.takeData g e f else d) = b at taken
    have turned : Sound G w (if f.kind = kAccept then b.modStation e.eid fun e => { e with nextBit := !e.nextBit }
        else b) := by
      split
      · exact taken.modStation _ _ (by intro e; exact ⟨rfl, rfl, id⟩)
      · exact taken
    generalize (if f.kind = kAccept then b.modStation e.eid fun e => { e with nextBit := !e.nextBit } else b) = c at turned
    split
    · exact (turned.startBackoff _ _).stationGood _
    · exact turned.stationGood _
  · exact h.stationFailed _ _
  · split
    · exact h.dropSeg _ _
    · exact h
  · exact h

theorem Sound.endExchange (h : Sound G w d) (g : Seg) (item : TurnItem) (x : Exchange) (o : ExOutcome) (f : TrunkFrame) :
    Sound G w (d.endExchange g item x o f) :=
  (((((h.dropTurn g).countSeg _ _).itemOutcome g item x o f).directoryOutcome g x o f).report g o x.number x.wasSlow).settle

theorem Sound.startDelimiter (h : Sound G w d) (g : Seg) : Sound G w (d.startDelimiter g) := by
  unfold Dev.startDelimiter
  split
  · split
    · exact h.modSched g _ fun _ => rfl
    · exact h
  · exact h

theorem Sound.replyReceived (h : Sound G w d) (g : Seg) (r : Reply) : Sound G w (d.replyReceived g r) := by
  unfold Dev.replyReceived
  split
  · split
    · exact h.endExchange _ _ _ _ _
    · exact h
  · exact h

theorem Sound.replyTimeout (h : Sound G w d) (g : Seg) : Sound G w (d.replyTimeout g) := by
  unfold Dev.replyTimeout
  split
  · split
    · exact h
    · exact (h.reach _).endExchange _ _ _ _ _
  · exact h

theorem Sound.replyJabber (h : Sound G w d) (g : Seg) : Sound G w (d.replyJabber g) := by
  unfold Dev.replyJabber
  split
  · split
    · exact h.endExchange _ _ _ _ _
    · exact h
  · exact h

theorem Sound.broadcastSent (h : Sound G w d) (g : Seg) : Sound G w (d.broadcastSent g) := by
  unfold Dev.broadcastSent
  split
  · have ended := (h.reach ‹Nat›).dropTurn g
    dsimp only
    refine Sound.settle ?_
    split
    · have gone := ended.removeFrame fun _ => Dev.frame_mem ‹_›
      split
      · exact gone.dropSeg _ _
      · exact gone.countSeg _ _
    · exact ended
  · exact h

theorem Sound.backoffEnd (h : Sound G w d) (g : Seg) (n : Nat) : Sound G w (d.backoffEnd g n) := by
  unfold Dev.backoffEnd
  split
  · exact (h.reach _).endBackoff _ _
  · exact h

/-! ### Activity outside exchanges, and cycles -/

theorem Sound.noise (h : Sound G w d) (g : Seg) : Sound G w (d.noise g) := by
  unfold Dev.noise
  dsimp only
  split
  · exact h.countSeg _ _
  · exact h

theorem Sound.unattributedJabber (h : Sound G w d) (g : Seg) : Sound G w (d.unattributedJabber g) := by
  unfold Dev.unattributedJabber
  dsimp only
  split
  · exact (h.countSeg _ _).report _ _ _ _
  · exact h

theorem Sound.cycleStart (h : Sound G w d) (g : Seg) : Sound G w (d.cycleStart g) := by
  unfold Dev.cycleStart
  dsimp only
  split
  · exact (h.reach _).startCycle g
  · exact h

theorem Sound.emptyCycleEnd (h : Sound G w d) (g : Seg) : Sound G w (d.emptyCycleEnd g) := by
  unfold Dev.emptyCycleEnd
  dsimp only
  split
  · refine (h.reach _).modSched g _ fun on => ?_
    rw [Scheduler.endCycle_turn]
    exact on
  · exact h

end Keep

end Sys2Proof.Machine
end

