-- ==== Sys2Proof/Proofs/KeptByPasses.lean ====
section
/-! The laws are kept by discovery passes and by the holds that take the medium (R36, R37, R50 to R58, R77). -/

namespace Sys2Proof.Machine

open Sys2Proof

-- one proof after another: proofs that wait for each other take a thread each
set_option Elab.async false

section Keep

variable {G : Law → Prop} {w : Slack} {d : Dev} {g : Seg}

theorem Sound.openWindow (h : Sound G w d) (g : Seg) (pass : PassState) (r : PassRun) (carrier : Bool) :
    Sound G w (d.openWindow g pass r carrier) := by
  have opened : Sound G w (d.modDisc g fun x => { x with pass := pass, run := some { r with held := carrier } }) :=
    h.modDisc g _ (.inl (Nat.le_refl _))
  unfold Dev.openWindow
  dsimp only
  split
  · exact opened
  · exact opened.sendDiscover g

theorem Sound.beginPass (h : Sound G w d) (g : Seg) (carrier : Bool) : Sound G w (d.beginPass g carrier) :=
  h.openWindow _ _ _ _

theorem Sound.holdTakesMedium (h : Sound G w d) (g : Seg) (carrier : Bool) : Sound G w (d.holdTakesMedium g carrier) := by
  unfold Dev.holdTakesMedium
  split
  · rename_i x hs _
    split
    · rename_i may
      have taken : Sound G w (d.modSched g fun s => { s with holds := hs, medium := some x }) := h.modSched g _ id
      cases x
      · exact taken.beginPass g carrier
      · refine taken.modProbe_of g _ fun _ => .inl ?_
        rw [Dev.modSched_seg]
        simp only [Dev.mayHold, Bool.and_eq_true] at may
        exact may.1.1
    · exact h
  · exact h

theorem Sound.endPass (h : Sound G w d) (g : Seg) : Sound G w (d.endPass g) := by
  have ended := ((h.countSeg g .passes).modDisc g (fun x => { x with pass := .idle, run := none })
    (.inl (Nat.le_refl _))).endHold g .discovery
  unfold Dev.endPass
  dsimp only
  split
  · exact ended.startInterval g
  · exact ended

theorem Sound.applyResults (g : Seg) (fs cs : List Nat) : ∀ (ns : List Nat) {d : Dev} (ks : List Nat), Sound G w d →
    (∀ n ∈ ns, 1 ≤ n ∧ n ≤ 254) → Sound G w (Dev.applyResults g fs cs ns d ks).1
  | [], _, _, h, _ => h
  | n :: ns, d, ks, h, numbers => by
    obtain ⟨number, rest⟩ := List.forall_mem_cons.mp numbers
    unfold Dev.applyResults
    split
    · exact Sound.applyResults g fs cs ns _ (h.applyFound g number) rest
    · split
      · exact Sound.applyResults g fs cs ns _ (h.applyCandidate g fun _ => number) rest
      · exact Sound.applyResults g fs cs ns _ h rest

theorem mem_stationNumbers {n : Nat} : n ∈ stationNumbers ↔ 1 ≤ n ∧ n ≤ 254 := by
  simp only [stationNumbers, List.mem_map, List.mem_range]
  constructor
  · rintro ⟨m, hm, rfl⟩
    omega
  · intro h
    exact ⟨n - 1, by omega, by omega⟩

theorem Sound.completePass (h : Sound G w d) (g : Seg) (ws : List (Option Nat × List SlotReading)) :
    Sound G w (d.completePass g ws) :=
  ((Sound.applyResults g _ _ _ _ h fun _ => mem_stationNumbers.mp).modDisc g _
    (.inr (List.length_take_le _ _))).endPass g

theorem Sound.lineTrouble (h : Sound G w d) (g : Seg) (rs : List SlotReading) : Sound G w (d.lineTrouble g rs) := by
  have charged := (h.countSeg g (.failure .collision)).report g (.failed .collision) 0 false
  unfold Dev.lineTrouble
  dsimp only
  split
  · exact (Sound.applyResults g _ _ _ _ charged fun _ => mem_stationNumbers.mp).endPass g
  · exact charged

theorem Sound.nextWindow (h : Sound G w d) (g : Seg) (r : PassRun) (carrier : Bool) :
    Sound G w (d.nextWindow g r carrier) := by
  unfold Dev.nextWindow
  split
  · exact h.openWindow _ _ _ _
  · exact h.completePass _ _

theorem Sound.windowEnd (h : Sound G w d) (g : Seg) (slots : List SlotLine) (carrier : Bool) :
    Sound G w (d.windowEnd g slots carrier) := by
  unfold Dev.windowEnd
  dsimp only
  split
  · split
    · exact h
    · split
      · split
        · exact (h.reach _).lineTrouble _ _
        · exact (h.reach _).nextWindow _ _ _
      · exact (h.reach _).nextWindow _ _ _
  · exact h

theorem Sound.intervalExpiry (h : Sound G w d) (g : Seg) : Sound G w (d.intervalExpiry g) := by
  unfold Dev.intervalExpiry
  split
  · exact ((h.reach _).modDisc g _ (.inl (Nat.le_refl _))).passDue g
  · exact h

theorem Sound.aliasIdle (h : Sound G w d) (g : Seg) (n : Nat) : Sound G w (d.aliasIdle g n) := by
  unfold Dev.aliasIdle
  split
  · split
    · exact h.withdrawAlias g n
    · exact h
  · exact h

end Keep

end Sys2Proof.Machine
end

