-- ==== Sys2Proof/Proofs/PrinterBonds.lean ====
section
/-! Selections and flushes, and the operations that end in them, leave every printer entry on its station and as it awaits
its station's role (R145, R146): they move feed states and items only. -/

namespace Sys2Proof.Machine

open Sys2Proof

-- one proof after another: proofs that wait for each other take a thread each
set_option Elab.async false

/-- What ties a printer entry to its station. -/
def Printer.bond (p : Printer) : Seg × Nat × Bool := (p.seg, p.number, p.awaitingRole)

/-- The printer entries are the same, and tied to their stations in the same way. -/
def SameBonds (d e : Dev) : Prop := ∀ i, (e.printer i).map Printer.bond = (d.printer i).map Printer.bond

section Keep

variable {d e f : Dev} {g : Seg} {l : List Piece}

theorem SameBonds.refl (d : Dev) : SameBonds d d := fun _ => rfl

theorem SameBonds.trans (h : SameBonds d e) (k : SameBonds e f) : SameBonds d f := fun i => (k i).trans (h i)

/-- What does not touch the printer entries keeps their bonds. -/
theorem Touches.sameBonds (t : Touches l d e) (other : Piece.printers ∉ l := by decide) : SameBonds d e := by
  intro i
  have same : d.spool.printers = e.spool.printers := t .printers other
  rw [Dev.printer, Dev.printer, same]

theorem sameBonds_modPrinter (d : Dev) (i : Nat) {f : Printer → Printer} (same : ∀ p, (f p).bond = p.bond) :
    SameBonds d (d.modPrinter i f) := by
  intro k
  rw [Dev.modPrinter_printer]
  split
  · cases d.printer k with
    | none => rfl
    | some p => exact congrArg some (same p)
  · rfl

theorem sameBonds_fold {α : Type} {f : Dev → α → Dev} (step : ∀ d a, SameBonds d (f d a)) (as : List α) :
    ∀ d : Dev, SameBonds d (as.foldl f d) := by
  induction as with
  | nil => exact fun d => .refl d
  | cons a as ih => exact fun d => (step d a).trans (ih _)

theorem sameBonds_offerItem (d : Dev) (i : Nat) : SameBonds d (d.offerItem i) := by
  unfold Dev.offerItem
  split
  · split
    · exact sameBonds_modPrinter _ _ (by intro p; rfl)
    · exact .refl _
  · exact .refl _

theorem sameBonds_enterFeeding (d : Dev) (i : Nat) : SameBonds d (d.enterFeeding i) :=
  (sameBonds_modPrinter _ _ (by intro p; rfl)).trans (sameBonds_offerItem _ _)

theorem sameBonds_raise (d : Dev) (k : EventKind) (s : Subject) : SameBonds d (d.raise k s) :=
  (touches_raise d k s).sameBonds

theorem sameBonds_endHeldFeed (d : Dev) (g : Seg) (i : Nat) : SameBonds d (d.endHeldFeed g i) := fun _ => rfl

theorem sameBonds_makeLost (d : Dev) (i : Nat) : SameBonds d (d.makeLost i) := by
  unfold Dev.makeLost
  split
  · split
    · exact .refl _
    · exact ((sameBonds_endHeldFeed _ _ _).trans (sameBonds_modPrinter _ _ (by intro p; rfl))).trans
        (sameBonds_raise _ _ _)
  · exact .refl _

theorem sameBonds_modJob (d : Dev) (n : Nat) (f : Job → Job) : SameBonds d (d.modJob n f) := fun _ => rfl

theorem sameBonds_handOver (d : Dev) (i : Nat) (j : Job) : SameBonds d (d.handOver i j) := by
  have stamped : SameBonds d (if j.state == .filling then d.takeStamp j.serial else d) := by
    split
    · exact fun _ => rfl
    · exact .refl _
  unfold Dev.handOver
  dsimp only
  generalize (if j.state == .filling then d.takeStamp j.serial else d) = x at stamped ⊢
  have active := stamped.trans (sameBonds_modJob x j.serial fun j => { j with state := .active })
  split
  · split
    · exact active.trans (sameBonds_enterFeeding _ _)
    · exact active.trans (sameBonds_makeLost _ _)
  · exact active

theorem sameBonds_select (d : Dev) (i : Nat) : SameBonds d (d.select i) := by
  unfold Dev.select
  split
  · split
    · split
      · exact sameBonds_handOver _ _ _
      · exact .refl _
    · exact .refl _
  · exact .refl _

theorem sameBonds_selectAll (d : Dev) : SameBonds d d.selectAll := sameBonds_fold sameBonds_select _ d

theorem sameBonds_removeFrame (d : Dev) (g : Seg) (x : DownFrame) : SameBonds d (d.removeFrame g x) :=
  ((touches_setDownq d g _).sameBonds.trans (touches_freeTransit _ _).sameBonds).trans (sameBonds_selectAll _)

theorem sameBonds_flushOne (d : Dev) (g : Seg) (x : DownFrame) : SameBonds d (d.flushOne g x) :=
  (((touches_endHeldDeliver d g x.fid).sameBonds).trans (sameBonds_removeFrame _ _ _)).trans
    (touches_dropSeg _ _ _).sameBonds

theorem sameBonds_flush (d : Dev) (g : Seg) (p : DownFrame → Bool) : SameBonds d (d.flush g p) :=
  ((touches_setDownq d g _).sameBonds).trans (sameBonds_fold (fun d x => sameBonds_flushOne d g x) _ _)

theorem sameBonds_flushStation (d : Dev) (g : Seg) (n : Nat) : SameBonds d (d.flushStation g n) :=
  (sameBonds_flush _ _ _).trans (touches_endBackoff _ _ _).sameBonds

theorem sameBonds_flushForPrinter (d : Dev) (g : Seg) (n : Nat) : SameBonds d (d.flushForPrinter g n) :=
  (sameBonds_flush _ _ _).trans (touches_endBackoff _ _ _).sameBonds

theorem sameBonds_removeStation (d : Dev) (e : Station) : SameBonds d (d.removeStation e) := by
  have dropped : SameBonds d { d with stations := removeFirst (fun x => x.eid == e.eid) d.stations } := fun _ => rfl
  exact (((dropped.trans (sameBonds_flushStation _ _ _)).trans (touches_conflictRelease _ _ _).sameBonds).trans
    (touches_skipVisits _ _ _).sameBonds).trans (touches_endHeldPoll _ _ _).sameBonds

theorem SameBonds.printerAt (h : SameBonds d e) (g : Seg) (n : Nat) : e.printerAt g n = d.printerAt g n := by
  unfold Dev.printerAt
  congr 1
  funext i
  have same := h i
  cases hd : d.printer i <;> cases he : e.printer i <;> rw [hd, he] at same <;> simp [Printer.bond] at same ⊢
  obtain ⟨hs, hn, -⟩ := same
  rw [hs, hn]

/-- A printer that awaits its station's role still awaits it. -/
theorem SameBonds.awaiting (h : SameBonds d e) {i : Nat} {p q : Printer} (hp : d.printer i = some p)
    (hq : e.printer i = some q) : q.awaitingRole = p.awaitingRole := by
  have same := h i
  rw [hp, hq] at same
  exact congrArg (fun b : Seg × Nat × Bool => b.2.2) (Option.some.inj same)

end Keep

end Sys2Proof.Machine
end

