-- ==== Sys2Proof/Proofs/KeptBySegments.lean ====
section
/-! The laws are kept by the operations on segments and stations and by the timers of segments, printers and jobs (R47,
R48, R51, R120, R122, R125 to R128, R134, R146, R154, R173, R179). -/

namespace Sys2Proof.Machine

open Sys2Proof

-- one proof after another: proofs that wait for each other take a thread each
set_option Elab.async false

section Keep

variable {G : Law → Prop} {w : Slack} {d : Dev} {g : Seg}

/-- New settings of a segment that lie in their ranges and keep their rules. -/
theorem Sound.setCfg (h : Sound G w d) (g : Seg) (f : Segment → SegSettings)
    (ok : G .settings → (d.seg g).cfg.inRange = (d.seg g).cfg → (d.seg g).cfg.sound g = true →
      (f (d.seg g)).inRange = f (d.seg g) ∧ (f (d.seg g)).sound g = true) :
    Sound G w (d.modSeg g fun s => { s with cfg := f s }) := by
  refine h.update (touches_setCfg d g f) fun k hk hr => ?_
  cases k <;> try exact absurd hr (by decide)
  case settings =>
    obtain ⟨range, sound, segs⟩ := h.holds .settings hk
    refine ⟨range, sound, fun s => ?_⟩
    obtain ⟨hr, hs⟩ := segs s
    by_cases hg : s = g
    · subst hg
      rw [Dev.modSeg_seg]
      exact ok hk hr hs
    · rw [Dev.modSeg_seg_other _ _ _ _ hg]
      exact ⟨hr, hs⟩

theorem Sound.setEnabled (h : Sound G w d) (g : Seg) (b : Bool) :
    Sound G w (d.modSeg g fun s => { s with cfg := { s.cfg with enabled := b } }) := by
  refine h.setCfg g (fun s => { s.cfg with enabled := b }) fun _ range sound => ⟨?_, sound⟩
  exact congrArg (fun c : SegSettings => { c with enabled := b }) range

theorem Sound.enableSegment (h : Sound G w d) (g : Seg) : Sound G w (d.enableSegment g).1 := by
  unfold Dev.enableSegment
  split
  · exact ((h.setEnabled g true).unsettle g).enterStarting
  · exact h

theorem Sound.disableSegment (h : Sound G w d) (g : Seg) : Sound G w (d.disableSegment g).1 := by
  have down := (((((h.setEnabled g false).dropTurn g).setSegState .down).applyEndings).abortProbe g)
  unfold Dev.disableSegment
  dsimp only
  refine Sound.modMon ?_ g _ rfl id
  split
  · exact down.depart g
  · exact down.flushQueue g

theorem Sound.restoreSegment (h : Sound G w d) (g : Seg) : Sound G w (d.restoreSegment g).1 := by
  have stopped : Sound G w ((d.modMon g fun m => { m with cooldownTimer := none, trialTimer := none }).abortProbe g) :=
    (h.modMon g _ rfl id).abortProbe g
  unfold Dev.restoreSegment
  dsimp only
  split
  · refine Sound.enterStarting (Sound.unsettle (Sound.modMon ?_ g _ rfl id) g)
    split
    · exact (stopped.goTo g .starting).depart g
    · exact stopped
  · exact h

theorem Sound.probeSegment (h : Sound G w d) (g : Seg) : Sound G w (d.probeSegment g).1 := by
  unfold Dev.probeSegment
  dsimp only
  split
  · exact h
  · rename_i free
    have idle : (d.seg g).probe.phase = .idle := by
      by_contra busy
      exact free (.inl busy)
    have silent : (d.seg g).probePulse = false := probePulse_of_phase (by simp [idle])
    have waiting : Sound G w ((d.modProbe g fun p => { p with phase := .waiting, trigger := .manual, onHold := false
        }).askHold g .probe) :=
      (h.modProbe g _ fun on => absurd (silent.symm.trans on) Bool.false_ne_true).askHold g .probe
    have begun : Sound G w ((d.modProbe g fun p => { p with trigger := .manual }).beginProbe g false) := by
      refine (h.modProbe g (fun p => { p with trigger := .manual }) fun on =>
        absurd (silent.symm.trans on) Bool.false_ne_true).beginProbe false (probePulse_of_phase ?_)
      simp [idle]
    split
    iterate 3 exact waiting
    iterate 3 exact begun
    iterate 2 exact h

theorem Sound.discoverSegment (h : Sound G w d) (g : Seg) : Sound G w (d.discoverSegment g).1 := by
  unfold Dev.discoverSegment
  split
  · exact h.passDue g
  · exact h

theorem Sound.clearRecord (h : Sound G w d) (g : Seg) : Sound G w (d.clearRecord g).1 :=
  h.modMon g (fun m => { m with record := none, peak := 0, recent := [] }) rfl
    fun _ => ⟨Nat.zero_le _, fun _ hr => nomatch hr⟩

theorem Sound.onSegment (h : Sound G w d) (seg : Byte) {f : Dev → Seg → Dev × Status}
    (step : ∀ g, Sound G w (f d g).1) : Sound G w (d.onSegment seg f).1 := by
  unfold Dev.onSegment
  split
  · exact step _
  · exact h

theorem Sound.releaseEntry (h : Sound G w d) (e : Station) : Sound G w (d.releaseEntry e).1 := by
  unfold Dev.releaseEntry
  split
  · exact h.releaseStation e
  · exact h

theorem Sound.onStation (h : Sound G w d) (seg number : Byte) {f : Dev → Station → Dev × Status}
    (step : ∀ e, Sound G w (f d e).1) : Sound G w (d.onStation seg number f).1 := by
  unfold Dev.onStation
  split
  · exact h
  · split
    · exact h
    · split
      · exact step _
      · exact h

theorem Sound.cooldownExpiry (h : Sound G w d) (g : Seg) : Sound G w (d.cooldownExpiry g) := by
  unfold Dev.cooldownExpiry
  split
  · exact (((h.reach _).modMon g _ rfl id).goTo g .probing).requestProbe g .retry
  · exact h

theorem Sound.trialExpiry (h : Sound G w d) (g : Seg) : Sound G w (d.trialExpiry g) := by
  unfold Dev.trialExpiry
  split
  · exact ((((h.reach _).modMon g _ rfl id).goTo g .active).raise _ _).passDue g
  · exact h

theorem Sound.idleClose (h : Sound G w d) (job : Nat) : Sound G w (d.idleClose job) := by
  unfold Dev.idleClose
  split
  · split
    · exact h.closeJob _
    · exact h
  · exact h

theorem entryKept_role (r : Role) : EntryKept fun e => { e with role := r } := by
  intro e
  exact ⟨rfl, rfl, id⟩

/-- A printer that awaits its station's role has no ACTIVE job. -/
theorem Sound.idle_of_awaiting (h : Sound G w d) (hk : G .jobs) {i : Nat}
    (awaiting : ∀ p, d.printer i = some p → p.awaitingRole = true) :
    ∀ j ∈ d.spool.jobs, j.printer = i → j.state ≠ .active := by
  rintro j hj rfl act
  have table : JobTableOk [] d := h.holds .jobs hk
  obtain ⟨-, -, -, -, fit, -⟩ := table
  obtain ⟨-, -, -, -, p, hp, busy⟩ := fit j hj
  have awake := (busy act).resolve_left List.not_mem_nil
  exact Bool.false_ne_true (awake.2.2.symm.trans (awaiting p hp))

theorem Sound.roleSet (h : Sound G w d) (id : Nat) : Sound G w (d.roleSet id) := by
  unfold Dev.roleSet
  split
  · rename_i p hp
    split
    · rename_i due
      split
      · rename_i e he
        dsimp only
        have flushed := h.flushForPrinter p.seg p.number
        have awaits : p.awaitingRole = true := by
          simp only [Bool.and_eq_true] at due
          exact due.1
        have idle : G .jobs → ∀ j ∈ (d.flushForPrinter p.seg p.number).spool.jobs, j.printer = id →
            j.state ≠ .active := fun hk => flushed.idle_of_awaiting hk fun q hq =>
          ((sameBonds_flushForPrinter d p.seg p.number).awaiting hp hq).trans awaits
        refine ((flushed.modStation e.eid _ (entryKept_role .printer)).modPrinter _
          (by intro q; exact ⟨rfl, rfl, fun r => r⟩)
          fun hk q hq => ⟨fun no => absurd no Bool.false_ne_true, ?_⟩).select id
        rintro ⟨j, hj, hi, act⟩
        exact absurd act (idle hk j hj hi)
      · exact h
    · exact h
  · exact h

theorem Sound.busyRetryExpiry (h : Sound G w d) (id : Nat) : Sound G w (d.busyRetryExpiry id) := by
  unfold Dev.busyRetryExpiry
  split
  · rename_i p hp
    split
    · rename_i t waits _
      refine (h.reach t).enterFeeding id fun hk q hq => ?_
      obtain rfl : p = q := Option.some.inj (hp.symm.trans hq)
      exact h.not_awaiting hk hp (by simp [waits])
    · exact h
  · exact h

theorem Sound.holdTimerExpiry (h : Sound G w d) (id : Nat) : Sound G w (d.holdTimerExpiry id) := by
  unfold Dev.holdTimerExpiry
  split
  · split
    · refine Sound.fold (fun d j h => h.endJobOrWait _ _ _) _ ((h.reach _).modPrinter_same _ ?_)
      intro p
      exact ⟨rfl, rfl, rfl, rfl, fun r => r⟩
    · exact h
  · exact h

end Keep

end Sys2Proof.Machine
end

