-- ==== Sys2Proof/Proofs/KeptByEthernet.lean ====
section
/-! The laws are kept by the Uplink MAC: link changes, reception with admission and the pause hold, transmission, and the
holdoff of notices (R96 to R106, R188, R193). -/

namespace Sys2Proof.Machine

open Sys2Proof

-- one proof after another: proofs that wait for each other take a thread each
set_option Elab.async false

section Keep

variable {G : Law → Prop} {w : Slack} {d : Dev}

theorem Sound.reofferNotice (h : Sound G w d) : Sound G w d.reofferNotice := by
  unfold Dev.reofferNotice
  split
  · exact h.noticeTest
  · exact h

theorem Sound.linkUp (h : Sound G w d) (speed : LinkSpeed) : Sound G w (d.linkUp speed) := by
  have up : Sound G w (d.modUp fun u => { u with link := true, speed := speed }) :=
    h.modUp _ (fun _ => .inl (Nat.le_refl _)) rfl rfl fun u => ⟨fun no => absurd no Bool.true_eq_false.mp, u.2⟩
  unfold Dev.linkUp
  split
  · exact h
  · dsimp only
    split
    · exact (((up.sendPause _).startRepeat.raise _ _).reofferNotice).startTx
    · exact ((up.raise _ _).reofferNotice).startTx

/-- The frames of a queue that is gone are dropped, and what they owed is repaid. -/
theorem Sound.dropQueued : ∀ (l : List UpFrame) {t : Int} {d : Dev}, Sound G (w.owing t w.spool) d →
    (G .pool → 0 ≤ w.transit) → (G .pool → t = w.transit + upBlocks l) → Sound G w (l.foldl Dev.dropQueued d)
  | [], _, _, h, _, owed => h.repay fun hk => ⟨(owed hk).trans (Int.add_zero _), rfl⟩
  | f :: l, t, d, h, pos, owed => by
    have whole : upBlocks (f :: l) = f.blocks.length + upBlocks l := by simp [upBlocks]
    have freed : Sound G (w.owing (t - f.blocks.length) w.spool) (d.freeTransit f.blocks.length) :=
      h.freeTransit f.blocks.length fun hk => by
        have := owed hk
        have := pos hk
        show (f.blocks.length : Int) ≤ t
        omega
    refine Sound.dropQueued l (freed.dropUp .linkDown) pos fun hk => ?_
    have := owed hk
    omega

theorem Sound.linkDown (h : Sound G w d) : Sound G w d.linkDown := by
  have cut : Sound G (w.owing (w.transit + upBlocks d.up.queue) w.spool) (d.modUp fun u =>
      { u with link := false, queue := [], txBusy := false, leaving := false, hold := none, repeatTimer := none
               pauseDue := [] }) := by
    refine h.setUpQueue _ _ (fun _ => .inr (Nat.zero_le _)) (fun hk => ?_) rfl fun _ _ =>
      ⟨fun _ => ⟨rfl, rfl, rfl, rfl, rfl⟩, fun no => absurd no Bool.false_ne_true, fun no => absurd no Bool.false_ne_true⟩
    have := h.owed hk
    simp only [upBlocks, List.map_nil, List.sum_nil]
    omega
  unfold Dev.linkDown
  split
  · dsimp only
    refine Sound.selectAll (Sound.raise (Sound.dropQueued _ (t := w.transit + upBlocks d.up.queue) ?_
      (fun hk => (h.owed hk).1) fun _ => rfl) _ _)
    split
    · exact cut.dropUp .linkDown
    · exact cut
  · exact h

/-! ### Reception -/

theorem Sound.admission (h : Sound G w d) (src : Addr) (body : List Byte) : Sound G w (d.admission src body) := by
  unfold Dev.admission
  split
  · split
    · exact h.dropUp _
    · rename_i room
      refine h.modAgent _ (.inr ?_)
      rw [List.length_append, List.length_singleton]
      omega
  · exact h.dropUp _

theorem Sound.setHold (h : Sound G w d) (t : Option Nat) (link : d.up.link = true) :
    Sound G w (d.modUp fun u => { u with hold := t }) := by
  refine h.modUp _ (fun _ => .inl (Nat.le_refl _)) rfl rfl fun u => ⟨fun no => ?_, u.2⟩
  exact absurd (link.symm.trans no) Bool.true_eq_false.mp

theorem Sound.pauseReceived (h : Sound G w d) (time : Nat) (link : d.up.link = true) :
    Sound G w (d.pauseReceived time) := by
  unfold Dev.pauseReceived
  split
  · exact (h.setHold none link).startTx
  · exact h.setHold _ link

theorem Dev.countUp_link (d : Dev) (c : UpCounter) : (d.countUp c).up.link = d.up.link :=
  ((touches_countUp d c) .link (by decide)).1.symm

theorem Sound.receive (h : Sound G w d) (bs : List Byte) (link : d.up.link = true) : Sound G w (d.receive bs) := by
  have still : ∀ c, (d.countUp c).up.link = true := fun c => (d.countUp_link c).trans link
  unfold Dev.receive
  dsimp only
  split
  · exact h.countUp _
  split
  · exact h.countUp _
  split
  · exact h.countUp _
  split
  · exact (h.countUp _).admission _ _
  split
  · exact (h.countUp _).pauseReceived _ (still _)
  split
  · exact (h.countUp _).carrierIn _ _ _ (still _)
  split
  · exact (h.countUp _).carrierIn _ _ _ (still _)
  · exact h.countUp _

theorem Sound.uplinkReceived (h : Sound G w d) (bs : List Byte) : Sound G w (d.uplinkReceived bs) := by
  unfold Dev.uplinkReceived
  split
  · rename_i taken
    exact h.receive bs (Bool.and_eq_true_iff.mp taken).1
  · exact h

/-! ### Transmission -/

/-- The frame in transmission leaves its queue, until the port is free. -/
theorem Sound.headLeaves (h : Sound G w d) : Sound G { w with headGone := true } d :=
  h.reslack fun k _ hold => by
    cases k
    case uplink => exact ⟨hold.1, fun _ _ => .inl rfl, hold.2.2⟩
    all_goals exact hold

theorem Sound.portFree (h : Sound G { w with headGone := true } d) : Sound G w d.portFree := by
  have sent : Sound G { w with headGone := true }
      (d.up.pauseDue.foldl Dev.emitPause (d.modUp fun u => { u with pauseDue := [] })) := by
    refine Sound.fold (fun d k h => h.emitPause k) _ (h.modUp _ (fun _ => .inl (Nat.le_refl _)) rfl rfl fun u =>
      ⟨fun down => ?_, u.2⟩)
    obtain ⟨hq, ht, hh, hr, -⟩ := u.1 down
    exact ⟨hq, ht, hh, hr, rfl⟩
  unfold Dev.portFree
  dsimp only
  refine Sound.startTx ?_
  refine Sound.reslack (w := { w with headGone := true }) (sent.modUp _ (fun _ => .inl (Nat.le_refl _)) rfl rfl
    fun u => ⟨fun down => ?_, fun no => absurd no Bool.false_ne_true, fun no => absurd no Bool.false_ne_true⟩)
    (fun k hk hold => ?_) h.owed
  · obtain ⟨hq, -, hh, hr, hd⟩ := u.1 down
    exact ⟨hq, rfl, hh, hr, hd⟩
  · cases k
    case uplink => exact ⟨hold.1, fun no => absurd no Bool.false_ne_true, hold.2.2⟩
    all_goals exact hold

theorem Sound.frameTransmitted (h : Sound G w d) : Sound G w d.frameTransmitted := by
  unfold Dev.frameTransmitted
  split
  · exact (h.headLeaves.countUp _).portFree
  · rename_i f fs _ _ hq
    have whole : upBlocks d.up.queue = f.blocks.length + upBlocks fs := by simp [upBlocks, hq]
    have gone : Sound G (Slack.owing { w with headGone := true } (w.transit + f.blocks.length) w.spool)
        (d.modUp fun u => { u with queue := fs }) := by
      refine h.headLeaves.setUpQueue _ _ (fun _ => .inl ?_) (fun hk => ?_) rfl fun _ u =>
        ⟨fun down => ?_, fun _ _ => .inl rfl, u.2.2⟩
      · rw [hq]
        exact Nat.le_succ _
      · have := h.owed hk
        show _ = w.transit + _ ∧ _
        dsimp only
        omega
      · obtain ⟨none, -⟩ := u.1 down
        exact nomatch hq.symm.trans none
    have freed := gone.freeTransit f.blocks.length fun hk => by
      have := h.owed hk
      show (f.blocks.length : Int) ≤ w.transit + f.blocks.length
      omega
    have paid : Sound G { w with headGone := true } _ := freed.repay (w := { w with headGone := true })
      fun _ => ⟨Int.add_sub_cancel _ _, rfl⟩
    exact ((paid.countUp _).selectAll).portFree
  · exact h

theorem Sound.pauseRepeat (h : Sound G w d) : Sound G w d.pauseRepeat := by
  unfold Dev.pauseRepeat
  split
  · exact ((h.reach _).sendPause _).startRepeat
  · exact h

theorem Sound.holdEnds (h : Sound G w d) : Sound G w (d.modUp fun u => { u with hold := none }) := by
  refine h.modUp _ (fun _ => .inl (Nat.le_refl _)) rfl rfl fun u => ⟨fun down => ?_, u.2⟩
  obtain ⟨hq, ht, -, hr, hd⟩ := u.1 down
  exact ⟨hq, ht, rfl, hr, hd⟩

theorem Sound.pauseHoldEnd (h : Sound G w d) : Sound G w d.pauseHoldEnd := by
  unfold Dev.pauseHoldEnd
  split
  · exact (h.reach _).holdEnds.startTx
  · exact h

theorem Sound.noticeHoldoff (h : Sound G w d) : Sound G w d.noticeHoldoff := by
  unfold Dev.noticeHoldoff
  dsimp only
  split
  · split
    · exact (h.reach _).noticeTest
    · exact h
  · exact (h.reach _).noticeTest
  · exact h

end Keep

end Sys2Proof.Machine
end

