-- ==== Sys2Proof/Proofs/KeptBySettings.lean ====
section
/-! The laws are kept by WRITE of the SETTINGS and SEGMENT tables (R58, R62 to R66, R77, R103 to R107, R115, R130, R132,
R154, R156, R188, R199). -/

namespace Sys2Proof.Machine

open Sys2Proof

-- one proof after another: proofs that wait for each other take a thread each
set_option Elab.async false

/-! ### Written values lie in their ranges -/

theorem clamp_eq_iff {lo hi v : Nat} (range : lo ≤ hi) : clamp lo hi v = v ↔ lo ≤ v ∧ v ≤ hi := by
  unfold clamp
  omega

theorem clamp_clamp {lo hi : Nat} (v : Nat) : clamp lo hi (clamp lo hi v) = clamp lo hi v := by
  unfold clamp
  omega

theorem clamp_clampedOr {w : List Field} {code lo hi old : Nat} (h : clamp lo hi old = old) :
    clamp lo hi (clampedOr w code lo hi old) = clampedOr w code lo hi old := by
  unfold clampedOr
  split
  · exact clamp_clamp _
  · exact h

theorem Settings.inRange_iff {s : Settings} : s.inRange = s ↔
    clamp 0 512 s.coaxFloor = s.coaxFloor ∧ clamp 0 512 s.transitReserve = s.transitReserve ∧
    clamp 0 1792 s.spoolQuota = s.spoolQuota ∧ clamp 1 65535 s.pauseQuanta = s.pauseQuanta ∧
    clamp 60 86400 s.absentForget = s.absentForget ∧ clamp 30 86400 s.aliasIdle = s.aliasIdle ∧
    clamp 5 3600 s.jobIdle = s.jobIdle ∧ clamp 1 256 s.streamBlocks = s.streamBlocks ∧
    clamp 1 32 s.noticeBatch = s.noticeBatch ∧ clamp 0 60000 s.noticeHoldoff = s.noticeHoldoff := by
  cases s
  simp [Settings.inRange]

theorem Settings.written_inRange {s : Settings} (w : List Field) (h : s.inRange = s) :
    (s.written w).inRange = s.written w := by
  obtain ⟨h1, h2, h3, h4, h5, h6, h7, h8, h9, h10⟩ := Settings.inRange_iff.mp h
  exact Settings.inRange_iff.mpr ⟨clamp_clampedOr h1, clamp_clampedOr h2, clamp_clampedOr h3, clamp_clampedOr h4,
    clamp_clampedOr h5, clamp_clampedOr h6, clamp_clampedOr h7, clamp_clampedOr h8, clamp_clampedOr h9,
    clamp_clampedOr h10⟩

theorem SegSettings.inRange_iff {c : SegSettings} : c.inRange = c ↔
    clamp 100 3000 c.replyTimeout = c.replyTimeout ∧ clamp 1 1000 c.urgentAge = c.urgentAge ∧
    clamp 0 1000 c.cycleFloor = c.cycleFloor ∧ clamp 10 3600 c.discoveryInterval = c.discoveryInterval ∧
    clamp 60 500 c.slotTime = c.slotTime ∧ clamp 0 255 c.wTimeout = c.wTimeout ∧
    clamp 0 255 c.wBadCheck = c.wBadCheck ∧ clamp 0 255 c.wBadFrame = c.wBadFrame ∧
    clamp 0 255 c.wCollision = c.wCollision ∧ clamp 0 255 c.wJabber = c.wJabber ∧ clamp 0 255 c.drain = c.drain ∧
    clamp 1 4095 c.relieve = c.relieve ∧ clamp 1 4095 c.warn = c.warn ∧ clamp 1 4095 c.trip = c.trip ∧
    clamp 1 4095 c.preset = c.preset ∧ clamp 0 15 c.retryLimit = c.retryLimit ∧
    clamp 1 3600 c.cooldown = c.cooldown ∧ clamp 5 3600 c.trialTime = c.trialTime ∧
    clamp 1 20 c.quietTime = c.quietTime ∧ clamp 0 1023 c.dcLow = c.dcLow ∧ clamp 0 1023 c.dcHigh = c.dcHigh ∧
    clamp 0 4 c.shotExponent = c.shotExponent ∧ clamp 0 255 c.blankCount = c.blankCount ∧
    clamp 0 255 c.launchOffset = c.launchOffset ∧ clamp 128 320 c.coefficient = c.coefficient ∧
    clamp 0 2047 c.segmentLength = c.segmentLength := by
  cases c
  simp [SegSettings.inRange]

theorem SegSettings.written_inRange {c : SegSettings} (w : List Field) (h : c.inRange = c) :
    (c.written w).inRange = c.written w := by
  have ranges := SegSettings.inRange_iff.mp h
  rw [SegSettings.inRange_iff]
  repeat' apply And.imp clamp_clampedOr ?_ ranges; clear ranges; intro ranges
  exact clamp_clampedOr ranges

section Keep

variable {G : Law → Prop} {w : Slack} {d : Dev} {g : Seg}

/-! ### SETTINGS -/

/-- The entries that a new absent-forget time forgets leave one after another (R58). -/
theorem Sound.removeStations : ∀ (es : List Station) {d : Dev}, Sound G w d → (G .stations → ∀ e ∈ es, e ∈ d.stations) →
    (G .stations → (es.map (·.eid)).Nodup) → (G .printers → ∀ e ∈ es, d.printerAt e.seg e.number = none) →
    Sound G w (es.foldl Dev.removeStation d)
  | [], _, h, _, _, _ => h
  | e :: es, d, h, standing, names, unnamed => by
    refine Sound.removeStations es (h.removeStation (fun hk => standing hk e List.mem_cons_self)
      fun hk => unnamed hk e List.mem_cons_self) (fun hk x hx => ?_) (fun hk => (List.nodup_cons.mp (names hk)).2)
      fun hk x hx => ?_
    · rw [Dev.removeStation_stations]
      refine mem_removeFirst_of_ne (standing hk x (List.mem_cons_of_mem _ hx)) (beq_eq_false_iff_ne.mpr fun same => ?_)
      exact (List.nodup_cons.mp (names hk)).1 (List.mem_map.mpr ⟨x, hx, same⟩)
    · rw [(sameBonds_removeStation d e).printerAt]
      exact unnamed hk x (List.mem_cons_of_mem _ hx)

theorem Sound.forgetAll (h : Sound G w d) : Sound G w d.forgetAll := by
  refine Sound.removeStations _ h (fun _ e he => (List.mem_filter.mp he).1) (fun hk => ?_) fun _ e he =>
    Dev.forgetPast_unnamed (List.mem_filter.mp he).2
  have ok : StationsOk d := h.holds .stations hk
  exact ok.2.2.1.sublist (List.filter_sublist.map _)

/-- An ALIAS entry that may name its target still may under a base address whose proxy range leaves the target out (R63, R65). -/
theorem targetOk_of_outside {base new : Addr} {t : Target} (ok : targetOk base g t = true)
    (outside : inProxy new t = false) : targetOk new g t = true := by
  cases t with
  | ethernet a =>
    simp only [targetOk, Bool.and_eq_true] at ok ⊢
    exact ⟨ok.1, by simpa [inProxy] using outside⟩
  | station k n => exact ok

/-- New settings are taken; the aliases of a new proxy range leave with it, and the pause test is still to be made. -/
theorem Sound.setSettings (h : Sound G w d) {new : Settings} (range : G .settings → new.inRange = new)
    (sound : G .settings → ({ new with base := 0#48 } : Settings).sound = true)
    (quota : G .quota → d.pool.spool ≤ new.spoolQuota)
    (outside : G .rules → ∀ a ∈ d.aliases, inProxy new.base a.target = false ∨ new.base = d.set.base) :
    Sound G { w with pauseStale := true } { d with set := new } := by
  refine h.forgetPause.update (touches_setSettings d new) fun k hk hr => ?_
  cases k <;> try exact absurd hr (by decide)
  case settings =>
    obtain ⟨-, -, segs⟩ := h.holds .settings hk
    exact ⟨range hk, sound hk, segs⟩
  case quota => exact quota hk
  case pause => exact .inl rfl
  case rules =>
    obtain ⟨fits, apart⟩ := h.holds .rules hk
    refine ⟨fun a ha => ?_, apart⟩
    obtain ⟨low, high, target, rest⟩ := fits a ha
    refine ⟨low, high, ?_, rest⟩
    rcases outside hk a ha with out | same
    · exact targetOk_of_outside target out
    · show targetOk new.base _ _ = true
      rwa [same]

/-- A field that a write does not name leaves its value. -/
theorem natOr_unnamed {l : List Field} {code : Nat} (old : Nat) (unnamed : names l code = false) :
    natOr l code old = old := by
  have none : given l code = none := by
    simpa [names, Option.isSome_eq_false_iff] using unnamed
  rw [natOr, none]

theorem Settings.sound_base {s : Settings} (h : s.sound = true) : ({ s with base := 0#48 } : Settings).sound = true := by
  simp only [Settings.sound, Bool.and_eq_true] at h ⊢
  obtain ⟨⟨⟨⟨⟨⟨⟨⟨-, h1⟩, h2⟩, h3⟩, h4⟩, h5⟩, h6⟩, h7⟩, h8⟩ := h
  exact ⟨⟨⟨⟨⟨⟨⟨⟨rfl, h1⟩, h2⟩, h3⟩, h4⟩, h5⟩, h6⟩, h7⟩, h8⟩

/-- The effects of taken settings after the pause test. -/
theorem Sound.laterEffects (h : Sound G w d) (a b c e f : Bool) : Sound G w
    (let d := if a then d.forgetAll else d
     let d := if b then d.withdrawIdle else d
     let d := if c then d.closeIdleJobs else d
     let d := if e then d.selectAll else d
     if f then d.retimeHoldoff.noticeTest else d) := by
  have when : ∀ {x y : Dev} (b : Bool), Sound G w x → (Sound G w x → Sound G w y) → Sound G w (if b then y else x) := by
    intro x y b hx step
    cases b
    · exact hx
    · exact step hx
  exact when f (when e (when c (when b (when a h (·.forgetAll)) (·.withdrawIdle)) (·.closeIdleJobs)) (·.selectAll))
    (·.retimeHoldoff.noticeTest)

theorem Sound.settingsEffects {l : List Field} {moved : Bool}
    (h : Sound G { w with pauseStale := true } (if moved then d.withdrawInProxy else d))
    (same : namesAny l [7, 8] = false → G .pause → w.pauseStale = true ∨ PauseOk d) :
    Sound G w (d.settingsEffects l moved) := by
  have pool : (if moved then d.withdrawInProxy else d).pool = d.pool ∧
      (if moved then d.withdrawInProxy else d).set = d.set ∧ (if moved then d.withdrawInProxy else d).up = d.up := by
    split <;> exact ⟨rfl, rfl, rfl⟩
  unfold Dev.settingsEffects
  generalize (if moved then d.withdrawInProxy else d) = e at h pool ⊢
  obtain ⟨hp, hs, hu⟩ := pool
  have tested : Sound G w (if namesAny l [7, 8] then e.pauseTest else e) := by
    split
    · exact h.pauseTest
    · rename_i unnamed
      refine h.reslack fun k hk hold => ?_
      cases k
      case pause =>
        refine (same (Bool.not_eq_true _ ▸ unnamed) hk).imp_right fun ok => ?_
        rwa [PauseOk, hp, hs, hu]
      all_goals exact hold
  exact tested.laterEffects _ _ _ _ _

theorem Sound.writeSettings (h : Sound G w d) (l : List Field) : Sound G w (d.writeSettings l).1 := by
  unfold Dev.writeSettings
  dsimp only
  split
  · exact h
  split
  · exact h
  · rename_i allowed
    simp only [Bool.or_eq_true, Bool.not_eq_true', decide_eq_true_eq, not_or, Bool.not_eq_false, not_lt] at allowed
    obtain ⟨sound, quota⟩ := allowed
    split
    · exact h
    · rename_i free
      refine Sound.settingsEffects (d := { d with set := d.set.written l }) ?_ fun unnamed hk => ?_
      · have range : G .settings → (d.set.written l).inRange = d.set.written l := fun hk =>
          Settings.written_inRange l (h.holds .settings hk).1
        by_cases moved : (d.set.written l).base != d.set.base
        · rw [if_pos moved]
          refine (h.withdrawAliases fun a => a.kind == .dynamic && inProxy (d.set.written l).base a.target).setSettings range
            (fun _ => Settings.sound_base sound) (fun _ => quota) fun _ a ha => .inl ?_
          obtain ⟨standing, stays⟩ := List.mem_filter.mp ha
          rw [moved, Bool.true_and, Bool.not_eq_true, Dev.staticInProxy, List.any_eq_false] at free
          have notStatic := free a standing
          cases hk : a.kind <;> simp_all
        · rw [if_neg moved]
          exact h.setSettings range (fun _ => Settings.sound_base sound) (fun _ => quota) fun _ _ _ =>
            .inr (by simpa using moved)
      · have unnamed : names l 7 = false ∧ names l 8 = false := by simpa [namesAny] using unnamed
        refine (h.holds .pause hk).imp_right fun ok => ?_
        have on : (d.set.written l).pauseOn = d.set.pauseOn := natOr_unnamed _ unnamed.1
        have off : (d.set.written l).pauseOff = d.set.pauseOff := natOr_unnamed _ unnamed.2
        refine ⟨fun h => ?_, fun h => ?_⟩
        · show _ < (d.set.written l).pauseOff
          rw [off]
          exact ok.1 h
        · show (d.set.written l).pauseOn ≤ _
          rw [on]
          exact ok.2 h

/-! ### SEGMENT -/

theorem Sound.writeSegmentAt (h : Sound G w d) (g : Seg) (l : List Field) : Sound G w (d.writeSegmentAt g l).1 := by
  unfold Dev.writeSegmentAt
  dsimp only
  split
  · exact h
  split
  · exact h
  · rename_i sound
    have taken : Sound G w (d.modSeg g fun s => { s with cfg := (d.seg g).cfg.written l }) :=
      h.setCfg g _ fun _ range _ => ⟨SegSettings.written_inRange l range, by simpa using sound⟩
    have floored : Sound G w (if (names l 3 && !d.inService g) = true then
        (d.modSeg g fun s => { s with cfg := (d.seg g).cfg.written l }).modSched g fun s =>
          { s with floorInEffect := ((d.seg g).cfg.written l).cycleFloor }
        else d.modSeg g fun s => { s with cfg := (d.seg g).cfg.written l }) := by
      split
      · exact taken.modSched g _ id
      · exact taken
    show Sound G w (if _ then _ else _)
    split
    · exact floored.withdrawOutside g
    · exact floored

theorem Sound.writeSegment (h : Sound G w d) (i : Nat) (l : List Field) : Sound G w (d.writeSegment i l).1 := by
  unfold Dev.writeSegment
  split
  · exact h.writeSegmentAt _ _
  · exact h

end Keep

end Sys2Proof.Machine
end

