-- ==== Sys2Proof/Proofs/KeptByTables.lean ====
section
/-! The laws are kept by WRITE and DELETE of the STATION, ALIAS and PRINTER tables (R59, R60, R80, R81, R146, R147). -/

namespace Sys2Proof.Machine

open Sys2Proof

-- one proof after another: proofs that wait for each other take a thread each
set_option Elab.async false

theorem stationNumber_iff {n : Nat} : stationNumber n = true ↔ 1 ≤ n ∧ n ≤ 254 := by
  simp [stationNumber]

theorem clampedOr_le {l : List Field} {code lo hi old : Nat} (range : lo ≤ hi) (h : old ≤ hi) :
    clampedOr l code lo hi old ≤ hi := by
  unfold clampedOr
  split
  · unfold clamp
    omega
  · exact h

theorem tapOr_le {l : List Field} {old : Option Nat} (h : ∀ m, old = some m → m ≤ 2047) :
    ∀ m, tapOr l old = some m → m ≤ 2047 := by
  intro m hm
  unfold tapOr at hm
  split at hm
  · split at hm
    · exact nomatch hm
    · rw [← Option.some.inj hm, clamp]
      omega
  · exact h m hm

section Keep

variable {G : Law → Prop} {w : Slack} {d : Dev} {g : Seg} {n : Nat}

/-! ### STATION -/

theorem Sound.changeStation (h : Sound G w d) (e : Station) (l : List Field) : Sound G w (d.changeStation e l).1 := by
  have changed : Sound G w (d.modStation e.eid fun x => { x with
      origin := originOf (natOr l 5 e.origin.code), weight := clampedOr l 7 0 15 x.weight, tap := tapOr l x.tap }) :=
    h.modStation _ _ (by
      intro x
      exact ⟨rfl, rfl, fun r => ⟨clampedOr_le (Nat.zero_le _) r.1, tapOr_le r.2⟩⟩)
  unfold Dev.changeStation
  dsimp only
  split
  · exact changed.forgetAt _ _
  · exact changed

/-- A written entry joins the table at a free place (R59). -/
theorem Sound.createWritten (h : Sound G w d) {l : List Field} {o : Origin} {weight : Nat} {tap : Option Nat}
    (room : G .stations → d.stations.length < Config.stationMax ∧ d.station g n = none) (number : stationNumber n = true)
    (ranges : G .printers → weight ≤ 15 ∧ ∀ m, tap = some m → m ≤ 2047) :
    Sound G w (d.createStation (d.writtenStation g n l o weight tap)) :=
  h.createStation room (fun _ => stationNumber_iff.mp number) fun hk =>
    ⟨clampedOr_le (Nat.zero_le _) (ranges hk).1, tapOr_le (ranges hk).2⟩

theorem Sound.writeNewStation (h : Sound G w d) (l : List Field) : Sound G w (d.writeNewStation l).1 := by
  unfold Dev.writeNewStation
  split
  · split
    · exact h
    · rename_i g _
      dsimp only
      split
      · exact h
      rename_i number
      split
      · exact h
      rename_i free
      split
      · exact h
      rename_i room
      refine h.createWritten (fun _ => ⟨Nat.lt_of_not_le room, by simpa using free⟩) (by simpa using number)
        fun _ => ⟨by decide, fun _ hm => nomatch hm⟩
  · exact h

theorem length_removeFirst {α : Type} {p : α → Bool} {a : α} {l : List α} (ha : a ∈ l) (hp : p a = true) :
    (removeFirst p l).length < l.length := by
  induction l with
  | nil => exact absurd ha List.not_mem_nil
  | cons b l ih =>
    rw [removeFirst]
    split
    · exact Nat.lt_succ_self _
    · rename_i notB
      rcases List.mem_cons.mp ha with rfl | ha
      · exact absurd hp notB
      · exact Nat.succ_lt_succ (ih ha)

theorem Sound.writeOldStation (h : Sound G w d) {e : Station} (he : e ∈ d.stations) (l : List Field) :
    Sound G w (d.writeOldStation e l).1 := by
  unfold Dev.writeOldStation
  split
  · exact h
  · rename_i g _
    dsimp only
    split
    · exact h
    rename_i number
    split
    · exact h.changeStation e l
    split
    · exact h
    rename_i free
    split
    · exact h
    rename_i unnamed
    have unnamed : d.printerAt e.seg e.number = none := by
      simp only [not_or, Bool.not_eq_true, Option.isSome_eq_false_iff, Option.isNone_iff_eq_none] at unnamed
      exact unnamed.2
    refine (h.removeStation (fun _ => he) fun _ => unnamed).createWritten (fun hk => ⟨?_, ?_⟩) (by simpa using number)
      fun hk => ?_
    · have ok : StationsOk d := h.holds .stations hk
      rw [Dev.removeStation_stations]
      exact (length_removeFirst (p := fun x => x.eid == e.eid) he (beq_self_eq_true _)).trans_le ok.2.1
    · have free : d.station g (natOr l 2 e.number) = none := by simpa using free
      rw [Dev.station_none] at free ⊢
      rw [Dev.removeStation_stations]
      exact fun hm => free (((removeFirst_sublist _).map _).subset hm)
    · exact (h.holds .printers hk : PrintersOk d).2.2 e he

theorem Sound.writeStation (h : Sound G w d) (i : Nat) (l : List Field) : Sound G w (d.writeStation i l).1 := by
  unfold Dev.writeStation
  split
  · exact h
  · split
    · exact h.writeOldStation (List.mem_of_getElem? ‹_›) l
    · exact h.writeNewStation l

theorem Sound.deleteStation (h : Sound G w d) (i : Nat) : Sound G w (d.deleteStation i).1 := by
  unfold Dev.deleteStation
  split
  · exact h
  · split
    · exact h
    · rename_i unnamed
      exact h.removeStation (fun _ => List.mem_of_getElem? ‹_›) fun _ => by simpa using unnamed

/-! ### ALIAS -/

/-- The aliases that stay beside a STATIC one put in place of `old`: none on its number, none of its target. -/
def PutApart (old : Option AliasEntry) (g : Seg) (n : Nat) (t : Target) (b : AliasEntry) : Prop :=
  (∀ o, old = some o → sameAlias o b = false) → b.seg = g → b.number ≠ n ∧ b.target ≠ t

/-- What a write that R80 does not refuse finds: no station on a number that its ALIAS entry comes to, and no other STATIC ALIAS entry
on its number or of its target. -/
theorem aliasRefused_none {old : Option AliasEntry} {t : Target} (granted : d.aliasRefused old g n t = none) :
    ((∀ o, old = some o → o.seg ≠ g ∨ o.number ≠ n) → d.station g n = none) ∧
    ∀ b ∈ d.aliases, b.kind = .static → PutApart old g n t b := by
  have apart_of : ∀ {p : AliasEntry → Bool}, ¬ (d.aliases.filter p).any
      (fun a => a.seg == g && (a.number == n || a.target == t)) = true → ∀ b ∈ d.aliases, p b = true → b.seg = g →
      b.number ≠ n ∧ b.target ≠ t := by
    intro p notAny b hb hp hs
    have none := fun any => notAny (List.any_eq_true.mpr ⟨b, List.mem_filter.mpr ⟨hb, hp⟩, any⟩)
    simpa [hs] using none
  unfold Dev.aliasRefused at granted
  cases old with
  | none =>
    dsimp only at granted
    split_ifs at granted with stands taken full
    refine ⟨fun _ => by simpa using stands, fun b hb static _ => apart_of taken b hb (by simp [static])⟩
  | some o =>
    dsimp only at granted
    split_ifs at granted with stands taken full
    refine ⟨fun moved => ?_, fun b hb static other => apart_of taken b hb (by simp [static, other o rfl])⟩
    rw [Bool.and_eq_true, not_and, Bool.not_eq_true, Option.isSome_eq_false_iff, Option.isNone_iff_eq_none] at stands
    exact stands (by simpa using moved o rfl)

/-- What R80 refuses and withdraws leaves every ALIAS entry but the old one apart from the one written. -/
theorem putApart {old : Option AliasEntry} {t : Target} (granted : d.aliasRefused old g n t = none) {b : AliasEntry}
    (hb : b ∈ d.aliases)
    (onNumber : b.kind = .dynamic → (∀ o, old = some o → sameAlias o b = false) → b.seg = g → b.number ≠ n)
    (onTarget : b.kind = .dynamic → (∀ o, old = some o → sameAlias o b = false) → b.seg = g → b.target ≠ t) :
    PutApart old g n t b := by
  cases hk : b.kind with
  | dynamic => exact fun other hs => ⟨onNumber hk other hs, onTarget hk other hs⟩
  | static => exact (aliasRefused_none granted).2 b hb hk

theorem moved_free {old : Option AliasEntry} {t : Target} (granted : d.aliasRefused old g n t = none)
    (moved : ∀ o, old = some o → o.seg ≠ g ∨ o.number ≠ n) : d.station g n = none :=
  (aliasRefused_none granted).1 moved

/-- The withdrawals of a taken ALIAS write (R80, steps 1 and 2). -/
def Dev.clearForAlias (d : Dev) (old : Option AliasEntry) (g : Seg) (n : Nat) (t : Target) : Dev :=
  let other := fun (a : AliasEntry) => match old with
    | some o => !sameAlias o a
    | none => true
  (d.withdrawAliases fun a => a.kind == .dynamic && a.seg == g && a.number == n && other a).withdrawAliases fun a =>
    a.kind == .dynamic && a.seg == g && a.target == t && other a

theorem Dev.putAlias_eq (d : Dev) (old : Option AliasEntry) (g : Seg) (n : Nat) (t : Target) :
    d.putAlias old g n t = match old with
      | none => (d.clearForAlias old g n t).roomForAlias.addAlias ⟨g, n, .static, t, .active, d.uptime, d.uptime⟩
      | some o => ((d.clearForAlias old g n t).withdrawAlias o.seg o.number).addAlias
          ⟨g, n, .static, t, if o.state = .conflict ∧ o.seg = g ∧ o.number = n then .conflict else .active, o.lastUsed,
            o.created⟩ := by
  cases old <;> rfl

theorem Sound.clearForAlias (h : Sound G w d) (old : Option AliasEntry) (g : Seg) (n : Nat) (t : Target) :
    Sound G w (d.clearForAlias old g n t) := (h.withdrawAliases _).withdrawAliases _

/-- After the withdrawals the aliases left are those of before, apart from the one written. -/
theorem clearForAlias_apart {old : Option AliasEntry} {t : Target} (granted : d.aliasRefused old g n t = none) :
    ∀ b ∈ (d.clearForAlias old g n t).aliases, b ∈ d.aliases ∧ PutApart old g n t b := by
  intro b hb
  obtain ⟨hb, notTarget⟩ := List.mem_filter.mp hb
  obtain ⟨hb, notNumber⟩ := List.mem_filter.mp hb
  refine ⟨hb, putApart granted hb (fun dyn other hs same => ?_) fun dyn other hs same => ?_⟩
  · cases old with
    | none => simp [dyn, hs, same] at notNumber
    | some o => simp [dyn, hs, same, other o rfl] at notNumber
  · cases old with
    | none => simp [dyn, hs, same] at notTarget
    | some o => simp [dyn, hs, same, other o rfl] at notTarget

theorem Sound.roomForAlias (h : Sound G w d) : Sound G w d.roomForAlias := by
  unfold Dev.roomForAlias
  split
  · exact h
  · split
    · exact h.withdrawAlias _ _
    · exact h

theorem Dev.roomForAlias_sub (d : Dev) : ∀ b ∈ d.roomForAlias.aliases, b ∈ d.aliases := by
  intro b hb
  unfold Dev.roomForAlias at hb
  split at hb
  · exact hb
  · split at hb
    · exact (List.mem_filter.mp hb).1
    · exact hb

theorem aliasAt_none_of_apart {e : Dev} (apart : ∀ b ∈ e.aliases, b.seg = g → b.number ≠ n) : e.aliasAt g n = none := by
  rw [Dev.aliasAt_none]
  intro hm
  obtain ⟨b, hb, here⟩ := List.mem_map.mp hm
  obtain ⟨hs, hn⟩ := Prod.mk.inj here
  exact apart b hb hs hn

theorem touches_clearForAlias (d : Dev) (old : Option AliasEntry) (g : Seg) (n : Nat) (t : Target) :
    Touches [.aliases] d (d.clearForAlias old g n t) :=
  Touches.then (touches_withdrawAliases _ _) (touches_withdrawAliases _ _)

theorem touches_roomForAlias (d : Dev) : Touches [.aliases] d d.roomForAlias := by
  unfold Dev.roomForAlias
  split
  · exact .refl _ _
  · split
    · exact touches_withdrawAliases _ _
    · exact .refl _ _

theorem Sound.putNew (h : Sound G w d) {t : Target} (number : stationNumber n = true)
    (target : G .rules → targetOk d.set.base g t = true) (granted : d.aliasRefused none g n t = none)
    (room : G .aliases → d.aliases.length < Config.aliasMax) :
    Sound G w (d.putAlias none g n t) := by
  have apart : ∀ b ∈ (d.clearForAlias none g n t).roomForAlias.aliases, b.seg = g → b.number ≠ n ∧ b.target ≠ t :=
    fun b hb => (clearForAlias_apart granted b (Dev.roomForAlias_sub _ b hb)).2 fun _ no => nomatch no
  have frame : Touches [.aliases] d (d.clearForAlias none g n t).roomForAlias :=
    Touches.then (touches_clearForAlias _ _ _ _ _) (touches_roomForAlias _)
  rw [Dev.putAlias_eq]
  refine (h.clearForAlias none g n t).roomForAlias.addAlias (fun hk => ⟨?_, ?_⟩) fun hk => ⟨⟨?_, ?_, ?_, ?_, ?_⟩, ?_⟩
  · have sub : ((d.clearForAlias none g n t).roomForAlias.aliases).Sublist d.aliases := by
      unfold Dev.roomForAlias
      have cleared : (d.clearForAlias none g n t).aliases.Sublist d.aliases :=
        List.filter_sublist.trans List.filter_sublist
      split
      · exact cleared
      · split
        · exact List.filter_sublist.trans cleared
        · exact cleared
    exact sub.length_le.trans_lt (room hk)
  · exact aliasAt_none_of_apart fun b hb hs => (apart b hb hs).1
  · exact (stationNumber_iff.mp number).1
  · exact (stationNumber_iff.mp number).2
  · rw [← frame .settings (by decide)]
    exact target hk
  · exact fun no => nomatch no
  · refine fun _ => .inr ?_
    rw [Dev.station, ← frame .stations (by decide)]
    exact moved_free granted fun _ no => nomatch no
  · rintro b hb ⟨hs, ht, -⟩
    exact (apart b hb hs.symm).2 ht.symm

theorem Sound.putOld (h : Sound G w d) {t : Target} {o : AliasEntry} (ho : o ∈ d.aliases) (number : stationNumber n = true)
    (target : G .rules → targetOk d.set.base g t = true) (granted : d.aliasRefused (some o) g n t = none) :
    Sound G w (d.putAlias (some o) g n t) := by
  have apart : ∀ b ∈ ((d.clearForAlias (some o) g n t).withdrawAlias o.seg o.number).aliases, b.seg = g →
      b.number ≠ n ∧ b.target ≠ t := by
    intro b hb
    obtain ⟨hb, notOld⟩ := List.mem_filter.mp hb
    refine (clearForAlias_apart granted b hb).2 ?_
    rintro _ ⟨⟩
    rw [sameAlias, ← Bool.not_eq_true]
    intro same
    simp only [Bool.and_eq_true, beq_iff_eq] at same
    simp [same.1, same.2] at notOld
  have frame : Touches [.aliases] d ((d.clearForAlias (some o) g n t).withdrawAlias o.seg o.number) :=
    Touches.then (touches_clearForAlias _ _ _ _ _) (touches_withdrawAliases _ _)
  rw [Dev.putAlias_eq]
  refine ((h.clearForAlias (some o) g n t).withdrawAlias o.seg o.number).addAlias (fun hk => ⟨?_, ?_⟩) fun hk =>
    ⟨⟨?_, ?_, ?_, ?_, ?_⟩, ?_⟩
  · have sub : (((d.clearForAlias (some o) g n t).withdrawAlias o.seg o.number).aliases).Sublist
        (d.withdrawAlias o.seg o.number).aliases :=
      (List.filter_sublist.trans List.filter_sublist : (d.clearForAlias (some o) g n t).aliases.Sublist d.aliases).filter _
    have ok : AliasesOk d := h.holds .aliases hk
    exact sub.length_le.trans_lt ((Dev.withdrawAlias_length ho).trans_le ok.2)
  · exact aliasAt_none_of_apart fun b hb hs => (apart b hb hs).1
  · exact (stationNumber_iff.mp number).1
  · exact (stationNumber_iff.mp number).2
  · rw [← frame .settings (by decide)]
    exact target hk
  · exact fun no => nomatch no
  · intro act
    rw [Dev.station, ← frame .stations (by decide)]
    by_cases here : o.seg = g ∧ o.number = n
    · obtain ⟨rfl, rfl⟩ := here
      obtain ⟨fits, -⟩ := h.holds .rules hk
      obtain ⟨-, -, -, -, free⟩ := fits o ho
      refine free ?_
      cases hst : o.state
      · rfl
      · simp [hst] at act
    · exact .inr (moved_free granted fun x hx => by
        obtain rfl := Option.some.inj hx
        exact Decidable.not_and_iff_or_not.mp here)
  · rintro b hb ⟨hs, ht, -⟩
    exact (apart b hb hs.symm).2 ht.symm

theorem Sound.writeAlias (h : Sound G w d) (i : Nat) (l : List Field) : Sound G w (d.writeAlias i l).1 := by
  unfold Dev.writeAlias
  dsimp only
  split
  · exact h
  rename_i index
  split
  · exact h
  split
  · exact h
  rename_i fits
  split
  · exact h
  rename_i granted
  simp only [Bool.or_eq_true, Bool.not_eq_true', not_or, Bool.not_eq_false] at fits
  cases hold : d.aliases[i]? with
  | none =>
    rw [hold] at granted
    refine h.putNew fits.1 (fun _ => fits.2) granted fun hk => ?_
    have past := List.getElem?_eq_none_iff.mp hold
    rw [not_or, not_le] at index
    exact past.trans_lt index.1
  | some o =>
    rw [hold] at granted
    exact h.putOld (List.mem_of_getElem? hold) fits.1 (fun _ => fits.2) granted

theorem Sound.deleteAlias (h : Sound G w d) (i : Nat) : Sound G w (d.deleteAlias i).1 := by
  unfold Dev.deleteAlias
  split
  · exact h
  · split
    · exact h.withdrawAlias _ _
    · exact h

end Keep

end Sys2Proof.Machine
end

