-- ==== Sys2Proof/Proofs/KeptByPrinterEntries.lean ====
section
/-! The laws are kept by WRITE and DELETE of the PRINTER table, and so by those of any table (R146, R147, R197, R198). -/

namespace Sys2Proof.Machine

open Sys2Proof

-- one proof after another: proofs that wait for each other take a thread each
set_option Elab.async false

section Keep

variable {G : Law → Prop} {w : Slack} {d : Dev} {g : Seg} {n : Nat}

/-- No job names a printer whose count of jobs is 0. -/
theorem Dev.no_jobs {i : Nat} (h : ¬ 0 < d.jobCount i) : ∀ j ∈ d.spool.jobs, j.printer ≠ i := by
  intro j hj here
  refine h (List.length_pos_of_mem (List.mem_filter.mpr ⟨hj, ?_⟩) : 0 < d.jobCount i)
  simp [here]

/-- The entry at a place of the printer table without jobs is set: emptied, or given an entry that waits for its station's
role at a station of its own. -/
theorem Sound.setPrinter (h : Sound G w d) {i : Nat} {q : Option Printer}
    (noJobs : G .jobs → ∀ j ∈ d.spool.jobs, j.printer ≠ i) (waits : ∀ p, q = some p → p.awaitingRole = true → p.feed = .lost)
    (place : G .printers → ∀ p, q = some p → (d.station p.seg p.number).isSome = true ∧ PrinterRanges p ∧
      ∀ k r, k ≠ i → d.printer k = some r → (r.seg, r.number) ≠ (p.seg, p.number)) :
    Sound G w (d.setPrinter i q) := by
  have back : ∀ k p, (d.setPrinter i q).printer k = some p → k = i ∧ q = some p ∨ k ≠ i ∧ d.printer k = some p := by
    intro k p hp
    rw [Dev.setPrinter_printer] at hp
    split at hp
    · rename_i here
      exact .inl ⟨here.1.symm, hp⟩
    · rename_i notHere
      refine .inr ⟨fun here => notHere ⟨here.symm, here ▸ Dev.printer_lt hp⟩, hp⟩
  refine h.update (touches_setPrinter d i q) fun k hk hr => ?_
  cases k <;> try exact absurd hr (by decide)
  case places =>
    have length : d.spool.printers.length = Config.printerMax := h.holds .places hk
    exact List.length_set.trans length
  case jobs =>
    have table : JobTableOk [] d := h.holds .jobs hk
    obtain ⟨len, ids, serials, next, fit, awaiting, apart⟩ := table
    refine ⟨len, ids, serials, next, fun j hj => ?_, fun k p hp haw => ?_, apart⟩
    · obtain ⟨low, high, serial, queued, p, hp, busy⟩ := fit j hj
      refine ⟨low, high, serial, queued, p, ?_, busy⟩
      rw [Dev.setPrinter_printer, if_neg fun here => noJobs hk j hj here.1.symm]
      exact hp
    · rcases back k p hp with ⟨-, hq⟩ | ⟨-, hp⟩
      · exact waits p hq haw
      · exact awaiting k p hp haw
  case printers =>
    have entriesOk : PrintersOk d := h.holds .printers hk
    obtain ⟨entries, distinct, ranges⟩ := entriesOk
    refine ⟨fun k p hp => ?_, fun k m p r hp hr same => ?_, ranges⟩
    · rcases back k p hp with ⟨-, hq⟩ | ⟨-, hp⟩
      · exact ⟨(place hk p hq).1, (place hk p hq).2.1⟩
      · exact entries k p hp
    · rcases back k p hp with ⟨hki, hq⟩ | ⟨hki, oldk⟩ <;> rcases back m r hr with ⟨hmi, hs⟩ | ⟨hmi, oldm⟩
      · exact hki.trans hmi.symm
      · exact absurd same.symm ((place hk p hq).2.2 m r hmi oldm)
      · exact absurd same ((place hk r hs).2.2 k p hki oldk)
      · exact distinct k m p r oldk oldm same

theorem Sound.returnStation (h : Sound G w d) (g : Seg) (n : Nat) : Sound G w (d.returnStation g n) := by
  unfold Dev.returnStation
  split
  · exact (h.modStation _ _ (entryKept_role .terminal)).forgetAt g n
  · exact h

/-- An entry that waits for its station's role comes to name a station that no other entry names (R146). -/
theorem Sound.placePrinter (h : Sound G w d) {i : Nat} {p : Printer} (noJobs : G .jobs → ∀ j ∈ d.spool.jobs, j.printer ≠ i)
    (waits : p.feed = .lost) (standing : (d.station p.seg p.number).isSome = true) (ranges : G .printers → PrinterRanges p)
    (own : G .printers → ∀ k r, k ≠ i → d.printer k = some r → (r.seg, r.number) ≠ (p.seg, p.number)) :
    Sound G w (d.placePrinter i p) := by
  have set : Sound G w (d.setPrinter i (some p)) := by
    refine h.setPrinter noJobs (fun q hq _ => ?_) fun hk q hq => ?_
    all_goals obtain rfl := Option.some.inj hq
    · exact waits
    · exact ⟨standing, ranges hk, own hk⟩
  unfold Dev.placePrinter
  dsimp only
  refine Sound.flushForPrinter ?_ _ _
  split
  · exact set.returnStation _ _
  · exact set

theorem Printer.written_ranges {p : Printer} (l : List Field) (h : PrinterRanges p) : PrinterRanges (p.written l) :=
  ⟨clamp_clampedOr h.1, clamp_clampedOr h.2.1, clamp_clampedOr h.2.2.1, clamp_clampedOr h.2.2.2⟩

theorem Sound.changePrinter (h : Sound G w d) (i : Nat) (l : List Field) : Sound G w (d.changePrinter i l).1 := by
  refine h.modPrinter_same _ ?_
  intro p
  exact ⟨rfl, rfl, rfl, rfl, Printer.written_ranges l⟩

/-- No other entry names a station that the table finds at this entry or nowhere. -/
theorem others_elsewhere {i : Nat} (ok : PrintersOk d) (length : d.spool.printers.length = Config.printerMax)
    (free : ¬ (d.printerAt g n).any (fun k => k != i) = true) :
    ∀ k r, k ≠ i → d.printer k = some r → (r.seg, r.number) ≠ (g, n) := by
  intro k r hki hr here
  have lt : ∀ {m : Nat} {r : Printer}, d.printer m = some r → m < 8 := fun h => (Dev.printer_lt h).trans_eq length
  cases hat : d.printerAt g n with
  | none => exact Dev.printerAt_none hat (lt hr) hr here
  | some m =>
    rw [hat] at free
    obtain rfl : m = i := by simpa using free
    have found := List.find?_some hat
    cases hm : d.printer m with
    | none => simp [hm] at found
    | some q =>
      simp only [hm, Bool.and_eq_true, beq_iff_eq] at found
      exact hki (ok.2.1 k m r q hr hm (here.trans (by rw [found.1, found.2])))

theorem Sound.writePrinterTo (h : Sound G w d) (i : Nat) (g : Seg) (n : Nat) (l : List Field) :
    Sound G w (d.writePrinterTo i g n l).1 := by
  unfold Dev.writePrinterTo
  split
  · exact h
  rename_i standing
  have standing : (d.station g n).isSome = true := by
    cases hs : d.station g n <;> simp [hs] at standing ⊢
  split
  · exact h
  rename_i free
  have own : G .printers → ∀ k r, k ≠ i → d.printer k = some r → (r.seg, r.number) ≠ (g, n) := fun hk =>
    others_elsewhere (h.holds .printers hk) (h.holds .places (h.closed.printers hk).1) free
  split
  · rename_i new
    refine h.placePrinter (fun hk j hj here => ?_) rfl standing (fun _ => Printer.written_ranges l ?_) own
    · have table : JobTableOk [] d := h.holds .jobs hk
      obtain ⟨-, -, -, -, fit, -⟩ := table
      obtain ⟨-, -, -, -, p, hp, -⟩ := fit j hj
      rw [here, new] at hp
      exact nomatch hp
    · exact ⟨rfl, rfl, rfl, rfl⟩
  · rename_i o ho
    split
    · exact h.changePrinter i l
    split
    · exact h
    rename_i free
    exact h.placePrinter (fun _ => Dev.no_jobs free) rfl standing
      (fun hk => Printer.written_ranges l ((h.holds .printers hk : PrintersOk d).1 i o ho).2) own

theorem Sound.writePrinter (h : Sound G w d) (i : Nat) (l : List Field) : Sound G w (d.writePrinter i l).1 := by
  unfold Dev.writePrinter
  split
  · exact h
  split
  · split
    · dsimp only
      split
      · exact h.writePrinterTo _ _ _ _
      · exact h
    · exact h
  · split
    · exact h.changePrinter i l
    · exact h

theorem Sound.deletePrinter (h : Sound G w d) (i : Nat) : Sound G w (d.deletePrinter i).1 := by
  unfold Dev.deletePrinter
  split
  · exact h
  split
  · exact h
  · split
    · exact h
    · rename_i free
      exact (h.setPrinter (q := none) (fun _ => Dev.no_jobs free) (fun _ no => nomatch no)
        fun _ _ no => nomatch no).returnStation _ _

/-! ### Any table -/

theorem Sound.writeTable (h : Sound G w d) (t : Table) (i : Nat) (l : List Field) : Sound G w (d.writeTable t i l).1 := by
  cases t
  case settings =>
    simp only [Dev.writeTable]
    split
    · exact h.writeSettings l
    · exact h
  case segment => exact h.writeSegment i l
  case station => exact h.writeStation i l
  case aliases => exact h.writeAlias i l
  case printer => exact h.writePrinter i l
  all_goals exact h

theorem Sound.deleteIn (h : Sound G w d) (t : Table) (i : Nat) : Sound G w (d.deleteIn t i).1 := by
  unfold Dev.deleteIn
  split
  · exact h
  · cases t
    case station => exact h.deleteStation i
    case aliases => exact h.deleteAlias i
    case printer => exact h.deletePrinter i
    all_goals exact h

theorem Sound.writeOp (h : Sound G w d) (table index : Byte) (l : List Field) :
    Sound G w (d.writeOp table index l).1 := by
  unfold Dev.writeOp
  split
  · exact h.writeTable _ _ _
  · exact h

theorem Sound.deleteOp (h : Sound G w d) (table index : Byte) : Sound G w (d.deleteOp table index).1 := by
  unfold Dev.deleteOp
  split
  · exact h.deleteIn _ _
  · exact h

end Keep

end Sys2Proof.Machine
end

