-- ==== Sys2Proof/Proofs/KeptByLoading.lean ====
section
/-! The laws are kept by the loading of the tables from a sound image, and the settings that a start takes are in their
ranges (R61, R62, R82, R110, R166, R168, R201). -/

namespace Sys2Proof.Machine

open Sys2Proof

-- one proof after another: proofs that wait for each other take a thread each
set_option Elab.async false

theorem Settings.inRange_inRange (s : Settings) : s.inRange.inRange = s.inRange :=
  Settings.inRange_iff.mpr ⟨clamp_clamp _, clamp_clamp _, clamp_clamp _, clamp_clamp _, clamp_clamp _, clamp_clamp _,
    clamp_clamp _, clamp_clamp _, clamp_clamp _, clamp_clamp _⟩

theorem SegSettings.inRange_inRange (c : SegSettings) : c.inRange.inRange = c.inRange :=
  SegSettings.inRange_iff.mpr ⟨clamp_clamp _, clamp_clamp _, clamp_clamp _, clamp_clamp _, clamp_clamp _, clamp_clamp _,
    clamp_clamp _, clamp_clamp _, clamp_clamp _, clamp_clamp _, clamp_clamp _, clamp_clamp _, clamp_clamp _,
    clamp_clamp _, clamp_clamp _, clamp_clamp _, clamp_clamp _, clamp_clamp _, clamp_clamp _, clamp_clamp _,
    clamp_clamp _, clamp_clamp _, clamp_clamp _, clamp_clamp _, clamp_clamp _, clamp_clamp _⟩

/-- What a sound image says of its parts. -/
theorem StoredImage.sound_iff {m : StoredImage} : m.sound = true ↔
    m.settings.inRange.sound = true ∧ (∀ g, (m.segs.get g).inRange.sound g = true) ∧
    (∀ e ∈ m.stations, stationNumber e.number = true) ∧
    (∀ a ∈ m.aliases, stationNumber a.number = true ∧ targetOk m.settings.base a.seg a.target = true) ∧
    ∀ p ∈ m.printers, p.id < Config.printerMax ∧ stationNumber p.number = true := by
  have segs : (∀ g ∈ allSegs, (m.segs.get g).inRange.sound g = true) ↔ ∀ g, (m.segs.get g).inRange.sound g = true :=
    ⟨fun h g => h g (by cases g <;> decide), fun h g _ => h g⟩
  simp only [StoredImage.sound, Bool.and_eq_true, List.all_eq_true, decide_eq_true_eq, segs, and_assoc]

theorem usable_sound {a : ImageArea} {m : StoredImage} (h : a.usable = some m) : m.sound = true := by
  unfold ImageArea.usable at h
  split at h
  · split at h
    · obtain rfl := Option.some.inj h
      assumption
    · exact nomatch h
  all_goals exact nomatch h

/-- The settings that a start takes keep the rules of R199 and those of each segment. -/
structure StartOk (s : Settings × Four SegSettings) : Prop where
  range : s.1.inRange = s.1
  sound : ({ s.1 with base := 0#48 } : Settings).sound = true
  segs : ∀ g, (s.2.get g).inRange = s.2.get g ∧ (s.2.get g).sound g = true

theorem startSettings_ok (d : Dev) {a : ImageArea} : StartOk (d.startSettings a.usable) := by
  cases h : a.usable with
  | none =>
    refine ⟨rfl, (by decide : ({ Settings.defaults 0#48 with base := 0#48 } : Settings).sound = true), fun g => ?_⟩
    have defaults : (SegSettings.defaults).inRange = .defaults ∧ SegSettings.defaults.sound g = true := by
      cases g <;> decide
    cases g <;> exact defaults
  | some m =>
    obtain ⟨sound, segs, -⟩ := StoredImage.sound_iff.mp (usable_sound h)
    refine ⟨Settings.inRange_inRange _, Settings.sound_base sound, fun g => ?_⟩
    cases g
    · exact ⟨SegSettings.inRange_inRange _, segs .s0⟩
    · exact ⟨SegSettings.inRange_inRange _, segs .s1⟩
    · exact ⟨SegSettings.inRange_inRange _, segs .s2⟩
    · exact ⟨SegSettings.inRange_inRange _, segs .s3⟩

theorem StartOk.quota {s : Settings × Four SegSettings} (h : StartOk s) : s.1.pauseOn ≤ Config.poolBlocks := by
  have sound := h.sound
  simp only [Settings.sound, Bool.and_eq_true, decide_eq_true_eq] at sound
  obtain ⟨⟨⟨⟨-, lt⟩, le⟩, -⟩, -⟩ := sound
  have : Config.poolBlocks = 2048 := rfl
  omega

section Keep

variable {G : Law → Prop} {w : Slack} {d : Dev} {g : Seg} {n : Nat}

/-- In a part without aliases no conflict check is to be made. -/
theorem Sound.checkedEmpty (h : Sound G (w.checking g n) d) (empty : d.aliases = []) : Sound G w d :=
  h.checked fun _ a ha => by
    rw [empty] at ha
    exact absurd ha List.not_mem_nil

theorem touches_loadStation (d : Dev) (s : SavedStation) : Touches [.stations, .names] d (d.loadStation s) :=
  Touches.ite (fun _ => .refl _ _) fun _ => touches_insertStation _ _

theorem touches_makePrinterStation (d : Dev) (g : Seg) (n : Nat) :
    Touches [.stations] d (d.makePrinterStation g n) := by
  unfold Dev.makePrinterStation
  split
  · exact touches_modStation _ _ _
  · exact .refl _ _

theorem touches_loadPrinter (d : Dev) (p : SavedPrinter) :
    Touches [.stations, .names, .printers] d (d.loadPrinter p) := by
  have stationed : Touches [.stations, .names, .printers] d (if (d.station p.seg p.number).isSome then d else
      d.loadStation ⟨p.seg, p.number, 4, none⟩) :=
    Touches.ite (fun _ => .refl _ _) fun _ => (touches_loadStation _ _).mono
  unfold Dev.loadPrinter
  dsimp only
  generalize (if (d.station p.seg p.number).isSome then d else d.loadStation ⟨p.seg, p.number, 4, none⟩) = e at *
  split
  · exact .refl _ _
  · exact stationed.trans (Touches.then (touches_makePrinterStation _ _ _) (touches_setPrinter _ _ _))

theorem touches_loadAlias (d : Dev) (a : SavedAlias) : Touches Piece.aliasing d (d.loadAlias a) := by
  unfold Dev.loadAlias
  dsimp only
  split
  · exact .refl _ _
  · split
    · exact Touches.then (touches_addAlias _ _) (touches_conflictCheck _ _ _)
    · exact (touches_addAlias _ _).mono

/-- A loop of operations that leave a piece alone leaves it alone. -/
theorem foldl_same {α β : Type} {f : Dev → α → Dev} (piece : Dev → β) (same : ∀ d a, piece (f d a) = piece d)
    (l : List α) : ∀ d : Dev, piece (l.foldl f d) = piece d := by
  induction l with
  | nil => exact fun _ => rfl
  | cons a l ih => exact fun d => (ih _).trans (same d a)

theorem Dev.loadStation_aliases (d : Dev) (s : SavedStation) : (d.loadStation s).aliases = d.aliases :=
  (touches_loadStation d s .aliases (by decide)).symm

theorem Dev.loadPrinter_aliases (d : Dev) (p : SavedPrinter) : (d.loadPrinter p).aliases = d.aliases :=
  (touches_loadPrinter d p .aliases (by decide)).symm

theorem Dev.loadStation_set (d : Dev) (s : SavedStation) : (d.loadStation s).set = d.set :=
  (touches_loadStation d s .settings (by decide)).symm

theorem Dev.loadPrinter_set (d : Dev) (p : SavedPrinter) : (d.loadPrinter p).set = d.set :=
  (touches_loadPrinter d p .settings (by decide)).symm

theorem Dev.loadAlias_set (d : Dev) (a : SavedAlias) : (d.loadAlias a).set = d.set :=
  (touches_loadAlias d a .settings (by decide)).symm

theorem Sound.loadStation (h : Sound G w d) {s : SavedStation} (number : stationNumber s.number = true)
    (empty : d.aliases = []) : Sound G w (d.loadStation s) := by
  unfold Dev.loadStation
  split
  · exact h
  · rename_i room
    simp only [Bool.or_eq_true, decide_eq_true_eq, not_or, Bool.not_eq_true, Option.isSome_eq_false_iff,
      Option.isNone_iff_eq_none, not_le] at room
    refine (h.insertStation (fun _ => ⟨room.2, room.1⟩) (fun _ => stationNumber_iff.mp number)
      fun _ => ⟨?_, fun m hm => ?_⟩).checkedEmpty empty
    · show clamp 0 15 s.weight ≤ 15
      unfold clamp
      omega
    · obtain ⟨v, -, rfl⟩ := Option.map_eq_some_iff.mp hm
      unfold clamp
      omega

theorem Sound.makePrinterStation (h : Sound G w d) (g : Seg) (n : Nat) : Sound G w (d.makePrinterStation g n) := by
  unfold Dev.makePrinterStation
  split
  · exact h.modStation _ _ (entryKept_role .printer)
  · exact h

theorem Dev.makePrinterStation_station (d : Dev) (g k : Seg) (n m : Nat) :
    ((d.makePrinterStation g n).station k m).isSome = (d.station k m).isSome := by
  unfold Dev.makePrinterStation
  split
  · rename_i e _
    have places : (d.modStation e.eid fun e => { e with role := .printer }).stations.map Station.place =
        d.stations.map Station.place := map_modifyFirst _ (by intro _ _; rfl) _
    rw [Bool.eq_iff_iff, Dev.station_isSome, Dev.station_isSome, places]
  · rfl

theorem Dev.loadStation_spool (d : Dev) (s : SavedStation) : (d.loadStation s).spool = d.spool := by
  unfold Dev.loadStation
  split <;> rfl

theorem Dev.makePrinterStation_spool (d : Dev) (g : Seg) (n : Nat) : (d.makePrinterStation g n).spool = d.spool := by
  unfold Dev.makePrinterStation
  split <;> rfl

theorem Sound.loadPrinter (h : Sound G w d) {p : SavedPrinter} (number : stationNumber p.number = true)
    (empty : d.aliases = []) : Sound G w (d.loadPrinter p) := by
  have stationed : Sound G w (if (d.station p.seg p.number).isSome then d else
      d.loadStation ⟨p.seg, p.number, 4, none⟩) := by
    split
    · exact h
    · exact h.loadStation number empty
  have spool : (if (d.station p.seg p.number).isSome then d else d.loadStation ⟨p.seg, p.number, 4, none⟩).spool =
      d.spool := by
    split
    · rfl
    · exact Dev.loadStation_spool _ _
  unfold Dev.loadPrinter
  dsimp only
  generalize (if (d.station p.seg p.number).isSome then d else d.loadStation ⟨p.seg, p.number, 4, none⟩) = e at *
  split
  · exact h
  · rename_i free
    simp only [Bool.or_eq_true, not_or, Bool.not_eq_true, Option.isSome_eq_false_iff, Option.isNone_iff_eq_none] at free
    obtain ⟨⟨standing, unnamed⟩, new⟩ := free
    have spool : (e.makePrinterStation p.seg p.number).spool = d.spool :=
      (Dev.makePrinterStation_spool _ _ _).trans spool
    have printer : ∀ k, (e.makePrinterStation p.seg p.number).printer k = d.printer k := fun k =>
      congrArg (fun s : Spooler => s.printers.getD k none) spool
    refine (stationed.makePrinterStation p.seg p.number).setPrinter (fun hk j hj here => ?_) (fun q hq haw => ?_)
      fun hk q hq => ?_
    · have table : JobTableOk [] d := h.holds .jobs hk
      obtain ⟨-, -, -, -, fit, -⟩ := table
      rw [spool] at hj
      obtain ⟨-, -, -, -, q, hq, -⟩ := fit j hj
      rw [here, new] at hq
      exact nomatch hq
    · obtain rfl := Option.some.inj hq
      exact absurd haw Bool.false_ne_true
    · obtain rfl := Option.some.inj hq
      refine ⟨?_, ⟨clamp_clamp _, clamp_clamp _, clamp_clamp _, clamp_clamp _⟩, fun k r _ hr => ?_⟩
      · show ((e.makePrinterStation p.seg p.number).station p.seg p.number).isSome = true
        rw [Dev.makePrinterStation_station]
        cases hs : e.station p.seg p.number <;> simp [hs] at standing ⊢
      · rw [printer] at hr
        have length : d.spool.printers.length = Config.printerMax := h.holds .places (h.closed.printers hk).1
        exact Dev.printerAt_none unnamed ((Dev.printer_lt hr).trans_eq length) hr

theorem Sound.loadAlias (h : Sound G w d) {a : SavedAlias} (number : stationNumber a.number = true)
    (target : targetOk d.set.base a.seg a.target = true) : Sound G w (d.loadAlias a) := by
  unfold Dev.loadAlias
  dsimp only
  split
  · exact h
  · rename_i free
    simp only [Bool.or_eq_true, decide_eq_true_eq, not_or, not_le, Bool.not_eq_true, List.any_eq_false,
      Bool.and_eq_true, beq_iff_eq, not_and] at free
    obtain ⟨apart, room⟩ := free
    have alone : d.aliasAt a.seg a.number = none := aliasAt_none_of_apart fun b hb hs => (apart b hb hs).1
    have added : ∀ {v : Slack}, Sound G v d → ((a.seg, a.number) ∈ v.unchecked ∨ d.station a.seg a.number = none) →
        Sound G v (d.addAlias ⟨a.seg, a.number, .static, a.target, .active, d.uptime, d.uptime⟩) := by
      intro v h open'
      refine h.addAlias (fun _ => ⟨room, alone⟩) fun _ => ⟨⟨(stationNumber_iff.mp number).1,
        (stationNumber_iff.mp number).2, target, ?_, fun _ => open'⟩, ?_⟩
      · exact fun no => nomatch no
      · rintro b hb ⟨hs, ht, -⟩
        exact (apart b hb hs.symm).2 ht.symm
    split
    · refine Sound.conflictCheck (added (h.reslack (v := w.checking a.seg a.number) fun k _ hold => ?_)
        (.inl List.mem_cons_self))
      cases k
      case rules =>
        obtain ⟨fits, clashes⟩ := hold
        refine ⟨fun b hb => ?_, clashes⟩
        obtain ⟨low, high, target, dynamic, free⟩ := fits b hb
        exact ⟨low, high, target, dynamic, fun act => (free act).imp_left (List.mem_cons_of_mem _)⟩
      all_goals exact hold
    · rename_i none
      refine added h (.inr ?_)
      have : d.station a.seg a.number = Option.none := by
        cases hs : d.station a.seg a.number
        · rfl
        · exact absurd (congrArg Option.isSome hs) none
      exact this

theorem foldl_loadStation {l : List SavedStation} (numbers : ∀ s ∈ l, stationNumber s.number = true) :
    ∀ {d : Dev}, Sound G w d → d.aliases = [] →
      Sound G w (l.foldl Dev.loadStation d) ∧ (l.foldl Dev.loadStation d).aliases = [] := by
  induction l with
  | nil => exact fun h empty => ⟨h, empty⟩
  | cons s l ih =>
    obtain ⟨number, numbers⟩ := List.forall_mem_cons.mp numbers
    exact fun h empty => ih numbers (h.loadStation number empty) ((Dev.loadStation_aliases _ _).trans empty)

theorem foldl_loadPrinter {l : List SavedPrinter} (numbers : ∀ p ∈ l, stationNumber p.number = true) :
    ∀ {d : Dev}, Sound G w d → d.aliases = [] →
      Sound G w (l.foldl Dev.loadPrinter d) ∧ (l.foldl Dev.loadPrinter d).aliases = [] := by
  induction l with
  | nil => exact fun h empty => ⟨h, empty⟩
  | cons p l ih =>
    obtain ⟨number, numbers⟩ := List.forall_mem_cons.mp numbers
    exact fun h empty => ih numbers (h.loadPrinter number empty) ((Dev.loadPrinter_aliases _ _).trans empty)

theorem foldl_loadAlias {base : Addr} {l : List SavedAlias}
    (fits : ∀ a ∈ l, stationNumber a.number = true ∧ targetOk base a.seg a.target = true) :
    ∀ {d : Dev}, Sound G w d → d.set.base = base → Sound G w (l.foldl Dev.loadAlias d) := by
  induction l with
  | nil => exact fun h _ => h
  | cons a l ih =>
    obtain ⟨⟨number, target⟩, fits⟩ := List.forall_mem_cons.mp fits
    exact fun h same => ih fits (h.loadAlias number (same ▸ target)) ((congrArg Settings.base (Dev.loadAlias_set _ _)).trans
      same)

/-- The tables of a usable image are loaded into a part whose ALIAS table is empty and whose settings are the image's. -/
theorem Sound.loadImage (h : Sound G w d) {a : ImageArea} (empty : d.aliases = [])
    (base : ∀ m, a.usable = some m → d.set.base = m.settings.base) : Sound G w (d.loadImage a.usable) := by
  unfold Dev.loadImage
  split
  · rename_i m hm
    obtain ⟨-, -, stations, aliases, printers⟩ := StoredImage.sound_iff.mp (usable_sound hm)
    obtain ⟨hs, es⟩ := foldl_loadStation stations h empty
    obtain ⟨hp, -⟩ := foldl_loadPrinter (fun p hp => (printers p hp).2) hs es
    refine foldl_loadAlias aliases hp ?_
    rw [foldl_same Dev.set Dev.loadPrinter_set, foldl_same Dev.set Dev.loadStation_set]
    exact base m hm
  · exact h

theorem Sound.startSegments (h : Sound G w d) : Sound G w d.startSegments := by
  refine Sound.fold (fun d g h => ?_) _ h
  split
  · exact (h.unsettle g).enterStarting
  · exact h

end Keep

end Sys2Proof.Machine
end

