-- ==== Sys2Proof/Proofs/KeptByStarts.lean ====
section
/-! The laws hold after a cold start and are kept by a warm restart (R108, R110, R204, R205). -/

namespace Sys2Proof.Machine

open Sys2Proof

-- one proof after another: proofs that wait for each other take a thread each
set_option Elab.async false

section Keep

variable {G : Law → Prop} {w : Slack} {d e : Dev} {g : Seg}

/-- Nothing is in the tables, on the downstream queues or in the pool's keeping, and no pause is asked for. -/
structure Emptied (d : Dev) : Prop where
  pool : d.pool = ⟨Config.poolBlocks, 0, 0⟩
  stations : d.stations = []
  aliases : d.aliases = []
  downq : ∀ g, (d.seg g).downq = []
  pauseOff : d.up.pauseOn = false

/-- What does not touch those pieces leaves the part emptied. -/
theorem Emptied.frame {l : List Piece} (h : Emptied d) (t : Touches l d e)
    (others : Piece.pool ∉ l ∧ Piece.stations ∉ l ∧ Piece.aliases ∉ l ∧ Piece.downq ∉ l ∧ Piece.pauseState ∉ l := by
      decide) : Emptied e where
  pool := (t .pool others.1).symm.trans h.pool
  stations := (t .stations others.2.1).symm.trans h.stations
  aliases := (t .aliases others.2.2.1).symm.trans h.aliases
  downq g := (t .downq others.2.2.2.1 g).symm.trans (h.downq g)
  pauseOff := (t .pauseState others.2.2.2.2).1.symm.trans h.pauseOff

theorem downBlocks_sum_nil (h : ∀ g, (d.seg g).downq = []) :
    (allSegs.map fun g => downBlocks (d.seg g).downq).sum = 0 := by
  simp [h, downBlocks]

/-! ### Cold start -/

/-- The part as a cold start has it before the tables load, the settings of the start in force. -/
def Dev.blankWith (d : Dev) (s : Settings × Four SegSettings) : Dev :=
  { d.blank with set := s.1, segs := ⟨.fresh s.2.s0, .fresh s.2.s1, .fresh s.2.s2, .fresh s.2.s3⟩ }

theorem Dev.blankWith_seg (d : Dev) (s : Settings × Four SegSettings) (g : Seg) :
    (d.blankWith s).seg g = .fresh (s.2.get g) := by cases g <;> rfl

theorem Dev.blankWith_printer (d : Dev) (s : Settings × Four SegSettings) (i : Nat) :
    (d.blankWith s).printer i = none := by
  show (List.replicate 8 (none : Option Printer)).getD i none = none
  simp only [List.getD_eq_getElem?_getD, List.getElem?_replicate]
  split <;> rfl

/-- A blank part is sound under settings that a start may take. -/
theorem Sound.blankWith (closed : Closed G) (d : Dev) {s : Settings × Four SegSettings} (ok : StartOk s) :
    Sound G .none (d.blankWith s) := by
  refine ⟨closed, fun _ => ⟨Int.le_refl _, Int.le_refl _⟩, fun k _ => ?_⟩
  cases k
  case events => exact ⟨Nat.zero_le _, .nil⟩
  case counters => exact ⟨fun g => by cases g <;> exact List.length_replicate, List.length_replicate, List.length_replicate⟩
  case stations => exact ⟨.nil, Nat.zero_le _, .nil, fun _ he => nomatch he⟩
  case aliases => exact ⟨.nil, Nat.zero_le _⟩
  case numbers => exact fun _ he => nomatch he
  case rules => exact ⟨fun _ ha => (nomatch ha), .nil⟩
  case pool => exact ⟨rfl, rfl, rfl⟩
  case fids =>
    intro g
    rw [Dev.blankWith_seg]
    exact ⟨.nil, fun _ hf => nomatch hf⟩
  case quota => exact Nat.zero_le _
  case pause => exact .inr ⟨fun on => absurd on Bool.false_ne_true, fun _ => ok.quota⟩
  case uplink =>
    exact ⟨fun _ => ⟨rfl, rfl, rfl, rfl, rfl⟩, fun on => absurd on Bool.false_ne_true, fun on => absurd on Bool.false_ne_true⟩
  case enable =>
    intro g
    rw [Dev.blankWith_seg]
    exact ⟨fun on => absurd on Bool.false_ne_true, fun on => absurd on Bool.false_ne_true⟩
  case settings =>
    refine ⟨ok.range, ok.sound, fun g => ?_⟩
    rw [Dev.blankWith_seg]
    exact ok.segs g
  case lists =>
    refine ⟨fun g => ?_, Nat.zero_le _, Nat.zero_le _, Nat.zero_le _⟩
    rw [Dev.blankWith_seg]
    exact ⟨Nat.zero_le _, ⟨Nat.zero_le _, fun _ hr => nomatch hr⟩, Nat.zero_le _⟩
  case places => exact List.length_replicate
  case jobs =>
    refine ⟨Nat.zero_le _, .nil, .nil, ⟨Nat.le_refl 1, (by decide : 1 ≤ 255)⟩, fun _ hj => (nomatch hj), fun i p hp => ?_, .nil⟩
    rw [Dev.blankWith_printer] at hp
    exact nomatch hp
  case printers =>
    refine ⟨fun i p hp => ?_, fun i _ p _ hp => ?_, fun _ he => nomatch he⟩
    all_goals rw [Dev.blankWith_printer] at hp; exact nomatch hp

theorem Sound.coldStart (closed : Closed G) (d : Dev) : Sound G .none d.coldStart := by
  have blank := Sound.blankWith closed d (startSettings_ok d.blank (a := d.agent.image))
  have loaded := (blank.loadImage (a := d.agent.image) rfl (by
    intro m hm
    rw [hm]
    rfl)).raise .coldStart .none
  have reported : Sound G .none (if d.agent.image.usable.isNone then
      (((d.blankWith (d.blank.startSettings d.agent.image.usable)).loadImage d.agent.image.usable).raise .coldStart
        .none).raise .configDefaulted .none
      else ((d.blankWith (d.blank.startSettings d.agent.image.usable)).loadImage d.agent.image.usable).raise .coldStart
        .none) := by
    split
    · exact loaded.raise _ _
    · exact loaded
  exact ((reported.modUp (fun u => { u with rxEnabled := true }) (fun _ => .inl (Nat.le_refl _)) rfl rfl
    fun u => u).startSegments).selectAll

/-! ### Warm restart -/

/-- The part as a restart has torn it down, before the pause frame and the response are sent. -/
def Dev.torn (d : Dev) (resp : Option UpFrame) : Dev :=
  let own := resp.isSome && d.up.queue.length == 1 && !d.up.leaving
  let d := d.modSpool fun s =>
    { s with printers := List.replicate 8 none, jobs := [], stampCounter := 0, endings := [] }
  let d := { d with
    segs := ⟨d.segs.s0.restarted d.segs.s0.cfg, d.segs.s1.restarted d.segs.s1.cfg, d.segs.s2.restarted d.segs.s2.cfg,
      d.segs.s3.restarted d.segs.s3.cfg⟩
    stations := [], aliases := [], pool := ⟨Config.poolBlocks, 0, 0⟩ }
  let d := d.modAgent fun a => { a with queue := [], running := none }
  d.modUp fun u =>
    { u with queue := resp.toList, leaving := u.txBusy && !own, pauseOn := false, repeatTimer := none }

theorem Dev.torn_seg (d : Dev) (resp : Option UpFrame) (g : Seg) :
    (d.torn resp).seg g = (d.seg g).restarted (d.seg g).cfg := by cases g <;> rfl

theorem Dev.torn_printer (d : Dev) (resp : Option UpFrame) (i : Nat) : (d.torn resp).printer i = none := by
  show (List.replicate 8 (none : Option Printer)).getD i none = none
  simp only [List.getD_eq_getElem?_getD, List.getElem?_replicate]
  split <;> rfl

theorem emptied_torn (d : Dev) (resp : Option UpFrame) : Emptied (d.torn resp) where
  pool := rfl
  stations := rfl
  aliases := rfl
  downq g := by
    rw [Dev.torn_seg]
    rfl
  pauseOff := rfl

/-- A response that a restart keeps: of no blocks, and only on an UP link. -/
def RespOk (d : Dev) (resp : Option UpFrame) : Prop :=
  ∀ f, resp = some f → f.blocks = [] ∧ d.up.link = true

theorem pauseOn_le (h : SettingsOk d) : d.set.pauseOn ≤ Config.poolBlocks := by
  have sound := h.2.1
  simp only [Settings.sound, Bool.and_eq_true, decide_eq_true_eq] at sound
  obtain ⟨⟨⟨⟨-, lt⟩, le⟩, -⟩, -⟩ := sound
  have : Config.poolBlocks = 2048 := rfl
  omega

theorem Sound.torn (h : Sound G .none d) {resp : Option UpFrame} (ok : RespOk d resp) : Sound G .none (d.torn resp) := by
  refine ⟨h.closed, fun _ => ⟨Int.le_refl _, Int.le_refl _⟩, fun k hk => ?_⟩
  cases k
  case events => exact h.holds .events hk
  case counters => exact h.holds .counters hk
  case stations => exact ⟨.nil, Nat.zero_le _, .nil, fun _ he => nomatch he⟩
  case aliases => exact ⟨.nil, Nat.zero_le _⟩
  case numbers => exact fun _ he => nomatch he
  case rules => exact ⟨fun _ ha => (nomatch ha), .nil⟩
  case pool =>
    refine ⟨rfl, ?_, rfl⟩
    rw [downBlocks_sum_nil (emptied_torn d resp).downq]
    cases resp with
    | none => rfl
    | some f =>
      have blocks : upBlocks (d.torn (some f)).up.queue = f.blocks.length := Nat.add_zero _
      rw [blocks, (ok f rfl).1]
      rfl
  case fids =>
    intro g
    rw [(emptied_torn d resp).downq]
    exact ⟨.nil, fun _ hf => nomatch hf⟩
  case quota => exact Nat.zero_le _
  case pause =>
    have settings : SettingsOk d := h.holds .settings (h.closed.pause hk)
    exact .inr ⟨fun on => absurd on Bool.false_ne_true, fun _ => (pauseOn_le settings : d.set.pauseOn ≤ _)⟩
  case uplink =>
    have old : UplinkSlack .none d.up := h.holds .uplink hk
    obtain ⟨silent, -, -⟩ := old
    refine ⟨fun down => ?_, fun sending staying => .inr ?_, fun leaves => (Bool.and_eq_true_iff.mp leaves).1⟩
    · obtain ⟨-, hb, hh, -, hp⟩ := silent down
      refine ⟨?_, hb, hh, rfl, hp⟩
      cases resp with
      | none => rfl
      | some f => exact absurd ((ok f rfl).2.symm.trans down) Bool.true_eq_false.mp
    · have busy : d.up.txBusy = true := sending
      have stays : (d.up.txBusy && !(resp.isSome && d.up.queue.length == 1 && !d.up.leaving)) = false := staying
      cases resp with
      | none =>
        rw [busy] at stays
        simp at stays
      | some f => exact List.cons_ne_nil _ _
  case enable =>
    intro g
    rw [Dev.torn_seg]
    exact ⟨fun on => absurd on Bool.false_ne_true, fun on => absurd on Bool.false_ne_true⟩
  case settings =>
    obtain ⟨range, sound, segs⟩ := h.holds .settings hk
    refine ⟨range, sound, fun g => ?_⟩
    rw [Dev.torn_seg]
    exact segs g
  case lists =>
    obtain ⟨segs, -, -, finished⟩ := h.holds .lists hk
    refine ⟨fun g => ?_, ?_, Nat.zero_le _, finished⟩
    · rw [Dev.torn_seg]
      exact ⟨Nat.zero_le _, ⟨Nat.zero_le _, (segs g).2.1.2⟩, Nat.zero_le _⟩
    · show resp.toList.length ≤ _
      cases resp with
      | none => exact Nat.zero_le _
      | some f => exact (by decide : 1 ≤ Config.uplinkQueueMax)
  case places => exact List.length_replicate
  case jobs =>
    have table : JobTableOk [] d := h.holds .jobs hk
    obtain ⟨-, -, -, next, -⟩ := table
    refine ⟨Nat.zero_le _, .nil, .nil, next, fun _ hj => (nomatch hj), fun i p hp => ?_, .nil⟩
    rw [Dev.torn_printer] at hp
    exact nomatch hp
  case printers =>
    refine ⟨fun i p hp => ?_, fun i _ p _ hp => ?_, fun _ he => nomatch he⟩
    all_goals rw [Dev.torn_printer] at hp; exact nomatch hp

theorem Sound.failForRestart (h : Sound G w d) (j : Job) : Sound G w (d.failForRestart j) :=
  (h.setFinished _ (length_addSummary_le _)).countQuietly _

/-- A restart's tearing down, cut where the part is emptied. -/
theorem Dev.tearDown_eq (d : Dev) (resp : Option UpFrame) : d.tearDown resp =
    (let e := d.jobsById.foldl Dev.failForRestart d
     let t := e.torn resp
     (if e.up.pauseOn then t.sendPause .release else t).startTx) := rfl

theorem touches_failForRestart (d : Dev) (j : Job) : Touches [.finished, .spoolCounters, .events] d (d.failForRestart j) :=
  Touches.then (touches_setFinished _ _) (touches_countQuietly _ _)

theorem Sound.tearDown (h : Sound G .none d) {resp : Option UpFrame} (ok : RespOk d resp) :
    Sound G .none (d.tearDown resp) ∧ Emptied (d.tearDown resp) := by
  have failed : Sound G .none (d.jobsById.foldl Dev.failForRestart d) := Sound.fold (fun _ j h => h.failForRestart j) _ h
  have link : (d.jobsById.foldl Dev.failForRestart d).up.link = d.up.link := foldl_same (fun d => d.up.link)
    (fun d j => ((touches_failForRestart d j) .link (by decide)).1.symm) _ _
  have torn := failed.torn (resp := resp) fun f hf => ⟨(ok f hf).1, link.trans (ok f hf).2⟩
  have empty := emptied_torn (d.jobsById.foldl Dev.failForRestart d) resp
  rw [Dev.tearDown_eq]
  dsimp only
  split
  · exact ⟨(torn.sendPause _).startTx, (empty.frame (touches_sendPause _ _)).frame (touches_startTx _)⟩
  · exact ⟨torn.startTx, empty.frame (touches_startTx _)⟩

/-- The event list as a restart empties it. -/
def EventUnit.emptied (e : EventUnit) : EventUnit :=
  { e with events := [], lost := 0, holdoff := none, heldBack := none, noticeNumber := 0 }

theorem touches_emptyEvents (d : Dev) : Touches [.events] d (d.modEv EventUnit.emptied) := by
  intro p hp; cases p <;> first | exact absurd (Piece.mem_of rfl) hp | simp [Piece.same, EventUnit.emptied]

theorem Sound.restartEvents (h : Sound G w d) : Sound G w d.restartEvents :=
  (h.modEv EventUnit.emptied (fun _ => ⟨Nat.zero_le _, List.nodup_nil⟩) id).raise _ _

theorem emptied_restartEvents (h : Emptied d) : Emptied d.restartEvents :=
  (h.frame (touches_emptyEvents d)).frame (touches_raise _ _ _)

/-- The settings of a start in an emptied part. -/
def Dev.resettle (d : Dev) (s : Settings × Four SegSettings) : Dev :=
  { d with
    set := s.1
    segs := ⟨d.segs.s0.restarted s.2.s0, d.segs.s1.restarted s.2.s1, d.segs.s2.restarted s.2.s2,
      d.segs.s3.restarted s.2.s3⟩ }

theorem Dev.resettle_seg (d : Dev) (s : Settings × Four SegSettings) (g : Seg) :
    (d.resettle s).seg g = (d.seg g).restarted (s.2.get g) := by cases g <;> rfl

theorem Sound.resettle (h : Sound G .none d) (empty : Emptied d) {s : Settings × Four SegSettings} (ok : StartOk s) :
    Sound G .none (d.resettle s) := by
  have downq : ∀ g, ((d.resettle s).seg g).downq = [] := fun g => by
    rw [Dev.resettle_seg]
    rfl
  refine ⟨h.closed, h.owed, fun k hk => ?_⟩
  cases k
  case events => exact h.holds .events hk
  case counters => exact h.holds .counters hk
  case stations => exact h.holds .stations hk
  case aliases => exact h.holds .aliases hk
  case numbers => exact h.holds .numbers hk
  case rules =>
    show (∀ a ∈ d.aliases, _) ∧ d.aliases.Pairwise _
    rw [empty.aliases]
    exact ⟨fun _ ha => (nomatch ha), .nil⟩
  case pool =>
    obtain ⟨total, transit, spool⟩ := h.holds .pool hk
    refine ⟨total, ?_, spool⟩
    rw [downBlocks_sum_nil downq]
    rwa [downBlocks_sum_nil empty.downq] at transit
  case fids =>
    intro g
    rw [downq]
    exact ⟨.nil, fun _ hf => nomatch hf⟩
  case quota =>
    show d.pool.spool ≤ _
    rw [empty.pool]
    exact Nat.zero_le _
  case pause =>
    refine .inr ⟨fun on => absurd (empty.pauseOff.symm.trans on) Bool.false_ne_true, fun _ => ?_⟩
    show _ ≤ d.pool.free
    rw [empty.pool]
    exact ok.quota
  case uplink => exact h.holds .uplink hk
  case enable =>
    intro g
    rw [Dev.resettle_seg]
    exact ⟨fun on => absurd on Bool.false_ne_true, fun on => absurd on Bool.false_ne_true⟩
  case settings =>
    refine ⟨ok.range, ok.sound, fun g => ?_⟩
    rw [Dev.resettle_seg]
    exact ok.segs g
  case lists =>
    obtain ⟨segs, rest⟩ := h.holds .lists hk
    refine ⟨fun g => ?_, rest⟩
    rw [Dev.resettle_seg]
    exact ⟨Nat.zero_le _, ⟨Nat.zero_le _, (segs g).2.1.2⟩, Nat.zero_le _⟩
  case places => exact h.holds .places hk
  case jobs => exact h.holds .jobs hk
  case printers => exact h.holds .printers hk

theorem Sound.rebuild (h : Sound G .none d) (empty : Emptied d) : Sound G .none d.rebuild := by
  have settled := (h.resettle empty (startSettings_ok d (a := d.agent.image))).retimeHoldoff
  have loaded := settled.loadImage (a := d.agent.image) empty.aliases (by
    intro m hm
    show (d.startSettings d.agent.image.usable).1.base = _
    rw [hm]
    rfl)
  unfold Dev.rebuild
  dsimp only
  split
  · exact loaded.raise _ _
  · exact loaded

theorem Sound.warmRestart (h : Sound G .none d) {resp : Option UpFrame} (ok : RespOk d resp) :
    Sound G .none (d.warmRestart resp) := by
  obtain ⟨torn, empty⟩ := h.tearDown ok
  exact ((torn.restartEvents.rebuild (emptied_restartEvents empty)).startSegments).selectAll

theorem Sound.uptimeSecond (h : Sound G w d) : Sound G w d.uptimeSecond := by
  refine h.quiet (l := [.clock, .uptime]) ?_
  intro p hp
  cases p <;> first | exact absurd (Piece.mem_of rfl) hp | simp [Piece.same, Dev.uptimeSecond, Dev.seg]

end Keep

end Sys2Proof.Machine
end

