-- ==== Sys2Proof/Proofs/KeptByAgent.lean ====
section
/-! The laws are kept by the Management Agent: events and counters, the store, jobs by command, and the running of a
request with the restart that may follow it (R162 to R165, R184, R190, R194, R202, R205). -/

namespace Sys2Proof.Machine

open Sys2Proof

-- one proof after another: proofs that wait for each other take a thread each
set_option Elab.async false

section Keep

variable {G : Law → Prop} {w : Slack} {d : Dev} {g : Seg}

/-! ### Operations of their own -/

/-- A change of the Agent that leaves its request queue. -/
theorem Sound.modAgent_same (h : Sound G w d) (f : Agent → Agent)
    (same : ∀ a, (f a).queue = a.queue := by intro a; rfl) : Sound G w (d.modAgent f) :=
  h.modAgent f (.inl (Nat.le_of_eq (congrArg List.length (same _))))

theorem Sound.takeEvents (h : Sound G w d) : Sound G w d.takeEvents.1 :=
  h.modEv (fun e => { e with events := [], lost := 0, holdoff := none }) (fun _ => ⟨Nat.zero_le _, List.nodup_nil⟩) id

theorem Sound.countersRead (h : Sound G w d) (group : Byte) : Sound G w (d.countersRead group).1 := by
  unfold Dev.countersRead
  split <;> exact h

/-- The counters of a group are replaced by as many. -/
theorem EventUnit.setGroup_length {e : EventUnit} {n : Nat} {cs ds : List Counter} (found : e.group n = some cs)
    (same : ds.length = cs.length) :
    (∀ g, ((e.setGroup n ds).segCounters.get g).length = (e.segCounters.get g).length) ∧
      (e.setGroup n ds).upCounters.length = e.upCounters.length ∧
      (e.setGroup n ds).spoolCounters.length = e.spoolCounters.length := by
  match n, found with
  | 0, found | 1, found | 2, found | 3, found =>
    obtain rfl := Option.some.inj found
    exact ⟨fun g => by cases g <;> first | exact same | rfl, rfl, rfl⟩
  | 4, found =>
    obtain rfl := Option.some.inj found
    exact ⟨fun _ => rfl, same, rfl⟩
  | 5, found =>
    obtain rfl := Option.some.inj found
    exact ⟨fun _ => rfl, rfl, same⟩
  | n + 6, found => exact nomatch found

theorem Sound.countersClear (h : Sound G w d) (group : Byte) : Sound G w (d.countersClear group).1 := by
  unfold Dev.countersClear
  split
  · rename_i cs found
    obtain ⟨segs, up, spool⟩ := EventUnit.setGroup_length (ds := Counter.zeros cs.length) found List.length_replicate
    have events := (d.ev.setGroup_events group.toNat (Counter.zeros cs.length)).1
    refine h.modEv (fun e => e.setGroup group.toNat (Counter.zeros cs.length)) (fun ok => ?_) fun ok =>
      ⟨fun g => (segs g).trans (ok.1 g), up.trans ok.2.1, spool.trans ok.2.2⟩
    rw [EventsOk, Dev.modEv_ev, events]
    exact ok
  · exact h

theorem Sound.configSave (h : Sound G w d) : Sound G w d.configSave.1 := by
  unfold Dev.configSave
  split
  · exact h
  · exact h.modAgent_same (fun a => { a with saving := some d.takeImage, image := .broken })

theorem Sound.storeComplete (h : Sound G w d) (ok : Bool) : Sound G w (d.storeComplete ok) := by
  cases saving : d.agent.saving with
  | none =>
    rw [Dev.storeComplete, saving]
    exact h
  | some m =>
    rw [Dev.storeComplete_of_saving saving]
    exact (h.modAgent_same _).raise _ _

theorem Sound.cancelJob (h : Sound G w d) (job : Byte) (a : Asker) : Sound G w (d.cancelJob job a).1 := by
  unfold Dev.cancelJob
  split
  · exact h
  · exact h.endJobOrWait _ _ _

/-! ### The operations of a request -/

theorem Dev.readOp_dev (d : Dev) (table index : Byte) : (d.readOp table index).1 = d := by
  unfold Dev.readOp
  split
  · rfl
  · split
    · rfl
    · split <;> rfl

theorem Sound.runWrite (h : Sound G w d) (args : List Byte) : Sound G w (d.runWrite args).1 := by
  unfold Dev.runWrite
  split
  · split
    · exact h.writeOp _ _ _
    · exact h
  · exact h

theorem Sound.runCommand (h : Sound G w d) (code : Nat) (args : List Byte) : Sound G w (d.runCommand code args).1 := by
  unfold Dev.runCommand
  split
  · exact h
  · dsimp only
    split
    · exact h.onSegment _ h.enableSegment
    · exact h.onSegment _ h.disableSegment
    · exact h.onSegment _ h.restoreSegment
    · exact h.onSegment _ h.probeSegment
    · exact h.onSegment _ h.discoverSegment
    · exact h.onSegment _ h.clearRecord
    · exact h.onStation _ _ h.quarantineByManager
    · exact h.onStation _ _ h.releaseEntry
    · exact h.redirectJob _ _
    · exact h.enablePrinter _
    · exact h.disablePrinter _
    · exact h.takeEvents
    · exact h.countersRead _
    · exact h.countersClear _
    · exact h.configSave
    iterate 2 exact h

theorem Sound.runPlain (h : Sound G w d) (op : Op) : Sound G w (d.runPlain op).1 := by
  unfold Dev.runPlain
  split
  · split
    · rw [Dev.readOp_dev]
      exact h
    · exact h
  · exact h.runWrite _
  · split
    · exact h.deleteOp _ _
    · exact h
  · exact h.runCommand _ _

theorem Sound.modRunning (h : Sound G w d) (f : Running → Running) : Sound G w (d.modRunning f) := h.modAgent_same _

theorem Sound.pushResult (h : Sound G w d) (op : Op) (st : Status) (data : List Byte) :
    Sound G w (d.pushResult op st data) := h.modRunning _

theorem Sound.orderRestart (h : Sound G w d) (op : Op) : Sound G w (d.orderRestart op) := by
  unfold Dev.orderRestart
  split
  · exact h.pushResult _ _ _
  · split
    · exact h.pushResult _ _ _
    · exact (h.pushResult _ _ _).modRunning _

theorem Sound.runCancel (h : Sound G w d) (op : Op) (rest : List Op) : Sound G w (d.runCancel op rest).1 := by
  unfold Dev.runCancel
  split
  · exact h.pushResult _ _ _
  · have cancelled := h.cancelJob (op.args.getD 0 0#8) .request
    split
    · rename_i heq
      rw [heq] at cancelled
      exact Sound.pushResult cancelled _ _ _
    · rename_i heq
      rw [heq] at cancelled
      exact Sound.modRunning cancelled _

theorem Sound.finishRequest (h : Sound G .none d) : Sound G .none d.finishRequest := by
  unfold Dev.finishRequest
  split
  · exact h
  · rename_i r _
    have answered : Sound G .none ((d.modAgent fun a => { a with running := none }).offerUp (d.response r)) :=
      (h.modAgent_same _).offerUp _ rfl
    dsimp only
    split
    · refine answered.warmRestart fun f hf => ?_
      split at hf
      · rename_i room
        obtain rfl := Option.some.inj hf
        refine ⟨rfl, ?_⟩
        rw [← (touches_offerUp _ _ .link (by decide)).1]
        exact (uplinkRoom_iff.mp room).1
      · exact nomatch hf
    · exact answered

theorem Sound.runOps : ∀ (ops : List Op) {d : Dev}, Sound G .none d → Sound G .none (Dev.runOps ops d)
  | [], _, h => h.finishRequest
  | op :: ops, d, h => by
    unfold Dev.runOps
    split
    · exact Sound.runOps ops (h.pushResult _ _ _)
    split
    · exact Sound.runOps ops (h.pushResult _ _ _)
    split
    · exact Sound.runOps ops (h.pushResult _ _ _)
    split
    · exact Sound.runOps ops (h.orderRestart _)
    split
    · dsimp only
      split
      · exact h.runCancel _ _
      · exact Sound.runOps ops (h.runCancel _ _)
    · exact Sound.runOps ops ((h.runPlain op).pushResult _ _ _)

theorem Sound.runRequest (h : Sound G .none d) : Sound G .none d.runRequest := by
  unfold Dev.runRequest
  split
  · rename_i q qs _ queue
    refine Sound.runOps q.ops (h.modAgent _ (.inl ?_))
    rw [queue]
    exact Nat.le_succ _
  · exact h

theorem Sound.resumeRequest (h : Sound G .none d) : Sound G .none d.resumeRequest := by
  unfold Dev.resumeRequest
  split
  · split
    · exact Sound.runOps _ ((h.modRunning _).pushResult _ _ _)
    · exact h
  · exact h

theorem Sound.endingAfterExchange (h : Sound G .none d) : Sound G .none d.endingAfterExchange :=
  h.applyEndings.resumeRequest

theorem Sound.answered {a : Answer} (h : Sound G w a.1) (code : Byte) : Sound G w (Dev.answered code a) :=
  Sound.modAgent_same h _

end Keep

/-! ### Every command and every step -/

variable {G : Law → Prop} {s t : State}

theorem respOk_none (d : Dev) : RespOk d none := fun _ no => absurd no (by simp)

theorem Sound.restart (h : Sound G .none s.dev) : ∃ t, execRestart s = .next t ∧ Sound G .none t.dev := by
  unfold execRestart
  split
  · exact ⟨_, rfl, Sound.answered (a := (s.dev, .wrongState, [])) h _⟩
  · have restarted : Sound G .none (s.dev.warmRestart none) := h.warmRestart (respOk_none _)
    refine ⟨_, rfl, ?_⟩
    dsimp only [Dev.answered]
    exact restarted.modAgent_same _

theorem Sound.exec (h : Sound G .none s.dev) (c : Instr) : ∃ t, exec c s = .next t ∧ Sound G .none t.dev := by
  cases c
  case restart => exact h.restart
  all_goals refine ⟨_, rfl, ?_⟩
  case coldStart =>
    dsimp only
    exact Sound.coldStart h.closed s.dev
  case linkUp => exact (h.elapse _).linkUp _
  case linkDown => exact (h.elapse _).linkDown
  case uplinkFrameReceived => exact (h.elapse _).uplinkReceived _
  case frameTransmitted => exact (h.elapse _).frameTransmitted
  case pauseRepeat => exact h.pauseRepeat
  case pauseHoldEnd => exact h.pauseHoldEnd
  case turnGrant => exact (h.elapse _).turnGrant _ _
  case heldFrameStart => exact (h.elapse _).heldFrameStart _
  case broadcastSent => exact h.broadcastSent _
  case replyReceived => exact (h.elapse _).replyReceived _ _
  case replyTimeout => exact h.replyTimeout _
  case replyJabber => exact (h.elapse _).replyJabber _
  case backoffEnd => exact h.backoffEnd _ _
  case noise => exact (h.elapse _).noise _
  case unattributedJabber => exact (h.elapse _).unattributedJabber _
  case cycleStart => exact h.cycleStart _
  case emptyCycleEnd => exact h.emptyCycleEnd _
  case discoveryIntervalExpiry => exact h.intervalExpiry _
  case holdTakesMedium => exact (h.elapse _).holdTakesMedium _ _
  case discoveryWindowEnd => exact h.windowEnd _ _ _
  case absentForget => exact h.forgetAt _ _
  case aliasIdleWithdraw => exact h.aliasIdle _ _
  case cooldownExpiry => exact h.cooldownExpiry _
  case trialExpiry => exact h.trialExpiry _
  case quietStretch => exact h.quietStretch _
  case jabberLine => exact h.jabberLine _
  case dcMeasurement => exact (h.elapse _).dcMeasurement _ _
  case shotFire => exact h.shotFire _
  case shotEcho => exact h.shotEcho _ _ _
  case shotNone => exact h.shotNone _
  case idleClose => exact h.idleClose _
  case endingAfterExchange => exact h.endingAfterExchange
  case roleSet => exact h.roleSet _
  case busyRetryExpiry => exact h.busyRetryExpiry _
  case holdTimerExpiry => exact h.holdTimerExpiry _
  case noticeHoldoff => exact h.noticeHoldoff
  case runRequest => exact (h.elapse _).runRequest
  case read table index =>
    refine Sound.answered (a := s.dev.readOp table index) ?_ _
    rw [Dev.readOp_dev]
    exact h
  case write => exact (h.writeOp _ _ _).answered _
  case writeSettings => exact (h.writeTable _ _ _).answered _
  case writeSegment => exact (h.writeTable _ _ _).answered _
  case writeStation => exact (h.writeTable _ _ _).answered _
  case writeAlias => exact (h.writeTable _ _ _).answered _
  case writePrinter => exact (h.writeTable _ _ _).answered _
  case delete => exact Sound.answered (a := bare _) (h.deleteOp _ _) _
  case deleteStation => exact Sound.answered (a := bare _) (h.deleteStation _) _
  case deleteAlias => exact Sound.answered (a := bare _) (h.deleteAlias _) _
  case deletePrinter => exact Sound.answered (a := bare _) (h.deletePrinter _) _
  case segEnable => exact Sound.answered (a := bare _) (h.onSegment _ h.enableSegment) _
  case segDisable => exact Sound.answered (a := bare _) (h.onSegment _ h.disableSegment) _
  case segRestore => exact Sound.answered (a := bare _) (h.onSegment _ h.restoreSegment) _
  case segProbe => exact Sound.answered (a := bare _) (h.onSegment _ h.probeSegment) _
  case segDiscover => exact Sound.answered (a := bare _) (h.onSegment _ h.discoverSegment) _
  case segClearRecord => exact Sound.answered (a := bare _) (h.onSegment _ h.clearRecord) _
  case stationQuarantine => exact Sound.answered (a := bare _) (h.onStation _ _ h.quarantineByManager) _
  case stationRelease => exact Sound.answered (a := bare _) (h.onStation _ _ h.releaseEntry) _
  case jobCancel =>
    dsimp only
    exact (h.cancelJob _ _).modAgent_same _
  case jobRedirect => exact Sound.answered (a := bare _) (h.redirectJob _ _) _
  case printerEnable => exact Sound.answered (a := bare _) (h.enablePrinter _) _
  case printerDisable => exact Sound.answered (a := bare _) (h.disablePrinter _) _
  case takeEvents => exact h.takeEvents.answered _
  case countersRead => exact (h.countersRead _).answered _
  case countersClear => exact Sound.answered (a := bare _) (h.countersClear _) _
  case configSave => exact Sound.answered (a := bare _) h.configSave _
  case storeComplete => exact (h.elapse _).storeComplete _
  case ident => exact Sound.answered (a := (s.dev, .ok, s.dev.identData)) h _
  case startDelimiterReceived => exact (h.elapse _).startDelimiter _
  case uptimeSecond => exact h.uptimeSecond
  case quietStretchBroken => exact (h.elapse _).quietStretchBroken _

theorem Sound.step (h : Sound G .none s.dev) (ran : step s = .next t) : Sound G .none t.dev := by
  unfold Machine.step at ran
  split at ran
  · obtain rfl := Host.Outcome.next.inj ran
    exact h
  · rename_i c cs _
    obtain ⟨r, hr, sound⟩ := Sound.exec (s := ⟨s.dev, cs⟩) h c
    obtain rfl := Host.Outcome.next.inj (hr.symm.trans ran)
    exact sound

end Sys2Proof.Machine
end

