-- ==== Sys2Proof/Proofs/StepKeeps.lean ====
section
/-! The invariants are laws of a part that owes nothing, and so every step keeps them. -/

namespace Sys2Proof.Machine

open Sys2Proof

-- one proof after another: proofs that wait for each other take a thread each
set_option Elab.async false

section Same

variable {d : Dev}

theorem poolOk_iff : PoolOk d ↔ Law.pool.Holds .none d ∧ Law.fids.Holds .none d := by
  simp only [PoolOk, Law.Holds, PoolAccount, FidsOk, Slack.none, Int.add_zero, Nat.cast_inj, and_assoc]

theorem uplinkOk_iff : UplinkOk d ↔ Law.uplink.Holds .none d := by
  simp only [UplinkOk, Law.Holds, UplinkSlack, Slack.none, Bool.false_eq_true, false_or]

theorem enableOk_iff : EnableOk d ↔ Law.enable.Holds .none d := by
  simp only [EnableOk, Law.Holds, EnableSlack, Slack.none, List.not_mem_nil, or_false]

theorem pauseOk_iff : PauseOk d ↔ Law.pause.Holds .none d := by
  simp only [Law.Holds, Slack.none, Bool.false_eq_true, false_or]

theorem aliasRulesOk_iff : AliasRulesOk d ↔ Law.numbers.Holds .none d ∧ Law.rules.Holds .none d := by
  simp only [AliasRulesOk, Law.Holds, NumbersOk, AliasFit, AliasClash, Slack.none, List.not_mem_nil, false_or]

theorem listsOk_iff : ListsOk d ↔ Law.places.Holds .none d ∧ Law.lists.Holds .none d := by
  simp only [ListsOk, Law.Holds, CapacityOk, MonitorLists, Option.mem_def, and_assoc]

theorem jobsOk_iff : JobsOk d ↔ Law.jobs.Holds .none d := by
  simp only [JobsOk, Law.Holds, JobTableOk, JobFit, JobClash, List.not_mem_nil, false_or, and_assoc, not_and, not_or]

end Same

/-- A step keeps the laws of a list that holds those its laws rest on. -/
theorem step_keeps {s t : State} (l : List Law) (closed : Closed (· ∈ l)) (ran : step s = .next t)
    (h : ∀ k ∈ l, k.Holds .none s.dev) : ∀ k ∈ l, k.Holds .none t.dev :=
  (Sound.step ⟨closed, fun _ => ⟨Int.le_refl _, Int.le_refl _⟩, h⟩ ran).holds

/-- Settles O3: the event list and the counters are laws that rest on no other. -/
theorem stepKeepsTheEventUnit : Obligations.StepKeepsTheEventUnit := by
  refine ⟨fun s t ran h => ?_, fun s t ran h => ?_⟩
  · exact step_keeps [.events] (by constructor <;> decide) ran (List.forall_mem_singleton.mpr h) _ List.mem_cons_self
  · exact step_keeps [.counters] (by constructor <;> decide) ran (List.forall_mem_singleton.mpr h) _ List.mem_cons_self

/-- Settles O4: the rules of R65 are kept beside the tables in order, the station numbers and the settings. -/
theorem stepKeepsTheTables : Obligations.StepKeepsTheTables := by
  refine ⟨fun s t ran h => ?_, fun s t ran h => ?_, fun s t ran stations aliases settings rules => ?_⟩
  · exact step_keeps [.stations] (by constructor <;> decide) ran (List.forall_mem_singleton.mpr h) _ List.mem_cons_self
  · exact step_keeps [.aliases] (by constructor <;> decide) ran (List.forall_mem_singleton.mpr h) _ List.mem_cons_self
  · obtain ⟨numbers, rules⟩ := aliasRulesOk_iff.mp rules
    have kept := step_keeps [.numbers, .rules, .stations, .aliases, .settings] (by constructor <;> decide) ran
      (by simpa only [List.forall_mem_cons, List.not_mem_nil] using
        ⟨numbers, rules, stations, aliases, settings, fun _ no => no.elim⟩)
    exact aliasRulesOk_iff.mpr ⟨kept .numbers (by decide), kept .rules (by decide)⟩

/-- Settles O5: the pool account with the frames' names, the quota, and the pause state with the settings. -/
theorem stepKeepsPoolAccount : Obligations.StepKeepsPoolAccount := by
  refine ⟨fun s t ran h => ?_, fun s t ran h => ?_, fun s t ran settings h => ?_⟩
  · obtain ⟨pool, fids⟩ := poolOk_iff.mp h
    have kept := step_keeps [.pool, .fids] (by constructor <;> decide) ran
      (by simpa only [List.forall_mem_cons, List.not_mem_nil] using ⟨pool, fids, fun _ no => no.elim⟩)
    exact poolOk_iff.mpr ⟨kept .pool (by decide), kept .fids (by decide)⟩
  · exact step_keeps [.quota] (by constructor <;> decide) ran (List.forall_mem_singleton.mpr h) _ List.mem_cons_self
  · have kept := step_keeps [.pause, .settings] (by constructor <;> decide) ran
      (by simpa only [List.forall_mem_cons, List.not_mem_nil] using ⟨pauseOk_iff.mp h, settings, fun _ no => no.elim⟩)
    exact pauseOk_iff.mpr (kept .pause (by decide))

/-- Settles O6: the uplink and the transmit enables are laws that rest on no other. -/
theorem stepKeepsUplinkAndEnables : Obligations.StepKeepsUplinkAndEnables := by
  refine ⟨fun s t ran h => uplinkOk_iff.mpr ?_, fun s t ran h => enableOk_iff.mpr ?_⟩
  · exact step_keeps [.uplink] (by constructor <;> decide) ran (List.forall_mem_singleton.mpr (uplinkOk_iff.mp h)) _
      List.mem_cons_self
  · exact step_keeps [.enable] (by constructor <;> decide) ran (List.forall_mem_singleton.mpr (enableOk_iff.mp h)) _
      List.mem_cons_self

/-- Settles O7: the settings; the capacities beside them; the job table and the printer entries beside what they rest
on. -/
theorem stepKeepsSettingsAndCapacities : Obligations.StepKeepsSettingsAndCapacities := by
  refine ⟨fun s t ran h => ?_, fun s t ran settings h => ?_, fun s t ran lists h => ?_,
    fun s t ran stations lists h => ?_⟩
  · exact step_keeps [.settings] (by constructor <;> decide) ran (List.forall_mem_singleton.mpr h) _ List.mem_cons_self
  · obtain ⟨places, lists⟩ := listsOk_iff.mp h
    have kept := step_keeps [.places, .lists, .settings] (by constructor <;> decide) ran
      (by simpa only [List.forall_mem_cons, List.not_mem_nil] using ⟨places, lists, settings, fun _ no => no.elim⟩)
    exact listsOk_iff.mpr ⟨kept .places (by decide), kept .lists (by decide)⟩
  · obtain ⟨places, -⟩ := listsOk_iff.mp lists
    have kept := step_keeps [.jobs, .places] (by constructor <;> decide) ran
      (by simpa only [List.forall_mem_cons, List.not_mem_nil] using ⟨jobsOk_iff.mp h, places, fun _ no => no.elim⟩)
    exact jobsOk_iff.mpr (kept .jobs (by decide))
  · obtain ⟨places, -⟩ := listsOk_iff.mp lists
    have kept := step_keeps [.printers, .places, .stations] (by constructor <;> decide) ran
      (by simpa only [List.forall_mem_cons, List.not_mem_nil] using ⟨h, places, stations, fun _ no => no.elim⟩)
    exact kept .printers (by decide)

end Sys2Proof.Machine
end

