-- ==== Sys2Proof/Proofs/Counters.lean ====
section
/-! The counters one by one: what a report does to its own counter and to each other one, and which counters an event
raised can reach (R182 to R189). -/

namespace Sys2Proof.Machine

open Sys2Proof

-- one proof after another: proofs that wait for each other take a thread each
set_option Elab.async false

/-! ### The places of counters -/

/-- The counters of a segment in their order (R182). -/
def SegCounter.all : List SegCounter :=
  [.good, .failure .timeout, .failure .badCheck, .failure .badFrame, .failure .collision, .failure .jabber, .noise,
    .framesIn, .framesOut, .drop .duplicate, .drop .blockedSource, .drop .sourceUnknown, .drop .toBridge,
    .drop .unknownDest, .drop .unreachable, .drop .blocked, .drop .segDown, .drop .aliasExhausted, .drop .linkDown,
    .drop .printRefused, .drop .deliverFailed, .drop .deliverRefused, .drop .flushed, .drop .broadcastWithheld,
    .passes, .trips]

/-- The counters of the uplink in their order (R182). -/
def UpCounter.all : List UpCounter :=
  [.framesIn, .framesOut, .crc, .runt, .long, .other, .drop .unknownDest, .drop .unreachable, .drop .blocked,
    .drop .segDown, .drop .aliasExhausted, .drop .badSource, .drop .badCarrier, .drop .queueFull, .drop .poolEmpty,
    .drop .linkDown, .drop .notAdmitted, .pausesSent, .pausesReceived]

/-- The counters of the spool in their order (R182). -/
def SpoolCounter.all : List SpoolCounter := [.accepted, .refused, .done, .cancelled, .failed]

theorem SegCounter.all_index (c : SegCounter) : SegCounter.all[c.index]? = some c := by
  cases c with
  | failure c => cases c <;> rfl
  | drop c => cases c <;> rfl
  | _ => rfl

theorem UpCounter.all_index (c : UpCounter) : UpCounter.all[c.index]? = some c := by
  cases c with
  | drop c => cases c <;> rfl
  | _ => rfl

theorem SpoolCounter.all_index (c : SpoolCounter) : SpoolCounter.all[c.index]? = some c := by
  cases c <;> rfl

/-- A counter is the only one of its group and number. -/
theorem CounterId.place_injective {a b : CounterId} (group : a.group = b.group) (index : a.index = b.index) : a = b := by
  have segs : ∀ {g : Seg}, segNat g ≠ 4 ∧ segNat g ≠ 5 := fun {g} => by cases g <;> decide
  cases a with
  | seg g c =>
    cases b with
    | seg h k =>
      have hc := (SegCounter.all_index c).symm.trans ((congrArg (SegCounter.all[·]?) index).trans (SegCounter.all_index k))
      rw [segNat_injective group, Option.some.inj hc]
    | uplink k => exact absurd group segs.1
    | spool k => exact absurd group segs.2
  | uplink c =>
    cases b with
    | seg h k => exact absurd group.symm segs.1
    | uplink k =>
      have hc := (UpCounter.all_index c).symm.trans ((congrArg (UpCounter.all[·]?) index).trans (UpCounter.all_index k))
      rw [Option.some.inj hc]
    | spool k => exact absurd group (show ¬ 4 = 5 by decide)
  | spool c =>
    cases b with
    | seg h k => exact absurd group.symm segs.2
    | uplink k => exact absurd group (show ¬ 5 = 4 by decide)
    | spool k =>
      have hc := (SpoolCounter.all_index c).symm.trans
        ((congrArg (SpoolCounter.all[·]?) index).trans (SpoolCounter.all_index k))
      rw [Option.some.inj hc]

theorem CounterId.group_le (c : CounterId) : c.group ≤ 5 := by
  cases c with
  | seg g c => cases g <;> exact Nat.le_of_ble_eq_true rfl
  | uplink c => exact Nat.le_succ 4
  | spool c => exact Nat.le_refl 5

section Unit

variable {d : Dev} {e : EventUnit}

/-- In whole groups every counter has its place. -/
theorem CountersOk.index_lt (h : CountersOk d) (c : CounterId) : c.index < ((d.ev.group c.group).getD []).length := by
  have lt : ∀ {α : Type} {l : List α} {i : Nat} {a : α}, l[i]? = some a → i < l.length := fun h =>
    (List.getElem?_eq_some_iff.mp h).1
  obtain ⟨segs, up, spool⟩ := h
  cases c with
  | seg g c =>
    have place := lt (SegCounter.all_index c)
    have := segs g
    cases g <;> exact place.trans_eq this.symm
  | uplink c => exact (lt (UpCounter.all_index c)).trans_eq up.symm
  | spool c => exact (lt (SpoolCounter.all_index c)).trans_eq spool.symm

theorem EventUnit.counter_bump (h : CountersOk d) (c : CounterId) : (d.ev.bump c).counter c = (d.ev.counter c).bump := by
  have inside := h.index_lt c
  rw [EventUnit.counter, EventUnit.bump, EventUnit.group_setGroup c.group_le, Option.getD_some,
    List.getD_eq_getElem?_getD, List.getElem?_set_self inside]
  rfl

theorem EventUnit.counter_bump_other {c x : CounterId} (other : x ≠ c) : (e.bump c).counter x = e.counter x := by
  unfold EventUnit.counter EventUnit.bump
  by_cases group : x.group = c.group
  · have index : x.index ≠ c.index := fun index => other (CounterId.place_injective group index)
    rw [group, EventUnit.group_setGroup c.group_le, Option.getD_some, List.getD_eq_getElem?_getD,
      List.getElem?_set_ne index.symm, ← List.getD_eq_getElem?_getD]
  · rw [EventUnit.group_setGroup_other group]

/-- A notice that cannot be placed is dropped under one of these (R95, R189). -/
def CounterId.ofNotice (c : CounterId) : Prop := c = .uplink (.drop .queueFull) ∨ c = .uplink (.drop .linkDown)

theorem uplinkDropCause_ofNotice (d : Dev) : (CounterId.uplink (.drop d.uplinkDropCause)).ofNotice := by
  unfold Dev.uplinkDropCause
  split
  · exact .inl rfl
  · exact .inr rfl

theorem Dev.recordEvent_counter (d : Dev) (k : EventKind) (s : Subject) (x : CounterId) :
    (d.recordEvent k s).1.ev.counter x = d.ev.counter x := by
  unfold Dev.recordEvent
  dsimp only
  split <;> rfl

theorem Dev.countQuietly_counter (d : Dev) (c x : CounterId) :
    (d.countQuietly c).ev.counter x = (d.ev.bump c).counter x := by
  unfold Dev.countQuietly
  dsimp only
  split
  · rw [Dev.recordEvent_counter]
    rfl
  · rfl

theorem Dev.placeUp_ev (d : Dev) (f : UpFrame) : (d.placeUp f).ev = d.ev := by
  unfold Dev.placeUp Dev.startTx
  split
  · split <;> rfl
  · rfl

theorem Dev.offerNotice_counter {x : CounterId} (other : ¬ x.ofNotice) :
    d.offerNotice.ev.counter x = d.ev.counter x := by
  unfold Dev.offerNotice
  split
  · show (d.placeUp d.noticeFrame).ev.counter x = _
    rw [Dev.placeUp_ev]
  · show (d.countQuietly _).ev.counter x = _
    rw [Dev.countQuietly_counter, EventUnit.counter_bump_other]
    rintro rfl
    exact other (uplinkDropCause_ofNotice d)

theorem Dev.noticeTest_counter {x : CounterId} (other : ¬ x.ofNotice) : d.noticeTest.ev.counter x = d.ev.counter x := by
  unfold Dev.noticeTest
  split
  · rfl
  · split
    · exact Dev.offerNotice_counter other
    · rfl

/-- An event raised reaches no counter but those of a notice that is dropped. -/
theorem Dev.raise_counter {x : CounterId} (other : ¬ x.ofNotice) (k : EventKind) (s : Subject) :
    (d.raise k s).ev.counter x = d.ev.counter x := by
  unfold Dev.raise
  dsimp only
  split
  · rw [Dev.noticeTest_counter other, Dev.recordEvent_counter]
  · exact Dev.recordEvent_counter d k s x

theorem Dev.count_ev (d : Dev) (c : CounterId) :
    d.count c = if (d.ev.counter c).passesHalf then (d.modEv fun e => e.bump c).raise .counterHalf (.counter c)
      else d.modEv fun e => e.bump c := rfl

/-- A report raises its counter by 1. -/
theorem Dev.count_counter (h : CountersOk d) {c : CounterId} (other : ¬ c.ofNotice) :
    (d.count c).ev.counter c = (d.ev.counter c).bump := by
  rw [Dev.count_ev]
  split
  · rw [Dev.raise_counter other]
    exact EventUnit.counter_bump h c
  · exact EventUnit.counter_bump h c

/-- A report moves no other counter but those of a notice that is dropped. -/
theorem Dev.count_counter_other {c x : CounterId} (other : x ≠ c) (notice : ¬ x.ofNotice) :
    (d.count c).ev.counter x = d.ev.counter x := by
  rw [Dev.count_ev]
  split
  · rw [Dev.raise_counter notice]
    exact EventUnit.counter_bump_other other
  · exact EventUnit.counter_bump_other other

theorem Counter.bump_value (c : Counter) : c.bump.value = min (c.value + 1) 65535 := rfl

theorem Counter.passesHalf_iff {c : Counter} : c.passesHalf = true ↔ c.value = 32767 ∧ c.half = false := by
  simp [Counter.passesHalf]

/-- Where the report passes no half, it moves its counter alone. -/
theorem Dev.count_of_no_half {c : CounterId} (h : (d.ev.counter c).passesHalf = false) :
    d.count c = d.modEv fun e => e.bump c := by
  rw [Dev.count_ev, h]
  rfl

theorem not_ofNotice_seg (g : Seg) (c : SegCounter) : ¬ (CounterId.seg g c).ofNotice := by
  simp [CounterId.ofNotice]

theorem not_ofNotice_spool (c : SpoolCounter) : ¬ (CounterId.spool c).ofNotice := by
  simp [CounterId.ofNotice]

theorem not_ofNotice_uplink {c : UpCounter} (full : c ≠ .drop .queueFull) (down : c ≠ .drop .linkDown) :
    ¬ (CounterId.uplink c).ofNotice := by
  simpa [CounterId.ofNotice] using ⟨full, down⟩

end Unit

/-! ### What a report says of its counter -/

theorem count_joins_half {d : Dev} {c : CounterId} (value : (d.ev.counter c).value = 32767)
    (half : (d.ev.counter c).half = false) (room : d.ev.events.length < 32) :
    ∃ e ∈ (d.count c).ev.events, e.kind = .counterHalf ∧ e.subject = .counter c := by
  rw [Dev.count_ev, if_pos (Counter.passesHalf_iff.mpr ⟨value, half⟩)]
  refine Dev.raise_joins ?_ _ _
  rw [Dev.modEv_ev, EventUnit.bump, (d.ev.setGroup_events _ _).1]
  exact room

/-- Settles O17: a report bumps its counter's place alone, and COUNTER_HALF reaches at most the drops of a notice. -/
theorem counterReportRisesByOne : Obligations.CounterReportRisesByOne := by
  refine ⟨fun d c ok => ⟨fun h => ?_, fun value half full down => ⟨?_, fun x hx xf xd => ?_, fun room => ?_⟩⟩,
    fun d g c ok => ⟨?_, ?_, fun h x other => ?_, fun value half room => ?_, ?_⟩⟩
  · have quiet : (d.ev.counter c).passesHalf = false := by
      rw [← Bool.not_eq_true, Counter.passesHalf_iff]
      rintro ⟨value, half⟩
      simp [value, half] at h
    rw [Dev.count_of_no_half quiet]
    refine ⟨fun x => ?_, (touches_bump d c).mono fun p hp => ?_⟩
    · split
      · rename_i here
        subst here
        refine (EventUnit.counter_bump ok x).trans ?_
        have noHalf : ((d.ev.counter x).half || (d.ev.counter x).value == 32767) = (d.ev.counter x).half := by
          rcases h with h | h <;> simp [h]
        rw [Counter.bump, noHalf]
      · exact EventUnit.counter_bump_other ‹_›
    · obtain rfl := List.mem_singleton.mp hp
      cases c <;> exact Piece.mem_of rfl
  · rw [Dev.count_counter ok (by simp [CounterId.ofNotice, full, down]), Counter.bump, value, half]
    rfl
  · exact Dev.count_counter_other hx (by simp [CounterId.ofNotice, xf, xd])
  · exact count_joins_half value half room
  · rw [Dev.countSeg, Dev.count_counter ok (not_ofNotice_seg g c), Counter.bump_value]
  · rw [Dev.countSeg, Dev.count_counter ok (not_ofNotice_seg g c), Counter.bump]
    simp [beq_eq_decide]
  · exact Dev.count_counter_other (by simpa using other) (not_ofNotice_seg h x)
  · exact count_joins_half value half room
  · exact touches_countSeg d g c

end Sys2Proof.Machine
end

