-- ==== Sys2Proof/Proofs/Uplink.lean ====
section
/-! What the Uplink MAC's commands do: link changes, reception, transmission and the holdoff of notices (R96 to R106, R188,
R193). -/

namespace Sys2Proof.Machine

open Sys2Proof

-- one proof after another: proofs that wait for each other take a thread each
set_option Elab.async false

variable {d : Dev}

/-! ### Transmission -/

/-- What the start of a transmission leaves alone. -/
theorem Dev.startTx_up (d : Dev) : d.startTx.up.queue = d.up.queue ∧ d.startTx.up.leaving = d.up.leaving ∧
    d.startTx.up.pauseDue = d.up.pauseDue ∧ d.startTx.up.hold = d.up.hold ∧ d.startTx.up.link = d.up.link ∧
    d.startTx.up.speed = d.up.speed ∧ d.startTx.up.repeatTimer = d.up.repeatTimer ∧
    d.startTx.up.pauseOn = d.up.pauseOn := by
  unfold Dev.startTx
  split
  · split <;> exact ⟨rfl, rfl, rfl, rfl, rfl, rfl, rfl, rfl⟩
  · exact ⟨rfl, rfl, rfl, rfl, rfl, rfl, rfl, rfl⟩

theorem Dev.startTx_ev (d : Dev) : d.startTx.ev = d.ev := by
  unfold Dev.startTx
  split
  · split <;> rfl
  · rfl

/-- A free port on an UP link without a hold begins to send the head of the queue (R96). -/
theorem Dev.startTx_sends {f : UpFrame} {fs : List UpFrame} (queue : d.up.queue = f :: fs) (link : d.up.link = true)
    (free : d.up.txBusy = false) (hold : d.up.hold = none) :
    d.startTx.up.txBusy = true ∧ d.startTx.up.portOut = ethWire f.bytes := by
  simp only [Dev.startTx, queue, link, free, hold, Bool.not_false, Option.isNone_none, Bool.and_self, if_true]
  exact ⟨rfl, rfl⟩

/-! ### The holdoff of notices -/

/-- A notice is offered where the notice address stands and one is held back or due (R188, R189). -/
theorem Dev.noticeTest_offers (addr : d.set.noticeAddr ≠ 0#48) (due : d.ev.heldBack.isSome = true ∨ d.holdoffRun = true) :
    d.noticeTest = d.offerNotice := by
  have offers : (d.ev.heldBack.isSome || decide (d.set.noticeBatch ≤ d.unmaskedUnsent) || d.holdoffRun) = true := by
    rcases due with h | h <;> simp [h]
  rw [Dev.noticeTest, if_neg addr, if_pos offers]

theorem Dev.noticeHoldoff_offers {s : State} {due : Nat} (addr : s.dev.set.noticeAddr ≠ 0#48)
    (runs : s.dev.ev.heldBack = none ∧ s.dev.ev.holdoff = some due ∨
      s.dev.ev.heldBack = some due ∧ 0 < s.dev.set.noticeHoldoff) :
    s.dev.noticeHoldoff = (s.dev.reach (due + s.dev.set.noticeHoldoff * Config.ms)).offerNotice := by
  rcases runs with ⟨held, holdoff⟩ | ⟨held, pos⟩
  · simp only [Dev.noticeHoldoff, held, holdoff]
    refine Dev.noticeTest_offers addr (.inr ?_)
    simp [Dev.holdoffRun, Dev.reach, holdoff]
  · simp only [Dev.noticeHoldoff, held, pos, if_true]
    exact Dev.noticeTest_offers addr (.inl (by simp [Dev.reach, held]))

theorem touches_noticeSent (d : Dev) : Touches [.events] d (d.modEv fun e =>
    { e with events := e.events.map (fun x => { x with unsent := false }), holdoff := none, heldBack := none,
             noticeNumber := (e.noticeNumber + 1) % 65536 }) := by
  intro p hp; cases p <;> first | exact absurd (Piece.mem_of rfl) hp | simp [Piece.same]

theorem Dev.placeUp_queue (d : Dev) (f : UpFrame) : (d.placeUp f).up.queue = d.up.queue ++ [f] :=
  (d.modUp fun u => { u with queue := u.queue ++ [f] }).startTx_up.1

/-- Settles O18: the holdoff's end offers the notice, and an uplink queue with room takes it. -/
theorem holdoffSendsANotice : Obligations.HoldoffSendsANotice := by
  intro s due addr link room runs
  have takes : (s.dev.reach (due + s.dev.set.noticeHoldoff * Config.ms)).uplinkRoom = true :=
    uplinkRoom_iff.mpr ⟨link, room⟩
  have offered := Dev.noticeHoldoff_offers addr runs
  rw [Dev.offerNotice, if_pos takes] at offered
  have frame : Touches [.clock, .upQueue, .transmit, .events] s.dev s.dev.noticeHoldoff := by
    rw [offered]
    exact Touches.then (Touches.then (n := [.clock, .upQueue, .transmit]) (touches_reach _ _) (touches_placeUp _ _))
      (touches_noticeSent _)
  have ev := Dev.placeUp_ev (s.dev.reach (due + s.dev.set.noticeHoldoff * Config.ms)) s.dev.noticeFrame
  refine ⟨_, rfl, rfl, ?_, ?_, ?_, ?_, ?_, ?_, ?_, frame⟩ <;> dsimp only <;> rw [offered]
  · exact (touches_placeUp _ _ .clock (by decide)).symm
  · exact Dev.placeUp_queue _ _
  · exact congrArg (fun e : EventUnit => e.events.map fun x => { x with unsent := false }) ev
  · rfl
  · rfl
  · have lost := congrArg EventUnit.lost ev
    exact lost
  · exact congrArg (fun e : EventUnit => (e.noticeNumber + 1) % 65536) ev

/-! ### Reception -/

/-- A frame of a fit length with a sound check goes to the tests of its addresses and type (R99). -/
theorem Dev.receive_sound {bs : List Byte} (low : 64 ≤ bs.length) (high : bs.length ≤ 1518) (crc : fcsOk bs = true) :
    d.receive bs =
      if rxDst bs = d.ownAddr ∧ rxType bs = d.set.mgmtType then (d.countUp .framesIn).admission (rxSrc bs) (rxBody bs)
      else if (rxDst bs = pauseAddr ∨ rxDst bs = d.ownAddr) ∧ rxType bs = 0x8808#16 ∧ ofBe ((rxBody bs).take 2) = 1 then
        (d.countUp .pausesReceived).pauseReceived (ofBe (((rxBody bs).drop 2).take 2))
      else if inProxyRange d.set.base (rxDst bs) ∧ rxType bs = d.set.carrierType then
        (d.countUp .framesIn).carrierIn (rxSrc bs) (rxDst bs) (rxBody bs)
      else if rxDst bs = broadcastAddr ∧ rxType bs = d.set.carrierType then
        (d.countUp .framesIn).carrierIn (rxSrc bs) (rxDst bs) (rxBody bs)
      else d.countUp .other := by
  simp only [Dev.receive, Nat.not_lt.mpr low, Nat.not_lt.mpr high, crc, if_false, Bool.not_true, Bool.false_eq_true]

/-- An UP link with the receiver enabled takes a frame (R99). -/
theorem execUplinkFrameReceived_eq {s : State} (bs : List Byte) (dt : Nat) (link : s.dev.up.link = true)
    (enabled : s.dev.up.rxEnabled = true) :
    exec (.uplinkFrameReceived bs dt) s = .next { s with dev := (s.dev.elapse dt).receive bs } := by
  have on : ((s.dev.elapse dt).up.link && (s.dev.elapse dt).up.rxEnabled) = true := by
    simp [Dev.elapse, link, enabled]
  show execUplinkFrameReceived bs dt s = _
  rw [execUplinkFrameReceived, Dev.uplinkReceived, if_pos on]

theorem touches_pauseReceived (d : Dev) (n : Nat) : Touches [.hold, .transmit] d (d.pauseReceived n) := by
  have held : ∀ t, Touches [.hold] d (d.modUp fun u => { u with hold := t }) := fun t => by
    intro p hp; cases p <;> first | exact absurd (Piece.mem_of rfl) hp | simp [Piece.same]
  unfold Dev.pauseReceived
  split
  · exact Touches.then (held none) (touches_startTx _)
  · exact (held _).mono

theorem Dev.pauseReceived_hold (d : Dev) (n : Nat) :
    (d.pauseReceived n).up.hold = if n = 0 then none else some (d.clock + holdTime n d.up.speed) := by
  unfold Dev.pauseReceived
  split
  · exact (Dev.startTx_up _).2.2.2.1
  · rfl

/-- Settles O12: the filter's tests in their order, and the hold that a pause frame sets. -/
theorem receiverDiscardsAndHolds : Obligations.ReceiverDiscardsAndHolds := by
  refine ⟨fun bs dt s link enabled => ?_, fun bs dt s link enabled low high crc dst type mgmt op => ?_⟩
  · dsimp only
    rw [execUplinkFrameReceived_eq bs dt link enabled]
    refine ⟨fun short => ?_, fun long => ?_, fun low high bad => ?_, fun low high ok notMgmt notCarrier notPause => ?_⟩
    · simp only [Dev.receive, short, if_true]
    · simp only [Dev.receive, long, if_true, Nat.not_lt.mpr (le_trans (by decide : 64 ≤ 1518) long.le), if_false]
    · simp only [Dev.receive, Nat.not_lt.mpr low, Nat.not_lt.mpr high, bad, if_false, Bool.not_false, if_true]
    · have mgmt : rxType bs ≠ (s.dev.elapse dt).set.mgmtType := notMgmt
      have carrier : rxType bs ≠ (s.dev.elapse dt).set.carrierType := notCarrier
      simp only [Dev.receive_sound low high ok, mgmt, carrier, notPause, and_false, false_and, if_false]
  · have counted := touches_countUp (s.dev.elapse dt) .pausesReceived
    have taken : (s.dev.elapse dt).receive bs = ((s.dev.elapse dt).countUp .pausesReceived).pauseReceived
        (ofBe (((rxBody bs).drop 2).take 2)) := by
      have notMgmt : ¬ (rxDst bs = (s.dev.elapse dt).ownAddr ∧ rxType bs = (s.dev.elapse dt).set.mgmtType) := by
        rintro ⟨-, h⟩
        exact mgmt (h.symm.trans type)
      rw [Dev.receive_sound low high crc, if_neg notMgmt, if_pos ⟨.inl dst, type, op⟩]
    refine ⟨_, execUplinkFrameReceived_eq bs dt link enabled, rfl, fun zero => ?_, fun pos speed => ?_,
      fun pos speed => ?_, ?_⟩ <;> dsimp only <;> rw [taken]
    · rw [Dev.pauseReceived_hold, if_pos zero]
    · rw [Dev.pauseReceived_hold, if_neg pos, ← (counted .link (by decide)).2.1, ← counted .clock (by decide)]
      simp only [Dev.elapse, speed, holdTime]
    · rw [Dev.pauseReceived_hold, if_neg pos, ← (counted .link (by decide)).2.1, ← counted .clock (by decide)]
      simp only [Dev.elapse, speed, holdTime]
    · exact Touches.then (Touches.then (n := .clock :: Piece.raised) (touches_elapse _ _) counted)
        (touches_pauseReceived _ _)

/-! ### Admission -/

theorem touches_modAgentQueue (d : Dev) (f : Agent → List Request) :
    Touches [.requests] d (d.modAgent fun a => { a with queue := f a }) := by
  intro p hp; cases p <;> first | exact absurd (Piece.mem_of rfl) hp | simp [Piece.same]

theorem admission_admitted {src : Addr} {body : List Byte} {tag : BitVec 16} {ops : List Op}
    (admits : d.set.admits src = true) (parsed : parseRequest body = some (tag, ops)) :
    d.admission src body = if 4 ≤ d.agent.queue.length then d.dropUp .queueFull
      else d.modAgent fun a => { a with queue := a.queue ++ [⟨src, tag, ops⟩] } := by
  rw [Dev.admission, admits, parsed]
  rfl

/-- Settles O13: the first test of the addresses takes a management frame to the admission. -/
theorem requestJoinsTheQueue : Obligations.RequestJoinsTheQueue := by
  intro bs dt s tag ops link enabled low high crc dst type admits parsed
  have counted := touches_countUp (s.dev.elapse dt) .framesIn
  have taken : (s.dev.elapse dt).receive bs = ((s.dev.elapse dt).countUp .framesIn).admission (rxSrc bs) (rxBody bs) := by
    rw [Dev.receive_sound low high crc]
    exact if_pos ⟨dst, type⟩
  have admits : ((s.dev.elapse dt).countUp .framesIn).set.admits (rxSrc bs) = true := by
    rw [← counted .settings (by decide)]
    exact admits
  rw [admission_admitted admits parsed] at taken
  obtain ⟨queue, running⟩ := counted .requests (by decide)
  have queue : s.dev.agent.queue = ((s.dev.elapse dt).countUp .framesIn).agent.queue := queue
  refine ⟨_, execUplinkFrameReceived_eq bs dt link enabled, rfl, ?_⟩
  dsimp only
  rw [taken]
  have arrived : Touches (.clock :: Piece.raised) s.dev ((s.dev.elapse dt).countUp .framesIn) :=
    Touches.then (touches_elapse _ _) counted
  by_cases full : 4 ≤ s.dev.agent.queue.length
  · rw [if_pos (queue ▸ full), if_neg (Nat.not_lt.mpr full)]
    have dropped := touches_dropUp ((s.dev.elapse dt).countUp .framesIn) .queueFull
    obtain ⟨kept, still⟩ := dropped .requests (by decide)
    exact ⟨(queue.trans kept).symm, (running.trans still).symm, Touches.then arrived dropped⟩
  · rw [if_neg (queue ▸ full), if_pos (Nat.not_le.mp full)]
    refine ⟨?_, running.symm, Touches.then arrived (touches_modAgentQueue _ _)⟩
    rw [Dev.modAgent_agent, queue]

/-! ### Link changes -/

/-- With no notice address an event raised moves nothing of the uplink (R188). -/
theorem Dev.raise_up (addr : d.set.noticeAddr = 0#48) (k : EventKind) (s : Subject) : (d.raise k s).up = d.up := by
  have recorded : (d.recordEvent k s).1.set = d.set ∧ (d.recordEvent k s).1.up = d.up := by
    unfold Dev.recordEvent
    dsimp only
    split <;> exact ⟨rfl, rfl⟩
  unfold Dev.raise
  dsimp only
  split
  · rw [Dev.noticeTest, if_pos ((congrArg Settings.noticeAddr recorded.1).trans addr)]
    exact recorded.2
  · exact recorded.2

theorem Dev.count_up (addr : d.set.noticeAddr = 0#48) (c : CounterId) : (d.count c).up = d.up := by
  rw [Dev.count_ev]
  split
  · exact Dev.raise_up (d := d.modEv fun e => e.bump c) addr _ _
  · rfl

theorem Dev.noticeTest_heldBack (addr : d.set.noticeAddr = 0#48) (k : EventKind) (s : Subject)
    (held : d.ev.heldBack = none) : (d.raise k s).ev.heldBack = none := by
  have recorded : (d.recordEvent k s).1.set = d.set ∧ (d.recordEvent k s).1.ev.heldBack = d.ev.heldBack := by
    unfold Dev.recordEvent
    dsimp only
    split <;> exact ⟨rfl, rfl⟩
  unfold Dev.raise
  dsimp only
  split
  · rw [Dev.noticeTest, if_pos ((congrArg Settings.noticeAddr recorded.1).trans addr)]
    rfl
  · exact recorded.2.trans held

theorem touches_reofferNotice (d : Dev) : Touches Piece.raised d d.reofferNotice :=
  Touches.ite (fun _ => touches_noticeTest d) fun _ => .refl _ _

theorem Dev.reofferNotice_counter {x : CounterId} (other : ¬ x.ofNotice) :
    d.reofferNotice.ev.counter x = d.ev.counter x := by
  unfold Dev.reofferNotice
  split
  · exact Dev.noticeTest_counter other
  · rfl

/-- What a link that comes UP does after the pause frame: the event, a notice held back, the queue's head (R102). -/
def Dev.linkIsUp (d : Dev) : Dev := ((d.raise .linkUp .none).reofferNotice).startTx

theorem touches_linkIsUp (d : Dev) : Touches Piece.raised d d.linkIsUp :=
  Touches.then (n := Piece.raised) ((touches_raise _ _ _).trans (touches_reofferNotice _)) (touches_startTx _)

theorem Dev.linkIsUp_counter {x : CounterId} (other : ¬ x.ofNotice) : d.linkIsUp.ev.counter x = d.ev.counter x := by
  rw [Dev.linkIsUp, Dev.startTx_ev, Dev.reofferNotice_counter other, Dev.raise_counter other]

/-- With nothing queued and no notice, what is on the port stays. -/
theorem Dev.linkIsUp_port (addr : d.set.noticeAddr = 0#48) (held : d.ev.heldBack = none) (queue : d.up.queue = []) :
    d.linkIsUp.up.portOut = d.up.portOut := by
  have up := Dev.raise_up addr .linkUp .none
  have none : (d.raise .linkUp .none).ev.heldBack.isSome = false := by
    rw [Dev.noticeTest_heldBack addr _ _ held]
    rfl
  have quiet : (d.raise .linkUp .none).reofferNotice = d.raise .linkUp .none := by
    rw [Dev.reofferNotice, none]
    rfl
  rw [Dev.linkIsUp, quiet, Dev.startTx, up, queue]
  exact congrArg Uplink.portOut up

/-- The link of a part that was DOWN is UP at the PHY's speed. -/
def Dev.atSpeed (d : Dev) (speed : LinkSpeed) : Dev := d.modUp fun u => { u with link := true, speed := speed }

theorem touches_atSpeed (d : Dev) (speed : LinkSpeed) : Touches [.link] d (d.atSpeed speed) := by
  intro p hp; cases p <;> first | exact absurd (Piece.mem_of rfl) hp | simp [Piece.same, Dev.atSpeed]

/-- A pause frame of an idle port on an UP link leaves at once and is counted (R96, R104). -/
theorem Dev.sendPause_idle (link : d.up.link = true) (free : d.up.txBusy = false) (k : PauseKind) :
    d.sendPause k = d.emitPause k := by
  rw [Dev.sendPause, link, free]
  rfl

theorem Dev.emitPause_counter (ok : CountersOk d) (k : PauseKind) :
    (d.emitPause k).ev.counter (.uplink .pausesSent) = (d.ev.counter (.uplink .pausesSent)).bump :=
  Dev.count_counter (d := d.modUp fun u => { u with portOut := ethWire (pauseBytes d.ownAddr (d.pauseTime k)) }) ok
    (not_ofNotice_uplink (by decide) (by decide))

theorem Dev.emitPause_port (addr : d.set.noticeAddr = 0#48) (k : PauseKind) :
    (d.emitPause k).up = { d.up with portOut := ethWire (pauseBytes d.ownAddr (d.pauseTime k)) } :=
  Dev.count_up (d := d.modUp fun u => { u with portOut := ethWire (pauseBytes d.ownAddr (d.pauseTime k)) }) addr _

theorem Dev.count_heldBack (addr : d.set.noticeAddr = 0#48) (c : CounterId) (held : d.ev.heldBack = none) :
    (d.count c).ev.heldBack = none := by
  have bumped : (d.modEv fun e => e.bump c).ev.heldBack = none :=
    (d.ev.setGroup_events _ _).2.2.2.1.trans held
  rw [Dev.count_ev]
  split
  · exact Dev.noticeTest_heldBack (d := d.modEv fun e => e.bump c) addr _ _ bumped
  · exact bumped

theorem Dev.reofferNotice_keeps {k : EventKind} {x : Subject} (h : HasEvent d.ev.events k x) :
    HasEvent d.reofferNotice.ev.events k x := by
  unfold Dev.reofferNotice
  split
  · exact Dev.noticeTest_keeps h
  · exact h

theorem Dev.linkIsUp_joins (room : d.ev.events.length < Config.eventMax) :
    HasEvent d.linkIsUp.ev.events .linkUp .none := by
  rw [Dev.linkIsUp, Dev.startTx_ev]
  exact Dev.reofferNotice_keeps (Dev.raise_joins room _ _)

/-- The pause frame of a link that comes UP with the pause ON, and the start of its repeat timer (R102, R104). -/
def Dev.asksAgain (d : Dev) : Dev := (d.sendPause .ask).startRepeat

theorem touches_asksAgain (d : Dev) : Touches (.pauseState :: Piece.raised) d d.asksAgain :=
  Touches.then (n := .pauseState :: Piece.raised) (touches_sendPause _ _) (touches_startRepeat _)

theorem Dev.asksAgain_timer (link : d.up.link = true) :
    d.asksAgain.up.repeatTimer = some (d.clock + repeatPeriod d.set.pauseQuanta d.up.speed) := by
  have frame := touches_sendPause d .ask
  have timer : d.asksAgain.up.repeatTimer = if (d.sendPause .ask).up.link then
      some ((d.sendPause .ask).clock + repeatPeriod (d.sendPause .ask).set.pauseQuanta (d.sendPause .ask).up.speed)
      else none := rfl
  rw [timer, ← (frame .link (by decide)).1, ← (frame .link (by decide)).2.1, ← frame .clock (by decide),
    ← frame .settings (by decide), if_pos link]

theorem Dev.linkUp_eq {speed : LinkSpeed} (down : d.up.link = false) : d.linkUp speed =
    if d.up.pauseOn then (d.atSpeed speed).asksAgain.linkIsUp else (d.atSpeed speed).linkIsUp := by
  rw [Dev.linkUp, down]
  simp only [Bool.false_eq_true, if_false]
  show Dev.linkIsUp (if d.up.pauseOn = true then _ else _) = _
  split <;> rfl

theorem touches_linkUp (speed : LinkSpeed) (down : d.up.link = false) :
    Touches ([.link, .pauseState] ++ Piece.raised) d (d.linkUp speed) := by
  rw [Dev.linkUp_eq down]
  refine Touches.ite (fun _ => ?_) fun _ => Touches.then (touches_atSpeed d speed) (touches_linkIsUp _)
  exact Touches.then (n := [.link, .pauseState] ++ Piece.raised)
    (Touches.then (n := [.link, .pauseState] ++ Piece.raised) (touches_atSpeed d speed) (touches_asksAgain _))
    (touches_linkIsUp _)

theorem Dev.emitPause_heldBack (addr : d.set.noticeAddr = 0#48) (k : PauseKind) (held : d.ev.heldBack = none) :
    (d.emitPause k).ev.heldBack = none :=
  Dev.count_heldBack (d := d.modUp fun u => { u with portOut := ethWire (pauseBytes d.ownAddr (d.pauseTime k)) }) addr _
    held

/-- The cutting of the uplink's link (R101). -/
def Dev.cutLink (d : Dev) : Dev :=
  d.modUp fun u =>
    { u with link := false, queue := [], txBusy := false, leaving := false, hold := none, repeatTimer := none
             pauseDue := [] }

theorem touches_cutLink (d : Dev) : Touches [.link, .hold, .upQueue, .transmit, .pauseState] d d.cutLink := by
  intro p hp; cases p <;> first | exact absurd (Piece.mem_of rfl) hp | simp [Piece.same, Dev.cutLink]

theorem touches_dropQueued (d : Dev) (f : UpFrame) : Touches Piece.pooling d (d.dropQueued f) :=
  Touches.then (touches_freeTransit _ _) (touches_dropUp _ _)

theorem Dev.freeTransit_pool (d : Dev) (n : Nat) :
    (d.freeTransit n).pool = { d.pool with free := d.pool.free + n, transit := d.pool.transit - n } := by
  unfold Dev.freeTransit
  split
  · rename_i none
    rw [none]
    rfl
  · rw [← touches_pauseTest _ .pool (by decide)]

theorem foldl_dropQueued_pool (l : List UpFrame) : ∀ d : Dev, (l.foldl Dev.dropQueued d).pool =
    { d.pool with free := d.pool.free + upBlocks l, transit := d.pool.transit - upBlocks l } := by
  induction l with
  | nil => exact fun d => rfl
  | cons f l ih =>
    intro d
    have whole : upBlocks (f :: l) = f.blocks.length + upBlocks l := by simp [upBlocks]
    rw [List.foldl_cons, ih, Dev.dropQueued, ← touches_dropUp _ _ .pool (by decide), Dev.freeTransit_pool, whole,
      Nat.add_assoc, Nat.sub_sub]

/-- What a link that goes DOWN does after the cut (R101). -/
def Dev.linkIsDown (d : Dev) (frames : List UpFrame) (cut : Bool) : Dev :=
  ((frames.foldl Dev.dropQueued (if cut then d.dropUp .linkDown else d)).raise .linkDown .none).selectAll

theorem Dev.linkDown_eq (up : d.up.link = true) : d.linkDown = d.cutLink.linkIsDown d.up.queue d.up.leaving := by
  rw [Dev.linkDown, if_pos up]
  rfl

theorem touches_linkIsDown (d : Dev) (frames : List UpFrame) (cut : Bool) :
    Touches ([.pool, .pauseState] ++ Piece.selecting) d (d.linkIsDown frames cut) := by
  have dropped : Touches Piece.pooling d (if cut then d.dropUp .linkDown else d) :=
    Touches.ite (fun _ => (touches_dropUp _ _).mono) fun _ => .refl _ _
  exact Touches.then (n := [.pool, .pauseState] ++ Piece.selecting)
    (Touches.then (n := Piece.pooling) (dropped.trans (Touches.fold touches_dropQueued _ _)) (touches_raise _ _ _))
    (touches_selectAll _)

/-- Only the drops of the frames move the pool. -/
theorem Dev.linkIsDown_pool (d : Dev) (frames : List UpFrame) (cut : Bool) : (d.linkIsDown frames cut).pool =
    { d.pool with free := d.pool.free + upBlocks frames, transit := d.pool.transit - upBlocks frames } := by
  have dropped : (if cut then d.dropUp .linkDown else d).pool = d.pool := by
    split
    · exact (touches_dropUp d _ .pool (by decide)).symm
    · rfl
  rw [Dev.linkIsDown, ← touches_selectAll _ .pool (by decide), ← touches_raise _ _ _ .pool (by decide),
    foldl_dropQueued_pool, dropped]

/-- The law of the uplink alone. -/
theorem closed_uplink : Closed (· ∈ [Law.uplink]) := by constructor <;> decide

/-- A link that has gone DOWN stays silent, by the law of the uplink. -/
theorem linkDown_silent (up : d.up.link = true) : d.linkDown.up.link = false ∧ d.linkDown.up.queue = [] ∧
    d.linkDown.up.txBusy = false ∧ d.linkDown.up.hold = none ∧ d.linkDown.up.repeatTimer = none := by
  have cut : Sound (· ∈ [Law.uplink]) .none d.cutLink := by
    refine ⟨closed_uplink, fun no => absurd no (by decide), fun k hk => ?_⟩
    obtain rfl := List.mem_singleton.mp hk
    exact ⟨fun _ => ⟨rfl, rfl, rfl, rfl, rfl⟩, fun no => absurd no Bool.false_ne_true, fun no => absurd no Bool.false_ne_true⟩
  have dropped : Sound (· ∈ [Law.uplink]) .none (if d.up.leaving then d.cutLink.dropUp .linkDown else d.cutLink) := by
    split
    · exact cut.dropUp _
    · exact cut
  have down : Sound (· ∈ [Law.uplink]) .none (d.cutLink.linkIsDown d.up.queue d.up.leaving) := by
    refine Sound.selectAll (Sound.raise (Sound.fold (fun e f h => ?_) _ dropped) _ _)
    refine Sound.dropUp (Sound.repay (h.freeTransit _ fun no => absurd no (by decide)) fun no => absurd no (by decide)) _
  have link : (d.cutLink.linkIsDown d.up.queue d.up.leaving).up.link = false :=
    (touches_linkIsDown _ _ _ .link (by decide)).1.symm
  obtain ⟨queue, busy, hold, timer, -⟩ := (down.holds .uplink List.mem_cons_self).1 link
  rw [Dev.linkDown_eq up]
  exact ⟨link, queue, busy, hold, timer⟩

/-- Settles O11: a link that comes UP has its speed before its pause frame, and one that goes DOWN is cut before its frames
are dropped. -/
theorem linkChangesReachTheUplink : Obligations.LinkChangesReachTheUplink := by
  refine ⟨fun speed dt s down => ?_, fun dt s up => ?_⟩
  · have same := Dev.linkUp_eq (d := s.dev.elapse dt) (speed := speed) down
    have frame := touches_linkUp (d := s.dev.elapse dt) speed down
    have base := touches_linkIsUp ((s.dev.elapse dt).atSpeed speed).asksAgain
    have asks := touches_asksAgain ((s.dev.elapse dt).atSpeed speed)
    refine ⟨_, rfl, rfl, ?_, ?_, ?_, fun on => ?_, fun on free ok => ?_, fun off room => ?_, ?_⟩ <;> dsimp only
    · rw [same]
      split
      · exact ((base .link (by decide)).1.symm.trans (asks .link (by decide)).1.symm)
      · exact (touches_linkIsUp _ .link (by decide)).1.symm
    · rw [same]
      split
      · exact ((base .link (by decide)).2.1.symm.trans (asks .link (by decide)).2.1.symm)
      · exact (touches_linkIsUp _ .link (by decide)).2.1.symm
    · exact (frame .clock (by decide)).symm
    · rw [same, if_pos (show (s.dev.elapse dt).up.pauseOn = true from on)]
      exact (base .pauseState (by decide)).2.symm.trans (Dev.asksAgain_timer rfl)
    · have sent := Dev.sendPause_idle (d := (s.dev.elapse dt).atSpeed speed) rfl free .ask
      rw [same, if_pos (show (s.dev.elapse dt).up.pauseOn = true from on)]
      refine ⟨?_, fun queue addr held => ?_⟩
      · rw [Dev.linkIsUp_counter (not_ofNotice_uplink (by decide) (by decide))]
        exact congrArg Counter.value ((congrArg (fun e : Dev => e.ev.counter (.uplink .pausesSent)) sent).trans
          (Dev.emitPause_counter (d := (s.dev.elapse dt).atSpeed speed) ok .ask))
      · have kept : ((s.dev.elapse dt).atSpeed speed).asksAgain.ev.heldBack = none := by
          rw [Dev.asksAgain, sent]
          exact Dev.emitPause_heldBack (d := (s.dev.elapse dt).atSpeed speed) addr .ask held
        have up := Dev.emitPause_port (d := (s.dev.elapse dt).atSpeed speed) addr .ask
        rw [Dev.linkIsUp_port ((congrArg Settings.noticeAddr (asks .settings (by decide)).symm).trans addr) kept]
        · rw [Dev.asksAgain, sent]
          exact congrArg Uplink.portOut up
        · rw [Dev.asksAgain, sent]
          exact (congrArg Uplink.queue up).trans queue
    · rw [same, if_neg (by rw [show (s.dev.elapse dt).up.pauseOn = false from off]; exact Bool.false_ne_true)]
      exact Dev.linkIsUp_joins (d := (s.dev.elapse dt).atSpeed speed) room
    · exact Touches.then (touches_elapse _ _) frame
  · have up : (s.dev.elapse dt).up.link = true := up
    obtain ⟨link, queue, busy, hold, timer⟩ := linkDown_silent up
    have same := Dev.linkDown_eq up
    have frame : Touches ([.link, .hold, .pool, .pauseState] ++ Piece.selecting) (s.dev.elapse dt) (s.dev.elapse dt).linkDown := by
      rw [same]
      exact Touches.then (touches_cutLink _) (touches_linkIsDown _ _ _)
    have pool := (s.dev.elapse dt).cutLink.linkIsDown_pool (s.dev.elapse dt).up.queue (s.dev.elapse dt).up.leaving
    rw [← same] at pool
    have spool := congrArg Pool.spool pool
    refine ⟨_, rfl, rfl, link, ?_, queue, busy, hold, timer, congrArg Pool.free pool, congrArg Pool.transit pool,
      spool, Touches.then (touches_elapse _ _) frame⟩
    dsimp only
    rw [same]
    exact (touches_linkIsDown _ _ _ .link (by decide)).2.1.symm

end Sys2Proof.Machine
end

