-- ==== Sys2Proof/Proofs/ProbeSteps.lean ====
section
/-! The steps of a probe on its segment, and the record of a finished one. -/

namespace Sys2Proof.Machine

open Sys2Proof

-- one proof after another: proofs that wait for each other take a thread each
set_option Elab.async false

variable {d e f : Dev} {g : Seg} {l : List Piece}

/-! ### What one segment's operations leave of the others -/

/-- Every segment but one is as it was. -/
def OneSeg (g : Seg) (d e : Dev) : Prop := ∀ h, h ≠ g → e.seg h = d.seg h

theorem OneSeg.refl (g : Seg) (d : Dev) : OneSeg g d d := fun _ _ => rfl

theorem OneSeg.trans (h : OneSeg g d e) (k : OneSeg g e f) : OneSeg g d f := fun x hx => (k x hx).trans (h x hx)

theorem oneSeg_modSeg (d : Dev) (g : Seg) (f : Segment → Segment) : OneSeg g d (d.modSeg g f) := fun x hx =>
  Dev.modSeg_seg_other d g x f hx

theorem oneSeg_modSched (d : Dev) (g : Seg) (f : Scheduler → Scheduler) : OneSeg g d (d.modSched g f) :=
  oneSeg_modSeg _ _ _

theorem oneSeg_modMon (d : Dev) (g : Seg) (f : Monitor → Monitor) : OneSeg g d (d.modMon g f) := oneSeg_modSeg _ _ _

theorem oneSeg_modDisc (d : Dev) (g : Seg) (f : Discovery → Discovery) : OneSeg g d (d.modDisc g f) :=
  oneSeg_modSeg _ _ _

theorem oneSeg_modProbe (d : Dev) (g : Seg) (f : Probe → Probe) : OneSeg g d (d.modProbe g f) := oneSeg_modSeg _ _ _

/-- The pieces that make a segment. -/
def Piece.ofSegment : List Piece := [.cfg, .sched, .mon, .disc, .probe, .downq, .backoffs, .txEnable, .lineOut]

/-- What touches no piece of the segments leaves every segment as it was. -/
theorem Touches.seg_eq (t : Touches l d e) (none : (Piece.ofSegment.any fun p => l.contains p) = false := by rfl)
    (g : Seg) : e.seg g = d.seg g := by
  have same : ∀ p ∈ Piece.ofSegment, p.same d e := fun p hp => t p fun hl =>
    Bool.eq_false_iff.mp none (List.any_eq_true.mpr ⟨p, hp, List.contains_iff_mem.mpr hl⟩)
  have cfg := same .cfg (by decide) g
  have sched := same .sched (by decide) g
  have mon := same .mon (by decide) g
  have disc := same .disc (by decide) g
  have probe := same .probe (by decide) g
  have downq := same .downq (by decide) g
  have backoffs := same .backoffs (by decide) g
  have enable := same .txEnable (by decide) g
  have line := same .lineOut (by decide) g
  cases ed : d.seg g
  cases ee : e.seg g
  simp_all

theorem Touches.oneSeg (t : Touches l d e) (none : (Piece.ofSegment.any fun p => l.contains p) = false := by rfl)
    (g : Seg) : OneSeg g d e := fun h _ => t.seg_eq none h

@[simp] theorem Dev.raise_seg (d : Dev) (k : EventKind) (s : Subject) (g : Seg) : (d.raise k s).seg g = d.seg g :=
  (touches_raise d k s).seg_eq rfl g

@[simp] theorem Dev.countSeg_seg (d : Dev) (h : Seg) (c : SegCounter) (g : Seg) : (d.countSeg h c).seg g = d.seg g :=
  (touches_countSeg d h c).seg_eq rfl g

/-! ### The steps -/

theorem oneSeg_launchShot (d : Dev) (g : Seg) : OneSeg g d (d.launchShot g) := oneSeg_modSeg _ _ _

@[simp] theorem Dev.launchShot_seg (d : Dev) (g : Seg) : (d.launchShot g).seg g = (d.seg g).startPulse d.clock :=
  Dev.modSeg_seg _ _ _

theorem Dev.quietStretch_of (quiet : (d.seg g).probe.phase = .quietCheck)
    (early : (d.seg g).probe.stretchStart + (d.seg g).probe.params.quietTime * Config.ms ≤
      (d.seg g).probe.checkStart + 50 * Config.ms) : d.quietStretch g =
    (d.reach ((d.seg g).probe.stretchStart + (d.seg g).probe.params.quietTime * Config.ms)).modProbe g fun p =>
      { p with phase := .dcMeasure } := by
  unfold Dev.quietStretch
  simp only [quiet, early]
  rfl

theorem Dev.quietStretchBroken_of (quiet : (d.seg g).probe.phase = .quietCheck) :
    d.quietStretchBroken g = d.modProbe g fun p => { p with stretchStart := d.clock } := by
  unfold Dev.quietStretchBroken
  rw [quiet]
  rfl

theorem Dev.shotFire_of (shots : (d.seg g).probe.phase = .shots) (idle : (d.seg g).probe.capturing = false)
    (more : (d.seg g).probe.shots.length < 2 ^ (d.seg g).probe.params.shotExponent) :
    d.shotFire g = (d.reach ((d.seg g).probe.launched + 50 * Config.us)).launchShot g := by
  unfold Dev.shotFire
  simp only [shots, idle, ProbeParams.shotCount, more]
  rfl

theorem Dev.shotEcho_of {n : Nat} (q : Polarity) (shots : (d.seg g).probe.phase = .shots)
    (running : (d.seg g).probe.capturing = true) (low : (d.seg g).probe.params.blankCount < n) (high : n < 4095) :
    d.shotEcho g n q = (d.reach ((d.seg g).probe.launched + n)).recordShot g (.edge q n) := by
  unfold Dev.shotEcho
  simp only [shots, running, low, high]
  rfl

theorem Dev.shotNone_of (shots : (d.seg g).probe.phase = .shots) (running : (d.seg g).probe.capturing = true) :
    d.shotNone g = (d.reach ((d.seg g).probe.launched + 4095)).recordShot g .none := by
  unfold Dev.shotNone
  simp only [shots, running]
  rfl

/-- A shot joins the record of its probe, and its pulse ends. -/
def Dev.keepShot (d : Dev) (g : Seg) (x : Shot) : Dev :=
  (d.modSeg g Segment.endPulse).modProbe g fun p => { p with shots := p.shots ++ [x] }

theorem touches_keepShot (d : Dev) (g : Seg) (x : Shot) : Touches [.probe, .txEnable] d (d.keepShot g x) :=
  Touches.then (touches_endPulse d g) (touches_modProbe _ _ _)

theorem oneSeg_keepShot (d : Dev) (g : Seg) (x : Shot) : OneSeg g d (d.keepShot g x) :=
  (oneSeg_modSeg _ _ _).trans (oneSeg_modProbe _ _ _)

/-- The end of a pulse leaves the transmit enable to the state and an exchange in flight (R109, R135). -/
theorem Dev.keepShot_seg (x : Shot) (shots : (d.seg g).probe.phase = .shots) (running : (d.seg g).probe.capturing = true) :
    (d.keepShot g x).seg g = { d.seg g with
      txEnable := d.inService g || (d.seg g).exchangeInFlight
      probe := { (d.seg g).probe with shots := (d.seg g).probe.shots ++ [x], capturing := false } } := by
  have up : (d.seg g).probePulse = true := by simp [Segment.probePulse, shots, running]
  simp [Dev.keepShot, Segment.endPulse, up, Dev.inService]

theorem Dev.recordShot_eq (d : Dev) (g : Seg) (x : Shot) : d.recordShot g x =
    if (d.seg g).probe.params.shotCount ≤ (d.seg g).probe.shots.length + 1 then
      (d.keepShot g x).completeProbe g ((d.keepShot g x).fullRecord g)
    else d.keepShot g x := by
  have after : ((d.keepShot g x).seg g).probe.params = (d.seg g).probe.params ∧
      ((d.keepShot g x).seg g).probe.shots = (d.seg g).probe.shots ++ [x] := by simp [Dev.keepShot]
  have same : d.recordShot g x = if ((d.keepShot g x).seg g).probe.params.shotCount ≤
      ((d.keepShot g x).seg g).probe.shots.length then (d.keepShot g x).completeProbe g ((d.keepShot g x).fullRecord g)
      else d.keepShot g x := rfl
  rw [same, after.1, after.2, List.length_append, List.length_singleton]

/-- A shot that is not the last joins the record alone (R138). -/
theorem Dev.recordShot_more (x : Shot)
    (more : (d.seg g).probe.shots.length + 1 < 2 ^ (d.seg g).probe.params.shotExponent) :
    d.recordShot g x = d.keepShot g x :=
  (Dev.recordShot_eq d g x).trans (if_neg (Nat.not_le.mpr more))

/-- Settles O40: each step of a probe, from its guard and what it changes. -/
theorem probeStepsAdvance : Obligations.ProbeStepsAdvance := by
  refine ⟨fun g s => ⟨fun quiet early => ?_, fun dt quiet => ?_, fun shots idle more => ?_⟩,
    fun g s shots running more => ⟨fun count q low high => ?_, ?_⟩⟩
  · refine ⟨_, rfl, rfl, ?_⟩
    dsimp only
    rw [Dev.quietStretch_of quiet early]
    exact ⟨rfl, Dev.modProbe_seg _ _ _, oneSeg_modProbe _ _ _, Touches.then (touches_reach _ _) (touches_modProbe _ _ _)⟩
  · refine ⟨_, rfl, rfl, ?_⟩
    dsimp only
    rw [Dev.quietStretchBroken_of (d := s.dev.elapse dt) quiet]
    exact ⟨Dev.modProbe_seg _ _ _, oneSeg_modProbe _ _ _, Touches.then (touches_elapse _ _) (touches_modProbe _ _ _)⟩
  · refine ⟨_, rfl, rfl, ?_⟩
    dsimp only
    rw [Dev.shotFire_of shots idle more]
    exact ⟨rfl, Dev.launchShot_seg _ _, oneSeg_launchShot _ _, Touches.then (touches_reach _ _) (touches_launchShot _ _)⟩
  · refine ⟨_, rfl, rfl, ?_⟩
    dsimp only
    rw [Dev.shotEcho_of q shots running low high, Dev.recordShot_more (d := s.dev.reach _) _ more]
    exact ⟨rfl, Dev.keepShot_seg (d := s.dev.reach _) _ shots running, oneSeg_keepShot _ _ _,
      Touches.then (touches_reach _ _) (touches_keepShot _ _ _)⟩
  · refine ⟨_, rfl, rfl, ?_⟩
    dsimp only
    rw [Dev.shotNone_of shots running, Dev.recordShot_more (d := s.dev.reach _) _ more]
    exact ⟨rfl, Dev.keepShot_seg (d := s.dev.reach _) _ shots running, oneSeg_keepShot _ _ _,
      Touches.then (touches_reach _ _) (touches_keepShot _ _ _)⟩

/-! ### The DC measurement -/

theorem dcVerdict_eq (p : ProbeParams) (code : Nat) : p.dcVerdict code =
    if code < p.dcLow then .low else if code ≤ p.dcHigh then .ok else .high := by
  unfold ProbeParams.dcVerdict
  split
  · rfl
  · by_cases high : code ≤ p.dcHigh
    · rw [if_pos high, if_neg (Nat.not_lt.mpr high)]
    · rw [if_neg high, if_pos (Nat.not_le.mp high)]

theorem Dev.dcMeasurement_of (code : Nat) (measuring : (d.seg g).probe.phase = .dcMeasure) : d.dcMeasurement g code =
    (d.modProbe g fun p => { p with phase := .shots, dcCode := some code, shots := [] }).launchShot g := by
  unfold Dev.dcMeasurement
  rw [measuring]
  rfl

/-- Settles O41: the code is kept and the first pulse launched whatever the verdict. -/
theorem dcMeasurementGivesItsVerdict : Obligations.DcMeasurementGivesItsVerdict := by
  intro g code dt s measuring
  refine ⟨dcVerdict_eq _ _, _, rfl, rfl, ?_⟩
  dsimp only
  rw [Dev.dcMeasurement_of (d := s.dev.elapse dt) code.toNat measuring]
  refine ⟨rfl, ?_, ?_, ?_, (oneSeg_modProbe (s.dev.elapse dt) _ _).trans (oneSeg_launchShot _ _),
    Touches.then (Touches.then (n := [.clock, .probe]) (touches_elapse _ _) (touches_modProbe _ _ _)) (touches_launchShot _ _)⟩
  · simp [Segment.startPulse, Dev.launchShot]
  · simp [Dev.partRecord]
  · simp [Dev.partRecord]

/-! ### The record of a finished probe -/

theorem probePasses_iff (dc : Option DcVerdict) (echo : EchoClass) :
    probePasses dc echo = true ↔ dc = some .ok ∧ echo = .none := by
  simp [probePasses]

theorem dcVerdict_ok_iff (p : ProbeParams) (code : Nat) : p.dcVerdict code = .ok ↔ p.dcLow ≤ code ∧ code ≤ p.dcHigh := by
  rw [dcVerdict_eq]
  split
  · simp; omega
  · split <;> simp <;> omega

theorem echoAverage_openLine {l : List Shot} (h : combineShots l = .openLine) : echoAverage l = some (averageOf .positive l) := by
  rw [echoAverage, h]

/-- Only an OPEN line can be taken for the end of the cable (R140). -/
theorem ProbeParams.echoClass_other (p : ProbeParams) {l : List Shot} (h : combineShots l ≠ .openLine) :
    p.echoClass l = combineShots l := by
  unfold ProbeParams.echoClass
  split
  · exact absurd ‹_› h
  · rfl

theorem ProbeParams.echoClass_openLine (p : ProbeParams) {l : List Shot} {a : Nat} (h : combineShots l = .openLine)
    (average : echoAverage l = some a) : p.echoClass l =
      if 0 < p.segmentLength ∧ p.segmentLength ≤ p.distance a + 5 then .openEnd else .openLine := by
  unfold ProbeParams.echoClass
  rw [h, average]

theorem ProbeParams.echoClass_none_iff (p : ProbeParams) (l : List Shot) :
    p.echoClass l = .none ↔ combineShots l = .none := by
  by_cases openLine : combineShots l = .openLine
  · rw [p.echoClass_openLine openLine (echoAverage_openLine openLine), openLine]
    split <;> simp
  · rw [p.echoClass_other openLine]

/-- The record of a probe in its shots, field by field. -/
theorem Dev.fullRecord_of (shots : (d.seg g).probe.phase = .shots) : d.fullRecord g =
    (let p := (d.seg g).probe
     let avg := echoAverage p.shots
     let dist := avg.map p.params.distance
     let es := d.stations.filter fun e => e.seg == g
     { uptime := d.uptime, trigger := p.trigger,
       outcome := if probePasses (p.dcCode.map p.params.dcVerdict) (p.params.echoClass p.shots) then .pass else .fail,
       quiet := some .quiet, dcCode := p.dcCode, dcVerdict := p.dcCode.map p.params.dcVerdict, fired := p.shots.length,
       positives := some (countPolarity .positive p.shots), negatives := some (countPolarity .negative p.shots),
       nones := some (countNone p.shots), average := avg, echo := some (p.params.echoClass p.shots), distance := dist,
       near := match avg with | some a => decide (a ≤ p.params.launchOffset) | none => false,
       tapBefore := dist.bind (tapBefore es), tapAfter := dist.bind (tapAfter es) } : ProbeRecord) := by
  unfold Dev.fullRecord Dev.partRecord
  simp only [shots, Option.bind_some, Option.getD_some, Option.map_some] <;> rfl

/-- Settles O43: the average leads to the distance and NEAR, the majority to the echo, and both verdicts to the pass. -/
theorem probeRecordLocatesTheFault : Obligations.ProbeRecordLocatesTheFault := by
  intro g d
  dsimp only
  intro shots
  rw [Dev.fullRecord_of shots]
  refine ⟨fun a average => ⟨average, fun near => ?_, fun far => ?_, fun openLine =>
    ⟨(d.seg g).probe.params.distance a, ?_, ?_⟩⟩, fun no => ?_,
    fun other => congrArg some (ProbeParams.echoClass_other _ other), rfl, ?_, ?_, rfl, rfl, rfl, rfl⟩ <;> dsimp only
  · simp [average, ProbeParams.distance, near]
  · simp [average, ProbeParams.distance, Nat.not_le.mpr far]
  · rw [average]
    rfl
  · exact congrArg some (ProbeParams.echoClass_openLine _ openLine average)
  · simp [no]
  · have outcome : ∀ b : Bool, (if b then ProbeOutcome.pass else .fail) = .pass ↔ b = true := by decide
    rw [outcome, probePasses_iff, ProbeParams.echoClass_none_iff]
    simp only [Option.map_eq_some_iff, dcVerdict_ok_iff]
  · split <;> simp

end Sys2Proof.Machine
end

