-- ==== Sys2Proof/Proofs/SegmentTimers.lean ====
section
/-! The cycles, the passes that fall due, the holds and the timers of a segment, and the commands that name one. -/

namespace Sys2Proof.Machine

open Sys2Proof

-- one proof after another: proofs that wait for each other take a thread each
set_option Elab.async false

variable {d e : Dev} {g : Seg} {s : State}

/-! ### Commands that name a segment -/

/-- A part with the status of an operation given alone as its answer. -/
def Dev.says (d : Dev) (code : Byte) (st : Status) : Dev := d.modAgent fun a => { a with answer := some ⟨code, st, []⟩ }

theorem touches_says (d : Dev) (code : Byte) (st : Status) : Touches [.answer] d (d.says code st) :=
  touches_storeAnswer d _

theorem answer_onSegment {b code : Byte} {f : Dev → Seg → Dev × Status} {st : Status} (found : segOf b.toNat = some g)
    (ran : f s.dev g = (e, st)) :
    answer s code (bare (s.dev.onSegment b f)) = .next { s with dev := e.says code st } := by
  rw [Dev.onSegment, found]
  dsimp only
  rw [ran]
  rfl

theorem answer_onSegment_range {b code : Byte} {f : Dev → Seg → Dev × Status} (none : segOf b.toNat = none) :
    answer s code (bare (s.dev.onSegment b f)) = .next (s.withAnswer code .range []) := by
  rw [Dev.onSegment, none]
  rfl

theorem SegState.mediumUsing_iff (st : SegState) :
    st.mediumUsing = true ↔ st = .active ∨ st = .strained ∨ st = .trial := by
  cases st <;> decide

/-! ### Cycles -/

theorem Dev.startCycle_seg (d : Dev) (g : Seg) : (d.startCycle g).seg g = { d.seg g with sched := { (d.seg g).sched with
    cycleStart := some d.clock, floorInEffect := (d.seg g).cfg.cycleFloor,
    cycle := if (planOf (d.stations.filter fun e => e.seg == g) (d.seg g).sched.cycleCount) = [] then .empty
      else .running (planOf (d.stations.filter fun e => e.seg == g) (d.seg g).sched.cycleCount) } } := by
  simp [Dev.startCycle]

theorem oneSeg_startCycle (d : Dev) (g : Seg) : OneSeg g d (d.startCycle g) := oneSeg_modSeg _ _ _

theorem Dev.cycleStart_of (service : d.inService g = true) (ended : (d.seg g).sched.cycle = .ended) : d.cycleStart g =
    (d.reach ((d.seg g).sched.cycleStart.getD 0 + (d.seg g).sched.floorInEffect * Config.ms)).startCycle g := by
  rw [Dev.cycleStart, service, ended]
  rfl

theorem Dev.emptyCycleEnd_of (empty : (d.seg g).sched.cycle = .empty) : d.emptyCycleEnd g =
    (d.reach ((d.seg g).sched.cycleStart.getD 0 + Config.ms)).modSched g fun s => s.endCycle .ended := by
  rw [Dev.emptyCycleEnd, empty]
  rfl

/-- Settles O32: a cycle starts from the floor in effect, and an empty one ends 1 ms after its start. -/
theorem cyclesStartAndEnd : Obligations.CyclesStartAndEnd := by
  refine fun g s => ⟨fun service ended => ⟨_, rfl, rfl, ?_⟩, fun empty => ⟨_, rfl, rfl, ?_⟩⟩ <;> dsimp only
  · rw [Dev.cycleStart_of service ended]
    exact ⟨rfl, Dev.startCycle_seg _ _, oneSeg_startCycle _ _, Touches.then (touches_reach _ _) (touches_startCycle _ _)⟩
  · rw [Dev.emptyCycleEnd_of empty]
    refine ⟨rfl, ?_, oneSeg_modSched (s.dev.reach _) _ _, Touches.then (touches_reach _ _) (touches_modSched _ _ _)⟩
    have empty : ((s.dev.reach ((s.dev.seg g).sched.cycleStart.getD 0 + Config.ms)).seg g).sched.cycle = .empty := empty
    rw [Dev.modSched_seg, Scheduler.endCycle, empty]
    rfl

/-! ### Passes that fall due -/

theorem Dev.passDue_busy (busy : (d.seg g).disc.pass ≠ .idle) : d.passDue g = d := by
  unfold Dev.passDue
  exact if_neg fun idle => busy (beq_iff_eq.mp idle)

theorem oneSeg_passDue (d : Dev) (g : Seg) : OneSeg g d (d.passDue g) := by
  unfold Dev.passDue
  split
  · dsimp only
    split
    · exact (oneSeg_modDisc _ _ _).trans (oneSeg_modSched _ _ _)
    · exact (oneSeg_modDisc _ _ _).trans (oneSeg_modSched _ _ _)
    · exact oneSeg_modDisc _ _ _
  · exact .refl _ _

/-- A pass that falls due asks for the medium in ACTIVE and in TRIAL (R50). -/
theorem Dev.passDue_seg (idle : (d.seg g).disc.pass = .idle) : (d.passDue g).seg g = { d.seg g with
    disc := { (d.seg g).disc with pass := .due, intervalTimer := none }
    sched := { (d.seg g).sched with
      holds := if (d.seg g).mon.state = .active ∨ (d.seg g).mon.state = .trial then
        (d.seg g).sched.holds ++ [.discovery] else (d.seg g).sched.holds } } := by
  unfold Dev.passDue
  rw [if_pos (beq_iff_eq.mpr idle)]
  cases state : (d.seg g).mon.state <;> simp [Dev.askHold, state]

/-- Settles O33: a pass that was IDLE falls due, and one that is due or running stays. -/
theorem passesFallDue : Obligations.PassesFallDue := by
  refine ⟨fun g s due timer idle => ?_, fun b s => ⟨fun g found => ⟨fun service => ?_, fun active strained trial => ?_⟩,
    fun none => ?_⟩⟩
  · have same : s.dev.intervalExpiry g =
        ((s.dev.reach due).modDisc g fun x => { x with intervalTimer := none }).passDue g := by
      rw [Dev.intervalExpiry, timer]
    have pass := Dev.passDue_seg (d := (s.dev.reach due).modDisc g fun x => { x with intervalTimer := none }) (g := g)
      ((congrArg (fun x : Segment => x.disc.pass) (Dev.modDisc_seg _ _ _)).trans idle)
    rw [Dev.modDisc_seg] at pass
    have frame := touches_passDue ((s.dev.reach due).modDisc g fun x => { x with intervalTimer := none }) g
    refine ⟨_, rfl, rfl, ?_⟩
    dsimp only
    rw [same]
    refine ⟨(frame .clock (by decide)).symm, congrArg Segment.disc pass, congrArg Segment.sched pass,
      (oneSeg_modDisc (s.dev.reach due) _ _).trans (oneSeg_passDue _ _),
      Touches.then (Touches.then (n := [.clock, .disc]) (touches_reach _ _) (touches_modDisc _ _ _)) frame⟩
  · have ran : s.dev.discoverSegment g = (s.dev.passDue g, .ok) :=
      if_pos ((SegState.mediumUsing_iff _).mpr service)
    refine ⟨_, answer_onSegment found ran, rfl, rfl, fun busy => ?_, fun idle => ?_, oneSeg_passDue _ _,
      Touches.then (touches_passDue _ _) (touches_says _ _ _)⟩
    · have same := congrArg (fun x : Dev => x.seg g) (Dev.passDue_busy busy)
      exact same
    · refine (Dev.passDue_seg idle).trans ?_
      rcases service with st | st | st <;> simp [st]
  · have ran : s.dev.discoverSegment g = (s.dev, .wrongState) :=
      if_neg fun service => by
        rcases (SegState.mediumUsing_iff _).mp service with st | st | st
        · exact active st
        · exact strained st
        · exact trial st
    exact answer_onSegment found ran
  · exact answer_onSegment_range none

/-! ### Holds that take the medium -/

/-- A hold leaves the list and has the medium (R36). -/
def Dev.giveMedium (d : Dev) (g : Seg) (h : Hold) (hs : List Hold) : Dev :=
  d.modSched g fun s => { s with holds := hs, medium := some h }

theorem Dev.giveMedium_seg (d : Dev) (g : Seg) (h : Hold) (hs : List Hold) : (d.giveMedium g h hs).seg g =
    { d.seg g with sched := { (d.seg g).sched with holds := hs, medium := some h } } := Dev.modSched_seg _ _ _

theorem Dev.holdTakesMedium_of {h : Hold} {hs : List Hold} (holds : (d.seg g).sched.holds = h :: hs)
    (service : d.inService g = true) (turn : (d.seg g).sched.turn = none) (medium : (d.seg g).sched.medium = none)
    (carrier : Bool) : d.holdTakesMedium g carrier = if h = .discovery then (d.giveMedium g h hs).beginPass g carrier
      else (d.giveMedium g h hs).beginProbe g true := by
  have may : d.mayHold g = true := by simp [Dev.mayHold, service, turn, medium]
  unfold Dev.holdTakesMedium
  rw [holds]
  dsimp only
  rw [if_pos may]
  cases h <;> rfl

theorem oneSeg_beginProbe (d : Dev) (g : Seg) (held : Bool) : OneSeg g d (d.beginProbe g held) := oneSeg_modProbe _ _ _

theorem Dev.beginProbe_seg (d : Dev) (g : Seg) (held : Bool) : (d.beginProbe g held).seg g = { d.seg g with
    probe := { (d.seg g).probe with
      phase := .quietCheck, onHold := held, params := (d.seg g).cfg.probeParams, checkStart := d.clock,
      stretchStart := d.clock, dcCode := none, shots := [], capturing := false } } := Dev.modProbe_seg _ _ _

theorem Dev.sendDiscover_of {r : PassRun} (run : (d.seg g).disc.run = some r) : d.sendDiscover g =
    d.modSeg g fun s => { s with
      lineOut := discoverBytes r.group r.slotTime
      disc := { s.disc with run := some { r with
        held := false, slotsFrom := d.clock + frameTime (discoverBytes r.group r.slotTime).length } } } := by
  rw [Dev.sendDiscover, run]

theorem oneSeg_openWindow (d : Dev) (g : Seg) (p : PassState) (r : PassRun) (carrier : Bool) :
    OneSeg g d (d.openWindow g p r carrier) := by
  unfold Dev.openWindow
  dsimp only
  split
  · exact oneSeg_modDisc _ _ _
  · refine (oneSeg_modDisc d g fun x => { x with pass := p, run := some { r with held := carrier } }).trans ?_
    rw [Dev.sendDiscover_of (congrArg (fun x : Segment => x.disc.run) (Dev.modDisc_seg _ _ _))]
    exact oneSeg_modSeg _ _ _

theorem Dev.openWindow_carrier (d : Dev) (g : Seg) (p : PassState) (r : PassRun) :
    (d.openWindow g p r true).seg g =
      { d.seg g with disc := { (d.seg g).disc with pass := p, run := some { r with held := true } } } :=
  Dev.modDisc_seg d g fun x => { x with pass := p, run := some { r with held := true } }

theorem Dev.openWindow_quiet (d : Dev) (g : Seg) (p : PassState) (r : PassRun) :
    (d.openWindow g p r false).seg g = { d.seg g with
      lineOut := discoverBytes r.group r.slotTime
      disc := { (d.seg g).disc with pass := p, run := some { r with
        held := false, slotsFrom := d.clock + frameTime (discoverBytes r.group r.slotTime).length } } } := by
  unfold Dev.openWindow
  dsimp only
  rw [if_neg Bool.false_ne_true, Dev.sendDiscover_of (congrArg (fun x : Segment => x.disc.run) (Dev.modDisc_seg _ _ _))]
  simp

theorem discoverBytes_time (group : Option Nat) (slot : Nat) :
    frameTime (discoverBytes group slot).length = 106 * Config.bitCell := by
  cases group <;> rfl

/-- Settles O34: the first hold takes the medium, and begins its pass or its probe. -/
theorem firstHoldTakesTheMedium : Obligations.FirstHoldTakesTheMedium := by
  intro g carrier dt s h hs
  dsimp only
  intro holds service turn medium
  have taken : Touches [.clock, .sched] s.dev ((s.dev.elapse dt).giveMedium g h hs) :=
    Touches.then (touches_elapse _ _) (touches_modSched _ _ _)
  have moved := (s.dev.elapse dt).giveMedium_seg g h hs
  have others : OneSeg g s.dev ((s.dev.elapse dt).giveMedium g h hs) := oneSeg_modSched (s.dev.elapse dt) g _
  have now : ((s.dev.elapse dt).giveMedium g h hs).clock = s.dev.clock + dt := rfl
  refine ⟨_, rfl, rfl, ?_⟩
  dsimp only
  rw [Dev.holdTakesMedium_of (d := s.dev.elapse dt) holds service turn medium carrier]
  generalize (s.dev.elapse dt).giveMedium g h hs = e at *
  have moved : e.seg g = { s.dev.seg g with sched := { (s.dev.seg g).sched with holds := hs, medium := some h } } := moved
  cases h with
  | discovery =>
    rw [if_pos rfl]
    have framed := Touches.then (n := [.clock, .sched, .disc, .probe, .lineOut]) taken (touches_openWindow e g .level0
      { slotTime := (e.seg g).cfg.slotTime, group := none, groupsLeft := [], held := false, slotsFrom := 0, readings := [] }
      carrier)
    have apart : OneSeg g s.dev (e.beginPass g carrier) := others.trans (oneSeg_openWindow _ _ _ _ _)
    cases carrier with
    | false =>
      have begun : (e.beginPass g false).seg g = _ := Dev.openWindow_quiet _ _ _ _
      rw [moved, discoverBytes_time, now] at begun
      rw [begun]
      exact ⟨rfl, fun _ => ⟨rfl, rfl, fun _ => ⟨rfl, _, rfl, rfl, rfl, rfl⟩, fun no => absurd no Bool.false_ne_true⟩,
        (nomatch ·), apart, framed⟩
    | true =>
      have begun : (e.beginPass g true).seg g = _ := Dev.openWindow_carrier _ _ _ _
      rw [moved] at begun
      rw [begun]
      exact ⟨rfl, fun _ => ⟨rfl, rfl, fun no => absurd no.symm Bool.false_ne_true, fun _ => ⟨rfl, _, rfl, rfl, rfl⟩⟩,
        (nomatch ·), apart, framed⟩
  | probe =>
    rw [if_neg (by decide), Dev.beginProbe_seg, moved, now]
    exact ⟨rfl, (nomatch ·), fun _ => ⟨rfl, rfl, rfl⟩, others.trans (oneSeg_beginProbe _ _ _),
      Touches.then taken (touches_beginProbe _ _ _)⟩

/-! ### Segment states -/

@[simp] theorem Dev.setSegState_seg (d : Dev) (g : Seg) (st : SegState) : (d.setSegState g st).seg g =
    Segment.settleEnable { d.seg g with mon := { (d.seg g).mon with state := st } } := Dev.modSeg_seg _ _ _

theorem oneSeg_setSegState (d : Dev) (g : Seg) (st : SegState) : OneSeg g d (d.setSegState g st) := oneSeg_modSeg _ _ _

/-- A segment that enters service drives its line (R109). -/
theorem Segment.settleEnable_service (q : Segment) (service : q.mon.state.mediumUsing = true) :
    q.settleEnable = { q with txEnable := true } := by
  simp [Segment.settleEnable, service]

theorem oneSeg_requestProbe (d : Dev) (g : Seg) (t : Trigger) : OneSeg g d (d.requestProbe g t) := by
  unfold Dev.requestProbe
  split
  · exact (oneSeg_modProbe _ _ _).trans (oneSeg_beginProbe _ _ _)
  · exact oneSeg_modProbe _ _ _

/-- A probe asked for by the Line Monitor begins at once on an IDLE Line Probe (R133). -/
theorem Dev.requestProbe_idle (t : Trigger) (idle : (d.seg g).probe.phase = .idle) : (d.requestProbe g t).seg g =
    { d.seg g with probe := { (d.seg g).probe with
      phase := .quietCheck, trigger := t, onHold := false, params := (d.seg g).cfg.probeParams, checkStart := d.clock,
      stretchStart := d.clock, dcCode := none, shots := [], capturing := false } } := by
  rw [Dev.requestProbe, if_pos (beq_iff_eq.mpr idle), Dev.beginProbe_seg, Dev.modProbe_seg]
  rfl

/-- A probe asked for by the Line Monitor waits behind a manual one (R133). -/
theorem Dev.requestProbe_busy (t : Trigger) (busy : (d.seg g).probe.phase ≠ .idle) : (d.requestProbe g t).seg g =
    { d.seg g with probe := { (d.seg g).probe with waitingReq := some t } } := by
  rw [Dev.requestProbe, if_neg fun idle => busy (beq_iff_eq.mp idle), Dev.modProbe_seg]

/-- Asking for a probe changes the probe alone. -/
theorem Dev.requestProbe_seg (d : Dev) (g : Seg) (t : Trigger) : (d.requestProbe g t).seg g =
    { d.seg g with probe := ((d.requestProbe g t).seg g).probe } := by
  by_cases idle : (d.seg g).probe.phase = .idle
  · rw [Dev.requestProbe_idle t idle]
  · rw [Dev.requestProbe_busy t idle]

/-! ### The timers -/

/-- The segment state that a timer leads to, with the timer stopped. -/
def Dev.onExpiry (d : Dev) (g : Seg) (due : Nat) (f : Monitor → Monitor) (st : SegState) : Dev :=
  ((d.reach due).modMon g f).setSegState g st

theorem touches_onExpiry (d : Dev) (g : Seg) (due : Nat) (f : Monitor → Monitor) (st : SegState) :
    Touches [.clock, .mon, .txEnable] d (d.onExpiry g due f st) :=
  Touches.then (Touches.then (n := [.clock, .mon]) (touches_reach _ _) (touches_modMon _ _ _)) (touches_setSegState _ _ _)

theorem oneSeg_onExpiry (d : Dev) (g : Seg) (due : Nat) (f : Monitor → Monitor) (st : SegState) :
    OneSeg g d (d.onExpiry g due f st) := (oneSeg_modMon (d.reach due) _ _).trans (oneSeg_setSegState _ _ _)

theorem Dev.onExpiry_seg (d : Dev) (g : Seg) (due : Nat) (f : Monitor → Monitor) (st : SegState) :
    (d.onExpiry g due f st).seg g =
      Segment.settleEnable { d.seg g with mon := { f (d.seg g).mon with state := st } } := by
  simp [Dev.onExpiry]

theorem Dev.cooldownExpiry_of {due : Nat} (state : (d.seg g).mon.state = .cooling)
    (timer : (d.seg g).mon.cooldownTimer = some due) : d.cooldownExpiry g =
    (d.onExpiry g due (fun m => { m with cooldownTimer := none }) .probing).requestProbe g .retry := by
  rw [Dev.cooldownExpiry, state, timer]
  rfl

theorem Dev.trialExpiry_of {due : Nat} (state : (d.seg g).mon.state = .trial)
    (timer : (d.seg g).mon.trialTimer = some due) : d.trialExpiry g =
    ((d.onExpiry g due (fun m => { m with trialTimer := none, attempts := 0 }) .active).raise
      .segRestored (.segment g)).passDue g := by
  rw [Dev.trialExpiry, state, timer]
  rfl

theorem Dev.passDue_ev (d : Dev) (g : Seg) : (d.passDue g).ev = d.ev := by
  unfold Dev.passDue
  split
  · dsimp only
    split <;> rfl
  · rfl

/-- Settles O38: a cooldown leads to the retry probe, and a trial to service. -/
theorem segmentTimersExpire : Obligations.SegmentTimersExpire := by
  refine ⟨fun g s due state timer => ⟨_, rfl, rfl, ?_⟩, fun g s due state timer => ⟨_, rfl, rfl, ?_⟩⟩ <;> dsimp only
  · have probing := s.dev.onExpiry_seg g due (fun m => { m with cooldownTimer := none }) .probing
    have cooled := touches_onExpiry s.dev g due (fun m => { m with cooldownTimer := none }) .probing
    have apart := oneSeg_onExpiry s.dev g due (fun m => { m with cooldownTimer := none }) .probing
    have now : (s.dev.onExpiry g due (fun m => { m with cooldownTimer := none }) .probing).clock = max s.dev.clock due := rfl
    rw [Dev.cooldownExpiry_of state timer]
    generalize s.dev.onExpiry g due (fun m => { m with cooldownTimer := none }) .probing = e at *
    have frame := touches_requestProbe e g .retry
    refine ⟨(frame .clock (by decide)).symm.trans now, ?_, fun idle => ?_, fun busy => ?_,
      apart.trans (oneSeg_requestProbe _ _ _), Touches.then cooled frame⟩
    · rw [Dev.requestProbe_seg, probing]
      rfl
    · have idle : (e.seg g).probe.phase = .idle := by rw [probing]; exact idle
      rw [Dev.requestProbe_idle _ idle, probing, now]
      exact ⟨rfl, rfl, rfl, rfl, rfl⟩
    · have busy : (e.seg g).probe.phase ≠ .idle := by rw [probing]; exact busy
      rw [Dev.requestProbe_busy _ busy, probing]
      rfl
  · have active := s.dev.onExpiry_seg g due (fun m => { m with trialTimer := none, attempts := 0 }) .active
    rw [Segment.settleEnable_service _ rfl] at active
    have restored := touches_onExpiry s.dev g due (fun m => { m with trialTimer := none, attempts := 0 }) .active
    have apart := oneSeg_onExpiry s.dev g due (fun m => { m with trialTimer := none, attempts := 0 }) .active
    have now : (s.dev.onExpiry g due (fun m => { m with trialTimer := none, attempts := 0 }) .active).clock =
        max s.dev.clock due := rfl
    have events : (s.dev.onExpiry g due (fun m => { m with trialTimer := none, attempts := 0 }) .active).ev = s.dev.ev := rfl
    rw [Dev.trialExpiry_of state timer]
    generalize s.dev.onExpiry g due (fun m => { m with trialTimer := none, attempts := 0 }) .active = e at *
    have raised := touches_raise e .segRestored (.segment g)
    have frame := touches_passDue (e.raise .segRestored (.segment g)) g
    have told := (Dev.raise_seg e .segRestored (.segment g) g).trans active
    refine ⟨?_, ?_, ?_, fun idle => ?_, fun room => ?_, (apart.trans (raised.oneSeg rfl g)).trans (oneSeg_passDue _ _),
      Touches.then (Touches.then (n := [.clock, .mon, .txEnable] ++ Piece.raised) restored raised) frame⟩
    · exact (frame .clock (by decide)).symm.trans ((raised .clock (by decide)).symm.trans now)
    · exact (frame .mon (by decide) g).symm.trans (congrArg Segment.mon told)
    · exact (frame .txEnable (by decide) g).symm.trans (congrArg Segment.txEnable told)
    · have due := Dev.passDue_seg (d := e.raise .segRestored (.segment g)) (g := g)
        ((congrArg (fun x : Segment => x.disc.pass) told).trans idle)
      rw [due, told]
      exact ⟨rfl, rfl⟩
    · rw [Dev.passDue_ev]
      exact Dev.raise_joins (by rw [events]; exact room) _ _

/-! ### The commands on a segment -/

theorem Dev.probeSegment_free (idle : (d.seg g).probe.phase = .idle) (asked : (d.seg g).probe.waitingReq = none) :
    d.probeSegment g = match (d.seg g).mon.state with
      | .active | .strained | .trial =>
        ((d.modProbe g fun p => { p with phase := .waiting, trigger := .manual, onHold := false }).askHold g .probe, .ok)
      | .down | .cooling | .latched => ((d.modProbe g fun p => { p with trigger := .manual }).beginProbe g false, .ok)
      | .starting | .probing => (d, .wrongState) := by
  unfold Dev.probeSegment
  exact (if_neg (by simp [idle, asked])).trans rfl

/-! ### The end of a probe -/

/-- The record of a probe is kept and told (R142). -/
def Dev.toldProbe (d : Dev) (g : Seg) (r : ProbeRecord) : Dev :=
  (d.modProbe g fun p => { p with last := some r }).raise .probeDone (.segment g)

theorem touches_toldProbe (d : Dev) (g : Seg) (r : ProbeRecord) : Touches (.probe :: Piece.raised) d (d.toldProbe g r) :=
  Touches.then (touches_modProbe _ _ _) (touches_raise _ _ _)

theorem oneSeg_toldProbe (d : Dev) (g : Seg) (r : ProbeRecord) : OneSeg g d (d.toldProbe g r) :=
  (oneSeg_modProbe _ _ _).trans ((touches_raise _ _ _).oneSeg rfl g)

theorem Dev.toldProbe_seg (d : Dev) (g : Seg) (r : ProbeRecord) : (d.toldProbe g r).seg g =
    { d.seg g with probe := { (d.seg g).probe with last := some r } } := by
  rw [Dev.toldProbe, Dev.raise_seg, Dev.modProbe_seg]

/-- The Line Probe is IDLE, its pulse and its hold ended (R135, R142). -/
def Dev.freeProbe (d : Dev) (g : Seg) : Dev :=
  let e := (d.modSeg g Segment.endPulse).modProbe g fun p => { p with phase := .idle, onHold := false }
  if (d.seg g).probe.onHold then e.endHold g .probe else e

theorem touches_freeProbe (d : Dev) (g : Seg) : Touches [.probe, .txEnable, .sched] d (d.freeProbe g) := by
  have freed : Touches [.probe, .txEnable] d ((d.modSeg g Segment.endPulse).modProbe g fun p =>
      { p with phase := .idle, onHold := false }) := Touches.then (touches_endPulse _ _) (touches_modProbe _ _ _)
  exact Touches.ite (fun _ => Touches.then freed (touches_endHold _ _ _)) fun _ => freed.mono

theorem oneSeg_freeProbe (d : Dev) (g : Seg) : OneSeg g d (d.freeProbe g) := by
  have freed : OneSeg g d ((d.modSeg g Segment.endPulse).modProbe g fun p => { p with phase := .idle, onHold := false }) :=
    (oneSeg_modSeg _ _ _).trans (oneSeg_modProbe _ _ _)
  unfold Dev.freeProbe
  dsimp only
  split
  · exact freed.trans (oneSeg_modSched _ _ _)
  · exact freed

theorem Dev.freeProbe_seg (d : Dev) (g : Seg) : (d.freeProbe g).seg g = { d.seg g with
    probe := { (d.seg g).probe with phase := .idle, onHold := false, capturing := false }
    txEnable := (d.seg g).endPulse.txEnable
    sched := if (d.seg g).probe.onHold = true ∧ (d.seg g).sched.medium = some .probe then
      { (d.seg g).sched with medium := none } else (d.seg g).sched } := by
  unfold Dev.freeProbe
  by_cases held : (d.seg g).probe.onHold = true
  · rw [if_pos held]
    simp [Dev.endHold, held]
  · rw [if_neg held]
    simp [held]

/-- A probe completes: its result is handed on, and with no request that waits the Line Probe is IDLE (R142). -/
theorem Dev.completeProbe_eq {r : ProbeRecord} (told : (if r.outcome = .aborted then d.toldProbe g r
      else (d.toldProbe g r).probeResult g r.trigger (r.outcome == .pass)) = e)
    (unasked : (e.seg g).probe.waitingReq = none) : d.completeProbe g r = e.freeProbe g := by
  have same : d.completeProbe g r = match ((e.freeProbe g).seg g).probe.waitingReq with
      | some t => ((e.freeProbe g).modProbe g fun p => { p with trigger := t, waitingReq := none }).beginProbe g false
      | none => e.freeProbe g := by
    rw [← told]
    rfl
  rw [same, Dev.freeProbe_seg]
  dsimp only
  rw [unasked]

/-- Only a START and a RETRY result go to the Line Monitor (R142). -/
theorem Dev.probeResult_manual (d : Dev) (g : Seg) (b : Bool) : d.probeResult g .manual b = d := rfl

/-- A probe that is aborted, or was asked for by hand, leaves the Line Monitor as it is. -/
theorem Dev.completeProbe_aside {r : ProbeRecord} (aside : r.outcome = .aborted ∨ r.trigger = .manual)
    (unasked : (d.seg g).probe.waitingReq = none) : d.completeProbe g r = (d.toldProbe g r).freeProbe g := by
  refine Dev.completeProbe_eq ?_ ((congrArg (fun x : Segment => x.probe.waitingReq) (d.toldProbe_seg g r)).trans unasked)
  by_cases aborted : r.outcome = .aborted
  · exact if_pos aborted
  · rw [if_neg aborted, aside.resolve_left aborted, Dev.probeResult_manual]

/-- An abort clears the request that waits, and ends a probe that is not IDLE (R144). -/
theorem Dev.abortProbe_eq (d : Dev) (g : Seg) : d.abortProbe g =
    (let e := d.modProbe g fun p => { p with waitingReq := none }
     if (d.seg g).probe.phase = .idle then e else (e.toldProbe g (e.partRecord g .aborted)).freeProbe g) := by
  have phase : ((d.modProbe g fun p => { p with waitingReq := none }).seg g).probe.phase = (d.seg g).probe.phase := by simp
  unfold Dev.abortProbe
  dsimp only
  rw [phase]
  by_cases idle : (d.seg g).probe.phase = .idle
  · rw [if_pos idle, if_pos (beq_iff_eq.mpr idle)]
  · rw [if_neg idle, if_neg fun h => idle (beq_iff_eq.mp h)]
    exact Dev.completeProbe_aside (.inl rfl) (by simp)

theorem touches_aborting (d : Dev) (g : Seg) : Touches ([.probe, .txEnable, .sched] ++ Piece.raised) d (d.abortProbe g) := by
  rw [Dev.abortProbe_eq]
  refine Touches.ite (fun _ => (touches_modProbe _ _ _).mono) fun _ => ?_
  exact Touches.then (n := [.probe, .txEnable, .sched] ++ Piece.raised)
    (Touches.then (n := .probe :: Piece.raised) (touches_modProbe _ _ _) (touches_toldProbe _ _ _)) (touches_freeProbe _ _)

theorem oneSeg_abortProbe (d : Dev) (g : Seg) : OneSeg g d (d.abortProbe g) := by
  rw [Dev.abortProbe_eq]
  dsimp only
  split
  · exact oneSeg_modProbe _ _ _
  · exact ((oneSeg_modProbe _ _ _).trans (oneSeg_toldProbe _ _ _)).trans (oneSeg_freeProbe _ _)

/-- The Line Probe is IDLE with no request that waits once it has been aborted (R144). -/
theorem Dev.abortProbe_probe (d : Dev) (g : Seg) : ((d.abortProbe g).seg g).probe.phase = .idle ∧
    ((d.abortProbe g).seg g).probe.waitingReq = none := by
  rw [Dev.abortProbe_eq]
  dsimp only
  split
  · rename_i idle
    rw [Dev.modProbe_seg]
    exact ⟨idle, rfl⟩
  · rw [Dev.freeProbe_seg, Dev.toldProbe_seg, Dev.modProbe_seg]
    exact ⟨rfl, rfl⟩

/-! ### Departures -/

/-- What a departure from service may move but the Line Probe (R119). -/
def Piece.departing : List Piece := [.endings, .disc, .downq, .backoffs, .segCounters] ++ Piece.spooling

/-- A departure from service before it comes to the Line Probe (R119). -/
def Dev.departing (d : Dev) (g : Seg) : Dev :=
  ((((d.modSched g Scheduler.depart).flushQueue g).modDisc g fun x =>
    { x with pass := .idle, intervalTimer := none, run := none }).losePrinters g).failSegmentSources g

theorem Dev.depart_eq (d : Dev) (g : Seg) : d.depart g = (d.departing g).probeDeparts g := rfl

theorem touches_departing (d : Dev) (g : Seg) : Touches Piece.departing d (d.departing g) :=
  Touches.then (n := Piece.departing) (Touches.then (n := Piece.departing) (Touches.then (n := Piece.departing)
    (Touches.then (n := Piece.departing) (touches_modSched _ _ _) (touches_flushQueue _ _)) (touches_modDisc _ _ _))
    (touches_losePrinters _ _)) (touches_failSegmentSources _ _)

theorem touches_departure (d : Dev) (g : Seg) : Touches (.probe :: Piece.departing) d (d.depart g) :=
  Touches.then (touches_departing d g) (touches_probeDeparts _ _)

/-- A departure leaves an IDLE Line Probe IDLE. -/
theorem Dev.depart_idle (idle : (d.seg g).probe.phase = .idle) : ((d.depart g).seg g).probe.phase = .idle := by
  have kept : ((d.departing g).seg g).probe = (d.seg g).probe := (touches_departing d g .probe (by decide) g).symm
  rw [Dev.depart_eq, Dev.probeDeparts, kept, idle]
  dsimp only
  rw [Dev.modProbe_seg, kept]
  exact idle

/-! ### Restoring, probing and clearing -/

theorem oneSeg_enterStarting (d : Dev) (g : Seg) : OneSeg g d (d.enterStarting g) :=
  (oneSeg_setSegState _ _ _).trans (oneSeg_requestProbe _ _ _)

theorem Dev.enterStarting_mon (d : Dev) (g : Seg) :
    ((d.enterStarting g).seg g).mon = { (d.seg g).mon with state := .starting } := by
  rw [Dev.enterStarting, Dev.requestProbe_seg, Dev.setSegState_seg]
  rfl

/-- A START probe of an IDLE Line Probe begins its quiet check (R123, R133). -/
theorem Dev.enterStarting_idle (idle : (d.seg g).probe.phase = .idle) : ((d.enterStarting g).seg g).probe =
    { (d.seg g).probe with
      phase := .quietCheck, trigger := .start, onHold := false, params := (d.seg g).cfg.probeParams,
      checkStart := d.clock, stretchStart := d.clock, dcCode := none, shots := [], capturing := false } := by
  have idle : ((d.setSegState g .starting).seg g).probe.phase = .idle := by rw [Dev.setSegState_seg]; exact idle
  rw [Dev.enterStarting, Dev.requestProbe_idle _ idle, Dev.setSegState_seg]
  rfl

theorem Dev.enterStarting_busy (busy : (d.seg g).probe.phase ≠ .idle) :
    ((d.enterStarting g).seg g).probe = { (d.seg g).probe with waitingReq := some .start } := by
  have busy : ((d.setSegState g .starting).seg g).probe.phase ≠ .idle := by rw [Dev.setSegState_seg]; exact busy
  rw [Dev.enterStarting, Dev.requestProbe_busy _ busy, Dev.setSegState_seg]
  rfl

/-- A segment that SEG_RESTORE takes, before it enters STARTING (R127). -/
def Dev.cleared (d : Dev) (g : Seg) : Dev :=
  let st := (d.seg g).mon.state
  let e := (d.modMon g fun m => { m with cooldownTimer := none, trialTimer := none }).abortProbe g
  (if st = .trial then (e.setSegState g .starting).depart g else e).modMon g fun m => { m with attempts := 0 }

theorem Dev.restoreSegment_eq (d : Dev) (g : Seg) : d.restoreSegment g =
    if (d.seg g).mon.state.restorable then ((d.cleared g).enterStarting g, .ok) else (d, .wrongState) := rfl

/-- What SEG_RESTORE leaves of the Line Monitor and the Line Probe before the segment enters STARTING. -/
theorem Dev.cleared_facts (d : Dev) (g : Seg) : (d.cleared g).clock = d.clock ∧
    (∃ st, ((d.cleared g).seg g).mon =
      { (d.seg g).mon with state := st, attempts := 0, cooldownTimer := none, trialTimer := none }) ∧
    ((d.cleared g).seg g).probe.phase = .idle ∧ ((d.cleared g).seg g).cfg = (d.seg g).cfg := by
  have aborted := touches_aborting (d.modMon g fun m => { m with cooldownTimer := none, trialTimer := none }) g
  have idle := ((d.modMon g fun m => { m with cooldownTimer := none, trialTimer := none }).abortProbe_probe g).1
  have clock := (aborted .clock (by decide)).symm
  have mon := (aborted .mon (by decide) g).symm
  have cfg := (aborted .cfg (by decide) g).symm
  rw [Dev.modMon_seg] at mon cfg
  unfold Dev.cleared
  dsimp only
  rw [Dev.modMon_seg]
  generalize (d.modMon g fun m => { m with cooldownTimer := none, trialTimer := none }).abortProbe g = e at *
  split
  · have left := touches_departure (e.setSegState g .starting) g
    have down := left .mon (by decide) g
    have kept := left .cfg (by decide) g
    rw [Dev.setSegState_seg] at down kept
    refine ⟨(left .clock (by decide)).symm.trans clock, ⟨.starting, ?_⟩, Dev.depart_idle ?_, kept.symm.trans cfg⟩
    · rw [← down]
      dsimp only [Segment.settleEnable]
      rw [mon]
    · rw [Dev.setSegState_seg]
      exact idle
  · refine ⟨clock, ⟨(d.seg g).mon.state, ?_⟩, idle, cfg⟩
    rw [mon]

theorem touches_clearRecord (d : Dev) (g : Seg) : Touches [.mon] d (d.clearRecord g).1 := touches_modMon _ _ _

/-- Settles O59: SEG_RESTORE and SEG_PROBE by the segment state, and SEG_CLEAR_RECORD in any. -/
theorem segmentsAreRestoredAndProbed : Obligations.SegmentsAreRestoredAndProbed := by
  refine fun b s => ⟨fun g found => ?_, fun none => ⟨answer_onSegment_range none, answer_onSegment_range none,
    answer_onSegment_range none, answer_onSegment_range none, answer_onSegment_range none⟩⟩
  refine ⟨fun state => ?_, fun state => ?_, fun idle asked service => ?_, fun idle asked out => ?_, fun refused => ?_, ?_⟩
  · have restorable : (s.dev.seg g).mon.state.restorable = true := by
      rcases state with st | st | st | st <;> rw [st] <;> rfl
    have ran : s.dev.restoreSegment g = ((s.dev.cleared g).enterStarting g, .ok) :=
      (s.dev.restoreSegment_eq g).trans (if_pos restorable)
    have framed := touches_restoreSegment s.dev g
    rw [ran] at framed
    obtain ⟨clock, ⟨st, mon⟩, idle, cfg⟩ := s.dev.cleared_facts g
    have probe := Dev.enterStarting_idle idle
    refine ⟨_, answer_onSegment found ran, rfl, rfl, ?_, ?_, ?_, ?_, ?_, ?_, Touches.then framed (touches_says _ _ _)⟩
    · exact (Dev.enterStarting_mon _ _).trans (by rw [mon])
    · exact congrArg Probe.phase probe
    · exact congrArg Probe.trigger probe
    · exact congrArg Probe.onHold probe
    · exact (congrArg Probe.checkStart probe).trans clock
    · exact (touches_enterStarting _ g .cfg (by decide) g).symm.trans cfg
  · have ran : s.dev.restoreSegment g = (s.dev, .wrongState) := by
      rw [Dev.restoreSegment_eq]
      rcases state with st | st | st | st <;> rw [st] <;> rfl
    exact answer_onSegment found ran
  · have ran : s.dev.probeSegment g = ((s.dev.modProbe g fun p =>
        { p with phase := .waiting, trigger := .manual, onHold := false }).askHold g .probe, .ok) := by
      rw [Dev.probeSegment_free idle asked]
      rcases service with st | st | st <;> rw [st]
    have waits := (s.dev.modProbe g fun p => { p with phase := .waiting, trigger := .manual, onHold := false }).modSched_seg
      g fun q => { q with holds := q.holds ++ [.probe] }
    rw [Dev.modProbe_seg] at waits
    have apart := (oneSeg_modProbe s.dev g fun p => { p with phase := .waiting, trigger := .manual, onHold := false }).trans
      (oneSeg_modSched _ g fun q => { q with holds := q.holds ++ [.probe] })
    refine ⟨_, answer_onSegment found ran, rfl, rfl, waits, apart, ?_⟩
    · exact Touches.then (Touches.then (n := [.probe, .sched]) (touches_modProbe _ _ _) (touches_askHold _ _ _))
        (touches_says _ _ _)
  · have ran : s.dev.probeSegment g =
        ((s.dev.modProbe g fun p => { p with trigger := .manual }).beginProbe g false, .ok) := by
      rw [Dev.probeSegment_free idle asked]
      rcases out with st | st | st <;> rw [st]
    refine ⟨_, answer_onSegment found ran, rfl, rfl, ?_, ?_, ?_⟩
    · exact (Dev.beginProbe_seg _ _ _).trans (by rw [Dev.modProbe_seg]; rfl)
    · exact (oneSeg_modProbe s.dev _ _).trans (oneSeg_beginProbe _ _ false)
    · exact Touches.then (Touches.then (n := [.probe]) (touches_modProbe _ _ _) (touches_beginProbe _ _ _))
        (touches_says _ _ _)
  · have ran : s.dev.probeSegment g = (s.dev, .wrongState) := by
      by_cases idle : (s.dev.seg g).probe.phase = .idle ∧ (s.dev.seg g).probe.waitingReq = none
      · rw [Dev.probeSegment_free idle.1 idle.2]
        rcases refused with no | no | st | st
        · exact absurd idle.1 no
        · exact absurd idle.2 no
        · rw [st]
        · rw [st]
      · exact if_pos (by rw [Option.isSome_iff_ne_none]; exact (not_and_or.mp idle))
    exact answer_onSegment found ran
  · have cleared := s.dev.modMon_seg g fun m => { m with record := none, peak := 0, recent := [] }
    have apart := oneSeg_modMon s.dev g fun m => { m with record := none, peak := 0, recent := [] }
    exact ⟨_, answer_onSegment found (e := (s.dev.clearRecord g).1) rfl, rfl, rfl, cleared, apart,
      Touches.then (touches_clearRecord _ _) (touches_says _ _ _)⟩

end Sys2Proof.Machine
end

