-- ==== Sys2Proof/Proofs/ProbeResults.lean ====
section
/-! Probes that complete, and activity on the line outside exchanges. -/

namespace Sys2Proof.Machine

open Sys2Proof

-- one proof after another: proofs that wait for each other take a thread each
set_option Elab.async false

variable {d e : Dev} {g : Seg} {s : State}

/-! ### A probe that passes -/

/-- Shots that all recorded NONE give the echo NONE (R139). -/
theorem combineShots_none {l : List Shot} (quiet : ∀ x ∈ l, x = .none) (some : l ≠ []) : combineShots l = .none := by
  have edges : ∀ q, countPolarity q l = 0 := fun q => by
    rw [countPolarity, List.length_eq_zero_iff, List.filter_eq_nil_iff]
    exact fun x hx => by rw [quiet x hx]; exact Bool.false_ne_true
  have nones : countNone l = l.length := by
    rw [countNone, List.filter_eq_self.mpr fun x hx => by rw [quiet x hx]; rfl]
  have pos := List.length_pos_iff.mpr some
  rw [combineShots, edges, edges, nones, if_neg (by omega), if_neg (by omega), if_pos (by omega)]

theorem Dev.fullRecord_passes {code : Nat} (shots : (d.seg g).probe.phase = .shots)
    (code_eq : (d.seg g).probe.dcCode = some code)
    (low : (d.seg g).probe.params.dcLow ≤ code) (high : code ≤ (d.seg g).probe.params.dcHigh)
    (echo : combineShots (d.seg g).probe.shots = .none) : (d.fullRecord g).outcome = .pass ∧
      (d.fullRecord g).echo = some .none ∧ (d.fullRecord g).dcVerdict = some .ok ∧
      (d.fullRecord g).trigger = (d.seg g).probe.trigger := by
  have verdict := (dcVerdict_ok_iff (d.seg g).probe.params code).mpr ⟨low, high⟩
  have none := (ProbeParams.echoClass_none_iff (d.seg g).probe.params (d.seg g).probe.shots).mpr echo
  have passes := (probePasses_iff (some .ok) .none).mpr ⟨rfl, rfl⟩
  rw [Dev.fullRecord_of shots]
  dsimp only
  rw [code_eq, none, Option.map_some, verdict, passes]
  exact ⟨rfl, rfl, rfl, rfl⟩

/-- A segment in service that its start probe has passed, before its first cycle (R123). -/
def Dev.entersService (d : Dev) (g : Seg) : Dev :=
  ((d.modMon g fun m => { m with strain := 0, run := 0 }).setSegState g .active).startCycle g

theorem Dev.entersService_seg (d : Dev) (g : Seg) : ∃ c, (d.entersService g).seg g = { d.seg g with
    txEnable := true
    mon := { (d.seg g).mon with state := .active, strain := 0, run := 0 }
    sched := { (d.seg g).sched with cycleStart := some d.clock, floorInEffect := (d.seg g).cfg.cycleFloor, cycle := c } } := by
  refine ⟨((d.entersService g).seg g).sched.cycle, ?_⟩
  rw [Dev.entersService, Dev.startCycle_seg, Dev.setSegState_seg, Segment.settleEnable_service _ rfl, Dev.modMon_seg]
  rfl

theorem oneSeg_entersService (d : Dev) (g : Seg) : OneSeg g d (d.entersService g) :=
  ((oneSeg_modMon _ _ _).trans (oneSeg_setSegState _ _ _)).trans (oneSeg_startCycle _ _)

/-- A START probe that passes brings a STARTING segment into service (R123, R142). -/
theorem Dev.probeResult_start (starting : (d.seg g).mon.state = .starting) :
    d.probeResult g .start true = (d.entersService g).passDue g := by
  unfold Dev.probeResult
  rw [starting]
  rfl

/-- A piece that is the same can be left out of what is touched. -/
theorem Touches.without {p : Piece} {l : List Piece} (t : Touches (p :: l) d e) (same : p.same d e) : Touches l d e :=
  fun q hq => by
    by_cases qp : q = p
    · exact qp ▸ same
    · exact t q fun h => (List.mem_cons.mp h).elim qp hq

/-- A probe outside its shots has no pulse to end, and the transmit enable stays. -/
theorem touches_freeProbe_still (d : Dev) (still : (d.seg g).probePulse = false) :
    Touches [.probe, .sched] d (d.freeProbe g) := by
  have frame : Touches [.txEnable, .probe, .sched] d (d.freeProbe g) := (touches_freeProbe d g).mono
  refine frame.without fun h => ?_
  by_cases same : h = g
  · rw [same, Dev.freeProbe_seg]
    exact (if_neg (by rw [still]; exact Bool.false_ne_true)).symm
  · exact (congrArg Segment.txEnable (oneSeg_freeProbe d g h same)).symm

/-- In its quiet check a probe has measured nothing. -/
theorem Dev.partRecord_quietCheck (quiet : (d.seg g).probe.phase = .quietCheck) (o : ProbeOutcome) : d.partRecord g o =
    { uptime := d.uptime, trigger := (d.seg g).probe.trigger, outcome := o, quiet := none, dcCode := none,
      dcVerdict := none, fired := 0, positives := none, negatives := none, nones := none, average := none, echo := none,
      distance := none, near := false, tapBefore := none, tapAfter := none } := by
  rw [Dev.partRecord]
  simp only [quiet]
  rfl

/-- The record of a probe that carrier has kept from a quiet stretch (R136). -/
def Dev.jabberRecord (d : Dev) (g : Seg) : ProbeRecord := { d.partRecord g .fail with quiet := some .jabberLine }

theorem Dev.jabberLine_of (quiet : (d.seg g).probe.phase = .quietCheck) (manual : (d.seg g).probe.trigger = .manual)
    (unasked : (d.seg g).probe.waitingReq = none) : d.jabberLine g =
      (let e := d.reach ((d.seg g).probe.checkStart + 50 * Config.ms)
       (e.toldProbe g (e.jabberRecord g)).freeProbe g) := by
  have same : d.jabberLine g = (let e := d.reach ((d.seg g).probe.checkStart + 50 * Config.ms)
      e.completeProbe g (e.jabberRecord g)) := by
    rw [Dev.jabberLine, quiet]
    rfl
  exact same.trans (Dev.completeProbe_aside (d := d.reach _) (.inr manual) unasked)

theorem Dev.passDue_clock (d : Dev) (g : Seg) : (d.passDue g).clock = d.clock :=
  (touches_passDue d g .clock (by decide)).symm

/-- The record kept of a START probe that passes brings its segment into service (R123, R142). -/
theorem Dev.completeProbe_start {r : ProbeRecord} (pass : r.outcome = .pass) (start : r.trigger = .start)
    (unasked : (d.seg g).probe.waitingReq = none) (starting : (d.seg g).mon.state = .starting)
    (idle : (d.seg g).disc.pass = .idle) :
    d.completeProbe g r = (((d.toldProbe g r).entersService g).passDue g).freeProbe g ∧
    ∃ c, (((d.toldProbe g r).entersService g).passDue g).seg g = { d.seg g with
      txEnable := true
      probe := { (d.seg g).probe with last := some r }
      mon := { (d.seg g).mon with state := .active, strain := 0, run := 0 }
      disc := { (d.seg g).disc with pass := .due, intervalTimer := none }
      sched := { (d.seg g).sched with
        cycleStart := some d.clock, floorInEffect := (d.seg g).cfg.cycleFloor, cycle := c,
        holds := (d.seg g).sched.holds ++ [.discovery] } } := by
  have told := d.toldProbe_seg g r
  have clock : (d.toldProbe g r).clock = d.clock := (touches_toldProbe d g r .clock (by decide)).symm
  obtain ⟨c, enters⟩ := (d.toldProbe g r).entersService_seg g
  rw [told, clock] at enters
  have due := Dev.passDue_seg (d := (d.toldProbe g r).entersService g) (g := g) (by rw [enters]; exact idle)
  rw [enters] at due
  refine ⟨Dev.completeProbe_eq ?_ (by rw [due]; exact unasked), c, due⟩
  rw [if_neg (by rw [pass]; decide), start, pass]
  exact Dev.probeResult_start (by rw [told]; exact starting)

/-- Settles O44: JABBER_LINE leaves the segment as it was, and a passing START probe brings it into service. -/
theorem probesComplete : Obligations.ProbesComplete := by
  refine ⟨fun g s => ?_, fun g s code => ?_⟩ <;> dsimp only
  · intro quiet manual unasked
    have record : (s.dev.reach ((s.dev.seg g).probe.checkStart + 50 * Config.ms)).jabberRecord g = _ :=
      congrArg (fun r : ProbeRecord => { r with quiet := some .jabberLine }) (Dev.partRecord_quietCheck quiet .fail)
    have told := (s.dev.reach ((s.dev.seg g).probe.checkStart + 50 * Config.ms)).toldProbe_seg g
      ((s.dev.reach ((s.dev.seg g).probe.checkStart + 50 * Config.ms)).jabberRecord g)
    have telling := touches_toldProbe (s.dev.reach ((s.dev.seg g).probe.checkStart + 50 * Config.ms)) g
      ((s.dev.reach ((s.dev.seg g).probe.checkStart + 50 * Config.ms)).jabberRecord g)
    have apart := oneSeg_toldProbe (s.dev.reach ((s.dev.seg g).probe.checkStart + 50 * Config.ms)) g
      ((s.dev.reach ((s.dev.seg g).probe.checkStart + 50 * Config.ms)).jabberRecord g)
    have reached := touches_reach s.dev ((s.dev.seg g).probe.checkStart + 50 * Config.ms)
    refine ⟨_, (s.dev.reach ((s.dev.seg g).probe.checkStart + 50 * Config.ms)).jabberRecord g, rfl, rfl, ?_⟩
    dsimp only
    rw [Dev.jabberLine_of quiet manual unasked]
    dsimp only
    generalize (s.dev.reach ((s.dev.seg g).probe.checkStart + 50 * Config.ms)).toldProbe g
      ((s.dev.reach ((s.dev.seg g).probe.checkStart + 50 * Config.ms)).jabberRecord g) = e at *
    have still : (e.seg g).probePulse = false := by
      rw [told, Segment.probePulse]
      simp [quiet]
    have freed := touches_freeProbe_still e still
    rw [Dev.freeProbe_seg, told, record]
    refine ⟨?_, rfl, rfl, rfl, manual, rfl, rfl, rfl, rfl, rfl, rfl, rfl, rfl, rfl, rfl, rfl, fun held medium => ?_,
      apart.trans (oneSeg_freeProbe _ _),
      Touches.then (Touches.then (n := [.clock, .probe] ++ Piece.raised) reached telling) freed⟩
    · exact (freed .clock (by decide)).symm.trans (telling .clock (by decide)).symm
    · exact congrArg Scheduler.medium (if_pos ⟨held, medium⟩)
  · intro shots running start unasked offHold dc low high last quiet starting idle
    have kept := Dev.keepShot_seg (d := s.dev.reach ((s.dev.seg g).probe.launched + 4095)) .none shots running
    have keeping := touches_keepShot (s.dev.reach ((s.dev.seg g).probe.launched + 4095)) g .none
    have keptApart := oneSeg_keepShot (s.dev.reach ((s.dev.seg g).probe.launched + 4095)) g .none
    have reached := touches_reach s.dev ((s.dev.seg g).probe.launched + 4095)
    have whole : (s.dev.reach ((s.dev.seg g).probe.launched + 4095)).recordShot g .none = _ :=
      (Dev.recordShot_eq _ _ _).trans (if_pos (Nat.le_of_eq last.symm))
    refine ⟨_, ((s.dev.reach ((s.dev.seg g).probe.launched + 4095)).keepShot g .none).fullRecord g, rfl, rfl, ?_⟩
    dsimp only
    rw [Dev.shotNone_of shots running, whole]
    generalize (s.dev.reach ((s.dev.seg g).probe.launched + 4095)).keepShot g .none = d at *
    have kept : d.seg g = { s.dev.seg g with
        txEnable := s.dev.inService g || (s.dev.seg g).exchangeInFlight
        probe := { (s.dev.seg g).probe with shots := (s.dev.seg g).probe.shots ++ [.none], capturing := false } } := kept
    have phase : (d.seg g).probe.phase = .shots := by rw [kept]; exact shots
    have echo : combineShots (d.seg g).probe.shots = .none := by
      rw [kept]
      refine combineShots_none (fun x hx => ?_) (List.append_ne_nil_of_right_ne_nil _ (List.cons_ne_nil _ _))
      rcases List.mem_append.mp hx with old | new
      · exact quiet x old
      · exact List.mem_singleton.mp new
    obtain ⟨pass, none, verdict, trigger⟩ := Dev.fullRecord_passes (code := code) phase (by rw [kept]; exact dc)
      (by rw [kept]; exact low) (by rw [kept]; exact high) echo
    obtain ⟨completed, c, served⟩ := Dev.completeProbe_start pass (by rw [trigger, kept]; exact start)
      (by rw [kept]; exact unasked) (by rw [kept]; exact starting) (by rw [kept]; exact idle)
    have framed := touches_completeProbe d g (d.fullRecord g)
    have entered := ((oneSeg_toldProbe d g (d.fullRecord g)).trans (oneSeg_entersService _ g)).trans (oneSeg_passDue _ g)
    rw [completed] at framed ⊢
    have clock := framed .clock (by decide)
    generalize ((d.toldProbe g (d.fullRecord g)).entersService g).passDue g = e at *
    rw [Dev.freeProbe_seg, served, kept]
    refine ⟨rfl, rfl, pass, none, verdict, rfl, ?_, ?_, rfl, ?_, (keptApart.trans entered).trans (oneSeg_freeProbe _ _),
      Touches.then (Touches.then (n := [.clock, .probe, .txEnable]) reached keeping) framed⟩
    · have still : (e.seg g).probePulse = false := by
        rw [served, kept]
        exact Bool.and_false _
      exact (if_neg (by rw [← kept, ← served, still]; exact Bool.false_ne_true)).trans rfl
    · rw [← clock]
      exact congrArg Scheduler.cycleStart (if_neg fun held => by rw [offHold] at held; exact absurd held.1 Bool.false_ne_true)
    · exact congrArg Scheduler.holds (if_neg fun held => by rw [offHold] at held; exact absurd held.1 Bool.false_ne_true)

end Sys2Proof.Machine
end

