-- ==== Sys2Proof/Proofs/Asides.lean ====
section
/-! What the operations that other operations trigger (selection, endings, flushes, changes of the pool) leave of the
counters and of the Turn Schedulers. -/

namespace Sys2Proof.Machine

open Sys2Proof

-- one proof after another: proofs that wait for each other take a thread each
set_option Elab.async false

variable {d e f : Dev} {g : Seg} {l : List Piece}

/-- The counters that an operation may move as an aside: those of notices, of pause frames, of jobs and of flushes. -/
def CounterId.incidental : CounterId → Bool
  | .uplink (.drop .queueFull) | .uplink (.drop .linkDown) | .uplink .pausesSent => true
  | .spool _ => true
  | .seg _ (.drop .flushed) | .seg _ .trips => true
  | _ => false

theorem not_ofNotice_of_incidental {c : CounterId} (h : c.incidental = false) : ¬ c.ofNotice := by
  rintro (rfl | rfl) <;> exact absurd h (by decide)

/-- A Turn Scheduler keeps its holds, the start of its cycle and its turn, unless the turn ends; none begins. -/
structure SchedAside (a b : Scheduler) : Prop where
  holds : b.holds = a.holds
  medium : b.medium = a.medium
  cycleStart : b.cycleStart = a.cycleStart
  cycle : a.cycle = .none → b.cycle = .none
  turn : b.turn = a.turn ∨ b.turn = none

theorem SchedAside.refl (a : Scheduler) : SchedAside a a := ⟨rfl, rfl, rfl, id, .inl rfl⟩

theorem SchedAside.trans {a b c : Scheduler} (h : SchedAside a b) (k : SchedAside b c) : SchedAside a c where
  holds := k.holds.trans h.holds
  medium := k.medium.trans h.medium
  cycleStart := k.cycleStart.trans h.cycleStart
  cycle := k.cycle ∘ h.cycle
  turn := k.turn.elim (fun same => h.turn.imp same.trans same.trans) .inr

/-- A turn that has ended stays ended. -/
theorem SchedAside.stays {a b : Scheduler} (h : SchedAside a b) (ended : a.turn = none) : b.turn = none :=
  h.turn.elim (·.trans ended) id

/-- From one part to the other only incidental counters have moved, and only turns have ended. -/
structure Aside (d e : Dev) : Prop where
  counter : ∀ c, c.incidental = false → e.ev.counter c = d.ev.counter c
  sched : ∀ g, SchedAside (d.seg g).sched (e.seg g).sched

theorem Aside.refl (d : Dev) : Aside d d := ⟨fun _ _ => rfl, fun _ => .refl _⟩

theorem Aside.trans (h : Aside d e) (k : Aside e f) : Aside d f :=
  ⟨fun c hc => (k.counter c hc).trans (h.counter c hc), fun g => (h.sched g).trans (k.sched g)⟩

theorem Aside.fold {α : Type} {f : Dev → α → Dev} (step : ∀ d a, Aside d (f d a)) (as : List α) :
    ∀ d : Dev, Aside d (as.foldl f d) := by
  induction as with
  | nil => exact fun d => .refl d
  | cons a as ih => exact fun d => (step d a).trans (ih _)

theorem Aside.ite {b : Prop} [Decidable b] (h : b → Aside d e) (k : ¬ b → Aside d f) : Aside d (if b then e else f) := by
  split
  · exact h ‹_›
  · exact k ‹_›

theorem EventUnit.counter_congr {a b : EventUnit} (seg : a.segCounters = b.segCounters) (up : a.upCounters = b.upCounters)
    (spool : a.spoolCounters = b.spoolCounters) (c : CounterId) : a.counter c = b.counter c := by
  have group : a.group = b.group := by
    funext n
    unfold EventUnit.group
    rw [seg, up, spool]
  rw [EventUnit.counter, EventUnit.counter, group]

/-- What touches neither a Turn Scheduler nor a counter is an aside. -/
theorem Touches.aside (t : Touches l d e) (apart : ([Piece.sched, .segCounters, .upCounters, .spoolCounters].any fun p =>
    l.contains p) = false := by rfl) : Aside d e := by
  have same : ∀ p ∈ [Piece.sched, .segCounters, .upCounters, .spoolCounters], p.same d e := fun p hp => t p fun hl =>
    Bool.eq_false_iff.mp apart (List.any_eq_true.mpr ⟨p, hp, List.contains_iff_mem.mpr hl⟩)
  refine ⟨fun c _ => ?_, fun g => ?_⟩
  · exact EventUnit.counter_congr (same .segCounters (by decide)).symm (same .upCounters (by decide)).symm
      (same .spoolCounters (by decide)).symm c
  · rw [← same .sched (by decide) g]
    exact .refl _

theorem aside_raise (d : Dev) (k : EventKind) (s : Subject) : Aside d (d.raise k s) :=
  ⟨fun _ hc => Dev.raise_counter (not_ofNotice_of_incidental hc) k s, fun g => by
    rw [Dev.raise_seg]
    exact .refl _⟩

theorem aside_count (d : Dev) {c : CounterId} (aside : c.incidental = true) : Aside d (d.count c) :=
  ⟨fun x hx => Dev.count_counter_other (fun same => by rw [same, aside] at hx; exact absurd hx (by decide))
    (not_ofNotice_of_incidental hx), fun g => by
    rw [← touches_count d c .sched (by cases c <;> simp [CounterId.piece, Piece.raised]) g]
    exact .refl _⟩

theorem aside_modSched (d : Dev) (g : Seg) {f : Scheduler → Scheduler} (aside : ∀ s, SchedAside s (f s)) :
    Aside d (d.modSched g f) := by
  refine ⟨fun _ _ => rfl, fun h => ?_⟩
  by_cases same : h = g
  · rw [same, Dev.modSched_seg]
    exact aside _
  · rw [oneSeg_modSched d g f h same]
    exact .refl _

/-! ### The pool -/

theorem aside_sendPause (d : Dev) (k : PauseKind) : Aside d (d.sendPause k) := by
  unfold Dev.sendPause
  refine Aside.ite (fun _ => .refl _) fun _ => Aside.ite (fun _ => ⟨fun _ _ => rfl, fun _ => .refl _⟩) fun _ => ?_
  have sent : Aside d (d.modUp fun u => { u with portOut := ethWire (pauseBytes d.ownAddr (d.pauseTime k)) }) :=
    ⟨fun _ _ => rfl, fun _ => .refl _⟩
  exact sent.trans (aside_count _ rfl)

theorem aside_pauseTest (d : Dev) : Aside d d.pauseTest := by
  unfold Dev.pauseTest
  refine Aside.ite (fun _ => ?_) fun _ => Aside.ite (fun _ => ?_) fun _ => .refl _
  · have on : Aside d (d.modUp fun u => { u with pauseOn := true }) := ⟨fun _ _ => rfl, fun _ => .refl _⟩
    exact ((on.trans (aside_sendPause _ _)).trans (touches_startRepeat _).aside).trans (aside_raise _ _ _)
  · have off : Aside d (d.modUp fun u => { u with pauseOn := false, repeatTimer := none }) :=
      ⟨fun _ _ => rfl, fun _ => .refl _⟩
    exact off.trans (aside_sendPause _ _)

theorem aside_pool (d : Dev) (q : Pool) : Aside d { d with pool := q }.pauseTest :=
  (touches_pool d q).aside.trans (aside_pauseTest _)

theorem aside_takeTransit (d : Dev) (n : Nat) : Aside d (d.takeTransit n) := aside_pool _ _

theorem aside_takeSpool (d : Dev) (n : Nat) : Aside d (d.takeSpool n) := Aside.ite (fun _ => .refl _) fun _ => aside_pool _ _

theorem aside_freeTransit (d : Dev) (n : Nat) : Aside d (d.freeTransit n) :=
  Aside.ite (fun _ => .refl _) fun _ => aside_pool _ _

theorem aside_freeSpool (d : Dev) (n : Nat) : Aside d (d.freeSpool n) := Aside.ite (fun _ => .refl _) fun _ => aside_pool _ _

/-! ### Selection and the ends of jobs -/

theorem aside_endHeldFeed (d : Dev) (g : Seg) (i : Nat) : Aside d (d.endHeldFeed g i) :=
  aside_modSched d g fun s => by
    split
    · split
      · exact ⟨rfl, rfl, rfl, id, .inr rfl⟩
      · exact .refl _
    · exact .refl _

theorem aside_makeLost (d : Dev) (i : Nat) : Aside d (d.makeLost i) := by
  unfold Dev.makeLost
  split
  · refine Aside.ite (fun _ => .refl _) fun _ => ?_
    exact ((aside_endHeldFeed _ _ _).trans (touches_modPrinter _ _ _).aside).trans (aside_raise _ _ _)
  · exact .refl _

theorem aside_makeStalled (d : Dev) (i : Nat) : Aside d (d.makeStalled i) := by
  unfold Dev.makeStalled
  split
  · exact ((aside_endHeldFeed _ _ _).trans (touches_modPrinter _ _ _).aside).trans (aside_raise _ _ _)
  · exact .refl _

theorem aside_handOver (d : Dev) (i : Nat) (j : Job) : Aside d (d.handOver i j) := by
  have stamped : Aside d (if j.state == .filling then d.takeStamp j.serial else d) :=
    Aside.ite (fun _ => (touches_takeStamp _ _).aside) fun _ => .refl _
  unfold Dev.handOver
  dsimp only
  generalize (if j.state == .filling then d.takeStamp j.serial else d) = x at stamped ⊢
  have active := stamped.trans (touches_modJob x j.serial fun j => { j with state := .active }).aside
  split
  · exact active.trans (Aside.ite (fun _ => (touches_enterFeeding _ _).aside) fun _ => aside_makeLost _ _)
  · exact active

theorem aside_select (d : Dev) (i : Nat) : Aside d (d.select i) := by
  unfold Dev.select
  split
  · refine Aside.ite (fun _ => ?_) fun _ => .refl _
    split
    · exact aside_handOver _ _ _
    · exact .refl _
  · exact .refl _

theorem aside_selectAll (d : Dev) : Aside d d.selectAll := Aside.fold aside_select _ d

theorem aside_enterIdle (d : Dev) (i : Nat) : Aside d (d.enterIdle i) :=
  (touches_modPrinter _ _ _).aside.trans (aside_select _ _)

theorem aside_activeJobEnded (d : Dev) (i : Nat) : Aside d (d.activeJobEnded i) := by
  unfold Dev.activeJobEnded
  split
  · rename_i p _
    have ended : Aside d ((d.endHeldFeed p.seg i).modPrinter i fun p => { p with ready := none, sentMark := none }) :=
      (aside_endHeldFeed _ _ _).trans (touches_modPrinter _ _ _).aside
    dsimp only
    split
    · exact ended.trans (aside_enterIdle _ _)
    · exact ended.trans (aside_enterIdle _ _)
    · exact ended.trans (Aside.ite (fun _ => (touches_modPrinter _ _ _).aside) fun _ => .refl _)
    all_goals exact ended
  · exact .refl _

theorem aside_closeOut (d : Dev) (j : Job) (o : JobOutcome) : Aside d (d.closeOut j o) := by
  unfold Dev.closeOut
  extract_lets +onlyGivenNames d1 d2 d3 d4
  have h1 : Aside d d1 := (touches_setJobs d fun s => removeFirst (fun x => x.serial == j.serial) s.jobs).aside
  have h2 : Aside d1 d2 := aside_freeSpool _ _
  have h3 : Aside d2 d3 := (touches_setFinished d2 fun s => addSummary s.finished
    ⟨j.id, j.printer, j.source, o, j.received, j.printed, d2.uptime⟩).aside
  have h4 : Aside d3 d4 := aside_count _ rfl
  exact (((h1.trans h2).trans h3).trans h4).trans (Aside.ite (fun _ => aside_raise _ _ _) fun _ => .refl _)

theorem aside_endJob (d : Dev) (n : Nat) (o : JobOutcome) : Aside d (d.endJob n o) := by
  unfold Dev.endJob
  split
  · exact ((aside_closeOut _ _ _).trans (Aside.ite (fun _ => aside_activeJobEnded _ _) fun _ => .refl _)).trans
      (aside_selectAll _)
  · exact .refl _

theorem aside_endJobOrWait (d : Dev) (n : Nat) (o : JobOutcome) (a : Asker) : Aside d (d.endJobOrWait n o a) :=
  Aside.ite (fun _ => (touches_setEndings d fun s => s.endings ++ [⟨n, o, a⟩]).aside) fun _ => aside_endJob _ _ _

theorem aside_failSource (d : Dev) (g : Seg) (n : Nat) : Aside d (d.failSource g n) :=
  Aside.fold (fun _ _ => aside_endJobOrWait _ _ _ _) _ _

theorem aside_failSegmentSources (d : Dev) (g : Seg) : Aside d (d.failSegmentSources g) :=
  Aside.fold (fun _ _ => aside_endJobOrWait _ _ _ _) _ _

theorem aside_applyEnding (d : Dev) (w : WaitingEnding) : Aside d (d.applyEnding w) := by
  unfold Dev.applyEnding
  split
  · exact (aside_endJob _ _ _).trans (touches_answerEnding _ _ _).aside
  · exact (touches_answerEnding _ _ _).aside

theorem aside_applyEndings (d : Dev) : Aside d d.applyEndings :=
  (touches_setEndings d fun s => s.endings.filter fun w => d.jobInFlight w.serial).aside.trans
    (Aside.fold aside_applyEnding _ _)

theorem aside_losePrinters (d : Dev) (g : Seg) : Aside d (d.losePrinters g) := by
  refine Aside.fold (fun d i => ?_) _ _
  split
  · exact Aside.ite (fun _ => aside_makeLost _ _) fun _ => .refl _
  · exact .refl _

/-! ### Flushes -/

theorem aside_removeFrame (d : Dev) (g : Seg) (x : DownFrame) : Aside d (d.removeFrame g x) :=
  ((touches_setDownq d g _).aside.trans (aside_freeTransit _ _)).trans (aside_selectAll _)

theorem aside_endHeldDeliver (d : Dev) (g : Seg) (n : Nat) : Aside d (d.endHeldDeliver g n) :=
  aside_modSched d g fun s => by
    split
    · split
      · exact ⟨rfl, rfl, rfl, id, .inr rfl⟩
      · exact .refl _
    · exact .refl _

theorem aside_flushOne (d : Dev) (g : Seg) (x : DownFrame) : Aside d (d.flushOne g x) :=
  ((aside_endHeldDeliver d g x.fid).trans (aside_removeFrame _ _ _)).trans (aside_count _ rfl)

theorem aside_flush (d : Dev) (g : Seg) (p : DownFrame → Bool) : Aside d (d.flush g p) :=
  (touches_setDownq d g _).aside.trans (Aside.fold (fun d x => aside_flushOne d g x) _ _)

theorem aside_flushStation (d : Dev) (g : Seg) (n : Nat) : Aside d (d.flushStation g n) :=
  (aside_flush _ _ _).trans (touches_endBackoff _ _ _).aside

theorem aside_flushForPrinter (d : Dev) (g : Seg) (n : Nat) : Aside d (d.flushForPrinter g n) :=
  (aside_flush _ _ _).trans (touches_endBackoff _ _ _).aside

theorem aside_flushQueue (d : Dev) (g : Seg) : Aside d (d.flushQueue g) :=
  (aside_flush _ _ _).trans (touches_setBackoffs _ g fun _ => []).aside

/-! ### Stations shut out -/

theorem aside_skipVisits (d : Dev) (g : Seg) (n : Nat) : Aside d (d.skipVisits g n) :=
  aside_modSched d g fun s => by
    split
    · rename_i vs running
      unfold Scheduler.withVisits
      split
      · rw [Scheduler.endCycle, running]
        exact ⟨rfl, rfl, rfl, fun no => by rw [running] at no; exact absurd no (by simp), .inl rfl⟩
      · exact ⟨rfl, rfl, rfl, fun no => by rw [running] at no; exact absurd no (by simp), .inl rfl⟩
    · exact .refl _

theorem aside_endHeldPoll (d : Dev) (g : Seg) (n : Nat) : Aside d (d.endHeldPoll g n) :=
  aside_modSched d g fun s => by
    split
    · split
      · exact ⟨rfl, rfl, rfl, id, .inr rfl⟩
      · exact .refl _
    · exact .refl _

theorem aside_shutOut (d : Dev) (e : Station) (st : StationState) (q : Option QuarantineCause) :
    Aside d (d.shutOut e st q) := by
  unfold Dev.shutOut
  extract_lets +onlyGivenNames d1 d2 d3 d4
  have h1 : Aside d d1 := (touches_modStation _ _ _).aside
  have h2 : Aside d1 d2 := aside_flushStation _ _ _
  have h3 : Aside d2 d3 := by
    simp only [d3]
    split
    · exact aside_makeLost _ _
    · exact .refl _
  have h4 : Aside d3 d4 := Aside.ite (fun _ => .refl _) fun _ => aside_failSource _ _ _
  exact ((((h1.trans h2).trans h3).trans h4).trans (aside_skipVisits _ _ _)).trans (aside_endHeldPoll _ _ _)

theorem aside_quarantineSuspect (d : Dev) (g : Seg) (n : Nat) : Aside d (d.quarantineSuspect g n) := by
  unfold Dev.quarantineSuspect
  split
  · exact Aside.ite (fun _ => .refl _) fun _ => (aside_shutOut _ _ _ _).trans (aside_raise _ _ _)
  · exact .refl _

end Sys2Proof.Machine
end

