-- ==== Sys2Proof/Proofs/LeavingService.lean ====
section
/-! The flush of a downstream queue, and a segment that leaves service. -/

namespace Sys2Proof.Machine

open Sys2Proof

-- one proof after another: proofs that wait for each other take a thread each
set_option Elab.async false

variable {d e : Dev} {g : Seg} {s : State}

/-! ### Flushes of a queue -/

/-- Taking the first entry of a name out of a list with one entry a name leaves the entries of other names. -/
theorem removeFirst_name {α : Type} {key : α → Nat} {l : List α} (nodup : (l.map key).Nodup) (n : Nat) :
    removeFirst (fun x => key x == n) l = l.filter fun x => !(key x == n) := by
  induction l with
  | nil => rfl
  | cons a l ih =>
    obtain ⟨apart, nodup⟩ := List.nodup_cons.mp nodup
    by_cases here : key a = n
    · rw [removeFirst, if_pos (beq_iff_eq.mpr here), List.filter_cons_of_neg (by simp [here])]
      refine (List.filter_eq_self.mpr fun b hb => ?_).symm
      have other : key b ≠ n := fun same => apart (here ▸ same ▸ List.mem_map_of_mem hb)
      simp [other]
    · rw [removeFirst, if_neg (by simp [here]), List.filter_cons_of_pos (by simp [here]), ih nodup]

theorem foldl_removeFirst_name {α : Type} {key : α → Nat} (gone : List α) : ∀ {l : List α}, (l.map key).Nodup →
    gone.foldl (fun l x => removeFirst (fun y => key y == key x) l) l =
      l.filter fun x => !(gone.any fun y => key x == key y) := by
  induction gone with
  | nil => exact fun _ => (List.filter_eq_self.mpr fun _ _ => rfl).symm
  | cons a gone ih =>
    intro l nodup
    have left : ((l.filter fun x => !(key x == key a)).map key).Nodup := nodup.sublist (List.filter_sublist.map _)
    rw [List.foldl_cons, removeFirst_name nodup, ih left, List.filter_filter]
    simp only [List.any_cons, Bool.not_or, Bool.and_comm]

theorem Dev.endHeldDeliver_seg_downq (d : Dev) (g h : Seg) (n : Nat) :
    ((d.endHeldDeliver g n).seg h).downq = (d.seg h).downq := (touches_endHeldDeliver d g n .downq (by decide) h).symm

theorem Dev.removeFrame_downq (d : Dev) (g : Seg) (f : DownFrame) : ((d.removeFrame g f).seg g).downq =
    removeFirst (fun x => x.fid == f.fid) (d.seg g).downq := by
  rw [Dev.removeFrame, ← touches_selectAll _ .downq (by decide) g, ← touches_freeTransit _ _ .downq (by decide) g,
    Dev.modSeg_seg]

/-- The queues of the other segments are as they were. -/
def OneQueue (g : Seg) (d e : Dev) : Prop := ∀ h, h ≠ g → (e.seg h).downq = (d.seg h).downq

theorem OneQueue.trans {c : Dev} (h : OneQueue g d e) (k : OneQueue g e c) : OneQueue g d c := fun x hx =>
  (k x hx).trans (h x hx)

theorem OneSeg.oneQueue (h : OneSeg g d e) : OneQueue g d e := fun x hx => congrArg Segment.downq (h x hx)

theorem Touches.oneQueue {l : List Piece} (t : Touches l d e) (apart : Piece.downq ∉ l := by decide) : OneQueue g d e :=
  fun x _ => (t .downq apart x).symm

theorem oneQueue_removeFrame (d : Dev) (g : Seg) (f : DownFrame) : OneQueue g d (d.removeFrame g f) :=
  (((oneSeg_modSeg d g _).oneQueue).trans (touches_freeTransit _ _).oneQueue).trans (touches_selectAll _).oneQueue

theorem oneQueue_flushOne (d : Dev) (g : Seg) (f : DownFrame) : OneQueue g d (d.flushOne g f) :=
  (((touches_endHeldDeliver _ _ _).oneQueue).trans (oneQueue_removeFrame _ _ _)).trans (touches_dropSeg _ _ _).oneQueue

theorem foldl_flushOne_downq (g : Seg) (gone : List DownFrame) : ∀ d : Dev,
    ((gone.foldl (fun d f => d.flushOne g f) d).seg g).downq =
      gone.foldl (fun l x => removeFirst (fun y => y.fid == x.fid) l) (d.seg g).downq ∧
    OneQueue g d (gone.foldl (fun d f => d.flushOne g f) d) := by
  induction gone with
  | nil => exact fun d => ⟨rfl, fun _ _ => rfl⟩
  | cons f gone ih =>
    intro d
    obtain ⟨queue, others⟩ := ih (d.flushOne g f)
    exact ⟨queue.trans (by rw [Dev.flushOne_downq]; rfl), (oneQueue_flushOne d g f).trans others⟩

/-- A frame that a flush has marked, where its DELIVER is in flight (R93). -/
def Segment.flushMarked (s : Segment) (p : DownFrame → Bool) (f : DownFrame) : DownFrame :=
  if p f && s.inFlight f then { f with flushMark := true } else f

theorem Segment.flushMarked_fid (s : Segment) (p : DownFrame → Bool) (f : DownFrame) : (s.flushMarked p f).fid = f.fid := by
  unfold Segment.flushMarked
  split <;> rfl

/-- A flush marks the frames in flight, and then takes out those that are not, one after another. -/
theorem Dev.flush_eq (d : Dev) (g : Seg) (p : DownFrame → Bool) : d.flush g p =
    ((d.seg g).downq.filter fun f => p f && !(d.seg g).inFlight f).foldl (fun d f => d.flushOne g f)
      (d.modSeg g fun s => { s with downq := s.downq.map (Segment.flushMarked (d.seg g) p) }) := rfl

/-- A flush leaves the frames that it does not reach, and marks those in flight (R93). -/
theorem Dev.mem_flush_downq (nodup : ((d.seg g).downq.map (·.fid)).Nodup) (p : DownFrame → Bool) (x : DownFrame) :
    x ∈ ((d.flush g p).seg g).downq ↔
      ∃ f ∈ (d.seg g).downq, (p f = true → (d.seg g).inFlight f = true) ∧ x = (d.seg g).flushMarked p f := by
  have names : ((d.seg g).downq.map ((d.seg g).flushMarked p)).map (·.fid) = (d.seg g).downq.map (·.fid) := by
    rw [List.map_map]
    exact List.map_congr_left fun f _ => Segment.flushMarked_fid _ _ _
  have stays : ∀ f ∈ (d.seg g).downq, (!((d.seg g).downq.filter fun f => p f && !(d.seg g).inFlight f).any fun y =>
      ((d.seg g).flushMarked p f).fid == y.fid) = true ↔ (p f = true → (d.seg g).inFlight f = true) := by
    intro f hf
    simp only [Segment.flushMarked_fid, Bool.not_eq_true', List.any_eq_false, List.mem_filter, Bool.and_eq_true,
      Bool.not_eq_true', beq_iff_eq]
    refine ⟨fun none reached => ?_, fun flies y hy same => ?_⟩
    · cases flight : (d.seg g).inFlight f with
      | false => exact absurd rfl (none f ⟨hf, reached, flight⟩)
      | true => rfl
    · have own : f = y := List.inj_on_of_nodup_map nodup hf hy.1 same
      subst own
      exact absurd (hy.2.2.symm.trans (flies hy.2.1)) Bool.false_ne_true
  rw [Dev.flush_eq, (foldl_flushOne_downq g _ _).1, Dev.modSeg_seg]
  dsimp only
  rw [foldl_removeFirst_name (key := fun x : DownFrame => x.fid) _ (names ▸ nodup), List.mem_filter, List.mem_map]
  constructor
  · rintro ⟨⟨f, hf, rfl⟩, left⟩
    exact ⟨f, hf, (stays f hf).mp left, rfl⟩
  · rintro ⟨f, hf, reached, rfl⟩
    exact ⟨⟨f, hf, rfl⟩, (stays f hf).mpr reached⟩

theorem oneQueue_flush (d : Dev) (g : Seg) (p : DownFrame → Bool) : OneQueue g d (d.flush g p) :=
  (oneSeg_modSeg d g fun s => { s with downq := s.downq.map (Segment.flushMarked (d.seg g) p) }).oneQueue.trans
    (foldl_flushOne_downq g _ _).2

/-- With no DELIVER in flight a flush of everything empties the queue. -/
theorem Dev.flushQueue_downq (nodup : ((d.seg g).downq.map (·.fid)).Nodup) (turn : (d.seg g).exchangeInFlight = false) :
    ((d.flushQueue g).seg g).downq = [] := by
  have none : ∀ f, (d.seg g).inFlight f = false := by
    intro f
    unfold Segment.exchangeInFlight at turn
    unfold Segment.inFlight
    split at turn <;> simp_all
  have queue : ((d.flushQueue g).seg g).downq = ((d.flush g fun _ => true).seg g).downq := by
    rw [Dev.flushQueue, Dev.modSeg_seg]
  rw [queue, List.eq_nil_iff_forall_not_mem]
  intro x hx
  obtain ⟨f, -, flies, -⟩ := (Dev.mem_flush_downq nodup _ x).mp hx
  exact absurd ((none f).symm.trans (flies rfl)) Bool.false_ne_true

theorem Dev.flushQueue_backoffs (d : Dev) (g : Seg) : ((d.flushQueue g).seg g).backoffs = [] := by
  rw [Dev.flushQueue, Dev.modSeg_seg]

theorem oneQueue_flushQueue (d : Dev) (g : Seg) : OneQueue g d (d.flushQueue g) :=
  (oneQueue_flush _ _ _).trans (oneSeg_modSeg _ g _).oneQueue

/-! ### Departures -/

theorem Scheduler.depart_facts (a : Scheduler) : a.depart.holds = [] ∧ a.depart.medium = none ∧ a.depart.cycle = .none := by
  have ended : (a.endCycle .none).cycle = .none := by
    unfold Scheduler.endCycle
    split <;> rfl
  exact ⟨rfl, rfl, ended⟩

/-- A turn that waits on carrier ends with the departure, and one without a turn gets none (R38). -/
theorem Segment.depart_turn {q : Segment} (flight : q.exchangeInFlight = false) : q.sched.depart.turn = none := by
  unfold Segment.exchangeInFlight at flight
  unfold Scheduler.depart
  dsimp only
  cases turn : q.sched.turn with
  | none => rfl
  | some t =>
    rw [turn] at flight
    obtain ⟨item, phase⟩ := t
    cases phase with
    | held => rfl
    | exchange x => exact absurd flight.symm Bool.false_ne_true
    | broadcast n => exact absurd flight.symm Bool.false_ne_true

/-- What a departure does to the Turn Scheduler, but for turns that end as an aside (R38). -/
theorem Dev.depart_sched (d : Dev) (g : Seg) : SchedAside (d.seg g).sched.depart ((d.depart g).seg g).sched := by
  have left := d.modSched_seg g Scheduler.depart
  have flushed := aside_flushQueue (d.modSched g Scheduler.depart) g
  have after : Aside ((d.modSched g Scheduler.depart).flushQueue g) (d.depart g) :=
    (((touches_modDisc _ g _).aside.trans (aside_losePrinters _ g)).trans (aside_failSegmentSources _ g)).trans
      (touches_probeDeparts _ g).aside
  have whole := (flushed.trans after).sched g
  rw [left] at whole
  exact whole

theorem Dev.depart_disc (d : Dev) (g : Seg) : ((d.depart g).seg g).disc =
    { ((d.seg g).disc) with pass := .idle, intervalTimer := none, run := none } := by
  have flushed := touches_flushQueue (d.modSched g Scheduler.depart) g
  rw [Dev.depart_eq, ← touches_probeDeparts _ _ .disc (by decide) g, Dev.departing,
    ← touches_failSegmentSources _ _ .disc (by decide) g, ← touches_losePrinters _ _ .disc (by decide) g,
    Dev.modDisc_seg, ← flushed .disc (by decide) g, Dev.modSched_seg]

/-- What a departure does after the flush of the queue leaves the queue and the backoffs. -/
theorem Dev.depart_queue (d : Dev) (g h : Seg) :
    ((d.depart g).seg h).downq = (((d.modSched g Scheduler.depart).flushQueue g).seg h).downq ∧
    ((d.depart g).seg h).backoffs = (((d.modSched g Scheduler.depart).flushQueue g).seg h).backoffs := by
  have after : Touches ([.endings, .disc, .probe] ++ Piece.spooling) ((d.modSched g Scheduler.depart).flushQueue g)
      (d.depart g) :=
    Touches.then (n := [.endings, .disc, .probe] ++ Piece.spooling)
      (Touches.then (n := [.endings, .disc, .probe] ++ Piece.spooling)
        (Touches.then (n := [.endings, .disc, .probe] ++ Piece.spooling) (touches_modDisc _ g _) (touches_losePrinters _ g))
        (touches_failSegmentSources _ g)) (touches_probeDeparts _ g)
  exact ⟨(after .downq (by decide) h).symm, (after .backoffs (by decide) h).symm⟩

/-- With no DELIVER in flight a departure leaves nothing on the queue (R119). -/
theorem Dev.depart_downq (nodup : ((d.seg g).downq.map (·.fid)).Nodup) (flight : (d.seg g).exchangeInFlight = false) :
    ((d.depart g).seg g).downq = [] := by
  have left := d.modSched_seg g Scheduler.depart
  rw [(d.depart_queue g g).1]
  refine Dev.flushQueue_downq (by rw [left]; exact nodup) ?_
  rw [left]
  unfold Segment.exchangeInFlight
  rw [Segment.depart_turn flight]

theorem Dev.depart_backoffs (d : Dev) (g : Seg) : ((d.depart g).seg g).backoffs = [] := by
  rw [(d.depart_queue g g).2, Dev.flushQueue_backoffs]

theorem oneQueue_depart (d : Dev) (g : Seg) : OneQueue g d (d.depart g) := fun h hh =>
  (d.depart_queue g h).1.trans (((oneSeg_modSched d g _).oneQueue.trans (oneQueue_flushQueue _ _)) h hh)

theorem Dev.departing_probe (d : Dev) (g h : Seg) : ((d.departing g).seg h).probe = (d.seg h).probe :=
  (touches_departing d g .probe (by decide) h).symm

theorem Dev.depart_probe_other (d : Dev) (g : Seg) {h : Seg} (other : h ≠ g) :
    ((d.depart g).seg h).probe = (d.seg h).probe := by
  have departs : OneSeg g (d.departing g) ((d.departing g).probeDeparts g) := by
    unfold Dev.probeDeparts
    split
    · exact oneSeg_beginProbe _ _ _
    · exact oneSeg_modProbe _ _ _
  rw [Dev.depart_eq, departs h other, Dev.departing_probe]

theorem Dev.depart_waitingReq (d : Dev) (g : Seg) :
    ((d.depart g).seg g).probe.waitingReq = (d.seg g).probe.waitingReq := by
  rw [Dev.depart_eq, ← Dev.departing_probe d g g]
  unfold Dev.probeDeparts
  split
  · rw [Dev.beginProbe_seg]
  · rw [Dev.modProbe_seg]

/-! ### SEG_ENABLE and SEG_DISABLE -/

/-- A segment that SEG_DISABLE takes DOWN, before its frames go (R126). -/
def Dev.takenDown (d : Dev) (g : Seg) : Dev :=
  ((((d.modSeg g fun s => { s with cfg := { s.cfg with enabled := false } }).dropTurn g).setSegState g .down).applyEndings).abortProbe
    g

theorem Dev.disableSegment_eq (d : Dev) (g : Seg) : d.disableSegment g =
    ((if d.inService g then (d.takenDown g).depart g else (d.takenDown g).flushQueue g).modMon g fun m =>
      { m with strain := 0, run := 0, attempts := 0, cooldownTimer := none, trialTimer := none }, .ok) := rfl

/-- Out of service, with no exchange in flight, the transmit enable falls with the pulse of a probe that is aborted. -/
theorem Dev.abortProbe_txEnable (out : (d.seg g).mon.state.mediumUsing = false) (flight : (d.seg g).exchangeInFlight = false)
    (pulse : (d.seg g).txEnable = (d.seg g).probePulse) : ((d.abortProbe g).seg g).txEnable = false := by
  rw [Dev.abortProbe_eq]
  dsimp only
  split
  · rename_i idle
    rw [Dev.modProbe_seg]
    dsimp only
    rw [pulse, Segment.probePulse, idle]
    rfl
  · rw [Dev.freeProbe_seg, Dev.toldProbe_seg, Dev.modProbe_seg]
    have ended : (d.seg g).endPulse.txEnable = false := by
      unfold Segment.endPulse
      dsimp only
      split
      · rw [out, flight]
        rfl
      · rename_i none
        rw [pulse]
        exact Bool.eq_false_iff.mpr none
    exact ended

/-- The segment of SEG_DISABLE is DOWN and its turn abandoned (R126). -/
def Dev.abandoned (d : Dev) (g : Seg) : Dev :=
  ((d.modSeg g fun s => { s with cfg := { s.cfg with enabled := false } }).dropTurn g).setSegState g .down

theorem oneSeg_abandoned (d : Dev) (g : Seg) : OneSeg g d (d.abandoned g) :=
  ((oneSeg_modSeg _ _ _).trans (oneSeg_modSched _ _ _)).trans (oneSeg_setSegState _ _ _)

theorem Dev.abandoned_seg (d : Dev) (g : Seg) : (d.abandoned g).seg g = { d.seg g with
    cfg := { (d.seg g).cfg with enabled := false }, mon := { (d.seg g).mon with state := .down }
    sched := { (d.seg g).sched with turn := none }, txEnable := (d.seg g).probePulse } := by
  rw [Dev.abandoned, Dev.setSegState_seg, Dev.dropTurn, Dev.modSched_seg, Dev.modSeg_seg, Segment.settleEnable]
  simp [Segment.exchangeInFlight, Segment.probePulse, SegState.mediumUsing]

/-- A segment taken DOWN has no turn, no transmit enable and no probe. -/
theorem Dev.takenDown_facts (d : Dev) (g : Seg) :
    ((d.takenDown g).seg g).cfg = { (d.seg g).cfg with enabled := false } ∧
    ((d.takenDown g).seg g).mon = { (d.seg g).mon with state := .down } ∧
    ((d.takenDown g).seg g).sched.turn = none ∧ ((d.takenDown g).seg g).txEnable = false ∧
    ((d.takenDown g).seg g).downq = (d.seg g).downq ∧
    ((d.takenDown g).seg g).probe.phase = .idle ∧ ((d.takenDown g).seg g).probe.waitingReq = none := by
  have down := d.abandoned_seg g
  have whole : d.takenDown g = (d.abandoned g).applyEndings.abortProbe g := rfl
  have ends := touches_applyEndings (d.abandoned g)
  have aborts := touches_aborting (d.abandoned g).applyEndings g
  have turn : ((d.abandoned g).applyEndings.seg g).sched.turn = none :=
    ((aside_applyEndings _).sched g).stays (by rw [down])
  have idle := (d.abandoned g).applyEndings.abortProbe_probe g
  have flight : ((d.abandoned g).applyEndings.seg g).exchangeInFlight = false := by
    rw [Segment.exchangeInFlight, turn]
  have mon := ends .mon (by decide) g
  have probe := ends .probe (by decide) g
  have enable := ends .txEnable (by decide) g
  have cfg := ends .cfg (by decide) g
  have downq := ends .downq (by decide) g
  rw [down] at mon probe enable cfg downq
  rw [whole]
  generalize (d.abandoned g).applyEndings = e at *
  refine ⟨(aborts .cfg (by decide) g).symm.trans cfg.symm, (aborts .mon (by decide) g).symm.trans mon.symm, ?_, ?_,
    (aborts .downq (by decide) g).symm.trans downq.symm, idle.1, idle.2⟩
  · rw [Dev.abortProbe_eq]
    dsimp only
    split
    · rw [Dev.modProbe_seg]
      exact turn
    · rw [Dev.freeProbe_seg, Dev.toldProbe_seg, Dev.modProbe_seg]
      dsimp only
      split
      · exact turn
      · exact turn
  · refine Dev.abortProbe_txEnable (by rw [← mon]; rfl) flight ?_
    rw [← enable, Segment.probePulse, Segment.probePulse, ← probe]

/-- SEG_DISABLE leaves the other segments in their states, with their probes and their queues. -/
theorem Dev.takenDown_others (d : Dev) (g : Seg) {h : Seg} (other : h ≠ g) :
    ((d.takenDown g).seg h).cfg = (d.seg h).cfg ∧ ((d.takenDown g).seg h).mon = (d.seg h).mon ∧
    ((d.takenDown g).seg h).probe = (d.seg h).probe ∧ ((d.takenDown g).seg h).downq = (d.seg h).downq := by
  have ends := touches_applyEndings (d.abandoned g)
  have aborts : (d.takenDown g).seg h = (d.abandoned g).applyEndings.seg h :=
    oneSeg_abortProbe (d.abandoned g).applyEndings g h other
  rw [aborts, ← oneSeg_abandoned d g h other]
  exact ⟨(ends .cfg (by decide) h).symm, (ends .mon (by decide) h).symm, (ends .probe (by decide) h).symm,
    (ends .downq (by decide) h).symm⟩

/-- What SEG_DISABLE hands on: a departure from service, or the flush of the queue (R126). -/
def Dev.handedOn (d : Dev) (g : Seg) (was : Bool) : Dev := if was then d.depart g else d.flushQueue g

theorem touches_handedOn (d : Dev) (g : Seg) (was : Bool) : Touches (.probe :: Piece.departing) d (d.handedOn g was) :=
  Touches.ite (fun _ => touches_departure _ _) fun _ => (touches_flushQueue _ _).mono

theorem Dev.handedOn_others (d : Dev) (g : Seg) (was : Bool) {h : Seg} (other : h ≠ g) :
    ((d.handedOn g was).seg h).probe = (d.seg h).probe ∧ ((d.handedOn g was).seg h).downq = (d.seg h).downq := by
  unfold Dev.handedOn
  split
  · exact ⟨d.depart_probe_other g other, oneQueue_depart d g h other⟩
  · exact ⟨(touches_flushQueue d g .probe (by decide) h).symm, oneQueue_flushQueue d g h other⟩

/-- Nothing of a segment is left on its queue or in its turn once a departure or a flush has been handed on. -/
theorem Dev.handedOn_empty (nodup : ((d.seg g).downq.map (·.fid)).Nodup) (turn : (d.seg g).sched.turn = none) (was : Bool) :
    ((d.handedOn g was).seg g).sched.turn = none ∧ ((d.handedOn g was).seg g).downq = [] ∧
    ((d.handedOn g was).seg g).backoffs = [] := by
  have flight : (d.seg g).exchangeInFlight = false := by rw [Segment.exchangeInFlight, turn]
  unfold Dev.handedOn
  split
  · exact ⟨(d.depart_sched g).stays (Segment.depart_turn flight), Dev.depart_downq nodup flight, d.depart_backoffs g⟩
  · exact ⟨((aside_flushQueue d g).sched g).stays turn, Dev.flushQueue_downq nodup flight, d.flushQueue_backoffs g⟩

theorem Dev.handedOn_probe (idle : (d.seg g).probe.phase = .idle) (unasked : (d.seg g).probe.waitingReq = none) (was : Bool) :
    ((d.handedOn g was).seg g).probe.phase = .idle ∧ ((d.handedOn g was).seg g).probe.waitingReq = none := by
  unfold Dev.handedOn
  split
  · exact ⟨Dev.depart_idle idle, (d.depart_waitingReq g).trans unasked⟩
  · rw [← touches_flushQueue d g .probe (by decide) g]
    exact ⟨idle, unasked⟩

/-- A departure handed on takes the holds, the cycle and the pass with it (R38, R119). -/
theorem Dev.handedOn_service (d : Dev) (g : Seg) : ((d.handedOn g true).seg g).sched.holds = [] ∧
    ((d.handedOn g true).seg g).sched.medium = none ∧ ((d.handedOn g true).seg g).sched.cycle = .none ∧
    ((d.handedOn g true).seg g).disc.pass = .idle ∧ ((d.handedOn g true).seg g).disc.intervalTimer = none ∧
    ((d.handedOn g true).seg g).disc.run = none := by
  obtain ⟨holds, medium, cycle⟩ := (d.seg g).sched.depart_facts
  have sched := d.depart_sched g
  have disc := d.depart_disc g
  exact ⟨sched.holds.trans holds, sched.medium.trans medium, sched.cycle cycle, congrArg Discovery.pass disc,
    congrArg Discovery.intervalTimer disc, congrArg Discovery.run disc⟩

/-- Settles O58: a DOWN segment starts with its START probe, and SEG_DISABLE leaves nothing of a segment in service. -/
theorem segmentsAreEnabledAndDisabled : Obligations.SegmentsAreEnabledAndDisabled := by
  intro b s g found
  refine ⟨fun down => ?_, fun up => ?_, fun nodup => ?_⟩
  · have ran : s.dev.enableSegment g =
        ((s.dev.modSeg g fun s => { s with cfg := { s.cfg with enabled := true } }).enterStarting g, .ok) := if_pos down
    have on := s.dev.modSeg_seg g fun s => { s with cfg := { s.cfg with enabled := true } }
    have set := touches_setCfg s.dev g fun s => { s.cfg with enabled := true }
    have apart := oneSeg_modSeg s.dev g fun s => { s with cfg := { s.cfg with enabled := true } }
    have clock : (s.dev.modSeg g fun s => { s with cfg := { s.cfg with enabled := true } }).clock = s.dev.clock := rfl
    refine ⟨_, answer_onSegment found ran, rfl, rfl, ?_⟩
    dsimp only
    generalize (s.dev.modSeg g fun s => { s with cfg := { s.cfg with enabled := true } }) = e at *
    refine ⟨?_, ?_, fun idle => ?_, fun busy => ?_, apart.trans (oneSeg_enterStarting e g), ?_⟩
    · exact (touches_enterStarting e g .cfg (by decide) g).symm.trans (by rw [on])
    · exact (Dev.enterStarting_mon e g).trans (by rw [on])
    · exact (Dev.enterStarting_idle (by rw [on]; exact idle)).trans (by rw [on, clock]; rfl)
    · exact (Dev.enterStarting_busy (by rw [on]; exact busy)).trans (by rw [on])
    · exact Touches.then (Touches.then (n := [.cfg, .mon, .txEnable, .probe]) set (touches_enterStarting e g))
        (touches_says _ _ _)
  · exact answer_onSegment found (if_neg up)
  · have ran : s.dev.disableSegment g = (((s.dev.takenDown g).handedOn g (s.dev.inService g)).modMon g fun m =>
        { m with strain := 0, run := 0, attempts := 0, cooldownTimer := none, trialTimer := none }, .ok) :=
      s.dev.disableSegment_eq g
    have framed := touches_disableSegment s.dev g
    rw [ran] at framed
    obtain ⟨cfg, mon, turn, enable, downq, idle, unasked⟩ := s.dev.takenDown_facts g
    have others := fun h (other : h ≠ g) => s.dev.takenDown_others g other
    have handed := touches_handedOn (s.dev.takenDown g) g (s.dev.inService g)
    have empty := Dev.handedOn_empty (downq ▸ nodup) turn (s.dev.inService g)
    have probe := Dev.handedOn_probe idle unasked (s.dev.inService g)
    have apart := fun h (other : h ≠ g) => (s.dev.takenDown g).handedOn_others g (s.dev.inService g) other
    have service : s.dev.inService g = true → _ := fun was => was ▸ (s.dev.takenDown g).handedOn_service g
    refine ⟨_, answer_onSegment found ran, rfl, rfl, ?_⟩
    dsimp only
    generalize (s.dev.takenDown g).handedOn g (s.dev.inService g) = e at *
    have reset := e.modMon_seg g fun m =>
      { m with strain := 0, run := 0, attempts := 0, cooldownTimer := none, trialTimer := none }
    have resets := touches_modMon e g fun m =>
      { m with strain := 0, run := 0, attempts := 0, cooldownTimer := none, trialTimer := none }
    have resetApart := oneSeg_modMon e g fun m =>
      { m with strain := 0, run := 0, attempts := 0, cooldownTimer := none, trialTimer := none }
    generalize (e.modMon g fun m => { m with strain := 0, run := 0, attempts := 0, cooldownTimer := none, trialTimer := none }) = c at *
    have same : (c.says 0x11#8 .ok).seg g = c.seg g := rfl
    rw [same, reset]
    refine ⟨(handed .cfg (by decide) g).symm.trans cfg, ?_, (handed .txEnable (by decide) g).symm.trans enable, empty.1,
      empty.2.1, empty.2.2, probe.1, probe.2, service, fun h other => ?_, Touches.then framed (touches_says _ _ _)⟩
    · dsimp only
      rw [← handed .mon (by decide) g, mon]
    · obtain ⟨cfg, mon, probe, downq⟩ := others h other
      have same : (c.says 0x11#8 .ok).seg h = e.seg h := resetApart h other
      rw [same]
      exact ⟨(handed .cfg (by decide) h).symm.trans cfg, (handed .mon (by decide) h).symm.trans mon,
        (apart h other).1.trans probe, (apart h other).2.trans downq⟩

end Sys2Proof.Machine
end

