-- ==== Sys2Proof/Proofs/LineTrouble.lean ====
section
/-! Charges and trips of a segment, activity outside exchanges, and the ends of broadcasts and backoffs. -/

namespace Sys2Proof.Machine

open Sys2Proof

-- one proof after another: proofs that wait for each other take a thread each
set_option Elab.async false

variable {d e : Dev} {g : Seg} {s : State}

/-! ### Trips -/

/-- A segment at the state that a trip takes it to, its attempt counted (R118). -/
def Dev.tripState (d : Dev) (g : Seg) : Dev :=
  let d := d.modMon g fun m => { m with attempts := sat255 m.attempts, trialTimer := none }
  if (d.seg g).cfg.allows (d.seg g).mon.attempts then d.enterCooling g else d.setSegState g .latched

/-- What a trip raises and counts (R118). -/
def Dev.tripTold (d : Dev) (g : Seg) (cools : Bool) : Dev :=
  let d := d.raise .segTrip (.segment g)
  (if cools then d else d.raise .segLatched (.segment g)).countSeg g .trips

theorem touches_tripTold (d : Dev) (g : Seg) (cools : Bool) : Touches Piece.counted d (d.tripTold g cools) :=
  Touches.then (n := Piece.counted) (Touches.then (n := Piece.raised) (touches_raise _ _ _)
    (Touches.ite (l := Piece.raised) (fun _ => .refl _ _) fun _ => touches_raise _ _ _)) (touches_countSeg _ _ _)

theorem aside_tripTold (d : Dev) (g : Seg) (cools : Bool) : Aside d (d.tripTold g cools) :=
  ((aside_raise _ _ _).trans (Aside.ite (fun _ => .refl _) fun _ => aside_raise _ _ _)).trans (aside_count _ rfl)

/-- Whether a segment's settings allow another try after one more trip (R118). -/
def Segment.cools (q : Segment) : Bool := q.cfg.allows (sat255 q.mon.attempts)

theorem Dev.tripState_cools (d : Dev) (g : Seg) :
    (((d.modMon g fun m => { m with attempts := sat255 m.attempts, trialTimer := none }).seg g).cfg.allows
      ((d.modMon g fun m => { m with attempts := sat255 m.attempts, trialTimer := none }).seg g).mon.attempts) =
    (d.seg g).cools := by
  rw [Dev.modMon_seg]
  rfl

theorem Dev.trip_eq (d : Dev) (g : Seg) (f : TripFrom) : d.trip g f =
    (((d.tripState g).tripTold g (d.seg g).cools).recordTrip g f (if (d.seg g).cools then .cooling else .latched)).depart
      g := by
  rw [← Dev.tripState_cools]
  rfl

/-- The segment goes to COOLING, with its cooldown running, or to LATCHED (R118, R120). -/
theorem Dev.tripState_seg (d : Dev) (g : Seg) : (d.tripState g).seg g = Segment.settleEnable { d.seg g with
    mon := { (d.seg g).mon with
      attempts := sat255 (d.seg g).mon.attempts, trialTimer := none
      state := if (d.seg g).cools then .cooling else .latched
      cooldownTimer := if (d.seg g).cools then some (d.clock + (d.seg g).cfg.cooldown * Config.sec)
        else (d.seg g).mon.cooldownTimer } } := by
  have cools := d.tripState_cools g
  unfold Dev.tripState
  dsimp only
  rw [cools]
  split
  · rw [Dev.enterCooling, Dev.modMon_seg, Dev.setSegState_seg, Dev.modMon_seg]
    rfl
  · rw [Dev.setSegState_seg, Dev.modMon_seg]

theorem aside_modMon (d : Dev) (g : Seg) (f : Monitor → Monitor) : Aside d (d.modMon g f) := (touches_modMon _ _ _).aside

theorem aside_tripState (d : Dev) (g : Seg) : Aside d (d.tripState g) := by
  unfold Dev.tripState
  dsimp only
  refine (aside_modMon d g fun m => { m with attempts := sat255 m.attempts, trialTimer := none }).trans ?_
  exact Aside.ite (fun _ => (touches_enterCooling _ _).aside) fun _ => (touches_setSegState _ _ _).aside

/-- A segment tripped, before its neighbours are told (R118). -/
def Dev.tripped (d : Dev) (g : Seg) (f : TripFrom) : Dev :=
  ((d.tripState g).tripTold g (d.seg g).cools).recordTrip g f (if (d.seg g).cools then .cooling else .latched)

theorem aside_tripped (d : Dev) (g : Seg) (f : TripFrom) : Aside d (d.tripped g f) :=
  ((aside_tripState d g).trans (aside_tripTold _ _ _)).trans (touches_recordTrip _ _ _ _).aside

/-- The isolation record after a trip (R118, R129): captured where it was empty, its trips counted where it stands. -/
def Dev.tripRecord (d : Dev) (g : Seg) (f : TripFrom) (w : WentTo) : IsolationRecord :=
  match (d.seg g).mon.record with
  | none => d.captureRecord g f w
  | some r => { r with tripsSince := sat255 r.tripsSince }

theorem Dev.recordTrip_seg (d : Dev) (g : Seg) (f : TripFrom) (w : WentTo) : (d.recordTrip g f w).seg g =
    { d.seg g with mon := { (d.seg g).mon with record := some (d.tripRecord g f w) } } := by
  unfold Dev.recordTrip Dev.tripRecord
  split <;> rename_i same <;> rw [Dev.modMon_seg] <;> simp only [same]

/-- The segment of a trip before its departure. -/
theorem Dev.tripped_seg (d : Dev) (g : Seg) (f : TripFrom) : ∃ t : Dev, t.uptime = d.uptime ∧
    t.seg g = (d.tripState g).seg g ∧ (d.tripped g f).seg g = { (d.tripState g).seg g with
      mon := { ((d.tripState g).seg g).mon with
        record := some (t.tripRecord g f (if (d.seg g).cools then .cooling else .latched)) } } := by
  have told : ((d.tripState g).tripTold g (d.seg g).cools).seg g = (d.tripState g).seg g :=
    (touches_tripTold _ _ _).seg_eq rfl g
  refine ⟨(d.tripState g).tripTold g (d.seg g).cools, ?_, told, ?_⟩
  · refine (touches_tripTold _ _ _ .uptime (by decide)).symm.trans ?_
    have : Touches [.mon, .txEnable] d (d.tripState g) := by
      unfold Dev.tripState
      exact Touches.then (touches_modMon d g fun m => { m with attempts := sat255 m.attempts, trialTimer := none })
        (Touches.ite (l := [.mon, .txEnable]) (fun _ => touches_enterCooling _ _) fun _ => touches_setSegState _ _ _)
    exact (this .uptime (by decide)).symm
  · rw [Dev.tripped, Dev.recordTrip_seg, told]

/-- What a trip leaves of its segment (R118, R119). -/
theorem Dev.trip_facts (d : Dev) (g : Seg) (f : TripFrom) :
    ((d.trip g f).seg g).mon = ((d.tripped g f).seg g).mon ∧
    ((d.trip g f).seg g).txEnable = ((d.tripped g f).seg g).txEnable := by
  have left := touches_departure (d.tripped g f) g
  rw [Dev.trip_eq]
  exact ⟨(left .mon (by decide) g).symm, (left .txEnable (by decide) g).symm⟩

theorem Dev.depart_counter {c : CounterId} (aside : c.incidental = false) (d : Dev) (g : Seg) :
    (d.depart g).ev.counter c = d.ev.counter c := by
  have after : Aside (d.modSched g Scheduler.depart) (d.depart g) :=
    ((((aside_flushQueue _ g).trans (touches_modDisc _ g _).aside).trans (aside_losePrinters _ g)).trans
      (aside_failSegmentSources _ g)).trans (touches_probeDeparts _ g).aside
  exact after.counter c aside

theorem Dev.trip_counter {c : CounterId} (aside : c.incidental = false) (f : TripFrom) :
    (d.trip g f).ev.counter c = d.ev.counter c := by
  have same : d.trip g f = (d.tripped g f).depart g := d.trip_eq g f
  rw [same, Dev.depart_counter aside]
  exact (aside_tripped d g f).counter c aside

/-! ### Charges -/

/-- The strain, its peak, the last cause and the recent failures of a Line Monitor. -/
def Monitor.memory (m : Monitor) : Nat × Nat × Option FailCause × List Failure := (m.strain, m.peak, m.lastCause, m.recent)

theorem Dev.trip_memory (d : Dev) (g : Seg) (f : TripFrom) : ((d.trip g f).seg g).mon.memory = (d.seg g).mon.memory := by
  obtain ⟨t, -, -, seg⟩ := d.tripped_seg g f
  rw [(d.trip_facts g f).1, seg, Dev.tripState_seg]
  rfl

theorem Dev.suspectAnalysis_memory (d : Dev) (g : Seg) :
    ((d.suspectAnalysis g).seg g).mon.memory = (d.seg g).mon.memory ∧
    ∀ c : CounterId, c.incidental = false → (d.suspectAnalysis g).ev.counter c = d.ev.counter c := by
  unfold Dev.suspectAnalysis
  split
  · exact ⟨rfl, fun _ _ => rfl⟩
  · split
    · exact ⟨rfl, fun _ _ => rfl⟩
    · split
      · exact ⟨rfl, fun _ _ => rfl⟩
      · rename_i n _ _ _ _ _
        refine ⟨?_, fun c aside => ?_⟩
        · rw [← touches_quarantineSuspect _ g n .mon (by decide) g, Dev.modMon_seg]
          rfl
        · exact (aside_quarantineSuspect (d.modMon g fun m => { m with run := 0 }) g n).counter c aside

theorem Dev.becomeStrained_memory (d : Dev) (g : Seg) :
    ((d.becomeStrained g).seg g).mon.memory = (d.seg g).mon.memory ∧
    ∀ c : CounterId, c.incidental = false → (d.becomeStrained g).ev.counter c = d.ev.counter c := by
  have warned := (d.setSegState g .strained).raise_seg .segWarn (.segment g) g
  have told := aside_raise (d.setSegState g .strained) .segWarn (.segment g)
  rw [Dev.setSegState_seg] at warned
  unfold Dev.becomeStrained
  dsimp only
  generalize (d.setSegState g .strained).raise .segWarn (.segment g) = e at *
  have withdrawn : Touches [.sched] e (if (e.seg g).disc.pass == .due then e.withdrawHold g .discovery else e) :=
    Touches.ite (fun _ => touches_withdrawHold _ _ _) fun _ => .refl _ _
  have events : (if (e.seg g).disc.pass == .due then e.withdrawHold g .discovery else e).ev = e.ev := by split <;> rfl
  obtain ⟨memory, counters⟩ := (if (e.seg g).disc.pass == .due then e.withdrawHold g .discovery else e).suspectAnalysis_memory g
  refine ⟨memory.trans ?_, fun c aside => (counters c aside).trans ?_⟩
  · rw [← withdrawn .mon (by decide) g, warned]
    rfl
  · rw [events]
    exact told.counter c aside

theorem Dev.becomeRelieved_memory (d : Dev) (g : Seg) :
    ((d.becomeRelieved g).seg g).mon.memory = (d.seg g).mon.memory ∧
    ∀ c : CounterId, c.incidental = false → (d.becomeRelieved g).ev.counter c = d.ev.counter c := by
  have relieved := (d.setSegState g .active).raise_seg .segRelieved (.segment g) g
  have told := aside_raise (d.setSegState g .active) .segRelieved (.segment g)
  rw [Dev.setSegState_seg] at relieved
  unfold Dev.becomeRelieved
  dsimp only
  generalize (d.setSegState g .active).raise .segRelieved (.segment g) = e at *
  have memory : (e.seg g).mon.memory = (d.seg g).mon.memory := by rw [relieved]; rfl
  split
  · refine ⟨?_, fun c aside => told.counter c aside⟩
    rw [Dev.askHold, Dev.modSched_seg]
    exact memory
  · exact ⟨memory, fun c aside => told.counter c aside⟩

/-- Whatever threshold is crossed, the strain and the failures stay as the charge or the drain has left them (R114). -/
theorem Dev.testThresholds_memory (d : Dev) (g : Seg) (drained : Bool) :
    ((d.testThresholds g drained).seg g).mon.memory = (d.seg g).mon.memory ∧
    ∀ c : CounterId, c.incidental = false → (d.testThresholds g drained).ev.counter c = d.ev.counter c := by
  have still : (d.seg g).mon.memory = (d.seg g).mon.memory ∧
      ∀ c : CounterId, c.incidental = false → d.ev.counter c = d.ev.counter c := ⟨rfl, fun _ _ => rfl⟩
  have trips := fun f => And.intro (d.trip_memory g f) fun c aside => Dev.trip_counter (d := d) (g := g) (c := c) aside f
  unfold Dev.testThresholds
  dsimp only
  split
  · split
    · exact trips _
    · split
      · exact d.becomeStrained_memory g
      · exact still
  · split
    · exact trips _
    · split
      · exact d.becomeRelieved_memory g
      · exact still
  · split
    · exact trips _
    · exact still
  all_goals exact still

/-! ### Activity outside exchanges -/

theorem Dev.startDelimiter_of {item : TurnItem} {x : Exchange} (turn : (d.seg g).sched.turn = some ⟨item, .exchange x⟩)
    (service : d.inService g = true) (sent : x.sentAt ≤ d.clock) (early : d.clock ≤ x.deadline) : d.startDelimiter g =
    d.modSched g fun s => { s with turn := some ⟨item, .exchange { x with delimiter := true }⟩ } := by
  have exchange : d.exchange g = some (item, x) := by rw [Dev.exchange, turn]
  have awaits : x.awaits d.clock = true := by simp [Exchange.awaits, sent, early]
  rw [Dev.startDelimiter, exchange]
  dsimp only
  rw [service, awaits]
  rfl

/-- The charge of a failure to station 0 (R13, R112). -/
theorem Dev.report_failed (service : d.inService g = true) (c : FailCause) (n : Nat) :
    d.report g (.failed c) n false = d.charge g c n := by
  rw [Dev.report, service]
  rfl

/-- An unattributed JABBER is counted and charged to station 0 (R13). -/
theorem Dev.unattributedJabber_of (service : d.inService g = true) (window : (d.seg g).windowOpen = false)
    (opened : (d.seg g).receiverClosed d.clock = false) (flight : (d.seg g).exchangeInFlight = false) :
    d.unattributedJabber g = (d.countSeg g (.failure .jabber)).charge g .jabber 0 := by
  have counted : (d.countSeg g (.failure .jabber)).inService g = true := by rw [Dev.inService, Dev.countSeg_seg]; exact service
  exact (if_pos (by simp [service, window, opened, flight])).trans (Dev.report_failed counted .jabber 0)

/-- An unattributed JABBER does nothing out of service or with the receiver closed. -/
theorem Dev.unattributedJabber_off (off : d.inService g = false ∨ (d.seg g).receiverClosed d.clock = true) :
    d.unattributedJabber g = d := if_neg (by obtain off | off := off <;> simp [off])

theorem Dev.noise_off (off : d.inService g = false ∨ (d.seg g).receiverClosed d.clock = true) :
    d.noise g = d := if_neg (by obtain off | off := off <;> simp [off])

/-- The strain that a charge leaves (R112). -/
def Segment.strainAfter (q : Segment) (c : FailCause) : Nat :=
  min (q.mon.strain + q.cfg.weight c * min (min (q.mon.run + 1) 255) 8) 4095

/-- What a charge leaves of the strain, the cause and the failures, and that it counts nothing but incidentally. -/
theorem Dev.charge_memory (d : Dev) (g : Seg) (c : FailCause) (n : Nat) :
    ((d.charge g c n).seg g).mon.memory = ((d.seg g).strainAfter c, max (d.seg g).mon.peak ((d.seg g).strainAfter c),
      some c, addFailure (d.seg g).mon.recent ⟨n, c, d.uptime⟩) ∧
    ∀ x : CounterId, x.incidental = false → (d.charge g c n).ev.counter x = d.ev.counter x := by
  obtain ⟨memory, counters⟩ :=
    (d.modMon g fun m => m.charged (d.seg g).cfg c n d.uptime).testThresholds_memory g false
  refine ⟨memory.trans ?_, counters⟩
  rw [Dev.modMon_seg]
  rfl

theorem touches_unattributedJabber (d : Dev) (g : Seg) : Touches Piece.monitoring d (d.unattributedJabber g) :=
  Touches.ite (fun _ => Touches.then (touches_countSeg _ _ _) (touches_report _ _ _ _ _)) fun _ => .refl _ _

/-- Settles O24: a start delimiter marks its reply, and noise and jabber are taken by an open receiver in service. -/
theorem lineActivityIsTaken : Obligations.LineActivityIsTaken := by
  refine ⟨fun g dt s item x turn service sent early => ⟨_, rfl, rfl, ?_⟩, fun g dt s => ?_⟩ <;> dsimp only
  · rw [Dev.startDelimiter_of (d := s.dev.elapse dt) turn service sent early]
    exact ⟨Dev.modSched_seg _ _ _, oneSeg_modSched _ _ _, Touches.then (touches_elapse _ _) (touches_modSched _ _ _)⟩
  · refine ⟨fun service window opened reply => ?_, fun service window opened flight => ⟨_, rfl, rfl, ?_⟩, fun off => ?_⟩
    · have noise : (s.dev.elapse dt).noise g = (s.dev.elapse dt).countSeg g .noise :=
        if_pos (by simp [Dev.inService] at service; simp [Dev.inService, service, window, opened, reply])
      exact congrArg (fun d => Host.Outcome.next { s with dev := d }) noise
    · have taken := Dev.unattributedJabber_of (d := s.dev.elapse dt) service window opened flight
      have framed := Touches.then (n := .clock :: Piece.monitoring) (touches_elapse s.dev dt)
        (touches_unattributedJabber (s.dev.elapse dt) g)
      obtain ⟨memory, counters⟩ := ((s.dev.elapse dt).countSeg g (.failure .jabber)).charge_memory g .jabber 0
      have now : ((s.dev.elapse dt).countSeg g (.failure .jabber)).uptime = s.dev.uptime :=
        (touches_countSeg (s.dev.elapse dt) g (.failure .jabber) .uptime (by decide)).symm
      have same : ((s.dev.elapse dt).countSeg g (.failure .jabber)).seg g = s.dev.seg g := Dev.countSeg_seg _ _ _ _
      rw [taken] at framed ⊢
      rw [same, now] at memory
      injection memory with strain rest
      injection rest with peak rest
      injection rest with cause recent
      refine ⟨strain, cause, recent, peak, fun ok => ?_, framed⟩
      have sound : CountersOk (s.dev.elapse dt) := ok
      rw [counters _ rfl, Dev.countSeg, Dev.count_counter sound (not_ofNotice_seg g _), Counter.bump_value]
      rfl
    · have still := Dev.noise_off (d := s.dev.elapse dt) (g := g) off
      have quiet := Dev.unattributedJabber_off (d := s.dev.elapse dt) (g := g) off
      have onward : ∀ {d e : Dev}, d = e → (Host.Outcome.next { s with dev := d } : Host.Outcome State Fault Refusal) =
        .next { s with dev := e } := fun same => congrArg (fun d => Host.Outcome.next { s with dev := d }) same
      exact ⟨onward still, onward quiet⟩

/-! ### The trip of an unattributed JABBER -/

theorem Dev.charge_trips {c : FailCause} (active : (d.seg g).mon.state = .active)
    (reached : (d.seg g).cfg.trip ≤ (d.seg g).strainAfter c) (n : Nat) :
    d.charge g c n = (d.modMon g fun m => m.charged (d.seg g).cfg c n d.uptime).trip g .active := by
  have charged := d.modMon_seg g fun m => m.charged (d.seg g).cfg c n d.uptime
  unfold Dev.charge Dev.testThresholds
  dsimp only
  rw [charged]
  dsimp only
  rw [show ((d.seg g).mon.charged (d.seg g).cfg c n d.uptime).state = .active from active]
  exact if_pos reached

theorem SegSettings.allows_iff (c : SegSettings) (n : Nat) : c.allows n = true ↔ c.retryLimit = 15 ∨ n ≤ c.retryLimit := by
  simp [SegSettings.allows]

/-- A trip leaves nothing of its segment in service (R118, R119). -/
theorem Dev.trip_empties (f : TripFrom) (flight : (d.seg g).exchangeInFlight = false)
    (pulse : (d.seg g).probePulse = false) (nodup : ((d.seg g).downq.map (·.fid)).Nodup) :
    ((d.trip g f).seg g).txEnable = false ∧ ((d.trip g f).seg g).downq = [] ∧ ((d.trip g f).seg g).backoffs = [] ∧
    ((d.trip g f).seg g).sched.holds = [] ∧ ((d.trip g f).seg g).sched.medium = none ∧
    ((d.trip g f).seg g).sched.turn = none ∧ ((d.trip g f).seg g).sched.cycle = .none ∧
    ((d.trip g f).seg g).disc.pass = .idle ∧ ((d.trip g f).seg g).disc.intervalTimer = none := by
  obtain ⟨t, -, -, seg⟩ := d.tripped_seg g f
  have enable := (d.trip_facts g f).2
  have same : d.trip g f = (d.tripped g f).depart g := d.trip_eq g f
  have sched := (d.tripped g f).depart_sched g
  have disc := (d.tripped g f).depart_disc g
  rw [Dev.tripState_seg] at seg
  have flies : ((d.tripped g f).seg g).exchangeInFlight = false := by rw [seg]; exact flight
  have queue : ((d.tripped g f).seg g).downq = (d.seg g).downq := by rw [seg]; rfl
  have off : ((d.tripped g f).seg g).txEnable = false := by
    have out : SegState.mediumUsing (if (d.seg g).cools then .cooling else .latched) = false := by split <;> rfl
    have settled := flight
    have still := pulse
    unfold Segment.exchangeInFlight at settled
    unfold Segment.probePulse at still
    rw [seg]
    simp [Segment.settleEnable, out, Segment.probePulse, Segment.exchangeInFlight, still, settled]
  have service := (d.tripped g f).handedOn_service g
  have handed : (d.tripped g f).handedOn g true = (d.tripped g f).depart g := rfl
  rw [handed] at service
  obtain ⟨holds, medium, cycle, pass, interval, -⟩ := service
  rw [off] at enable
  rw [same] at enable ⊢
  exact ⟨enable, Dev.depart_downq (by rw [queue]; exact nodup) flies, Dev.depart_backoffs _ _, holds, medium,
    sched.stays (Segment.depart_turn flies), cycle, pass, interval⟩

/-- Where a trip takes its segment, and what it writes of the trip (R118, R120, R129). -/
theorem Dev.trip_monitor (d : Dev) (g : Seg) (f : TripFrom) : ∃ t : Dev,
    t.seg g = (d.tripState g).seg g ∧ ((d.trip g f).seg g).mon = { ((d.tripState g).seg g).mon with
      record := some (t.tripRecord g f (if (d.seg g).cools then .cooling else .latched)) } := by
  obtain ⟨t, -, same, seg⟩ := d.tripped_seg g f
  exact ⟨t, same, by rw [(d.trip_facts g f).1, seg]⟩

/-- Settles O39: a segment carried to its trip threshold leaves service with its trip recorded. -/
theorem tripTakesTheSegmentOut : Obligations.TripTakesTheSegmentOut := by
  intro g dt s q attempts cools active window opened flight reached _ nodup
  refine ⟨_, rfl, rfl, ?_⟩
  dsimp only
  have service : (s.dev.elapse dt).inService g = true := by
    have state : ((s.dev.elapse dt).seg g).mon.state = .active := active
    rw [Dev.inService, state]
    rfl
  have framed := Touches.then (n := .clock :: Piece.monitoring) (touches_elapse s.dev dt)
    (touches_unattributedJabber (s.dev.elapse dt) g)
  have taken := Dev.unattributedJabber_of (d := s.dev.elapse dt) service window opened flight
  have same : ((s.dev.elapse dt).countSeg g (.failure .jabber)).seg g = q := Dev.countSeg_seg _ _ _ _
  have now : ((s.dev.elapse dt).countSeg g (.failure .jabber)).clock = s.dev.clock + dt :=
    (touches_countSeg (s.dev.elapse dt) g (.failure .jabber) .clock (by decide)).symm
  rw [taken] at framed ⊢
  generalize (s.dev.elapse dt).countSeg g (.failure .jabber) = d at *
  have trips := Dev.charge_trips (d := d) (g := g) (c := .jabber) (by rw [same]; exact active) (by rw [same]; exact reached) 0
  have charged := d.modMon_seg g fun m => m.charged (d.seg g).cfg .jabber 0 d.uptime
  have clock : (d.modMon g fun m => m.charged (d.seg g).cfg .jabber 0 d.uptime).clock = d.clock := rfl
  rw [same] at charged
  rw [trips] at framed ⊢
  rw [same] at framed ⊢
  rw [same] at clock
  generalize (d.modMon g fun m => m.charged q.cfg .jabber 0 d.uptime) = e at *
  have pulse : (e.seg g).probePulse = false := by
    have cut : q.probe.capturing = false := (Bool.or_eq_false_iff.mp opened).2
    rw [charged]
    simp [Segment.probePulse, cut]
  have tried : (e.seg g).cools = true ↔ cools := by
    rw [charged]
    exact SegSettings.allows_iff _ _
  have first : (e.seg g).mon.attempts = q.mon.attempts := by rw [charged]; rfl
  have cause : (e.seg g).mon.lastCause = some .jabber := by rw [charged]; rfl
  have record : (e.seg g).mon.record = q.mon.record := by rw [charged]; rfl
  obtain ⟨enable, rest⟩ := e.trip_empties .active (by rw [charged]; exact flight) pulse (by rw [charged]; exact nodup)
  obtain ⟨t, left, monitor⟩ := e.trip_monitor g .active
  have tripped := e.tripState_seg g
  rw [tripped] at left monitor
  rw [monitor]
  refine ⟨fun can => ?_, fun cannot => ?_, ?_, enable, rest.1, rest.2.1, rest.2.2.1, rest.2.2.2.1, rest.2.2.2.2.1,
    rest.2.2.2.2.2.1, rest.2.2.2.2.2.2.1, rest.2.2.2.2.2.2.2, fun empty => ?_, fun r held => ?_, framed⟩
  · have yes : (e.seg g).cools = true := tried.mpr can
    have cooldown : (e.seg g).cfg.cooldown = q.cfg.cooldown := by rw [charged]
    simp [Segment.settleEnable, yes, cooldown, clock, now]
  · have no : (e.seg g).cools = false := Bool.eq_false_iff.mpr fun yes => cannot (tried.mp yes)
    simp [Segment.settleEnable, no]
  · simp [Segment.settleEnable, first, sat255, attempts]
  · have clear : (t.seg g).mon.record = none := by rw [left]; exact record.trans empty
    simp only [Dev.tripRecord, clear]
    refine ⟨_, rfl, rfl, ?_, ?_, rfl⟩
    · simp only [Dev.captureRecord, left, Segment.settleEnable]
      exact cause
    · simp only [Dev.captureRecord, left, Segment.settleEnable, first]
      rfl
  · have kept : (t.seg g).mon.record = some r := by rw [left]; exact record.trans held
    simp only [Dev.tripRecord, kept]
    rfl

/-! ### Broadcasts and backoffs -/

/-- The end of a broadcast's frame (R21, R30). -/
def Dev.broadcastGone (d : Dev) (g : Seg) (f : DownFrame) : Dev :=
  if f.flushMark then (d.removeFrame g f).dropSeg g .flushed else (d.removeFrame g f).countSeg g .framesOut

theorem Dev.broadcastSent_of {fid due : Nat} {f : DownFrame} (turn : (d.seg g).sched.turn = some ⟨.deliver fid, .broadcast due⟩)
    (frame : d.frame g fid = some f) :
    d.broadcastSent g = (((d.reach due).dropTurn g).broadcastGone g f).modSeg g Segment.settleEnable := by
  have there : ((d.reach due).dropTurn g).frame g fid = some f := by
    rw [Dev.frame, Dev.dropTurn, Dev.modSched_seg]
    exact frame
  rw [Dev.broadcastSent, turn]
  dsimp only
  rw [there]
  rfl

theorem touches_broadcastGone (d : Dev) (g : Seg) (f : DownFrame) : Touches Piece.flushing d (d.broadcastGone g f) :=
  Touches.ite (fun _ => Touches.then (touches_removeFrame _ _ _) (touches_dropSeg _ _ _)) fun _ =>
    Touches.then (touches_removeFrame _ _ _) (touches_countSeg _ _ _)

theorem Dev.removeFrame_pool (d : Dev) (g : Seg) (f : DownFrame) :
    (d.removeFrame g f).pool.free = d.pool.free + f.blocks.length := by
  rw [Dev.removeFrame, ← touches_selectAll _ .pool (by decide), Dev.freeTransit_pool]
  rfl

/-- The frame leaves its queue and its blocks are freed, and no other queue moves (R21, R83). -/
theorem Dev.broadcastGone_facts (d : Dev) (g : Seg) (f : DownFrame) :
    ((d.broadcastGone g f).seg g).downq = removeFirst (fun x => x.fid == f.fid) (d.seg g).downq ∧
    (d.broadcastGone g f).pool.free = d.pool.free + f.blocks.length ∧ OneQueue g d (d.broadcastGone g f) ∧
    ((d.seg g).sched.turn = none → ((d.broadcastGone g f).seg g).sched.turn = none) := by
  unfold Dev.broadcastGone
  split
  · rw [← d.removeFrame_downq g f, ← d.removeFrame_pool g f]
    exact ⟨(touches_dropSeg _ _ _ .downq (by decide) g).symm, congrArg Pool.free (touches_dropSeg _ _ _ .pool (by decide)).symm,
      (oneQueue_removeFrame _ _ _).trans (touches_dropSeg _ _ _).oneQueue,
      (((aside_removeFrame _ _ _).trans (aside_count _ rfl)).sched g).stays⟩
  · rw [← d.removeFrame_downq g f, ← d.removeFrame_pool g f]
    refine ⟨(touches_countSeg _ _ _ .downq (by decide) g).symm, congrArg Pool.free (touches_countSeg _ _ _ .pool (by decide)).symm,
      (oneQueue_removeFrame _ _ _).trans (touches_countSeg _ _ _).oneQueue, fun free => ?_⟩
    rw [Dev.countSeg_seg]
    exact ((aside_removeFrame d g f).sched g).stays free

theorem Dev.backoffEnd_of {n : Nat} {b : Backoff} (found : (d.seg g).backoffs.find? (fun b => b.number == n) = some b) :
    d.backoffEnd g n = (d.reach b.ends).endBackoff g n := by
  rw [Dev.backoffEnd, found]

/-- Settles O30: a broadcast's frame leaves with its end, and a backoff leaves its segment's list. -/
theorem broadcastsAndBackoffsEnd : Obligations.BroadcastsAndBackoffsEnd := by
  refine ⟨fun g s fid due f turn frame => ⟨_, rfl, rfl, ?_⟩, fun g n s b found => ⟨_, rfl, rfl, ?_⟩⟩ <;> dsimp only
  · have dropped := (s.dev.reach due).modSched_seg g fun a => { a with turn := none }
    have named : f.fid = fid := by simpa using List.find?_some frame
    obtain ⟨queue, pool, apart, stays⟩ := ((s.dev.reach due).dropTurn g).broadcastGone_facts g f
    have begun : Touches [.clock, .sched] s.dev ((s.dev.reach due).dropTurn g) :=
      Touches.then (touches_reach _ _) (touches_modSched _ _ _)
    have gone := touches_broadcastGone ((s.dev.reach due).dropTurn g) g f
    have now : ((s.dev.reach due).dropTurn g).clock = max s.dev.clock due := rfl
    have free : ((s.dev.reach due).dropTurn g).pool = s.dev.pool := rfl
    have others : OneSeg g s.dev ((s.dev.reach due).dropTurn g) := oneSeg_modSched _ _ _
    have ended : (((s.dev.reach due).dropTurn g).seg g) = { s.dev.seg g with sched := { (s.dev.seg g).sched with turn := none } } :=
      dropped
    rw [Dev.broadcastSent_of turn frame]
    generalize (s.dev.reach due).dropTurn g = d at *
    have settled := (d.broadcastGone g f).modSeg_seg g Segment.settleEnable
    have last := touches_settle (d.broadcastGone g f) g
    rw [named, ended] at queue
    rw [free] at pool
    refine ⟨(gone .clock (by decide)).symm.trans now, ?_, ?_, pool, fun h hh => ?_,
      Touches.then (Touches.then (n := [.clock, .txEnable] ++ Piece.flushing) begun gone) last⟩
    · rw [settled]
      exact stays (by rw [ended])
    · rw [settled]
      exact queue
    · have whole := (apart.trans last.oneQueue) h hh
      rw [whole, others h hh]
  · have ended := (s.dev.reach b.ends).modSeg_seg g fun s => { s with backoffs := s.backoffs.filter fun b => b.number != n }
    rw [Dev.backoffEnd_of found, Dev.endBackoff, ended]
    refine ⟨rfl, fun q => ?_, oneSeg_modSeg _ _ _, Touches.then (touches_reach _ _) (touches_endBackoff _ _ _)⟩
    have same : (s.dev.reach b.ends).seg g = s.dev.seg g := rfl
    simp [same]

end Sys2Proof.Machine
end

