-- ==== Sys2Proof/Proofs/Directory.lean ====
section
/-! The entries that a lookup finds after a change of the station table, and the commands that shut stations out,
release them and let entries and idle numbers go (R46 to R48, R58, R77). -/

namespace Sys2Proof.Machine

open Sys2Proof

-- one proof after another: proofs that wait for each other take a thread each
set_option Elab.async false

variable {d e : Dev} {g : Seg} {s : State}

/-! ### Lookups in lists changed at one place -/

section Lists

variable {α : Type} {p q : α → Bool} {f : α → α} {a : α} {l : List α}

theorem find?_modifyFirst_apart (apart : ∀ a ∈ l, p a = true → q a = false ∧ q (f a) = false) :
    (modifyFirst p f l).find? q = l.find? q := by
  induction l with
  | nil => rfl
  | cons b l ih =>
    have rest := ih fun a ha => apart a (List.mem_cons_of_mem _ ha)
    cases hb : p b
    · simp only [modifyFirst, hb, Bool.false_eq_true, if_false, List.find?_cons, rest]
    · obtain ⟨before, after⟩ := apart b List.mem_cons_self hb
      simp only [modifyFirst, hb, if_true, List.find?_cons, before, after]

/-- A change that reaches the entry found is found. -/
theorem find?_modifyFirst_at (found : l.find? q = some a) (here : l.find? p = some a) (still : q (f a) = true) :
    (modifyFirst p f l).find? q = some (f a) := by
  induction l with
  | nil => exact absurd found (by simp)
  | cons b l ih =>
    cases pb : p b
    · rw [List.find?_cons_of_neg (by simp [pb])] at here
      have qb : q b = false := Bool.eq_false_iff.mpr fun yes => by
        rw [List.find?_cons_of_pos yes] at found
        obtain rfl := Option.some.inj found
        exact absurd (List.find?_some here) (by simp [pb])
      rw [List.find?_cons_of_neg (by simp [qb])] at found
      simp only [modifyFirst, pb, Bool.false_eq_true, if_false, List.find?_cons, qb]
      exact ih found here
    · rw [List.find?_cons_of_pos pb] at here
      obtain rfl := Option.some.inj here
      simp only [modifyFirst, pb, if_true, List.find?_cons, still]

/-- A change that makes an entry one to be found, where there was none, is found. -/
theorem find?_modifyFirst_new (empty : l.find? q = none) (here : l.find? p = some a) (now : q (f a) = true) :
    (modifyFirst p f l).find? q = some (f a) := by
  induction l with
  | nil => exact absurd here (by simp)
  | cons b l ih =>
    have qb : ¬ q b = true := List.find?_eq_none.mp empty b List.mem_cons_self
    have rest : l.find? q = none := by rwa [List.find?_cons_of_neg qb] at empty
    cases pb : p b
    · rw [List.find?_cons_of_neg (by simp [pb])] at here
      rw [modifyFirst, if_neg (by simp [pb]), List.find?_cons_of_neg qb]
      exact ih rest here
    · rw [List.find?_cons_of_pos pb] at here
      obtain rfl := Option.some.inj here
      rw [modifyFirst, if_pos pb, List.find?_cons_of_pos now]

theorem find?_removeFirst_apart (apart : ∀ a ∈ l, p a = true → q a = false) :
    (removeFirst p l).find? q = l.find? q := by
  induction l with
  | nil => rfl
  | cons b l ih =>
    cases hb : p b
    · simp only [removeFirst, hb, Bool.false_eq_true, if_false, List.find?_cons,
        ih fun a ha => apart a (List.mem_cons_of_mem _ ha)]
    · simp only [removeFirst, hb, if_true, List.find?_cons, apart b List.mem_cons_self hb]

end Lists

/-! ### Stations by place and by name -/

theorem Dev.station_some {n : Nat} {e : Station} (found : d.station g n = some e) :
    e ∈ d.stations ∧ e.seg = g ∧ e.number = n := by
  have here := List.find?_some found
  simp only [Bool.and_eq_true, beq_iff_eq] at here
  exact ⟨List.mem_of_find?_eq_some found, here⟩

theorem StationsOk.eids (ok : StationsOk d) : (d.stations.map (·.eid)).Nodup := ok.2.2.1

theorem StationsOk.places (ok : StationsOk d) : (d.stations.map Station.place).Nodup := ascending_nodup ok.1

/-- A changed entry is found at its place, and every other place is as it was. -/
theorem Dev.modStation_station {n : Nat} {e : Station} {f : Station → Station} (eids : (d.stations.map (·.eid)).Nodup)
    (found : d.station g n = some e) (place : ∀ x : Station, (f x).seg = x.seg ∧ (f x).number = x.number) :
    (d.modStation e.eid f).station g n = some (f e) ∧
    ∀ h m, (h, m) ≠ (g, n) → (d.modStation e.eid f).station h m = d.station h m := by
  obtain ⟨member, seg, number⟩ := Dev.station_some found
  have only : ∀ b ∈ d.stations, (b.eid == e.eid) = true ↔ b = e := fun b hb =>
    ⟨fun same => List.inj_on_of_nodup_map eids hb member (by simpa using same), fun same => by simp [same]⟩
  refine ⟨find?_modifyFirst_at found (find?_key Station.eid eids member) ?_, fun h m other => find?_modifyFirst_apart fun b hb here => ?_⟩
  · simp [(place e).1, (place e).2, seg, number]
  · obtain rfl := (only b hb).mp here
    have apart : (b.seg == h && b.number == m) = false := by
      rw [seg, number, Bool.eq_false_iff]
      simp only [ne_eq, Bool.and_eq_true, beq_iff_eq]
      rintro ⟨rfl, rfl⟩
      exact other rfl
    exact ⟨apart, by rw [(place b).1, (place b).2]; exact apart⟩

/-- A removed entry's place is empty, and every other place is as it was. -/
theorem StationsOk.station_removed (ok : StationsOk d) {n : Nat} {e : Station} (found : d.station g n = some e)
    (gone : e'.stations = removeFirst (fun x => x.eid == e.eid) d.stations) :
    Dev.station e' g n = none ∧ ∀ h m, (h, m) ≠ (g, n) → Dev.station e' h m = d.station h m := by
  obtain ⟨member, seg, number⟩ := Dev.station_some found
  have only : ∀ b ∈ d.stations, (b.eid == e.eid) = true → b = e := fun b hb same =>
    List.inj_on_of_nodup_map ok.eids hb member (by simpa using same)
  unfold Dev.station
  rw [gone]
  refine ⟨List.find?_eq_none.mpr fun b hb here => ?_, fun h m other => find?_removeFirst_apart fun b hb same => ?_⟩
  · simp only [Bool.and_eq_true, beq_iff_eq] at here
    have same : b = e := List.inj_on_of_nodup_map ok.places (mem_of_mem_removeFirst hb) member
      (Prod.ext (here.1.trans seg.symm) (here.2.trans number.symm))
    exact key_ne_of_mem_removeFirst Station.eid ok.eids hb (congrArg Station.eid same)
  · obtain rfl := only b hb same
    rw [seg, number, Bool.eq_false_iff]
    simp only [ne_eq, Bool.and_eq_true, beq_iff_eq]
    rintro ⟨rfl, rfl⟩
    exact other rfl

/-! ### Entries that leave -/

theorem Dev.forgetAt_stays {n : Nat} (stays : ∀ e, d.station g n = some e → d.forgetPast e = false) : d.forgetAt g n = d := by
  unfold Dev.forgetAt
  split
  · rename_i e found
    rw [stays e found]
    rfl
  · rfl

theorem Dev.forgetPast_iff (d : Dev) (e : Station) : d.forgetPast e = true ↔
    e.origin = .discovered ∧ e.role = .terminal ∧ e.state = .absent ∧ d.printerAt e.seg e.number = none ∧
      ∃ since, e.absentSince = some since ∧ d.set.absentForget < d.uptime - since := by
  unfold Dev.forgetPast Dev.forgettable
  cases since : e.absentSince <;> simp [and_assoc]

theorem Dev.aliasIdle_stays {n : Nat} (stays : ∀ a, d.aliasAt g n = some a → d.aliasIdlePast a = false) :
    d.aliasIdle g n = d := by
  unfold Dev.aliasIdle
  split
  · rename_i a found
    rw [stays a found]
    rfl
  · rfl

/-- Settles O36: an entry past its time leaves, and one that is not past it stays. -/
theorem agedEntriesLeave : Obligations.AgedEntriesLeave := by
  have stays : ∀ {d : Dev} {s : State}, d = s.dev →
      (Host.Outcome.next { s with dev := d } : Host.Outcome State Fault Refusal) = .next s := by
    rintro d s rfl
    rfl
  refine ⟨fun g n s e ok found => ⟨fun since origin role state printer absent past => ?_, fun young => ?_, fun other => ?_⟩,
    fun g n s a found => ⟨fun kind past => ?_, fun other => ?_⟩, fun g n s => ⟨fun none => ?_, fun none => ?_⟩⟩
  · obtain ⟨-, seg, number⟩ := Dev.station_some found
    have leaves : s.dev.forgetPast e = true :=
      (s.dev.forgetPast_iff e).mpr ⟨origin, role, state, by rw [seg, number]; exact printer, since, absent, past⟩
    have ran : s.dev.absentForget g n = s.dev.removeStation e := by
      rw [Dev.absentForget, Dev.forgetAt, found]
      exact if_pos leaves
    refine ⟨_, rfl, rfl, ?_⟩
    dsimp only
    rw [ran]
    obtain ⟨gone, others⟩ := ok.station_removed found (s.dev.removeStation_stations e)
    exact ⟨gone, others, touches_removeStation _ _⟩
  · refine stays (Dev.forgetAt_stays fun x hx => Bool.eq_false_iff.mpr fun past => ?_)
    obtain rfl := Option.some.inj (found.symm.trans hx)
    obtain ⟨-, -, -, -, since, absent, past⟩ := (s.dev.forgetPast_iff e).mp past
    exact absurd (young since absent) (Nat.not_le.mpr past)
  · refine stays (Dev.forgetAt_stays fun x hx => Bool.eq_false_iff.mpr fun past => ?_)
    obtain rfl := Option.some.inj (found.symm.trans hx)
    obtain ⟨-, seg, number⟩ := Dev.station_some found
    obtain ⟨origin, role, state, printer, -⟩ := (s.dev.forgetPast_iff e).mp past
    rw [seg, number] at printer
    simp [origin, role, state, printer] at other
  · have past : s.dev.aliasIdlePast a = true := by simp [Dev.aliasIdlePast, kind, past]
    have ran : s.dev.aliasIdle g n = s.dev.withdrawAlias g n := by
      rw [Dev.aliasIdle, found]
      exact if_pos past
    exact congrArg (fun d => Host.Outcome.next { s with dev := d }) ran
  · refine stays (Dev.aliasIdle_stays fun x hx => Bool.eq_false_iff.mpr fun past => ?_)
    obtain rfl := Option.some.inj (found.symm.trans hx)
    simp only [Dev.aliasIdlePast, Bool.and_eq_true, beq_iff_eq, decide_eq_true_eq] at past
    obtain static | young := other
    · rw [static] at past
      exact absurd past.1 (by decide)
    · exact absurd past.2 (Nat.not_le.mpr young)
  · exact stays (Dev.forgetAt_stays fun x hx => absurd (none.symm.trans hx) (by simp))
  · exact stays (Dev.aliasIdle_stays fun x hx => absurd (none.symm.trans hx) (by simp))

/-! ### Quarantine and release -/

/-- An entry's change of state before its queue is flushed. -/
def Dev.restated (d : Dev) (e : Station) (st : StationState) (c : Option QuarantineCause) : Dev :=
  d.modStation e.eid fun e => e.inState st c d.uptime

/-- The printer on a station that is shut out is LOST (R44). -/
def Dev.printerOut (d : Dev) (e : Station) : Dev :=
  match e.role, d.printerAt e.seg e.number with
  | .printer, some p => d.makeLost p
  | _, _ => d

/-- What follows the flush when an entry is shut out (R44). -/
def Dev.handOut (d : Dev) (e : Station) (st : StationState) : Dev :=
  ((if st = StationState.absent then d.printerOut e else (d.printerOut e).failSource e.seg e.number).skipVisits e.seg
    e.eid).endHeldPoll e.seg e.eid

theorem Dev.shutOut_eq (d : Dev) (e : Station) (st : StationState) (c : Option QuarantineCause) :
    d.shutOut e st c = ((d.restated e st c).flushStation e.seg e.number).handOut e st := rfl

theorem touches_handOut (d : Dev) (e : Station) (st : StationState) :
    Touches (.endings :: Piece.spooling) d (d.handOut e st) := by
  have lost : Touches (.endings :: Piece.spooling) d (d.printerOut e) := by
    unfold Dev.printerOut
    split
    · exact (touches_makeLost _ _).mono
    · exact .refl _ _
  unfold Dev.handOut
  refine Touches.then (n := .endings :: Piece.spooling) (Touches.then (n := .endings :: Piece.spooling)
    (l := .endings :: Piece.spooling) ?_ (touches_skipVisits _ _ _)) (touches_endHeldPoll _ _ _)
  exact Touches.ite (fun _ => lost) fun _ => Touches.then lost (touches_failSource _ _ _)

/-- Shutting an entry out changes that entry alone (R44). -/
theorem Dev.shutOut_stations (d : Dev) (e : Station) (st : StationState) (c : Option QuarantineCause) :
    (d.shutOut e st c).stations = (d.restated e st c).stations := by
  rw [Dev.shutOut_eq, ← touches_handOut _ _ _ .stations (by decide), ← touches_flushStation _ _ _ .stations (by decide)]

/-- A frame that a flush by the destination reaches and leaves is one that it has marked (R93). -/
theorem Dev.flush_marks {r : Nat → Bool} (nodup : ((d.seg g).downq.map (·.fid)).Nodup) :
    ∀ f ∈ ((d.flush g fun f => r f.dest).seg g).downq, r f.dest = true → f.flushMark = true := by
  intro f hf reached
  obtain ⟨x, -, flies, rfl⟩ := (Dev.mem_flush_downq nodup _ f).mp hf
  unfold Segment.flushMarked at reached ⊢
  split at reached
  · rename_i marked
    rw [if_pos marked]
  · rename_i unmarked
    exact absurd (by simp [reached, flies reached]) unmarked

/-- A frame left for a station that is shut out is one that the flush has marked (R44, R93). -/
theorem Dev.shutOut_flushed {e : Station} (nodup : ((d.seg e.seg).downq.map (·.fid)).Nodup) (st : StationState)
    (c : Option QuarantineCause) : ∀ f ∈ ((d.shutOut e st c).seg e.seg).downq, f.dest = e.number → f.flushMark = true := by
  intro f hf dest
  have same : ((d.shutOut e st c).seg e.seg).downq =
      (((d.restated e st c).flush e.seg fun f => f.dest == e.number).seg e.seg).downq := by
    rw [Dev.shutOut_eq, ← touches_handOut _ _ _ .downq (by decide) e.seg, Dev.flushStation,
      ← touches_endBackoff _ _ _ .downq (by decide) e.seg]
  rw [same] at hf
  exact Dev.flush_marks (d := d.restated e st c) (r := fun n => n == e.number) nodup f hf (by simp [dest])

theorem Dev.station_congr (same : e.stations = d.stations) (g : Seg) (n : Nat) : e.station g n = d.station g n := by
  rw [Dev.station, same, Dev.station]

/-- An entry shut out is in its new state, and every other entry is as it was (R44). -/
theorem Dev.shutOut_station {n : Nat} {x : Station} (eids : (d.stations.map (·.eid)).Nodup)
    (found : d.station g n = some x) (st : StationState) (c : Option QuarantineCause) :
    (d.shutOut x st c).station g n = some (x.inState st c d.uptime) ∧
    ∀ h m, (h, m) ≠ (g, n) → (d.shutOut x st c).station h m = d.station h m := by
  have same := d.shutOut_stations x st c
  obtain ⟨here, others⟩ := Dev.modStation_station (f := fun e => e.inState st c d.uptime) eids found fun _ => ⟨rfl, rfl⟩
  exact ⟨(Dev.station_congr same g n).trans here, fun h m other => (Dev.station_congr same h m).trans (others h m other)⟩

theorem Dev.shutOut_eids (d : Dev) (e : Station) (st : StationState) (c : Option QuarantineCause) :
    (d.shutOut e st c).stations.map (·.eid) = d.stations.map (·.eid) :=
  (congrArg (List.map (·.eid)) (d.shutOut_stations e st c)).trans
    (map_modifyFirst (f := fun e => e.inState st c d.uptime) (fun e : Station => e.eid) (fun _ _ => rfl) d.stations)

theorem answer_onStation {b c code : Byte} {f : Dev → Station → Dev × Status} {st : Status} (segment : segOf b.toNat = some g)
    (low : 1 ≤ c.toNat) (high : c.toNat ≤ 254) {x : Station} (found : s.dev.station g c.toNat = some x)
    (ran : f s.dev x = (e, st)) :
    answer s code (bare (s.dev.onStation b c f)) = .next { s with dev := e.says code st } := by
  have number : ¬ (c.toNat = 0 ∨ c.toNat = 255) := by omega
  rw [Dev.onStation, segment]
  dsimp only
  rw [if_neg number, found]
  dsimp only
  rw [ran]
  rfl

theorem answer_onStation_none {b c code : Byte} {f : Dev → Station → Dev × Status} (segment : segOf b.toNat = some g)
    (low : 1 ≤ c.toNat) (high : c.toNat ≤ 254) (free : s.dev.station g c.toNat = none) :
    answer s code (bare (s.dev.onStation b c f)) = .next (s.withAnswer code .noEntry []) := by
  have number : ¬ (c.toNat = 0 ∨ c.toNat = 255) := by omega
  rw [Dev.onStation, segment]
  dsimp only
  rw [if_neg number, free]
  rfl

/-- Settles O37: quarantine shuts an entry out with its frames, and release makes it ABSENT. -/
theorem stationsAreShutOutAndReleased : Obligations.StationsAreShutOutAndReleased := by
  refine ⟨fun b c s g segment low high => ⟨fun e found ok => ?_, fun free => answer_onStation_none segment low high free⟩,
    fun b c s g e ok segment low high found => ⟨fun quarantined => ?_, fun other => ?_⟩⟩
  · obtain ⟨-, seg, number⟩ := Dev.station_some found
    have ran := answer_onStation (s := s) (code := 0x16#8) (f := Dev.quarantineEntry) segment low high found rfl
    have framed := Touches.then (n := .answer :: Piece.directing) (touches_quarantineByManager s.dev e)
      (touches_says _ 0x16#8 .ok)
    by_cases quarantined : e.state = .quarantined
    · have same : s.dev.quarantineByManager e = s.dev.modStation e.eid fun e => { e with cause := some .manager } :=
        if_pos (by simp [quarantined])
      obtain ⟨here, others⟩ := Dev.modStation_station (f := fun e => { e with cause := some .manager }) ok.eids found
        fun _ => ⟨rfl, rfl⟩
      rw [same] at ran framed
      exact ⟨_, _, ran, rfl, rfl, here, rfl, quarantined, rfl, rfl, rfl, rfl, others,
        fun _ => Touches.then (touches_modStation _ _ _) (touches_says _ _ _),
        fun open_ => absurd quarantined open_, framed⟩
    · have same : s.dev.quarantineByManager e = s.dev.shutOut e .quarantined (some .manager) :=
        if_neg (by simp [quarantined])
      obtain ⟨here, others⟩ := Dev.shutOut_station ok.eids found .quarantined (some .manager)
      rw [same] at ran framed
      refine ⟨_, _, ran, rfl, rfl, here, rfl, rfl, rfl, rfl, rfl, rfl, others, fun shut => absurd shut quarantined,
        fun _ nodup => ?_, framed⟩
      subst seg
      exact number ▸ Dev.shutOut_flushed nodup .quarantined (some .manager)
  · obtain ⟨-, seg, number⟩ := Dev.station_some found
    have freed : s.dev.releaseEntry e = (s.dev.releaseStation e, .ok) := if_pos quarantined
    have ran := answer_onStation (code := 0x17#8) segment low high found freed
    obtain ⟨here, others⟩ := Dev.shutOut_station ok.eids found .absent none
    have eids : ((s.dev.shutOut e .absent none).stations.map (·.eid)).Nodup := by
      rw [Dev.shutOut_eids]
      exact ok.eids
    obtain ⟨cleared, apart⟩ := Dev.modStation_station (e := e.inState .absent none s.dev.uptime)
      (f := fun e => { e with misses := 0, jabStrikes := 0, dupStrikes := 0 }) eids here fun _ => ⟨rfl, rfl⟩
    exact ⟨_, ran, rfl, rfl, cleared, fun h m other => (apart h m other).trans (others h m other),
      Touches.then (n := .answer :: Piece.directing) (touches_releaseStation _ _) (touches_says _ _ _)⟩
  · have kept : s.dev.releaseEntry e = (s.dev, .wrongState) := if_neg other
    exact answer_onStation (code := 0x17#8) segment low high found kept

end Sys2Proof.Machine
end

