-- ==== Sys2Proof/Proofs/Spool.lean ====
section
/-! What the Print Spooler and the Printer Feeder leave of one job and one printer, and the commands that close jobs,
enable and disable printers and move jobs (R154, R163 to R165). -/

namespace Sys2Proof.Machine

open Sys2Proof

-- one proof after another: proofs that wait for each other take a thread each
set_option Elab.async false

variable {d e : Dev} {g : Seg} {s : State} {i n : Nat} {p : Printer} {j : Job}

/-! ### One printer and one job -/

/-- The other printers are as they were. -/
def OnePrinter (i : Nat) (d e : Dev) : Prop := ∀ k, k ≠ i → e.printer k = d.printer k

theorem OnePrinter.refl (d : Dev) : OnePrinter i d d := fun _ _ => rfl

theorem OnePrinter.trans {c : Dev} (h : OnePrinter i d e) (k : OnePrinter i e c) : OnePrinter i d c := fun x hx =>
  (k x hx).trans (h x hx)

theorem onePrinter_modPrinter (d : Dev) (i : Nat) (f : Printer → Printer) : OnePrinter i d (d.modPrinter i f) :=
  fun k hk => by rw [Dev.modPrinter_printer, if_neg (Ne.symm hk)]

theorem Dev.modPrinter_here (found : d.printer i = some p) (f : Printer → Printer) :
    (d.modPrinter i f).printer i = some (f p) := by
  rw [Dev.modPrinter_printer, if_pos rfl, found]
  rfl

theorem Touches.printer {l : List Piece} (t : Touches l d e) (apart : Piece.printers ∉ l := by decide) (i : Nat) :
    e.printer i = d.printer i := by
  have same : d.spool.printers = e.spool.printers := t .printers apart
  rw [Dev.printer, ← same, Dev.printer]

/-- The other jobs are as they were. -/
def OneJob (n : Nat) (d e : Dev) : Prop := ∀ m, m ≠ n → e.jobBySerial m = d.jobBySerial m

theorem OneJob.trans {c : Dev} (h : OneJob n d e) (k : OneJob n e c) : OneJob n d c := fun x hx =>
  (k x hx).trans (h x hx)

theorem Touches.job {l : List Piece} (t : Touches l d e) (apart : Piece.jobs ∉ l := by decide) (n : Nat) :
    e.jobBySerial n = d.jobBySerial n := by
  have same : d.spool.jobs = e.spool.jobs := t .jobs apart
  rw [Dev.jobBySerial, ← same, Dev.jobBySerial]

theorem oneJob_modJob (d : Dev) (n : Nat) {f : Job → Job} (serial : ∀ j, (f j).serial = j.serial) :
    OneJob n d (d.modJob n f) := fun m other => find?_modifyFirst_apart fun a _ here => by
  obtain rfl : a.serial = n := by simpa using here
  simp [serial, Ne.symm other]

theorem Dev.modJob_here (found : d.jobBySerial n = some j) {f : Job → Job} (serial : ∀ j, (f j).serial = j.serial) :
    (d.modJob n f).jobBySerial n = some (f j) :=
  find?_modifyFirst found (by simpa [serial] using (Dev.jobBySerial_mem found).2)

theorem Dev.modJob_printer (d : Dev) (n : Nat) (f : Job → Job) (i : Nat) : (d.modJob n f).printer i = d.printer i := rfl

theorem Dev.modPrinter_job (d : Dev) (i n : Nat) (f : Printer → Printer) :
    (d.modPrinter i f).jobBySerial n = d.jobBySerial n := (touches_modPrinter d i f).job (n := n)

/-! ### Selection -/

theorem Dev.select_busy (busy : ∀ p, d.printer i = some p → p.feed ≠ .idle) : d.select i = d := by
  unfold Dev.select
  split
  · rename_i p found
    exact if_neg (by simpa using busy p found)
  · rfl

theorem Dev.jobCount_zero (none : d.jobCount i = 0) : d.spool.jobs.filter (fun j => j.printer == i) = [] :=
  List.length_eq_zero_iff.mp none

theorem Dev.select_jobless (none : d.jobCount i = 0) : d.select i = d := by
  have choice : d.chooseJob i = .none := by
    rw [Dev.chooseJob, Dev.jobCount_zero none]
    simp [leastBy]
  unfold Dev.select
  split
  · rw [choice]
    exact ite_self d
  · rfl

theorem Dev.offerItem_of (found : d.printer i = some p) (active : d.activeJob i = some j) (feeding : p.feed = .feeding)
    (nothing : p.ready = none) (due : j.chain = [] → j.isOpen = false) :
    d.offerItem i = d.modPrinter i fun p => { p with ready := some ⟨j.chain.isEmpty, d.clock⟩ } := by
  rw [Dev.offerItem, found, active]
  refine if_pos ?_
  cases chain : j.chain with
  | nil => simp [feeding, nothing, due chain]
  | cons b bs => simp [feeding, nothing]

/-! ### Closing jobs -/

theorem Dev.idleClose_of {id : Nat} (found : d.jobById id = some j) (past : d.jobIdlePast j = true) :
    d.idleClose id = d.closeJob j.serial := by
  rw [Dev.idleClose, found]
  exact if_pos past

theorem Dev.idleClose_stays {id : Nat} (found : d.jobById id = some j) (young : d.jobIdlePast j = false) :
    d.idleClose id = d := by
  rw [Dev.idleClose, found]
  exact if_neg (by simp [young])

/-- A FILLING job of a printer that is not IDLE becomes QUEUED under the next stamp (R148, R153). -/
theorem Dev.closeJob_filling (found : d.jobBySerial n = some j) (filling : j.state = .filling)
    (busy : ∀ p, d.printer j.printer = some p → p.feed ≠ .idle) : d.closeJob n =
    (d.takeStamp n).modJob n fun j => { j with isOpen := false, state := .queued } := by
  rw [Dev.closeJob, found]
  dsimp only
  rw [filling]
  exact Dev.select_busy busy

theorem Dev.closeJob_active (found : d.jobBySerial n = some j) (active : j.state = .active) :
    d.closeJob n = (d.modJob n fun j => { j with isOpen := false }).offerItem j.printer := by
  rw [Dev.closeJob, found]
  dsimp only
  rw [active]

/-- Settles O46: an open job past the idle time is closed, QUEUED or with its zero-length end ready, and no other. -/
theorem idleJobsAreClosed : Obligations.IdleJobsAreClosed := by
  intro id s j named found
  refine ⟨fun isOpen past filling busy => ?_, fun p isOpen past active act printer feeding nothing empty => ?_,
    fun young => ?_⟩
  · have ran := (Dev.idleClose_of named (by simp [Dev.jobIdlePast, isOpen, past])).trans
      (Dev.closeJob_filling found filling busy)
    have stamped := Dev.modJob_here (f := fun j => { j with stamp := some s.dev.spool.stampCounter }) found fun _ => rfl
    have stampedOne := oneJob_modJob s.dev j.serial (f := fun j => { j with stamp := some s.dev.spool.stampCounter })
      fun _ => rfl
    have told : (s.dev.takeStamp j.serial).jobBySerial j.serial = some { j with stamp := some s.dev.spool.stampCounter } :=
      stamped
    have here := Dev.modJob_here (f := fun j => { j with isOpen := false, state := .queued }) told fun _ => rfl
    have apart : OneJob j.serial s.dev (s.dev.takeStamp j.serial) := stampedOne
    refine ⟨_, rfl, rfl, ?_⟩
    dsimp only
    rw [ran]
    exact ⟨here, rfl, rfl, apart.trans (oneJob_modJob _ _ fun _ => rfl),
      Touches.then (touches_takeStamp _ _) (touches_modJob _ _ _)⟩
  · have closes := (Dev.idleClose_of named (by simp [Dev.jobIdlePast, isOpen, past])).trans
      (Dev.closeJob_active found active)
    have here := Dev.modJob_here (f := fun j => { j with isOpen := false }) found fun _ => rfl
    have stands : (s.dev.modJob j.serial fun j => { j with isOpen := false }).activeJob j.printer =
        some { j with isOpen := false } := find?_modifyFirst_at act found (by simp [active])
    have offers := Dev.offerItem_of (d := s.dev.modJob j.serial fun j => { j with isOpen := false }) printer stands feeding
      nothing fun _ => rfl
    have left := Dev.modPrinter_here (d := s.dev.modJob j.serial fun j => { j with isOpen := false }) printer
      fun p => { p with ready := some ⟨j.chain.isEmpty, s.dev.clock⟩ }
    have apart := onePrinter_modPrinter (s.dev.modJob j.serial fun j => { j with isOpen := false }) j.printer
      fun p => { p with ready := some ⟨j.chain.isEmpty, s.dev.clock⟩ }
    have jobs := fun m => Dev.modPrinter_job (s.dev.modJob j.serial fun j => { j with isOpen := false }) j.printer m
      fun p => { p with ready := some ⟨j.chain.isEmpty, s.dev.clock⟩ }
    have closed := oneJob_modJob s.dev j.serial (f := fun j => { j with isOpen := false }) fun _ => rfl
    have ran := closes.trans offers
    refine ⟨_, rfl, rfl, ?_⟩
    dsimp only
    rw [ran]
    refine ⟨(jobs _).trans here, ?_, fun m hm => (jobs m).trans (closed m hm), apart,
      Touches.then (touches_modJob _ _ _) (touches_modPrinter _ _ _)⟩
    rw [empty] at left
    rw [empty]
    exact left
  · have young : s.dev.jobIdlePast j = false := by
      obtain closed | young := young
      · simp [Dev.jobIdlePast, closed]
      · simp [Dev.jobIdlePast, young]
    exact congrArg (fun d => Host.Outcome.next { s with dev := d }) (Dev.idleClose_stays named young)

/-! ### Choosing the next job -/

/-- Of two stamps at most one comes before the other (R148). -/
theorem stampBefore_asymm {a b : Nat} (before : stampBefore a b = true) : stampBefore b a = false := by
  simp only [stampBefore, Bool.and_eq_true, decide_eq_true_eq] at before
  simp only [stampBefore, Bool.and_eq_false_iff, decide_eq_false_iff_not]
  omega

theorem jobBefore_asymm {a b : Job} (before : jobBefore a b = true) : jobBefore b a = false := by
  unfold jobBefore at before ⊢
  cases ha : a.stamp <;> cases hb : b.stamp <;> simp only [ha, hb] at before ⊢
  exact stampBefore_asymm before

theorem leastBy_mem {α : Type} {lt : α → α → Bool} {a : α} : ∀ {l : List α}, leastBy lt l = some a → a ∈ l
  | b :: l, found => by
    unfold leastBy at found
    split at found
    · obtain rfl := Option.some.inj found
      exact List.mem_cons_self
    · rename_i c least
      split at found <;> obtain rfl := Option.some.inj found
      · exact List.mem_cons_of_mem _ (leastBy_mem least)
      · exact List.mem_cons_self

/-- The entry that comes before every other is the least one. -/
theorem leastBy_of {α : Type} {lt : α → α → Bool} {a : α} (asymm : ∀ {x y}, lt x y = true → lt y x = false) :
    ∀ {l : List α}, a ∈ l → (∀ x ∈ l, x ≠ a → lt a x = true) → leastBy lt l = some a
  | b :: l, member, first => by
    have rest : ∀ x ∈ l, x ≠ a → lt a x = true := fun x hx => first x (List.mem_cons_of_mem _ hx)
    unfold leastBy
    by_cases head : b = a
    · subst head
      split
      · rfl
      · rename_i c least
        by_cases same : c = b
        · rw [same, ite_self]
        · rw [asymm (rest c (leastBy_mem least) same)]
          rfl
    · have later : a ∈ l := (List.mem_cons.mp member).resolve_left (Ne.symm head)
      rw [leastBy_of asymm later rest]
      exact if_pos (first b List.mem_cons_self head)

/-- Selection chooses the QUEUED job of the printer that comes before all others (R155). -/
theorem Dev.chooseJob_queued (member : j ∈ d.spool.jobs) (mine : j.printer = i) (queued : j.state = .queued)
    (first : ∀ k ∈ d.spool.jobs, k.printer = i → k.state = .queued → k ≠ j → jobBefore j k = true) :
    d.chooseJob i = some j := by
  have least : leastBy jobBefore ((d.spool.jobs.filter fun j => j.printer == i).filter fun j => j.state == .queued) =
      some j := by
    refine leastBy_of jobBefore_asymm ?_ fun k hk other => ?_
    · simp [member, mine, queued]
    · simp only [List.mem_filter, beq_iff_eq] at hk
      exact first k hk.1.1 hk.1.2 hk.2 other
  rw [Dev.chooseJob, least]

/-- A chosen QUEUED job becomes ACTIVE, and a printer that can be reached is fed its first item (R155, R170, R171). -/
theorem Dev.select_queued (found : d.printer i = some p) (idle : p.feed = .idle) (choice : d.chooseJob i = some j)
    (queued : j.state = .queued) (reachable : d.printerReachable p = true) :
    d.select i = (d.modJob j.serial fun j => { j with state := .active }).enterFeeding i := by
  have choose : d.select i = d.handOver i j := by
    rw [Dev.select, found, choice]
    exact if_pos (by simp [idle])
  have there : (d.modJob j.serial fun j => { j with state := .active }).printer i = some p := found
  rw [choose, Dev.handOver, if_neg (by simp [queued]), there]
  exact if_pos reachable

/-- A printer that enters FEEDING with a closed job is offered its head block, or its end (R171). -/
theorem Dev.enterFeeding_of (found : d.printer i = some p) (active : d.activeJob i = some j)
    (due : j.chain = [] → j.isOpen = false) : d.enterFeeding i =
    (d.modPrinter i fun p => { p with feed := .feeding, ready := none, busyTimer := none }).modPrinter i fun p =>
      { p with ready := some ⟨j.chain.isEmpty, d.clock⟩ } := by
  have there := Dev.modPrinter_here found fun p => { p with feed := .feeding, ready := none, busyTimer := none }
  have clock := (touches_modPrinter d i fun p => { p with feed := .feeding, ready := none, busyTimer := none }) .clock
    (by decide)
  have jobs := (touches_modPrinter d i fun p => { p with feed := .feeding, ready := none, busyTimer := none }) .jobs
    (by decide)
  rw [Dev.enterFeeding, Dev.offerItem_of there (by rw [Dev.activeJob, ← jobs]; exact active) rfl rfl due, ← clock]

theorem answer_bare {d : Dev} {code : Byte} {r : Dev × Status} {st : Status} (ran : r = (d, st)) :
    answer s code (bare r) = .next { s with dev := d.says code st } := by
  rw [ran]
  rfl

/-- Settles O48: a printer is disabled and enabled with its selection, and a job moves to another printer. -/
theorem printersAreEnabledAndDisabled : Obligations.PrintersAreEnabledAndDisabled := by
  have within : ∀ {n : Nat}, n < 8 → ¬ Config.printerMax ≤ n := fun small => Nat.not_le.mpr small
  refine fun b s => ⟨fun p small found => ⟨fun on assigned idle => ?_, fun j on act => ?_, fun off disabled empty => ?_,
    fun j off disabled reachable idle named mine queued closed serials first => ?_, fun on => ?_⟩,
    fun c j p named found small target queued on reached busy elsewhere room => ?_, fun large => ⟨?_, ?_, fun c => ?_⟩⟩
  · have ran : s.dev.disablePrinter b.toNat = (s.dev.modPrinter b.toNat fun p =>
        { p with enabled := false, feed := .disabled, ready := none, holdTimer := none }, .ok) := by
      rw [Dev.disablePrinter, if_neg (within small), found]
      simp [on, assigned, idle]
    exact ⟨_, answer_bare ran, rfl, rfl, Dev.modPrinter_here found _, onePrinter_modPrinter _ _ _,
      Touches.then (touches_modPrinter _ _ _) (touches_says _ _ _)⟩
  · have ran : s.dev.disablePrinter b.toNat = (s.dev.modPrinter b.toNat fun p =>
        { p with enabled := false, disablePending := true }, .ok) := by
      rw [Dev.disablePrinter, if_neg (within small), found]
      simp [on, act]
    exact ⟨_, answer_bare ran, rfl, rfl, Dev.modPrinter_here found _, onePrinter_modPrinter _ _ _,
      Touches.then (touches_modPrinter _ _ _) (touches_says _ _ _)⟩
  · have ran : s.dev.enablePrinter b.toNat = ((s.dev.modPrinter b.toNat fun p =>
        { p with enabled := true, feed := .idle, disablePending := false, failCount := 0 }).select b.toNat, .ok) := by
      rw [Dev.enablePrinter, if_neg (within small), found]
      simp [off, disabled]
    have jobless : (s.dev.modPrinter b.toNat fun p =>
        { p with enabled := true, feed := .idle, disablePending := false, failCount := 0 }).jobCount b.toNat = 0 := by
      rw [Dev.jobCount, ← touches_modPrinter _ _ _ .jobs (by decide)]
      exact empty
    rw [Dev.select_jobless jobless] at ran
    exact ⟨_, answer_bare ran, rfl, rfl, Dev.modPrinter_here found _, onePrinter_modPrinter _ _ _,
      Touches.then (touches_modPrinter _ _ _) (touches_says _ _ _)⟩
  · have ran : s.dev.enablePrinter b.toNat = ((s.dev.modPrinter b.toNat fun p =>
        { p with enabled := true, feed := .idle, disablePending := false, failCount := 0 }).select b.toNat, .ok) := by
      rw [Dev.enablePrinter, if_neg (within small), found]
      simp [off, disabled]
    have here := Dev.modPrinter_here found fun p =>
      { p with enabled := true, feed := .idle, disablePending := false, failCount := 0 }
    have apart := onePrinter_modPrinter s.dev b.toNat fun p =>
      { p with enabled := true, feed := .idle, disablePending := false, failCount := 0 }
    have moved := touches_modPrinter s.dev b.toNat fun p =>
      { p with enabled := true, feed := .idle, disablePending := false, failCount := 0 }
    have job := moved.job (n := j.serial)
    have others := fun m => moved.job (n := m)
    have jobs := moved .jobs (by decide)
    have clock := moved .clock (by decide)
    generalize (s.dev.modPrinter b.toNat fun p =>
      { p with enabled := true, feed := .idle, disablePending := false, failCount := 0 }) = d at *
    have reaches : d.printerReachable
        { p with enabled := true, feed := .idle, disablePending := false, failCount := 0 } = true := by
      have same : d.stations = s.dev.stations := (moved .stations (by decide)).symm
      have state : (d.seg p.seg).mon = (s.dev.seg p.seg).mon := (moved .mon (by decide) p.seg).symm
      rw [← reachable, Dev.printerReachable, Dev.printerReachable, Dev.inService, state, Dev.station_congr same]
      rfl
    have chosen : d.chooseJob b.toNat = some j :=
      Dev.chooseJob_queued (jobs ▸ (Dev.jobBySerial_mem named).1) mine queued (jobs ▸ first)
    rw [Dev.select_queued here rfl chosen queued reaches] at ran
    have nothing : d.activeJob b.toNat = none := by rw [Dev.activeJob, ← jobs]; exact idle
    have stands : (d.modJob j.serial fun j => { j with state := .active }).activeJob b.toNat =
        some { j with state := .active } :=
      find?_modifyFirst_new nothing (job.trans named) (by simp [mine])
    rw [Dev.enterFeeding_of (d := d.modJob j.serial fun j => { j with state := .active }) here stands fun _ => closed] at ran
    have activeHere := Dev.modJob_here (f := fun j => { j with state := .active }) (job.trans named) fun _ => rfl
    have activeOne := oneJob_modJob d j.serial (f := fun j => { j with state := .active }) fun _ => rfl
    have onlyJobs := touches_modJob d j.serial fun j => { j with state := .active }
    have now : (d.modJob j.serial fun j => { j with state := .active }).clock = s.dev.clock := clock.symm
    have sameHere : (d.modJob j.serial fun j => { j with state := .active }).printer b.toNat = _ := here
    have sameOne : OnePrinter b.toNat s.dev (d.modJob j.serial fun j => { j with state := .active }) := apart
    rw [now] at ran
    generalize (d.modJob j.serial fun j => { j with state := .active }) = f at *
    have fed := Dev.modPrinter_here sameHere fun p => { p with feed := .feeding, ready := none, busyTimer := none }
    have fedOne := onePrinter_modPrinter f b.toNat fun p => { p with feed := .feeding, ready := none, busyTimer := none }
    have fedFrame := touches_modPrinter f b.toNat fun p => { p with feed := .feeding, ready := none, busyTimer := none }
    generalize (f.modPrinter b.toNat fun p => { p with feed := .feeding, ready := none, busyTimer := none }) = k at *
    have offered := touches_modPrinter k b.toNat fun p => { p with ready := some ⟨j.chain.isEmpty, s.dev.clock⟩ }
    have same := fun m => (offered.job (n := m)).trans (fedFrame.job (n := m))
    have framed : Touches [.printers, .jobs] s.dev
        (k.modPrinter b.toNat fun p => { p with ready := some ⟨j.chain.isEmpty, s.dev.clock⟩ }) :=
      Touches.then (n := [.printers, .jobs]) moved
        (Touches.then (n := [.printers, .jobs]) onlyJobs (Touches.then (n := [.printers, .jobs]) fedFrame offered))
    exact ⟨_, answer_bare ran, rfl, rfl, (same _).trans activeHere, Dev.modPrinter_here fed _,
      fun m hm => (same m).trans ((activeOne m hm).trans (others m)),
      (sameOne.trans fedOne).trans (onePrinter_modPrinter _ _ _), Touches.then framed (touches_says _ _ _)⟩
  · have ran : s.dev.enablePrinter b.toNat = (s.dev, .wrongState) := by
      rw [Dev.enablePrinter, if_neg (within small), found]
      simp [on]
    exact answer_bare ran
  · have ran : s.dev.redirectJob c.toNat b.toNat =
        ((s.dev.modJob j.serial fun j => { j with printer := b.toNat }).select b.toNat, .ok) := by
      rw [Dev.redirectJob, if_neg (within small), named, target]
      simp [queued, on, reached, Nat.not_le.mpr room, elsewhere]
    have still : ∀ q, (s.dev.modJob j.serial fun j => { j with printer := b.toNat }).printer b.toNat = some q →
        q.feed ≠ .idle := fun q hq => by
      obtain rfl := Option.some.inj (target.symm.trans hq)
      exact busy
    rw [Dev.select_busy still] at ran
    exact ⟨_, answer_bare ran, rfl, rfl, Dev.modJob_here found fun _ => rfl, oneJob_modJob _ _ fun _ => rfl,
      Touches.then (touches_modJob _ _ _) (touches_says _ _ _)⟩
  · exact answer_bare (if_pos large)
  · exact answer_bare (if_pos large)
  · exact answer_bare (if_pos large)

end Sys2Proof.Machine
end

