-- ==== Sys2Proof/Proofs/JobEndings.lean ====
section
/-! What the ending of a job leaves of the other jobs and printers, and the commands and timers that end jobs (R149,
R160 to R162, R179). -/

namespace Sys2Proof.Machine

open Sys2Proof

-- one proof after another: proofs that wait for each other take a thread each
set_option Elab.async false

variable {d e : Dev} {g : Seg} {s : State} {i n : Nat} {p : Printer} {j : Job}

/-! ### What selection keeps -/

/-- A job's own name, its printer and its chain. -/
def Job.holding (j : Job) : Nat × Nat × List (List Byte) := (j.serial, j.printer, j.chain)

/-- The jobs stand as they did, each with its printer and its chain. -/
def JobsKept (d e : Dev) : Prop := e.spool.jobs.map Job.holding = d.spool.jobs.map Job.holding

theorem JobsKept.refl (d : Dev) : JobsKept d d := rfl

theorem JobsKept.trans {c : Dev} (h : JobsKept d e) (k : JobsKept e c) : JobsKept d c := Eq.trans k h

theorem JobsKept.fold {α : Type} {f : Dev → α → Dev} (step : ∀ d a, JobsKept d (f d a)) (as : List α) :
    ∀ d : Dev, JobsKept d (as.foldl f d) := by
  induction as with
  | nil => exact fun d => .refl d
  | cons a as ih => exact fun d => (step d a).trans (ih _)

theorem Touches.jobsKept {l : List Piece} (t : Touches l d e) (apart : Piece.jobs ∉ l := by decide) : JobsKept d e := by
  have same : d.spool.jobs = e.spool.jobs := t .jobs apart
  rw [JobsKept, same]

theorem jobsKept_modJob (d : Dev) (n : Nat) {f : Job → Job} (same : ∀ j, (f j).holding = j.holding) :
    JobsKept d (d.modJob n f) := map_modifyFirst Job.holding (fun j _ => same j) _

theorem jobsKept_handOver (d : Dev) (i : Nat) (j : Job) : JobsKept d (d.handOver i j) := by
  have stamped : JobsKept d (if j.state == .filling then d.takeStamp j.serial else d) := by
    split
    · exact jobsKept_modJob d j.serial fun _ => rfl
    · exact .refl d
  unfold Dev.handOver
  dsimp only
  generalize (if j.state == .filling then d.takeStamp j.serial else d) = e at *
  have active := stamped.trans (jobsKept_modJob e j.serial (f := fun j => { j with state := .active }) fun _ => rfl)
  split
  · split
    · exact active.trans (touches_enterFeeding _ _).jobsKept
    · exact active.trans (touches_makeLost _ _).jobsKept
  · exact active

theorem jobsKept_select (d : Dev) (i : Nat) : JobsKept d (d.select i) := by
  unfold Dev.select
  split
  · split
    · split
      · exact jobsKept_handOver _ _ _
      · exact .refl d
    · exact .refl d
  · exact .refl d

theorem jobsKept_selectAll (d : Dev) : JobsKept d d.selectAll := JobsKept.fold jobsKept_select _ _

theorem jobsKept_enterIdle (d : Dev) (i : Nat) : JobsKept d (d.enterIdle i) :=
  (touches_modPrinter d i _).jobsKept.trans (jobsKept_select _ _)

theorem jobsKept_activeJobEnded (d : Dev) (i : Nat) : JobsKept d (d.activeJobEnded i) := by
  unfold Dev.activeJobEnded
  split
  · rename_i p _
    have told : JobsKept d ((d.endHeldFeed p.seg i).modPrinter i fun p => { p with ready := none, sentMark := none }) :=
      (touches_endHeldFeed _ _ _).jobsKept.trans (touches_modPrinter _ _ _).jobsKept
    dsimp only
    split
    · exact told.trans (jobsKept_enterIdle _ _)
    · exact told.trans (jobsKept_enterIdle _ _)
    · split
      · exact told.trans (touches_modPrinter _ _ _).jobsKept
      · exact told
    all_goals exact told
  · exact .refl d

theorem onePrinter_offerItem (d : Dev) (i : Nat) : OnePrinter i d (d.offerItem i) := by
  unfold Dev.offerItem
  split
  · split
    · exact onePrinter_modPrinter _ _ _
    · exact .refl d
  · exact .refl d

theorem Touches.onePrinter {l : List Piece} (t : Touches l d e) (apart : Piece.printers ∉ l := by decide) :
    OnePrinter i d e := fun k _ => t.printer apart k

theorem onePrinter_enterFeeding (d : Dev) (i : Nat) : OnePrinter i d (d.enterFeeding i) :=
  (onePrinter_modPrinter d i _).trans (onePrinter_offerItem _ _)

theorem onePrinter_makeLost (d : Dev) (i : Nat) : OnePrinter i d (d.makeLost i) := by
  unfold Dev.makeLost
  split
  · split
    · exact .refl d
    · exact ((touches_endHeldFeed _ _ _).onePrinter.trans (onePrinter_modPrinter _ _ _)).trans
        (touches_raise _ _ _).onePrinter
  · exact .refl d

theorem onePrinter_handOver (d : Dev) (i : Nat) (j : Job) : OnePrinter i d (d.handOver i j) := by
  have stamped : OnePrinter i d (if j.state == .filling then d.takeStamp j.serial else d) := by
    split
    · exact (touches_takeStamp _ _).onePrinter
    · exact .refl d
  unfold Dev.handOver
  dsimp only
  generalize (if j.state == .filling then d.takeStamp j.serial else d) = e at *
  have active := stamped.trans (touches_modJob e j.serial fun j => { j with state := .active }).onePrinter
  split
  · split
    · exact active.trans (onePrinter_enterFeeding _ _)
    · exact active.trans (onePrinter_makeLost _ _)
  · exact active

theorem onePrinter_select (d : Dev) (i : Nat) : OnePrinter i d (d.select i) := by
  unfold Dev.select
  split
  · split
    · split
      · exact onePrinter_handOver _ _ _
      · exact .refl d
    · exact .refl d
  · exact .refl d

theorem onePrinter_activeJobEnded (d : Dev) (i : Nat) : OnePrinter i d (d.activeJobEnded i) := by
  unfold Dev.activeJobEnded
  split
  · rename_i p _
    have told : OnePrinter i d ((d.endHeldFeed p.seg i).modPrinter i fun p => { p with ready := none, sentMark := none }) :=
      (touches_endHeldFeed _ _ _).onePrinter.trans (onePrinter_modPrinter _ _ _)
    have idles : ∀ e : Dev, OnePrinter i e (e.enterIdle i) := fun e =>
      (onePrinter_modPrinter e i _).trans (onePrinter_select _ _)
    dsimp only
    split
    · exact told.trans (idles _)
    · exact told.trans (idles _)
    · split
      · exact told.trans (onePrinter_modPrinter _ _ _)
      · exact told
    all_goals exact told
  · exact .refl d

/-- A printer that is not IDLE is as it was. -/
def Spared (i : Nat) (d e : Dev) : Prop := ∀ p, d.printer i = some p → p.feed ≠ .idle → e.printer i = some p

theorem Spared.refl (d : Dev) : Spared i d d := fun _ h _ => h

theorem Spared.trans {c : Dev} (h : Spared i d e) (k : Spared i e c) : Spared i d c := fun p hp busy =>
  k p (h p hp busy) busy

theorem Spared.fold {α : Type} {f : Dev → α → Dev} (step : ∀ d a, Spared i d (f d a)) (as : List α) :
    ∀ d : Dev, Spared i d (as.foldl f d) := by
  induction as with
  | nil => exact fun d => .refl d
  | cons a as ih => exact fun d => (step d a).trans (ih _)

theorem Touches.spared {l : List Piece} (t : Touches l d e) (apart : Piece.printers ∉ l := by decide) : Spared i d e :=
  fun _ hp _ => (t.printer apart i).trans hp

/-- Selection moves IDLE printers alone (R155). -/
theorem spared_select (d : Dev) (k : Nat) : Spared i d (d.select k) := fun p hp busy => by
  by_cases same : k = i
  · subst same
    rw [Dev.select_busy fun q hq => by rw [hp] at hq; obtain rfl := Option.some.inj hq; exact busy]
    exact hp
  · rw [onePrinter_select d k i (Ne.symm same), hp]

theorem spared_selectAll (d : Dev) : Spared i d d.selectAll := Spared.fold spared_select _ _

/-! ### The end of a job -/

theorem Dev.freeSpool_pool (d : Dev) (n : Nat) :
    (d.freeSpool n).pool = { d.pool with free := d.pool.free + n, spool := d.pool.spool - n } := by
  unfold Dev.freeSpool
  split
  · rename_i none
    rw [none]
    rfl
  · rw [← touches_pauseTest _ .pool (by decide)]

/-- What the closing of a job's record leaves (R149). -/
theorem Dev.closeOut_facts (d : Dev) (j : Job) (o : JobOutcome) :
    (d.closeOut j o).pool = { d.pool with free := d.pool.free + j.chain.length, spool := d.pool.spool - j.chain.length } ∧
    (d.closeOut j o).spool.finished = addSummary d.spool.finished
      ⟨j.id, j.printer, j.source, o, j.received, j.printed, d.uptime⟩ := by
  have removed := touches_setJobs d fun s => removeFirst (fun x => x.serial == j.serial) s.jobs
  unfold Dev.closeOut
  dsimp only
  generalize (d.modSpool fun s => { s with jobs := removeFirst (fun x => x.serial == j.serial) s.jobs }) = e at *
  have freed := touches_freeSpool e j.chain.length
  have pool := e.freeSpool_pool j.chain.length
  have finished : (e.freeSpool j.chain.length).spool.finished = d.spool.finished :=
    ((removed .finished (by decide)).trans (freed .finished (by decide))).symm
  have uptime : (e.freeSpool j.chain.length).uptime = d.uptime :=
    ((removed .uptime (by decide)).trans (freed .uptime (by decide))).symm
  rw [← removed .pool (by decide)] at pool
  generalize e.freeSpool j.chain.length = f at *
  have told : Touches (.spoolCounters :: Piece.raised) (f.modSpool fun s => { s with
      finished := addSummary s.finished ⟨j.id, j.printer, j.source, o, j.received, j.printed, f.uptime⟩ })
      (if o.isFailure then ((f.modSpool fun s => { s with
        finished := addSummary s.finished ⟨j.id, j.printer, j.source, o, j.received, j.printed, f.uptime⟩ }).countSpool
          o.counter).raise .jobFailed (.job j.id) else (f.modSpool fun s => { s with
        finished := addSummary s.finished ⟨j.id, j.printer, j.source, o, j.received, j.printed, f.uptime⟩ }).countSpool
          o.counter) :=
    Touches.ite (l := .spoolCounters :: Piece.raised) (fun _ => Touches.then (touches_countSpool _ _) (touches_raise _ _ _))
      fun _ => touches_countSpool _ _
  refine ⟨(told .pool (by decide)).symm.trans pool, (told .finished (by decide)).symm.trans ?_⟩
  rw [← uptime, ← finished]
  rfl

/-- What follows the closing of a job's record (R149). -/
def Dev.afterJob (d : Dev) (j : Job) : Dev :=
  (if j.state == .active then d.activeJobEnded j.printer else d).selectAll

theorem touches_afterJob (d : Dev) (j : Job) : Touches Piece.selecting d (d.afterJob j) :=
  Touches.then (Touches.ite (l := Piece.selecting) (fun _ => touches_activeJobEnded _ _) fun _ => .refl _ _)
    (touches_selectAll _)

theorem jobsKept_afterJob (d : Dev) (j : Job) : JobsKept d (d.afterJob j) := by
  unfold Dev.afterJob
  split
  · exact (jobsKept_activeJobEnded _ _).trans (jobsKept_selectAll _)
  · exact jobsKept_selectAll _

theorem Dev.endJob_of (found : d.jobBySerial n = some j) (o : JobOutcome) :
    d.endJob n o = (d.closeOut j o).afterJob j := by
  rw [Dev.endJob, found]
  rfl

/-- The serials of the jobs, their printers and their chains after a job has ended: all but its own. -/
theorem Dev.endJob_holdings (serials : (d.spool.jobs.map (·.serial)).Nodup) (n : Nat) (o : JobOutcome) :
    (d.endJob n o).spool.jobs.map Job.holding = (d.spool.jobs.map Job.holding).filter fun h => !(h.1 == n) := by
  cases found : d.jobBySerial n with
  | none =>
    have same : d.endJob n o = d := by rw [Dev.endJob, found]
    rw [same, List.filter_eq_self.mpr]
    intro h hm
    obtain ⟨j, hj, rfl⟩ := List.mem_map.mp hm
    simpa [Job.holding] using List.find?_eq_none.mp found j hj
  | some j =>
    have kept : JobsKept (d.closeOut j o) (d.endJob n o) := Dev.endJob_of found o ▸ jobsKept_afterJob _ _
    have serial := (Dev.jobBySerial_mem found).2
    rw [JobsKept] at kept
    rw [kept, Dev.closeOut_jobs, removeFirst_name serials, serial, List.filter_map]
    rfl

theorem serials_of_holdings {l m : List Job} (same : l.map Job.holding = m.map Job.holding) :
    l.map (·.serial) = m.map (·.serial) := by
  have := congrArg (List.map Prod.fst) same
  simpa [List.map_map, Function.comp_def, Job.holding] using this

theorem Dev.jobBySerial_none_iff : d.jobBySerial n = none ↔ n ∉ d.spool.jobs.map (·.serial) := by
  simp [Dev.jobBySerial]

/-- An ended job is gone, its blocks are freed and its summary stands (R149). -/
theorem Dev.endJob_facts (found : d.jobBySerial n = some j) (serials : (d.spool.jobs.map (·.serial)).Nodup)
    (o : JobOutcome) : (d.endJob n o).jobBySerial n = none ∧
    (d.endJob n o).pool = { d.pool with free := d.pool.free + j.chain.length, spool := d.pool.spool - j.chain.length } ∧
    (d.endJob n o).spool.finished = addSummary d.spool.finished
      ⟨j.id, j.printer, j.source, o, j.received, j.printed, d.uptime⟩ := by
  obtain ⟨pool, finished⟩ := d.closeOut_facts j o
  have holdings := Dev.endJob_holdings serials n o
  rw [Dev.endJob_of found] at holdings ⊢
  have after := touches_afterJob (d.closeOut j o) j
  refine ⟨Dev.jobBySerial_none_iff.mpr fun hm => ?_, (after .pool (by decide)).symm.trans pool,
    (after .finished (by decide)).symm.trans finished⟩
  obtain ⟨k, hk, here⟩ := List.mem_map.mp hm
  have stays := holdings ▸ List.mem_map_of_mem (f := Job.holding) hk
  simpa [Job.holding, here] using (List.mem_filter.mp stays).2

/-! ### Cancelling -/

/-- One ending waits, and its exchange has ended: it is applied (R161). -/
theorem Dev.applyEndings_one {w : WaitingEnding} (waits : d.spool.endings = [w])
    (free : d.jobInFlight w.serial = false) (found : d.jobBySerial w.serial = some j) : d.applyEndings =
    ((d.modSpool fun s => { s with endings := [] }).endJob w.serial w.outcome).answerEnding w.asker .ok := by
  have ripe : (d.spool.endings.filter fun w => !d.jobInFlight w.serial) = [w] := by simp [waits, free]
  have rest : (d.modSpool fun s => { s with endings := s.endings.filter fun w => d.jobInFlight w.serial }) =
      d.modSpool fun s => { s with endings := [] } := by simp [Dev.modSpool, waits, free]
  have there : (d.modSpool fun s => { s with endings := [] }).jobBySerial w.serial = some j := found
  unfold Dev.applyEndings
  dsimp only
  rw [ripe, rest, List.foldl_cons, List.foldl_nil, Dev.applyEnding, there]

theorem Dev.resumeRequest_idle (idle : d.agent.running = none) : d.resumeRequest = d := by
  rw [Dev.resumeRequest, idle]

/-- Settles O47: a cancelled job ends at once, or once its exchange has ended. -/
theorem cancelledJobsEnd : Obligations.CancelledJobsEnd := by
  refine ⟨fun id s j named found serials => ⟨fun free => ?_, fun busy => ?_⟩,
    fun s j o w waits idle found free serials => ?_, fun id s unknown => ?_⟩
  · have ran : s.dev.cancelJob id .command = (s.dev.endJob j.serial .cancelled, some .ok) := by
      rw [Dev.cancelJob, named]
      simp [Dev.endJobOrWait, free]
    obtain ⟨gone, pool, finished⟩ := Dev.endJob_facts found serials .cancelled
    have framed := touches_endJob s.dev j.serial .cancelled
    refine ⟨_, rfl, rfl, ?_⟩
    dsimp only
    rw [ran]
    exact ⟨rfl, gone, finished, congrArg Pool.free pool, congrArg Pool.spool pool,
      (framed .endings (by decide)).symm, Touches.then framed (touches_storeAnswer _ _)⟩
  · have ran : s.dev.cancelJob id .command = (s.dev.modSpool fun s =>
        { s with endings := s.endings ++ [⟨j.serial, .cancelled, .command⟩] }, none) := by
      rw [Dev.cancelJob, named]
      simp [Dev.endJobOrWait, busy]
    refine ⟨_, rfl, rfl, ?_⟩
    dsimp only
    rw [ran]
    exact ⟨rfl, rfl, Touches.then (touches_setEndings _ _) (touches_storeAnswer _ _)⟩
  · have applied := Dev.applyEndings_one waits free found
    have cleared := touches_setEndings s.dev fun _ => []
    have there : (s.dev.modSpool fun s => { s with endings := [] }).jobBySerial j.serial = some j := found
    have names : ((s.dev.modSpool fun s => { s with endings := [] }).spool.jobs.map (·.serial)).Nodup := serials
    have none : (s.dev.modSpool fun s => { s with endings := [] }).spool.endings = [] := rfl
    have quiet : (s.dev.modSpool fun s => { s with endings := [] }).agent = s.dev.agent := rfl
    have pool : (s.dev.modSpool fun s => { s with endings := [] }).pool = s.dev.pool := rfl
    have finished : (s.dev.modSpool fun s => { s with endings := [] }).spool.finished = s.dev.spool.finished := rfl
    have uptime : (s.dev.modSpool fun s => { s with endings := [] }).uptime = s.dev.uptime := rfl
    generalize (s.dev.modSpool fun s => { s with endings := [] }) = d at *
    obtain ⟨gone, freed, summed⟩ := Dev.endJob_facts there names o
    have framed := touches_endJob d j.serial o
    have told := touches_answerEnding (d.endJob j.serial o) w .ok
    generalize d.endJob j.serial o = e at *
    have still : e.agent.running = .none := by
      rw [← (framed .requests (by decide)).2, quiet]
      exact idle
    have silent : e.agent.answer = s.dev.agent.answer := by rw [← framed .answer (by decide), quiet]
    have left : (e.answerEnding w .ok).agent.running = .none := by cases w <;> simp [Dev.answerEnding, Dev.modAgent, still]
    have ran : s.dev.endingAfterExchange = e.answerEnding w .ok := by
      rw [Dev.endingAfterExchange, applied, Dev.resumeRequest_idle left]
    refine ⟨_, rfl, rfl, ?_⟩
    dsimp only
    rw [ran]
    refine ⟨?_, ?_, ?_, ?_, ?_, Touches.then (n := Piece.ending) cleared (Touches.then (n := Piece.ending) framed told)⟩
    · exact ((framed .endings (by decide)).trans (told .endings (by decide))).symm.trans none
    · exact (told.job (n := j.serial)).trans gone
    · rw [← told .finished (by decide), summed, finished, uptime]
    · rw [← told .pool (by decide), freed, pool]
    · cases w <;> simp [Dev.answerEnding, Dev.modAgent, silent]
  · have ran : s.dev.cancelJob id .command = (s.dev, some .noEntry) := by rw [Dev.cancelJob, unknown]
    exact congrArg (fun r : Dev × Option Status => Host.Outcome.next { s with
      dev := r.1.modAgent fun a => { a with answer := r.2.map fun st => ⟨opJobCancel, st, []⟩ } }) ran

end Sys2Proof.Machine
end

