-- ==== Sys2Proof/Proofs/PrinterTimers.lean ====
section
/-! The busy retry and the hold timer of a printer, and the setting of its station's role (R146, R160, R173, R179). -/

namespace Sys2Proof.Machine

open Sys2Proof

-- one proof after another: proofs that wait for each other take a thread each
set_option Elab.async false

variable {d e : Dev} {g : Seg} {s : State} {i n : Nat} {p : Printer} {j : Job}

/-! ### The end of a LOST printer's jobs -/

/-- A LOST or DISABLED printer whose hold timer is stopped, with its station and its enabling as another entry has
them. -/
def Outcast (i : Nat) (p : Printer) (d : Dev) : Prop := ∃ q, d.printer i = some q ∧
  (q.feed = .lost ∨ q.feed = .disabled) ∧ q.holdTimer = none ∧ q.seg = p.seg ∧ q.number = p.number ∧ q.enabled = p.enabled

theorem Spared.outcast (h : Spared i d e) (out : Outcast i p d) : Outcast i p e := by
  obtain ⟨q, found, feed, rest⟩ := out
  exact ⟨q, h q found (by rintro idle; simp [idle] at feed), feed, rest⟩

theorem Outcast.activeJobEnded (out : Outcast i p d) (k : Nat) : Outcast i p (d.activeJobEnded k) := by
  obtain ⟨q, found, feed, timer, rest⟩ := out
  by_cases same : k = i
  · subst same
    have told := Dev.modPrinter_here (d := d.endHeldFeed q.seg k) found fun p => { p with ready := none, sentMark := none }
    rw [Dev.activeJobEnded, found]
    dsimp only
    generalize ((d.endHeldFeed q.seg k).modPrinter k fun p => { p with ready := none, sentMark := none }) = e at *
    obtain lost | disabled := feed
    · rw [lost]
      dsimp only
      split
      · exact ⟨_, Dev.modPrinter_here told _, .inr rfl, rfl, rest⟩
      · exact ⟨_, told, .inl lost, timer, rest⟩
    · rw [disabled]
      exact ⟨_, told, .inr disabled, timer, rest⟩
  · exact ⟨q, (onePrinter_activeJobEnded d k i (Ne.symm same)).trans found, feed, timer, rest⟩

theorem Outcast.endJob (out : Outcast i p d) (n : Nat) (o : JobOutcome) : Outcast i p (d.endJob n o) := by
  cases found : d.jobBySerial n with
  | none =>
    have same : d.endJob n o = d := by rw [Dev.endJob, found]
    rwa [same]
  | some j =>
    have closed : Outcast i p (d.closeOut j o) := by
      obtain ⟨q, there, rest⟩ := out
      exact ⟨q, (Dev.closeOut_printer j o i).trans there, rest⟩
    rw [Dev.endJob_of found, Dev.afterJob]
    refine (spared_selectAll _).outcast ?_
    split
    · exact closed.activeJobEnded _
    · exact closed

/-- No DELIVER of a job with this name begins where none is in flight. -/
theorem Aside.jobInFlight (h : Aside d e) (free : d.jobInFlight n = false) : e.jobInFlight n = false := by
  rw [Dev.jobInFlight, List.any_eq_false] at free ⊢
  intro g hg
  obtain same | ended := (h.sched g).turn
  · rw [same]
    exact free g hg
  · simp [ended]

/-- The jobs of a list of serials end one after another, with none of their items in flight. -/
theorem foldl_endJobOrWait (o : JobOutcome) (w : Asker) (l : List Job) : ∀ d : Dev, (d.spool.jobs.map (·.serial)).Nodup →
    (∀ j ∈ l, d.jobInFlight j.serial = false) → Outcast i p d →
    Outcast i p (l.foldl (fun d j => d.endJobOrWait j.serial o w) d) ∧
    (l.foldl (fun d j => d.endJobOrWait j.serial o w) d).spool.jobs.map Job.holding =
      (d.spool.jobs.map Job.holding).filter fun h => !(l.any fun j => h.1 == j.serial) := by
  induction l with
  | nil => exact fun d _ _ out => ⟨out, (List.filter_eq_self.mpr fun _ _ => rfl).symm⟩
  | cons j l ih =>
    intro d serials free out
    have ended : d.endJobOrWait j.serial o w = d.endJob j.serial o :=
      if_neg (by simp [free j List.mem_cons_self])
    have holdings := Dev.endJob_holdings serials j.serial o
    have names : ((d.endJob j.serial o).spool.jobs.map (·.serial)).Nodup := by
      have first : (d.endJob j.serial o).spool.jobs.map (·.serial) =
          ((d.endJob j.serial o).spool.jobs.map Job.holding).map Prod.fst := by
        rw [List.map_map]
        rfl
      rw [first, holdings]
      refine ((List.filter_sublist).map _).nodup ?_
      rw [List.map_map]
      exact serials
    obtain ⟨stays, rest⟩ := ih (d.endJob j.serial o) names
      (fun k hk => (aside_endJob d j.serial o).jobInFlight (free k (List.mem_cons_of_mem _ hk))) (out.endJob _ _)
    rw [List.foldl_cons, ended]
    refine ⟨stays, rest.trans ?_⟩
    rw [holdings, List.filter_filter]
    exact List.filter_congr fun h _ => by simp [Bool.and_comm]

/-- The jobs of a printer that have ended, and the others with their chains. -/
theorem holdings_elsewhere {l m : List Job} {gone : List Job} (serials : (m.map (·.serial)).Nodup)
    (all : ∀ j, j ∈ gone ↔ j ∈ m ∧ j.printer = i)
    (left : l.map Job.holding = (m.map Job.holding).filter fun h => !(gone.any fun j => h.1 == j.serial)) :
    (∀ j ∈ l, j.printer ≠ i) ∧ (∀ j ∈ m, j.printer ≠ i → ∃ k ∈ l, k.serial = j.serial ∧ k.chain = j.chain) := by
  refine ⟨fun j hj here => ?_, fun j hj other => ?_⟩
  · have stays := left ▸ List.mem_map_of_mem (f := Job.holding) hj
    obtain ⟨before, apart⟩ := List.mem_filter.mp stays
    obtain ⟨k, hk, same⟩ := List.mem_map.mp before
    have printer : k.printer = i := (congrArg (fun h => h.2.1) same).trans here
    simp only [Job.holding, Bool.not_eq_true', List.any_eq_false, beq_iff_eq] at apart
    exact apart k ((all k).mpr ⟨hk, printer⟩) (congrArg Prod.fst same).symm
  · have stays : j.holding ∈ l.map Job.holding := by
      rw [left]
      refine List.mem_filter.mpr ⟨List.mem_map_of_mem hj, ?_⟩
      simp only [Job.holding, Bool.not_eq_true', List.any_eq_false, beq_iff_eq]
      intro k hk same
      obtain ⟨member, printer⟩ := (all k).mp hk
      exact other (List.inj_on_of_nodup_map serials hj member same ▸ printer)
    obtain ⟨k, hk, same⟩ := List.mem_map.mp stays
    exact ⟨k, hk, congrArg Prod.fst same, congrArg (fun h => h.2.2) same⟩

/-- Settles O50: a busy printer is offered its head block again, and every job of a printer held too long ends. -/
theorem printerTimersExpire : Obligations.PrinterTimersExpire := by
  refine ⟨fun i s p due j found waits timer active chain => ?_, fun i s p due found lost timer serials free => ?_⟩
  · have ran : s.dev.busyRetryExpiry i = (s.dev.reach due).enterFeeding i := by
      rw [Dev.busyRetryExpiry, found]
      dsimp only
      rw [waits, timer]
    have feeds := Dev.enterFeeding_of (d := s.dev.reach due) found active fun empty => absurd empty chain
    have fed := Dev.modPrinter_here (d := s.dev.reach due) found fun p =>
      { p with feed := .feeding, ready := none, busyTimer := none }
    have fedOne := onePrinter_modPrinter (s.dev.reach due) i fun p =>
      { p with feed := .feeding, ready := none, busyTimer := none }
    have framed := touches_modPrinter (s.dev.reach due) i fun p =>
      { p with feed := .feeding, ready := none, busyTimer := none }
    rw [feeds] at ran
    generalize ((s.dev.reach due).modPrinter i fun p => { p with feed := .feeding, ready := none, busyTimer := none }) = e at *
    have last := touches_modPrinter e i fun p => { p with ready := some ⟨j.chain.isEmpty, (s.dev.reach due).clock⟩ }
    refine ⟨_, rfl, rfl, ?_⟩
    dsimp only
    rw [ran]
    have full : j.chain.isEmpty = false := by simp [chain]
    refine ⟨((framed .clock (by decide)).trans (last .clock (by decide))).symm, ?_,
      fun k hk => (onePrinter_modPrinter e i _ k hk).trans (fedOne k hk),
      Touches.then (touches_reach s.dev due) (framed.trans last)⟩
    rw [Dev.modPrinter_here fed, full]
    rfl
  · have stopped := Dev.modPrinter_here (d := s.dev.reach due) found fun p => { p with holdTimer := none }
    have ran : s.dev.holdTimerExpiry i = (sortBy (fun a b : Job => decide (a.id < b.id))
        (((s.dev.reach due).modPrinter i fun p => { p with holdTimer := none }).spool.jobs.filter fun j =>
          j.printer == i)).foldl (fun d j => d.endJobOrWait j.serial (.failed .printerLost) .nobody)
        ((s.dev.reach due).modPrinter i fun p => { p with holdTimer := none }) := by
      rw [Dev.holdTimerExpiry, found]
      dsimp only
      rw [lost, timer]
    have framed := touches_modPrinter (s.dev.reach due) i fun p => { p with holdTimer := none }
    have begun : Touches [.clock, .printers] s.dev ((s.dev.reach due).modPrinter i fun p => { p with holdTimer := none }) :=
      Touches.then (touches_reach s.dev due) framed
    have flight : ∀ n, ((s.dev.reach due).modPrinter i fun p => { p with holdTimer := none }).jobInFlight n =
        s.dev.jobInFlight n := fun n => by
      have same := fun g => (framed .sched (by decide) g).symm
      simp only [Dev.jobInFlight, same]
      rfl
    have now : ((s.dev.reach due).modPrinter i fun p => { p with holdTimer := none }).clock = max s.dev.clock due :=
      (framed .clock (by decide)).symm
    have jobs : ((s.dev.reach due).modPrinter i fun p => { p with holdTimer := none }).spool.jobs = s.dev.spool.jobs :=
      (framed .jobs (by decide)).symm
    generalize ((s.dev.reach due).modPrinter i fun p => { p with holdTimer := none }) = d at *
    have all : ∀ j, j ∈ sortBy (fun a b : Job => decide (a.id < b.id)) (d.spool.jobs.filter fun j => j.printer == i) ↔
        j ∈ s.dev.spool.jobs ∧ j.printer = i := fun j => by
      rw [(sortBy_perm _ _).mem_iff, jobs]
      simp
    generalize sortBy (fun a b : Job => decide (a.id < b.id)) (d.spool.jobs.filter fun j => j.printer == i) = mine at *
    have ended : Touches (.endings :: Piece.spooling) d
        (mine.foldl (fun d j => d.endJobOrWait j.serial (.failed .printerLost) .nobody) d) :=
      Touches.fold (fun _ _ => touches_endJobOrWait _ _ _ _) _ _
    have out : Outcast i p d := ⟨_, stopped, .inl lost, rfl, rfl, rfl, rfl⟩
    obtain ⟨⟨q, there, -, still, rest⟩, holdings⟩ := foldl_endJobOrWait (.failed .printerLost) .nobody mine d
      (by rw [jobs]; exact serials) (fun j hj => (flight _).trans (free j ((all j).mp hj).1 ((all j).mp hj).2)) out
    rw [jobs] at holdings
    obtain ⟨noneLeft, others⟩ := holdings_elsewhere serials all holdings
    refine ⟨_, q, rfl, rfl, ?_⟩
    dsimp only
    rw [ran]
    refine ⟨(ended .clock (by decide)).symm.trans now, there, still, rest.1, rest.2.1, rest.2.2, noneLeft, others,
      fun empty => ?_, Touches.then (n := .clock :: .endings :: Piece.spooling) begun ended⟩
    have nothing : mine = [] := List.eq_nil_iff_forall_not_mem.mpr fun j hj => by
      have counted : j ∈ s.dev.spool.jobs.filter fun j => j.printer == i := by simpa using (all j).mp hj
      rw [Dev.jobCount_zero empty] at counted
      exact absurd counted List.not_mem_nil
    rw [nothing]
    exact begun

/-! ### The role of a printer's station -/

theorem JobsKept.jobCount (h : JobsKept d e) (i : Nat) : e.jobCount i = d.jobCount i := by
  have count : ∀ d : Dev, d.jobCount i = ((d.spool.jobs.map Job.holding).filter fun h => h.2.1 == i).length := fun d => by
    rw [List.filter_map, List.length_map]
    rfl
  have same : e.spool.jobs.map Job.holding = d.spool.jobs.map Job.holding := h
  rw [count, count, same]

theorem flushOne_keeps (d : Dev) (g : Seg) (f : DownFrame) : JobsKept d (d.flushOne g f) ∧ Spared i d (d.flushOne g f) := by
  have held := touches_endHeldDeliver d g f.fid
  have drops := touches_dropSeg ((d.endHeldDeliver g f.fid).removeFrame g f) g .flushed
  have removed : ∀ d : Dev, JobsKept d (d.removeFrame g f) ∧ Spared i d (d.removeFrame g f) := fun d => by
    have gone := touches_setDownq d g fun s => removeFirst (fun x => x.fid == f.fid) s.downq
    have freed := touches_freeTransit (d.modSeg g fun s => { s with downq := removeFirst (fun x => x.fid == f.fid) s.downq })
      f.blocks.length
    exact ⟨(gone.jobsKept.trans freed.jobsKept).trans (jobsKept_selectAll _),
      (gone.spared.trans freed.spared).trans (spared_selectAll _)⟩
  exact ⟨(held.jobsKept.trans (removed _).1).trans drops.jobsKept, (held.spared.trans (removed _).2).trans drops.spared⟩

theorem flush_keeps (d : Dev) (g : Seg) (q : DownFrame → Bool) : JobsKept d (d.flush g q) ∧ Spared i d (d.flush g q) := by
  have marked := touches_setDownq d g fun s => s.downq.map (Segment.flushMarked (d.seg g) q)
  exact ⟨marked.jobsKept.trans (JobsKept.fold (fun d f => (flushOne_keeps (i := i) d g f).1) _ _),
    marked.spared.trans (Spared.fold (fun d f => (flushOne_keeps d g f).2) _ _)⟩

/-- A changed entry is found by its name, and every other name finds what it found. -/
theorem Dev.modStation_byId {e : Station} (found : d.stationById n = some e) {f : Station → Station}
    (eid : ∀ e, (f e).eid = e.eid) : (d.modStation n f).stationById n = some (f e) ∧
    ∀ m, m ≠ n → (d.modStation n f).stationById m = d.stationById m := by
  refine ⟨find?_modifyFirst found ?_, fun m other => find?_modifyFirst_apart fun a _ here => ?_⟩
  · have here := List.find?_some found
    simpa [eid] using here
  · obtain rfl : a.eid = n := by simpa using here
    simp [eid, Ne.symm other]

theorem Dev.stationById_congr (same : e.stations = d.stations) (n : Nat) : e.stationById n = d.stationById n := by
  rw [Dev.stationById, same, Dev.stationById]

/-- With no DELIVER in flight that the flush reaches, no frame that it reaches is left (R93, R94). -/
theorem Dev.flush_clears {r : Nat → Bool} (nodup : ((d.seg g).downq.map (·.fid)).Nodup)
    (free : ((d.seg g).downq.any fun f => (d.seg g).inFlight f && r f.dest) = false) :
    ∀ f ∈ ((d.flush g fun f => r f.dest).seg g).downq, r f.dest = false := by
  intro x hx
  obtain ⟨f, hf, flies, rfl⟩ := (Dev.mem_flush_downq nodup _ x).mp hx
  have dest : ((d.seg g).flushMarked (fun f => r f.dest) f).dest = f.dest := by
    unfold Segment.flushMarked
    split <;> rfl
  rw [dest]
  refine Bool.eq_false_iff.mpr fun reached => ?_
  have still := List.any_eq_false.mp free f hf
  simp [flies reached, reached] at still

/-- Settles O49: the station of a printer that awaits its role is a PRINTER, with its frames and the broadcasts gone. -/
theorem printerTakesItsStation : Obligations.PrinterTakesItsStation := by
  intro i s p e found awaits lost calm there named jobless nodup
  have ran : s.dev.roleSet i = (((s.dev.flushForPrinter p.seg p.number).modStation e.eid fun e =>
      { e with role := .printer }).modPrinter i fun p =>
        { p with awaitingRole := false, feed := if p.enabled then .idle else .disabled, ready := none,
                 sentMark := none, failCount := 0, busyTimer := none, holdTimer := none,
                 disablePending := false }).select i := by
    rw [Dev.roleSet, found]
    dsimp only
    rw [if_pos (by simp [awaits, calm]), there]
  have flushed := touches_flushForPrinter s.dev p.seg p.number
  have backoff := touches_endBackoff (s.dev.flush p.seg fun f => f.dest == p.number || f.dest == 255) p.seg p.number
  obtain ⟨kept, spared⟩ := flush_keeps (i := i) s.dev p.seg fun f => f.dest == p.number || f.dest == 255
  have clear := Dev.flush_clears (r := fun n => n == p.number || n == 255) nodup calm
  have apart := oneQueue_flush s.dev p.seg fun f => f.dest == p.number || f.dest == 255
  have queue : ∀ h, ((s.dev.flushForPrinter p.seg p.number).seg h).downq =
      ((s.dev.flush p.seg fun f => f.dest == p.number || f.dest == 255).seg h).downq := fun h =>
    (backoff .downq (by decide) h).symm
  have count : (s.dev.flushForPrinter p.seg p.number).jobCount i = 0 :=
    ((kept.trans backoff.jobsKept).jobCount i).trans jobless
  have printer : (s.dev.flushForPrinter p.seg p.number).printer i = some p :=
    (spared.trans backoff.spared) p found (by simp [lost])
  have stations : (s.dev.flushForPrinter p.seg p.number).stations = s.dev.stations :=
    (flushed .stations (by decide)).symm
  have known : (s.dev.flushForPrinter p.seg p.number).stationById e.eid = some e :=
    (Dev.stationById_congr stations _).trans named
  generalize s.dev.flushForPrinter p.seg p.number = d at *
  obtain ⟨role, others⟩ := Dev.modStation_byId known (f := fun e => { e with role := .printer }) fun _ => rfl
  have set := touches_modStation d e.eid fun e => { e with role := .printer }
  have same : (d.modStation e.eid fun e => { e with role := .printer }).printer i = some p := printer
  have still : (d.modStation e.eid fun e => { e with role := .printer }).jobCount i = 0 := count
  generalize (d.modStation e.eid fun e => { e with role := .printer }) = k at *
  have settled := touches_modPrinter k i fun p =>
    { p with awaitingRole := false, feed := if p.enabled then .idle else .disabled, ready := none,
             sentMark := none, failCount := 0, busyTimer := none, holdTimer := none, disablePending := false }
  have here := Dev.modPrinter_here same fun p =>
    { p with awaitingRole := false, feed := if p.enabled then .idle else .disabled, ready := none,
             sentMark := none, failCount := 0, busyTimer := none, holdTimer := none, disablePending := false }
  have empty := (settled.jobsKept.jobCount i).trans still
  rw [Dev.select_jobless empty] at ran
  refine ⟨_, rfl, rfl, ?_⟩
  dsimp only
  rw [ran]
  have last : Touches [.stations, .printers] d _ := Touches.then set settled
  have entries := (settled .stations (by decide)).symm
  have frames := fun h => (last .downq (by decide) h).symm.trans (queue h)
  refine ⟨(Dev.stationById_congr entries _).trans role, fun m other => ?_, here, fun f hf => ?_,
    fun h hh => (frames h).trans (apart h hh), Touches.then (n := .stations :: Piece.flushing) flushed last⟩
  · exact ((Dev.stationById_congr entries _).trans (others m other)).trans (Dev.stationById_congr stations _)
  · rw [frames] at hf
    simpa using clear f hf

end Sys2Proof.Machine
end

