-- ==== Sys2Proof/Proofs/SettingsWritten.lean ====
section
/-! WRITE of the SETTINGS and SEGMENT entries: what a taken write leaves and what a refused one answers (R66, R130,
R199). -/

namespace Sys2Proof.Machine

open Sys2Proof

-- one proof after another: proofs that wait for each other take a thread each
set_option Elab.async false

variable {d e : Dev} {g : Seg} {s : State} {l : List Field}

/-! ### The answers of the table operations -/

/-- A write leaves a part and its answer, as a command of its own and as a WRITE of its table. -/
theorem writes_answer {t : Table} {code i : Byte} {a : Answer} (table : Table.ofCode code = some t)
    (ran : s.dev.writeTable t i.toNat l = a) :
    answer s 0x02#8 (s.dev.writeTable t i.toNat l) = .next { s with dev := Dev.answered 0x02#8 a } ∧
    answer s 0x02#8 (s.dev.writeOp code i l) = .next { s with dev := Dev.answered 0x02#8 a } := by
  have op : s.dev.writeOp code i l = s.dev.writeTable t i.toNat l := by rw [Dev.writeOp, table]
  rw [op, ran]
  exact ⟨rfl, rfl⟩

theorem touches_taken (fs : List FieldSpec) (l : List Field) (d : Dev) (stored : List (List Byte)) :
    Touches [.answer] d (Dev.answered 0x02#8 (taken fs l d stored)) := touches_storeAnswer d _

theorem namesAny_false {codes : List Nat} (unnamed : namesAny l codes = false) : ∀ c ∈ codes, names l c = false := by
  simpa [namesAny] using unnamed

theorem namesAny_of {codes : List Nat} (unnamed : ∀ c ∈ codes, names l c = false) : namesAny l codes = false := by
  simpa [namesAny] using unnamed

theorem given_of_unnamed {c : Nat} (unnamed : names l c = false) : given l c = none := by
  simpa [names] using unnamed

/-! ### SEGMENT -/

/-- A segment's settings written, with a cycle floor that takes effect at once out of service (R35, R130). -/
def Dev.segmentSet (d : Dev) (g : Seg) (l : List Field) : Dev :=
  if names l 3 && !d.inService g then
    (d.modSeg g fun s => { s with cfg := (d.seg g).cfg.written l }).modSched g fun s =>
      { s with floorInEffect := ((d.seg g).cfg.written l).cycleFloor }
  else d.modSeg g fun s => { s with cfg := (d.seg g).cfg.written l }

/-- What a taken WRITE of a SEGMENT entry leaves. -/
def Dev.segmentWritten (d : Dev) (g : Seg) (l : List Field) : Dev :=
  if namesAny l [11, 12] then (d.segmentSet g l).withdrawOutside g else d.segmentSet g l

theorem Dev.writeSegmentAt_taken (form : fieldsSound segmentSpec l = true)
    (sound : ((d.seg g).cfg.written l).sound g = true) : d.writeSegmentAt g l =
    taken segmentSpec l (d.segmentWritten g l) ((d.segmentWritten g l).segmentValues g) := by
  rw [Dev.writeSegmentAt, if_neg (by simp [form])]
  exact if_neg (by simp [sound])

theorem Dev.writeSegmentAt_refused (bad : fieldsSound segmentSpec l = false ∨ ((d.seg g).cfg.written l).sound g = false) :
    d.writeSegmentAt g l = (d, .range, []) := by
  unfold Dev.writeSegmentAt
  split
  · rfl
  · rename_i form
    exact if_pos (by simpa using bad.resolve_left (by simpa using form))

theorem Dev.segmentSet_seg (d : Dev) (g : Seg) (l : List Field) : (d.segmentSet g l).seg g = { d.seg g with
    cfg := (d.seg g).cfg.written l
    sched := { (d.seg g).sched with
      floorInEffect := if names l 3 = true ∧ d.inService g = false then ((d.seg g).cfg.written l).cycleFloor
        else (d.seg g).sched.floorInEffect } } := by
  have set := d.modSeg_seg g fun s => { s with cfg := (d.seg g).cfg.written l }
  unfold Dev.segmentSet
  by_cases named : names l 3 = true ∧ d.inService g = false
  · rw [if_pos (by simp [named]), if_pos named, Dev.modSched_seg, set]
  · rw [if_neg (by simpa using named), if_neg named, set]

theorem oneSeg_segmentSet (d : Dev) (g : Seg) (l : List Field) : OneSeg g d (d.segmentSet g l) := by
  unfold Dev.segmentSet
  split
  · exact (oneSeg_modSeg d g _).trans (oneSeg_modSched _ g _)
  · exact oneSeg_modSeg d g _

theorem touches_segmentSet (d : Dev) (g : Seg) (l : List Field) : Touches [.cfg, .sched] d (d.segmentSet g l) := by
  have set := touches_setCfg d g fun _ => (d.seg g).cfg.written l
  unfold Dev.segmentSet
  split
  · exact Touches.then set (touches_modSched _ _ _)
  · exact set.mono

theorem Dev.segmentWritten_segs (d : Dev) (g h : Seg) (l : List Field) :
    (d.segmentWritten g l).seg h = (d.segmentSet g l).seg h := by
  unfold Dev.segmentWritten
  split <;> rfl

theorem Dev.segmentWritten_aliases (d : Dev) (g : Seg) (l : List Field) : (d.segmentWritten g l).aliases =
    if namesAny l [11, 12] then d.aliases.filter fun a => !(a.kind == .dynamic && a.seg == g &&
      (decide (a.number < ((d.seg g).cfg.written l).aliasLow) || decide (((d.seg g).cfg.written l).aliasHigh < a.number)))
    else d.aliases := by
  have same : (d.segmentSet g l).aliases = d.aliases := (touches_segmentSet d g l .aliases (by decide)).symm
  have cfg : ((d.segmentSet g l).seg g).cfg = (d.seg g).cfg.written l := by rw [Dev.segmentSet_seg]
  unfold Dev.segmentWritten
  split
  · rw [Dev.withdrawOutside, cfg, Dev.withdrawAliases, same]
  · exact same

theorem touches_segmentWritten (d : Dev) (g : Seg) (l : List Field) :
    Touches [.cfg, .sched, .aliases] d (d.segmentWritten g l) := by
  have set := touches_segmentSet d g l
  unfold Dev.segmentWritten
  split
  · exact Touches.then set (touches_withdrawAliases _ _)
  · exact set.mono

/-- Settles O54: a sound write of a SEGMENT entry is taken with its floor and its range, and an unsound one is RANGE. -/
theorem segmentsAreWritten : Obligations.SegmentsAreWritten := by
  intro i g w s found
  refine ⟨fun form sound => ?_, fun v named => ?_, fun bad => ?_⟩
  · have ran : s.dev.writeTable .segment i.toNat w = taken segmentSpec w (s.dev.segmentWritten g w)
        ((s.dev.segmentWritten g w).segmentValues g) := by
      rw [← Dev.writeSegmentAt_taken form sound, Dev.writeTable, Dev.writeSegment, found]
    obtain ⟨alone, asWrite⟩ := writes_answer (code := 2#8) rfl ran
    have listed := s.dev.segmentWritten_aliases g w
    refine ⟨_, alone, asWrite, rfl,
      (s.dev.segmentWritten_segs g g w).trans (s.dev.segmentSet_seg g w), fun moved a => ?_, fun low high => ?_, rfl,
      fun h other => (s.dev.segmentWritten_segs g h w).trans (oneSeg_segmentSet s.dev g w h other), Touches.then (touches_segmentWritten _ _ _) (touches_taken _ _ _ _)⟩
    · have any : namesAny w [11, 12] = true := by simpa [namesAny] using moved
      rw [if_pos any] at listed
      show a ∈ (s.dev.segmentWritten g w).aliases ↔ _
      rw [listed, List.mem_filter]
      refine and_congr_right fun _ => ?_
      simp
      tauto
    · have none : namesAny w [11, 12] = false := by simp [namesAny, low, high]
      rw [if_neg (by simp [none])] at listed
      exact listed
  · show clampedOr w 9 10 3600 (s.dev.seg g).cfg.discoveryInterval = _
    rw [clampedOr, named]
    rfl
  · have ran : s.dev.writeTable .segment i.toNat w = (s.dev, .range, []) := by
      rw [← Dev.writeSegmentAt_refused bad, Dev.writeTable, Dev.writeSegment, found]
    exact writes_answer (code := 2#8) rfl ran

/-! ### SETTINGS -/

/-- What a taken WRITE of the SETTINGS entry leaves. -/
def Dev.settingsWritten (d : Dev) (l : List Field) : Dev :=
  ({ d with set := d.set.written l }).settingsEffects l ((d.set.written l).base != d.set.base)

theorem Dev.writeSettings_taken (form : fieldsSound settingsSpec l = true) (sound : (d.set.written l).sound = true)
    (quota : d.pool.spool ≤ (d.set.written l).spoolQuota)
    (free : (d.set.written l).base = d.set.base ∨ d.staticInProxy (d.set.written l).base = false) :
    d.writeSettings l = taken settingsSpec l (d.settingsWritten l) (d.settingsWritten l).settingsValues := by
  rw [Dev.writeSettings, if_neg (by simp [form])]
  dsimp only
  rw [if_neg (by simp [sound, quota]), if_neg]
  · rfl
  · obtain same | free := free
    · simp [same]
    · simp [free]

theorem Dev.writeSettings_refused (bad : fieldsSound settingsSpec l = false ∨ (d.set.written l).sound = false ∨
    (d.set.written l).spoolQuota < d.pool.spool) : d.writeSettings l = (d, .range, []) := by
  unfold Dev.writeSettings
  split
  · rfl
  · rename_i form
    exact if_pos (by simpa using bad.resolve_left (by simpa using form))

theorem Dev.writeSettings_inUse (form : fieldsSound settingsSpec l = true) (sound : (d.set.written l).sound = true)
    (quota : d.pool.spool ≤ (d.set.written l).spoolQuota) (moved : (d.set.written l).base ≠ d.set.base)
    (held : d.staticInProxy (d.set.written l).base = true) : d.writeSettings l = (d, .inUse, []) := by
  rw [Dev.writeSettings, if_neg (by simp [form])]
  dsimp only
  rw [if_neg (by simp [sound, quota])]
  exact if_pos (by simp [moved, held])

/-- A write that names no setting with an effect moves nothing but the base address's aliases. -/
theorem Dev.settingsEffects_base (quiet : namesAny l [4, 7, 8, 10, 11, 13, 14, 15, 16, 17, 18] = false) (moved : Bool) :
    d.settingsEffects l moved = if moved then d.withdrawInProxy else d := by
  have unnamed := namesAny_false quiet
  have pause : namesAny l [7, 8] = false := namesAny_of fun c hc => unnamed c (by simp at hc ⊢; omega)
  have pick : namesAny l [4, 14] = false := namesAny_of fun c hc => unnamed c (by simp at hc ⊢; omega)
  have tell : namesAny l [15, 16, 17, 18] = false := namesAny_of fun c hc => unnamed c (by simp at hc ⊢; omega)
  have forget := unnamed 10 (by simp)
  have idle := unnamed 11 (by simp)
  have close := unnamed 13 (by simp)
  simp [Dev.settingsEffects, pause, pick, tell, forget, idle, close]

/-- Settles O53: a sound write of the SETTINGS entry is taken, an unsound one is RANGE, and a base address that a STATIC
entry's target lies under is IN_USE. -/
theorem settingsAreWritten : Obligations.SettingsAreWritten := by
  intro w s
  have asked : s.dev.writeTable .settings (0#8 : Byte).toNat w = s.dev.writeSettings w := rfl
  refine ⟨fun form sound quota same => ?_, fun form sound quota moved => ⟨fun held => ?_, fun free quiet => ?_⟩,
    fun low => ?_, fun v named => ?_, fun v named => ?_, fun unnamed => ?_, fun bad => ?_⟩
  · obtain ⟨alone, asWrite⟩ := writes_answer (code := 1#8) rfl
      (asked.trans (Dev.writeSettings_taken form sound quota (.inl same)))
    have still : s.dev.settingsWritten w = ({ s.dev with set := s.dev.set.written w }).settingsEffects w false := by
      rw [Dev.settingsWritten, same]
      simp
    have effects := touches_settingsEffects { s.dev with set := s.dev.set.written w } w false
    have set := touches_setSettings s.dev (s.dev.set.written w)
    have taken := fun d => touches_taken settingsSpec w d d.settingsValues
    rw [still] at alone asWrite
    refine ⟨_, alone, asWrite, rfl, (effects .settings (by decide)).symm, rfl, fun quiet => ?_, ?_⟩
    · rw [Dev.settingsEffects_base quiet, if_neg Bool.false_ne_true]
      exact Touches.then set (taken _)
    · exact Touches.then (n := .settings :: .answer :: Piece.directing) set
        (Touches.then (n := .settings :: .answer :: Piece.directing) effects (taken _))
  · obtain ⟨a, ha, static, inside⟩ := held
    have held : s.dev.staticInProxy (s.dev.set.written w).base = true := List.any_eq_true.mpr ⟨a, ha, by simp [static, inside]⟩
    exact writes_answer (code := 1#8) rfl (asked.trans (Dev.writeSettings_inUse form sound quota moved held))
  · have clear : s.dev.staticInProxy (s.dev.set.written w).base = false := List.any_eq_false.mpr fun a ha both => by
      simp only [Bool.and_eq_true, beq_iff_eq] at both
      exact absurd (free a ha both.1) (by simp [both.2])
    obtain ⟨alone, asWrite⟩ := writes_answer (code := 1#8) rfl
      (asked.trans (Dev.writeSettings_taken form sound quota (.inr clear)))
    have still : s.dev.settingsWritten w = ({ s.dev with set := s.dev.set.written w }).withdrawInProxy := by
      rw [Dev.settingsWritten, Dev.settingsEffects_base quiet]
      exact if_pos (by simp [moved])
    rw [still] at alone asWrite
    have set := touches_setSettings s.dev (s.dev.set.written w)
    have withdrawn := touches_withdrawAliases { s.dev with set := s.dev.set.written w } fun a =>
      a.kind == .dynamic && inProxy (s.dev.set.written w).base a.target
    refine ⟨_, alone, asWrite, rfl, rfl, fun a => ?_, rfl,
      Touches.then (n := [.settings, .aliases, .answer]) set (Touches.then (n := [.settings, .aliases, .answer]) withdrawn
        (touches_taken settingsSpec w _ _))⟩
    show a ∈ s.dev.aliases.filter _ ↔ _
    rw [List.mem_filter]
    refine and_congr_right fun _ => ?_
    simp [imp_iff_not_or]
  · simp [Settings.sound, low]
  · show clampedOr w 2 0 512 s.dev.set.coaxFloor = _
    rw [clampedOr, named]
    rfl
  · show clampedOr w 14 1 256 s.dev.set.streamBlocks = _
    rw [clampedOr, named]
    rfl
  · show clampedOr w 2 0 512 s.dev.set.coaxFloor = _
    rw [clampedOr, unnamed]
  · exact writes_answer (code := 1#8) rfl (asked.trans (Dev.writeSettings_refused bad))

end Sys2Proof.Machine
end

