-- ==== Sys2Proof/Proofs/TablesWritten.lean ====
section
/-! WRITE and DELETE of the STATION, ALIAS and PRINTER tables: what a taken one leaves and what a refused one answers
(R59, R60, R80, R81, R146, R147). -/

namespace Sys2Proof.Machine

open Sys2Proof

-- one proof after another: proofs that wait for each other take a thread each
set_option Elab.async false

variable {d e : Dev} {g : Seg} {s : State} {l : List Field}

/-! ### Entries put in their order -/

section Lists

variable {α : Type} {q : α → Bool} {lt : α → α → Bool} {a : α} {as : List α}

theorem find?_insertBy_apart (apart : q a = false) : (insertBy lt a as).find? q = as.find? q := by
  induction as with
  | nil => simp [insertBy, apart]
  | cons b as ih =>
    rw [insertBy]
    split
    · simp [List.find?_cons, apart]
    · simp [List.find?_cons, ih]

/-- An entry that is the only one to be found is found. -/
theorem find?_of_only (member : a ∈ as) (here : q a = true) (only : ∀ b ∈ as, q b = true → b = a) :
    as.find? q = some a := by
  obtain ⟨b, found⟩ := Option.isSome_iff_exists.mp (List.find?_isSome.mpr ⟨a, member, here⟩)
  rw [found, only b (List.mem_of_find?_eq_some found) (List.find?_some found)]

theorem mem_insertBy {b : α} : b ∈ insertBy lt a as ↔ b = a ∨ b ∈ as := by
  rw [(insertBy_perm lt a as).mem_iff, List.mem_cons]

/-- An entry put among entries that are not found is found. -/
theorem find?_insertBy_new (none : as.find? q = none) (here : q a = true) : (insertBy lt a as).find? q = some a :=
  find?_of_only (mem_insertBy.mpr (.inl rfl)) here fun b hb found => by
    obtain same | hb := mem_insertBy.mp hb
    · exact same
    · exact absurd found (List.find?_eq_none.mp none b hb)

end Lists

/-! ### DELETE -/

/-- A removal leaves a part and its answer, as a command of its own and as a DELETE of its table. -/
theorem deletes_answer {t : Table} {code i : Byte} {r : Dev × Status} (table : Table.ofCode code = some t)
    (ran : s.dev.deleteIn t i.toNat = r) :
    answer s 0x03#8 (bare (s.dev.deleteOp code i)) = .next { s with dev := r.1.says 0x03#8 r.2 } := by
  rw [Dev.deleteOp, table]
  dsimp only
  rw [ran]
  rfl

/-! ### STATION -/

theorem StationsOk.station_of_mem (ok : StationsOk d) {e : Station} (he : e ∈ d.stations) :
    d.station e.seg e.number = some e :=
  find?_of_only he (by simp) fun b hb here => by
    simp only [Bool.and_eq_true, beq_iff_eq] at here
    exact List.inj_on_of_nodup_map ok.places hb he (Prod.ext here.1 here.2)

theorem Dev.conflictCheck_free {n : Nat} (free : d.aliasAt g n = none) : d.conflictCheck g n = d := by
  rw [Dev.conflictCheck, free]

/-- A new entry is found at its place, and every other place is as it was. -/
theorem Dev.createStation_station {e : Station} (free : d.station e.seg e.number = none) :
    (d.createStation e).station e.seg e.number = some { e with eid := d.nextEid } ∧
    ∀ h m, (h, m) ≠ (e.seg, e.number) → (d.createStation e).station h m = d.station h m := by
  have same : (d.createStation e).stations = (d.insertStation e).stations :=
    (touches_conflictCheck _ _ _ .stations (by decide)).symm
  refine ⟨(Dev.station_congr same _ _).trans (find?_insertBy_new free (by simp)), fun h m other =>
    (Dev.station_congr same _ _).trans (find?_insertBy_apart ?_)⟩
  rw [Bool.eq_false_iff]
  simp only [ne_eq, Bool.and_eq_true, beq_iff_eq]
  rintro ⟨rfl, rfl⟩
  exact other rfl

theorem natOr_given {c old : Nat} (unnamed : given l c = none) : natOr l c old = old := by
  rw [natOr, unnamed]

/-- What a taken write of a new entry leaves (R59). -/
theorem Dev.writeNewStation_taken {n : Nat} {sv nv : List Byte} (seg : given l 1 = some sv) (number : given l 2 = some nv)
    (known : segOf (ofBe sv) = some g) (counted : ofBe nv = n) (low : 1 ≤ n) (high : n ≤ 254)
    (free : d.station g n = none) (room : d.stations.length < 256) : d.writeNewStation l =
    taken stationSpec l (d.createStation (d.writtenStation g n l .configured 4 none))
      ((d.createStation (d.writtenStation g n l .configured 4 none)).stationValuesAt g n) := by
  subst counted
  rw [Dev.writeNewStation, seg, number]
  dsimp only
  rw [known]
  dsimp only
  rw [if_neg (by simp [stationNumber, low, high]), if_neg (by simp [free])]
  exact if_neg (Nat.not_le.mpr room)

theorem Dev.writeStation_form (form : fieldsSound stationSpec l = true) (origin : natOr l 5 0 ≤ 1) (i : Nat) :
    d.writeStation i l = match d.stations[i]? with
      | some e => d.writeOldStation e l
      | none => d.writeNewStation l := by
  unfold Dev.writeStation
  exact (if_neg (by simp [form, origin])).trans rfl

/-- A write that keeps an entry's place changes it there (R59). -/
theorem Dev.writeOldStation_kept {e : Station} (seg : given l 1 = none) (number : given l 2 = none) (low : 1 ≤ e.number)
    (high : e.number ≤ 254) : d.writeOldStation e l = d.changeStation e l := by
  rw [Dev.writeOldStation, natOr_given seg, natOr_given number, (by cases e.seg <;> rfl : segOf (segNat e.seg) = some e.seg)]
  dsimp only
  rw [if_neg (by simp [stationNumber, low, high])]
  exact if_pos ⟨rfl, rfl⟩

/-- Settles O55: a STATION write creates or changes an entry, and a DELETE removes one that no printer names. -/
theorem stationsAreWrittenAndDeleted : Obligations.StationsAreWrittenAndDeleted := by
  refine ⟨fun i w s g n sv nv form origin past seg number known counted low high free room => ?_,
    fun i w s e ok form origin there noSeg noNumber low high => ?_, fun i s => ⟨fun e ok there free => ?_,
      fun e k there named => ?_, fun past => ?_⟩⟩
  · have ran : s.dev.writeTable .station i.toNat w =
        taken stationSpec w (s.dev.createStation (s.dev.writtenStation g n w .configured 4 none))
          ((s.dev.createStation (s.dev.writtenStation g n w .configured 4 none)).stationValuesAt g n) := by
      rw [← Dev.writeNewStation_taken seg number known counted low high free room, Dev.writeTable,
        Dev.writeStation_form form origin, past]
    obtain ⟨alone, asWrite⟩ := writes_answer (code := 3#8) rfl ran
    have written : (s.dev.writtenStation g n w .configured 4 none).seg = g ∧
        (s.dev.writtenStation g n w .configured 4 none).number = n := ⟨rfl, rfl⟩
    obtain ⟨here, others⟩ := Dev.createStation_station (d := s.dev) (e := s.dev.writtenStation g n w .configured 4 none) free
    have stored : (s.dev.createStation (s.dev.writtenStation g n w .configured 4 none)).stationValuesAt g n = Station.values
        { s.dev.writtenStation g n w .configured 4 none with eid := s.dev.nextEid } := by
      rw [Dev.stationValuesAt]
      exact congrArg (fun o => match o with | some e => Station.values e | none => []) here
    refine ⟨_, _, alone, asWrite, rfl, here, rfl, rfl, rfl, fun unnamed => ?_, fun unnamed => ?_, fun v named => ?_,
      fun unnamed => ?_, rfl, rfl, rfl, rfl, rfl, others, fun clear => ?_, ?_, ?_⟩
    · show originOf (natOr w 5 1) = _
      rw [natOr_given unnamed]
      rfl
    · show clampedOr w 7 0 15 4 = _
      rw [clampedOr, unnamed]
    · show clampedOr w 7 0 15 4 = _
      rw [clampedOr, named]
      exact Nat.zero_max _
    · show tapOr w none = _
      rw [tapOr, unnamed]
    · have apart : (s.dev.insertStation (s.dev.writtenStation g n w .configured 4 none)).conflictCheck g n =
          s.dev.insertStation (s.dev.writtenStation g n w .configured 4 none) := Dev.conflictCheck_free clear
      have same := congrArg Dev.aliases apart
      exact same
    · exact congrArg (fun v => some (⟨0x02#8, writeStatus stationSpec w, fieldResults stationSpec w v⟩ : OpResult)) stored
    · exact Touches.then (n := .stations :: .names :: .answer :: Piece.aliasing) (touches_insertStation _ _)
        (Touches.then (n := .stations :: .names :: .answer :: Piece.aliasing) (touches_conflictCheck _ _ _)
          (touches_taken stationSpec w _ _))
  · have found := ok.station_of_mem (List.mem_of_getElem? there)
    have kept : s.dev.changeStation e w = taken stationSpec w (s.dev.modStation e.eid fun e => { e with
        origin := .configured, weight := clampedOr w 7 0 15 e.weight, tap := tapOr w e.tap })
        ((s.dev.modStation e.eid fun e => { e with
          origin := .configured, weight := clampedOr w 7 0 15 e.weight, tap := tapOr w e.tap }).stationValuesAt e.seg
            e.number) := by
      rw [Dev.changeStation, origin]
      rfl
    have coded : natOr w 5 0 ≤ 1 := by
      cases named : given w 5 with
      | none => simp [natOr_given named]
      | some v =>
        rw [natOr, named] at origin ⊢
        exact origin.le
    have ran := Dev.writeStation_form (d := s.dev) form coded i.toNat
    rw [there] at ran
    have writes := ran.trans ((Dev.writeOldStation_kept noSeg noNumber low high).trans kept)
    obtain ⟨alone, asWrite⟩ := writes_answer (t := .station) (code := 3#8) rfl writes
    obtain ⟨here, others⟩ := Dev.modStation_station ok.eids found (f := fun e => { e with
      origin := .configured, weight := clampedOr w 7 0 15 e.weight, tap := tapOr w e.tap }) fun _ => ⟨rfl, rfl⟩
    exact ⟨_, alone, asWrite, rfl, here, others,
      Touches.then (n := [.stations, .answer]) (touches_modStation _ _ _) (touches_taken stationSpec w _ _)⟩
  · have ran : s.dev.deleteStation i.toNat = (s.dev.removeStation e, .ok) := by
      rw [Dev.deleteStation, there]
      exact if_neg (by simp [free])
    have inTable : s.dev.deleteIn .station i.toNat = (s.dev.removeStation e, .ok) := by
      exact (if_neg (Nat.not_le.mpr i.isLt)).trans ran
    have found := ok.station_of_mem (List.mem_of_getElem? there)
    obtain ⟨gone, others⟩ := ok.station_removed found (s.dev.removeStation_stations e)
    exact ⟨_, answer_bare ran, deletes_answer (code := 3#8) rfl inTable, rfl, rfl, gone, others,
      Touches.then (n := .answer :: Piece.directing) (touches_removeStation _ _) (touches_says _ _ _)⟩
  · have ran : s.dev.deleteStation i.toNat = (s.dev, .inUse) := by
      rw [Dev.deleteStation, there]
      exact if_pos (by simp [named])
    exact answer_bare ran
  · have ran : s.dev.deleteStation i.toNat = (s.dev, .noEntry) := by rw [Dev.deleteStation, past]
    exact answer_bare ran

/-! ### ALIAS -/

theorem mem_addAlias {a b : AliasEntry} : b ∈ (d.addAlias a).aliases ↔ b = a ∨ b ∈ d.aliases := mem_insertBy

/-- With room in the table a taken write of a new entry puts it there, where nothing is left that clashes with it (R80). -/
theorem Dev.putAlias_new (room : d.aliases.length < 128) (n : Nat) (x : Target) : d.putAlias none g n x =
    (d.clearForAlias none g n x).addAlias ⟨g, n, .static, x, .active, d.uptime, d.uptime⟩ := by
  have fewer : (d.clearForAlias none g n x).aliases.length < Config.aliasMax :=
    ((List.length_filter_le _ _).trans (List.length_filter_le _ _)).trans_lt room
  have spare : (d.clearForAlias none g n x).roomForAlias = d.clearForAlias none g n x := if_pos fewer
  rw [Dev.putAlias_eq]
  dsimp only
  rw [spare]

theorem mem_clearForAlias {b : AliasEntry} {n : Nat} {x : Target} : b ∈ (d.clearForAlias none g n x).aliases ↔
    b ∈ d.aliases ∧ ¬ (b.kind = .dynamic ∧ b.seg = g ∧ (b.number = n ∨ b.target = x)) := by
  show b ∈ List.filter _ (List.filter _ d.aliases) ↔ _
  rw [List.mem_filter, List.mem_filter, and_assoc]
  refine and_congr_right fun _ => ?_
  simp
  tauto

/-- Settles O56: an ALIAS write places its entry and withdraws what clashes with it, and a DELETE withdraws one. -/
theorem aliasesAreWrittenAndDeleted : Obligations.AliasesAreWrittenAndDeleted := by
  refine ⟨fun i w s g n x small form kind past asked low high target granted room => ?_,
    fun i s small => ⟨fun a there => ?_, fun past => ?_⟩⟩
  · have ran : s.dev.writeTable .aliases i.toNat w =
        taken aliasSpec w (s.dev.putAlias none g n x) ((s.dev.putAlias none g n x).aliasValuesAt g n) := by
      rw [Dev.writeTable, Dev.writeAlias, if_neg (by simp [form, kind, Table.indices, small]), past]
      dsimp only
      rw [asked]
      dsimp only
      rw [if_neg (by simp [stationNumber, low, high, target]), granted]
    obtain ⟨alone, asWrite⟩ := writes_answer (code := 4#8) rfl ran
    have put := Dev.putAlias_new (d := s.dev) (g := g) room n x
    have here : (s.dev.putAlias none g n x).aliasAt g n = some ⟨g, n, .static, x, .active, s.dev.uptime, s.dev.uptime⟩ := by
      rw [put]
      refine find?_of_only (mem_addAlias.mpr (.inl rfl)) (by simp) fun b hb found => ?_
      simp only [Bool.and_eq_true, beq_iff_eq] at found
      obtain same | hb := mem_addAlias.mp hb
      · exact same
      · obtain ⟨-, apart⟩ := clearForAlias_apart granted b hb
        exact absurd found.2 (apart (by simp) found.1).1
    have stored : (s.dev.putAlias none g n x).aliasValuesAt g n =
        AliasEntry.values ⟨g, n, .static, x, .active, s.dev.uptime, s.dev.uptime⟩ := by
      rw [Dev.aliasValuesAt, here]
    refine ⟨_, alone, asWrite, rfl, here, fun b => ?_,
      congrArg (fun v => some (⟨0x02#8, writeStatus aliasSpec w, fieldResults aliasSpec w v⟩ : OpResult)) stored, ?_⟩
    · show b ∈ (s.dev.putAlias none g n x).aliases ↔ _
      rw [put]
      exact mem_addAlias.trans (or_congr_right mem_clearForAlias)
    · have framed : Touches [.aliases] s.dev (s.dev.putAlias none g n x) := by
        rw [put]
        exact (touches_clearForAlias _ _ _ _ _).trans (touches_addAlias _ _)
      exact Touches.then framed (touches_taken aliasSpec w _ _)
  · have ran : s.dev.deleteAlias i.toNat = (s.dev.withdrawAlias a.seg a.number, .ok) := by
      refine (if_neg (Nat.not_le.mpr small)).trans ?_
      rw [there]
    have inTable : s.dev.deleteIn .aliases i.toNat = (s.dev.withdrawAlias a.seg a.number, .ok) :=
      (if_neg (Nat.not_le.mpr small)).trans ran
    refine ⟨_, answer_bare ran, deletes_answer (code := 4#8) rfl inTable, rfl, rfl, fun b => ?_,
      Touches.then (touches_withdrawAlias _ _ _) (touches_says _ _ _)⟩
    show b ∈ List.filter _ s.dev.aliases ↔ _
    rw [List.mem_filter]
    refine and_congr_right fun _ => ?_
    simp [imp_iff_not_or]
  · have ran : s.dev.deleteAlias i.toNat = (s.dev, .noEntry) := by
      refine (if_neg (Nat.not_le.mpr small)).trans ?_
      rw [past]
    exact answer_bare ran

/-! ### PRINTER -/

/-- A taken write of a new printer entry places it at its defaults and flushes for it (R94, R146). -/
theorem Dev.writePrinter_new {i n : Nat} {v : List Byte} (small : i < 8) (form : fieldsSound printerSpec l = true)
    (named : given l 1 = some v) (seg : segOf (v.getD 0 0#8).toNat = some g) (number : (v.getD 1 0#8).toNat = n)
    (low : 1 ≤ n) (high : n ≤ 254) (empty : d.printer i = none) {e : Station} (found : d.station g n = some e)
    (free : d.printerAt g n = none) : d.writePrinter i l =
    taken printerSpec l ((d.setPrinter i (some ((Printer.fresh g n).written l))).flushForPrinter g n)
      (((d.setPrinter i (some ((Printer.fresh g n).written l))).flushForPrinter g n).printerValuesAt i) := by
  have placed : d.placePrinter i ((Printer.fresh g n).written l) =
      (d.setPrinter i (some ((Printer.fresh g n).written l))).flushForPrinter g n := by
    rw [Dev.placePrinter, empty]
    rfl
  unfold Dev.writePrinter
  refine (if_neg (by simp [form, Config.printerMax, small])).trans ?_
  rw [named]
  dsimp only
  rw [seg]
  dsimp only
  rw [number, if_pos (stationNumber_iff.mpr ⟨low, high⟩), Dev.writePrinterTo, if_neg (by simp [found]), if_neg (by simp [free]), empty]
  dsimp only
  rw [placed]

/-- A frame left for a station that a printer entry comes to name, or a broadcast, is one that the flush has marked
(R93, R94). -/
theorem Dev.flushForPrinter_marks {n : Nat} (nodup : ((d.seg g).downq.map (·.fid)).Nodup) :
    ∀ f ∈ ((d.flushForPrinter g n).seg g).downq, f.dest = n ∨ f.dest = 255 → f.flushMark = true := by
  intro f hf dest
  have same : ((d.flushForPrinter g n).seg g).downq = ((d.flush g fun f => f.dest == n || f.dest == 255).seg g).downq :=
    (touches_endBackoff _ _ _ .downq (by decide) g).symm
  rw [same] at hf
  exact Dev.flush_marks (r := fun m => m == n || m == 255) nodup f hf (by simpa using dest)

/-- Settles O57: a PRINTER write places an entry and flushes for it, and a DELETE returns its station. -/
theorem printersAreWrittenAndDeleted : Obligations.PrintersAreWrittenAndDeleted := by
  refine ⟨fun i w s v g n e small places form named seg number low high empty found free nodup => ?_,
    fun i s => ⟨fun p e small ok there jobless found origin => ?_, fun p small there busy => ?_, fun large => ?_⟩⟩
  · have ran : s.dev.writeTable .printer i.toNat w = _ :=
      Dev.writePrinter_new small form named seg number low high empty found free
    obtain ⟨alone, asWrite⟩ := writes_answer (code := 5#8) rfl ran
    have set := touches_setPrinter s.dev i.toNat (some ((Printer.fresh g n).written w))
    have placed : (s.dev.setPrinter i.toNat (some ((Printer.fresh g n).written w))).printer i.toNat =
        some ((Printer.fresh g n).written w) := by
      rw [Dev.setPrinter_printer]
      simp [places, small]
    have queue : ((s.dev.setPrinter i.toNat (some ((Printer.fresh g n).written w))).seg g).downq = (s.dev.seg g).downq := rfl
    have clear := Dev.flushForPrinter_marks (d := s.dev.setPrinter i.toNat (some ((Printer.fresh g n).written w)))
      (g := g) (n := n) nodup
    generalize (s.dev.setPrinter i.toNat (some ((Printer.fresh g n).written w))) = d at *
    have flushed := touches_flushForPrinter d g n
    have backoff := touches_endBackoff (d.flush g fun f => f.dest == n || f.dest == 255) g n
    have here : (d.flushForPrinter g n).printer i.toNat = some ((Printer.fresh g n).written w) :=
      ((flush_keeps d g fun f => f.dest == n || f.dest == 255).2.trans backoff.spared) _ placed (by simp [Printer.written, Printer.fresh])
    exact ⟨_, _, alone, asWrite, rfl, here, rfl, rfl, rfl, rfl, rfl, rfl, rfl, rfl, rfl, rfl, clear, rfl,
      Touches.then (n := .answer :: Piece.flushing) set
        (Touches.then (n := .answer :: Piece.flushing) flushed (touches_taken printerSpec w _ _))⟩
  · have same : (s.dev.setPrinter i.toNat none).station p.seg p.number = some e := found
    obtain ⟨here, others⟩ := Dev.modStation_station (d := s.dev.setPrinter i.toNat none) ok.eids same
      (f := fun e => { e with role := .terminal }) fun _ => ⟨rfl, rfl⟩
    have keeps : ((s.dev.setPrinter i.toNat none).modStation e.eid fun e => { e with role := .terminal }).forgetAt p.seg
        p.number = (s.dev.setPrinter i.toNat none).modStation e.eid fun e => { e with role := .terminal } :=
      Dev.forgetAt_stays fun x hx => by
        obtain rfl := Option.some.inj (here.symm.trans hx)
        simp [Dev.forgetPast, Dev.forgettable, origin]
    have ran : s.dev.deletePrinter i.toNat =
        ((s.dev.setPrinter i.toNat none).modStation e.eid fun e => { e with role := .terminal }, .ok) := by
      refine (if_neg (Nat.not_le.mpr small)).trans ?_
      rw [there]
      dsimp only
      rw [if_neg (by simp [jobless]), Dev.returnStation, same]
      dsimp only
      rw [keeps]
    have inTable : s.dev.deleteIn .printer i.toNat = _ := (if_neg (Nat.not_le.mpr small)).trans ran
    have gone : (s.dev.setPrinter i.toNat none).printer i.toNat = none := by
      rw [Dev.setPrinter_printer]
      simp [Dev.printer_lt there]
    have apart : OnePrinter i.toNat s.dev (s.dev.setPrinter i.toNat none) := fun k hk => by
      rw [Dev.setPrinter_printer, if_neg fun both => hk both.1.symm]
    exact ⟨_, answer_bare ran, deletes_answer (t := .printer) (code := 5#8) rfl inTable, rfl, rfl, gone, here, apart, others,
      Touches.then (n := [.printers, .stations, .answer]) (touches_setPrinter _ _ _)
        (Touches.then (n := [.printers, .stations, .answer]) (touches_modStation _ _ _) (touches_says _ _ _))⟩
  · have ran : s.dev.deletePrinter i.toNat = (s.dev, .inUse) := by
      refine (if_neg (Nat.not_le.mpr small)).trans ?_
      rw [there]
      exact if_pos busy
    exact answer_bare ran
  · exact answer_bare (if_pos large)

end Sys2Proof.Machine
end

