-- ==== Sys2Proof/Proofs/Requests.lean ====
section
/-! Requests of one operation that only reads (R194, R196, R203, R208). -/

namespace Sys2Proof.Machine

open Sys2Proof

-- one proof after another: proofs that wait for each other take a thread each
set_option Elab.async false

variable {d e : Dev} {g : Seg} {s : State}

/-- The part while one request with its results is in progress. -/
def Dev.serving (d : Dev) (q : Request) (qs : List Request) (rs : List OpResult) : Dev :=
  d.modAgent fun a =>
    { a with queue := qs, running := some { src := q.src, tag := q.tag, results := rs, rest := [], waiting := false,
                                            answer := none, restart := false } }

/-- The part once its request has been answered. -/
def Dev.served (d : Dev) (qs : List Request) : Dev := d.modAgent fun a => { a with queue := qs, running := none }

theorem touches_served (d : Dev) (qs : List Request) : Touches [.requests] d (d.served qs) := by
  intro p hp; cases p <;> first | exact absurd (Piece.mem_of rfl) hp | simp [Piece.same, Dev.served]

/-- One result that fits is the whole of a response (R208). -/
theorem fittingResults_one {r : OpResult} (fits : 4 + r.data.length ≤ responseRoom) :
    fittingResults responseRoom [r] = [r] := if_pos fits

/-- The response to a request of one operation (R194, R208). -/
def Dev.replyTo (d : Dev) (q : Request) (r : OpResult) : UpFrame :=
  { kind := .response, dst := q.src, src := d.ownAddr, etherType := d.set.mgmtType,
    body := mgmtHeader q.tag.toNat 2 1 r.bytes.length ++ r.bytes, blocks := [] }

theorem Dev.finishRequest_one {q : Request} {qs : List Request} {r : OpResult} (fits : 4 + r.data.length ≤ responseRoom)
    (room : d.uplinkRoom = true) : (d.serving q qs [r]).finishRequest = (d.served qs).placeUp (d.replyTo q r) := by
  have response : (d.serving q qs [r]).response { src := q.src, tag := q.tag, results := [r], rest := []
                                                  waiting := false, answer := none, restart := false } = d.replyTo q r := by
    rw [Dev.response]
    dsimp only
    rw [fittingResults_one fits]
    simp [Dev.replyTo]
    exact ⟨rfl, rfl⟩
  have finished : (d.serving q qs [r]).finishRequest = (d.served qs).offerUp ((d.serving q qs [r]).response
      { src := q.src, tag := q.tag, results := [r], rest := [], waiting := false, answer := none, restart := false }) :=
    rfl
  rw [finished, response]
  exact if_pos room

/-- A request of one operation that leaves the part as it is gets its answer at once. -/
theorem Dev.runRequest_one {q : Request} {qs : List Request} {op : Op} {st : Status} {data : List Byte}
    (idle : d.agent.running = none) (queue : d.agent.queue = q :: qs) (ops : q.ops = [op]) (known : knownOp op.code = true)
    (restart : op.code ≠ opRestart) (cancel : op.code ≠ opJobCancel) (small : 4 + (d.serving q qs []).opRoom op ≤ responseRoom)
    (ran : (d.serving q qs []).runPlain op = (d.serving q qs [], st, data)) (fits : 4 + data.length ≤ responseRoom)
    (room : d.uplinkRoom = true) :
    d.runRequest = (d.served qs).placeUp (d.replyTo q ⟨op.code, st, data⟩) := by
  have begun : d.runRequest = Dev.runOps q.ops (d.serving q qs []) := by
    rw [Dev.runRequest, idle, queue]
    rfl
  have spacious : (d.serving q qs []).shortOfRoom op = false :=
    decide_eq_false (by simpa [resultsLength] using small)
  have last : (d.serving q qs []).pushResult op st data = d.serving q qs [⟨op.code, st, data⟩] := rfl
  have going : (d.serving q qs []).restartOrdered = false := rfl
  rw [begun, ops, Dev.runOps, if_neg (by simp [going]), if_neg (by simp [known]), if_neg (by simp [spacious]),
    if_neg restart, if_neg cancel, ran]
  dsimp only
  rw [last, Dev.runOps]
  exact Dev.finishRequest_one fits room

/-- A READ does not see the requests (R196). -/
theorem Dev.readOp_serving (d : Dev) (q : Request) (qs : List Request) (rs : List OpResult) (table index : Byte) :
    (d.serving q qs rs).readOp table index = (d.serving q qs rs, (d.readOp table index).2) := by
  unfold Dev.readOp
  cases Table.ofCode table with
  | none => rfl
  | some t =>
    have same : (d.serving q qs rs).entryValues t index.toNat = d.entryValues t index.toNat := by cases t <;> rfl
    dsimp only
    rw [same]
    split
    · rfl
    · split <;> rfl

/-- Settles O51: a request of one READ, or of one IDENT, is answered to its sender with its tag. -/
theorem requestsAreAnswered : Obligations.RequestsAreAnswered := by
  intro dt s q qs idle queue ok link room d reply
  have spare : d.uplinkRoom = true := uplinkRoom_iff.mpr ⟨link, room⟩
  have framed : ∀ r, Touches [.clock, .requests, .upQueue, .transmit] s.dev ((d.served qs).placeUp (d.replyTo q r)) :=
    fun r => Touches.then (n := [.clock, .requests, .upQueue, .transmit]) (touches_elapse s.dev dt)
      (Touches.then (n := [.clock, .requests, .upQueue, .transmit]) (touches_served _ _) (touches_placeUp _ _))
  have left : ∀ r, ((d.served qs).placeUp (d.replyTo q r)).agent.queue = qs ∧
      ((d.served qs).placeUp (d.replyTo q r)).agent.running = none ∧
      ((d.served qs).placeUp (d.replyTo q r)).up.queue = s.dev.up.queue ++ [reply r] ∧
      Touches [.clock, .requests, .upQueue, .transmit] s.dev ((d.served qs).placeUp (d.replyTo q r)) := fun r => by
    obtain ⟨waiting, running⟩ := touches_placeUp (d.served qs) (d.replyTo q r) .requests (by decide)
    exact ⟨waiting.symm, running.symm, Dev.placeUp_queue _ _, framed r⟩
  refine ⟨fun table index ops => ?_, fun ops => ?_⟩
  · have ran : (d.serving q qs []).runPlain ⟨0x01#8, [table, index]⟩ =
        (d.serving q qs [], (d.readOp table index).2.1, (d.readOp table index).2.2) :=
      d.readOp_serving q qs [] table index
    have fits := (Nat.add_le_add_left (readOp_length_le (d := d) ok table index) 4).trans (readRoom_le table)
    have notRestart : (0x01#8 : Byte) ≠ opRestart := by decide
    have notCancel : (0x01#8 : Byte) ≠ opJobCancel := by decide
    have answered := Dev.runRequest_one (d := d) idle queue ops rfl notRestart notCancel (readRoom_le table) ran fits spare
    refine ⟨{ s with dev := d.runRequest }, rfl, rfl, ?_⟩
    dsimp only
    rw [answered]
    exact left _
  · have ran : (d.serving q qs []).runPlain ⟨0x21#8, []⟩ = (d.serving q qs [], .ok, d.identData) := rfl
    have size : d.identData.length = 15 := by simp [Dev.identData]
    have fits : 4 + d.identData.length ≤ responseRoom := by rw [size]; decide
    have notRestart : (0x21#8 : Byte) ≠ opRestart := by decide
    have notCancel : (0x21#8 : Byte) ≠ opJobCancel := by decide
    have small : 4 + (d.serving q qs []).opRoom ⟨0x21#8, []⟩ ≤ responseRoom := by
      show 4 + 15 ≤ responseRoom
      decide
    have answered := Dev.runRequest_one (d := d) idle queue ops rfl notRestart notCancel small ran fits spare
    refine ⟨{ s with dev := d.runRequest }, rfl, rfl, ?_⟩
    dsimp only
    rw [answered]
    exact left _

end Sys2Proof.Machine
end

