-- ==== Sys2Proof/Proofs/Grants.lean ====
section
/-! The choice of a turn and the master frame that it sends (R3, R4, R25 to R30, R171). -/

namespace Sys2Proof.Machine

open Sys2Proof

-- one proof after another: proofs that wait for each other take a thread each
set_option Elab.async false

variable {d e : Dev} {g : Seg} {s : State}

/-- Equal parts make equal next states. -/
theorem next_congr (s : State) (same : d = e) : (Host.Outcome.next { s with dev := d } : Host.Outcome State Fault Refusal) =
    .next { s with dev := e } := by rw [same]

/-! ### The choice of a requester -/

theorem Requester.mem_order (r q : Requester) : q ∈ r.order := by
  cases r <;> cases q <;> decide

/-- The first requester of an order that meets a condition, with what stands before and after it. -/
theorem find?_parts {p : Requester → Bool} {l : List Requester} {r : Requester} (found : l.find? p = some r) :
    ∃ before after, l = before ++ r :: after ∧ p r = true ∧ ∀ q ∈ before, p q = false := by
  obtain ⟨here, before, after, parts, apart⟩ := List.find?_eq_some_iff_append.mp found
  exact ⟨before, after, parts, here, fun q hq => by simpa using apart q hq⟩

theorem Dev.chooseRequester_eq (d : Dev) (g : Seg) : d.chooseRequester g =
    ((d.seg g).sched.rotation.order.find? fun q => d.requests g q && d.urgent g q).or
      ((d.seg g).sched.rotation.order.find? (d.requests g)) := by
  have pressed : ((d.seg g).sched.rotation.order.find? fun q => d.requests g q && d.urgent g q) =
      ((d.seg g).sched.rotation.order.filter (d.requests g)).find? (d.urgent g) := by
    rw [List.find?_filter]
    exact congrArg (List.find? · _) (funext fun q => by simp)
  rw [pressed, ← List.head?_filter (p := d.requests g)]
  unfold Dev.chooseRequester
  dsimp only
  cases ((d.seg g).sched.rotation.order.filter (d.requests g)).find? (d.urgent g) <;> rfl

/-- The requester chosen is the first urgent one in rotation, or where none is urgent the first one (R25). -/
theorem Dev.chooseRequester_first {q : Requester} (asks : d.requests g q = true) :
    ∃ r before after, d.chooseRequester g = some r ∧ (d.seg g).sched.rotation.order = before ++ r :: after ∧
      d.requests g r = true ∧ ((∃ q, d.requests g q = true ∧ d.urgent g q = true) → d.urgent g r = true) ∧
      ∀ q ∈ before, d.requests g q = true → d.urgent g r = true ∧ d.urgent g q = false := by
  rw [Dev.chooseRequester_eq]
  cases pressed : (d.seg g).sched.rotation.order.find? fun q => d.requests g q && d.urgent g q with
  | some r =>
    obtain ⟨before, after, parts, both, apart⟩ := find?_parts pressed
    obtain ⟨requests, urgent⟩ := Bool.and_eq_true_iff.mp both
    refine ⟨r, before, after, rfl, parts, requests, fun _ => urgent, fun q hq asked => ⟨urgent, ?_⟩⟩
    simpa [asked] using apart q hq
  | none =>
    have calm : ∀ q, d.requests g q = true → d.urgent g q = false := fun q asked => by
      have := List.find?_eq_none.mp pressed q (Requester.mem_order _ q)
      simpa [asked] using this
    obtain ⟨r, found⟩ := Option.isSome_iff_exists.mp (List.find?_isSome.mpr ⟨q, Requester.mem_order _ q, asks⟩ :
      ((d.seg g).sched.rotation.order.find? (d.requests g)).isSome = true)
    obtain ⟨before, after, parts, requests, apart⟩ := find?_parts found
    refine ⟨r, before, after, found, parts, requests, fun ⟨q, asked, urgent⟩ => ?_, fun q hq asked => ?_⟩
    · exact absurd urgent (by simp [calm q asked])
    · exact absurd asked (by simp [apart q hq])

theorem Dev.bindItem_some {r : Requester} (asks : d.requests g r = true) : ∃ item, d.bindItem g r = some item := by
  cases r with
  | deliver =>
    obtain ⟨f, found⟩ := Option.isSome_iff_exists.mp asks
    exact ⟨_, congrArg (Option.map _) found⟩
  | feed =>
    obtain ⟨c, found⟩ := Option.isSome_iff_exists.mp asks
    exact ⟨_, congrArg (Option.map _) found⟩
  | poll =>
    cases visits : d.visits g with
    | nil => simp [Dev.requests, visits] at asks
    | cons v vs => exact ⟨.poll v.eid, by simp [Dev.bindItem, visits]⟩

theorem Dev.turnGrant_of {r : Requester} {item : TurnItem} (may : d.mayDecide g = true) (chosen : d.chooseRequester g = some r)
    (bound : d.bindItem g r = some item) (carrier : Bool) : d.turnGrant g carrier = d.grant g r item carrier := by
  rw [Dev.turnGrant, if_pos may, chosen]
  dsimp only
  rw [bound]

theorem Dev.turnGrant_idle (idle : d.mayDecide g = false ∨ ∀ r, d.requests g r = false) (carrier : Bool) :
    d.turnGrant g carrier = d := by
  unfold Dev.turnGrant
  split
  · rename_i may
    have quiet := idle.resolve_left (by simp [may])
    have none : d.chooseRequester g = none := by
      have nobody : ∀ p : Requester → Bool, (∀ q, p q = false) → (d.seg g).sched.rotation.order.find? p = none :=
        fun p apart => List.find?_eq_none.mpr fun q _ => by simp [apart q]
      rw [Dev.chooseRequester_eq, nobody _ fun q => by simp [quiet q], nobody _ quiet]
      rfl
    rw [none]
  · rfl

/-! ### Master frames -/

/-- A segment after a master frame, or a turn without one: the line and the turn alone have moved. -/
structure Sent (item : TurnItem) (q r : Segment) : Prop where
  rest : r = { q with lineOut := r.lineOut, sched := { q.sched with turn := r.sched.turn } }
  turn : r.sched.turn = none ∨ ∃ ph, r.sched.turn = some ⟨item, ph⟩ ∧ ph ≠ .held

theorem Dev.openExchange_seg (d : Dev) (g : Seg) (item : TurnItem) (e : Station) (m : Mark) (z : Bool) (bytes : List Byte) :
    (d.openExchange g item e m z bytes).seg g = { d.seg g with
      lineOut := bytes
      sched := { (d.seg g).sched with turn := some ⟨item, .exchange
        { number := e.number, eid := some e.eid, seq := e.nextBit, wasSlow := e.state == .slow, mark := m
          zeroEnd := z, sentAt := d.clock + frameTime bytes.length
          deadline := d.clock + frameTime bytes.length + (d.seg g).cfg.replyTimeout * Config.us
          delimiter := false }⟩ } } := Dev.modSeg_seg _ _ _

theorem oneSeg_openExchange (d : Dev) (g : Seg) (item : TurnItem) (e : Station) (m : Mark) (z : Bool) (bytes : List Byte) :
    OneSeg g d (d.openExchange g item e m z bytes) := oneSeg_modSeg _ _ _

theorem sent_openExchange (d : Dev) (g : Seg) (item : TurnItem) (e : Station) (m : Mark) (z : Bool) (bytes : List Byte) :
    Sent item (d.seg g) ((d.openExchange g item e m z bytes).seg g) := by
  rw [Dev.openExchange_seg]
  exact ⟨rfl, .inr ⟨_, rfl, by simp⟩⟩

theorem sent_dropTurn (d : Dev) (g : Seg) (item : TurnItem) : Sent item (d.seg g) ((d.dropTurn g).seg g) := by
  rw [Dev.dropTurn, Dev.modSched_seg]
  exact ⟨rfl, .inl rfl⟩

theorem Dev.sendBroadcast_seg (d : Dev) (g : Seg) (f : DownFrame) : (d.sendBroadcast g f).seg g = { d.seg g with
    lineOut := deliverBytes 255 f.fromNum false f.mark f.payload
    sched := { (d.seg g).sched with turn := some ⟨.deliver f.fid, .broadcast
      (d.clock + frameTime (deliverBytes 255 f.fromNum false f.mark f.payload).length)⟩ } } := Dev.modSeg_seg _ _ _

theorem sent_sendTurn (d : Dev) (g : Seg) (item : TurnItem) :
    Sent item (d.seg g) ((d.sendTurn g item).seg g) ∧ OneSeg g d (d.sendTurn g item) := by
  have drops : Sent item (d.seg g) ((d.dropTurn g).seg g) ∧ OneSeg g d (d.dropTurn g) :=
    ⟨sent_dropTurn _ _ _, oneSeg_modSched _ _ _⟩
  cases item with
  | deliver fid =>
    show Sent _ _ ((d.sendDeliver g fid).seg g) ∧ OneSeg g d (d.sendDeliver g fid)
    unfold Dev.sendDeliver
    split
    · rename_i f found
      have named : f.fid = fid := by simpa using List.find?_some found
      split
      · refine ⟨?_, oneSeg_modSeg _ _ _⟩
        rw [Dev.sendBroadcast_seg, named]
        exact ⟨rfl, .inr ⟨_, rfl, by simp⟩⟩
      · split
        · exact ⟨sent_openExchange _ _ _ _ _ _ _, oneSeg_openExchange _ _ _ _ _ _ _⟩
        · exact drops
    · exact drops
  | feed i n =>
    show Sent _ _ ((d.sendFeed g i n).seg g) ∧ OneSeg g d (d.sendFeed g i n)
    unfold Dev.sendFeed
    split
    · split
      · have keeps : ∀ (e : Dev) (f : Printer → Printer) (h : Seg), (e.modPrinter i f).seg h = e.seg h := fun e f h =>
          (touches_modPrinter e i f).seg_eq rfl h
        dsimp only
        rw [keeps]
        exact ⟨sent_openExchange _ _ _ _ _ _ _, fun h hh => (keeps _ _ h).trans (oneSeg_openExchange d g _ _ _ _ _ h hh)⟩
      · exact drops
    · exact drops
  | poll eid =>
    show Sent _ _ ((d.sendPoll g eid).seg g) ∧ OneSeg g d (d.sendPoll g eid)
    unfold Dev.sendPoll
    split
    · exact ⟨sent_openExchange _ _ _ _ _ _ _, oneSeg_openExchange _ _ _ _ _ _ _⟩
    · exact drops

/-! ### The grant -/

/-- The pointers move, and of the segment nothing but the rotation, the feed pointer and the plan. -/
theorem Dev.movePointers_seg (d : Dev) (g : Seg) (r : Requester) (item : TurnItem) : ∃ fp cy n,
    (d.movePointers g r item).seg g = { d.seg g with sched := { (d.seg g).sched with
      rotation := r.follow, feedPtr := fp, cycle := cy, cycleCount := n } } := by
  unfold Dev.movePointers
  dsimp only
  rw [Dev.modSched_seg]
  cases item with
  | deliver n => exact ⟨_, _, _, rfl⟩
  | feed i n => exact ⟨_, _, _, rfl⟩
  | poll n =>
    dsimp only
    unfold Scheduler.withVisits Scheduler.endCycle
    dsimp only
    split
    · split <;> exact ⟨_, _, _, rfl⟩
    · exact ⟨_, _, _, rfl⟩

theorem oneSeg_movePointers (d : Dev) (g : Seg) (r : Requester) (item : TurnItem) :
    OneSeg g d (d.movePointers g r item) := oneSeg_modSched _ _ _

theorem oneSeg_grant (d : Dev) (g : Seg) (r : Requester) (item : TurnItem) (carrier : Bool) :
    OneSeg g d (d.grant g r item carrier) := by
  unfold Dev.grant
  dsimp only
  split
  · exact (oneSeg_movePointers _ _ _ _).trans (oneSeg_modSched _ _ _)
  · exact (oneSeg_movePointers _ _ _ _).trans (sent_sendTurn _ _ _).2

theorem Dev.grant_carrier (d : Dev) (g : Seg) (r : Requester) (item : TurnItem) :
    (d.grant g r item true).seg g = { (d.movePointers g r item).seg g with
      sched := { ((d.movePointers g r item).seg g).sched with turn := some ⟨item, .held⟩ } } :=
  Dev.modSched_seg (d.movePointers g r item) g fun s => { s with turn := some ⟨item, .held⟩ }

theorem Dev.grant_quiet (d : Dev) (g : Seg) (r : Requester) (item : TurnItem) :
    d.grant g r item false = (d.movePointers g r item).sendTurn g item := rfl

theorem Dev.grant_rotation (d : Dev) (g : Seg) (r : Requester) (item : TurnItem) (carrier : Bool) :
    ((d.grant g r item carrier).seg g).sched.rotation = r.follow := by
  obtain ⟨_, _, _, moved⟩ := d.movePointers_seg g r item
  cases carrier with
  | true => rw [Dev.grant_carrier, moved]
  | false => rw [Dev.grant_quiet, (sent_sendTurn _ _ _).1.rest, moved]

/-! ### DELIVER -/

theorem Dev.sendDeliver_broadcast {f : DownFrame} (found : d.frame g n = some f) (dest : f.dest = 255) :
    d.sendDeliver g n = d.sendBroadcast g f := by
  rw [Dev.sendDeliver, found]
  exact if_pos dest

theorem Dev.sendDeliver_unicast {f : DownFrame} {e : Station} (found : d.frame g n = some f) (dest : f.dest ≠ 255)
    (stands : d.station g f.dest = some e) : d.sendDeliver g n =
      d.openExchange g (.deliver n) e f.mark false (deliverBytes f.dest f.fromNum e.nextBit f.mark f.blocks.flatten) := by
  rw [Dev.sendDeliver, found]
  refine (if_neg dest).trans ?_
  rw [stands]
  rfl

theorem Segment.mem_of_eligible {q : Segment} {older : List Nat} {l : List DownFrame} {f : DownFrame}
    (found : q.eligible older l = some f) : f ∈ l := by
  induction l generalizing older with
  | nil => cases found
  | cons k l ih =>
    unfold Segment.eligible at found
    split at found
    · exact List.mem_cons.mpr (.inl (Option.some.inj found).symm)
    · exact List.mem_cons_of_mem _ (ih found)

theorem Dev.movePointers_clock (d : Dev) (g : Seg) (r : Requester) (item : TurnItem) :
    (d.movePointers g r item).clock = d.clock := (touches_movePointers d g r item .clock (by decide)).symm

/-- Settles O20: the choice is a search for the first in rotation, and whatever the item's master frame is, it moves the
line and the turn alone. -/
theorem turnGrantTakesTheFirstInRotation : Obligations.TurnGrantTakesTheFirstInRotation := by
  refine fun g carrier dt s => ⟨fun may ⟨q, asks⟩ => ?_, fun idle => ?_⟩
  · obtain ⟨r, before, after, chosen, parts, requests, pressed, apart⟩ := Dev.chooseRequester_first asks
    obtain ⟨item, bound⟩ := Dev.bindItem_some requests
    have granted := Dev.turnGrant_of may chosen bound carrier
    have ran : exec (.turnGrant g carrier dt) s = .next { s with dev := (s.dev.elapse dt).grant g r item carrier } :=
      (next_congr s granted :)
    have framed : Touches (.clock :: Piece.sending) s.dev ((s.dev.elapse dt).grant g r item carrier) :=
      granted ▸ Touches.then (touches_elapse s.dev dt) (touches_turnGrant _ g carrier)
    obtain ⟨fp, cy, n, moved⟩ := (s.dev.elapse dt).movePointers_seg g r item
    refine ⟨_, r, item, before, after, ran, rfl, chosen, bound, parts, requests, pressed, apart,
      Dev.grant_rotation _ _ _ _ _, fun held => ?_, fun quiet => ?_, fun f hr quiet deliver nodup => ?_,
      oneSeg_grant _ _ _ _ _, framed⟩
    · subst held
      dsimp only
      rw [Dev.grant_carrier, moved]
      exact ⟨rfl, rfl⟩
    · subst quiet
      exact (sent_sendTurn ((s.dev.elapse dt).movePointers g r item) g item).1.turn
    · subst hr quiet
      obtain rfl : .deliver f.fid = item := by
        have here : (s.dev.elapse dt).bindItem g .deliver = some (.deliver f.fid) := congrArg (Option.map _) deliver
        exact Option.some.inj (here.symm.trans bound)
      have found : ((s.dev.elapse dt).movePointers g .deliver (.deliver f.fid)).frame g f.fid = some f := by
        rw [Dev.frame, moved]
        exact find?_key (·.fid) nodup (Segment.mem_of_eligible deliver)
      refine ⟨fun dest => ?_, fun e dest stands => ?_⟩ <;> dsimp only <;> rw [Dev.grant_quiet, Dev.sendTurn]
      · rw [Dev.sendDeliver_broadcast found dest, Dev.sendBroadcast_seg, Dev.movePointers_clock]
        exact ⟨rfl, rfl⟩
      · rw [Dev.sendDeliver_unicast found dest stands, Dev.openExchange_seg, Dev.movePointers_clock, moved]
        exact ⟨rfl, _, rfl, rfl, rfl, rfl, rfl, rfl, rfl⟩
  · exact (next_congr s (Dev.turnGrant_idle idle carrier) :)

/-! ### POLL -/

theorem frameTime_poll (n : Nat) (a : Ack) : frameTime (pollBytes n a).length = 90 * Config.bitCell := by
  simp [pollBytes, trunkBytes, frameTime, startDelimiter, endDelimiter]

theorem Dev.visits_running {v : Visit} {vs : List Visit} (visits : d.visits g = v :: vs) :
    ∃ us, (d.seg g).sched.cycle = .running us := by
  unfold Dev.visits at visits
  split at visits
  · exact ⟨_, by assumption⟩
  all_goals cases visits

theorem Dev.sendPoll_of {e : Station} (found : d.stationById n = some e) : d.sendPoll g n =
    (d.openExchange g (.poll n) e .more false (pollBytes e.number e.pendingAck)).modStation n fun e =>
      { e with pendingAck := .none } := by
  rw [Dev.sendPoll, found]

/-- Settles O21. -/
theorem pollGrantSendsPoll : Obligations.PollGrantSendsPoll := by
  intro g dt s v vs e may chosen visits found
  have bound : (s.dev.elapse dt).bindItem g .poll = some (.poll v.eid) := by
    have same : (s.dev.elapse dt).visits g = v :: vs := visits
    simp [Dev.bindItem, same]
  have granted := Dev.turnGrant_of may chosen bound false
  have ran : exec (.turnGrant g false dt) s =
      .next { s with dev := ((s.dev.elapse dt).movePointers g .poll (.poll v.eid)).sendPoll g v.eid } :=
    (next_congr s granted :)
  obtain ⟨us, running⟩ := Dev.visits_running visits
  have moved : ((s.dev.elapse dt).movePointers g .poll (.poll v.eid)).seg g = { s.dev.seg g with
      sched := { (s.dev.seg g).sched with rotation := .deliver }.withVisits vs } := by
    unfold Dev.movePointers
    dsimp only
    rw [Dev.modSched_seg, show (s.dev.elapse dt).visits g = v :: vs from visits]
    rfl
  have now := Dev.movePointers_clock (s.dev.elapse dt) g .poll (.poll v.eid)
  have framed := Touches.then (n := [.clock, .sched]) (touches_elapse s.dev dt)
    (touches_movePointers _ g .poll (.poll v.eid))
  have one := oneSeg_movePointers (s.dev.elapse dt) g .poll (.poll v.eid)
  have stands : ((s.dev.elapse dt).movePointers g .poll (.poll v.eid)).stationById v.eid = some e := found
  generalize (s.dev.elapse dt).movePointers g .poll (.poll v.eid) = d at *
  rw [Dev.sendPoll_of stands] at ran
  have opened := d.openExchange_seg g (.poll v.eid) e .more false (pollBytes e.number e.pendingAck)
  have opens := oneSeg_openExchange d g (.poll v.eid) e .more false (pollBytes e.number e.pendingAck)
  have sent := touches_openExchange d g (.poll v.eid) e .more false (pollBytes e.number e.pendingAck)
  have still : (d.openExchange g (.poll v.eid) e .more false (pollBytes e.number e.pendingAck)).stationById v.eid = some e :=
    stands
  rw [frameTime_poll, now, moved] at opened
  generalize d.openExchange g (.poll v.eid) e .more false (pollBytes e.number e.pendingAck) = o at *
  refine ⟨_, ran, rfl, ?_⟩
  dsimp only
  have ack := (Dev.modStation_byId still (f := fun e => { e with pendingAck := .none }) fun _ => rfl).1
  have kept : ∀ h, (o.modStation v.eid fun e => { e with pendingAck := .none }).seg h = o.seg h := fun h =>
    (touches_modStation _ _ _).seg_eq rfl h
  refine ⟨?_, ?_, ack, fun more => ?_, fun last => ?_, fun h hh => ?_, ?_⟩
  · rw [kept, opened]
  · rw [kept, opened]
    rfl
  · rw [kept, opened]
    simp [Scheduler.withVisits, more]
  · rw [kept, opened]
    simp [Scheduler.withVisits, Scheduler.endCycle, last, running]
  · exact (kept h).trans ((opens h hh).trans (one h hh))
  · exact Touches.then (n := [.clock, .sched, .lineOut, .stations]) framed
      (Touches.then (n := [.sched, .lineOut, .stations]) sent (touches_modStation _ _ _))

/-! ### Held frames -/

theorem Dev.heldFrameStart_of {item : TurnItem} (held : (d.seg g).sched.turn = some ⟨item, .held⟩) :
    d.heldFrameStart g = d.sendTurn g item := by
  rw [Dev.heldFrameStart, held]

/-- Settles O22. -/
theorem heldDeliverIsSent : Obligations.HeldDeliverIsSent := by
  intro g dt s n f held found
  have started := Dev.heldFrameStart_of (d := s.dev.elapse dt) held
  have ran : exec (.heldFrameStart g dt) s = .next { s with dev := (s.dev.elapse dt).sendDeliver g n } :=
    (next_congr s started :)
  have framed : Touches [.clock, .sched, .lineOut] s.dev ((s.dev.elapse dt).sendDeliver g n) :=
    Touches.then (touches_elapse s.dev dt) (touches_sendDeliver _ g n)
  have one := (sent_sendTurn (s.dev.elapse dt) g (.deliver n)).2
  have named : f.fid = n := by simpa using List.find?_some found
  refine ⟨fun dest => ?_, fun e dest stands => ?_⟩
  · have seg := (s.dev.elapse dt).sendBroadcast_seg g f
    rw [← Dev.sendDeliver_broadcast (d := s.dev.elapse dt) found dest, named] at seg
    exact ⟨_, ran, rfl, congrArg (·.lineOut) seg, ⟨_, congrArg (·.sched.turn) seg⟩, one, framed⟩
  · have seg := (s.dev.elapse dt).openExchange_seg g (.deliver n) e f.mark false
      (deliverBytes f.dest f.fromNum e.nextBit f.mark f.blocks.flatten)
    rw [← Dev.sendDeliver_unicast (d := s.dev.elapse dt) found dest stands] at seg
    exact ⟨_, _, ran, rfl, congrArg (·.lineOut) seg, congrArg (·.sched.turn) seg, rfl, rfl, rfl, one, framed⟩

end Sys2Proof.Machine
end

