-- ==== Sys2Proof/Proofs/Outcomes.lean ====
section
/-! The end of an exchange: the turn ends, and the outcome reaches the directory and the Line Monitor (R14, R15, R42,
R43, R111). -/

namespace Sys2Proof.Machine

open Sys2Proof

-- one proof after another: proofs that wait for each other take a thread each
set_option Elab.async false

variable {c d e : Dev} {g : Seg} {s : State} {l : List Piece} {n : Nat}

/-! ### No turn begins -/

/-- No segment without a turn has come to have one. -/
def TurnsRest (d e : Dev) : Prop := ∀ g, (d.seg g).sched.turn = none → (e.seg g).sched.turn = none

theorem TurnsRest.refl (d : Dev) : TurnsRest d d := fun _ => id

theorem TurnsRest.trans (h : TurnsRest d e) (k : TurnsRest e c) : TurnsRest d c := fun g ended => k g (h g ended)

theorem TurnsRest.ite {b : Prop} [Decidable b] (h : b → TurnsRest d e) (k : ¬ b → TurnsRest d c) :
    TurnsRest d (if b then e else c) := by
  split
  · exact h ‹_›
  · exact k ‹_›

theorem Aside.rests (h : Aside d e) : TurnsRest d e := fun g => (h.sched g).stays

/-- What touches no Turn Scheduler begins no turn. -/
theorem Touches.rests (t : Touches l d e) (apart : Piece.sched ∉ l := by decide) : TurnsRest d e := fun g ended => by
  rw [← t .sched apart g]
  exact ended

theorem turnsRest_modSched (d : Dev) (g : Seg) {f : Scheduler → Scheduler} (rest : ∀ s, s.turn = none → (f s).turn = none) :
    TurnsRest d (d.modSched g f) := by
  intro h ended
  by_cases same : h = g
  · subst same
    rw [Dev.modSched_seg]
    exact rest _ ended
  · rw [oneSeg_modSched d g f h same]
    exact ended

/-! ### The Feeder and the Spooler begin no turn -/

theorem aside_printerStatus (d : Dev) (i : Nat) (b : Bool) : Aside d (d.printerStatus i b) := by
  unfold Dev.printerStatus
  split
  · split
    case h_4 => exact Aside.ite (fun _ => .refl _) fun _ => Aside.ite (fun _ => (touches_enterFeeding _ _).aside) fun _ =>
      aside_enterIdle _ _
    all_goals first | exact .refl _ | exact Aside.ite (fun _ => aside_makeStalled _ _) fun _ => .refl _
  · exact .refl _

theorem aside_printerPolled (d : Dev) (i : Nat) (b : Bool) : Aside d (d.printerPolled i b) := by
  have recovers : ∀ d : Dev, Aside d (d.printerRecovers i b) := fun d => by
    unfold Dev.printerRecovers
    split
    · refine Aside.ite (fun _ => ?_) fun _ => .refl _
      extract_lets +onlyGivenNames d1
      have recovered : Aside d d1 := (touches_modPrinter _ _ _).aside
      exact recovered.trans (Aside.ite (fun _ => aside_makeStalled _ _) fun _ =>
        Aside.ite (fun _ => (touches_enterFeeding _ _).aside) fun _ => aside_enterIdle _ _)
    · exact .refl _
  unfold Dev.printerPolled
  split
  · exact (touches_modPrinter _ _ _).aside.trans
      (Aside.ite (fun _ => recovers _) fun _ => aside_printerStatus _ _ _)
  · exact .refl _

/-- The steps of an accepted item before its job's end (R172). -/
def Dev.itemTaken (d : Dev) (i n : Nat) (zeroEnd : Bool) : Dev :=
  let d :=
    match zeroEnd, d.jobBySerial n with
    | false, some j =>
      (d.modJob n fun j =>
        { j with chain := j.chain.drop 1, printed := addBytes j.printed (j.chain.headD []).length }).freeSpool
        (min 1 j.chain.length)
    | _, _ => d
  let d := match d.printer i with
    | some p => d.countSeg p.seg .framesOut
    | none => d
  d.modPrinter i fun p => { p with ready := none, sentMark := none }

theorem Dev.itemAccepted_eq (d : Dev) (i n : Nat) (z : Bool) (m : Mark) :
    d.itemAccepted i n z m = if m = .last then (d.itemTaken i n z).endJob n .done else d.itemTaken i n z := rfl

theorem turnsRest_itemTaken (d : Dev) (i n : Nat) (z : Bool) : TurnsRest d (d.itemTaken i n z) := by
  unfold Dev.itemTaken
  extract_lets +onlyGivenNames d1 d2
  have shed : TurnsRest d d1 := by
    simp only [d1]
    split
    · exact (touches_modJob _ _ _).rests.trans (aside_freeSpool _ _).rests
    · exact .refl _
  have counted : TurnsRest d1 d2 := by
    simp only [d2]
    split
    · exact (touches_countSeg _ _ _).rests
    · exact .refl _
  exact (shed.trans counted).trans (touches_modPrinter _ _ _).rests

theorem turnsRest_itemAccepted (d : Dev) (i n : Nat) (z : Bool) (m : Mark) : TurnsRest d (d.itemAccepted i n z m) := by
  rw [Dev.itemAccepted_eq]
  exact TurnsRest.ite (fun _ => (turnsRest_itemTaken _ _ _ _).trans (aside_endJob _ _ _).rests) fun _ =>
    turnsRest_itemTaken _ _ _ _

theorem turnsRest_feedAccepted (d : Dev) (i n : Nat) (z : Bool) (m : Mark) (b : Bool) :
    TurnsRest d (d.feedAccepted i n z m b) := by
  have taken := fun d => turnsRest_itemAccepted d i n z m
  have selected : ∀ d : Dev, TurnsRest d d.selectAll := fun d => (aside_selectAll d).rests
  unfold Dev.feedAccepted
  split
  · refine TurnsRest.trans (touches_modPrinter _ _ _).rests (TurnsRest.ite (fun _ => (taken _).trans (selected _)) fun _ =>
      TurnsRest.ite (fun _ => ?_) fun _ => ((taken _).trans (touches_offerItem _ _).rests).trans (selected _))
    extract_lets +onlyGivenNames d1 d2
    have stalled : TurnsRest _ d1 := (touches_modPrinter _ _ _).rests
    have settled : TurnsRest d1 d2 := (taken _).trans (selected _)
    refine (stalled.trans settled).trans ?_
    split
    · exact TurnsRest.ite (fun _ => (touches_raise _ _ _).rests) fun _ => .refl _
    · exact .refl _
  · exact .refl _

theorem aside_feedRefused (d : Dev) (i : Nat) (b : Bool) : Aside d (d.feedRefused i b) := by
  unfold Dev.feedRefused
  split
  · exact Aside.ite (fun _ => .refl _) fun _ => (touches_modPrinter _ _ _).aside.trans
      (Aside.ite (fun _ => aside_printerStatus _ _ _) fun _ => Aside.ite (fun _ => (touches_modPrinter _ _ _).aside) fun _ =>
        .refl _)
  · exact .refl _

theorem aside_feedFailed (d : Dev) (i : Nat) : Aside d (d.feedFailed i) := by
  unfold Dev.feedFailed
  split
  · exact Aside.ite (fun _ => .refl _) fun _ => (touches_modPrinter _ _ _).aside.trans
      (Aside.ite (fun _ => aside_makeLost _ _) fun _ => .refl _)
  · exact .refl _

theorem turnsRest_transitOutcome (d : Dev) (g : Seg) (x : DownFrame) (o : ExOutcome) (k : Byte) :
    TurnsRest d (d.transitOutcome g x o k) := by
  have removed := (aside_removeFrame d g x).rests
  have dropped : ∀ k, TurnsRest d ((d.removeFrame g x).dropSeg g k) := fun k => removed.trans (touches_dropSeg _ _ _).rests
  unfold Dev.transitOutcome
  refine TurnsRest.ite (fun _ => dropped _) fun _ => ?_
  split
  · exact TurnsRest.ite (fun _ => removed.trans (touches_countSeg _ _ _).rests) fun _ => TurnsRest.ite (fun _ => dropped _)
      fun _ => (touches_modFrame _ _ _ _).rests
  · exact TurnsRest.ite (fun _ => dropped _) fun _ => (touches_modFrame _ _ _ _).rests

theorem turnsRest_itemOutcome (d : Dev) (g : Seg) (item : TurnItem) (x : Exchange) (o : ExOutcome) (f : TrunkFrame) :
    TurnsRest d (d.itemOutcome g item x o f) := by
  unfold Dev.itemOutcome
  split
  · split
    · exact turnsRest_transitOutcome _ _ _ _ _
    · exact .refl _
  · split
    · exact TurnsRest.ite (fun _ => turnsRest_feedAccepted _ _ _ _ _ _) fun _ => (aside_feedRefused _ _ _).rests
    · exact (aside_feedFailed _ _).rests
  · unfold Dev.polledOutcome
    split
    · split
      · exact (aside_printerPolled _ _ _).rests
      · exact .refl _
    · exact .refl _

/-! ### Units and frames begin no turn -/

theorem aside_closeJob (d : Dev) (n : Nat) : Aside d (d.closeJob n) := by
  unfold Dev.closeJob
  split
  · split
    · exact ((touches_takeStamp _ _).aside.trans (touches_modJob _ _ _).aside).trans (aside_select _ _)
    · exact (touches_modJob _ _ _).aside.trans (touches_offerItem _ _).aside
    · exact (touches_modJob _ _ _).aside
  · exact .refl _

theorem aside_appendUnit (d : Dev) (j : Job) (b : List Byte) (m : Mark) : Aside d (d.appendUnit j b m).1 := by
  unfold Dev.appendUnit
  extract_lets +onlyGivenNames d1 bs
  have seen : Aside d d1 := (touches_modJob _ _ _).aside
  split
  · dsimp only
    exact seen.trans ((((touches_modJob _ _ _).aside.trans (aside_takeSpool _ _)).trans (touches_offerItem _ _).aside).trans
      (aside_selectAll _) |>.trans (Aside.ite (fun _ => aside_closeJob _ _) fun _ => .refl _))
  · exact seen

theorem aside_createJob (d : Dev) (i : Nat) (x : Source) (b : List Byte) (m : Mark) : Aside d (d.createJob i x b m).1 := by
  have ite : ∀ {p : Prop} [Decidable p] {x y : Dev × UnitAnswer}, Aside d x.1 → Aside d y.1 →
      Aside d (if p then x else y).1 := fun {p} _ {x y} h k => by
    split
    · exact h
    · exact k
  unfold Dev.createJob
  extract_lets +onlyGivenNames bs
  split
  · exact .refl _
  · refine ite (.refl _) (ite (.refl _) (ite (.refl _) (ite (.refl _) ?_)))
    dsimp only
    exact ((touches_setJobNames d _ _ _).aside.trans (aside_takeSpool _ _)).trans
      ((Aside.ite (fun _ => aside_closeJob _ _) fun _ => .refl _).trans (aside_selectAll _))

theorem turnsRest_takeUnit (d : Dev) (g : Seg) (n : Nat) (x : Source) (b : List Byte) (m : Mark) :
    TurnsRest d (d.takeUnit g n x b m).1 := by
  unfold Dev.takeUnit
  extract_lets +onlyGivenNames r
  have unit : TurnsRest d r.1 := by
    simp only [r]
    split
    · exact .refl _
    · split
      · exact (aside_appendUnit _ _ _ _).rests
      · exact (aside_createJob _ _ _ _ _).rests
  split
  all_goals exact unit.trans (touches_countSpool _ _).rests

theorem TurnsRest.fold {α : Type} {f : Dev → α → Dev} (step : ∀ d a, TurnsRest d (f d a)) (as : List α) :
    ∀ d : Dev, TurnsRest d (as.foldl f d) := by
  induction as with
  | nil => exact fun d => .refl d
  | cons a as ih => exact fun d => (step d a).trans (ih _)

theorem TurnsRest.fst_ite {α : Type} {b : Prop} [Decidable b] {x y : Dev × α} (h : TurnsRest d x.1) (k : TurnsRest d y.1) :
    TurnsRest d (if b then x else y).1 := by
  split
  · exact h
  · exact k

theorem turnsRest_takeList (d : Dev) (l : List Copy) (m : Mark) (b : List Byte) (ok : Dev → Nat → Bool) :
    TurnsRest d (d.takeList l m b ok).1 := by
  unfold Dev.takeList
  extract_lets +onlyGivenNames gone rest d1 need
  have withheld : TurnsRest d d1 := TurnsRest.fold (fun _ _ => (touches_countWithheld _ _).rests) _ _
  refine .fst_ite withheld (.fst_ite withheld (.fst_ite withheld (withheld.trans ?_)))
  exact ((TurnsRest.fold (fun _ _ => (touches_placeCopy m b _ _).rests) _ _).trans (touches_takeTransit _ _).rests).trans
    (touches_startTx _).rests

theorem turnsRest_queueDown (d : Dev) (g : Seg) (k n : Nat) (m : Mark) (b : List Byte) :
    TurnsRest d (d.queueDown g k n m b) := by
  have flushed : ∀ d : Dev, TurnsRest d (d.flushAwaiting g k) := fun d => by
    unfold Dev.flushAwaiting
    split
    · exact TurnsRest.ite (fun _ => (aside_flush _ _ _).rests) fun _ => .refl _
    · exact .refl _
  exact ((touches_placeDown d g k n m b).rests.trans (touches_takeTransit _ _).rests).trans (flushed _)

theorem turnsRest_takeCoax (d : Dev) (r : Resolved) (m : Mark) (b : List Byte) : TurnsRest d (d.takeCoax r m b).1 := by
  unfold Dev.takeCoax
  split
  · exact .fst_ite (.refl _) (.fst_ite (turnsRest_queueDown _ _ _ _ _ _) (.refl _))
  · rename_i copies
    have taken := turnsRest_takeList d copies m b Dev.coaxTransitOk
    split <;> simp_all
  · exact .fst_ite (.refl _) (.fst_ite (.refl _) (.fst_ite (touches_queueUp _ _).rests (.refl _)))
  · exact turnsRest_takeUnit _ _ _ _ _ _
  · exact .refl _

theorem turnsRest_forwardCoax (d : Dev) (g : Seg) (n k : Nat) (m : Mark) (b : List Byte) :
    TurnsRest d (d.forwardCoax g n k m b).1 :=
  (touches_resolveCoax _ _ _ _).rests.trans (turnsRest_takeCoax _ _ _ _)

/-! ### The directory and the Line Monitor begin no turn -/

theorem turnsRest_takeData (d : Dev) (g : Seg) (e : Station) (f : TrunkFrame) : TurnsRest d (d.takeData g e f) := by
  have dropped : ∀ (d : Dev) (k : SegDrop), TurnsRest d (d.dropSeg g k) := fun d k => (touches_dropSeg d g k).rests
  have marked : ∀ (d : Dev) (n : Nat) (f : Station → Station), TurnsRest d (d.modStation n f) := fun d n f =>
    (touches_modStation d n f).rests
  have taken : TurnsRest d ((d.countSeg g .framesIn).forwardCoax g e.number f.peer (frameMark f) f.payload).1 :=
    (touches_countSeg d g .framesIn).rests.trans (turnsRest_forwardCoax _ _ _ _ _ _)
  unfold Dev.takeData
  dsimp only
  split
  iterate 2 exact dropped _ _
  all_goals
    refine TurnsRest.ite (fun _ => (marked _ _ _).trans (dropped _ _)) fun _ => ?_
    split
    · rename_i forwarded
      exact (forwarded ▸ taken).trans (marked _ _ _)
    · rename_i forwarded
      exact (forwarded ▸ taken).trans (marked _ _ _)
    · rename_i forwarded
      exact (forwarded ▸ taken).trans ((marked _ _ _).trans (dropped _ _))

theorem aside_stationFailed (d : Dev) (e : Station) (c : FailCause) : Aside d (d.stationFailed e c) := by
  have shut : ∀ (d : Dev) (st q k s), Aside d ((d.shutOut e st q).raise k s) := fun d st q k s =>
    (aside_shutOut _ _ _ _).trans (aside_raise _ _ _)
  unfold Dev.stationFailed
  extract_lets +onlyGivenNames ms st d1
  have missed : Aside d d1 := (touches_modStation _ _ _).aside
  refine missed.trans (Aside.ite (fun _ => Aside.ite (fun _ => .refl _) fun _ => shut _ _ _ _ _) fun _ => ?_)
  split
  · exact Aside.ite (fun _ => (touches_modStation _ _ _).aside) fun _ => .refl _
  · exact Aside.ite (fun _ => shut _ _ _ _ _) fun _ => .refl _
  all_goals exact .refl _

theorem turnsRest_directoryOutcome (d : Dev) (g : Seg) (x : Exchange) (o : ExOutcome) (f : TrunkFrame) :
    TurnsRest d (d.directoryOutcome g x o f) := by
  unfold Dev.directoryOutcome
  split
  · extract_lets +onlyGivenNames d1 d2 d3
    have taken : TurnsRest d d1 := TurnsRest.ite (fun _ => turnsRest_takeData _ _ _ _) fun _ => .refl _
    have turned : TurnsRest d1 d2 := TurnsRest.ite (fun _ => (touches_modStation _ _ _).rests) fun _ => .refl _
    have backed : TurnsRest d2 d3 := TurnsRest.ite (fun _ => (touches_startBackoff _ _ _).rests) fun _ => .refl _
    exact (taken.trans (turned.trans backed)).trans (touches_stationGood _ _).rests
  · exact (aside_stationFailed _ _ _).rests
  · exact TurnsRest.ite (fun _ => (touches_dropSeg _ _ _).rests) fun _ => .refl _
  · exact .refl _

theorem turnsRest_depart (d : Dev) (g : Seg) : TurnsRest d (d.depart g) := by
  have left : TurnsRest d (d.modSched g Scheduler.depart) := turnsRest_modSched d g fun q ended => by
    simp [Scheduler.depart, ended]
  have flushed := aside_flushQueue (d.modSched g Scheduler.depart) g
  have after : Aside ((d.modSched g Scheduler.depart).flushQueue g) (d.depart g) :=
    (((touches_modDisc _ g _).aside.trans (aside_losePrinters _ g)).trans (aside_failSegmentSources _ g)).trans
      (touches_probeDeparts _ g).aside
  exact left.trans (flushed.trans after).rests

theorem turnsRest_testThresholds (d : Dev) (g : Seg) (b : Bool) : TurnsRest d (d.testThresholds g b) := by
  have tripped : ∀ f, TurnsRest d (d.trip g f) := fun f => by
    rw [Dev.trip_eq]
    exact (aside_tripped d g f).rests.trans (turnsRest_depart _ _)
  have suspected : ∀ d : Dev, TurnsRest d (d.suspectAnalysis g) := fun d => by
    unfold Dev.suspectAnalysis
    split
    · exact .refl _
    · split
      · exact .refl _
      · exact TurnsRest.ite (fun _ => .refl _) fun _ => (touches_modMon _ _ _).rests.trans
          (aside_quarantineSuspect _ _ _).rests
  have strained : TurnsRest d (d.becomeStrained g) := by
    unfold Dev.becomeStrained
    extract_lets +onlyGivenNames d1 d2
    have warned : TurnsRest d d1 := (touches_setSegState _ _ _).rests.trans (touches_raise _ _ _).rests
    have held : TurnsRest d1 d2 := TurnsRest.ite (fun _ => turnsRest_modSched _ _ fun _ => id) fun _ => .refl _
    exact (warned.trans held).trans (suspected _)
  have relieved : TurnsRest d (d.becomeRelieved g) := by
    unfold Dev.becomeRelieved
    extract_lets +onlyGivenNames d1
    have told : TurnsRest d d1 := (touches_setSegState _ _ _).rests.trans (touches_raise _ _ _).rests
    exact told.trans (TurnsRest.ite (fun _ => turnsRest_modSched _ _ fun _ => id) fun _ => .refl _)
  unfold Dev.testThresholds
  dsimp only
  split
  · exact TurnsRest.ite (fun _ => tripped _) fun _ => TurnsRest.ite (fun _ => strained) fun _ => .refl _
  · exact TurnsRest.ite (fun _ => tripped _) fun _ => TurnsRest.ite (fun _ => relieved) fun _ => .refl _
  · exact TurnsRest.ite (fun _ => tripped _) fun _ => .refl _
  all_goals exact .refl _

theorem turnsRest_report (d : Dev) (g : Seg) (o : ExOutcome) (n : Nat) (b : Bool) : TurnsRest d (d.report g o n b) := by
  unfold Dev.report
  refine TurnsRest.ite (fun _ => .refl _) fun _ => ?_
  split
  · exact (touches_modMon _ _ _).rests.trans (turnsRest_testThresholds _ _ _)
  · exact TurnsRest.ite (fun _ => .refl _) fun _ => (touches_modMon _ _ _).rests.trans (turnsRest_testThresholds _ _ _)

/-! ### The parts of an exchange's end -/

/-- The turn of an exchange has ended and its outcome is counted (R14). -/
def Dev.concluded (d : Dev) (g : Seg) (o : ExOutcome) : Dev := (d.dropTurn g).countSeg g o.counter

/-- The outcome has reached whoever asked for the exchange, and the directory (R14). -/
def Dev.outcomeTold (d : Dev) (g : Seg) (item : TurnItem) (x : Exchange) (o : ExOutcome) (f : TrunkFrame) : Dev :=
  ((d.concluded g o).itemOutcome g item x o f).directoryOutcome g x o f

theorem Dev.endExchange_eq (d : Dev) (g : Seg) (item : TurnItem) (x : Exchange) (o : ExOutcome) (f : TrunkFrame) :
    d.endExchange g item x o f =
      ((d.outcomeTold g item x o f).report g o x.number x.wasSlow).modSeg g Segment.settleEnable := rfl

theorem touches_concluded (d : Dev) (g : Seg) (o : ExOutcome) : Touches (.sched :: Piece.counted) d (d.concluded g o) :=
  Touches.then (touches_dropTurn _ _) (touches_countSeg _ _ _)

theorem oneSeg_concluded (d : Dev) (g : Seg) (o : ExOutcome) : OneSeg g d (d.concluded g o) :=
  (oneSeg_modSched _ _ _).trans ((touches_countSeg _ _ _).oneSeg rfl g)

theorem Dev.concluded_seg (d : Dev) (g : Seg) (o : ExOutcome) : (d.concluded g o).seg g =
    { d.seg g with sched := { (d.seg g).sched with turn := none } } := by
  rw [Dev.concluded, (touches_countSeg _ _ _).seg_eq, Dev.dropTurn, Dev.modSched_seg]

/-- The turn is over when an exchange has ended, whatever its outcome (R14). -/
theorem Dev.endExchange_turn (d : Dev) (g : Seg) (item : TurnItem) (x : Exchange) (o : ExOutcome) (f : TrunkFrame) :
    ((d.endExchange g item x o f).seg g).sched.turn = none := by
  have ended : ((d.concluded g o).seg g).sched.turn = none := by rw [Dev.concluded_seg]
  rw [Dev.endExchange_eq]
  exact TurnsRest.trans (turnsRest_report _ _ _ _ _) (touches_settle _ _).rests g (turnsRest_directoryOutcome _ _ _ _ _ g
    (turnsRest_itemOutcome _ _ _ _ _ _ g ended))

end Sys2Proof.Machine
end

