-- ==== Sys2Proof/Proofs/ExchangeEffects.lean ====
section
/-! What the end of an exchange leaves of the station's entry and of a calm line (R15, R19, R42, R43, R111 to R117). -/

namespace Sys2Proof.Machine

open Sys2Proof

-- one proof after another: proofs that wait for each other take a thread each
set_option Elab.async false

variable {c d e : Dev} {g : Seg} {s : State} {l : List Piece} {n : Nat} {item : TurnItem} {x : Exchange}

/-! ### Entries that the Line Monitor reviews -/

/-- Entries that differ in nothing but the state, with its cause and its time. -/
def Station.AsReviewed (x y : Station) : Prop := y = { x with state := y.state, cause := y.cause, absentSince := y.absentSince }

/-- Entries may have changed state, but none that was QUARANTINED has. -/
structure Reviewed (d e : Dev) : Prop where
  eids : e.stations.map (·.eid) = d.stations.map (·.eid)
  entry : ∀ n x, d.stationById n = some x → ∃ y, e.stationById n = some y ∧ x.AsReviewed y
  barred : (d.stations.map (·.eid)).Nodup → ∀ n x, d.stationById n = some x → x.state = .quarantined →
    e.stationById n = some x

theorem reviewed_of_same (same : e.stations = d.stations) : Reviewed d e :=
  ⟨congrArg _ same, fun n x found => ⟨x, (Dev.stationById_congr same n).trans found, rfl⟩,
    fun _ n _ found _ => (Dev.stationById_congr same n).trans found⟩

theorem Reviewed.refl (d : Dev) : Reviewed d d := reviewed_of_same rfl

theorem Reviewed.trans (h : Reviewed d e) (k : Reviewed e c) : Reviewed d c := by
  refine ⟨k.eids.trans h.eids, fun n x found => ?_, fun nodup n x found out => ?_⟩
  · obtain ⟨y, there, seen⟩ := h.entry n x found
    obtain ⟨z, here, again⟩ := k.entry n y there
    refine ⟨z, here, ?_⟩
    unfold Station.AsReviewed at seen again ⊢
    rw [again, seen]
  · exact k.barred (h.eids ▸ nodup) n x (h.barred nodup n x found out) out

theorem Touches.reviewed (t : Touches l d e) (apart : Piece.stations ∉ l := by decide) : Reviewed d e :=
  reviewed_of_same (t .stations apart).symm

theorem Reviewed.ite {b : Prop} [Decidable b] (h : b → Reviewed d e) (k : ¬ b → Reviewed d c) :
    Reviewed d (if b then e else c) := by
  split
  · exact h ‹_›
  · exact k ‹_›

/-- Shutting out an entry that is not QUARANTINED is a review of the table. -/
theorem reviewed_shutOut {a : Station} (member : a ∈ d.stations) (free : a.state ≠ .quarantined) (st : StationState)
    (q : Option QuarantineCause) : Reviewed d (d.shutOut a st q) := by
  have same := d.shutOut_stations a st q
  have changed := fun {x : Station} (found : d.stationById a.eid = some x) =>
    Dev.modStation_byId found (f := fun e => e.inState st q d.uptime) fun _ => rfl
  have apart : ∀ m, m ≠ a.eid → (d.shutOut a st q).stationById m = d.stationById m := fun m other =>
    (Dev.stationById_congr same m).trans (find?_modifyFirst_apart fun b _ here => by
      have named : b.eid = a.eid := by simpa using here
      have apart : (b.eid == m) = false := by simpa [named] using Ne.symm other
      exact ⟨apart, apart⟩)
  refine ⟨d.shutOut_eids a st q, fun m x found => ?_, fun nodup m x found out => ?_⟩
  · by_cases same' : m = a.eid
    · subst same'
      exact ⟨_, (Dev.stationById_congr same _).trans (changed found).1, rfl⟩
    · exact ⟨x, (apart m same').trans found, rfl⟩
  · refine (apart m fun same' => ?_).trans found
    subst same'
    have first : d.stationById a.eid = some a := find?_key Station.eid nodup member
    obtain rfl := Option.some.inj (first.symm.trans found)
    exact free out

theorem reviewed_quarantineSuspect (d : Dev) (g : Seg) (n : Nat) : Reviewed d (d.quarantineSuspect g n) := by
  unfold Dev.quarantineSuspect
  split
  · rename_i a found
    refine Reviewed.ite (fun _ => .refl _) fun free => ?_
    exact (reviewed_shutOut (Dev.station_some found).1 (by simpa using free) _ _).trans (touches_raise _ _ _).reviewed
  · exact .refl _

theorem reviewed_trip (d : Dev) (g : Seg) (f : TripFrom) : Reviewed d (d.trip g f) := by
  rw [Dev.trip_eq]
  have state : Touches [.mon, .txEnable] d (d.tripState g) := by
    unfold Dev.tripState
    extract_lets +onlyGivenNames d1
    have counted : Touches [.mon, .txEnable] d d1 := (touches_modMon _ _ _).mono
    exact counted.trans (Touches.ite (fun _ => touches_enterCooling _ _) fun _ => touches_setSegState _ _ _)
  exact ((state.reviewed.trans (touches_tripTold _ _ _).reviewed).trans (touches_recordTrip _ _ _ _).reviewed).trans
    (touches_departure _ _).reviewed

theorem reviewed_testThresholds (d : Dev) (g : Seg) (b : Bool) : Reviewed d (d.testThresholds g b) := by
  have suspected : ∀ d : Dev, Reviewed d (d.suspectAnalysis g) := fun d => by
    unfold Dev.suspectAnalysis
    split
    · exact .refl _
    · split
      · exact .refl _
      · exact Reviewed.ite (fun _ => .refl _) fun _ => (touches_modMon _ _ _).reviewed.trans
          (reviewed_quarantineSuspect _ _ _)
  have strained : Reviewed d (d.becomeStrained g) := by
    unfold Dev.becomeStrained
    extract_lets +onlyGivenNames d1 d2
    have warned : Reviewed d d1 := (touches_setSegState _ _ _).reviewed.trans (touches_raise _ _ _).reviewed
    have held : Reviewed d1 d2 := Reviewed.ite (fun _ => (touches_withdrawHold _ _ _).reviewed) fun _ => .refl _
    exact (warned.trans held).trans (suspected _)
  have relieved : Reviewed d (d.becomeRelieved g) := by
    unfold Dev.becomeRelieved
    extract_lets +onlyGivenNames d1
    have told : Reviewed d d1 := (touches_setSegState _ _ _).reviewed.trans (touches_raise _ _ _).reviewed
    exact told.trans (Reviewed.ite (fun _ => (touches_askHold _ _ _).reviewed) fun _ => .refl _)
  unfold Dev.testThresholds
  dsimp only
  split
  · exact Reviewed.ite (fun _ => reviewed_trip _ _ _) fun _ => Reviewed.ite (fun _ => strained) fun _ => .refl _
  · exact Reviewed.ite (fun _ => reviewed_trip _ _ _) fun _ => Reviewed.ite (fun _ => relieved) fun _ => .refl _
  · exact Reviewed.ite (fun _ => reviewed_trip _ _ _) fun _ => .refl _
  all_goals exact .refl _

theorem reviewed_report (d : Dev) (g : Seg) (o : ExOutcome) (n : Nat) (b : Bool) : Reviewed d (d.report g o n b) := by
  unfold Dev.report
  refine Reviewed.ite (fun _ => .refl _) fun _ => ?_
  split
  · exact (touches_modMon _ _ _).reviewed.trans (reviewed_testThresholds _ _ _)
  · exact Reviewed.ite (fun _ => .refl _) fun _ => (touches_modMon _ _ _).reviewed.trans (reviewed_testThresholds _ _ _)

/-- What the directory has made of the table when an exchange ends stands, but for reviews (R14). -/
theorem reviewed_endExchange (d : Dev) (g : Seg) (item : TurnItem) (x : Exchange) (o : ExOutcome) (f : TrunkFrame) :
    Reviewed (d.outcomeTold g item x o f) (d.endExchange g item x o f) := by
  rw [Dev.endExchange_eq]
  exact (reviewed_report _ _ _ _ _).trans (touches_settle _ _).reviewed

/-! ### Exchanges in flight -/

theorem Dev.exchange_of (turn : (d.seg g).sched.turn = some ⟨item, .exchange x⟩) : d.exchange g = some (item, x) := by
  rw [Dev.exchange, turn]

theorem Dev.replyReceived_of {r : Reply} (turn : (d.seg g).sched.turn = some ⟨item, .exchange x⟩)
    (heard : d.replyHeard g x r.cells r.cells = true) : d.replyReceived g r =
      d.endExchange g item x (classify (expectOf item x) x.number r) (parseTrunk r.bytes) := by
  rw [Dev.replyReceived, Dev.exchange_of turn]
  exact if_pos heard

theorem Dev.replyJabber_of (turn : (d.seg g).sched.turn = some ⟨item, .exchange x⟩)
    (heard : d.replyHeard g x jabberLeast jabberMost = true) :
    d.replyJabber g = d.endExchange g item x (.failed .jabber) noFrame := by
  rw [Dev.replyJabber, Dev.exchange_of turn]
  exact if_pos heard

theorem Dev.replyTimeout_of (turn : (d.seg g).sched.turn = some ⟨item, .exchange x⟩) (quiet : x.delimiter = false) :
    d.replyTimeout g = (d.reach x.deadline).endExchange g item x (.failed .timeout) noFrame := by
  rw [Dev.replyTimeout, Dev.exchange_of turn]
  exact if_neg (by simp [quiet])

/-- The exchange's part before the directory hears of it leaves the station table as it was. -/
theorem Dev.itemOutcome_stations (d : Dev) (g : Seg) (item : TurnItem) (x : Exchange) (o : ExOutcome) (f : TrunkFrame) :
    ((d.concluded g o).itemOutcome g item x o f).stations = d.stations :=
  (touches_itemOutcome (d.concluded g o) g item x o f .stations (by decide)).symm.trans
    (touches_concluded d g o .stations (by decide)).symm

theorem Dev.itemOutcome_uptime (d : Dev) (g : Seg) (item : TurnItem) (x : Exchange) (o : ExOutcome) (f : TrunkFrame) :
    ((d.concluded g o).itemOutcome g item x o f).uptime = d.uptime :=
  (touches_itemOutcome (d.concluded g o) g item x o f .uptime (by decide)).symm.trans
    (touches_concluded d g o .uptime (by decide)).symm

/-! ### A GOOD outcome -/

theorem Dev.directoryOutcome_good {a : Station} (eid : x.eid = some a.eid) (found : d.stationById a.eid = some a)
    (f : TrunkFrame) : d.directoryOutcome g x .good f =
      (let d1 := if f.kind = kData then d.takeData g a f else d
       let d2 := if f.kind = kAccept then d1.modStation a.eid fun e => { e with nextBit := !e.nextBit } else d1
       let d3 := if startsBackoff a f then d2.startBackoff g a.number else d2
       d3.stationGood a) := by
  have bound : x.eid.bind d.stationById = some a := by rw [eid]; exact found
  unfold Dev.directoryOutcome
  rw [bound]

/-- What the DATA of a station does to its entry: its pending ack and its last sequence bit may have changed (R17). -/
theorem Dev.takeData_station {a b : Station} (found : d.stationById a.eid = some b) (f : TrunkFrame) :
    ∃ pa seq, (d.takeData g a f).stationById a.eid = some { b with pendingAck := pa, lastSeq := seq } := by
  have keeps : ∀ {e e' : Dev} {l : List Piece}, Touches l e e' → Piece.stations ∉ l →
      e.stationById a.eid = some b → e'.stationById a.eid = some b := fun t apart there =>
    (Dev.stationById_congr (t .stations apart).symm _).trans there
  have drops : ∀ {e : Dev} (k : SegDrop) {y : Station}, e.stationById a.eid = some y →
      (e.dropSeg g k).stationById a.eid = some y := fun {e} k {y} there =>
    (Dev.stationById_congr (touches_dropSeg e g k .stations (by decide)).symm _).trans there
  have forwards : ∀ {r : Dev × Verdict}, (d.countSeg g .framesIn).forwardCoax g a.number f.peer (frameMark f) f.payload = r →
      r.1.stationById a.eid = some b := fun same => by
    subst same
    exact keeps (touches_forwardCoax _ _ _ _ _ _) (by decide) (keeps (touches_countSeg _ _ _) (by decide) found)
  have marks := fun {e : Dev} (there : e.stationById a.eid = some b) (h : Station → Station) (same : ∀ e, (h e).eid = e.eid) =>
    (Dev.modStation_byId there same).1
  unfold Dev.takeData
  dsimp only
  split
  iterate 2 exact ⟨_, _, drops _ found⟩
  all_goals
    split
    · exact ⟨_, _, drops _ (marks found (fun e => { e with pendingAck := .ack }) fun _ => rfl)⟩
    · split
      · rename_i forwarded
        exact ⟨_, _, marks (forwards forwarded) _ fun _ => rfl⟩
      · rename_i forwarded
        exact ⟨_, _, marks (forwards forwarded) (fun e => { e with pendingAck := .busy }) fun _ => rfl⟩
      · rename_i forwarded
        exact ⟨_, _, drops _ (marks (forwards forwarded) _ fun _ => rfl)⟩

/-- The entry of a station after a GOOD outcome: heard now, without misses and strikes, its downstream bit turned by an
ACCEPT alone (R15, R19, R42, R43). -/
theorem Dev.directoryOutcome_good_station {a : Station} (eid : x.eid = some a.eid) (found : d.stationById a.eid = some a)
    (f : TrunkFrame) : ∃ pa seq, (d.directoryOutcome g x .good f).stationById a.eid = some { a with
      pendingAck := pa, lastSeq := seq, misses := 0, jabStrikes := 0, lastHeard := some d.uptime
      nextBit := if f.kind = kAccept then !a.nextBit else a.nextBit
      state := if a.state = .slow then .present else a.state } := by
  rw [Dev.directoryOutcome_good eid found]
  extract_lets d1 d2 d3
  have one : (∃ pa seq, d1.stationById a.eid = some { a with pendingAck := pa, lastSeq := seq }) ∧ d1.uptime = d.uptime := by
    simp only [d1]
    split
    · exact ⟨Dev.takeData_station found f, (touches_takeData d g a f .uptime (by decide)).symm⟩
    · exact ⟨⟨_, _, found⟩, rfl⟩
  obtain ⟨⟨pa, seq, there⟩, now⟩ := one
  have two : d2.stationById a.eid = some { a with
      pendingAck := pa, lastSeq := seq, nextBit := if f.kind = kAccept then !a.nextBit else a.nextBit } ∧
      d2.uptime = d1.uptime := by
    simp only [d2]
    split
    · exact ⟨(Dev.modStation_byId there (f := fun e => { e with nextBit := !e.nextBit }) fun _ => rfl).1, rfl⟩
    · exact ⟨there, rfl⟩
  have three : d3.stationById a.eid = d2.stationById a.eid ∧ d3.uptime = d2.uptime := by
    simp only [d3]
    split <;> exact ⟨rfl, rfl⟩
  refine ⟨pa, seq, ?_⟩
  have heard := (Dev.modStation_byId (three.1.trans two.1) (f := fun e =>
    { e with
      misses := 0, jabStrikes := 0, lastHeard := some d3.uptime
      state := if e.state = .slow then .present else e.state }) fun _ => rfl).1
  rw [← three.2.trans (two.2.trans now)]
  exact heard

/-- Settles O25: of what follows the directory's part only a review reaches the entry. -/
theorem goodReplyReachesTheDirectory : Obligations.GoodReplyReachesTheDirectory := by
  intro g reply dt s item x a turn heard good eid found
  have ran := Dev.replyReceived_of (d := s.dev.elapse dt) turn heard
  rw [good] at ran
  have same := (s.dev.elapse dt).itemOutcome_stations g item x .good (parseTrunk reply.bytes)
  have now := (s.dev.elapse dt).itemOutcome_uptime g item x .good (parseTrunk reply.bytes)
  obtain ⟨pa, seq, there⟩ := Dev.directoryOutcome_good_station (g := g) eid
    ((Dev.stationById_congr same a.eid).trans found) (parseTrunk reply.bytes)
  rw [now] at there
  obtain ⟨y, here, seen⟩ := (reviewed_endExchange (s.dev.elapse dt) g item x .good (parseTrunk reply.bytes)).entry _ _ there
  have framed := Touches.then (n := .clock :: Piece.monitoring) (touches_elapse s.dev dt)
    (touches_endExchange (s.dev.elapse dt) g item x .good (parseTrunk reply.bytes))
  refine ⟨_, y, next_congr s ran, rfl, Dev.endExchange_turn _ _ _ _ _ _, here, ?_⟩
  unfold Station.AsReviewed at seen
  rw [seen]
  exact ⟨rfl, rfl, rfl, rfl, rfl, rfl, rfl, rfl, rfl, framed⟩

/-! ### A failed outcome -/

theorem Dev.directoryOutcome_failed {a : Station} (eid : x.eid = some a.eid) (found : d.stationById a.eid = some a)
    (k : FailCause) (f : TrunkFrame) : d.directoryOutcome g x (.failed k) f = d.stationFailed a k := by
  have bound : x.eid.bind d.stationById = some a := by rw [eid]; exact found
  unfold Dev.directoryOutcome
  rw [bound]

/-- The second jabber strike of a station that is not QUARANTINED (R43). -/
theorem Dev.stationFailed_strike {a : Station} (found : d.stationById a.eid = some a) (strike : a.jabStrikes = 1)
    (free : a.state ≠ .quarantined) : (d.stationFailed a .jabber).stationById a.eid = some { a with
      misses := min (a.misses + 1) 255, jabStrikes := 0, state := .quarantined, cause := some .jabber, absentSince := none } ∧
    (d.stationFailed a .jabber).stations.map (·.eid) = d.stations.map (·.eid) := by
  have missed := (Dev.modStation_byId found (f := fun e => { e with misses := sat255 a.misses, jabStrikes := 0 }) fun _ => rfl).1
  have names := map_modifyFirst (p := fun e => e.eid == a.eid)
    (f := fun e : Station => { e with misses := sat255 a.misses, jabStrikes := 0 }) (fun e : Station => e.eid)
    (fun _ _ => rfl) d.stations
  have struck : d.stationFailed a .jabber = ((d.modStation a.eid fun e =>
      { e with misses := sat255 a.misses, jabStrikes := 0 }).shutOut a .quarantined (some .jabber)).raise
        .stationJabber (.station a.seg a.number) := by
    unfold Dev.stationFailed
    simp [strike, free]
  rw [struck]
  generalize hm : (d.modStation a.eid fun e => { e with misses := sat255 a.misses, jabStrikes := 0 }) = m at *
  have same : ((m.shutOut a .quarantined (some .jabber)).raise .stationJabber (.station a.seg a.number)).stations =
      (m.restated a .quarantined (some .jabber)).stations :=
    (touches_raise _ _ _ .stations (by decide)).symm.trans (m.shutOut_stations a .quarantined (some .jabber))
  refine ⟨(Dev.stationById_congr same _).trans (Dev.modStation_byId missed (f := fun e =>
    e.inState .quarantined (some .jabber) m.uptime) fun _ => rfl).1, ?_⟩
  have raised := touches_raise (m.shutOut a .quarantined (some .jabber)) .stationJabber (.station a.seg a.number)
    .stations (by decide)
  rw [← raised, Dev.shutOut_eids, ← hm]
  exact names

/-- Settles O29. -/
theorem secondJabberStrikeQuarantines : Obligations.SecondJabberStrikeQuarantines := by
  intro g dt s item x a ok turn heard eid found strike free
  have ran := Dev.replyJabber_of (d := s.dev.elapse dt) turn heard
  have same := (s.dev.elapse dt).itemOutcome_stations g item x (.failed .jabber) noFrame
  have told := Dev.directoryOutcome_failed (g := g) eid ((Dev.stationById_congr same a.eid).trans found) .jabber noFrame
  obtain ⟨there, names⟩ := Dev.stationFailed_strike ((Dev.stationById_congr same a.eid).trans found) strike free
  rw [same] at names
  rw [← told] at there names
  have kept := (reviewed_endExchange (s.dev.elapse dt) g item x (.failed .jabber) noFrame).barred
    (by rw [Dev.outcomeTold, names]; exact ok.eids) _ _ there rfl
  have framed := Touches.then (n := .clock :: Piece.monitoring) (touches_elapse s.dev dt)
    (touches_endExchange (s.dev.elapse dt) g item x (.failed .jabber) noFrame)
  exact ⟨_, _, next_congr s ran, rfl, Dev.endExchange_turn _ _ _ _ _ _, kept, rfl, rfl, rfl, rfl, rfl, rfl, framed⟩

end Sys2Proof.Machine
end

