-- ==== Sys2Proof/Proofs/CalmLines.lean ====
section
/-! Outcomes on a line that stays below its thresholds: what the Line Monitor makes of them, and the ends of a POLL and of
a DELIVER (R15, R21, R22, R42, R111 to R117). -/

namespace Sys2Proof.Machine

open Sys2Proof

-- one proof after another: proofs that wait for each other take a thread each
set_option Elab.async false

variable {c d e : Dev} {g : Seg} {s : State} {l : List Piece} {n : Nat} {item : TurnItem} {x : Exchange}

/-! ### Reports below the thresholds -/

theorem Dev.testThresholds_below (active : (d.seg g).mon.state = .active) (warn : (d.seg g).mon.strain < (d.seg g).cfg.warn)
    (trip : (d.seg g).mon.strain < (d.seg g).cfg.trip) (b : Bool) : d.testThresholds g b = d := by
  unfold Dev.testThresholds
  dsimp only
  rw [active]
  exact (if_neg (Nat.not_le.mpr trip)).trans (if_neg (Nat.not_le.mpr warn))

/-- A drain (R113). -/
def Monitor.drained (m : Monitor) (c : SegSettings) : Monitor := { m with run := 0, strain := m.strain - c.drain }

theorem Dev.report_calm (calm : CalmLine (d.seg g)) (n : Nat) (b : Bool) :
    d.report g .good n b = d.modMon g fun m => m.drained (d.seg g).cfg := by
  obtain ⟨active, warn, trip⟩ := calm
  have serves : d.inService g = true := by rw [Dev.inService, active]; rfl
  have drained := d.modMon_seg g fun m => m.drained (d.seg g).cfg
  have below : (d.modMon g fun m => m.drained (d.seg g).cfg).testThresholds g true =
      d.modMon g fun m => m.drained (d.seg g).cfg := by
    refine Dev.testThresholds_below ?_ ?_ ?_ true <;> rw [drained]
    · exact active
    · exact Nat.lt_of_le_of_lt (Nat.sub_le _ _) warn
    · exact Nat.lt_of_le_of_lt (Nat.sub_le _ _) trip
  rw [Dev.report, serves]
  exact below

/-- A segment that a charge leaves below its thresholds (R114). -/
def Segment.BearsCharge (q : Segment) (k : FailCause) : Prop :=
  q.mon.state = .active ∧ q.strainAfter k < q.cfg.warn ∧ q.strainAfter k < q.cfg.trip

theorem Dev.report_borne {k : FailCause} (bears : (d.seg g).BearsCharge k) (n : Nat) :
    d.report g (.failed k) n false = d.modMon g fun m => m.charged (d.seg g).cfg k n d.uptime := by
  obtain ⟨active, warn, trip⟩ := bears
  have serves : d.inService g = true := by rw [Dev.inService, active]; rfl
  have charged := d.modMon_seg g fun m => m.charged (d.seg g).cfg k n d.uptime
  rw [Dev.report_failed serves]
  refine Dev.testThresholds_below ?_ ?_ ?_ false <;> rw [charged]
  · exact active
  · exact warn
  · exact trip

theorem CalmLine.congr {q r : Segment} (calm : CalmLine q) (mon : r.mon = q.mon) (cfg : r.cfg = q.cfg) : CalmLine r := by
  unfold CalmLine
  rw [mon, cfg]
  exact calm

theorem Segment.BearsCharge.congr {q r : Segment} {k : FailCause} (bears : q.BearsCharge k) (mon : r.mon = q.mon)
    (cfg : r.cfg = q.cfg) : r.BearsCharge k := by
  unfold Segment.BearsCharge Segment.strainAfter
  rw [mon, cfg]
  exact bears

/-! ### Ends of exchanges below the thresholds -/

theorem touches_outcomeTold (d : Dev) (g : Seg) (item : TurnItem) (x : Exchange) (o : ExOutcome) (f : TrunkFrame) :
    Touches Piece.directing d (d.outcomeTold g item x o f) :=
  Touches.then (n := Piece.directing) (touches_concluded d g o)
    (Touches.then (n := Piece.directing) (touches_itemOutcome _ g item x o f) (touches_directoryOutcome _ g x o f))

/-- After an outcome has been told the Line Monitor alone acts, and the transmit enable follows. -/
structure Settled (g : Seg) (d e : Dev) (m : Monitor) : Prop where
  frame : Touches [.mon, .txEnable] d e
  mon : (e.seg g).mon = m
  others : OneSeg g d e

theorem settled_modMon (d : Dev) (g : Seg) (f : Monitor → Monitor) :
    Settled g d ((d.modMon g f).modSeg g Segment.settleEnable) (f (d.seg g).mon) :=
  ⟨Touches.then (touches_modMon _ _ _) (touches_settle _ _), by rw [Dev.modSeg_seg, Dev.modMon_seg]; rfl,
    (oneSeg_modMon _ _ _).trans (oneSeg_modSeg _ _ _)⟩

/-- A GOOD outcome drains a calm line and does no more there (R113). -/
theorem Dev.endExchange_calm (calm : CalmLine (d.seg g)) (item : TurnItem) (x : Exchange) (f : TrunkFrame) :
    Settled g (d.outcomeTold g item x .good f) (d.endExchange g item x .good f) ((d.seg g).mon.drained (d.seg g).cfg) := by
  have told := touches_outcomeTold d g item x .good f
  have mon := told .mon (by decide) g
  have cfg := told .cfg (by decide) g
  have settled := settled_modMon (d.outcomeTold g item x .good f) g fun m => m.drained (d.seg g).cfg
  rw [← mon] at settled
  rw [Dev.endExchange_eq, Dev.report_calm (calm.congr mon.symm cfg.symm), ← cfg]
  exact settled

/-- A failure that the line bears charges it and does no more there (R112). -/
theorem Dev.endExchange_borne {k : FailCause} (bears : (d.seg g).BearsCharge k) (slow : x.wasSlow = false) (item : TurnItem)
    (f : TrunkFrame) : Settled g (d.outcomeTold g item x (.failed k) f) (d.endExchange g item x (.failed k) f)
      ((d.seg g).mon.charged (d.seg g).cfg k x.number d.uptime) := by
  have told := touches_outcomeTold d g item x (.failed k) f
  have mon := told .mon (by decide) g
  have cfg := told .cfg (by decide) g
  have now := told .uptime (by decide)
  have settled := settled_modMon (d.outcomeTold g item x (.failed k) f) g fun m =>
    m.charged (d.seg g).cfg k x.number d.uptime
  rw [← mon] at settled
  rw [Dev.endExchange_eq, slow, Dev.report_borne (bears.congr mon.symm cfg.symm), ← cfg, ← now]
  exact settled

/-! ### The timeout of a POLL -/

/-- What a timeout leaves of a PRESENT station's entry (R15, R42). -/
theorem Dev.stationFailed_present {a : Station} (found : d.stationById a.eid = some a) (present : a.state = .present) :
    (d.stationFailed a .timeout).stationById a.eid = some { a with
      misses := min (a.misses + 1) 255, jabStrikes := 0, state := if 2 ≤ a.misses then .slow else .present } ∧
    Touches [.stations] d (d.stationFailed a .timeout) := by
  have missed := (Dev.modStation_byId found (f := fun e => { e with misses := sat255 a.misses, jabStrikes := 0 }) fun _ => rfl).1
  have enough : 3 ≤ sat255 a.misses ↔ 2 ≤ a.misses := by
    unfold sat255
    omega
  have failed : d.stationFailed a .timeout =
      if 3 ≤ sat255 a.misses then (d.modStation a.eid fun e =>
        { e with misses := sat255 a.misses, jabStrikes := 0 }).modStation a.eid fun e => { e with state := .slow }
      else d.modStation a.eid fun e => { e with misses := sat255 a.misses, jabStrikes := 0 } := by
    unfold Dev.stationFailed
    simp [present]
  rw [failed]
  split
  · rename_i third
    rw [if_pos (enough.mp third)]
    exact ⟨(Dev.modStation_byId missed (f := fun e => { e with state := .slow }) fun _ => rfl).1,
      (touches_modStation _ _ _).trans (touches_modStation _ _ _)⟩
  · rename_i few
    rw [if_neg fun third => few (enough.mpr third), ← present]
    exact ⟨missed, touches_modStation _ _ _⟩

/-- Settles O28. -/
theorem timeoutChargesAndMisses : Obligations.TimeoutChargesAndMisses := by
  intro g s x a m q strain turn quiet eid slow found present active warn trip
  have ran := Dev.replyTimeout_of turn quiet
  have bears : ((s.dev.reach x.deadline).seg g).BearsCharge .timeout := ⟨active, warn, trip⟩
  have settled := Dev.endExchange_borne bears slow (.poll a.eid) noFrame
  have closed := touches_concluded (s.dev.reach x.deadline) g (.failed .timeout)
  have one := oneSeg_concluded (s.dev.reach x.deadline) g (.failed .timeout)
  have there : ((s.dev.reach x.deadline).concluded g (.failed .timeout)).stationById a.eid = some a :=
    (Dev.stationById_congr (closed .stations (by decide)).symm a.eid).trans found
  obtain ⟨missed, failed⟩ := Dev.stationFailed_present there present
  have told : (s.dev.reach x.deadline).outcomeTold g (.poll a.eid) x (.failed .timeout) noFrame =
      ((s.dev.reach x.deadline).concluded g (.failed .timeout)).stationFailed a .timeout :=
    Dev.directoryOutcome_failed eid there .timeout noFrame
  rw [told] at settled
  refine ⟨_, next_congr s ran, rfl, ?_⟩
  have framed : Touches ([.clock, .sched, .mon, .txEnable, .stations] ++ Piece.counted) s.dev
      ((s.dev.reach x.deadline).endExchange g (.poll a.eid) x (.failed .timeout) noFrame) :=
    Touches.then (n := [.clock, .sched, .mon, .txEnable, .stations] ++ Piece.counted) (touches_reach s.dev x.deadline)
      (Touches.then (n := [.sched, .mon, .txEnable, .stations] ++ Piece.counted) closed
        (Touches.then (n := [.mon, .txEnable, .stations]) failed settled.frame))
  refine ⟨?_, Dev.endExchange_turn _ _ _ _ _ _,
    (Dev.stationById_congr (settled.frame .stations (by decide)).symm a.eid).trans missed, settled.mon, fun h hh => ?_, framed⟩
  · exact (touches_endExchange (s.dev.reach x.deadline) g (.poll a.eid) x (.failed .timeout) noFrame .clock (by decide)).symm
  · exact (settled.others h hh).trans (((failed.oneSeg rfl g) h hh).trans (one h hh))

end Sys2Proof.Machine
end

