-- ==== Sys2Proof/Proofs/DeliverOutcomes.lean ====
section
/-! The outcome of a transit frame's DELIVER: the frame leaves its queue, or stays with one try more (R21, R22, R93). -/

namespace Sys2Proof.Machine

open Sys2Proof

-- one proof after another: proofs that wait for each other take a thread each
set_option Elab.async false

variable {c d e : Dev} {g : Seg} {s : State} {l : List Piece} {n : Nat} {x : Exchange} {q : DownFrame} {f : TrunkFrame}

/-! ### Counters on the way -/

/-- Counter groups that are whole stay so: the law of the counters rests on no other. -/
theorem CountersOk.sound (ok : CountersOk d) : Sound (fun k => k = .counters) Slack.none d :=
  ⟨by constructor <;> decide, fun _ => ⟨Int.le_refl _, Int.le_refl _⟩, fun _ hk => hk ▸ ok⟩

theorem Sound.countersOk {w : Slack} (h : Sound (fun k => k = .counters) w d) : CountersOk d := h.holds _ rfl

/-- What touches no group of counters moves no counter. -/
theorem Touches.counter_eq (t : Touches l d e) (apart : ([Piece.segCounters, .upCounters, .spoolCounters].any fun p =>
    l.contains p) = false := by rfl) (k : CounterId) : e.ev.counter k = d.ev.counter k := by
  have same : ∀ p ∈ [Piece.segCounters, .upCounters, .spoolCounters], p.same d e := fun p hp => t p fun hl =>
    Bool.eq_false_iff.mp apart (List.any_eq_true.mpr ⟨p, hp, List.contains_iff_mem.mpr hl⟩)
  exact EventUnit.counter_congr (same .segCounters (by decide)).symm (same .upCounters (by decide)).symm
    (same .spoolCounters (by decide)).symm k

/-! ### A frame leaves its queue -/

theorem touches_removed (d : Dev) (g : Seg) (q : DownFrame) :
    Touches ([.downq, .pool, .pauseState] ++ Piece.selecting) d (d.removeFrame g q) :=
  Touches.then (Touches.then (n := .downq :: Piece.pooling) (touches_setDownq _ _ _) (touches_freeTransit _ _))
    (touches_selectAll _)

theorem Dev.removeFrame_transit (d : Dev) (g : Seg) (q : DownFrame) :
    (d.removeFrame g q).pool.transit = d.pool.transit - q.blocks.length := by
  rw [Dev.removeFrame, ← touches_selectAll _ .pool (by decide), Dev.freeTransit_pool]
  rfl

/-- A frame that leaves its queue under a counter. -/
def Dev.frameCounted (d : Dev) (g : Seg) (q : DownFrame) (k : SegCounter) : Dev := (d.removeFrame g q).countSeg g k

theorem touches_frameCounted (d : Dev) (g : Seg) (q : DownFrame) (k : SegCounter) :
    Touches ([.downq, .pool, .pauseState, .segCounters] ++ Piece.selecting) d (d.frameCounted g q k) :=
  Touches.then (touches_removed _ _ _) (touches_countSeg _ _ _)

theorem oneQueue_frameCounted (d : Dev) (g : Seg) (q : DownFrame) (k : SegCounter) : OneQueue g d (d.frameCounted g q k) :=
  (oneQueue_removeFrame _ _ _).trans (touches_countSeg _ _ _).oneQueue

theorem Dev.frameCounted_downq (d : Dev) (g : Seg) (q : DownFrame) (k : SegCounter) :
    ((d.frameCounted g q k).seg g).downq = removeFirst (fun x => x.fid == q.fid) (d.seg g).downq :=
  (touches_countSeg _ _ _ .downq (by decide) g).symm.trans (d.removeFrame_downq g q)

theorem Dev.frameCounted_pool (d : Dev) (g : Seg) (q : DownFrame) (k : SegCounter) :
    (d.frameCounted g q k).pool.free = d.pool.free + q.blocks.length ∧
    (d.frameCounted g q k).pool.transit = d.pool.transit - q.blocks.length := by
  have same := touches_countSeg (d.removeFrame g q) g k .pool (by decide)
  rw [Dev.frameCounted, ← same]
  exact ⟨d.removeFrame_pool g q, d.removeFrame_transit g q⟩

theorem Dev.frameCounted_counter (ok : CountersOk d) {k : SegCounter} (own : (CounterId.seg g k).incidental = false) :
    ((d.frameCounted g q k).ev.counter (.seg g k)).value = min ((d.ev.counter (.seg g k)).value + 1) 65535 := by
  have sound : CountersOk (d.removeFrame g q) := (ok.sound.removeFrame fun no => by cases no).countersOk
  rw [Dev.frameCounted, Dev.countSeg, Dev.count_counter sound (not_ofNotice_seg g k), Counter.bump_value,
    (aside_removeFrame d g q).counter _ own]

/-! ### The outcome -/

theorem Dev.itemOutcome_deliver (found : d.frame g n = some q) (x : Exchange) (o : ExOutcome) (f : TrunkFrame) :
    d.itemOutcome g (.deliver n) x o f = d.transitOutcome g q o f.kind := by
  unfold Dev.itemOutcome
  dsimp only
  rw [found]

theorem Dev.transitOutcome_accepted (unmarked : q.flushMark = false) :
    d.transitOutcome g q .good kAccept = d.frameCounted g q .framesOut := by
  unfold Dev.transitOutcome
  rw [unmarked]
  rfl

theorem Dev.transitOutcome_refused (unmarked : q.flushMark = false) : d.transitOutcome g q .good kRefuse =
    if 40 ≤ q.refused + 1 then d.frameCounted g q (.drop .deliverRefused)
    else d.modFrame g q.fid fun f => { f with refused := f.refused + 1 } := by
  unfold Dev.transitOutcome
  rw [unmarked]
  rfl

theorem Dev.transitOutcome_failed (unmarked : q.flushMark = false) (k : FailCause) (b : Byte) :
    d.transitOutcome g q (.failed k) b =
      if 3 ≤ q.failed + 1 then d.frameCounted g q (.drop .deliverFailed)
      else d.modFrame g q.fid fun f => { f with failed := f.failed + 1 } := by
  unfold Dev.transitOutcome
  rw [unmarked]
  rfl

theorem Dev.modFrame_frame (found : d.frame g n = some q) {f : DownFrame → DownFrame} (fid : ∀ q, (f q).fid = q.fid) :
    (d.modFrame g q.fid f).frame g n = some (f q) := by
  have named : q.fid = n := by simpa using List.find?_some found
  rw [Dev.frame, Dev.modFrame, Dev.modSeg_seg, named]
  exact find?_modifyFirst found (by simp [fid, named])

/-- The directory's part of a GOOD reply that is not DATA. -/
theorem touches_directoryOutcome_plain (plain : f.kind ≠ kData) (g : Seg) (x : Exchange) :
    Touches [.stations, .backoffs] d (d.directoryOutcome g x .good f) := by
  have unknown : x.eid.bind d.stationById = none → d.directoryOutcome g x .good f = d := fun none => by
    unfold Dev.directoryOutcome
    rw [none]
    exact if_neg plain
  cases eid : x.eid with
  | none =>
    rw [unknown (by rw [eid]; rfl)]
    exact .refl _ _
  | some k =>
    cases found : d.stationById k with
    | none =>
      rw [unknown (by rw [eid]; exact found)]
      exact .refl _ _
    | some a =>
      obtain rfl : a.eid = k := by simpa using List.find?_some found
      rw [Dev.directoryOutcome_good eid found]
      extract_lets d1 d2 d3
      have untaken : d1 = d := if_neg plain
      have turned : Touches [.stations, .backoffs] d1 d2 :=
        Touches.ite (fun _ => (touches_modStation _ _ _).mono) fun _ => .refl _ _
      have backed : Touches [.stations, .backoffs] d2 d3 :=
        Touches.ite (fun _ => (touches_startBackoff _ _ _).mono) fun _ => .refl _ _
      rw [untaken] at turned
      exact (turned.trans backed).trans (touches_stationGood _ _).mono

/-- A failure that the line bears leaves all but the Line Monitor and the transmit enable as told. -/
theorem Dev.endExchange_bears {k : FailCause} (bears : (d.seg g).BearsCharge k) (item : TurnItem) (x : Exchange)
    (f : TrunkFrame) : Touches [.mon, .txEnable] (d.outcomeTold g item x (.failed k) f) (d.endExchange g item x (.failed k) f) := by
  cases slow : x.wasSlow with
  | false => exact (Dev.endExchange_borne bears slow item f).frame
  | true =>
    have neutral : ∀ d : Dev, d.report g (.failed k) x.number true = d := fun d => by
      unfold Dev.report
      split <;> rfl
    rw [Dev.endExchange_eq, slow, neutral]
    exact (touches_settle _ _).mono

theorem Dev.frame_concluded (found : d.frame g n = some q) (o : ExOutcome) : (d.concluded g o).frame g n = some q := by
  rw [Dev.frame, ← touches_concluded d g o .downq (by decide) g]
  exact found

theorem touches_transitRefused (g : Seg) (unmarked : q.flushMark = false) :
    Touches ([.downq, .pool, .pauseState, .segCounters] ++ Piece.selecting) d (d.transitOutcome g q .good kRefuse) := by
  rw [Dev.transitOutcome_refused unmarked]
  exact Touches.ite (fun _ => touches_frameCounted _ _ _ _) fun _ => (touches_modFrame _ _ _ _).mono

/-- The end of a transit frame's DELIVER: what its outcome has made of the frame stands. -/
theorem Dev.endExchange_deliver {o : ExOutcome} (found : d.frame g n = some q) (x : Exchange) (f : TrunkFrame)
    (settled : Touches [.mon, .txEnable] (d.outcomeTold g (.deliver n) x o f) (d.endExchange g (.deliver n) x o f))
    (told : ∀ e : Dev, Touches [.stations, .backoffs] e (e.directoryOutcome g x o f)) :
    Touches [.mon, .txEnable, .stations, .backoffs] ((d.concluded g o).transitOutcome g q o f.kind)
      (d.endExchange g (.deliver n) x o f) := by
  rw [← Dev.itemOutcome_deliver (Dev.frame_concluded found o) x o f]
  exact Touches.then (told _) settled

/-- A frame that has left its queue under a counter, whatever the directory and the Line Monitor do afterwards. -/
theorem Dev.frameGone {o : ExOutcome} {k : SegCounter} (named : q.fid = n)
    (after : Touches [.mon, .txEnable, .stations, .backoffs] ((d.concluded g o).frameCounted g q k) e) :
    (e.seg g).downq = removeFirst (fun f => f.fid == n) (d.seg g).downq ∧
    e.pool.free = d.pool.free + q.blocks.length ∧ e.pool.transit = d.pool.transit - q.blocks.length ∧ OneQueue g d e ∧
    (CountersOk d → (CounterId.seg g k).incidental = false → CounterId.seg g k ≠ .seg g o.counter →
      (e.ev.counter (.seg g k)).value = min ((d.ev.counter (.seg g k)).value + 1) 65535) ∧
    Touches ([.mon, .txEnable, .stations] ++ Piece.flushing) d e := by
  have closed := touches_concluded d g o
  have queue := (d.concluded g o).frameCounted_downq g q k
  obtain ⟨free, transit⟩ := (d.concluded g o).frameCounted_pool g q k
  rw [← closed .downq (by decide) g, after .downq (by decide) g, named] at queue
  rw [← closed .pool (by decide), after .pool (by decide)] at free transit
  refine ⟨queue, free, transit, (closed.oneQueue.trans (oneQueue_frameCounted _ _ _ _)).trans after.oneQueue,
    fun ok own other => ?_, ?_⟩
  · have sound : CountersOk (d.concluded g o) := ((ok.sound.dropTurn g).countSeg g o.counter).countersOk
    have still : (d.concluded g o).ev.counter (.seg g k) = d.ev.counter (.seg g k) :=
      Dev.count_counter_other (d := d.dropTurn g) other (not_ofNotice_seg g k)
    rw [after.counter_eq, Dev.frameCounted_counter sound own, still]
  · exact Touches.then (n := [.mon, .txEnable, .stations] ++ Piece.flushing) closed
      (Touches.then (n := [.mon, .txEnable, .stations] ++ Piece.flushing) (touches_frameCounted _ _ _ _) after)

/-- A frame that has been tried once more and stays, whatever the directory and the Line Monitor do afterwards. -/
theorem Dev.frameStays {o : ExOutcome} (found : d.frame g n = some q) {f : DownFrame → DownFrame}
    (fid : ∀ q, (f q).fid = q.fid)
    (after : Touches [.mon, .txEnable, .stations, .backoffs] ((d.concluded g o).modFrame g q.fid f) e) :
    e.frame g n = some (f q) ∧ e.pool = d.pool ∧ Touches ([.mon, .txEnable, .stations] ++ Piece.flushing) d e := by
  have closed := touches_concluded d g o
  have there := Dev.frame_concluded found o
  have tried := touches_modFrame (d.concluded g o) g q.fid f
  refine ⟨?_, ?_, ?_⟩
  · rw [Dev.frame, ← after .downq (by decide) g]
    exact Dev.modFrame_frame there fid
  · exact (after .pool (by decide)).symm.trans ((tried .pool (by decide)).symm.trans (closed .pool (by decide)).symm)
  · exact Touches.then (n := [.mon, .txEnable, .stations] ++ Piece.flushing) closed
      (Touches.then (n := [.mon, .txEnable, .stations] ++ Piece.flushing) tried after)

/-- A REFUSE of a TERMINAL station starts its backoff (R22). -/
theorem Dev.directoryOutcome_refused {a : Station} (eid : x.eid = some a.eid) (found : d.stationById a.eid = some a)
    (role : a.role = .terminal) (kind : f.kind = kRefuse) : ((d.directoryOutcome g x .good f).seg g).backoffs =
      ((d.seg g).backoffs.filter fun b => b.number != a.number) ++ [⟨a.number, d.clock + 50 * Config.ms⟩] := by
  have starts : startsBackoff a f = true := by
    unfold startsBackoff
    rw [role, kind]
    rfl
  have plain : f.kind ≠ kData ∧ f.kind ≠ kAccept := by rw [kind]; decide
  rw [Dev.directoryOutcome_good eid found]
  dsimp only
  rw [if_neg plain.1, if_neg plain.2, if_pos starts, ← touches_stationGood _ _ .backoffs (by decide) g, Dev.startBackoff,
    Dev.modSeg_seg]

/-- Settles O26: the frame is dealt with before the directory and the Line Monitor act, which leave the queues alone. -/
theorem acceptedFrameIsFreed : Obligations.AcceptedFrameIsFreed := by
  refine ⟨fun g reply dt s n x q turn found unmarked heard good kind calm => ?_,
    fun g reply dt s n x q a turn found unmarked heard good kind calm eid stands role => ?_,
    fun g s n x q a => ?_⟩
  · have ran := Dev.replyReceived_of (d := s.dev.elapse dt) turn heard
    rw [show classify (expectOf (.deliver n) x) x.number reply = .good from good] at ran
    have named : q.fid = n := by simpa using List.find?_some found
    have settled := Dev.endExchange_calm (d := s.dev.elapse dt) calm (.deliver n) x (parseTrunk reply.bytes)
    have after := Dev.endExchange_deliver (d := s.dev.elapse dt) found x (parseTrunk reply.bytes) settled.frame
      fun e => touches_directoryOutcome_plain (by rw [kind]; decide) g x
    rw [kind, Dev.transitOutcome_accepted unmarked] at after
    obtain ⟨queue, free, transit, others, -, framed⟩ := Dev.frameGone named after
    refine ⟨_, next_congr s ran, rfl, Dev.endExchange_turn _ _ _ _ _ _, queue, free, transit, settled.mon, fun h hh =>
      ⟨others h hh, ?_⟩, Touches.then (touches_elapse s.dev dt) framed⟩
    have told := touches_outcomeTold (s.dev.elapse dt) g (.deliver n) x .good (parseTrunk reply.bytes) .mon (by decide) h
    exact (congrArg Segment.mon (settled.others h hh)).trans told.symm
  · have ran := Dev.replyReceived_of (d := s.dev.elapse dt) turn heard
    rw [show classify (expectOf (.deliver n) x) x.number reply = .good from good] at ran
    have named : q.fid = n := by simpa using List.find?_some found
    have settled := Dev.endExchange_calm (d := s.dev.elapse dt) calm (.deliver n) x (parseTrunk reply.bytes)
    have after := Dev.endExchange_deliver (d := s.dev.elapse dt) found x (parseTrunk reply.bytes) settled.frame
      fun e => touches_directoryOutcome_plain (by rw [kind]; decide) g x
    rw [kind, Dev.transitOutcome_refused unmarked] at after
    have stays := fun {e : Dev} => Dev.frameStays (d := s.dev.elapse dt) (o := .good) (e := e) found
      (f := fun f => { f with refused := f.refused + 1 }) fun _ => rfl
    have framed : Touches ([.mon, .txEnable, .stations] ++ Piece.flushing) (s.dev.elapse dt)
        ((s.dev.elapse dt).endExchange g (.deliver n) x .good (parseTrunk reply.bytes)) := by
      split at after
      · obtain ⟨-, -, -, -, -, framed⟩ := Dev.frameGone named after
        exact framed
      · obtain ⟨-, -, framed⟩ := stays after
        exact framed
    refine ⟨_, next_congr s ran, rfl, Dev.endExchange_turn _ _ _ _ _ _, fun few => ?_, fun many => ?_, fun b => ?_,
      Touches.then (touches_elapse s.dev dt) framed⟩
    · rw [if_neg (by omega)] at after
      obtain ⟨stays, pool, -⟩ := stays after
      exact ⟨stays, pool⟩
    · rw [if_pos many] at after
      obtain ⟨queue, free, -, -, counted, -⟩ := Dev.frameGone named after
      exact ⟨queue, free, fun ok => counted ok rfl (by simp [ExOutcome.counter])⟩
    · have same := (s.dev.elapse dt).itemOutcome_stations g (.deliver n) x .good (parseTrunk reply.bytes)
      have backoffs := Dev.directoryOutcome_refused (g := g) (f := parseTrunk reply.bytes) eid
        ((Dev.stationById_congr same a.eid).trans stands) role kind
      have kept := Touches.then (n := [.sched, .downq, .pool, .pauseState, .segCounters] ++ Piece.selecting)
        (touches_concluded (s.dev.elapse dt) g .good)
        (touches_transitRefused (d := (s.dev.elapse dt).concluded g .good) g unmarked)
      rw [← kind, ← Dev.itemOutcome_deliver (Dev.frame_concluded (d := s.dev.elapse dt) found .good) x .good] at kept
      rw [← kept .backoffs (by decide) g, ← kept .clock (by decide)] at backoffs
      have final := (settled.frame .backoffs (by decide) g).symm.trans backoffs
      dsimp only
      rw [final]
      simp only [List.mem_append, List.mem_filter, List.mem_singleton, bne_iff_ne]
      exact or_comm
  · intro line strain turn found unmarked quiet eid stands present active warn trip
    have ran := Dev.replyTimeout_of turn quiet
    have named : q.fid = n := by simpa using List.find?_some found
    have bears : ((s.dev.reach x.deadline).seg g).BearsCharge .timeout := ⟨active, warn, trip⟩
    have settled := Dev.endExchange_bears bears (.deliver n) x noFrame
    have same := (s.dev.reach x.deadline).itemOutcome_stations g (.deliver n) x (.failed .timeout) noFrame
    have there := (Dev.stationById_congr same a.eid).trans stands
    have told := (Dev.stationFailed_present there present).2
    rw [← Dev.directoryOutcome_failed (g := g) eid there .timeout noFrame] at told
    have after := Touches.then (n := [.mon, .txEnable, .stations, .backoffs]) told settled
    rw [Dev.itemOutcome_deliver (Dev.frame_concluded (d := s.dev.reach x.deadline) found (.failed .timeout)) x (.failed .timeout),
      Dev.transitOutcome_failed unmarked] at after
    have stays := fun {e : Dev} => Dev.frameStays (d := s.dev.reach x.deadline) (o := .failed .timeout) (e := e) found
      (f := fun f => { f with failed := f.failed + 1 }) fun _ => rfl
    refine ⟨_, next_congr s ran, rfl, Dev.endExchange_turn _ _ _ _ _ _, fun few => ?_, fun many => ?_, ?_⟩
    · rw [if_neg (by omega)] at after
      obtain ⟨frame, pool, -⟩ := stays after
      exact ⟨frame, pool⟩
    · rw [if_pos many] at after
      obtain ⟨queue, free, -, -, counted, -⟩ := Dev.frameGone named after
      exact ⟨queue, free, fun ok => counted ok rfl (by simp [ExOutcome.counter])⟩
    · refine Touches.then (touches_reach s.dev x.deadline) (m := [.mon, .txEnable, .stations] ++ Piece.flushing) ?_
      split at after
      · obtain ⟨-, -, -, -, -, framed⟩ := Dev.frameGone named after
        exact framed
      · obtain ⟨-, -, framed⟩ := stays after
        exact framed

end Sys2Proof.Machine
end

