-- ==== Sys2Proof/Proofs/FeedOutcomes.lean ====
section
/-! The turns of a printer's item: its master frame, and what an ACCEPT, a REFUSE and a timeout do (R28, R171 to R174,
R177). -/

namespace Sys2Proof.Machine

open Sys2Proof

-- one proof after another: proofs that wait for each other take a thread each
set_option Elab.async false

variable {c d e : Dev} {g : Seg} {s : State} {l : List Piece} {i n : Nat} {x : Exchange} {p : Printer} {j : Job} {f : TrunkFrame}

/-! ### An event beside a COUNTER_HALF -/

/-- The list has room, or an entry of the lowest severity that gives way (R187). -/
def Yields (l : List Event) : Prop := l.length < Config.eventMax ∨ ∃ s, HasEvent l .counterHalf s

/-- An event of a higher severity joins a list that yields (R186, R187). -/
theorem Dev.raise_yields {k : EventKind} (yields : Yields d.ev.events) (high : k.severity < 3) (s : Subject) :
    HasEvent (d.raise k s).ev.events k s := by
  by_cases room : d.ev.events.length < Config.eventMax
  · exact Dev.raise_joins room k s
  · obtain ⟨half, v, member, kind, -⟩ := yields.resolve_left room
    have three : EventKind.counterHalf.severity = 3 := by decide
    have low : k.severity < lowestSeverity d.ev.events :=
      Nat.lt_of_lt_of_le high (three ▸ kind ▸ severity_le_lowestSeverity member)
    have joined : HasEvent (d.recordEvent k s).1.ev.events k s := by
      rw [Dev.recordEvent_events]
      unfold Machine.recordEvent
      simp only [low, if_true, room, if_false]
      split
      · rename_i same
        obtain ⟨e, he, hks⟩ := List.any_eq_true.mp same
        simp only [Bool.and_eq_true, beq_iff_eq] at hks
        exact HasEvent.modifyFirst ⟨e, he, hks⟩ _ (by intro e; exact ⟨rfl, rfl⟩)
      · exact ⟨⟨k, s, d.uptime, 0, true⟩, by simp, rfl, rfl⟩
    unfold Dev.raise
    dsimp only
    split
    · exact Dev.noticeTest_keeps joined
    · exact joined

/-- After a report to a list with room an event of a higher severity can still join. -/
theorem Dev.count_yields (room : d.ev.events.length < Config.eventMax) (k : CounterId) : Yields (d.count k).ev.events := by
  have same : (d.modEv fun e => e.bump k).ev.events = d.ev.events := (d.ev.setGroup_events _ _).1
  rw [Dev.count_ev]
  split
  · exact .inr ⟨_, Dev.raise_joins (by rw [same]; exact room) _ _⟩
  · exact .inl (by rw [same]; exact room)

/-! ### The feed's master frame -/

theorem feedMark_eq (p : Printer) (j : Job) (z : Bool) : feedMark p j z =
    p.sentMark.getD (if z = true ∨ j.isOpen = false ∧ j.chain.length ≤ 1 then Mark.last else Mark.more) := by
  unfold feedMark
  cases p.sentMark with
  | none => simp
  | some m => rfl

theorem Dev.sendFeed_of {r : ReadyItem} {a : Station} (printer : d.printer i = some p) (job : d.jobBySerial n = some j)
    (stands : d.station g p.number = some a) (ready : p.ready = some r) : d.sendFeed g i n =
      (d.openExchange g (.feed i n) a (feedMark p j r.zeroEnd) r.zeroEnd (deliverBytes p.number 0 a.nextBit
        (feedMark p j r.zeroEnd) (if r.zeroEnd then [] else j.chain.headD []))).modPrinter i
        fun p' => { p' with sentMark := some (feedMark p j r.zeroEnd) } := by
  rw [Dev.sendFeed, printer, job]
  dsimp only
  rw [stands, ready]

/-! ### An accepted item -/

/-- A job after its head block has been printed (R172). -/
def Job.shed (j : Job) : Job :=
  { j with chain := j.chain.drop 1, printed := addBytes j.printed (j.chain.headD []).length }

/-- A job after an item of it has been accepted: the zero-length end takes no block. -/
def Job.taken (j : Job) (z : Bool) : Job := if z = true then j else j.shed

theorem Job.taken_eq (j : Job) (z : Bool) : j.taken z = { j with
    chain := if z = true then j.chain else j.chain.drop 1
    printed := if z = true then j.printed else addBytes j.printed (j.chain.headD []).length } := by
  cases z <;> rfl

/-- The block of an accepted item leaves its job and is freed (R172). -/
def Dev.blockShed (d : Dev) (n : Nat) (j : Job) (z : Bool) : Dev :=
  if z = true then d else (d.modJob n Job.shed).freeSpool (min 1 j.chain.length)

theorem touches_blockShed (d : Dev) (n : Nat) (j : Job) (z : Bool) :
    Touches ([.jobs, .pool, .pauseState] ++ Piece.raised) d (d.blockShed n j z) :=
  Touches.ite (l := [.jobs, .pool, .pauseState] ++ Piece.raised) (fun _ => .refl _ _) fun _ =>
    Touches.then (touches_modJob _ _ _) (touches_freeSpool _ _)

theorem Dev.itemTaken_of (printer : d.printer i = some p) (job : d.jobBySerial n = some j) (z : Bool) :
    d.itemTaken i n z = ((d.blockShed n j z).countSeg p.seg .framesOut).modPrinter i fun p =>
      { p with ready := none, sentMark := none } := by
  have stays : (d.blockShed n j z).printer i = some p := ((touches_blockShed d n j z).printer (i := i)).trans printer
  unfold Dev.itemTaken
  rw [job]
  cases z
  all_goals
    dsimp only
    split
    · rename_i q found
      obtain rfl : q = p := Option.some.inj (found.symm.trans stays)
      rfl
    · rename_i gone
      exact absurd (gone.symm.trans stays) (by simp)

theorem Dev.blockShed_job (job : d.jobBySerial n = some j) (active : d.activeJob i = some j) (z : Bool) :
    (d.blockShed n j z).jobBySerial n = some (j.taken z) ∧ (d.blockShed n j z).activeJob i = some (j.taken z) ∧
    (d.blockShed n j z).pool.free = d.pool.free + (j.chain.length - (j.taken z).chain.length) ∧
    (d.blockShed n j z).spool.jobs.map (·.serial) = d.spool.jobs.map (·.serial) := by
  cases z with
  | true => exact ⟨job, active, by simp [Dev.blockShed, Job.taken], rfl⟩
  | false =>
    have kept := touches_freeSpool (d.modJob n Job.shed) (min 1 j.chain.length) .jobs (by decide)
    have same : ((d.modJob n Job.shed).freeSpool (min 1 j.chain.length)).spool.jobs = (d.modJob n Job.shed).spool.jobs :=
      kept.symm
    refine ⟨?_, ?_, ?_, ?_⟩
    · exact ((touches_freeSpool _ _).job (n := n)).trans (Dev.modJob_here job fun _ => rfl)
    · refine (congrArg (List.find? _) same).trans (find?_modifyFirst_at active job ?_)
      exact (List.find?_some active : _)
    · have taken : (j.taken false).chain.length = j.chain.length - 1 := List.length_drop
      rw [Dev.blockShed, if_neg (by decide), Dev.freeSpool_pool, taken]
      show d.pool.free + min 1 j.chain.length = _
      omega
    · exact (congrArg (List.map _) same).trans (map_modifyFirst (f := Job.shed) (fun j : Job => j.serial) (fun _ _ => rfl) _)

theorem Dev.selectAll_busy (busy : NoneIdle d) : d.selectAll = d := by
  unfold Dev.selectAll
  induction printerIds with
  | nil => rfl
  | cons i is ih => rw [List.foldl_cons, Dev.select_busy (busy i), ih]

theorem Touches.activeJob (t : Touches l d e) (apart : Piece.jobs ∉ l := by decide) (i : Nat) :
    e.activeJob i = d.activeJob i := by
  have same : d.spool.jobs = e.spool.jobs := t .jobs apart
  rw [Dev.activeJob, ← same, Dev.activeJob]

/-- What an accepted item leaves before its job's end: the printer without an item, the job without its block (R172). -/
theorem Dev.itemTaken_facts (printer : d.printer i = some p) (job : d.jobBySerial n = some j)
    (active : d.activeJob i = some j) (z : Bool) :
    (d.itemTaken i n z).printer i = some { p with ready := none, sentMark := none } ∧
    (d.itemTaken i n z).jobBySerial n = some (j.taken z) ∧ (d.itemTaken i n z).activeJob i = some (j.taken z) ∧
    (d.itemTaken i n z).pool.free = d.pool.free + (j.chain.length - (j.taken z).chain.length) ∧
    (d.itemTaken i n z).spool.jobs.map (·.serial) = d.spool.jobs.map (·.serial) ∧
    Touches ([.jobs, .printers, .pool, .pauseState] ++ Piece.counted) d (d.itemTaken i n z) ∧
    OnePrinter i d (d.itemTaken i n z) := by
  obtain ⟨taken, still, free, serials⟩ := Dev.blockShed_job job active z
  have shed := touches_blockShed d n j z
  have stays := (shed.printer (i := i)).trans printer
  rw [Dev.itemTaken_of printer job]
  generalize d.blockShed n j z = e at *
  have counted := touches_countSeg e p.seg .framesOut
  have there := (counted.printer (i := i)).trans stays
  have after : Touches (.printers :: Piece.counted) e ((e.countSeg p.seg .framesOut).modPrinter i fun p =>
    { p with ready := none, sentMark := none }) := Touches.then counted (touches_modPrinter _ _ _)
  have framed := Touches.then (n := [.jobs, .printers, .pool, .pauseState] ++ Piece.counted) shed after
  have others : OnePrinter i d ((e.countSeg p.seg .framesOut).modPrinter i fun p => { p with ready := none, sentMark := none }) :=
    (shed.onePrinter.trans counted.onePrinter).trans (onePrinter_modPrinter _ _ _)
  refine ⟨Dev.modPrinter_here there _, (after.job (n := n)).trans taken, (after.activeJob (i := i)).trans still, ?_, ?_,
    framed, others⟩
  · rw [← after .pool (by decide)]
    exact free
  · rw [← after .jobs (by decide)]
    exact serials

theorem Dev.feedAccepted_of (printer : d.printer i = some p) (feeding : p.feed = .feeding) (n : Nat) (z : Bool) (m : Mark) :
    d.feedAccepted i n z m false =
      (((d.modPrinter i fun p => { p with failCount := 0 }).itemAccepted i n z m).offerItem i).selectAll := by
  rw [Dev.feedAccepted, printer]
  dsimp only
  rw [feeding]
  rfl

/-- A printer is offered nothing where the chain of its open job is empty (R171). -/
theorem Dev.offerItem_waits (printer : d.printer i = some p) (active : d.activeJob i = some j) (empty : j.chain = [])
    (opened : j.isOpen = true) : d.offerItem i = d := by
  rw [Dev.offerItem, printer, active]
  exact if_neg (by simp [empty, opened])

theorem OnePrinter.noneIdle (one : OnePrinter i d e) (busy : NoneIdle d) (here : e.printer i = some p) (feed : p.feed ≠ .idle) :
    NoneIdle e := fun k q found => by
  by_cases same : k = i
  · subst same
    obtain rfl := Option.some.inj (here.symm.trans found)
    exact feed
  · exact busy k q ((one k same).symm.trans found)

/-- An accepted item that is not the last of its job: the next one is offered (R171, R172). -/
theorem Dev.feedAccepted_more (printer : d.printer i = some p) (feeding : p.feed = .feeding) (job : d.jobBySerial n = some j)
    (active : d.activeJob i = some j) (busy : NoneIdle d) (z : Bool) :
    (d.feedAccepted i n z .more false).jobBySerial n = some (j.taken z) ∧
    (d.feedAccepted i n z .more false).pool.free = d.pool.free + (j.chain.length - (j.taken z).chain.length) ∧
    (d.feedAccepted i n z .more false).printer i = some { p with
      failCount := 0, sentMark := none
      ready := if (j.taken z).chain = [] ∧ j.isOpen = true then none else some ⟨(j.taken z).chain.isEmpty, d.clock⟩ } := by
  have cleared := Dev.modPrinter_here printer fun p => { p with failCount := 0 }
  have clear := onePrinter_modPrinter d i fun p => { p with failCount := 0 }
  have same := touches_modPrinter d i fun p => { p with failCount := 0 }
  obtain ⟨there, taken, still, free, -, framed, others⟩ := Dev.itemTaken_facts cleared ((same.job (n := n)).trans job)
    ((same.activeJob (i := i)).trans active) z
  rw [← same .pool (by decide)] at free
  have opened : (j.taken z).isOpen = j.isOpen := by
    cases z <;> rfl
  have now := (same .clock (by decide)).trans (framed .clock (by decide))
  rw [Dev.feedAccepted_of printer feeding, Dev.itemAccepted_eq, if_neg (by decide)]
  have resting := (clear.trans others).noneIdle busy there (by simp [feeding])
  generalize (d.modPrinter i fun p => { p with failCount := 0 }).itemTaken i n z = e at *
  by_cases waits : (j.taken z).chain = [] ∧ j.isOpen = true
  · rw [Dev.offerItem_waits there still waits.1 (opened.trans waits.2), Dev.selectAll_busy resting, if_pos waits]
    exact ⟨taken, free, there⟩
  · have offered := Dev.offerItem_of there still feeding rfl fun empty => by
      rw [opened]
      exact Bool.eq_false_iff.mpr fun yes => waits ⟨empty, yes⟩
    have ready := Dev.modPrinter_here there fun p => { p with ready := some ⟨(j.taken z).chain.isEmpty, e.clock⟩ }
    have one := onePrinter_modPrinter e i fun p => { p with ready := some ⟨(j.taken z).chain.isEmpty, e.clock⟩ }
    rw [offered, Dev.selectAll_busy (one.noneIdle resting ready (by simp [feeding])), if_neg waits, ready,
      Touches.job (touches_modPrinter _ _ _), ← touches_modPrinter e _ _ .pool (by decide), ← now]
    exact ⟨taken, free, rfl⟩

/-- An accepted item that is the last of its job ends the job DONE (R149, R172). -/
theorem Dev.feedAccepted_last (printer : d.printer i = some p) (feeding : p.feed = .feeding) (job : d.jobBySerial n = some j)
    (active : d.activeJob i = some j) (serials : (d.spool.jobs.map (·.serial)).Nodup) (z : Bool) :
    (d.feedAccepted i n z .last false).jobBySerial n = none ∧
    (d.feedAccepted i n z .last false).spool.finished = addSummary d.spool.finished
      ⟨j.id, j.printer, j.source, .done, j.received, (j.taken z).printed, d.uptime⟩ := by
  have cleared := Dev.modPrinter_here printer fun p => { p with failCount := 0 }
  have same := touches_modPrinter d i fun p => { p with failCount := 0 }
  obtain ⟨-, taken, -, -, names, framed, -⟩ := Dev.itemTaken_facts cleared ((same.job (n := n)).trans job)
    ((same.activeJob (i := i)).trans active) z
  rw [← same .jobs (by decide)] at names
  have record : (j.taken z).id = j.id ∧ (j.taken z).printer = j.printer ∧ (j.taken z).source = j.source ∧
      (j.taken z).received = j.received := by
    cases z <;> exact ⟨rfl, rfl, rfl, rfl⟩
  obtain ⟨id, own, source, received⟩ := record
  have now := (same .uptime (by decide)).trans (framed .uptime (by decide))
  have summaries := (same .finished (by decide)).trans (framed .finished (by decide))
  rw [Dev.feedAccepted_of printer feeding, Dev.itemAccepted_eq, if_pos rfl]
  generalize (d.modPrinter i fun p => { p with failCount := 0 }).itemTaken i n z = e at *
  obtain ⟨gone, -, finished⟩ := Dev.endJob_facts taken (by rw [names]; exact serials) .done
  rw [id, own, source, received, ← now, ← summaries] at finished
  have offered := touches_offerItem (e.endJob n .done) i
  have kept := offered.jobsKept.trans (jobsKept_selectAll _)
  refine ⟨Dev.jobBySerial_none_iff.mpr ?_, ?_⟩
  · rw [serials_of_holdings kept]
    exact Dev.jobBySerial_none_iff.mp gone
  · have after := Touches.then (n := Piece.selecting) offered (touches_selectAll _)
    exact (after .finished (by decide)).symm.trans finished

/-! ### A refused item and a failed one -/

/-- A refused item waits for the busy retry (R173). -/
theorem Dev.feedRefused_of (printer : d.printer i = some p) (feeding : p.feed = .feeding) :
    (d.feedRefused i false).printer i = some { p with
      failCount := 0, feed := .waitReady, ready := none, busyTimer := some (d.clock + p.busyRetry * Config.ms) } ∧
    Touches [.printers] d (d.feedRefused i false) ∧ OnePrinter i d (d.feedRefused i false) := by
  have cleared := Dev.modPrinter_here printer fun p => { p with failCount := 0 }
  have same := touches_modPrinter d i fun p => { p with failCount := 0 }
  have clear := onePrinter_modPrinter d i fun p => { p with failCount := 0 }
  have now := same .clock (by decide)
  have refused : d.feedRefused i false = (d.modPrinter i fun p => { p with failCount := 0 }).modPrinter i fun p =>
      { p with
        feed := .waitReady, ready := none
        busyTimer := some ((d.modPrinter i fun p => { p with failCount := 0 }).clock + p.busyRetry * Config.ms) } := by
    rw [Dev.feedRefused, printer]
    dsimp only
    rw [feeding]
    rfl
  rw [refused]
  generalize (d.modPrinter i fun p => { p with failCount := 0 }) = e at *
  rw [now]
  exact ⟨Dev.modPrinter_here cleared _, same.trans (touches_modPrinter _ _ _), clear.trans (onePrinter_modPrinter _ _ _)⟩

theorem Dev.makeLost_of (printer : d.printer i = some p) (feeding : p.feed = .feeding) : d.makeLost i =
    ((d.endHeldFeed p.seg i).modPrinter i fun p =>
      { p with
        feed := .lost, ready := none, busyTimer := none, failCount := 0
        holdTimer := some (d.clock + p.holdTime * Config.sec) }).raise .printerLost (.printer i) := by
  rw [Dev.makeLost, printer]
  dsimp only
  rw [feeding]
  rfl

/-- A failed item counts a failure, and at the lost limit the printer is LOST (R174, R177). -/
theorem Dev.feedFailed_of (printer : d.printer i = some p) (feeding : p.feed = .feeding) :
    (min (p.failCount + 1) 15 < p.lostLimit →
      (d.feedFailed i).printer i = some { p with failCount := min (p.failCount + 1) 15 }) ∧
    (p.lostLimit ≤ min (p.failCount + 1) 15 → (d.feedFailed i).printer i = some { p with
      feed := .lost, ready := none, busyTimer := none, failCount := 0
      holdTimer := some (d.clock + p.holdTime * Config.sec) } ∧
      (Yields d.ev.events → HasEvent (d.feedFailed i).ev.events .printerLost (.printer i))) ∧ OnePrinter i d (d.feedFailed i) := by
  have counted := Dev.modPrinter_here printer fun q => { q with failCount := min (p.failCount + 1) 15 }
  have same := touches_modPrinter d i fun q => { q with failCount := min (p.failCount + 1) 15 }
  have one := onePrinter_modPrinter d i fun q => { q with failCount := min (p.failCount + 1) 15 }
  have failed : d.feedFailed i = if p.lostLimit ≤ min (p.failCount + 1) 15 then (d.modPrinter i fun q =>
      { q with failCount := min (p.failCount + 1) 15 }).makeLost i
      else d.modPrinter i fun q => { q with failCount := min (p.failCount + 1) 15 } := by
    rw [Dev.feedFailed, printer]
    dsimp only
    rw [feeding]
    rfl
  rw [failed]
  have now := same .clock (by decide)
  have events := same .events (by decide)
  generalize (d.modPrinter i fun q => { q with failCount := min (p.failCount + 1) 15 }) = e at *
  refine ⟨fun few => ?_, fun many => ?_, ?_⟩
  · rw [if_neg (Nat.not_le.mpr few)]
    exact counted
  · rw [if_pos many, Dev.makeLost_of counted feeding]
    have held := touches_endHeldFeed e p.seg i
    have there := (held.printer (i := i)).trans counted
    have lost := Dev.modPrinter_here there fun p =>
      { p with
        feed := .lost, ready := none, busyTimer := none, failCount := 0
        holdTimer := some (e.clock + p.holdTime * Config.sec) }
    have moved := Touches.then (n := [.sched, .printers]) held (touches_modPrinter (e.endHeldFeed p.seg i) i fun p =>
      { p with
        feed := .lost, ready := none, busyTimer := none, failCount := 0
        holdTimer := some (e.clock + p.holdTime * Config.sec) })
    have room : ((e.endHeldFeed p.seg i).modPrinter i fun p =>
        { p with
          feed := .lost, ready := none, busyTimer := none, failCount := 0
          holdTimer := some (e.clock + p.holdTime * Config.sec) }).ev.events = d.ev.events := by
      rw [← (moved .events (by decide)).1, ← events.1]
    refine ⟨((touches_raise _ _ _).printer (i := i)).trans ?_, fun yields => Dev.raise_yields (room ▸ yields) (by decide) _⟩
    rw [lost, now]
  · split
    · exact one.trans (onePrinter_makeLost _ _)
    · exact one

/-! ### The ends of a feed's exchange -/

/-- A GOOD reply that is not DATA, on a calm line: what its item's outcome has left stands, but for the station's entry. -/
theorem Dev.endExchange_plain (calm : CalmLine (d.seg g)) (plain : f.kind ≠ kData) (item : TurnItem) (x : Exchange) :
    Touches [.mon, .txEnable, .stations, .backoffs] ((d.concluded g .good).itemOutcome g item x .good f)
      (d.endExchange g item x .good f) :=
  Touches.then (touches_directoryOutcome_plain plain g x) (Dev.endExchange_calm calm item x f).frame

theorem Dev.itemOutcome_accepted (kind : f.kind = kAccept) (unflagged : flagged f = false) (x : Exchange) :
    d.itemOutcome g (.feed i n) x .good f = d.feedAccepted i n x.zeroEnd x.mark false := by
  rw [← unflagged]
  exact if_pos kind

theorem Dev.itemOutcome_refused (kind : f.kind = kRefuse) (unflagged : flagged f = false) (x : Exchange) :
    d.itemOutcome g (.feed i n) x .good f = d.feedRefused i false := by
  rw [← unflagged]
  exact if_neg (by rw [kind]; decide)

theorem noneIdle_congr (same : e.spool.printers = d.spool.printers) (busy : NoneIdle d) : NoneIdle e := fun i p found =>
  busy i p (by rw [Dev.printer, ← same]; exact found)

/-- A FEED granted on a quiet line (R25, R28, R171). -/
theorem feed_grant_sends {dt : Nat} {r : ReadyItem} {a : Station} (may : (s.dev.elapse dt).mayDecide g = true)
    (chosen : (s.dev.elapse dt).chooseRequester g = some .feed) (choice : s.dev.feedChoice g = some (i, n))
    (printer : s.dev.printer i = some p) (ready : p.ready = some r) (job : s.dev.jobBySerial n = some j)
    (stands : s.dev.station g p.number = some a) :
    ∃ t, exec (.turnGrant g false dt) s = .next t ∧ t.pending = s.pending ∧
      (t.dev.seg g).lineOut = deliverBytes p.number 0 a.nextBit (feedMark p j r.zeroEnd)
        (if r.zeroEnd then [] else j.chain.headD []) ∧
      t.dev.printer i = some { p with sentMark := some (feedMark p j r.zeroEnd) } ∧
      (t.dev.seg g).sched.feedPtr = (i + 1) % 8 ∧ OneSeg g s.dev t.dev ∧
      Touches [.clock, .sched, .lineOut, .printers] s.dev t.dev := by
  have bound : (s.dev.elapse dt).bindItem g .feed = some (.feed i n) := congrArg (Option.map _) choice
  have granted := Dev.turnGrant_of may chosen bound false
  have moved : ((s.dev.elapse dt).movePointers g .feed (.feed i n)).seg g = { s.dev.seg g with
      sched := { (s.dev.seg g).sched with rotation := .poll, feedPtr := (i + 1) % 8 } } := Dev.modSched_seg _ _ _
  have pointed := Touches.then (n := [.clock, .sched]) (touches_elapse s.dev dt)
    (touches_movePointers _ g .feed (.feed i n))
  have one := oneSeg_movePointers (s.dev.elapse dt) g .feed (.feed i n)
  have sent : ((s.dev.elapse dt).movePointers g .feed (.feed i n)).sendTurn g (.feed i n) = _ :=
    Dev.sendFeed_of (d := (s.dev.elapse dt).movePointers g .feed (.feed i n)) printer job stands ready
  have ran := next_congr s (granted.trans sent)
  generalize (s.dev.elapse dt).movePointers g .feed (.feed i n) = m at *
  have opened := touches_openExchange m g (.feed i n) a (feedMark p j r.zeroEnd) r.zeroEnd (deliverBytes p.number 0 a.nextBit
    (feedMark p j r.zeroEnd) (if r.zeroEnd then [] else j.chain.headD []))
  have line := m.openExchange_seg g (.feed i n) a (feedMark p j r.zeroEnd) r.zeroEnd (deliverBytes p.number 0 a.nextBit
    (feedMark p j r.zeroEnd) (if r.zeroEnd then [] else j.chain.headD []))
  have opens := oneSeg_openExchange m g (.feed i n) a (feedMark p j r.zeroEnd) r.zeroEnd (deliverBytes p.number 0 a.nextBit
    (feedMark p j r.zeroEnd) (if r.zeroEnd then [] else j.chain.headD []))
  have there := ((Touches.then (n := [.clock, .sched, .lineOut]) pointed opened).printer (i := i)).trans printer
  generalize m.openExchange g (.feed i n) a (feedMark p j r.zeroEnd) r.zeroEnd (deliverBytes p.number 0 a.nextBit
    (feedMark p j r.zeroEnd) (if r.zeroEnd then [] else j.chain.headD [])) = o at *
  have marked := touches_modPrinter o i fun p' => { p' with sentMark := some (feedMark p j r.zeroEnd) }
  have kept := fun h => marked.seg_eq rfl h
  refine ⟨_, ran, rfl, ?_, Dev.modPrinter_here there _, ?_, fun h hh => (kept h).trans ((opens h hh).trans (one h hh)),
    Touches.then (n := [.clock, .sched, .lineOut, .printers]) pointed
      (Touches.then (n := [.sched, .lineOut, .printers]) opened marked)⟩
  · dsimp only
    rw [kept g, line]
  · dsimp only
    rw [kept g, line, moved]

/-- Settles O23: an item's outcome is the Feeder's alone, and on a line that keeps its state nothing follows it there. -/
theorem feedGrantSendsTheReadyItem : Obligations.FeedGrantSendsTheReadyItem := by
  refine ⟨fun g dt s i n p j r a may chosen choice printer ready job stands => ?_, ?_, ?_⟩
  · rw [← feedMark_eq]
    exact feed_grant_sends may chosen choice printer ready job stands
  · intro g reply dt s i n x p f turn heard good unflagged printer feeding calm
    have ran := Dev.replyReceived_of (d := s.dev.elapse dt) turn heard
    rw [show classify (expectOf (.feed i n) x) x.number reply = .good from good] at ran
    have ended := (s.dev.elapse dt).endExchange_turn g (.feed i n) x .good f
    have closed := Touches.then (n := [.clock, .sched] ++ Piece.counted) (touches_elapse s.dev dt)
      (touches_concluded (s.dev.elapse dt) g .good)
    have now : ((s.dev.elapse dt).concluded g .good).clock = s.dev.clock + dt :=
      (touches_concluded (s.dev.elapse dt) g .good .clock (by decide)).symm
    have there := (closed.printer (i := i)).trans printer
    refine ⟨fun j kind active job serials busy => ?_, fun kind => ?_⟩
    · have after := Dev.endExchange_plain (d := s.dev.elapse dt) (g := g) calm (show f.kind ≠ kData by rw [kind]; decide) (.feed i n) x
      rw [Dev.itemOutcome_accepted kind unflagged] at after
      have jobs := (closed.job (n := n)).trans job
      have mine := (closed.activeJob (i := i)).trans active
      have rests := noneIdle_congr (closed .printers (by decide)).symm busy
      have fed := touches_feedAccepted ((s.dev.elapse dt).concluded g .good) i n x.zeroEnd x.mark false
      have framed := Touches.then (n := [.clock, .mon, .txEnable, .stations, .backoffs] ++ Piece.feeding) closed
        (Touches.then (n := [.mon, .txEnable, .stations, .backoffs] ++ Piece.feeding) fed after)
      have pool := closed .pool (by decide)
      have finished := closed .finished (by decide)
      have uptime := closed .uptime (by decide)
      have table := closed .jobs (by decide)
      refine ⟨_, next_congr s ran, rfl, ended, fun more => ?_, fun last => ?_, framed⟩
      · rw [more] at after
        obtain ⟨left, free, ready⟩ := Dev.feedAccepted_more there feeding jobs mine rests x.zeroEnd
        rw [← pool] at free
        rw [now] at ready
        rw [Job.taken_eq] at left free ready
        exact ⟨(after.job (n := n)).trans left, (congrArg Pool.free (after .pool (by decide))).symm.trans free,
          (after.printer (i := i)).trans ready⟩
      · rw [last] at after
        obtain ⟨gone, summaries⟩ := Dev.feedAccepted_last there feeding jobs mine (by rw [← table]; exact serials) x.zeroEnd
        rw [← finished, ← uptime, Job.taken_eq] at summaries
        exact ⟨(after.job (n := n)).trans gone, (after .finished (by decide)).symm.trans summaries⟩
    · have after := Dev.endExchange_plain (d := s.dev.elapse dt) (g := g) calm (show f.kind ≠ kData by rw [kind]; decide) (.feed i n) x
      rw [Dev.itemOutcome_refused kind unflagged] at after
      obtain ⟨refused, fed, one⟩ := Dev.feedRefused_of there feeding
      rw [now] at refused
      exact ⟨_, next_congr s ran, rfl, ended, (after.printer (i := i)).trans refused, fun k hk =>
        ((closed.onePrinter.trans one).trans after.onePrinter) k hk,
        Touches.then closed (Touches.then (n := [.mon, .txEnable, .stations, .backoffs, .printers]) fed after)⟩
  · intro g s i n x a p line strain fails turn quiet eid stands present active warn trip printer feeding
    have ran := Dev.replyTimeout_of turn quiet
    have ended := (s.dev.reach x.deadline).endExchange_turn g (.feed i n) x (.failed .timeout) noFrame
    have bears : ((s.dev.reach x.deadline).seg g).BearsCharge .timeout := ⟨active, warn, trip⟩
    have settled := Dev.endExchange_bears bears (.feed i n) x noFrame
    have same := (s.dev.reach x.deadline).itemOutcome_stations g (.feed i n) x (.failed .timeout) noFrame
    have known := (Dev.stationById_congr same a.eid).trans stands
    have told := (Dev.stationFailed_present known present).2
    rw [← Dev.directoryOutcome_failed (g := g) eid known .timeout noFrame] at told
    have after := Touches.then (n := [.mon, .txEnable, .stations]) told settled
    have closed := Touches.then (n := [.clock, .sched] ++ Piece.counted) (touches_reach s.dev x.deadline)
      (touches_concluded (s.dev.reach x.deadline) g (.failed .timeout))
    have now : ((s.dev.reach x.deadline).concluded g (.failed .timeout)).clock = max s.dev.clock x.deadline :=
      (touches_concluded (s.dev.reach x.deadline) g (.failed .timeout) .clock (by decide)).symm
    have there := (closed.printer (i := i)).trans printer
    have fed := touches_feedFailed ((s.dev.reach x.deadline).concluded g (.failed .timeout)) i
    obtain ⟨few, many, one⟩ := Dev.feedFailed_of there feeding
    rw [now] at many
    refine ⟨_, next_congr s ran, rfl, ended, fun below => (after.printer (i := i)).trans (few below), fun reached => ?_,
      fun k hk => ((closed.onePrinter.trans one).trans after.onePrinter) k hk,
      Touches.then closed (Touches.then (n := [.mon, .txEnable, .stations] ++ Piece.losing) fed after)⟩
    obtain ⟨lost, joins⟩ := many reached
    refine ⟨(after.printer (i := i)).trans lost, fun room => ?_⟩
    have joined := joins (Dev.count_yields (d := (s.dev.reach x.deadline).dropTurn g) room _)
    have list := (after .events (by decide)).1
    dsimp only
    rw [← list]
    exact joined

end Sys2Proof.Machine
end

