-- ==== Sys2Proof/Proofs/Units.lean ====
section
/-! The Spooler's decision on a print unit marked MORE, with no printer IDLE: it joins its source's open job, opens a job,
or is refused (R150 to R152). -/

namespace Sys2Proof.Machine

open Sys2Proof

-- one proof after another: proofs that wait for each other take a thread each
set_option Elab.async false

variable {c d e : Dev} {g : Seg} {s : State} {l : List Piece} {i n : Nat} {p : Printer} {j : Job} {x : Source}
  {payload : List Byte}

/-! ### Blocks granted -/

theorem Dev.takeSpool_pool (d : Dev) (n : Nat) :
    (d.takeSpool n).pool = { d.pool with free := d.pool.free - n, spool := d.pool.spool + n } := by
  unfold Dev.takeSpool
  split
  · rename_i none
    rw [none]
    rfl
  · rw [← touches_pauseTest _ .pool (by decide)]

theorem Dev.takeTransit_pool (d : Dev) (n : Nat) :
    (d.takeTransit n).pool = { d.pool with free := d.pool.free - n, transit := d.pool.transit + n } := by
  unfold Dev.takeTransit
  rw [← touches_pauseTest _ .pool (by decide)]

/-! ### Statements carried along -/

/-- What a unit does to the spool is seen from before and after whatever leaves the jobs and the pool. -/
structure SameSpool (d e : Dev) : Prop where
  jobs : e.spool.jobs = d.spool.jobs
  pool : e.pool = d.pool
  names : e.spool.nextId = d.spool.nextId ∧ e.spool.nextSerial = d.spool.nextSerial
  uptime : e.uptime = d.uptime

theorem Touches.sameSpool (t : Touches l d e) (apart : ([Piece.jobs, .pool, .jobNames, .uptime].any fun p => l.contains p) = false
    := by rfl) : SameSpool d e := by
  have same : ∀ p ∈ [Piece.jobs, .pool, .jobNames, .uptime], p.same d e := fun p hp => t p fun hl =>
    Bool.eq_false_iff.mp apart (List.any_eq_true.mpr ⟨p, hp, List.contains_iff_mem.mpr hl⟩)
  obtain ⟨id, -, serial⟩ := same .jobNames (by decide)
  exact ⟨(same .jobs (by decide)).symm, (same .pool (by decide)).symm, ⟨id.symm, serial.symm⟩, (same .uptime (by decide)).symm⟩

theorem SameSpool.job (h : SameSpool d e) (n : Nat) : e.jobBySerial n = d.jobBySerial n := by
  rw [Dev.jobBySerial, h.jobs, Dev.jobBySerial]

theorem UnitJoins.carry {b k : Dev} (h : UnitJoins d e j payload) (before : SameSpool b d) (after : SameSpool e k) :
    UnitJoins b k j payload := by
  obtain ⟨here, others, free, spool⟩ := h
  refine ⟨?_, fun m other => ?_, ?_, ?_⟩
  · rw [after.job, here, before.uptime]
  · rw [after.job, others m other, before.job]
  · rw [after.pool, free, before.pool]
  · rw [after.pool, spool, before.pool]

theorem UnitRefused.carry {b k : Dev} {o : Option Job} (h : UnitRefused d e o) (before : SameSpool b d) (after : SameSpool e k) :
    UnitRefused b k o := by
  obtain ⟨own, none, pool⟩ := h
  refine ⟨fun j opened => ⟨?_, fun m other => ?_⟩, fun closed => ?_, ?_⟩
  · rw [after.job, (own j opened).1, before.uptime]
  · rw [after.job, (own j opened).2 m other, before.job]
  · rw [after.jobs, none closed, before.jobs]
  · rw [after.pool, pool, before.pool]

theorem UnitOpens.carry {b k : Dev} (h : UnitOpens d e i x payload) (before : SameSpool b d) (after : SameSpool e k)
    : UnitOpens b k i x payload := by
  obtain ⟨jobs, next, free, spool⟩ := h
  rw [before.jobs, before.names.1] at next
  refine ⟨?_, ?_, ?_, ?_⟩
  · rw [after.jobs, jobs, before.jobs, before.names.1, before.names.2, before.uptime]
  · rw [after.names.1, next]
  · rw [after.pool, free, before.pool]
  · rw [after.pool, spool, before.pool]

/-! ### A unit for an open job -/

/-- A job that has taken a unit (R151). -/
def Job.withUnit (j : Job) (now : Nat) (payload : List Byte) : Job :=
  { j with
    chain := j.chain ++ spoolBlocks payload, received := addBytes j.received payload.length, lastArrival := now }

theorem noneIdle_offerItem (busy : NoneIdle d) (i : Nat) : NoneIdle (d.offerItem i) := by
  unfold Dev.offerItem
  split
  · split
    · intro k p found
      rw [Dev.modPrinter_printer] at found
      split at found
      · obtain ⟨q, there, rfl⟩ := Option.map_eq_some_iff.mp found
        exact busy k q there
      · exact busy k p found
    · exact busy
  · exact busy

/-- What the deciding of a unit may move where no printer is IDLE. -/
def Piece.unit : List Piece := [.jobs, .jobNames, .printers, .pool, .pauseState] ++ Piece.raised

/-- A job that a unit has reached (R151). -/
def Dev.unitSeen (d : Dev) (j : Job) : Dev := d.modJob j.serial fun j => { j with lastArrival := d.uptime }

/-- A job that a unit has joined (R151). -/
def Dev.unitJoined (d : Dev) (j : Job) (payload : List Byte) : Dev :=
  (d.unitSeen j).modJob j.serial fun j =>
    { j with chain := j.chain ++ spoolBlocks payload, received := addBytes j.received payload.length }

theorem Dev.appendUnit_room (room : d.spoolOk (spoolNeed payload.length) = true) (j : Job) :
    d.appendUnit j payload .more =
      ((((d.unitJoined j payload).takeSpool (spoolBlocks payload).length).offerItem j.printer).selectAll, .accepted j.id) := by
  refine (if_pos ?_).trans rfl
  rw [length_spoolBlocks]
  exact room

theorem Dev.appendUnit_short (room : d.spoolOk (spoolNeed payload.length) = false) (j : Job) (m : Mark) :
    d.appendUnit j payload m = (d.unitSeen j, .full) := by
  refine if_neg ?_
  rw [length_spoolBlocks]
  exact Bool.eq_false_iff.mp room

theorem touches_unitJoined (d : Dev) (j : Job) (payload : List Byte) : Touches [.jobs] d (d.unitJoined j payload) :=
  (touches_modJob _ _ _).trans (touches_modJob _ _ _)

theorem touches_appendUnit_more (busy : NoneIdle d) (j : Job) (payload : List Byte) :
    Touches Piece.unit d (d.appendUnit j payload .more).1 := by
  cases room : d.spoolOk (spoolNeed payload.length) with
  | false =>
    rw [Dev.appendUnit_short room]
    exact (touches_modJob _ _ _).mono
  | true =>
    have granted := Touches.then (n := .jobs :: Piece.pooling) (touches_unitJoined d j payload)
      (touches_takeSpool _ (spoolBlocks payload).length)
    have still := noneIdle_congr (granted .printers (by decide)).symm busy
    rw [Dev.appendUnit_room room, Dev.selectAll_busy (noneIdle_offerItem still j.printer)]
    exact Touches.then granted (touches_offerItem _ _)

theorem Dev.appendUnit_takes (busy : NoneIdle d) (room : d.spoolOk (spoolNeed payload.length) = true)
    (found : d.jobBySerial j.serial = some j) :
    (d.appendUnit j payload .more).2 = .accepted j.id ∧ UnitJoins d (d.appendUnit j payload .more).1 j payload := by
  have seen := Dev.modJob_here found (f := fun j => { j with lastArrival := d.uptime }) fun _ => rfl
  have seenOne := oneJob_modJob d j.serial (f := fun j => { j with lastArrival := d.uptime }) fun _ => rfl
  have seenFrame := touches_modJob d j.serial fun j => { j with lastArrival := d.uptime }
  have need := length_spoolBlocks payload
  rw [Dev.appendUnit_room room, Dev.unitJoined, Dev.unitSeen]
  generalize (d.modJob j.serial fun j => { j with lastArrival := d.uptime }) = d1 at *
  have joined := Dev.modJob_here seen (f := fun j =>
    { j with chain := j.chain ++ spoolBlocks payload, received := addBytes j.received payload.length }) fun _ => rfl
  have joinedOne := oneJob_modJob d1 j.serial (f := fun j =>
    { j with chain := j.chain ++ spoolBlocks payload, received := addBytes j.received payload.length }) fun _ => rfl
  have joinedFrame := touches_modJob d1 j.serial fun j =>
    { j with chain := j.chain ++ spoolBlocks payload, received := addBytes j.received payload.length }
  generalize (d1.modJob j.serial fun j =>
    { j with chain := j.chain ++ spoolBlocks payload, received := addBytes j.received payload.length }) = d2 at *
  have granted := touches_takeSpool d2 (spoolBlocks payload).length
  have pool : (d2.takeSpool (spoolBlocks payload).length).pool = { d.pool with
      free := d.pool.free - spoolNeed payload.length, spool := d.pool.spool + spoolNeed payload.length } := by
    rw [Dev.takeSpool_pool, ← (seenFrame.trans joinedFrame) .pool (by decide), need]
  have framed := Touches.then (n := .jobs :: Piece.pooling) (seenFrame.trans joinedFrame) granted
  have still : NoneIdle (d2.takeSpool (spoolBlocks payload).length) :=
    noneIdle_congr (framed .printers (by decide)).symm busy
  have kept := (granted.job (n := j.serial)).trans joined
  have others : OneJob j.serial d (d2.takeSpool (spoolBlocks payload).length) := fun m hm =>
    (granted.job (n := m)).trans ((seenOne.trans joinedOne) m hm)
  generalize d2.takeSpool (spoolBlocks payload).length = d3 at *
  rw [Dev.selectAll_busy (noneIdle_offerItem still _)]
  have offered := touches_offerItem d3 j.printer
  refine ⟨rfl, (offered.job (n := _)).trans kept, fun m hm => (offered.job (n := m)).trans (others m hm), ?_, ?_⟩
  · rw [← offered .pool (by decide), pool]
  · rw [← offered .pool (by decide), pool]

theorem Dev.appendUnit_full (room : d.spoolOk (spoolNeed payload.length) = false) (found : d.jobBySerial j.serial = some j)
    (m : Mark) : (d.appendUnit j payload m).2 = .full ∧ UnitRefused d (d.appendUnit j payload m).1 (some j) := by
  have seen := Dev.modJob_here found (f := fun j => { j with lastArrival := d.uptime }) fun _ => rfl
  have seenOne := oneJob_modJob d j.serial (f := fun j => { j with lastArrival := d.uptime }) fun _ => rfl
  rw [Dev.appendUnit_short room]
  refine ⟨rfl, fun k opened => ?_, fun no => absurd no (by simp), rfl⟩
  obtain rfl := Option.some.inj opened
  exact ⟨seen, seenOne⟩

/-! ### A unit that asks for a job -/

theorem takesNoJob_iff (d : Dev) (p : Printer) :
    (!p.enabled || p.feed == .lost || !d.inService p.seg) = true ↔ TakesNoJob d p := by
  simp [TakesNoJob, or_assoc]

/-- The tests of R152 in their order, and the job that passes them. -/
theorem Dev.createJob_cases (printer : d.printer i = some p) (x : Source) (payload : List Byte) (m : Mark) :
    (TakesNoJob d p → d.createJob i x payload m = (d, .unavailable)) ∧
    (¬ TakesNoJob d p → p.jobLimit ≤ d.jobCount i → d.createJob i x payload m = (d, .limit)) ∧
    (¬ TakesNoJob d p → d.jobCount i < p.jobLimit → 32 ≤ d.spool.jobs.length →
      d.createJob i x payload m = (d, .tableFull)) ∧
    (¬ TakesNoJob d p → d.jobCount i < p.jobLimit → d.spool.jobs.length < 32 →
      d.spoolOk (spoolNeed payload.length) = false → d.createJob i x payload m = (d, .full)) := by
  have takes := takesNoJob_iff d p
  unfold Dev.createJob
  rw [printer]
  dsimp only
  rw [length_spoolBlocks]
  refine ⟨fun none => ?_, fun some limit => ?_, fun some below full => ?_, fun some below few short => ?_⟩
  · exact if_pos (takes.mpr none)
  · exact (if_neg (mt takes.mp some)).trans (if_pos limit)
  · exact (if_neg (mt takes.mp some)).trans ((if_neg (Nat.not_le.mpr below)).trans (if_pos full))
  · exact (if_neg (mt takes.mp some)).trans ((if_neg (Nat.not_le.mpr below)).trans
      ((if_neg (Nat.not_le.mpr few)).trans (if_pos (by rw [short]; rfl))))

/-- The record of a job that a unit opens (R148, R152). -/
def Dev.newJob (d : Dev) (i : Nat) (x : Source) (payload : List Byte) : Job where
  serial := d.spool.nextSerial
  id := freeJobId d.spool.jobs 255 d.spool.nextId
  printer := i
  source := x
  state := .filling
  isOpen := true
  chain := spoolBlocks payload
  received := payload.length
  printed := 0
  created := d.uptime
  lastArrival := d.uptime
  stamp := none

theorem Dev.createJob_opens (busy : NoneIdle d) (printer : d.printer i = some p) (takes : ¬ TakesNoJob d p)
    (below : d.jobCount i < p.jobLimit) (few : d.spool.jobs.length < 32) (room : d.spoolOk (spoolNeed payload.length) = true)
    (x : Source) : (d.createJob i x payload .more).2 = .accepted (freeJobId d.spool.jobs 255 d.spool.nextId) ∧
    UnitOpens d (d.createJob i x payload .more).1 i x payload ∧ Touches Piece.unit d (d.createJob i x payload .more).1 := by
  have created : d.createJob i x payload .more = (((d.modSpool fun s => { s with
      jobs := s.jobs ++ [d.newJob i x payload]
      nextId := freeJobId d.spool.jobs 255 d.spool.nextId % 255 + 1
      nextSerial := d.spool.nextSerial + 1 }).takeSpool (spoolBlocks payload).length).selectAll,
      .accepted (freeJobId d.spool.jobs 255 d.spool.nextId)) := by
    unfold Dev.createJob
    rw [printer]
    dsimp only
    rw [length_spoolBlocks]
    refine (if_neg (mt (takesNoJob_iff d p).mp takes)).trans ((if_neg (Nat.not_le.mpr below)).trans
      ((if_neg (Nat.not_le.mpr few)).trans ((if_neg ?_).trans rfl)))
    rw [room]
    decide
  rw [created]
  have named := touches_setJobNames d (fun s => s.jobs ++ [d.newJob i x payload])
    (fun _ => freeJobId d.spool.jobs 255 d.spool.nextId % 255 + 1) fun _ => d.spool.nextSerial + 1
  have jobs : (d.modSpool fun s =>
      { s with
        jobs := s.jobs ++ [d.newJob i x payload]
        nextId := freeJobId d.spool.jobs 255 d.spool.nextId % 255 + 1
        nextSerial := d.spool.nextSerial + 1 }).spool.jobs = d.spool.jobs ++ [d.newJob i x payload] := rfl
  have next : (d.modSpool fun s =>
      { s with
        jobs := s.jobs ++ [d.newJob i x payload]
        nextId := freeJobId d.spool.jobs 255 d.spool.nextId % 255 + 1
        nextSerial := d.spool.nextSerial + 1 }).spool.nextId = freeJobId d.spool.jobs 255 d.spool.nextId % 255 + 1 := rfl
  generalize (d.modSpool fun s =>
    { s with
      jobs := s.jobs ++ [d.newJob i x payload]
      nextId := freeJobId d.spool.jobs 255 d.spool.nextId % 255 + 1
      nextSerial := d.spool.nextSerial + 1 }) = d1 at *
  have granted := touches_takeSpool d1 (spoolBlocks payload).length
  have pool : (d1.takeSpool (spoolBlocks payload).length).pool = { d.pool with
      free := d.pool.free - spoolNeed payload.length, spool := d.pool.spool + spoolNeed payload.length } := by
    rw [Dev.takeSpool_pool, ← named .pool (by decide), length_spoolBlocks]
  have framed := Touches.then (n := Piece.unit) named granted
  have still : NoneIdle (d1.takeSpool (spoolBlocks payload).length) :=
    noneIdle_congr ((named .printers (by decide)).trans (granted .printers (by decide))).symm busy
  rw [Dev.selectAll_busy still]
  refine ⟨rfl, ⟨?_, ?_, ?_, ?_⟩, framed⟩
  · exact (granted .jobs (by decide)).symm.trans jobs
  · exact (granted .jobNames (by decide)).1.symm.trans next
  · rw [pool]
  · rw [pool]

/-! ### The decision -/

/-- The Spooler's answer to a unit is counted (R150). -/
def unitCounted (r : Dev × UnitAnswer) : Dev × UnitAnswer :=
  match r.2 with
  | .accepted _ => (r.1.countSpool .accepted, r.2)
  | _ => (r.1.countSpool .refused, r.2)

theorem unitCounted_facts (r : Dev × UnitAnswer) :
    (unitCounted r).2 = r.2 ∧ Touches (.spoolCounters :: Piece.raised) r.1 (unitCounted r).1 := by
  unfold unitCounted
  split
  all_goals exact ⟨rfl, touches_countSpool _ _⟩

theorem Dev.takeUnit_opened (place : d.printerAt g n = some i) (opened : d.openJob x i = some j) (m : Mark) :
    d.takeUnit g n x payload m = unitCounted (d.appendUnit j payload m) := by
  rw [Dev.takeUnit, place]
  dsimp only
  rw [opened]
  rfl

theorem Dev.takeUnit_unopened (place : d.printerAt g n = some i) (closed : d.openJob x i = none) (m : Mark) :
    d.takeUnit g n x payload m = unitCounted (d.createJob i x payload m) := by
  rw [Dev.takeUnit, place]
  dsimp only
  rw [closed]
  rfl

/-- What the Spooler decides of a unit marked MORE, its answer and what it leaves of the spool. -/
structure UnitDecided (d : Dev) (i : Nat) (p : Printer) (x : Source) (payload : List Byte) (r : Dev × UnitAnswer) : Prop where
  opened : ∀ j, d.openJob x i = some j → d.jobBySerial j.serial = some j →
    (d.spoolOk (spoolNeed payload.length) = true → r.2 = .accepted j.id ∧ UnitJoins d r.1 j payload) ∧
    (d.spoolOk (spoolNeed payload.length) = false → r.2 = .full ∧ UnitRefused d r.1 (some j))
  barred : d.openJob x i = none → TakesNoJob d p → r.2 = .unavailable ∧ UnitRefused d r.1 none
  limited : d.openJob x i = none → ¬ TakesNoJob d p → p.jobLimit ≤ d.jobCount i → r.2 = .limit ∧ UnitRefused d r.1 none
  crowded : d.openJob x i = none → ¬ TakesNoJob d p → d.jobCount i < p.jobLimit → 32 ≤ d.spool.jobs.length →
    r.2 = .tableFull ∧ UnitRefused d r.1 none
  short : d.openJob x i = none → ¬ TakesNoJob d p → d.jobCount i < p.jobLimit → d.spool.jobs.length < 32 →
    d.spoolOk (spoolNeed payload.length) = false → r.2 = .full ∧ UnitRefused d r.1 none
  opens : d.openJob x i = none → ¬ TakesNoJob d p → d.jobCount i < p.jobLimit → d.spool.jobs.length < 32 →
    d.spoolOk (spoolNeed payload.length) = true →
    r.2 = .accepted (freeJobId d.spool.jobs 255 d.spool.nextId) ∧ UnitOpens d r.1 i x payload

theorem unitRefused_self (d : Dev) : UnitRefused d d none := ⟨fun _ no => absurd no (by simp), fun _ => rfl, rfl⟩

/-- The Spooler's decision on a unit marked MORE with no printer IDLE (R150 to R152). -/
theorem Dev.takeUnit_decides (place : d.printerAt g n = some i) (printer : d.printer i = some p) (busy : NoneIdle d)
    (x : Source) (payload : List Byte) : UnitDecided d i p x payload (d.takeUnit g n x payload .more) := by
  have self : ∀ e : Dev, SameSpool e e := fun _ => ⟨rfl, rfl, ⟨rfl, rfl⟩, rfl⟩
  have carry := fun r => (unitCounted_facts r).2.sameSpool
  obtain ⟨barred, limited, crowded, short⟩ := Dev.createJob_cases printer x payload .more
  have refused : ∀ {a : UnitAnswer}, d.openJob x i = none → d.createJob i x payload .more = (d, a) →
      (d.takeUnit g n x payload .more).2 = a ∧ UnitRefused d (d.takeUnit g n x payload .more).1 none := fun closed said => by
    rw [Dev.takeUnit_unopened place closed, said]
    exact ⟨(unitCounted_facts _).1, (unitRefused_self d).carry (self d) (carry (d, _))⟩
  refine ⟨fun j opened found => ⟨fun room => ?_, fun room => ?_⟩, fun closed none => refused closed (barred none),
    fun closed some limit => refused closed (limited some limit),
    fun closed some below full => refused closed (crowded some below full),
    fun closed some below few room => refused closed (short some below few room), fun closed some below few room => ?_⟩
  · obtain ⟨said, joins⟩ := Dev.appendUnit_takes busy room found
    rw [Dev.takeUnit_opened place opened]
    exact ⟨(unitCounted_facts _).1.trans said, joins.carry (self d) (carry _)⟩
  · obtain ⟨said, refuses⟩ := Dev.appendUnit_full room found .more
    rw [Dev.takeUnit_opened place opened]
    exact ⟨(unitCounted_facts _).1.trans said, refuses.carry (self d) (carry _)⟩
  · obtain ⟨said, opens, -⟩ := Dev.createJob_opens busy printer some below few room x
    rw [Dev.takeUnit_unopened place closed]
    exact ⟨(unitCounted_facts _).1.trans said, opens.carry (self d) (carry _)⟩

/-- What the deciding of a unit moves where no printer is IDLE. -/
theorem Dev.touches_unit (place : d.printerAt g n = some i) (printer : d.printer i = some p) (busy : NoneIdle d)
    (x : Source) (payload : List Byte) :
    Touches (.spoolCounters :: Piece.unit) d (d.takeUnit g n x payload .more).1 := by
  have counted := fun r => (unitCounted_facts r).2
  have whole : ∀ {r : Dev × UnitAnswer}, Touches Piece.unit d r.1 → Touches (.spoolCounters :: Piece.unit) d (unitCounted r).1 :=
    fun decided => Touches.then decided (counted _)
  cases opened : d.openJob x i with
  | some j =>
    rw [Dev.takeUnit_opened place opened]
    exact whole (touches_appendUnit_more busy j payload)
  | none =>
    rw [Dev.takeUnit_unopened place opened]
    obtain ⟨barred, limited, crowded, short⟩ := Dev.createJob_cases printer x payload .more
    have stays : ∀ {a : UnitAnswer}, d.createJob i x payload .more = (d, a) →
        Touches (.spoolCounters :: Piece.unit) d (unitCounted (d.createJob i x payload .more)).1 := fun said => by
      rw [said]
      exact whole (r := (d, _)) (.refl _ _)
    by_cases takes : TakesNoJob d p
    · exact stays (barred takes)
    · obtain below | limit := Nat.lt_or_ge (d.jobCount i) p.jobLimit
      · obtain few | full := Nat.lt_or_ge d.spool.jobs.length 32
        · cases room : d.spoolOk (spoolNeed payload.length) with
          | false => exact stays (short takes below few room)
          | true =>
            obtain ⟨-, -, framed⟩ := Dev.createJob_opens busy printer takes below few room x
            exact whole framed
        · exact stays (crowded takes below full)
      · exact stays (limited takes limit)

end Sys2Proof.Machine
end

