-- ==== Sys2Proof/Proofs/CoaxData.lean ====
section
/-! DATA from the coax: a repeat is acknowledged, and new DATA is resolved and taken (R17, R19, R67, R68, R89). -/

namespace Sys2Proof.Machine

open Sys2Proof

-- one proof after another: proofs that wait for each other take a thread each
set_option Elab.async false

variable {c d e : Dev} {g k : Seg} {s : State} {l : List Piece} {i n m : Nat} {p : Printer} {x : Exchange} {a b : Station}
  {f : TrunkFrame} {payload : List Byte}

/-! ### Relay to a station -/

/-- The frame that joins a downstream queue (R91). -/
def Dev.downFrame (d : Dev) (dest source : Nat) (m : Mark) (payload : List Byte) : DownFrame where
  fid := d.nextFid
  dest := dest
  fromNum := source
  mark := m
  blocks := transitBlocks payload
  enqueued := d.clock
  failed := 0
  refused := 0
  flushMark := false

theorem Touches.printerAt (t : Touches l d e) (apart : Piece.printers ∉ l := by decide) (g : Seg) (n : Nat) :
    e.printerAt g n = d.printerAt g n := by
  unfold Dev.printerAt
  simp only [fun i => t.printer apart (i := i)]

/-- A frame relayed to a station that no printer names joins the queue with its blocks (R89, R91). -/
theorem Dev.queueDown_facts (unnamed : d.printerAt g n = none) (k : Nat) (m : Mark) (payload : List Byte) :
    ((d.queueDown g n k m payload).seg g).downq = (d.seg g).downq ++ [d.downFrame n k m payload] ∧
    (d.queueDown g n k m payload).pool = { d.pool with
      free := d.pool.free - transitNeed payload.length, transit := d.pool.transit + transitNeed payload.length } ∧
    OneSeg g d (d.queueDown g n k m payload) ∧
    Touches ([.downq, .names] ++ Piece.pooling) d (d.queueDown g n k m payload) := by
  have placed := touches_placeDown d g n k m payload
  have granted := touches_takeTransit (d.placeDown g n k m payload) (transitNeed payload.length)
  have framed := Touches.then (n := [.downq, .names] ++ Piece.pooling) placed granted
  have same : d.queueDown g n k m payload = (d.placeDown g n k m payload).takeTransit (transitNeed payload.length) := by
    have still : ((d.placeDown g n k m payload).takeTransit (transitNeed payload.length)).printerAt g n = none := by
      rw [framed.printerAt]
      exact unnamed
    rw [Dev.queueDown, Dev.flushAwaiting, still]
    rfl
  rw [same]
  refine ⟨?_, ?_, fun h hh => ?_, framed⟩
  · rw [← granted .downq (by decide) g, Dev.placeDown]
    exact congrArg Segment.downq (Dev.modSeg_seg d g fun s => { s with downq := s.downq ++ [d.downFrame n k m payload] })
  · rw [Dev.takeTransit_pool, ← placed .pool (by decide)]
  · rw [granted.seg_eq rfl h]
    exact oneSeg_modSeg d g (fun s => { s with downq := s.downq ++ [d.downFrame n k m payload] }) h hh

theorem Dev.toStation_terminal {v : Nat} (stands : d.station k n = some b) (present : b.state = .present ∨ b.state = .slow)
    (role : b.role = .terminal) (service : d.inService k = true) {x : Source} (settled : d.settleFrom k x = (e, some v)) :
    d.toStation k n x = (e, .relay k n v) := by
  unfold Dev.toStation
  rw [stands]
  rcases present with st | st <;> simp only [st, role, service, settled] <;> rfl

theorem Dev.toStation_printer (stands : d.station k n = some b) (present : b.state = .present ∨ b.state = .slow)
    (role : b.role = .printer) (x : Source) : d.toStation k n x = (d, .spool k n x) := by
  unfold Dev.toStation
  rw [stands]
  rcases present with st | st <;> simp only [st, role] <;> rfl

theorem Dev.resolveCoax_station (inside : n ≠ 0 ∧ n ≠ 255) (stands : d.station g n = some b) (k : Nat) :
    d.resolveCoax g k n = d.toStation g n (.coax g k) := by
  rw [Dev.resolveCoax, if_neg inside.1, if_neg inside.2, stands]
  rfl

theorem Dev.resolveCoax_ethernet {q : AliasEntry} {t : Addr} (inside : n ≠ 0 ∧ n ≠ 255) (free : d.station g n = none)
    (named : d.aliasAt g n = some q) (active : q.state = .active) (target : q.target = .ethernet t) (k : Nat) :
    d.resolveCoax g k n = (d.useAlias g n, .carrier t (d.proxy g k)) := by
  rw [Dev.resolveCoax, if_neg inside.1, if_neg inside.2, free, named]
  dsimp only
  rw [target]
  exact (if_neg (by simp)).trans (if_pos active)

/-! ### DATA at the directory -/

/-- A repeat of the last DATA is acknowledged and dropped (R19). -/
theorem Dev.takeData_repeat (present : a.state = .present) (repeated : a.lastSeq = some (f.control.getLsbD 0)) :
    d.takeData g a f = (d.modStation a.eid fun e => { e with pendingAck := .ack }).dropSeg g .duplicate := by
  unfold Dev.takeData
  rw [present]
  exact if_pos repeated

/-- New DATA is forwarded, and its verdict settles the pending ack (R17). -/
theorem Dev.takeData_new (present : a.state = .present) (new : a.lastSeq ≠ some (f.control.getLsbD 0)) {v : Verdict}
    (forwarded : (d.countSeg g .framesIn).forwardCoax g a.number f.peer (frameMark f) f.payload = (e, v)) :
    (v = .taken → d.takeData g a f = e.modStation a.eid fun q =>
      { q with pendingAck := .ack, lastSeq := some (f.control.getLsbD 0) }) ∧
    (v = .busy → d.takeData g a f = e.modStation a.eid fun q => { q with pendingAck := .busy }) ∧
    (∀ w, v = .discarded w → d.takeData g a f = (e.modStation a.eid fun q =>
      { q with pendingAck := .ack, lastSeq := some (f.control.getLsbD 0) }).dropSeg g w) := by
  unfold Dev.takeData
  rw [present]
  dsimp only
  rw [if_neg new, forwarded]
  refine ⟨?_, ?_, fun w => ?_⟩ <;> rintro rfl <;> rfl

/-- The entry of a station whose new DATA was taken or dropped, or found no room (R17). -/
theorem Dev.takeData_entry (found : d.stationById a.eid = some a) (present : a.state = .present)
    (new : a.lastSeq ≠ some (f.control.getLsbD 0)) {v : Verdict}
    (forwarded : (d.countSeg g .framesIn).forwardCoax g a.number f.peer (frameMark f) f.payload = (e, v)) :
    (v ≠ .busy → (d.takeData g a f).stationById a.eid = some { a with
      pendingAck := .ack, lastSeq := some (f.control.getLsbD 0) }) ∧
    (v = .busy → (d.takeData g a f).stationById a.eid = some { a with pendingAck := .busy }) ∧
    Touches (.stations :: Piece.counted) e (d.takeData g a f) := by
  obtain ⟨taken, busy, dropped⟩ := Dev.takeData_new (d := d) present new forwarded
  have there : e.stationById a.eid = some a := by
    have one := touches_countSeg d g .framesIn .stations (by decide)
    have two := touches_forwardCoax (d.countSeg g .framesIn) g a.number f.peer (frameMark f) f.payload .stations (by decide)
    rw [forwarded] at two
    exact (Dev.stationById_congr (one.trans two).symm _).trans found
  have acked := (Dev.modStation_byId there (f := fun q =>
    { q with pendingAck := .ack, lastSeq := some (f.control.getLsbD 0) }) fun _ => rfl).1
  refine ⟨fun free => ?_, fun short => ?_, ?_⟩
  · cases v with
    | taken =>
      rw [taken rfl]
      exact acked
    | busy => exact absurd rfl free
    | discarded w =>
      rw [dropped w rfl]
      exact (Dev.stationById_congr (touches_dropSeg _ g w .stations (by decide)).symm _).trans acked
  · rw [busy short]
    exact (Dev.modStation_byId there (f := fun q => { q with pendingAck := .busy }) fun _ => rfl).1
  · cases v with
    | taken =>
      rw [taken rfl]
      exact (touches_modStation _ _ _).mono
    | busy =>
      rw [busy rfl]
      exact (touches_modStation _ _ _).mono
    | discarded w =>
      rw [dropped w rfl]
      exact Touches.then (touches_modStation _ _ _) (touches_dropSeg _ _ _)

/-- A POLL of a TERMINAL station answered with DATA on a calm line: the directory takes the DATA, and nothing of it is
moved afterwards. -/
theorem Dev.endExchange_data (calm : CalmLine (d.seg g)) (eid : x.eid = some a.eid) (found : d.stationById a.eid = some a)
    (role : a.role = .terminal) (kind : f.kind = kData)
    (there : ((d.concluded g .good).takeData g a f).stationById a.eid = some b) (present : b.state = .present) :
    (d.endExchange g (.poll a.eid) x .good f).stationById a.eid = some { b with
      misses := 0, jabStrikes := 0, lastHeard := some d.uptime } ∧
    Touches [.mon, .txEnable, .stations, .backoffs] ((d.concluded g .good).takeData g a f)
      (d.endExchange g (.poll a.eid) x .good f) := by
  have closed := touches_concluded d g .good
  have known := (Dev.stationById_congr (closed .stations (by decide)).symm a.eid).trans found
  have notAccept : f.kind ≠ kAccept := by rw [kind]; decide
  have item : (d.concluded g .good).itemOutcome g (.poll a.eid) x .good f = d.concluded g .good := by
    show (d.concluded g .good).polledOutcome a.eid .good f = _
    unfold Dev.polledOutcome
    rw [known]
    dsimp only
    rw [role]
  have settled := (Dev.endExchange_calm calm (.poll a.eid) x f).frame
  have now : ((d.concluded g .good).takeData g a f).uptime = d.uptime :=
    (touches_takeData (d.concluded g .good) g a f .uptime (by decide)).symm.trans (closed .uptime (by decide)).symm
  have told : d.outcomeTold g (.poll a.eid) x .good f = (if startsBackoff a f then
      ((d.concluded g .good).takeData g a f).startBackoff g a.number
      else (d.concluded g .good).takeData g a f).stationGood a := by
    rw [Dev.outcomeTold, item, Dev.directoryOutcome_good eid known]
    dsimp only
    rw [if_pos kind, if_neg notAccept]
  rw [told] at settled
  generalize (d.concluded g .good).takeData g a f = t at *
  have backed : Touches [.backoffs] t (if startsBackoff a f then t.startBackoff g a.number else t) :=
    Touches.ite (fun _ => touches_startBackoff _ _ _) fun _ => .refl _ _
  have still := (Dev.stationById_congr (backed .stations (by decide)).symm a.eid).trans there
  have clock := backed .uptime (by decide)
  generalize (if startsBackoff a f then t.startBackoff g a.number else t) = u at *
  have heard := (Dev.modStation_byId still (f := fun q =>
    { q with
      misses := 0, jabStrikes := 0, lastHeard := some u.uptime
      state := if q.state = .slow then .present else q.state }) fun _ => rfl).1
  have good := touches_stationGood u a
  refine ⟨(Dev.stationById_congr (settled .stations (by decide)).symm a.eid).trans ?_,
    Touches.then backed (Touches.then (n := [.mon, .txEnable, .stations]) good settled)⟩
  refine Eq.trans heard ?_
  rw [← now, clock, present]
  rfl

end Sys2Proof.Machine
end

