-- ==== Sys2Proof/Proofs/CoaxTaken.lean ====
section
/-! New DATA from the coax, taken by a station's queue, by the uplink or by the Spooler, and its verdict at the sender's
entry (R17, R67, R89, R97). -/

namespace Sys2Proof.Machine

open Sys2Proof

-- one proof after another: proofs that wait for each other take a thread each
set_option Elab.async false

variable {c d e : Dev} {g k : Seg} {s : State} {l : List Piece} {i n m : Nat} {p : Printer} {x : Exchange} {a b : Station}
  {f : TrunkFrame} {payload : List Byte}

/-! ### What untouched pieces show -/

theorem Touches.segCounter (t : Touches l d e) (apart : Piece.segCounters ∉ l := by decide) (g : Seg) (k : SegCounter) :
    e.ev.counter (.seg g k) = d.ev.counter (.seg g k) := by
  have same : e.ev.segCounters = d.ev.segCounters := (t .segCounters apart).symm
  cases g <;> simp only [EventUnit.counter, EventUnit.group, CounterId.group, segNat, same]

theorem Touches.station (t : Touches l d e) (apart : Piece.stations ∉ l := by decide) (g : Seg) (n : Nat) :
    e.station g n = d.station g n := by
  rw [Dev.station, ← t .stations apart, Dev.station]

theorem Touches.aliasAt (t : Touches l d e) (apart : Piece.aliases ∉ l := by decide) (g : Seg) (n : Nat) :
    e.aliasAt g n = d.aliasAt g n := by
  rw [Dev.aliasAt, ← t .aliases apart, Dev.aliasAt]

theorem Touches.inService (t : Touches l d e) (apart : Piece.mon ∉ l := by decide) (g : Seg) :
    e.inService g = d.inService g := by
  rw [Dev.inService, ← t .mon apart g, Dev.inService]

theorem Dev.spoolOk_congr (pool : e.pool = d.pool) (set : e.set = d.set) (n : Nat) : e.spoolOk n = d.spoolOk n := by
  rw [Dev.spoolOk, pool, set, Dev.spoolOk]

theorem SameSpool.self (d : Dev) : SameSpool d d := ⟨rfl, rfl, ⟨rfl, rfl⟩, rfl⟩

/-- What decides of a unit, and what it leaves, is seen from before and after whatever leaves it alone. -/
theorem UnitDecided.carry {y : Source} {v : UnitAnswer} {r : Dev} (h : UnitDecided e i p y payload (r, v)) (before : Touches l d e)
    (after : SameSpool r c) (apart : ([Piece.jobs, .pool, .jobNames, .uptime, .settings, .mon].any fun p => l.contains p) = false
      := by rfl) : UnitDecided d i p y payload (c, v) := by
  have same : ∀ p ∈ [Piece.jobs, .pool, .jobNames, .uptime, .settings, .mon], p.same d e := fun p hp => before p fun hl =>
    Bool.eq_false_iff.mp apart (List.any_eq_true.mpr ⟨p, hp, List.contains_iff_mem.mpr hl⟩)
  have jobs : d.spool.jobs = e.spool.jobs := same .jobs (by decide)
  have first : SameSpool d e := by
    obtain ⟨id, -, serial⟩ := same .jobNames (by decide)
    exact ⟨jobs.symm, (same .pool (by decide)).symm, ⟨id.symm, serial.symm⟩, (same .uptime (by decide)).symm⟩
  have room := Dev.spoolOk_congr (same .pool (by decide)).symm (same .settings (by decide)).symm (spoolNeed payload.length)
  have opened : e.openJob y i = d.openJob y i := by rw [Dev.openJob, ← jobs, Dev.openJob]
  have count : e.jobCount i = d.jobCount i := by rw [Dev.jobCount, ← jobs, Dev.jobCount]
  have takes : TakesNoJob e p ↔ TakesNoJob d p := by
    rw [TakesNoJob, Dev.inService, ← same .mon (by decide) p.seg, TakesNoJob, Dev.inService]
  obtain ⟨own, barred, limited, crowded, short, opens⟩ := h
  rw [opened] at own barred limited crowded short opens
  rw [count, takes] at limited crowded short opens
  rw [takes] at barred
  rw [← jobs] at crowded short opens
  rw [room] at own short opens
  rw [first.names.1] at opens
  refine ⟨fun j was found => ?_, fun closed none => ?_, fun closed some limit => ?_, fun closed some below full => ?_,
    fun closed some below few room => ?_, fun closed some below few room => ?_⟩
  · obtain ⟨joins, refused⟩ := own j was ((first.job _).trans found)
    exact ⟨fun room => ⟨(joins room).1, (joins room).2.carry first after⟩,
      fun room => ⟨(refused room).1, (refused room).2.carry first after⟩⟩
  · exact ⟨(barred closed none).1, (barred closed none).2.carry first after⟩
  · exact ⟨(limited closed some limit).1, (limited closed some limit).2.carry first after⟩
  · exact ⟨(crowded closed some below full).1, (crowded closed some below full).2.carry first after⟩
  · exact ⟨(short closed some below few room).1, (short closed some below few room).2.carry first after⟩
  · exact ⟨(opens closed some below few room).1, (opens closed some below few room).2.carry first after⟩

/-! ### The verdict at the sender's entry -/

/-- The part as it is when a POLL's new DATA is forwarded: the turn is over, the exchange and the frame are counted
(R16, R17). -/
def Dev.dataCounted (d : Dev) (g : Seg) : Dev := (d.concluded g .good).countSeg g .framesIn

theorem touches_dataCounted (d : Dev) (g : Seg) : Touches (.sched :: Piece.counted) d (d.dataCounted g) :=
  Touches.then (touches_concluded _ _ _) (touches_countSeg _ _ _)

theorem CountersOk.dataCounted (ok : CountersOk d) (g : Seg) : CountersOk (d.dataCounted g) :=
  (((ok.sound.dropTurn g).countSeg g .good).countSeg g .framesIn).countersOk

theorem Dev.dataCounted_counter (d : Dev) (g : Seg) (w : SegDrop) :
    (d.dataCounted g).ev.counter (.seg g (.drop w)) = d.ev.counter (.seg g (.drop w)) :=
  (Dev.count_counter_other (d := d.concluded g .good) (by simp) (not_ofNotice_seg g _)).trans
    (Dev.count_counter_other (d := d.dropTurn g) (by simp [ExOutcome.counter]) (not_ofNotice_seg g _))

/-- With their counts short of the half mark the two reports move nothing else. -/
theorem Dev.dataCounted_quiet (good : (d.ev.counter (.seg g .good)).value ≠ 32767)
    (frames : (d.ev.counter (.seg g .framesIn)).value ≠ 32767) : Touches [.sched, .segCounters] d (d.dataCounted g) := by
  have quiet : ∀ {d : Dev} {k : SegCounter}, (d.ev.counter (.seg g k)).value ≠ 32767 →
      Touches [.segCounters] d (d.countSeg g k) := fun {d k} low => by
    rw [Dev.countSeg, Dev.count_of_no_half (by simp [Counter.passesHalf, low])]
    exact touches_bump d (.seg g k)
  have first : Touches [.segCounters] (d.dropTurn g) (d.concluded g .good) := quiet good
  have still : ((d.concluded g .good).ev.counter (.seg g .framesIn)).value ≠ 32767 := by
    rw [show (d.concluded g .good).ev.counter (.seg g .framesIn) = d.ev.counter (.seg g .framesIn) from
      Dev.count_counter_other (d := d.dropTurn g) (by simp [ExOutcome.counter]) (not_ofNotice_seg g _)]
    exact frames
  exact Touches.then (Touches.then (n := [.sched, .segCounters]) (touches_modSched d g fun s => { s with turn := none }) first)
    (quiet still)

/-- What a POLL's new DATA does on a calm line, by the verdict on it. -/
structure DataTold (d : Dev) (a : Station) (g : Seg) (f : TrunkFrame) (e : Dev) (v : Verdict) (c : Dev) : Prop where
  acked : v ≠ .busy → c.stationById a.eid = some { a with
    pendingAck := .ack, lastSeq := some (f.control.getLsbD 0), misses := 0, jabStrikes := 0, lastHeard := some d.uptime }
  busy : v = .busy → c.stationById a.eid = some { a with
    pendingAck := .busy, misses := 0, jabStrikes := 0, lastHeard := some d.uptime }
  plain : (∀ w, v ≠ .discarded w) → Touches [.mon, .txEnable, .stations, .backoffs] e c
  framed : Touches ([.mon, .txEnable, .stations, .backoffs] ++ Piece.counted) e c
  dropped : ∀ w, v = .discarded w → CountersOk e → (c.ev.counter (.seg g (.drop w))).value =
    min ((e.ev.counter (.seg g (.drop w))).value + 1) 65535

theorem Dev.endExchange_told (calm : CalmLine (d.seg g)) (eid : x.eid = some a.eid) (found : d.stationById a.eid = some a)
    (present : a.state = .present) (role : a.role = .terminal) (kind : f.kind = kData)
    (new : a.lastSeq ≠ some (f.control.getLsbD 0)) {v : Verdict}
    (forwarded : (d.dataCounted g).forwardCoax g a.number f.peer (frameMark f) f.payload = (e, v)) :
    DataTold d a g f e v (d.endExchange g (.poll a.eid) x .good f) := by
  have known := (Dev.stationById_congr (touches_concluded d g .good .stations (by decide)).symm a.eid).trans found
  obtain ⟨acked, busy, framed⟩ := Dev.takeData_entry known present new forwarded
  obtain ⟨taken, full, dropped⟩ := Dev.takeData_new (d := d.concluded g .good) present new forwarded
  have ended := fun {b : Station} => Dev.endExchange_data (b := b) calm eid found role kind
  have told : Touches [.mon, .txEnable, .stations, .backoffs] ((d.concluded g .good).takeData g a f)
      (d.endExchange g (.poll a.eid) x .good f) := by
    by_cases short : v = .busy
    · exact (ended (busy short) present).2
    · exact (ended (acked short) present).2
  refine ⟨fun free => (ended (acked free) present).1, fun short => (ended (busy short) present).1, fun kept => ?_,
    Touches.then framed told, fun w out ok => ?_⟩
  · cases v with
    | taken => exact Touches.then (touches_modStation _ _ _) (taken rfl ▸ told)
    | busy => exact Touches.then (touches_modStation _ _ _) (full rfl ▸ told)
    | discarded w => exact absurd rfl (kept w)
  · rw [dropped w out] at told
    rw [told.counter_eq, Dev.dropSeg, Dev.count_counter ?_ (not_ofNotice_seg g _), Counter.bump_value]
    · rfl
    · exact ok

end Sys2Proof.Machine
end

