-- ==== Sys2Proof/Proofs/UplinkGrowth.lean ====
section
/-! What an event, a count, a pause frame and a grant of blocks do to the uplink queue: no frame leaves it, and none but
notices join it (R95, R188, R189). -/

namespace Sys2Proof.Machine

open Sys2Proof

-- one proof after another: proofs that wait for each other take a thread each
set_option Elab.async false

variable {c d e : Dev} {g : Seg} {l : List Piece} {i n : Nat} {p : Printer} {x : Source} {payload : List Byte}

/-- The uplink queue has grown by notices alone. -/
def NoticesJoin (d e : Dev) : Prop := ∃ l : List UpFrame, (∀ f ∈ l, f.kind = .notice) ∧ e.up.queue = d.up.queue ++ l

theorem NoticesJoin.trans (h : NoticesJoin d e) (k : NoticesJoin e c) : NoticesJoin d c := by
  obtain ⟨l, notices, queue⟩ := h
  obtain ⟨m, others, after⟩ := k
  refine ⟨l ++ m, fun f hf => (List.mem_append.mp hf).elim (notices f) (others f), ?_⟩
  rw [after, queue, List.append_assoc]

theorem noticesJoin_of_same (same : e.up.queue = d.up.queue) : NoticesJoin d e :=
  ⟨[], fun _ no => absurd no (by simp), by rw [same, List.append_nil]⟩

theorem NoticesJoin.refl (d : Dev) : NoticesJoin d d := noticesJoin_of_same rfl

theorem NoticesJoin.ite {b : Prop} [Decidable b] (h : b → NoticesJoin d e) (k : ¬ b → NoticesJoin d c) :
    NoticesJoin d (if b then e else c) := by
  split
  · exact h ‹_›
  · exact k ‹_›

theorem Touches.noticesJoin (t : Touches l d e) (apart : Piece.upQueue ∉ l := by decide) : NoticesJoin d e :=
  noticesJoin_of_same (t .upQueue apart).symm

theorem NoticesJoin.grows (h : NoticesJoin d e) : d.up.queue <+: e.up.queue := by
  obtain ⟨l, -, queue⟩ := h
  exact ⟨l, queue.symm⟩

/-! ### Events and counts -/

theorem Dev.recordEvent_up (d : Dev) (k : EventKind) (s : Subject) : (d.recordEvent k s).1.up = d.up := by
  unfold Dev.recordEvent
  dsimp only
  split <;> rfl

theorem noticesJoin_startTx (d : Dev) : NoticesJoin d d.startTx := noticesJoin_of_same d.startTx_up.1

theorem noticesJoin_offerNotice (d : Dev) : NoticesJoin d d.offerNotice := by
  unfold Dev.offerNotice
  split
  · refine ⟨[d.noticeFrame], fun f hf => ?_, Dev.placeUp_queue d _⟩
    rw [List.mem_singleton.mp hf]
    rfl
  · refine noticesJoin_of_same (congrArg Uplink.queue (?_ : (d.countQuietly _).up = d.up))
    unfold Dev.countQuietly
    dsimp only
    split
    · exact Dev.recordEvent_up _ _ _
    · rfl

theorem noticesJoin_noticeTest (d : Dev) : NoticesJoin d d.noticeTest :=
  .ite (fun _ => noticesJoin_of_same rfl) fun _ => .ite (fun _ => noticesJoin_offerNotice d) fun _ => .refl d

theorem noticesJoin_raise (d : Dev) (k : EventKind) (s : Subject) : NoticesJoin d (d.raise k s) := by
  have recorded := noticesJoin_of_same (congrArg Uplink.queue (d.recordEvent_up k s))
  unfold Dev.raise
  dsimp only
  split
  · exact recorded.trans (noticesJoin_noticeTest _)
  · exact recorded

theorem noticesJoin_count (d : Dev) (k : CounterId) : NoticesJoin d (d.count k) := by
  have bumped : NoticesJoin d (d.modEv fun e => e.bump k) := noticesJoin_of_same rfl
  rw [Dev.count_ev]
  split
  · exact bumped.trans (noticesJoin_raise _ _ _)
  · exact bumped

/-! ### The pause state and the pool -/

theorem noticesJoin_emitPause (d : Dev) (k : PauseKind) : NoticesJoin d (d.emitPause k) :=
  noticesJoin_count (d.modUp fun u => { u with portOut := ethWire (pauseBytes d.ownAddr (d.pauseTime k)) }) _

theorem noticesJoin_sendPause (d : Dev) (k : PauseKind) : NoticesJoin d (d.sendPause k) :=
  .ite (fun _ => .refl d) fun _ => .ite (fun _ => noticesJoin_of_same rfl) fun _ => noticesJoin_emitPause d k

theorem noticesJoin_pauseTest (d : Dev) : NoticesJoin d d.pauseTest := by
  have asks : NoticesJoin d ((d.modUp fun u => { u with pauseOn := true }).sendPause .ask) :=
    noticesJoin_sendPause (d.modUp fun u => { u with pauseOn := true }) .ask
  have started : NoticesJoin d (((d.modUp fun u => { u with pauseOn := true }).sendPause .ask).startRepeat) :=
    asks.trans (noticesJoin_of_same rfl)
  exact .ite (fun _ => started.trans (noticesJoin_raise _ _ _)) fun _ =>
    .ite (fun _ => noticesJoin_sendPause (d.modUp fun u => { u with pauseOn := false, repeatTimer := none }) .release)
      fun _ => .refl d

theorem noticesJoin_takeTransit (d : Dev) (n : Nat) : NoticesJoin d (d.takeTransit n) :=
  noticesJoin_pauseTest { d with pool := { d.pool with free := d.pool.free - n, transit := d.pool.transit + n } }

theorem noticesJoin_freeTransit (d : Dev) (n : Nat) : NoticesJoin d (d.freeTransit n) :=
  .ite (fun _ => .refl d) fun _ =>
    noticesJoin_pauseTest { d with pool := { d.pool with free := d.pool.free + n, transit := d.pool.transit - n } }

theorem noticesJoin_takeSpool (d : Dev) (n : Nat) : NoticesJoin d (d.takeSpool n) :=
  .ite (fun _ => .refl d) fun _ =>
    noticesJoin_pauseTest { d with pool := { d.pool with free := d.pool.free - n, spool := d.pool.spool + n } }

/-- A frame with blocks joins the uplink queue, ahead of any notice that its grant raises (R97). -/
theorem Dev.queueUp_queue (d : Dev) (f : UpFrame) : d.up.queue ++ [f] <+: (d.queueUp f).up.queue :=
  ((noticesJoin_takeTransit (d.modUp fun u => { u with queue := u.queue ++ [f] }) f.blocks.length).trans
    (noticesJoin_startTx _)).grows

theorem Dev.queueUp_pool (d : Dev) (f : UpFrame) : (d.queueUp f).pool =
    { d.pool with free := d.pool.free - f.blocks.length, transit := d.pool.transit + f.blocks.length } := by
  have granted := Dev.takeTransit_pool (d.modUp fun u => { u with queue := u.queue ++ [f] }) f.blocks.length
  exact (touches_startTx _ .pool (by decide)).symm.trans granted

end Sys2Proof.Machine
end

