-- ==== Sys2Proof/Proofs/CoaxRelay.lean ====
section
/-! A POLL answered with DATA: the repeat, the relay to a terminal, the carrier DATA to a host and the print unit. -/

namespace Sys2Proof.Machine

open Sys2Proof

-- one proof after another: proofs that wait for each other take a thread each
set_option Elab.async false

variable {c d e : Dev} {g k : Seg} {s : State} {l : List Piece} {i n m : Nat} {p : Printer} {x : Exchange} {a b : Station}
  {f : TrunkFrame} {payload : List Byte} {mk : Mark}

/-! ### Takings -/

theorem Dev.takeCoax_relay (few : (d.seg k).downq.length < 31) (room : transitNeed payload.length + d.set.coaxFloor ≤ d.pool.free) :
    d.takeCoax (.relay k n m) mk payload = (d.queueDown k n m mk payload, .taken) := by
  have notFull : d.downFull k = false := decide_eq_false (Nat.not_le.mpr few)
  have fits : d.coaxTransitOk (transitNeed payload.length) = true := decide_eq_true room
  rw [Dev.takeCoax, notFull, fits]
  rfl

theorem Dev.takeCoax_carrier (q r : Addr) (mk : Mark) (payload : List Byte) :
    (d.up.link = true → d.up.queue.length < 63 ∧ transitNeed payload.length + d.set.coaxFloor ≤ d.pool.free →
      d.takeCoax (.carrier q r) mk payload = (d.queueUp (d.carrierData q r mk payload), .taken)) ∧
    (d.up.link = true → ¬ (d.up.queue.length < 63 ∧ transitNeed payload.length + d.set.coaxFloor ≤ d.pool.free) →
      d.takeCoax (.carrier q r) mk payload = (d, .busy)) ∧
    (d.up.link = false → d.takeCoax (.carrier q r) mk payload = (d, .discarded .linkDown)) := by
  have full : d.upFull = true ↔ ¬ d.up.queue.length < 63 := 
    decide_eq_true_iff.trans Nat.not_lt.symm
  have fits : d.coaxTransitOk (transitNeed payload.length) = true ↔
    transitNeed payload.length + d.set.coaxFloor ≤ d.pool.free := decide_eq_true_iff
  unfold Dev.takeCoax
  refine ⟨fun link room => ?_, fun link short => ?_, fun link => ?_⟩
  · rw [link]
    exact (if_neg (mt full.mp (not_not.mpr room.1))).trans (if_pos (fits.mpr room.2))
  · rw [link]
    show (if d.upFull = true then _ else _) = _
    split
    · rfl
    · rename_i notFull
      exact if_neg fun ok => short ⟨not_not.mp (mt full.mpr notFull), fits.mp ok⟩
  · rw [link]
    rfl

/-! ### The reply -/

/-- REPLY_RECEIVED of a POLL's GOOD reply is the end of its exchange. -/
theorem Dev.polled_ends {reply : Reply} (turn : (d.seg g).sched.turn = some ⟨.poll n, .exchange x⟩)
    (heard : d.replyHeard g x reply.cells reply.cells = true) (good : classify .poll x.number reply = .good) :
    d.replyReceived g reply = d.endExchange g (.poll n) x .good (parseTrunk reply.bytes) := by
  have ran := Dev.replyReceived_of turn heard
  rw [show classify (expectOf (.poll n) x) x.number reply = .good from good] at ran
  exact ran

/-- A POLL answered with the DATA its station sent last (R19). -/
theorem Dev.endExchange_repeat (calm : CalmLine (d.seg g)) (eid : x.eid = some a.eid) (found : d.stationById a.eid = some a)
    (present : a.state = .present) (role : a.role = .terminal) (kind : f.kind = kData)
    (repeated : a.lastSeq = some (f.control.getLsbD 0)) :
    (d.endExchange g (.poll a.eid) x .good f).stationById a.eid = some { a with
      pendingAck := .ack, misses := 0, jabStrikes := 0, lastHeard := some d.uptime } ∧
    Touches ([.sched, .mon, .txEnable, .stations, .backoffs] ++ Piece.counted) d (d.endExchange g (.poll a.eid) x .good f) := by
  have closed := touches_concluded d g .good
  have known := (Dev.stationById_congr (closed .stations (by decide)).symm a.eid).trans found
  have taken := Dev.takeData_repeat (d := d.concluded g .good) (g := g) present repeated
  have acked := (Dev.modStation_byId known (f := fun e => { e with pendingAck := .ack }) fun _ => rfl).1
  have dropped := touches_dropSeg ((d.concluded g .good).modStation a.eid fun e => { e with pendingAck := .ack }) g .duplicate
  have there : ((d.concluded g .good).takeData g a f).stationById a.eid = some { a with pendingAck := .ack } := by
    rw [taken]
    exact (Dev.stationById_congr (dropped .stations (by decide)).symm _).trans acked
  obtain ⟨entry, framed⟩ := Dev.endExchange_data calm eid found role kind there present
  rw [taken] at framed
  exact ⟨entry, Touches.then closed (Touches.then (n := [.mon, .txEnable, .stations, .backoffs] ++ Piece.counted)
    (touches_modStation _ _ _) (Touches.then (n := [.mon, .txEnable, .stations, .backoffs] ++ Piece.counted) dropped framed))⟩

/-! ### Forwarding from the part that has counted the DATA -/

theorem Dev.forwardCoax_relay (t : Touches (.sched :: Piece.counted) d e) (inside : m ≠ 0 ∧ m ≠ 255)
    (stands : d.station g m = some b) (present : b.state = .present ∨ b.state = .slow) (role : b.role = .terminal)
    (service : d.inService g = true) (few : (d.seg g).downq.length < 31)
    (room : transitNeed payload.length + d.set.coaxFloor ≤ d.pool.free) (n : Nat) (mk : Mark) :
    e.forwardCoax g n m mk payload = (e.queueDown g m n mk payload, .taken) := by
  have resolved : e.resolveCoax g n m = (e, .relay g m n) := by
    have there := (t.station (by decide) g m).trans stands
    rw [Dev.resolveCoax_station inside there]
    exact Dev.toStation_terminal there present role ((t.inService (by decide) g).trans service)
      (if_pos rfl : (if g = g then (e, some n) else e.fromNumber g (.station g n)) = (e, some n))
  rw [Dev.forwardCoax, resolved]
  refine Dev.takeCoax_relay ?_ ?_
  · rw [← t .downq (by decide) g]
    exact few
  · rw [← t .settings (by decide), ← t .pool (by decide)]
    exact room

theorem Dev.forwardCoax_ethernet {q : AliasEntry} {r : Addr} (inside : m ≠ 0 ∧ m ≠ 255) (free : d.station g m = none)
    (named : d.aliasAt g m = some q) (active : q.state = .active) (target : q.target = .ethernet r) (n : Nat) (mk : Mark)
    (payload : List Byte) : d.forwardCoax g n m mk payload =
      (d.useAlias g m).takeCoax (.carrier r (d.proxy g n)) mk payload := by
  rw [Dev.forwardCoax, Dev.resolveCoax_ethernet inside free named active target]

theorem Dev.forwardCoax_unit (inside : m ≠ 0 ∧ m ≠ 255) (stands : d.station g m = some b)
    (present : b.state = .present ∨ b.state = .slow) (role : b.role = .printer) (n : Nat) (mk : Mark) (payload : List Byte) :
    d.forwardCoax g n m mk payload =
      ((d.takeUnit g m (.coax g n) payload mk).1, (d.takeUnit g m (.coax g n) payload mk).2.verdict) := by
  rw [Dev.forwardCoax, Dev.resolveCoax_station inside stands, Dev.toStation_printer stands present role]
  rfl

/-! ### The four cases -/

/-- New DATA for a TERMINAL station of the same segment (R67, R68, R89). -/
theorem Dev.endExchange_relay (calm : CalmLine (d.seg g)) (eid : x.eid = some a.eid) (found : d.stationById a.eid = some a)
    (present : a.state = .present) (role : a.role = .terminal) (kind : f.kind = kData)
    (new : a.lastSeq ≠ some (f.control.getLsbD 0)) (inside : f.peer ≠ 0 ∧ f.peer ≠ 255) (stands : d.station g f.peer = some b)
    (reached : b.state = .present ∨ b.state = .slow) (terminal : b.role = .terminal) (unnamed : d.printerAt g f.peer = none)
    (few : (d.seg g).downq.length < 31) (room : transitNeed f.payload.length + d.set.coaxFloor ≤ d.pool.free) :
    ((d.endExchange g (.poll a.eid) x .good f).seg g).downq =
      (d.seg g).downq ++ [d.downFrame f.peer a.number (frameMark f) f.payload] ∧
    (d.endExchange g (.poll a.eid) x .good f).pool.free = d.pool.free - transitNeed f.payload.length ∧
    (d.endExchange g (.poll a.eid) x .good f).stationById a.eid = some { a with
      pendingAck := .ack, lastSeq := some (f.control.getLsbD 0), misses := 0, jabStrikes := 0
      lastHeard := some d.uptime } ∧
    (∀ h, h ≠ g → ((d.endExchange g (.poll a.eid) x .good f).seg h).downq = (d.seg h).downq) ∧
    Touches ([.sched, .mon, .txEnable, .stations, .backoffs, .downq, .names, .pool, .pauseState] ++ Piece.counted) d
      (d.endExchange g (.poll a.eid) x .good f) := by
  have counted := touches_dataCounted d g
  have service : d.inService g = true := by
    rw [Dev.inService, calm.1]
    rfl
  have forwarded := Dev.forwardCoax_relay counted inside stands reached terminal service few room a.number (frameMark f)
  have told := Dev.endExchange_told calm eid found present role kind new forwarded
  have after := told.plain (by simp)
  obtain ⟨queue, pool, others, framed⟩ :=
    Dev.queueDown_facts ((counted.printerAt (by decide) g f.peer).trans unnamed) a.number (frameMark f) f.payload
  have same : (d.dataCounted g).downFrame f.peer a.number (frameMark f) f.payload =
      d.downFrame f.peer a.number (frameMark f) f.payload := by
    rw [Dev.downFrame, ← counted .clock (by decide), ← (counted .names (by decide)).2, Dev.downFrame]
  refine ⟨?_, ?_, told.acked (by simp), fun h hh => ?_, Touches.then counted
    (Touches.then (n := [.mon, .txEnable, .stations, .backoffs, .downq, .names, .pool, .pauseState] ++ Piece.counted)
      framed after)⟩
  · rw [← after .downq (by decide) g, queue, same, ← counted .downq (by decide) g]
  · rw [← after .pool (by decide), pool, ← counted .pool (by decide)]
  · rw [← after .downq (by decide) h, others h hh, ← counted .downq (by decide) h]

/-- New DATA to an ACTIVE entry of the alias table that names an Ethernet address (R67, R89, R97, R101). -/
theorem Dev.endExchange_carrier {q : AliasEntry} {r : Addr} (calm : CalmLine (d.seg g)) (eid : x.eid = some a.eid)
    (found : d.stationById a.eid = some a) (present : a.state = .present) (role : a.role = .terminal) (kind : f.kind = kData)
    (new : a.lastSeq ≠ some (f.control.getLsbD 0)) (inside : f.peer ≠ 0 ∧ f.peer ≠ 255) (free : d.station g f.peer = none)
    (named : d.aliasAt g f.peer = some q) (active : q.state = .active) (target : q.target = .ethernet r)
    (good : (d.ev.counter (.seg g .good)).value ≠ 32767) (frames : (d.ev.counter (.seg g .framesIn)).value ≠ 32767) :
    let need := transitNeed f.payload.length
    let room := d.up.queue.length < 63 ∧ need + d.set.coaxFloor ≤ d.pool.free
    let t := d.endExchange g (.poll a.eid) x .good f
    let acked := t.stationById a.eid = some { a with
      pendingAck := .ack, lastSeq := some (f.control.getLsbD 0), misses := 0, jabStrikes := 0
      lastHeard := some d.uptime }
    t.aliases = (d.useAlias g f.peer).aliases ∧
    (d.up.link = true → room → acked ∧
      d.up.queue ++ [d.carrierData r (d.proxy g a.number) (frameMark f) f.payload] <+: t.up.queue ∧
      t.pool.free = d.pool.free - need ∧ t.pool.transit = d.pool.transit + need) ∧
    (d.up.link = true → ¬ room → t.pool = d.pool ∧ t.stationById a.eid = some { a with
      pendingAck := .busy, misses := 0, jabStrikes := 0, lastHeard := some d.uptime }) ∧
    (d.up.link = false → acked ∧ t.pool = d.pool ∧ (CountersOk d →
      (t.ev.counter (.seg g (.drop .linkDown))).value = min ((d.ev.counter (.seg g (.drop .linkDown))).value + 1) 65535)) ∧
    Touches ([.sched, .mon, .txEnable, .stations, .backoffs, .aliases, .pool, .pauseState] ++ Piece.counted) d t := by
  intro need room t acked
  have quiet := Dev.dataCounted_quiet good frames
  have used := touches_useAlias (d.dataCounted g) g f.peer
  have ready : Touches [.sched, .segCounters, .aliases] d ((d.dataCounted g).useAlias g f.peer) := Touches.then quiet used
  have aliases : ((d.dataCounted g).useAlias g f.peer).aliases = (d.useAlias g f.peer).aliases := by
    rw [Dev.useAlias, Dev.modAlias, ← quiet .aliases (by decide), ← quiet .uptime (by decide), Dev.useAlias, Dev.modAlias]
  have proxy : (d.dataCounted g).proxy g a.number = d.proxy g a.number := by
    rw [Dev.proxy, ← quiet .settings (by decide), Dev.proxy]
  have forwarded := Dev.forwardCoax_ethernet inside ((quiet.station (by decide) g f.peer).trans free)
    ((quiet.aliasAt (by decide) g f.peer).trans named) active target a.number (frameMark f) f.payload
  rw [proxy] at forwarded
  have told := fun {e : Dev} {v : Verdict} => Dev.endExchange_told (e := e) (v := v) calm eid found present role kind new
  have counter : ((d.dataCounted g).useAlias g f.peer).ev.counter (.seg g (.drop .linkDown)) =
      d.ev.counter (.seg g (.drop .linkDown)) := (used.segCounter (by decide) g _).trans (d.dataCounted_counter g _)
  have whole : CountersOk d → CountersOk ((d.dataCounted g).useAlias g f.peer) := fun ok => ok.dataCounted g
  generalize (d.dataCounted g).useAlias g f.peer = u at *
  obtain ⟨placed, short, down⟩ := Dev.takeCoax_carrier (d := u) r (d.proxy g a.number) (frameMark f) f.payload
  rw [← (ready .link (by decide)).1, ← ready .upQueue (by decide), ← ready .settings (by decide),
    ← ready .pool (by decide)] at placed short
  rw [← (ready .link (by decide)).1] at down
  have frame : u.carrierData r (d.proxy g a.number) (frameMark f) f.payload =
      d.carrierData r (d.proxy g a.number) (frameMark f) f.payload := by
    rw [Dev.carrierData, ← ready .settings (by decide), Dev.carrierData]
  rw [frame] at placed
  have all : ∀ {v : Verdict} {e : Dev}, Touches Piece.pooling u e → DataTold d a g f e v t →
      t.aliases = (d.useAlias g f.peer).aliases ∧ Touches ([.sched, .mon, .txEnable, .stations, .backoffs, .aliases, .pool,
        .pauseState] ++ Piece.counted) d t := fun taken told =>
    ⟨(told.framed .aliases (by decide)).symm.trans ((taken .aliases (by decide)).symm.trans aliases),
      Touches.then ready (Touches.then (n := [.mon, .txEnable, .stations, .backoffs, .pool, .pauseState] ++ Piece.counted)
        taken told.framed)⟩
  cases link : d.up.link with
  | false =>
    have told := told (forwarded.trans (down link))
    obtain ⟨kept, framed⟩ := all (.refl _ _) told
    refine ⟨kept, fun no => absurd no (by decide), fun no => absurd no (by decide), fun _ =>
      ⟨told.acked (by simp), (told.framed .pool (by decide)).symm.trans (ready .pool (by decide)).symm, fun ok => ?_⟩, framed⟩
    rw [told.dropped _ rfl (whole ok), counter]
  | true =>
    by_cases fits : room
    · have told := told (forwarded.trans (placed link fits))
      have after := told.plain (by simp)
      obtain ⟨kept, framed⟩ := all (touches_queueUp _ _) told
      have joined := Dev.queueUp_queue u (d.carrierData r (d.proxy g a.number) (frameMark f) f.payload)
      have pool := Dev.queueUp_pool u (d.carrierData r (d.proxy g a.number) (frameMark f) f.payload)
      rw [after .upQueue (by decide), ← ready .upQueue (by decide)] at joined
      rw [after .pool (by decide), ← ready .pool (by decide)] at pool
      have blocks : (d.carrierData r (d.proxy g a.number) (frameMark f) f.payload).blocks.length = need :=
        length_transitBlocks _
      rw [blocks] at pool
      exact ⟨kept, fun _ _ => ⟨told.acked (by simp), joined, congrArg Pool.free pool, congrArg Pool.transit pool⟩,
        fun _ no => absurd fits no, fun no => absurd no (by decide), framed⟩
    · have told := told (forwarded.trans (short link fits))
      obtain ⟨kept, framed⟩ := all (.refl _ _) told
      exact ⟨kept, fun _ yes => absurd yes fits, fun _ _ =>
        ⟨(told.framed .pool (by decide)).symm.trans (ready .pool (by decide)).symm, told.busy rfl⟩,
        fun no => absurd no (by decide), framed⟩

/-- New DATA for a printer's station is a print unit, and the Spooler's answer is its verdict (R67, R89, R150). -/
theorem Dev.endExchange_unit (calm : CalmLine (d.seg g)) (eid : x.eid = some a.eid) (found : d.stationById a.eid = some a)
    (present : a.state = .present) (role : a.role = .terminal) (kind : f.kind = kData)
    (new : a.lastSeq ≠ some (f.control.getLsbD 0)) (inside : f.peer ≠ 0 ∧ f.peer ≠ 255) (stands : d.station g f.peer = some b)
    (reached : b.state = .present ∨ b.state = .slow) (printing : b.role = .printer) (place : d.printerAt g f.peer = some i)
    (printer : d.printer i = some p) (busy : NoneIdle d) (more : frameMark f = .more) :
    ∃ v e, UnitDecided d i p (.coax g a.number) f.payload (d.endExchange g (.poll a.eid) x .good f, v) ∧
      DataTold d a g f e v.verdict (d.endExchange g (.poll a.eid) x .good f) ∧
      (CountersOk d → CountersOk e) ∧
      e.ev.counter (.seg g (.drop .printRefused)) = d.ev.counter (.seg g (.drop .printRefused)) ∧
      Touches ([.sched, .mon, .txEnable, .stations, .backoffs, .jobs, .jobNames, .printers, .pool, .pauseState,
        .spoolCounters] ++ Piece.counted) d (d.endExchange g (.poll a.eid) x .good f) := by
  have counted := touches_dataCounted d g
  have forwarded := Dev.forwardCoax_unit (d := d.dataCounted g) inside ((counted.station (by decide) g f.peer).trans stands)
    reached printing a.number (frameMark f) f.payload
  have told := Dev.endExchange_told calm eid found present role kind new forwarded
  have here := (counted.printerAt (by decide) g f.peer).trans place
  have entry := (counted.printer (by decide) i).trans printer
  have still := noneIdle_congr (counted .printers (by decide)).symm busy
  have decided := Dev.takeUnit_decides here entry still (.coax g a.number) f.payload
  have framed := Dev.touches_unit here entry still (.coax g a.number) f.payload
  have counter := framed.segCounter (by decide) g (.drop .printRefused)
  have whole : CountersOk d → CountersOk ((d.dataCounted g).takeUnit g f.peer (.coax g a.number) f.payload .more).1 :=
    fun ok => ((ok.dataCounted g).sound.takeUnit g f.peer (.coax g a.number) f.payload .more).countersOk
  rw [more] at told
  exact ⟨_, _, decided.carry counted told.framed.sameSpool, told, whole, counter.trans (d.dataCounted_counter g _),
    Touches.then counted (Touches.then (n := [.sched, .mon, .txEnable, .stations, .backoffs, .jobs, .jobNames, .printers,
      .pool, .pauseState, .spoolCounters] ++ Piece.counted) framed told.framed)⟩

/-- Settles O27: the exchange is counted, the DATA is resolved and taken, and its verdict stands in the sender's entry
after the directory and the Line Monitor have acted. -/
theorem dataIsRelayedOnce : Obligations.DataIsRelayedOnce := by
  refine ⟨fun g reply dt s x a turn eid found present role heard good kind repeated calm => ?_, ?_, ?_, ?_⟩
  · have ran := Dev.polled_ends (d := s.dev.elapse dt) turn heard good
    obtain ⟨entry, framed⟩ := Dev.endExchange_repeat (d := s.dev.elapse dt) calm eid found present role kind repeated
    exact ⟨_, next_congr s ran, rfl, entry, Touches.then (touches_elapse s.dev dt) framed⟩
  · intro g reply dt s x a b f turn eid found present role heard good kind new low high stands reached terminal unnamed few
      room calm
    have ran := Dev.polled_ends (d := s.dev.elapse dt) turn heard good
    obtain ⟨queue, free, entry, others, framed⟩ := Dev.endExchange_relay (d := s.dev.elapse dt) calm eid found present role
      kind new ⟨low, high⟩ stands reached terminal unnamed few room
    exact ⟨_, next_congr s ran, rfl, queue, free, entry, others, Touches.then (touches_elapse s.dev dt) framed⟩
  · intro g reply dt s x a q r f turn eid found present role heard good kind new low high free named active target calm
      exchanges frames need room acked
    have ran := Dev.polled_ends (d := s.dev.elapse dt) turn heard good
    obtain ⟨used, placed, short, down, framed⟩ := Dev.endExchange_carrier (d := s.dev.elapse dt) calm eid found present role
      kind new ⟨low, high⟩ free named active target exchanges frames
    exact ⟨_, next_congr s ran, rfl, used, placed, short, down, Touches.then (touches_elapse s.dev dt) framed⟩
  · intro g reply dt s x a b i p f turn eid found present role heard good kind new low high stands reached printing place
      printer none more calm src room acked busy
    have ran := Dev.polled_ends (d := s.dev.elapse dt) turn heard good
    obtain ⟨v, e, decided, told, whole, counter, framed⟩ := Dev.endExchange_unit (d := s.dev.elapse dt) calm eid found present
      role kind new ⟨low, high⟩ stands reached printing place printer none more
    have decided := decided.carry (touches_elapse s.dev dt) (SameSpool.self _)
    refine ⟨_, next_congr s ran, rfl, fun j opened here => ⟨fun fits => ?_, fun fits => ?_⟩, fun closed =>
      ⟨fun barred => ?_, fun takes => ⟨fun refused => ?_, fun below few fits => ?_⟩⟩,
      Touches.then (touches_elapse s.dev dt) framed⟩
    · obtain ⟨rfl, joins⟩ := (decided.opened j opened here).1 fits
      exact ⟨told.acked (by simp [UnitAnswer.verdict]), joins⟩
    · obtain ⟨rfl, kept⟩ := (decided.opened j opened here).2 fits
      exact ⟨told.busy rfl, kept⟩
    · obtain ⟨rfl, kept⟩ := decided.barred closed barred
      refine ⟨told.acked (by simp [UnitAnswer.verdict]), kept, fun ok => ?_⟩
      have dropped := told.dropped _ rfl (whole ok)
      rw [counter] at dropped
      exact dropped
    · by_cases below : s.dev.jobCount i < p.jobLimit
      · by_cases few : s.dev.spool.jobs.length < 32
        · have fits : room = false := (refused.resolve_left (Nat.not_le.mpr below)).resolve_left (Nat.not_le.mpr few)
          obtain ⟨rfl, kept⟩ := decided.short closed takes below few fits
          exact ⟨told.busy rfl, kept⟩
        · obtain ⟨rfl, kept⟩ := decided.crowded closed takes below (Nat.not_lt.mp few)
          exact ⟨told.busy rfl, kept⟩
      · obtain ⟨rfl, kept⟩ := decided.limited closed takes (Nat.not_lt.mp below)
        exact ⟨told.busy rfl, kept⟩
    · obtain ⟨rfl, opens⟩ := decided.opens closed takes below few fits
      exact ⟨told.acked (by simp [UnitAnswer.verdict]), opens⟩

end Sys2Proof.Machine
end

