-- ==== Sys2Proof/Proofs/CarrierRelay.lean ====
section
/-! A carrier DATA from the uplink: its destination station, the number that stands for its source, and its taking by a
queue or by the Spooler (R70, R72, R73, R91, R98). -/

namespace Sys2Proof.Machine

open Sys2Proof

-- one proof after another: proofs that wait for each other take a thread each
set_option Elab.async false

variable {c d e : Dev} {g k : Seg} {s : State} {l : List Piece} {i n m : Nat} {p : Printer} {a b : Station}
  {payload : List Byte} {mk : Mark} {j : Job} {y : Source}

/-! ### The destination -/

theorem segOf_segNat (g : Seg) : segOf (segNat g) = some g := by cases g <;> rfl

theorem segNat_lt (g : Seg) : segNat g < 4 := by cases g <;> decide

/-- A carrier DATA to the proxy address of a station is resolved at that station (R70). -/
theorem Dev.resolveCarrier_station {q r : Addr} (own : individual q = true) (outside : inProxyRange d.set.base q = false)
    (notAll : r ≠ broadcastAddr) (place : r.toNat = d.set.base.toNat + 256 * segNat g + n) (low : 1 ≤ n) (high : n ≤ 254) :
    d.resolveCarrier q r = ((d.toStation g n (.ethernet q)).1, some (d.toStation g n (.ethernet q)).2) := by
  have offset : r.toNat - d.set.base.toNat = 256 * segNat g + n := by omega
  have number : (256 * segNat g + n) % 256 = n := by omega
  have segment : segOf ((256 * segNat g + n) / 256) = some g := by
    rw [show (256 * segNat g + n) / 256 = segNat g by omega]
    exact segOf_segNat g
  unfold Dev.resolveCarrier
  rw [own, outside, offset]
  dsimp only
  rw [number, segment]
  exact (if_neg (by decide)).trans ((if_neg notAll).trans (if_neg (by omega)))

/-- A carrier DATA resolved at a station, and taken by its result (R70, R91). -/
def Dev.carrierTo (d : Dev) (g : Seg) (n : Nat) (q r : Addr) (x : CarrierData) : Dev :=
  (d.toStation g n (.ethernet q)).1.takeEther q r x (d.toStation g n (.ethernet q)).2

/-- A sound carrier DATA for a station is resolved there and taken by its result (R70, R91, R99, R100). -/
theorem execCarrier_eq {bs : List Byte} {q : CarrierData} (dt : Nat) (sound : CarrierFor s bs g n q) :
    exec (.uplinkFrameReceived bs dt) s = .next { s with
      dev := ((s.dev.elapse dt).countUp .framesIn).carrierTo g n (rxSrc bs) (rxDst bs) q } := by
  obtain ⟨link, enabled, least, most, crc, place, low, high, type, notMgmt, notPause, own, outside, notAll, parsed⟩ := sound
  have set : ((s.dev.elapse dt).countUp .framesIn).set = s.dev.set :=
    (touches_countUp (s.dev.elapse dt) .framesIn .settings (by decide)).symm
  have inside : inProxyRange (s.dev.elapse dt).set.base (rxDst bs) = true := by
    have := segNat_lt g
    have same : (s.dev.elapse dt).set = s.dev.set := rfl
    rw [same, inProxyRange, Bool.and_eq_true, decide_eq_true_eq, decide_eq_true_eq]
    omega
  have carrier : (s.dev.elapse dt).receive bs = ((s.dev.elapse dt).countUp .framesIn).carrierIn (rxSrc bs) (rxDst bs) (rxBody bs) := by
    rw [Dev.receive_sound least most crc]
    refine (if_neg fun h => notMgmt (type.symm.trans h.2)).trans ((if_neg fun h => notPause (type.symm.trans h.2.1)).trans
      (if_pos ⟨inside, type⟩))
  rw [execUplinkFrameReceived_eq bs dt link enabled, carrier, Dev.carrierIn, parsed]
  dsimp only
  rw [Dev.resolveCarrier_station own (set ▸ outside) notAll (set ▸ place) low high]
  rfl

/-! ### The number of the source -/

theorem Touches.aliasFor (t : Touches l d e) (apart : Piece.aliases ∉ l := by decide) (g : Seg) (x : Target) :
    e.aliasFor g x = d.aliasFor g x := by
  rw [Dev.aliasFor, ← t .aliases apart, Dev.aliasFor]

theorem Dev.useAlias_congr (aliases : e.aliases = d.aliases) (now : e.uptime = d.uptime) (g : Seg) (n : Nat) :
    (e.useAlias g n).aliases = (d.useAlias g n).aliases := by
  rw [Dev.useAlias, Dev.modAlias, aliases, now, Dev.useAlias, Dev.modAlias]

/-- The lowest number of the range that nothing holds (R73). -/
theorem Dev.freeNumber_lowest (low : (d.seg g).cfg.aliasLow ≤ m) (high : m ≤ (d.seg g).cfg.aliasHigh) (most : m ≤ 254)
    (noStation : d.station g m = none) (noAlias : d.aliasAt g m = none)
    (held : ∀ k, (d.seg g).cfg.aliasLow ≤ k → k < m → (d.station g k).isSome = true ∨ (d.aliasAt g k).isSome = true) :
    d.freeNumber g = some m := by
  rw [Dev.freeNumber, List.find?_filter, List.find?_range_eq_some]
  refine ⟨?_, List.mem_range.mpr (by omega), fun k below => ?_⟩
  · simp [low, high, Dev.numberHeld, noStation, noAlias]
  · by_cases from_ : (d.seg g).cfg.aliasLow ≤ k
    · have taken : d.numberHeld g k = true := by
        rw [Dev.numberHeld, Bool.or_eq_true]
        exact held k from_ below
      simp [taken]
    · simp [from_]

theorem Dev.freeNumber_congr (t : Touches l d e) (apart : ([Piece.cfg, .stations, .aliases].any fun p => l.contains p) = false
    := by rfl) : e.freeNumber g = d.freeNumber g := by
  have same : ∀ p ∈ [Piece.cfg, .stations, .aliases], p.same d e := fun p hp => t p fun hl =>
    Bool.eq_false_iff.mp apart (List.any_eq_true.mpr ⟨p, hp, List.contains_iff_mem.mpr hl⟩)
  have held : e.numberHeld g = d.numberHeld g := by
    funext n
    rw [Dev.numberHeld, Dev.station, ← same .stations (by decide), Dev.aliasAt, ← same .aliases (by decide), Dev.numberHeld,
      Dev.station, Dev.aliasAt]
  rw [Dev.freeNumber, ← same .cfg (by decide) g, held, Dev.freeNumber]

theorem Dev.fromNumber_new {x : Target} (unknown : d.aliasFor g x = none) (free : d.freeNumber g = some m)
    (room : d.aliases.length < 128) : d.fromNumber g x = (d.newDynamic g m x, some m) := by
  rw [Dev.fromNumber, unknown]
  dsimp only
  rw [Dev.allocate, free]
  exact if_pos room

/-! ### A relay to a terminal -/

theorem Dev.takeEther_relay {q r : Addr} {x : CarrierData} (few : (d.seg k).downq.length < 31)
    (room : transitNeed x.payload.length ≤ d.pool.free) :
    d.takeEther q r x (.relay k n m) = d.queueDown k n m x.mark x.payload := by
  have notFull : d.downFull k = false := decide_eq_false (Nat.not_le.mpr few)
  have fits : d.etherTransitOk (transitNeed x.payload.length) = true := decide_eq_true room
  rw [Dev.takeEther, notFull, fits]
  rfl

/-- From a part that has counted the frame: the number of its source settled, the frame joins the station's queue. -/
theorem Dev.carrierTo_terminal {q r : Addr} {x : CarrierData} (t : Touches (.clock :: Piece.raised) c d)
    (stands : c.station g n = some b) (present : b.state = .present ∨ b.state = .slow) (role : b.role = .terminal)
    (service : c.inService g = true) (settled : d.settleFrom g (.ethernet q) = (e, some m)) (moved : Touches [.aliases] d e)
    (unnamed : c.printerAt g n = none) (few : (c.seg g).downq.length < 31) (room : transitNeed x.payload.length ≤ c.pool.free) :
    ((d.carrierTo g n q r x).seg g).downq =
      (c.seg g).downq ++ [{ c.downFrame n m x.mark x.payload with enqueued := d.clock }] ∧
    (d.carrierTo g n q r x).pool.free =
      c.pool.free - transitNeed x.payload.length ∧
    (d.carrierTo g n q r x).aliases = e.aliases ∧
    OneSeg g c (d.carrierTo g n q r x) ∧
    Touches ([.clock, .downq, .names, .aliases, .pool, .pauseState] ++ Piece.raised) c
      (d.carrierTo g n q r x) := by
  have ready : Touches ([.clock, .aliases] ++ Piece.raised) c e := Touches.then t moved
  rw [Dev.carrierTo, Dev.toStation_terminal ((t.station (by decide) g n).trans stands) present role
    ((t.inService (by decide) g).trans service) settled]
  dsimp only
  rw [Dev.takeEther_relay (ready .downq (by decide) g ▸ few) (ready .pool (by decide) ▸ room)]
  obtain ⟨queue, pool, others, framed⟩ :=
    Dev.queueDown_facts ((ready.printerAt (by decide) g n).trans unnamed) m x.mark x.payload
  have same : e.downFrame n m x.mark x.payload = { c.downFrame n m x.mark x.payload with enqueued := d.clock } := by
    rw [Dev.downFrame, ← (ready .names (by decide)).2, ← moved .clock (by decide), Dev.downFrame]
  refine ⟨?_, ?_, (framed .aliases (by decide)).symm, fun h hh => ?_, Touches.then ready framed⟩
  · rw [queue, same, ← ready .downq (by decide) g]
  · rw [pool, ← ready .pool (by decide)]
  · rw [others h hh]
    exact ready.seg_eq rfl h

end Sys2Proof.Machine
end

