-- ==== Sys2Proof/Proofs/CarrierTaken.lean ====
section
/-! Carrier DATA for a printer's station, with its SPOOL_ACK ahead of what the unit offers, and the cases of R91 together. -/

namespace Sys2Proof.Machine

open Sys2Proof

-- one proof after another: proofs that wait for each other take a thread each
set_option Elab.async false

variable {c d e : Dev} {g k : Seg} {s : State} {l : List Piece} {i n m : Nat} {p : Printer} {a b : Station}
  {payload : List Byte} {j : Job} {y : Source}

/-! ### Selection and the uplink queue -/

theorem NoticesJoin.fold {α : Type} {f : Dev → α → Dev} (step : ∀ d a, NoticesJoin d (f d a)) (as : List α) :
    ∀ d, NoticesJoin d (as.foldl f d) := by
  induction as with
  | nil => exact NoticesJoin.refl
  | cons a as ih => exact fun d => (step d a).trans (ih _)

theorem noticesJoin_makeLost (d : Dev) (i : Nat) : NoticesJoin d (d.makeLost i) := by
  unfold Dev.makeLost
  split
  · refine .ite (fun _ => .refl d) fun _ => NoticesJoin.trans ?_ (noticesJoin_raise _ _ _)
    exact (touches_endHeldFeed d _ i).noticesJoin.trans (touches_modPrinter _ _ _).noticesJoin
  · exact .refl d

theorem noticesJoin_enterFeeding (d : Dev) (i : Nat) : NoticesJoin d (d.enterFeeding i) :=
  (touches_modPrinter d i _).noticesJoin.trans (touches_offerItem _ i).noticesJoin

theorem noticesJoin_handOver (d : Dev) (i : Nat) (j : Job) : NoticesJoin d (d.handOver i j) := by
  unfold Dev.handOver
  extract_lets +onlyGivenNames d1 d2
  have stamped : NoticesJoin d d1 := .ite (fun _ => (touches_takeStamp d j.serial).noticesJoin) fun _ => .refl d
  have active : NoticesJoin d d2 := stamped.trans (touches_modJob _ _ _).noticesJoin
  split
  · exact .ite (fun _ => active.trans (noticesJoin_enterFeeding _ _)) fun _ => active.trans (noticesJoin_makeLost _ _)
  · exact active

theorem noticesJoin_select (d : Dev) (i : Nat) : NoticesJoin d (d.select i) := by
  unfold Dev.select
  split
  · refine .ite (fun _ => ?_) fun _ => .refl d
    split
    · exact noticesJoin_handOver _ _ _
    · exact .refl d
  · exact .refl d

theorem noticesJoin_selectAll (d : Dev) : NoticesJoin d d.selectAll := .fold noticesJoin_select _ d

/-! ### A unit and the uplink queue -/

theorem noticesJoin_closeJob (d : Dev) (n : Nat) : NoticesJoin d (d.closeJob n) := by
  unfold Dev.closeJob
  split
  · split
    · exact ((touches_takeStamp d n).noticesJoin.trans (touches_modJob _ _ _).noticesJoin).trans (noticesJoin_select _ _)
    · exact (touches_modJob d n _).noticesJoin.trans (touches_offerItem _ _).noticesJoin
    · exact (touches_modJob _ _ _).noticesJoin
  · exact .refl d

theorem NoticesJoin.fst_ite {α : Type} {b : Prop} [Decidable b] {x y : Dev × α} (h : NoticesJoin d x.1)
    (k : NoticesJoin d y.1) : NoticesJoin d (if b then x else y).1 := by
  split
  · exact h
  · exact k

theorem noticesJoin_appendUnit (d : Dev) (j : Job) (payload : List Byte) (mk : Mark) :
    NoticesJoin d (d.appendUnit j payload mk).1 := by
  unfold Dev.appendUnit
  extract_lets +onlyGivenNames d1 blocks d2 d3
  have seen : NoticesJoin d d1 := (touches_modJob _ _ _).noticesJoin
  have joined : NoticesJoin d d2 := seen.trans (touches_modJob _ _ _).noticesJoin
  have offered : NoticesJoin d ((d2.takeSpool blocks.length).offerItem j.printer) :=
    (joined.trans (noticesJoin_takeSpool _ _)).trans (touches_offerItem _ _).noticesJoin
  have selected : NoticesJoin d d3 := offered.trans (noticesJoin_selectAll _)
  have ended : NoticesJoin d (if mk = .last then d3.closeJob j.serial else d3) :=
    .ite (fun _ => selected.trans (noticesJoin_closeJob _ _)) fun _ => selected
  exact .fst_ite ended seen

theorem noticesJoin_createJob (d : Dev) (i : Nat) (y : Source) (payload : List Byte) (mk : Mark) :
    NoticesJoin d (d.createJob i y payload mk).1 := by
  unfold Dev.createJob
  split
  · exact .refl d
  · extract_lets +onlyGivenNames blocks id serial job d1 d2
    have named : NoticesJoin d d1 := noticesJoin_of_same rfl
    have granted : NoticesJoin d d2 := named.trans (noticesJoin_takeSpool _ _)
    have closed : NoticesJoin d (if mk = .last then d2.closeJob serial else d2) :=
      .ite (fun _ => granted.trans (noticesJoin_closeJob _ _)) fun _ => granted
    have selected := closed.trans (noticesJoin_selectAll _)
    refine .fst_ite (.refl d) (.fst_ite (.refl d) (.fst_ite (.refl d) (.fst_ite (.refl d) ?_)))
    dsimp only
    exact selected

/-- No unit takes a frame from the uplink queue, and none but notices join it. -/
theorem noticesJoin_takeUnit (d : Dev) (g : Seg) (n : Nat) (y : Source) (payload : List Byte) (mk : Mark) :
    NoticesJoin d (d.takeUnit g n y payload mk).1 := by
  unfold Dev.takeUnit
  extract_lets +onlyGivenNames r
  have decided : NoticesJoin d r.1 := by
    simp only [r]
    split
    · exact .refl d
    · split
      · exact noticesJoin_appendUnit _ _ _ _
      · exact noticesJoin_createJob _ _ _ _ _
  split
  all_goals exact decided.trans (noticesJoin_count _ _)

/-! ### A carrier DATA for a printer's station -/

theorem UnitDecided.answered {v w : UnitAnswer} {r : Dev} (h : UnitDecided d i p y payload (c, v))
    (k : UnitDecided d i p y payload (r, w)) : UnitDecided d i p y payload (c, w) where
  opened j opened found :=
    ⟨fun room => ⟨((k.opened j opened found).1 room).1, ((h.opened j opened found).1 room).2⟩,
      fun room => ⟨((k.opened j opened found).2 room).1, ((h.opened j opened found).2 room).2⟩⟩
  barred closed none := ⟨(k.barred closed none).1, (h.barred closed none).2⟩
  limited closed some limit := ⟨(k.limited closed some limit).1, (h.limited closed some limit).2⟩
  crowded closed some below full := ⟨(k.crowded closed some below full).1, (h.crowded closed some below full).2⟩
  short closed some below few room := ⟨(k.short closed some below few room).1, (h.short closed some below few room).2⟩
  opens closed some below few room := ⟨(k.opens closed some below few room).1, (h.opens closed some below few room).2⟩

theorem Dev.takeEther_unit {q r : Addr} {x : CarrierData} (few : d.up.queue.length < 63) (n : Nat) (y : Source) :
    d.takeEther q r x (.spool g n y) = ((d.placeUp (d.spoolAck q r x.mark x.unit
      (d.takeUnit g n y x.payload x.mark).2)).takeUnit g n y x.payload x.mark).1 :=
  if_neg (mt decide_eq_true_iff.mp (Nat.not_le.mpr few))

/-- From a part that has counted the frame: the Spooler's answer stands in the SPOOL_ACK at the queue's end as it was, and
the unit is decided behind it (R91, R98). -/
theorem Dev.carrierTo_printer {q r : Addr} {x : CarrierData} (t : Touches [.clock, .upCounters] c d)
    (stands : c.station g n = some b) (present : b.state = .present ∨ b.state = .slow) (role : b.role = .printer)
    (place : c.printerAt g n = some i) (printer : c.printer i = some p) (few : c.up.queue.length < 63) (busy : NoneIdle c)
    (more : x.mark = .more) :
    ∃ v, UnitDecided c i p (.ethernet q) x.payload (d.carrierTo g n q r x, v) ∧
      c.up.queue ++ [c.spoolAck q r .more x.unit v] <+: (d.carrierTo g n q r x).up.queue ∧
      Touches ([.clock, .jobs, .jobNames, .printers, .pool, .pauseState, .spoolCounters] ++ Piece.raised) c
        (d.carrierTo g n q r x) := by
  have here := (t.printerAt (by decide) g n).trans place
  have entry := (t.printer (by decide) i).trans printer
  have still := noneIdle_congr (t .printers (by decide)).symm busy
  obtain ⟨v, said⟩ : ∃ v, (d.takeUnit g n (.ethernet q) x.payload .more).2 = v := ⟨_, rfl⟩
  have answer := UnitDecided.carry (r := (d.takeUnit g n (.ethernet q) x.payload .more).1) (v := v)
    (by rw [← said]; exact Dev.takeUnit_decides here entry still (.ethernet q) x.payload) t (SameSpool.self _)
  have queue := t .upQueue (by decide)
  have ack : ∀ v, d.spoolAck q r .more x.unit v = c.spoolAck q r .more x.unit v := fun v => by
    rw [Dev.spoolAck, ← t .settings (by decide), Dev.spoolAck]
  rw [Dev.carrierTo, Dev.toStation_printer ((t.station (by decide) g n).trans stands) present role]
  dsimp only
  rw [Dev.takeEther_unit (queue ▸ few), more, ack, said]
  have placed := touches_placeUp d (c.spoolAck q r .more x.unit v)
  have joined := Dev.placeUp_queue d (c.spoolAck q r .more x.unit v)
  rw [← queue] at joined
  have ready := Touches.then (n := [.clock, .upCounters, .upQueue, .transmit]) t placed
  generalize d.placeUp (c.spoolAck q r .more x.unit v) = u at *
  have there := (placed.printerAt (by decide) g n).trans here
  have same := (placed.printer (by decide) i).trans entry
  have idle := noneIdle_congr (placed .printers (by decide)).symm still
  have decided := UnitDecided.carry (r := (u.takeUnit g n (.ethernet q) x.payload .more).1)
    (v := (u.takeUnit g n (.ethernet q) x.payload .more).2)
    (Dev.takeUnit_decides there same idle (.ethernet q) x.payload) ready (SameSpool.self _)
  refine ⟨v, decided.answered answer, ?_, Touches.then ready (Dev.touches_unit there same idle (.ethernet q) x.payload)⟩
  rw [← joined]
  exact (noticesJoin_takeUnit u g n _ _ _).grows

/-- The report of a received frame, short of the half mark, moves nothing else. -/
theorem Dev.countUp_quiet {q : UpCounter} (low : (d.ev.counter (.uplink q)).value ≠ 32767) :
    Touches [.upCounters] d (d.countUp q) := by
  rw [Dev.countUp, Dev.count_of_no_half (by simp [Counter.passesHalf, low])]
  exact touches_bump d (.uplink q)

/-- Settles O14: the frame is counted and resolved at its station, and a queue takes it, or the Spooler decides it behind
its SPOOL_ACK. -/
theorem carrierDataIsRelayed : Obligations.CarrierDataIsRelayed := by
  refine ⟨fun bs dt s g n b a q sound stands present role service known unnamed few room => ?_, ?_, ?_⟩
  · have counted := Touches.then (n := .clock :: Piece.raised) (touches_elapse s.dev dt)
      (touches_countUp (s.dev.elapse dt) .framesIn)
    have now : ((s.dev.elapse dt).countUp .framesIn).clock = s.dev.clock + dt :=
      (touches_countUp (s.dev.elapse dt) .framesIn .clock (by decide)).symm
    have settled : ((s.dev.elapse dt).countUp .framesIn).settleFrom g (.ethernet (rxSrc bs)) =
        (((s.dev.elapse dt).countUp .framesIn).useAlias g a.number, some a.number) := by
      show Dev.fromNumber _ g _ = _
      rw [Dev.fromNumber, (counted.aliasFor (by decide) g _).trans known]
    obtain ⟨queue, free, aliases, others, framed⟩ := Dev.carrierTo_terminal (r := rxDst bs) (x := q) counted stands present
      role service settled (touches_useAlias _ _ _) unnamed few room
    rw [now] at queue
    rw [Dev.useAlias_congr (counted .aliases (by decide)).symm (counted .uptime (by decide)).symm] at aliases
    exact ⟨_, execCarrier_eq dt sound, rfl, queue, free, aliases, others, framed⟩
  · intro bs dt s g n m b q sound stands present role service unknown table low high most noStation noEntry held unnamed few
      room a
    have counted := Touches.then (n := .clock :: Piece.raised) (touches_elapse s.dev dt)
      (touches_countUp (s.dev.elapse dt) .framesIn)
    have now : ((s.dev.elapse dt).countUp .framesIn).clock = s.dev.clock + dt :=
      (touches_countUp (s.dev.elapse dt) .framesIn .clock (by decide)).symm
    have number : ((s.dev.elapse dt).countUp .framesIn).freeNumber g = some m := by
      rw [Dev.freeNumber_congr counted]
      exact Dev.freeNumber_lowest low high most noStation noEntry held
    have entries := counted .aliases (by decide)
    have settled : ((s.dev.elapse dt).countUp .framesIn).settleFrom g (.ethernet (rxSrc bs)) =
        (((s.dev.elapse dt).countUp .framesIn).newDynamic g m (.ethernet (rxSrc bs)), some m) :=
      Dev.fromNumber_new ((counted.aliasFor (by decide) g _).trans unknown) number (entries ▸ table)
    obtain ⟨queue, free, aliases, others, framed⟩ := Dev.carrierTo_terminal (r := rxDst bs) (x := q) counted stands present
      role service settled (touches_newDynamic _ _ _ _) unnamed few room
    rw [now] at queue
    have made : (((s.dev.elapse dt).countUp .framesIn).newDynamic g m (.ethernet (rxSrc bs))).aliases =
        (s.dev.addAlias a).aliases := by
      rw [Dev.newDynamic, Dev.addAlias, ← entries, ← counted .uptime (by decide), Dev.addAlias]
    rw [made] at aliases
    refine ⟨_, execCarrier_eq dt sound, rfl, queue, free, ?_, fun b => ?_, others, framed⟩
    · dsimp only
      rw [Dev.aliasAt, aliases]
      exact find?_insertBy_new noEntry (by simp [a])
    · dsimp only
      rw [aliases]
      exact mem_addAlias
  · intro bs dt s g n i b p q sound stands present role place printer few quiet busy more x room job acked
    have counted := Touches.then (n := [.clock, .upCounters]) (touches_elapse s.dev dt)
      (Dev.countUp_quiet (d := s.dev.elapse dt) (q := .framesIn) quiet)
    obtain ⟨v, decided, ack, framed⟩ := Dev.carrierTo_printer (q := rxSrc bs) (r := rxDst bs) counted stands present role
      place printer few busy more
    refine ⟨_, execCarrier_eq dt sound, rfl, fun j opened here => ⟨fun fits => ?_, fun fits => ?_⟩, fun closed =>
      ⟨fun barred => ?_, fun takes limit => ?_, fun takes below => ⟨fun full => ?_, fun few fits => ?_, fun few fits => ?_⟩⟩,
      framed⟩
    · obtain ⟨rfl, joins⟩ := (decided.opened j opened here).1 fits
      exact ⟨ack, joins⟩
    · obtain ⟨rfl, kept⟩ := (decided.opened j opened here).2 fits
      exact ⟨ack, kept⟩
    · obtain ⟨rfl, kept⟩ := decided.barred closed barred
      exact ⟨ack, kept⟩
    · obtain ⟨rfl, kept⟩ := decided.limited closed takes limit
      exact ⟨ack, kept⟩
    · obtain ⟨rfl, kept⟩ := decided.crowded closed takes below full
      exact ⟨ack, kept⟩
    · obtain ⟨rfl, kept⟩ := decided.short closed takes below few fits
      exact ⟨ack, kept⟩
    · obtain ⟨rfl, opens⟩ := decided.opens closed takes below few fits
      exact ⟨ack, opens⟩

end Sys2Proof.Machine
end

