-- ==== Sys2Proof/Proofs/PortGoesOn.lean ====
section
/-! A busy uplink port while events are raised, pauses fall due and blocks are granted or freed: the frame being sent goes
on, and pause frames wait for its end (R96, R103, R104). -/

namespace Sys2Proof.Machine

open Sys2Proof

-- one proof after another: proofs that wait for each other take a thread each
set_option Elab.async false

variable {c d e : Dev} {l : List Piece} {i n k : Nat} {j : Job}

/-- What is being sent goes on, and no counter but those of a notice's drop has moved. -/
structure PortGoesOn (d e : Dev) : Prop where
  leaving : e.up.leaving = d.up.leaving
  port : d.up.txBusy = true → e.up.txBusy = true ∧ e.up.portOut = d.up.portOut
  counter : ∀ c : CounterId, ¬ c.ofNotice → e.ev.counter c = d.ev.counter c

/-- Besides, the pause frames that wait are those that waited. -/
structure OnlyNotes (d e : Dev) : Prop extends PortGoesOn d e where
  due : e.up.pauseDue = d.up.pauseDue

theorem PortGoesOn.refl (d : Dev) : PortGoesOn d d := ⟨rfl, fun busy => ⟨busy, rfl⟩, fun _ _ => rfl⟩

theorem PortGoesOn.trans (h : PortGoesOn d e) (k : PortGoesOn e c) : PortGoesOn d c where
  leaving := k.leaving.trans h.leaving
  port busy := ⟨(k.port (h.port busy).1).1, (k.port (h.port busy).1).2.trans (h.port busy).2⟩
  counter q other := (k.counter q other).trans (h.counter q other)

theorem PortGoesOn.ite {b : Prop} [Decidable b] (h : b → PortGoesOn d e) (k : ¬ b → PortGoesOn d c) :
    PortGoesOn d (if b then e else c) := by
  split
  · exact h ‹_›
  · exact k ‹_›

theorem OnlyNotes.refl (d : Dev) : OnlyNotes d d := ⟨.refl d, rfl⟩

theorem OnlyNotes.trans (h : OnlyNotes d e) (k : OnlyNotes e c) : OnlyNotes d c :=
  ⟨h.toPortGoesOn.trans k.toPortGoesOn, k.due.trans h.due⟩

theorem OnlyNotes.ite {b : Prop} [Decidable b] (h : b → OnlyNotes d e) (k : ¬ b → OnlyNotes d c) :
    OnlyNotes d (if b then e else c) := by
  split
  · exact h ‹_›
  · exact k ‹_›

theorem OnlyNotes.fold {α : Type} {f : Dev → α → Dev} (step : ∀ d a, OnlyNotes d (f d a)) (as : List α) :
    ∀ d, OnlyNotes d (as.foldl f d) := by
  induction as with
  | nil => exact OnlyNotes.refl
  | cons a as ih => exact fun d => (step d a).trans (ih _)

theorem Touches.onlyNotes (t : Touches l d e) (apart : ([Piece.transmit, .segCounters, .upCounters, .spoolCounters].any
    fun p => l.contains p) = false := by rfl) : OnlyNotes d e := by
  have same : ∀ p ∈ [Piece.transmit, .segCounters, .upCounters, .spoolCounters], p.same d e := fun p hp => t p fun hl =>
    Bool.eq_false_iff.mp apart (List.any_eq_true.mpr ⟨p, hp, List.contains_iff_mem.mpr hl⟩)
  obtain ⟨busy, leaving, port, due⟩ := same .transmit (by decide)
  exact ⟨⟨leaving.symm, fun on => ⟨busy.symm.trans on, port.symm⟩, fun c _ => EventUnit.counter_congr
    (same .segCounters (by decide)).symm (same .upCounters (by decide)).symm (same .spoolCounters (by decide)).symm c⟩,
    due.symm⟩

/-! ### Events -/

/-- A busy port begins nothing (R96). -/
theorem Dev.startTx_busy (busy : d.up.txBusy = true) : d.startTx = d := by
  unfold Dev.startTx
  split
  · rw [busy]
    exact if_neg (by simp)
  · rfl

theorem onlyNotes_startTx (d : Dev) : OnlyNotes d d.startTx :=
  ⟨⟨d.startTx_up.2.1, fun busy => by rw [Dev.startTx_busy busy]; exact ⟨busy, rfl⟩, fun c _ => by rw [Dev.startTx_ev]⟩,
    d.startTx_up.2.2.1⟩

theorem onlyNotes_offerNotice (d : Dev) : OnlyNotes d d.offerNotice := by
  have counters : ∀ c : CounterId, ¬ c.ofNotice → d.offerNotice.ev.counter c = d.ev.counter c := fun c other =>
    Dev.offerNotice_counter other
  unfold Dev.offerNotice at counters ⊢
  split at counters
  · rename_i room
    rw [if_pos room]
    have placed : OnlyNotes d (d.placeUp d.noticeFrame) :=
      (touches_setUpQueue d fun u => u.queue ++ [d.noticeFrame]).onlyNotes.trans (onlyNotes_startTx _)
    exact ⟨⟨placed.leaving, placed.port, counters⟩, placed.due⟩
  · rename_i short
    rw [if_neg short]
    have same : (d.countQuietly (.uplink (.drop d.uplinkDropCause))).up = d.up := by
      unfold Dev.countQuietly
      dsimp only
      split
      · exact Dev.recordEvent_up _ _ _
      · rfl
    exact ⟨⟨congrArg Uplink.leaving same, fun busy => ⟨(congrArg Uplink.txBusy same).trans busy,
      congrArg Uplink.portOut same⟩, counters⟩, congrArg Uplink.pauseDue same⟩

theorem onlyNotes_noticeTest (d : Dev) : OnlyNotes d d.noticeTest :=
  .ite (fun _ => ⟨⟨rfl, fun busy => ⟨busy, rfl⟩, fun _ _ => rfl⟩, rfl⟩) fun _ =>
    .ite (fun _ => onlyNotes_offerNotice d) fun _ => .refl d

theorem onlyNotes_raise (d : Dev) (k : EventKind) (s : Subject) : OnlyNotes d (d.raise k s) := by
  have recorded := (touches_recordEvent d k s).onlyNotes
  unfold Dev.raise
  dsimp only
  split
  · exact recorded.trans (onlyNotes_noticeTest _)
  · exact recorded

/-- A report moves its own counter; the rest is the raising of COUNTER_HALF. -/
theorem onlyNotes_count (d : Dev) (c : CounterId) : OnlyNotes (d.modEv fun e => e.bump c) (d.count c) := by
  rw [Dev.count_ev]
  exact .ite (fun _ => onlyNotes_raise _ _ _) fun _ => .refl _

/-! ### Selection -/

theorem onlyNotes_makeLost (d : Dev) (i : Nat) : OnlyNotes d (d.makeLost i) := by
  unfold Dev.makeLost
  split
  · refine .ite (fun _ => .refl d) fun _ => OnlyNotes.trans ?_ (onlyNotes_raise _ _ _)
    exact (touches_endHeldFeed d _ i).onlyNotes.trans (touches_modPrinter _ _ _).onlyNotes
  · exact .refl d

theorem onlyNotes_enterFeeding (d : Dev) (i : Nat) : OnlyNotes d (d.enterFeeding i) :=
  (touches_modPrinter d i _).onlyNotes.trans (touches_offerItem _ i).onlyNotes

theorem onlyNotes_handOver (d : Dev) (i : Nat) (j : Job) : OnlyNotes d (d.handOver i j) := by
  unfold Dev.handOver
  extract_lets +onlyGivenNames d1 d2
  have stamped : OnlyNotes d d1 := .ite (fun _ => (touches_takeStamp d j.serial).onlyNotes) fun _ => .refl d
  have active : OnlyNotes d d2 := stamped.trans (touches_modJob _ _ _).onlyNotes
  split
  · exact .ite (fun _ => active.trans (onlyNotes_enterFeeding _ _)) fun _ => active.trans (onlyNotes_makeLost _ _)
  · exact active

theorem onlyNotes_select (d : Dev) (i : Nat) : OnlyNotes d (d.select i) := by
  unfold Dev.select
  split
  · refine .ite (fun _ => ?_) fun _ => .refl d
    split
    · exact onlyNotes_handOver _ _ _
    · exact .refl d
  · exact .refl d

theorem onlyNotes_selectAll (d : Dev) : OnlyNotes d d.selectAll := .fold onlyNotes_select _ d

/-! ### The pause state on a busy port -/

theorem Dev.sendPause_busy (busy : d.up.txBusy = true) (k : PauseKind) : PortGoesOn d (d.sendPause k) ∧
    (d.up.link = true → (d.sendPause k).up.pauseDue = d.up.pauseDue ++ [k] ∧ (d.sendPause k).ev = d.ev) := by
  unfold Dev.sendPause
  rw [busy]
  cases link : d.up.link with
  | false => exact ⟨.refl d, fun no => absurd no (by decide)⟩
  | true => exact ⟨⟨rfl, fun on => ⟨on, rfl⟩, fun _ _ => rfl⟩, fun _ => ⟨rfl, rfl⟩⟩

theorem Dev.pauseTest_busy (busy : d.up.txBusy = true) : PortGoesOn d d.pauseTest := by
  have asked := (Dev.sendPause_busy (d := d.modUp fun u => { u with pauseOn := true }) busy .ask).1
  have first : PortGoesOn d ((d.modUp fun u => { u with pauseOn := true }).sendPause .ask).startRepeat :=
    ⟨asked.leaving, asked.port, asked.counter⟩
  have released := (Dev.sendPause_busy (d := d.modUp fun u => { u with pauseOn := false, repeatTimer := none }) busy .release).1
  exact .ite (fun _ => first.trans (onlyNotes_raise _ _ _).toPortGoesOn) fun _ =>
    .ite (fun _ => ⟨released.leaving, released.port, released.counter⟩) fun _ => .refl d

theorem Dev.freeTransit_busy (busy : d.up.txBusy = true) (n : Nat) : PortGoesOn d (d.freeTransit n) := by
  have tested := Dev.pauseTest_busy
    (d := { d with pool := { d.pool with free := d.pool.free + n, transit := d.pool.transit - n } }) busy
  exact .ite (fun _ => .refl d) fun _ => ⟨tested.leaving, tested.port, tested.counter⟩

/-- Blocks freed while a frame is sent make at most the release of the pause fall due (R103). -/
theorem Dev.freeTransit_due (busy : d.up.txBusy = true) (link : d.up.link = true) (ok : PauseOk d) (n : Nat) :
    (d.freeTransit n).up.pauseDue = d.up.pauseDue ++
      if d.up.pauseOn = true ∧ d.set.pauseOff ≤ d.pool.free + n then [.release] else [] := by
  obtain ⟨on, off⟩ := ok
  unfold Dev.freeTransit
  split
  · rename_i none
    rw [if_neg, List.append_nil]
    rintro ⟨paused, high⟩
    have := on paused
    omega
  · unfold Dev.pauseTest
    cases paused : d.up.pauseOn with
    | false =>
      have high := off paused
      have above : ¬ (d.pool.free + n < d.set.pauseOn) := by omega
      simp [above]
    | true =>
      by_cases high : d.set.pauseOff ≤ d.pool.free + n
      · have sent := ((Dev.sendPause_busy (d := { d with
            pool := { d.pool with free := d.pool.free + n, transit := d.pool.transit - n }
            up := { d.up with pauseOn := false, repeatTimer := none } }) busy .release).2 link).1
        simp only [high, and_self, if_true, Bool.not_true, Bool.false_and, Bool.false_eq_true, if_false,
          decide_true, Bool.and_self]
        exact sent
      · simp [high]

end Sys2Proof.Machine
end

