-- ==== Sys2Proof/Proofs/Transmissions.lean ====
section
/-! The end of a transmission: the frame leaves, the pause frames that wait go out, and the next frame begins (R96). -/

namespace Sys2Proof.Machine

open Sys2Proof

-- one proof after another: proofs that wait for each other take a thread each
set_option Elab.async false

variable {c d e : Dev} {s : State} {l : List Piece} {i n k : Nat} {f : UpFrame} {fs : List UpFrame}

/-! ### Pause frames that go out -/

/-- Pause frames have gone out from a busy port, one report each. -/
structure PausesGone (k : Nat) (d e : Dev) : Prop where
  joins : NoticesJoin d e
  due : e.up.pauseDue = d.up.pauseDue
  busy : d.up.txBusy = true → e.up.txBusy = true
  counter : ∀ c : CounterId, ¬ c.ofNotice → c ≠ .uplink .pausesSent → e.ev.counter c = d.ev.counter c
  sent : CountersOk d → (d.ev.counter (.uplink .pausesSent)).value ≤ 65535 →
    (e.ev.counter (.uplink .pausesSent)).value = min ((d.ev.counter (.uplink .pausesSent)).value + k) 65535
  whole : CountersOk d → CountersOk e
  frame : Touches Piece.raised d e

theorem pausesGone_emit (d : Dev) (k : PauseKind) : PausesGone 1 d (d.emitPause k) := by
  have notes := onlyNotes_count (d.modUp fun u => { u with portOut := ethWire (pauseBytes d.ownAddr (d.pauseTime k)) })
    (.uplink .pausesSent)
  refine ⟨noticesJoin_emitPause d k, notes.due, fun busy => (notes.port busy).1, fun c other own => ?_, fun ok low => ?_,
    fun ok => (ok.sound.emitPause k).countersOk, touches_emitPause d k⟩
  · exact Dev.count_counter_other
      (d := d.modUp fun u => { u with portOut := ethWire (pauseBytes d.ownAddr (d.pauseTime k)) }) own other
  · rw [Dev.emitPause_counter ok, Counter.bump_value]

theorem pausesGone_fold (as : List PauseKind) : ∀ d, PausesGone as.length d (as.foldl Dev.emitPause d) := by
  induction as with
  | nil => exact fun d => ⟨.refl d, rfl, id, fun _ _ _ => rfl, fun _ low => by simpa using low, id, .refl _ _⟩
  | cons a as ih =>
    intro d
    have one := pausesGone_emit d a
    have rest := ih (d.emitPause a)
    refine ⟨one.joins.trans rest.joins, rest.due.trans one.due, fun busy => rest.busy (one.busy busy), fun c other own =>
      (rest.counter c other own).trans (one.counter c other own), fun ok low => ?_, fun ok => rest.whole (one.whole ok),
      one.frame.trans rest.frame⟩
    have first := one.sent ok low
    have then_ := rest.sent (one.whole ok) (by omega)
    rw [List.foldl_cons, then_, first, List.length_cons]
    omega

/-- The port set free: every pause frame that waited is gone, and the head of the queue begins where it may. -/
structure PortFreed (d e : Dev) : Prop where
  joins : NoticesJoin d e
  due : e.up.pauseDue = []
  leaving : e.up.leaving = false
  counter : ∀ c : CounterId, ¬ c.ofNotice → c ≠ .uplink .pausesSent → e.ev.counter c = d.ev.counter c
  sent : CountersOk d → (d.ev.counter (.uplink .pausesSent)).value ≤ 65535 → (e.ev.counter (.uplink .pausesSent)).value =
    min ((d.ev.counter (.uplink .pausesSent)).value + d.up.pauseDue.length) 65535
  begins : ∀ f fs, d.up.queue = f :: fs → d.up.link = true → d.up.hold = none →
    e.up.txBusy = true ∧ e.up.portOut = ethWire f.bytes
  frame : Touches Piece.raised d e

theorem touches_transmit (d : Dev) (f : Uplink → Uplink) (rest : ∀ u, (f u).link = u.link ∧ (f u).speed = u.speed ∧
    (f u).rxEnabled = u.rxEnabled ∧ (f u).hold = u.hold ∧ (f u).queue = u.queue ∧ (f u).pauseOn = u.pauseOn ∧
    (f u).repeatTimer = u.repeatTimer) : Touches [.transmit] d (d.modUp f) := by
  intro p hp; cases p <;> first | exact absurd (Piece.mem_of rfl) hp | simp [Piece.same, rest]

theorem Dev.portFree_freed (d : Dev) : PortFreed d d.portFree := by
  have cleared := touches_transmit d (fun u => { u with pauseDue := [] }) fun u => by simp
  have gone := pausesGone_fold d.up.pauseDue (d.modUp fun u => { u with pauseDue := [] })
  have shape : d.portFree = (((d.up.pauseDue.foldl Dev.emitPause (d.modUp fun u => { u with pauseDue := [] })).modUp fun u =>
      { u with txBusy := false, leaving := false }).startTx) := rfl
  rw [shape]
  generalize d.up.pauseDue.foldl Dev.emitPause (d.modUp fun u => { u with pauseDue := [] }) = e at *
  have opened := touches_transmit e (fun u => { u with txBusy := false, leaving := false }) fun u => by simp
  have ready := Touches.then (n := Piece.raised) cleared (Touches.then (n := Piece.raised) gone.frame opened)
  have joined : NoticesJoin d (e.modUp fun u => { u with txBusy := false, leaving := false }) :=
    (cleared.noticesJoin.trans gone.joins).trans opened.noticesJoin
  have counters : ∀ c : CounterId,
      (e.modUp fun u => { u with txBusy := false, leaving := false }).startTx.ev.counter c = e.ev.counter c := fun c =>
    congrArg (fun v : EventUnit => v.counter c) (Dev.startTx_ev _)
  refine ⟨joined.trans (noticesJoin_startTx _), ?_, ?_, fun c other own => ?_, fun ok low => ?_, fun f fs queue link hold => ?_,
    Touches.then ready (touches_startTx _)⟩
  · exact (onlyNotes_startTx _).due.trans gone.due
  · exact (onlyNotes_startTx _).leaving
  · exact (counters c).trans (gone.counter c other own)
  · exact (congrArg Counter.value (counters _)).trans (gone.sent ok low)
  · obtain ⟨notices, -, after⟩ := joined
    rw [queue] at after
    exact Dev.startTx_sends (d := e.modUp fun u => { u with txBusy := false, leaving := false }) after
      ((ready .link (by decide)).1.symm.trans link) rfl ((ready .hold (by decide)).symm.trans hold)

/-! ### The end of a frame -/

/-- The blocks of a frame that has left the queue are freed, it is counted, and the port is set free. -/
def Dev.headSent (d : Dev) (n : Nat) : Dev := ((d.freeTransit n).countUp .framesOut).selectAll.portFree

theorem Dev.frameTransmitted_head (busy : d.up.txBusy = true) (queued : d.up.leaving = false) (queue : d.up.queue = f :: fs) :
    d.frameTransmitted = (d.modUp fun u => { u with queue := fs }).headSent f.blocks.length := by
  rw [Dev.frameTransmitted, busy, queued, queue]
  rfl

theorem Dev.frameTransmitted_leaving (busy : d.up.txBusy = true) (leaving : d.up.leaving = true) :
    d.frameTransmitted = (d.countUp .framesOut).portFree := by
  rw [Dev.frameTransmitted, busy, leaving]

theorem framesOut_notNotice : ¬ (CounterId.uplink .framesOut).ofNotice := by simp [CounterId.ofNotice]

theorem pausesSent_notNotice : ¬ (CounterId.uplink .pausesSent).ofNotice := by simp [CounterId.ofNotice]

/-- A frame counted on a port that is then set free, with what selection did between: `d` has the frame off its queue. -/
theorem Dev.framesOut_freed {r : Dev} (notes : OnlyNotes (d.countUp .framesOut) r) (joins : NoticesJoin (d.countUp .framesOut) r)
    (whole : CountersOk (d.countUp .framesOut) → CountersOk r) (framed : Touches Piece.selecting (d.countUp .framesOut) r) :
    NoticesJoin d r.portFree ∧ r.portFree.up.pauseDue = [] ∧ r.portFree.up.leaving = false ∧
    (CountersOk d → (r.portFree.ev.counter (.uplink .framesOut)).value =
      min ((d.ev.counter (.uplink .framesOut)).value + 1) 65535) ∧
    (CountersOk d → (d.ev.counter (.uplink .pausesSent)).value ≤ 65535 →
      (r.portFree.ev.counter (.uplink .pausesSent)).value =
        min ((d.ev.counter (.uplink .pausesSent)).value + d.up.pauseDue.length) 65535) ∧
    (∀ g gs, d.up.queue = g :: gs → d.up.link = true → d.up.hold = none →
      r.portFree.up.txBusy = true ∧ r.portFree.up.portOut = ethWire g.bytes) ∧
    Touches Piece.selecting d r.portFree := by
  have freed := Dev.portFree_freed r
  have counted := onlyNotes_count d (.uplink .framesOut)
  have before : NoticesJoin d r := (noticesJoin_count d _).trans joins
  have touched : Touches Piece.selecting d r := Touches.then (touches_countUp d .framesOut) framed
  have other : r.ev.counter (.uplink .pausesSent) = d.ev.counter (.uplink .pausesSent) :=
    (notes.counter _ pausesSent_notNotice).trans (Dev.count_counter_other (by simp) pausesSent_notNotice)
  have due : r.up.pauseDue = d.up.pauseDue := notes.due.trans counted.due
  refine ⟨before.trans freed.joins, freed.due, freed.leaving, fun ok => ?_, fun ok low => ?_, fun g gs queue link hold => ?_,
    Touches.then touched freed.frame⟩
  · rw [freed.counter _ framesOut_notNotice (by simp), notes.counter _ framesOut_notNotice, Dev.countUp,
      Dev.count_counter ok framesOut_notNotice, Counter.bump_value]
  · have sent := freed.sent (whole (ok.sound.countUp _).countersOk) (other ▸ low)
    rw [sent, other, due]
  · obtain ⟨notices, -, after⟩ := before
    rw [queue] at after
    exact freed.begins g _ after ((touched .link (by decide)).1.symm.trans link) ((touched .hold (by decide)).symm.trans hold)

/-- What the end of a frame does to the part whose queue it has left. -/
structure HeadSent (n : Nat) (d e : Dev) : Prop where
  joins : NoticesJoin d e
  due : e.up.pauseDue = []
  free : e.pool.free = d.pool.free + n
  framesOut : CountersOk d → (e.ev.counter (.uplink .framesOut)).value =
    min ((d.ev.counter (.uplink .framesOut)).value + 1) 65535
  sent : d.up.link = true → PauseOk d → CountersOk d → (d.ev.counter (.uplink .pausesSent)).value ≤ 65535 →
    (e.ev.counter (.uplink .pausesSent)).value = min ((d.ev.counter (.uplink .pausesSent)).value + d.up.pauseDue.length +
      (if d.up.pauseOn = true ∧ d.set.pauseOff ≤ d.pool.free + n then 1 else 0)) 65535
  begins : ∀ g gs, d.up.queue = g :: gs → d.up.link = true → d.up.hold = none →
    e.up.txBusy = true ∧ e.up.portOut = ethWire g.bytes
  frame : Touches ([.pool, .pauseState] ++ Piece.selecting) d e

theorem Dev.headSent_sent (busy : d.up.txBusy = true) (n : Nat) : HeadSent n d (d.headSent n) := by
  have goes := Dev.freeTransit_busy busy n
  have pool := Dev.freeTransit_pool d n
  have growth := noticesJoin_freeTransit d n
  have freeing := touches_freeTransit d n
  have waits := fun link ok => Dev.freeTransit_due (d := d) busy link ok n
  have whole : CountersOk d → CountersOk (d.freeTransit n) := fun ok =>
    (ok.sound.freeTransit _ fun no => by cases no).countersOk
  rw [Dev.headSent]
  generalize d.freeTransit n = e at *
  obtain ⟨joins, none, -, framesOut, sent, begins, framed⟩ := Dev.framesOut_freed (onlyNotes_selectAll (e.countUp .framesOut))
    (noticesJoin_selectAll _) (fun ok => ok.sound.selectAll.countersOk) (touches_selectAll _)
  refine ⟨growth.trans joins, none, ?_, fun ok => ?_, fun link ok sound low => ?_, fun g gs follows link hold => ?_,
    Touches.then freeing framed⟩
  · rw [← framed .pool (by decide), pool]
  · rw [framesOut (whole ok), goes.counter _ framesOut_notNotice]
  · have same := goes.counter _ pausesSent_notNotice
    have one : (if d.up.pauseOn = true ∧ d.set.pauseOff ≤ d.pool.free + n then [PauseKind.release] else []).length =
        if d.up.pauseOn = true ∧ d.set.pauseOff ≤ d.pool.free + n then 1 else 0 := by split <;> rfl
    rw [sent (whole sound) (same ▸ low), same, waits link ok, List.length_append, one, Nat.add_assoc]
  · obtain ⟨notices, -, after⟩ := growth
    rw [follows] at after
    exact begins g _ after ((freeing .link (by decide)).1.symm.trans link) ((freeing .hold (by decide)).symm.trans hold)

/-- PAUSE_REPEAT on an UP link (R104). -/
theorem Dev.pauseRepeat_asks {due : Nat} (timer : d.up.repeatTimer = some due) (link : d.up.link = true) :
    d.pauseRepeat.clock = max d.clock due ∧
    d.pauseRepeat.up.repeatTimer = some (max d.clock due + repeatPeriod d.set.pauseQuanta d.up.speed) ∧
    d.pauseRepeat.up.pauseOn = d.up.pauseOn ∧
    (d.up.txBusy = true → d.pauseRepeat.up.pauseDue = d.up.pauseDue ++ [.ask] ∧ d.pauseRepeat.ev = d.ev) ∧
    (d.up.txBusy = false → (d.ev.counter (.uplink .pausesSent)).value ≠ 32767 →
      d.pauseRepeat.up.portOut = ethWire (pauseBytes d.ownAddr (BitVec.ofNat 16 d.set.pauseQuanta))) ∧
    Touches ([.clock, .pauseState] ++ Piece.raised) d d.pauseRepeat := by
  have shape : d.pauseRepeat = (d.reach due).asksAgain := by
    rw [Dev.pauseRepeat, timer]
    rfl
  have asked := touches_sendPause (d.reach due) .ask
  rw [shape]
  refine ⟨(touches_asksAgain _ .clock (by decide)).symm, Dev.asksAgain_timer (d := d.reach due) link, ?_, fun busy => ?_, fun free low => ?_,
    Touches.then (touches_reach d due) (touches_asksAgain _)⟩
  · exact (asked .pauseState (by decide)).1.symm
  · exact (Dev.sendPause_busy (d := d.reach due) busy .ask).2 link
  · have quiet := Dev.count_of_no_half (d := (d.reach due).modUp fun u =>
      { u with portOut := ethWire (pauseBytes d.ownAddr (BitVec.ofNat 16 d.set.pauseQuanta)) }) (c := .uplink .pausesSent)
      (by simpa [Counter.passesHalf] using fun no => absurd no low)
    have sent := Dev.sendPause_idle (d := d.reach due) link free .ask
    have counted : (d.reach due).emitPause .ask = ((d.reach due).modUp fun u =>
      { u with portOut := ethWire (pauseBytes d.ownAddr (BitVec.ofNat 16 d.set.pauseQuanta)) }).count
        (.uplink .pausesSent) := rfl
    show ((d.reach due).sendPause .ask).up.portOut = _
    rw [sent, counted, quiet]
    rfl

/-- PAUSE_HOLD_END: the hold ends and the queue's head may begin (R106). -/
theorem Dev.pauseHoldEnd_begins {due : Nat} (hold : d.up.hold = some due) :
    d.pauseHoldEnd.clock = max d.clock due ∧ d.pauseHoldEnd.up.hold = none ∧
    (∀ f fs, d.up.queue = f :: fs → d.up.link = true → d.up.txBusy = false →
      d.pauseHoldEnd.up.txBusy = true ∧ d.pauseHoldEnd.up.portOut = ethWire f.bytes) ∧
    Touches [.clock, .hold, .transmit] d d.pauseHoldEnd := by
  have shape : d.pauseHoldEnd = ((d.reach due).modUp fun u => { u with hold := none }).startTx := by
    rw [Dev.pauseHoldEnd, hold]
  have ended : Touches [.hold] (d.reach due) ((d.reach due).modUp fun u => { u with hold := none }) := by
    intro p hp; cases p <;> first | exact absurd (Piece.mem_of rfl) hp | simp [Piece.same]
  have started := touches_startTx ((d.reach due).modUp fun u => { u with hold := none })
  rw [shape]
  refine ⟨(started .clock (by decide)).symm, (started .hold (by decide)).symm, fun f fs queue link free => ?_,
    Touches.then (Touches.then (n := [.clock, .hold]) (touches_reach d due) ended) started⟩
  exact Dev.startTx_sends (d := (d.reach due).modUp fun u => { u with hold := none }) queue link free rfl

/-- Settles O15: pause frames wait for a frame's end, go out in turn and are counted, and the next frame begins. -/
theorem transmissionsFollowOneAnother : Obligations.TransmissionsFollowOneAnother := by
  refine ⟨fun dt s f fs busy queued queue => ?_, fun dt s busy leaving => ?_, fun s due timer link => ?_,
    fun s due hold => ?_⟩
  · have ran := Dev.frameTransmitted_head (d := s.dev.elapse dt) busy queued queue
    have cut : Touches [.clock, .upQueue] s.dev ((s.dev.elapse dt).modUp fun u => { u with queue := fs }) :=
      Touches.then (touches_elapse s.dev dt) (touches_setUpQueue _ fun _ => fs)
    have done := Dev.headSent_sent (d := (s.dev.elapse dt).modUp fun u => { u with queue := fs }) busy f.blocks.length
    generalize ((s.dev.elapse dt).modUp fun u => { u with queue := fs }).headSent f.blocks.length = e at ran done
    exact ⟨_, next_congr s ran, rfl, done.joins.grows, done.due, done.free, done.framesOut, done.sent,
      fun g gs follows => done.begins g gs follows, Touches.then cut done.frame⟩
  · have ran := Dev.frameTransmitted_leaving (d := s.dev.elapse dt) busy leaving
    obtain ⟨joins, none, ended, framesOut, sent, begins, -⟩ := Dev.framesOut_freed (d := s.dev.elapse dt) (.refl _)
      (.refl _) id (.refl _ _)
    have framed := Touches.then (n := .clock :: Piece.raised) (touches_elapse s.dev dt) (Touches.then (n := Piece.raised)
      (touches_countUp (s.dev.elapse dt) .framesOut) (Dev.portFree_freed ((s.dev.elapse dt).countUp .framesOut)).frame)
    generalize ((s.dev.elapse dt).countUp .framesOut).portFree = e at *
    exact ⟨_, next_congr s ran, rfl, joins.grows, none, ended, framesOut, sent, begins, framed⟩
  · obtain ⟨clock, again, on, waits, goes, framed⟩ := Dev.pauseRepeat_asks timer link
    exact ⟨_, rfl, rfl, clock, again, on, waits, goes, framed⟩
  · obtain ⟨clock, ended, begins, framed⟩ := Dev.pauseHoldEnd_begins hold
    exact ⟨_, rfl, rfl, clock, ended, begins, framed⟩

end Sys2Proof.Machine
end

