-- ==== Sys2Proof/Proofs/WindowEnds.lean ====
section
/-! The end of a discovery window: the next garbled group's window, or the pass completed with the station it found
(R53 to R55, R57). -/

namespace Sys2Proof.Machine

open Sys2Proof

-- one proof after another: proofs that wait for each other take a thread each
set_option Elab.async false

variable {c d e : Dev} {g k : Seg} {s : State} {l : List Piece} {n m : Nat} {r : PassRun} {slots : List SlotLine}
  {carrier : Bool}

/-! ### The readings -/

theorem readSlot_bounds {i : Nat} {x : SlotLine} (below : i < 16) (read : readSlot none i x = .clean n) :
    1 ≤ n ∧ n ≤ 254 := by
  cases x with
  | quiet => simp [readSlot] at read
  | noise => simp [readSlot] at read
  | frame bs clean other =>
    rw [readSlot] at read
    split at read
    · rename_i sound
      simp only [Bool.and_eq_true, belongs, beq_iff_eq] at sound
      obtain ⟨-, slot⟩ := sound
      split at read
      · simp at read
      · rename_i inside
        obtain rfl : (parseTrunk bs).station = n := by simpa using read
        omega
    · simp at read

/-- A number found CLEAN at level 0 is a station's (R40, R53). -/
theorem cleanNumbers_bounds (found : n ∈ cleanNumbers (readWindow none slots)) : 1 ≤ n ∧ n ≤ 254 := by
  obtain ⟨reading, member, here⟩ := List.mem_filterMap.mp found
  obtain ⟨i, below, read⟩ := List.mem_map.mp member
  cases reading with
  | clean k =>
    obtain rfl : k = n := by simpa using here
    exact readSlot_bounds (List.mem_range.mp below) read
  | empty => simp at here
  | garbled => simp at here

/-! ### The windows -/

theorem Dev.windowEnd_level0 (run : (d.seg g).disc.run = some r) (sent : r.held = false) (level : r.group = none)
    (few : (garbledSlots (readWindow none slots)).length ≤ 8) (carrier : Bool) : d.windowEnd g slots carrier =
      (d.reach (r.slotsFrom + 16 * r.slotTime * Config.us)).nextWindow g { r with
        readings := r.readings ++ [(none, readWindow none slots)]
        groupsLeft := garbledSlots (readWindow none slots) } carrier := by
  rw [Dev.windowEnd, run]
  dsimp only
  rw [if_neg (by rw [sent]; decide), level]
  exact (if_neg (by omega)).trans rfl

theorem Dev.nextWindow_group {x : Nat} {xs : List Nat} (left : r.groupsLeft = x :: xs) (carrier : Bool) :
    d.nextWindow g r carrier = d.openWindow g .level1 { r with group := some x, groupsLeft := xs } carrier := by
  rw [Dev.nextWindow, left]

theorem Dev.nextWindow_none (left : r.groupsLeft = []) (carrier : Bool) :
    d.nextWindow g r carrier = d.completePass g r.readings := by
  rw [Dev.nextWindow, left]

theorem touches_sendDiscover_quiet (d : Dev) (g : Seg) (p : PassState) (r : PassRun) :
    Touches [.disc, .lineOut] d (d.openWindow g p r false) := by
  unfold Dev.openWindow
  dsimp only
  rw [if_neg Bool.false_ne_true]
  refine (touches_modDisc d g fun x => { x with pass := p, run := some { r with held := false } }).mono.trans ?_
  rw [Dev.sendDiscover_of (congrArg (fun x : Segment => x.disc.run) (Dev.modDisc_seg _ _ _))]
  exact touches_modSeg _ _ _ fun p hp => by cases p <;> first | exact absurd (Piece.mem_of rfl) hp | trivial

/-! ### The results of a pass -/

/-- A pass that found one number alone applies it once, and keeps no candidate (R55). -/
theorem applyResults_one (g : Seg) (n : Nat) (ns : List Nat) : ∀ d : Dev, ns.Nodup →
    Dev.applyResults g [n] [] ns d [] = (if n ∈ ns then d.applyFound g n else d, []) := by
  induction ns with
  | nil => exact fun d _ => rfl
  | cons k ns ih =>
    intro d once
    obtain ⟨fresh, once⟩ := List.nodup_cons.mp once
    rw [Dev.applyResults]
    by_cases same : k = n
    · subst same
      rw [if_pos (by simp), ih _ once, if_neg fresh, if_pos (List.mem_cons_self ..)]
    · rw [if_neg (by simpa using same), if_neg (by simp), ih _ once]
      simp [Ne.symm same]

theorem nodup_stationNumbers : stationNumbers.Nodup := List.nodup_range.map fun a b same => by simpa using same

/-- The entry that a pass makes for a number found CLEAN (R55). -/
def Dev.foundStation (d : Dev) (g : Seg) (n : Nat) : Station :=
  { Station.fresh d.nextEid g n .present .discovered with lastHeard := some d.uptime }

/-- A number found CLEAN without an entry is entered where the table has room (R55, R57). -/
theorem Dev.applyFound_new (free : d.station g n = none) (room : d.stations.length < 256) :
    (d.applyFound g n).station g n = some (d.foundStation g n) ∧
    (∀ h m, (h, m) ≠ (g, n) → (d.applyFound g n).station h m = d.station h m) ∧
    Touches (.stations :: .names :: Piece.aliasing) d (d.applyFound g n) := by
  have entered : d.applyFound g n = ((d.insertStation (d.foundStation g n)).raise .stationNew
      (.station g n)).conflictCheck g n := by
    rw [Dev.applyFound, free]
    exact congrArg Prod.fst (if_pos room)
  have after := Touches.then (n := Piece.aliasing) (touches_raise (d.insertStation (d.foundStation g n)) .stationNew
    (.station g n)) (touches_conflictCheck _ g n)
  obtain ⟨here, others⟩ := Dev.createStation_station (e := d.foundStation g n) free
  have same : (d.applyFound g n).stations = (d.createStation (d.foundStation g n)).stations := by
    rw [entered, ← after .stations (by decide)]
    exact touches_conflictCheck _ _ _ .stations (by decide)
  refine ⟨(Dev.station_congr same _ _).trans here, fun h m other => (Dev.station_congr same _ _).trans (others h m other), ?_⟩
  rw [entered]
  exact Touches.then (touches_insertStation _ _) after

/-! ### The end of a pass -/

theorem Dev.endPass_seg (service : d.inService g = true) :
    ((d.endPass g).seg g).disc = { (d.seg g).disc with
      pass := .idle, run := none, intervalTimer := some (d.clock + (d.seg g).cfg.discoveryInterval * Config.sec) } ∧
    (d.endPass g).clock = d.clock ∧ Touches ([.disc, .sched] ++ Piece.counted) d (d.endPass g) := by
  have counted := touches_countSeg d g .passes
  have idle := touches_modDisc (d.countSeg g .passes) g fun x => { x with pass := .idle, run := none }
  have disc := congrArg Segment.disc (Dev.modDisc_seg (d.countSeg g .passes) g fun x => { x with pass := .idle, run := none })
  have ended := touches_endHold ((d.countSeg g .passes).modDisc g fun x => { x with pass := .idle, run := none }) g .discovery
  have ready := Touches.then (n := [.disc, .sched] ++ Piece.counted) counted
    (Touches.then (n := [.disc, .sched] ++ Piece.counted) idle ended)
  have shape : d.endPass g = if (((d.countSeg g .passes).modDisc g fun x => { x with pass := .idle, run := none }).endHold g
      .discovery).inService g = true then (((d.countSeg g .passes).modDisc g fun x =>
      { x with pass := .idle, run := none }).endHold g .discovery).startInterval g else
      ((d.countSeg g .passes).modDisc g fun x => { x with pass := .idle, run := none }).endHold g .discovery := rfl
  have now := ended .disc (by decide) g
  rw [← counted .disc (by decide) g] at disc
  rw [disc] at now
  rw [shape]
  generalize (((d.countSeg g .passes).modDisc g fun x => { x with pass := .idle, run := none }).endHold g .discovery) = u at *
  have started := touches_startInterval u g
  rw [if_pos ((ready.inService (by decide) g).trans service)]
  refine ⟨?_, (ready .clock (by decide)).symm, Touches.then ready started⟩
  have last := congrArg Segment.disc (Dev.modDisc_seg u g fun x =>
    { x with intervalTimer := some (u.clock + (u.seg g).cfg.discoveryInterval * Config.sec) })
  rw [Dev.startInterval, last, ← now, ← ready .clock (by decide), ← ready .cfg (by decide) g]

/-- A pass that found one number without an entry, and nothing garbled (R55). -/
theorem Dev.completePass_one (low : 1 ≤ n) (high : n ≤ 254) (free : d.station g n = none) (room : d.stations.length < 256)
    (service : d.inService g = true) {rs : List SlotReading} (found : cleanNumbers rs = [n]) :
    (d.completePass g [(none, rs)]).station g n = some (d.foundStation g n) ∧
    (∀ h m, (h, m) ≠ (g, n) → (d.completePass g [(none, rs)]).station h m = d.station h m) ∧
    ((d.completePass g [(none, rs)]).seg g).disc = { (d.seg g).disc with
      pass := .idle, run := none, pendingDup := []
      intervalTimer := some (d.clock + (d.seg g).cfg.discoveryInterval * Config.sec) } ∧
    (d.completePass g [(none, rs)]).clock = d.clock ∧
    Touches ([.stations, .names, .aliases, .disc, .sched] ++ Piece.counted) d (d.completePass g [(none, rs)]) := by
  have applied : Dev.applyResults g (foundIn [(none, rs)]) (candidatesIn [(none, rs)]) stationNumbers d [] =
      (d.applyFound g n, []) := by
    rw [show foundIn [(none, rs)] = [n] by simp [foundIn, found], show candidatesIn [(none, rs)] = [] from rfl,
      applyResults_one g n _ d nodup_stationNumbers, if_pos (mem_stationNumbers.mpr ⟨low, high⟩)]
  have shape : d.completePass g [(none, rs)] = ((d.applyFound g n).modDisc g fun x => { x with pendingDup := [] }).endPass g := by
    rw [Dev.completePass, applied]
    rfl
  obtain ⟨here, others, entering⟩ := Dev.applyFound_new free room
  have cleared := touches_modDisc (d.applyFound g n) g fun x => { x with pendingDup := [] }
  have disc := congrArg Segment.disc (Dev.modDisc_seg (d.applyFound g n) g fun x => { x with pendingDup := [] })
  have ready := Touches.then (n := [.stations, .names, .aliases, .disc, .sched] ++ Piece.counted) entering cleared
  rw [← entering .disc (by decide) g] at disc
  obtain ⟨last, clock, ending⟩ := Dev.endPass_seg ((ready.inService (by decide) g).trans service)
  have kept := fun h m => (ending.station (by decide) h m).trans (cleared.station (by decide) h m)
  rw [shape]
  refine ⟨(kept g n).trans here, fun h m other => (kept h m).trans (others h m other), ?_,
    clock.trans (ready .clock (by decide)).symm, Touches.then ready ending⟩
  rw [last, disc, ← ready .clock (by decide), ← ready .cfg (by decide) g]

/-- Settles O35: a garbled group has its own window, and a quiet one ends the pass with what it found. -/
theorem windowsEnd : Obligations.WindowsEnd := by
  refine ⟨fun g slots s r x xs run sent level garbled few => ?_, ?_⟩
  · intro now
    have ran := Dev.windowEnd_level0 run sent level (by rw [garbled, List.length_cons]; omega) false
    rw [Dev.nextWindow_group garbled] at ran
    have seg := Dev.openWindow_quiet (s.dev.reach (r.slotsFrom + 16 * r.slotTime * Config.us)) g .level1 { r with
      readings := r.readings ++ [(none, readWindow none slots)], groupsLeft := xs, group := some x }
    have others := oneSeg_openWindow (s.dev.reach (r.slotsFrom + 16 * r.slotTime * Config.us)) g .level1 { r with
      readings := r.readings ++ [(none, readWindow none slots)], groupsLeft := xs, group := some x } false
    have framed := touches_sendDiscover_quiet (s.dev.reach (r.slotsFrom + 16 * r.slotTime * Config.us)) g .level1 { r with
      readings := r.readings ++ [(none, readWindow none slots)], groupsLeft := xs, group := some x }
    rw [discoverBytes_time] at seg
    exact ⟨_, next_congr s ran, rfl, (framed .clock (by decide)).symm, seg, others,
      Touches.then (touches_reach _ _) framed⟩
  · intro g slots carrier s r n run sent level first quiet found free room service
    have ran := Dev.windowEnd_level0 run sent level (by rw [quiet]; decide) carrier
    rw [Dev.nextWindow_none quiet, first, List.nil_append] at ran
    obtain ⟨low, high⟩ := cleanNumbers_bounds (found ▸ List.mem_singleton_self n)
    obtain ⟨here, others, disc, clock, framed⟩ := Dev.completePass_one
      (d := s.dev.reach (r.slotsFrom + 16 * r.slotTime * Config.us)) low high free room service found
    refine ⟨_, _, next_congr s ran, rfl, here, rfl, rfl, rfl, rfl, rfl, rfl, rfl, rfl, rfl, rfl, others, ?_, ?_, ?_, ?_,
      Touches.then (touches_reach _ _) framed⟩
    · exact congrArg Discovery.pass disc
    · exact congrArg Discovery.run disc
    · exact congrArg Discovery.pendingDup disc
    · refine (congrArg Discovery.intervalTimer disc).trans ?_
      dsimp only
      rw [clock]
      rfl

end Sys2Proof.Machine
end

