-- ==== Sys2Proof/Proofs/Starts.lean ====
section
/-! What cold and warm starts share: the tables of an image load, and each enabled segment enters STARTING (R61, R82, R110,
R166). -/

namespace Sys2Proof.Machine

open Sys2Proof

-- one proof after another: proofs that wait for each other take a thread each
set_option Elab.async false

variable {c d e : Dev} {g : Seg} {l : List Piece} {i n : Nat}

/-! ### Loading -/

/-- Events alone: notices may join the uplink queue, and what is being sent goes on. -/
structure Notes (d e : Dev) : Prop extends OnlyNotes d e where
  joins : NoticesJoin d e

theorem Notes.refl (d : Dev) : Notes d d := ⟨.refl d, .refl d⟩

theorem Notes.trans (h : Notes d e) (k : Notes e c) : Notes d c :=
  ⟨h.toOnlyNotes.trans k.toOnlyNotes, h.joins.trans k.joins⟩

theorem Notes.fold {α : Type} {f : Dev → α → Dev} (step : ∀ d a, Notes d (f d a)) (as : List α) :
    ∀ d, Notes d (as.foldl f d) := by
  induction as with
  | nil => exact Notes.refl
  | cons a as ih => exact fun d => (step d a).trans (ih _)

theorem Touches.notes (t : Touches l d e) (apart : ([Piece.transmit, .segCounters, .upCounters, .spoolCounters].any
    fun p => l.contains p) = false := by rfl) (queue : Piece.upQueue ∉ l := by decide) : Notes d e :=
  ⟨t.onlyNotes apart, t.noticesJoin queue⟩

theorem notes_raise (d : Dev) (k : EventKind) (s : Subject) : Notes d (d.raise k s) :=
  ⟨onlyNotes_raise d k s, noticesJoin_raise d k s⟩

theorem notes_conflictCheck (d : Dev) (g : Seg) (n : Nat) : Notes d (d.conflictCheck g n) := by
  unfold Dev.conflictCheck
  split
  · exact .refl d
  · split
    · exact (touches_withdrawAlias _ _ _).notes
    · exact (touches_modAlias d g n fun a => { a with state := .conflict }).notes.trans (notes_raise _ _ _)
    · exact .refl d

theorem notes_loadAlias (d : Dev) (a : SavedAlias) : Notes d (d.loadAlias a) := by
  unfold Dev.loadAlias
  dsimp only
  split
  · exact .refl d
  · split
    · exact (touches_addAlias _ _).notes.trans (notes_conflictCheck _ _ _)
    · exact (touches_addAlias _ _).notes

theorem notes_loadImage (d : Dev) (m : Option StoredImage) : Notes d (d.loadImage m) := by
  cases m with
  | none => exact .refl d
  | some m =>
    exact ((Notes.fold (fun d s => (touches_loadStation d s).notes) m.stations d).trans
      (.fold (fun d p => (touches_loadPrinter d p).notes) m.printers _)).trans (.fold notes_loadAlias m.aliases _)

/-- What the loading of an image may move. -/
def Piece.loading : List Piece := [.stations, .names, .printers] ++ Piece.aliasing

theorem touches_loadImage (d : Dev) (m : Option StoredImage) : Touches Piece.loading d (d.loadImage m) := by
  cases m with
  | none => exact .refl _ _
  | some m =>
    exact Touches.then (Touches.then (n := Piece.loading) (Touches.fold touches_loadStation m.stations d)
      (Touches.fold touches_loadPrinter m.printers _)) (Touches.fold touches_loadAlias m.aliases _)

/-! ### Segments starting -/

/-- A segment as a start finds it: DOWN, its line not driven, its Line Probe IDLE. -/
structure Segment.AtRest (q : Segment) : Prop where
  state : q.mon.state = .down
  enable : q.txEnable = false
  probe : q.probe.phase = .idle

/-- A segment that a start has left DOWN, or taken into STARTING where it is enabled (R110). -/
structure Segment.Begun (q r : Segment) : Prop where
  cfg : r.cfg = q.cfg
  downq : r.downq = q.downq
  record : r.mon.record = q.mon.record
  last : r.probe.last = q.probe.last
  enable : r.txEnable = false
  state : r.mon.state = if r.cfg.enabled then .starting else .down

theorem atRest_fresh (k : SegSettings) : (Segment.fresh k).AtRest := ⟨rfl, rfl, rfl⟩

theorem atRest_restarted (q : Segment) (k : SegSettings) : (q.restarted k).AtRest := ⟨rfl, rfl, rfl⟩

/-- The start of one segment (R110). -/
def Dev.startSegment (d : Dev) (g : Seg) : Dev := if (d.seg g).cfg.enabled then d.enterStarting g else d

theorem oneSeg_startSegment (d : Dev) (g : Seg) : OneSeg g d (d.startSegment g) := by
  unfold Dev.startSegment
  split
  · exact oneSeg_enterStarting d g
  · exact fun _ _ => rfl

theorem touches_startSegment (d : Dev) (g : Seg) : Touches [.mon, .txEnable, .probe] d (d.startSegment g) :=
  Touches.ite (fun _ => touches_enterStarting _ _) fun _ => .refl _ _

theorem Dev.startSegment_begun (rest : (d.seg g).AtRest) : (d.seg g).Begun ((d.startSegment g).seg g) := by
  have framed := touches_startSegment d g
  have cfg := (framed .cfg (by decide) g).symm
  have downq := (framed .downq (by decide) g).symm
  unfold Dev.startSegment at cfg downq ⊢
  split
  · rename_i enabled
    rw [if_pos enabled] at cfg downq
    have mon := Dev.enterStarting_mon d g
    have probe := Dev.enterStarting_idle rest.probe
    refine ⟨cfg, downq, by rw [mon], by rw [probe], ?_, by rw [mon, cfg, if_pos enabled]⟩
    rw [Dev.enterStarting, Dev.requestProbe_seg, Dev.setSegState_seg]
    simp [Segment.settleEnable, Segment.probePulse, SegState.mediumUsing, rest.enable, rest.probe]
  · rename_i disabled
    exact ⟨rfl, rfl, rfl, rfl, rest.enable, by rw [if_neg disabled]; exact rest.state⟩

section Each

variable {f : Dev → Seg → Dev}

theorem foldl_apart (one : ∀ d g, OneSeg g d (f d g)) (gs : List Seg) :
    ∀ d : Dev, g ∉ gs → (gs.foldl f d).seg g = d.seg g := by
  induction gs with
  | nil => exact fun _ _ => rfl
  | cons k gs ih =>
    intro d apart
    obtain ⟨other, apart⟩ := not_or.mp (mt List.mem_cons.mpr apart)
    exact (ih _ apart).trans (one d k g other)

/-- A loop over segments, each step of which moves its own segment, does to each what its own step does. -/
theorem foldl_each {P : Segment → Segment → Prop} (one : ∀ d g, OneSeg g d (f d g))
    (step : ∀ d g, P (d.seg g) ((f d g).seg g)) (gs : List Seg) :
    ∀ d : Dev, gs.Nodup → g ∈ gs → P (d.seg g) ((gs.foldl f d).seg g) := by
  induction gs with
  | nil => exact fun _ _ no => absurd no List.not_mem_nil
  | cons k gs ih =>
    intro d once member
    obtain ⟨fresh, once⟩ := List.nodup_cons.mp once
    by_cases same : g = k
    · subst same
      have here := step d g
      rw [← foldl_apart one gs (f d g) fresh] at here
      exact here
    · have later := ih (f d k) once ((List.mem_cons.mp member).resolve_left same)
      rw [one d k g same] at later
      exact later

end Each

theorem Dev.startSegments_eq (d : Dev) : d.startSegments = allSegs.foldl Dev.startSegment d := rfl

theorem touches_startSegments (d : Dev) : Touches [.mon, .txEnable, .probe] d d.startSegments :=
  Touches.fold touches_startSegment allSegs d

/-- Each segment of a part at rest is begun (R110). -/
theorem Dev.startSegments_begun (rest : ∀ g, (d.seg g).AtRest) (g : Seg) : (d.seg g).Begun (d.startSegments.seg g) :=
  foldl_each (P := fun q r => q.AtRest → q.Begun r) oneSeg_startSegment (fun _ _ => Dev.startSegment_begun) allSegs d
    (by decide) (by cases g <;> decide) (rest g)

/-- Selection finds nothing to choose in an empty job table (R155). -/
theorem Dev.selectAll_jobless (none : d.spool.jobs = []) : d.selectAll = d := by
  have each : ∀ (is : List Nat), is.foldl Dev.select d = d := fun is => by
    induction is with
    | nil => rfl
    | cons i is ih =>
      rw [List.foldl_cons, Dev.select_jobless (by rw [Dev.jobCount, none]; rfl)]
      exact ih
  exact each _

end Sys2Proof.Machine
end

