-- ==== Sys2Proof/Proofs/WarmRestart.lean ====
section
/-! The warm restart step by step: jobs failed, the part torn down, its events emptied, its tables built again and its
segments started (R108, R167, R205). -/

namespace Sys2Proof.Machine

open Sys2Proof

-- one proof after another: proofs that wait for each other take a thread each
set_option Elab.async false

variable {c d e : Dev} {g : Seg} {s : State} {l : List Piece} {i n : Nat} {j : Job}

/-! ### Jobs that a restart fails -/

theorem failedSpool_notNotice : ¬ (CounterId.spool .failed).ofNotice := by simp [CounterId.ofNotice]

theorem CountersOk.failForRestart (ok : CountersOk d) (j : Job) : CountersOk (d.failForRestart j) :=
  (ok.sound.failForRestart j).countersOk

theorem Dev.failForRestart_counter (d : Dev) (j : Job) {x : CounterId} (other : x ≠ .spool .failed) :
    (d.failForRestart j).ev.counter x = d.ev.counter x :=
  (Dev.countQuietly_counter _ _ _).trans (EventUnit.counter_bump_other other)

theorem Dev.failForRestart_failed (ok : CountersOk d) (j : Job) :
    (d.failForRestart j).ev.counter (.spool .failed) = (d.ev.counter (.spool .failed)).bump :=
  (Dev.countQuietly_counter _ _ _).trans (EventUnit.counter_bump ok _)

/-- Every job is counted as FAILED (R167). -/
theorem Dev.failJobs_counter (js : List Job) : ∀ d : Dev,
    (∀ x : CounterId, x ≠ .spool .failed → (js.foldl Dev.failForRestart d).ev.counter x = d.ev.counter x) ∧
    (CountersOk d → (d.ev.counter (.spool .failed)).value ≤ 65535 →
      ((js.foldl Dev.failForRestart d).ev.counter (.spool .failed)).value =
        min ((d.ev.counter (.spool .failed)).value + js.length) 65535) := by
  induction js with
  | nil => exact fun d => ⟨fun _ _ => rfl, fun _ low => by simpa using low⟩
  | cons j js ih =>
    intro d
    obtain ⟨others, counted⟩ := ih (d.failForRestart j)
    refine ⟨fun x other => (others x other).trans (d.failForRestart_counter j other), fun ok low => ?_⟩
    have first := congrArg Counter.value (Dev.failForRestart_failed ok j)
    rw [Counter.bump_value] at first
    have rest := counted (ok.failForRestart j) (by omega)
    rw [List.foldl_cons, rest, first, List.length_cons]
    omega

theorem touches_failJobs (d : Dev) : Touches [.finished, .spoolCounters, .events] d (d.jobsById.foldl Dev.failForRestart d) :=
  Touches.fold touches_failForRestart _ _

theorem length_jobsById (d : Dev) : d.jobsById.length = d.spool.jobs.length := (sortBy_perm _ _).length_eq

/-! ### From the tearing down on -/

/-- What a restart does from its tearing down on: notices may join the uplink queue, a frame being sent goes on, and no
counter moves but those of pauses sent and of a notice's drop. -/
structure RestartGoesOn (d e : Dev) : Prop where
  joins : NoticesJoin d e
  leaving : e.up.leaving = d.up.leaving
  port : d.up.txBusy = true → e.up.txBusy = true ∧ e.up.portOut = d.up.portOut
  counter : ∀ c : CounterId, ¬ c.ofNotice → c ≠ .uplink .pausesSent → e.ev.counter c = d.ev.counter c

theorem RestartGoesOn.trans (h : RestartGoesOn d e) (k : RestartGoesOn e c) : RestartGoesOn d c where
  joins := h.joins.trans k.joins
  leaving := k.leaving.trans h.leaving
  port busy := ⟨(k.port (h.port busy).1).1, (k.port (h.port busy).1).2.trans (h.port busy).2⟩
  counter x other own := (k.counter x other own).trans (h.counter x other own)

theorem Notes.restart (h : Notes d e) : RestartGoesOn d e :=
  ⟨h.joins, h.leaving, h.port, fun x other _ => h.counter x other⟩

theorem restart_sendPause (d : Dev) (k : PauseKind) : RestartGoesOn d (d.sendPause k) := by
  cases busy : d.up.txBusy with
  | true =>
    obtain ⟨goes, -⟩ := Dev.sendPause_busy busy k
    exact ⟨noticesJoin_sendPause d k, goes.leaving, goes.port, fun x other _ => goes.counter x other⟩
  | false =>
    have gone := pausesGone_emit d k
    have notes := onlyNotes_count (d.modUp fun u => { u with portOut := ethWire (pauseBytes d.ownAddr (d.pauseTime k)) })
      (.uplink .pausesSent)
    have idle : ∀ {p : Prop}, d.up.txBusy = true → p := fun on => absurd (busy.symm.trans on) (by decide)
    unfold Dev.sendPause
    split
    · exact ⟨.refl d, rfl, idle, fun _ _ _ => rfl⟩
    · rw [busy]
      exact ⟨noticesJoin_emitPause d k, notes.leaving, idle, gone.counter⟩

/-- The part torn down, with the pause frame of its pause state's end (R108). -/
def Dev.tornDown (d : Dev) : Dev := if d.up.pauseOn then (d.torn none).sendPause .release else d.torn none

theorem restart_tornDown (d : Dev) : RestartGoesOn (d.torn none) d.tornDown ∧ Touches Piece.raised (d.torn none) d.tornDown := by
  unfold Dev.tornDown
  split
  · exact ⟨restart_sendPause _ _, touches_sendPause _ _⟩
  · exact ⟨(Notes.refl _).restart, .refl _ _⟩

theorem Dev.tearDown_none (d : Dev) : d.tearDown none = (d.jobsById.foldl Dev.failForRestart d).tornDown.startTx := rfl

/-! ### The tables built again -/

theorem Dev.restartEvents_eq (d : Dev) : d.restartEvents = (d.modEv EventUnit.emptied).raise .restarted .none := rfl

theorem notes_emptyEvents (d : Dev) : Notes d (d.modEv EventUnit.emptied) := (touches_emptyEvents d).notes

/-- What the settings of a start may move. -/
def Piece.settingUp : List Piece :=
  [.settings, .cfg, .sched, .mon, .disc, .probe, .downq, .backoffs, .txEnable, .lineOut]

theorem touches_resettle (d : Dev) (k : Settings × Four SegSettings) : Touches Piece.settingUp d (d.resettle k) := by
  intro p hp; cases p <;> first | exact absurd (Piece.mem_of rfl) hp | simp [Piece.same, Dev.resettle]

/-- The part with the settings of the start in force and the holdoff clock after them. -/
def Dev.resettled (d : Dev) : Dev := (d.resettle (d.startSettings d.agent.image.usable)).retimeHoldoff

theorem Dev.rebuild_eq (d : Dev) : d.rebuild = if d.agent.image.usable.isNone then
    (d.resettled.loadImage d.agent.image.usable).raise .configDefaulted .none
    else d.resettled.loadImage d.agent.image.usable := rfl

theorem rebuild_facts (d : Dev) : Notes d d.rebuild ∧ Touches (Piece.settingUp ++ Piece.loading ++ Piece.raised) d d.rebuild ∧
    (∀ g, (d.rebuild.seg g) = (d.resettled.seg g)) := by
  have settled := Touches.then (n := Piece.settingUp ++ Piece.raised) (touches_resettle d
    (d.startSettings d.agent.image.usable)) (touches_retimeHoldoff _)
  have quiet := (touches_resettle d (d.startSettings d.agent.image.usable)).notes.trans (touches_retimeHoldoff _).notes
  have loading := touches_loadImage d.resettled d.agent.image.usable
  have loaded := quiet.trans (notes_loadImage d.resettled d.agent.image.usable)
  have whole := Touches.then (n := Piece.settingUp ++ Piece.loading ++ Piece.raised) settled loading
  rw [Dev.rebuild_eq]
  split
  · exact ⟨loaded.trans (notes_raise _ _ _), whole.trans (touches_raise _ _ _).mono, fun g =>
      ((touches_raise _ _ _).seg_eq rfl g).trans (loading.seg_eq rfl g)⟩
  · exact ⟨loaded, whole, fun g => loading.seg_eq rfl g⟩

end Sys2Proof.Machine
end

