-- ==== Sys2Proof/Proofs/RestartKept.lean ====
section
/-! RESTART as a whole: what it drops, what it keeps, and that it is refused while a store runs (R108, R167, R205). -/

namespace Sys2Proof.Machine

open Sys2Proof

-- one proof after another: proofs that wait for each other take a thread each
set_option Elab.async false

variable {c d e : Dev} {g : Seg} {s : State} {l : List Piece} {i n : Nat} {j : Job}

/-- The part whose jobs a restart has failed. -/
def Dev.jobsFailed (d : Dev) : Dev := d.jobsById.foldl Dev.failForRestart d

/-- The part torn down, its event list begun again. -/
def Dev.emptiedOut (d : Dev) : Dev := d.jobsFailed.tornDown.startTx.restartEvents

theorem emptiedOut_facts (d : Dev) : RestartGoesOn (d.jobsFailed.torn none) d.emptiedOut ∧
    Touches Piece.raised (d.jobsFailed.torn none) d.emptiedOut := by
  obtain ⟨goes, framed⟩ := restart_tornDown d.jobsFailed
  have sent : Notes d.jobsFailed.tornDown d.jobsFailed.tornDown.startTx := ⟨onlyNotes_startTx _, noticesJoin_startTx _⟩
  have raised := (notes_emptyEvents d.jobsFailed.tornDown.startTx).trans (notes_raise _ .restarted .none)
  have moved := Touches.then (n := Piece.raised) (touches_emptyEvents d.jobsFailed.tornDown.startTx)
    (touches_raise _ .restarted .none)
  exact ⟨goes.trans (sent.trans raised).restart,
    Touches.then framed (Touches.then (n := Piece.raised) (touches_startTx _) moved)⟩

theorem Dev.emptiedOut_seg (d : Dev) (g : Seg) : d.emptiedOut.seg g = (d.seg g).restarted (d.seg g).cfg := by
  obtain ⟨-, framed⟩ := emptiedOut_facts d
  rw [framed.seg_eq rfl g, Dev.torn_seg, Dev.jobsFailed, (touches_failJobs d).seg_eq rfl g]

/-- The part with its tables built again, before its segments start. -/
def Dev.rebuilt (d : Dev) : Dev := d.emptiedOut.rebuild

theorem Dev.rebuilt_seg (d : Dev) (g : Seg) : d.rebuilt.seg g =
    ((d.seg g).restarted (d.seg g).cfg).restarted ((d.emptiedOut.startSettings d.emptiedOut.agent.image.usable).2.get g) := by
  obtain ⟨-, -, segs⟩ := rebuild_facts d.emptiedOut
  rw [Dev.rebuilt, segs, Dev.resettled, (touches_retimeHoldoff _).seg_eq rfl g, Dev.resettle_seg, Dev.emptiedOut_seg]

/-- What a warm restart without a response does to the part torn down, and to each segment. -/
structure Restarted (d e : Dev) : Prop where
  goes : RestartGoesOn (d.jobsFailed.torn none) e
  frame : Touches (Piece.settingUp ++ Piece.loading ++ Piece.raised) (d.jobsFailed.torn none) e
  segs : ∀ g, (e.seg g).downq = [] ∧ (e.seg g).mon.record = (d.seg g).mon.record ∧
    (e.seg g).probe.last = (d.seg g).probe.last ∧ (e.seg g).txEnable = false ∧
    (e.seg g).mon.state = if (e.seg g).cfg.enabled then .starting else .down

theorem Dev.warmRestart_restarted (d : Dev) : Restarted d (d.warmRestart none) := by
  obtain ⟨emptied, dropped⟩ := emptiedOut_facts d
  obtain ⟨notes, built, -⟩ := rebuild_facts d.emptiedOut
  have started := touches_startSegments d.rebuilt
  have framed : Touches (Piece.settingUp ++ Piece.loading ++ Piece.raised) (d.jobsFailed.torn none) d.rebuilt.startSegments :=
    Touches.then dropped (Touches.then (n := Piece.settingUp ++ Piece.loading ++ Piece.raised) built started)
  have jobless : d.rebuilt.startSegments.spool.jobs = [] := (framed .jobs (by decide)).symm
  have shape : d.warmRestart none = d.rebuilt.startSegments := Dev.selectAll_jobless jobless
  have begun := Dev.startSegments_begun (d := d.rebuilt) fun g => by
    rw [Dev.rebuilt_seg]
    exact atRest_restarted _ _
  rw [shape]
  refine ⟨(emptied.trans notes.restart).trans started.notes.restart, framed, fun g => ?_⟩
  have here := begun g
  rw [Dev.rebuilt_seg] at here
  exact ⟨here.downq, here.record, here.last, here.enable, here.state⟩

theorem exec_restart (none : s.dev.agent.saving = none) : exec .restart s = .next { s with
    dev := Dev.answered opRestart (s.dev.warmRestart Option.none, .ok, []) } := by
  have idle : s.dev.agent.saving.isSome = false := by rw [none]; rfl
  show execRestart s = _
  rw [execRestart, idle]
  rfl

/-- The answer stands beside the part. -/
theorem Dev.answered_dev (d : Dev) (k : Byte) (st : Status) (bs : List Byte) :
    Touches [.answer] d (Dev.answered k (d, st, bs)) ∧ (Dev.answered k (d, st, bs)).agent.answer = some ⟨k, st, bs⟩ := by
  refine ⟨?_, rfl⟩
  intro p hp; cases p <;> first | exact absurd (Piece.mem_of rfl) hp | simp [Piece.same, Dev.answered]

/-- The counters after a warm restart (R167, R205). -/
theorem Restarted.counters (h : Restarted d e) : e.ev.segCounters = d.ev.segCounters ∧
    (∀ x : UpCounter, x ≠ .pausesSent → x ≠ .drop .queueFull → x ≠ .drop .linkDown →
      e.ev.counter (.uplink x) = d.ev.counter (.uplink x)) ∧
    (∀ x : SpoolCounter, x ≠ .failed → e.ev.counter (.spool x) = d.ev.counter (.spool x)) ∧
    (CountersOk d → (d.ev.counter (.spool .failed)).value ≤ 65535 → (e.ev.counter (.spool .failed)).value =
      min ((d.ev.counter (.spool .failed)).value + d.spool.jobs.length) 65535) := by
  obtain ⟨others, failed⟩ := Dev.failJobs_counter d.jobsById d
  have kept : ∀ x : CounterId, ¬ x.ofNotice → x ≠ .uplink .pausesSent → e.ev.counter x = d.jobsFailed.ev.counter x :=
    fun x other own => h.goes.counter x other own
  refine ⟨(h.frame .segCounters (by decide)).symm.trans (touches_failJobs d .segCounters (by decide)).symm,
    fun x own full down => ?_, fun x own => ?_, fun ok low => ?_⟩
  · exact (kept _ (by simp [CounterId.ofNotice, full, down]) (by simpa using own)).trans (others _ (by simp))
  · exact (kept _ (not_ofNotice_spool x) (by simp)).trans (others _ (by simpa using own))
  · rw [kept _ failedSpool_notNotice (by simp), ← length_jobsById]
    exact failed ok low

/-- The uplink after a warm restart (R108). -/
theorem Restarted.uplink (h : Restarted d e) : e.up.link = d.up.link ∧ e.up.speed = d.up.speed ∧ e.up.hold = d.up.hold ∧
    e.up.pauseOn = false ∧ e.up.repeatTimer = none ∧ (∀ f ∈ e.up.queue, f.kind = .notice) ∧
    (d.up.txBusy = true → e.up.txBusy = true ∧ e.up.leaving = true ∧ e.up.portOut = d.up.portOut) := by
  have failing := touches_failJobs d
  obtain ⟨link, speed, -⟩ := h.frame .link (by decide)
  obtain ⟨link₀, speed₀, -⟩ := failing .link (by decide)
  obtain ⟨on, timer⟩ := h.frame .pauseState (by decide)
  obtain ⟨busy, -, port, -⟩ := failing .transmit (by decide)
  refine ⟨link.symm.trans link₀.symm, speed.symm.trans speed₀.symm,
    (h.frame .hold (by decide)).symm.trans (failing .hold (by decide)).symm, on.symm, timer.symm, ?_, fun sending => ?_⟩
  · obtain ⟨l, notices, queue⟩ := h.goes.joins
    rw [queue]
    exact notices
  · have still : (d.jobsFailed.torn none).up.txBusy = true := busy.symm.trans sending
    obtain ⟨after, out⟩ := h.goes.port still
    refine ⟨after, h.goes.leaving.trans ?_, out.trans port.symm⟩
    show (d.jobsFailed.up.txBusy && !_) = true
    rw [show d.jobsFailed.up.txBusy = true from still]
    rfl

/-- Settles O9: what the tearing down empties stays empty but for notices, and what it does not touch is kept. -/
theorem restartKeepsWhatItMust : Obligations.RestartKeepsWhatItMust := by
  refine ⟨fun s none => ?_, fun s m saving => ?_⟩
  · have ran := exec_restart none
    have done := Dev.warmRestart_restarted s.dev
    have failing := touches_failJobs s.dev
    generalize s.dev.warmRestart Option.none = e at ran done
    obtain ⟨link, speed, hold, on, timer, notices, sending⟩ := done.uplink
    obtain ⟨segments, uplink, spool, failed⟩ := done.counters
    have framed := done.frame
    obtain ⟨queue, running⟩ := framed .requests (by decide)
    obtain ⟨-, last, image⟩ := framed .store (by decide)
    obtain ⟨-, last₀, image₀⟩ := failing .store (by decide)
    exact ⟨_, ran, rfl, rfl, (framed .uptime (by decide)).symm.trans (failing .uptime (by decide)).symm,
      (framed .pool (by decide)).symm, (framed .jobs (by decide)).symm, (framed .endings (by decide)).symm, queue.symm,
      running.symm, image.symm.trans image₀.symm,
      (framed .identity (by decide)).1.symm.trans (failing .identity (by decide)).1.symm, last.symm.trans last₀.symm,
      link, speed, hold, on, timer, notices, sending, segments, uplink, spool, failed, done.segs⟩
  · have running : s.dev.agent.saving.isSome = true := by rw [saving]; rfl
    show execRestart s = _
    rw [execRestart, running]
    rfl

end Sys2Proof.Machine
end

