-- ==== Sys2Proof/Proofs/ColdStarts.lean ====
section
/-! COLD_START: the blank part under the settings of the start, with its tables loaded and its segments started (R110,
R201, R203, R204). -/

namespace Sys2Proof.Machine

open Sys2Proof

-- one proof after another: proofs that wait for each other take a thread each
set_option Elab.async false

variable {c d e : Dev} {g : Seg} {s : State} {l : List Piece} {i n : Nat}

/-! ### Without an image -/

/-- A part of default settings to which nothing but these events has happened. -/
def Dev.bare (b : Addr) (a : Agent) (es : List Event) (h : Option Nat) : Dev where
  clock := 0
  uptime := 0
  set := .defaults b
  segs := .const (.fresh .defaults)
  stations := []
  aliases := []
  pool := ⟨2048, 0, 0⟩
  up := .fresh
  spool := .fresh
  ev := { EventUnit.fresh with events := es, holdoff := h }
  agent := a
  nextEid := 0
  nextFid := 0

theorem bare_noticeTest (b : Addr) (a : Agent) (es : List Event) (h : Option Nat) :
    (Dev.bare b a es h).noticeTest = Dev.bare b a es h := if_pos rfl

theorem bare_raise {b : Addr} {a : Agent} {es fs : List Event} {h k : Option Nat} {kind : EventKind} {x : Subject}
    (recorded : ((Dev.bare b a es h).recordEvent kind x).1 = Dev.bare b a fs k) :
    (Dev.bare b a es h).raise kind x = Dev.bare b a fs k := by
  unfold Dev.raise
  dsimp only
  rw [recorded]
  split
  · exact bare_noticeTest b a fs k
  · rfl

theorem bare_coldStart (b : Addr) (a : Agent) : (Dev.bare b a [] none).raise .coldStart .none =
    Dev.bare b a [⟨.coldStart, .none, 0, 0, true⟩] (some 0) :=
  bare_raise (by simp [Dev.recordEvent, recordEvent, Dev.bare, Dev.retimeHoldoff, Dev.unmaskedUnsent, Settings.masks,
    Settings.defaults, Dev.modEv, EventUnit.fresh, Config.eventMax])

theorem bare_configDefaulted (b : Addr) (a : Agent) :
    (Dev.bare b a [⟨.coldStart, .none, 0, 0, true⟩] (some 0)).raise .configDefaulted .none =
      Dev.bare b a [⟨.coldStart, .none, 0, 0, true⟩, ⟨.configDefaulted, .none, 0, 0, true⟩] (some 0) :=
  bare_raise (by simp [Dev.recordEvent, recordEvent, Dev.bare, Dev.retimeHoldoff, Dev.unmaskedUnsent, Settings.masks,
    Settings.defaults, Dev.modEv, EventUnit.fresh, Config.eventMax])

/-- The receiver enabled and every segment STARTING (R110, R204). -/
theorem bare_started (b : Addr) (a : Agent) (es : List Event) (h : Option Nat) :
    ((Dev.bare b a es h).modUp fun u => { u with rxEnabled := true }).startSegments = { Dev.bare b a es h with
      segs := .const (.started .defaults), up := { Uplink.fresh with rxEnabled := true } } := rfl

/-- The Agent of a cold start: its identity read again, its flash as it was (R203, R204). -/
def Dev.blankAgent (d : Dev) : Agent :=
  { Agent.fresh with
    identity := d.agent.readIdentity, image := d.agent.image, identityArea := d.agent.identityArea }

theorem Dev.coldStart_bare (blank : d.agent.image.usable = none) : d.coldStart =
    ((((Dev.bare d.agent.readIdentity.base d.blankAgent [] none).raise .coldStart .none).raise .configDefaulted
      .none).modUp fun u => { u with rxEnabled := true }).startSegments.selectAll := by
  rw [Dev.coldStart, blank]
  rfl

/-- A cold start without a usable image (R62, R201, R204). -/
theorem Dev.coldStart_blank (blank : d.agent.image.usable = none) : d.coldStart = { Dev.reset with
    set := Settings.defaults d.agent.readIdentity.base, agent := d.blankAgent } := by
  rw [Dev.coldStart_bare blank, bare_coldStart, bare_configDefaulted, bare_started]
  exact Dev.selectAll_jobless rfl

/-! ### Of any part -/

/-- The part of a cold start as its tables find it. -/
def Dev.coldBase (d : Dev) : Dev := d.blankWith (d.blank.startSettings d.agent.image.usable)

/-- The events of a cold start, after its tables have loaded (R191). -/
def Dev.coldEvents (d : Dev) : Dev :=
  if d.agent.image.usable.isNone then
    ((d.coldBase.loadImage d.agent.image.usable).raise .coldStart .none).raise .configDefaulted .none
  else (d.coldBase.loadImage d.agent.image.usable).raise .coldStart .none

/-- The part of a cold start, before its segments start. -/
def Dev.coldReady (d : Dev) : Dev := d.coldEvents.modUp fun u => { u with rxEnabled := true }

theorem touches_coldEvents (d : Dev) : Touches Piece.raised (d.coldBase.loadImage d.agent.image.usable) d.coldEvents :=
  Touches.ite (fun _ => (touches_raise _ _ _).trans (touches_raise _ _ _)) fun _ => touches_raise _ _ _

theorem touches_receiver (d : Dev) : Touches [.link] d (d.modUp fun u => { u with rxEnabled := true }) := by
  intro p hp; cases p <;> first | exact absurd (Piece.mem_of rfl) hp | simp [Piece.same]

theorem touches_coldReady (d : Dev) : Touches (.link :: Piece.loading) d.coldBase d.coldReady :=
  Touches.then (touches_loadImage _ _) (Touches.then (n := .link :: Piece.loading) (touches_coldEvents d) (touches_receiver _))

theorem Dev.coldReady_link (d : Dev) : d.coldReady.up.link = false ∧ d.coldReady.up.rxEnabled = true := by
  have framed := Touches.then (n := Piece.loading) (touches_loadImage d.coldBase d.agent.image.usable) (touches_coldEvents d)
  exact ⟨(framed .link (by decide)).1.symm, rfl⟩

theorem Dev.coldStart_eq (d : Dev) : d.coldStart = d.coldReady.startSegments := by
  have shape : d.coldStart = d.coldReady.startSegments.selectAll := rfl
  have framed := Touches.then (n := [.link, .mon, .txEnable, .probe] ++ Piece.loading) (touches_coldReady d)
    (touches_startSegments _)
  rw [shape]
  exact Dev.selectAll_jobless (framed .jobs (by decide)).symm

theorem touches_coldStart (d : Dev) : Touches ([.link, .mon, .txEnable, .probe] ++ Piece.loading) d.coldBase d.coldStart := by
  rw [Dev.coldStart_eq]
  exact Touches.then (touches_coldReady d) (touches_startSegments _)

theorem Dev.coldReady_seg (d : Dev) (g : Seg) :
    d.coldReady.seg g = .fresh ((d.blank.startSettings d.agent.image.usable).2.get g) := by
  rw [(touches_coldReady d).seg_eq rfl g, Dev.coldBase, Dev.blankWith_seg]

/-- Each segment after a cold start (R110). -/
theorem Dev.coldStart_seg (d : Dev) (g : Seg) : (d.coldStart.seg g).downq = [] ∧ (d.coldStart.seg g).mon.record = none ∧
    (d.coldStart.seg g).probe.last = none ∧ (d.coldStart.seg g).txEnable = false ∧
    (d.coldStart.seg g).mon.state = (if (d.coldStart.seg g).cfg.enabled then .starting else .down) ∧
    (d.coldStart.seg g).cfg = (d.blank.startSettings d.agent.image.usable).2.get g := by
  have begun := Dev.startSegments_begun (d := d.coldReady) (fun g => by rw [Dev.coldReady_seg]; exact atRest_fresh _) g
  rw [Dev.coldReady_seg] at begun
  rw [Dev.coldStart_eq]
  exact ⟨begun.downq, begun.record, begun.last, begun.enable, begun.state, begun.cfg⟩

/-- The link is DOWN, so nothing is queued or held (R95, R101). -/
theorem Dev.coldStart_uplink (d : Dev) : d.coldStart.up.link = false ∧ d.coldStart.up.rxEnabled = true ∧
    d.coldStart.up.queue = [] ∧ d.coldStart.up.pauseOn = false ∧ d.coldStart.up.hold = none := by
  have started := touches_startSegments d.coldReady
  obtain ⟨link, enabled⟩ := d.coldReady_link
  rw [← Dev.coldStart_eq] at started
  obtain ⟨same, -, receiver⟩ := started .link (by decide)
  have down := same.symm.trans link
  have sound : Sound (fun k => k = .uplink) Slack.none d.coldStart := Sound.coldStart (by constructor <;> decide) d
  have uplink : UplinkSlack .none d.coldStart.up := sound.holds .uplink rfl
  obtain ⟨silent, -⟩ := uplink
  obtain ⟨queue, -, hold, -⟩ := silent down
  exact ⟨down, receiver.symm.trans enabled, queue, ((touches_coldStart d) .pauseState (by decide)).1.symm, hold⟩

end Sys2Proof.Machine
end

