-- ==== Sys2Proof/Proofs/LoadedTables.lean ====
section
/-! The STATION and PRINTER tables loaded from the image of a sound part: every saved entry finds its place (R61, R166,
R168). -/

namespace Sys2Proof.Machine

open Sys2Proof

-- one proof after another: proofs that wait for each other take a thread each
set_option Elab.async false

variable {c d e u : Dev} {g : Seg} {l : List Piece} {i n : Nat} {k : Station} {a : SavedStation} {p : SavedPrinter}

/-! ### A part that loads -/

/-- A sound part without aliases, right after its start, whose station entries have the places of the part that was
saved. -/
structure LoadsFrom (u d : Dev) : Prop where
  sound : Sound (fun _ => True) Slack.none d
  empty : d.aliases = []
  now : d.uptime = 0
  places : ∀ x ∈ d.stations, x.place ∈ u.stations.map Station.place

theorem LoadsFrom.stationsOk (h : LoadsFrom u d) : StationsOk d := h.sound.holds .stations trivial

theorem LoadsFrom.length (h : LoadsFrom u d) : d.spool.printers.length = 8 := h.sound.holds .places trivial

/-- There is room for every entry of the part that was saved (R41). -/
theorem LoadsFrom.room (h : LoadsFrom u d) (ok : StationsOk u) (saved : (g, n) ∈ u.stations.map Station.place)
    (free : d.station g n = none) : d.stations.length < 256 := by
  have absent : (g, n) ∉ d.stations.map Station.place := Dev.station_none.mp free
  have once : ((g, n) :: d.stations.map Station.place).Nodup := List.nodup_cons.mpr ⟨absent, h.stationsOk.places⟩
  have inside : ((g, n) :: d.stations.map Station.place) ⊆ u.stations.map Station.place := by
    intro x hx
    obtain rfl | hx := List.mem_cons.mp hx
    · exact saved
    · obtain ⟨y, hy, rfl⟩ := List.mem_map.mp hx
      exact h.places y hy
  have fits := (List.subperm_of_subset once inside).length_le
  obtain ⟨-, most, -⟩ := ok
  simp only [List.length_cons, List.length_map] at fits
  exact Nat.lt_of_lt_of_le fits most

/-! ### Station entries -/

/-- The entry of a saved station (R61). -/
def Dev.savedEntry (d : Dev) (a : SavedStation) : Station :=
  { Station.fresh d.nextEid a.seg a.number .absent .configured with
    absentSince := some d.uptime, weight := clamp 0 15 a.weight, tap := a.tap.map (clamp 0 2047) }

theorem Dev.loadStation_new (free : d.station a.seg a.number = none) (room : d.stations.length < 256) :
    d.loadStation a = d.insertStation (d.savedEntry a) :=
  if_neg (by simp [free, Config.stationMax, Nat.not_le.mpr room])

theorem Dev.loadStation_station (free : d.station a.seg a.number = none) (room : d.stations.length < 256) :
    (d.loadStation a).station a.seg a.number = some (d.savedEntry a) ∧
    ∀ h m, (h, m) ≠ (a.seg, a.number) → (d.loadStation a).station h m = d.station h m := by
  rw [Dev.loadStation_new free room]
  refine ⟨find?_insertBy_new free (by simp [Dev.savedEntry, Station.fresh]), fun h m other => find?_insertBy_apart ?_⟩
  rw [Bool.eq_false_iff]
  simp only [ne_eq, Bool.and_eq_true, beq_iff_eq, Dev.savedEntry, Station.fresh]
  rintro ⟨rfl, rfl⟩
  exact other rfl

theorem LoadsFrom.loadStation (h : LoadsFrom u d) (number : stationNumber a.number = true)
    (saved : (a.seg, a.number) ∈ u.stations.map Station.place) : LoadsFrom u (d.loadStation a) := by
  refine ⟨h.sound.loadStation number h.empty, (Dev.loadStation_aliases _ _).trans h.empty,
    ((touches_loadStation d a .uptime (by decide)).symm).trans h.now, fun x hx => ?_⟩
  unfold Dev.loadStation at hx
  split at hx
  · exact h.places x hx
  · obtain rfl | hx := mem_insertBy.mp hx
    · exact saved
    · exact h.places x hx

/-- An entry that a start has made of a saved station (R61). -/
structure LoadedAs (a : SavedStation) (k : Station) : Prop where
  state : k.state = .absent
  since : k.absentSince = some 0
  origin : k.origin = .configured
  role : k.role = .terminal
  weight : k.weight = clamp 0 15 a.weight
  tap : k.tap = a.tap.map (clamp 0 2047)

theorem LoadsFrom.loadedAs (h : LoadsFrom u d) : LoadedAs a (d.savedEntry a) :=
  ⟨rfl, congrArg some h.now, rfl, rfl, rfl, rfl⟩

/-- The stations of a list are loaded, each with its entry, and no others. -/
structure StationsLoaded (u : Dev) (as : List SavedStation) (d : Dev) : Prop extends LoadsFrom u d where
  here : ∀ a ∈ as, ∃ k, d.station a.seg a.number = some k ∧ LoadedAs a k
  only : ∀ g n, (∀ a ∈ as, (a.seg, a.number) ≠ (g, n)) → d.station g n = none

/-- Saved stations of different places, all of a sound part, are all loaded (R61). -/
theorem stationsLoaded (ok : StationsOk u) (from_ : LoadsFrom u d) (none : d.stations = []) (as : List SavedStation)
    (once : (as.map fun a => (a.seg, a.number)).Nodup) (numbers : ∀ a ∈ as, stationNumber a.number = true)
    (saved : ∀ a ∈ as, (a.seg, a.number) ∈ u.stations.map Station.place) :
    StationsLoaded u as (as.foldl Dev.loadStation d) := by
  induction as using List.reverseRecOn with
  | nil =>
    refine ⟨from_, fun a no => absurd no List.not_mem_nil, fun g n _ => ?_⟩
    show List.find? _ d.stations = _
    rw [none]
    rfl
  | append_singleton as b ih =>
    rw [List.map_append, List.nodup_append] at once
    obtain ⟨once, -, apart⟩ := once
    have loaded := ih once (fun a ha => numbers a (List.mem_append_left _ ha)) fun a ha => saved a (List.mem_append_left _ ha)
    have member : b ∈ as ++ [b] := List.mem_append_right _ (List.mem_singleton_self b)
    have other : ∀ a ∈ as, (a.seg, a.number) ≠ (b.seg, b.number) := fun a ha =>
      apart _ (List.mem_map.mpr ⟨a, ha, rfl⟩) _ (List.mem_singleton_self _)
    have free := loaded.only b.seg b.number other
    have room := loaded.room ok (saved b member) free
    obtain ⟨here, others⟩ := Dev.loadStation_station free room
    rw [List.foldl_append]
    refine ⟨loaded.toLoadsFrom.loadStation (numbers b member) (saved b member), fun a ha => ?_, fun g n absent => ?_⟩
    · obtain ha | ha := List.mem_append.mp ha
      · obtain ⟨k, found, same⟩ := loaded.here a ha
        exact ⟨k, (others _ _ (other a ha)).trans found, same⟩
      · obtain rfl := List.mem_singleton.mp ha
        exact ⟨_, here, loaded.loadedAs⟩
    · exact (others g n (Ne.symm (absent b member))).trans
        (loaded.only g n fun a ha => absent a (List.mem_append_left _ ha))

end Sys2Proof.Machine
end

