-- ==== Sys2Proof/Proofs/LoadedPrinters.lean ====
section
/-! The PRINTER table loaded from the image of a sound part, each entry with its station (R166, R168). -/

namespace Sys2Proof.Machine

open Sys2Proof

-- one proof after another: proofs that wait for each other take a thread each
set_option Elab.async false

variable {c d e u : Dev} {g : Seg} {l : List Piece} {i n : Nat} {k : Station} {a : SavedStation} {p : SavedPrinter}

/-- The entry of a saved printer (R166). -/
def SavedPrinter.entry (p : SavedPrinter) : Printer :=
  { Printer.fresh p.seg p.number with
    enabled := p.enabled, jobLimit := clamp 1 8 p.jobLimit, holdTime := clamp 10 3600 p.holdTime,
    busyRetry := clamp 50 5000 p.busyRetry, lostLimit := clamp 1 15 p.lostLimit,
    feed := if p.enabled then .idle else .disabled, awaitingRole := false }

/-- The station entry that a printer's loading creates where none stands (R166). -/
def SavedPrinter.station (p : SavedPrinter) : SavedStation := ⟨p.seg, p.number, 4, none⟩

/-- The part with a station entry for the printer (R166). -/
def Dev.standingFor (d : Dev) (p : SavedPrinter) : Dev :=
  if (d.station p.seg p.number).isSome then d else d.loadStation p.station

theorem Dev.loadPrinter_eq (d : Dev) (p : SavedPrinter) : d.loadPrinter p =
    if ((d.standingFor p).station p.seg p.number).isNone || (d.printerAt p.seg p.number).isSome || (d.printer p.id).isSome
    then d else ((d.standingFor p).makePrinterStation p.seg p.number).setPrinter p.id (some p.entry) := rfl

/-- A printer's station stands: the entry that stood there, or one made for it. -/
theorem LoadsFrom.standingFor (h : LoadsFrom u d) (ok : StationsOk u) (number : stationNumber p.number = true)
    (saved : (p.seg, p.number) ∈ u.stations.map Station.place) : LoadsFrom u (d.standingFor p) ∧
    (∃ k, (d.standingFor p).station p.seg p.number = some k ∧
      (d.station p.seg p.number = some k ∨ d.station p.seg p.number = none ∧ LoadedAs p.station k)) ∧
    ∀ h m, (h, m) ≠ (p.seg, p.number) → (d.standingFor p).station h m = d.station h m := by
  unfold Dev.standingFor
  cases found : d.station p.seg p.number with
  | some k =>
    rw [Option.isSome_some, if_pos rfl]
    exact ⟨h, ⟨k, found, .inl rfl⟩, fun _ _ _ => rfl⟩
  | none =>
    obtain ⟨here, others⟩ := Dev.loadStation_station (a := p.station) found (h.room ok saved found)
    exact ⟨h.loadStation (a := p.station) number saved, ⟨_, here, .inr ⟨rfl, h.loadedAs⟩⟩, others⟩

theorem Dev.standingFor_spool (d : Dev) (p : SavedPrinter) : (d.standingFor p).spool = d.spool := by
  unfold Dev.standingFor
  split
  · rfl
  · exact Dev.loadStation_spool _ _

theorem Dev.makePrinterStation_role (ok : StationsOk d) (found : d.station g n = some k) :
    (d.makePrinterStation g n).station g n = some { k with role := .printer } ∧
    ∀ h m, (h, m) ≠ (g, n) → (d.makePrinterStation g n).station h m = d.station h m := by
  rw [Dev.makePrinterStation, found]
  exact Dev.modStation_station ok.eids found (f := fun e => { e with role := .printer }) fun _ => ⟨rfl, rfl⟩

/-- The printers of a list are loaded, each with its station, and no others. -/
structure PrintersLoaded (u b : Dev) (ps : List SavedPrinter) (d : Dev) : Prop extends LoadsFrom u d where
  here : ∀ p ∈ ps, d.printer p.id = some p.entry
  free : ∀ i, (∀ p ∈ ps, p.id ≠ i) → d.printer i = none
  named : ∀ p ∈ ps, ∃ k, d.station p.seg p.number = some { k with role := .printer } ∧
    (b.station p.seg p.number = some k ∨ b.station p.seg p.number = none ∧ LoadedAs p.station k)
  apart : ∀ g n, (∀ p ∈ ps, (p.seg, p.number) ≠ (g, n)) → d.station g n = b.station g n

theorem PrintersLoaded.unnamed {b : Dev} {ps : List SavedPrinter} (h : PrintersLoaded u b ps d)
    (other : ∀ p ∈ ps, (p.seg, p.number) ≠ (g, n)) : d.printerAt g n = none := by
  refine List.find?_eq_none.mpr fun i _ => ?_
  by_cases named : ∃ p ∈ ps, p.id = i
  · obtain ⟨p, hp, rfl⟩ := named
    rw [h.here p hp]
    simpa [SavedPrinter.entry, Printer.fresh] using other p hp
  · rw [h.free i fun p hp same => named ⟨p, hp, same⟩]
    simp

theorem LoadsFrom.loadPrinter (h : LoadsFrom u d) (ok : StationsOk u) (number : stationNumber p.number = true)
    (saved : (p.seg, p.number) ∈ u.stations.map Station.place) : LoadsFrom u (d.loadPrinter p) := by
  refine ⟨h.sound.loadPrinter number h.empty, (Dev.loadPrinter_aliases _ _).trans h.empty,
    ((touches_loadPrinter d p .uptime (by decide)).symm).trans h.now, fun x hx => ?_⟩
  rw [Dev.loadPrinter_eq] at hx
  split at hx
  · exact h.places x hx
  · have stands : (x.seg, x.number) ∈ ((d.standingFor p).makePrinterStation p.seg p.number).stations.map Station.place :=
      List.mem_map.mpr ⟨x, hx, rfl⟩
    rw [← Dev.station_isSome, Dev.makePrinterStation_station, Dev.station_isSome] at stands
    obtain ⟨y, hy, same⟩ := List.mem_map.mp stands
    have inside := (h.standingFor ok number saved).1.places y hy
    rw [same] at inside
    exact inside

/-- Saved printers of different ids and stations, all of a sound part, are all loaded (R166, R168). -/
theorem printersLoaded {b : Dev} (ok : StationsOk u) (from_ : LoadsFrom u b) (none : ∀ i, b.printer i = none)
    (ps : List SavedPrinter) (ids : (ps.map SavedPrinter.id).Nodup) (once : (ps.map fun p => (p.seg, p.number)).Nodup)
    (numbers : ∀ p ∈ ps, p.id < 8 ∧ stationNumber p.number = true)
    (saved : ∀ p ∈ ps, (p.seg, p.number) ∈ u.stations.map Station.place) :
    PrintersLoaded u b ps (ps.foldl Dev.loadPrinter b) := by
  induction ps using List.reverseRecOn with
  | nil => exact ⟨from_, fun p no => absurd no List.not_mem_nil, fun i _ => none i, fun p no => absurd no List.not_mem_nil,
      fun _ _ _ => rfl⟩
  | append_singleton ps q ih =>
    rw [List.map_append, List.nodup_append] at once ids
    obtain ⟨once, -, places⟩ := once
    obtain ⟨ids, -, names⟩ := ids
    have loaded := ih ids once (fun p hp => numbers p (List.mem_append_left _ hp)) fun p hp =>
      saved p (List.mem_append_left _ hp)
    have member : q ∈ ps ++ [q] := List.mem_append_right _ (List.mem_singleton_self q)
    have other : ∀ p ∈ ps, (p.seg, p.number) ≠ (q.seg, q.number) := fun p hp =>
      places _ (List.mem_map.mpr ⟨p, hp, rfl⟩) _ (List.mem_singleton_self _)
    have renamed : ∀ p ∈ ps, p.id ≠ q.id := fun p hp =>
      names _ (List.mem_map.mpr ⟨p, hp, rfl⟩) _ (List.mem_singleton_self _)
    obtain ⟨small, number⟩ := numbers q member
    rw [List.foldl_append]
    generalize ps.foldl Dev.loadPrinter b = d at loaded
    obtain ⟨standing, ⟨k, stands, origin⟩, apart⟩ := loaded.standingFor ok number (saved q member)
    obtain ⟨printer, others⟩ := Dev.makePrinterStation_role standing.stationsOk stands
    have shape : d.loadPrinter q = ((d.standingFor q).makePrinterStation q.seg q.number).setPrinter q.id (some q.entry) := by
      rw [Dev.loadPrinter_eq, stands, loaded.unnamed other, loaded.free q.id renamed]
      rfl
    have stations : ∀ h m, (d.loadPrinter q).station h m = ((d.standingFor q).makePrinterStation q.seg q.number).station h m :=
      fun h m => by rw [shape]; rfl
    have spool : ((d.standingFor q).makePrinterStation q.seg q.number).spool = d.spool :=
      (Dev.makePrinterStation_spool _ _ _).trans (Dev.standingFor_spool _ _)
    have entries : ∀ i, (d.loadPrinter q).printer i = if q.id = i then some q.entry else d.printer i := fun i => by
      rw [shape, Dev.setPrinter_printer, spool, loaded.length, Dev.printer, spool, Dev.printer]
      by_cases same : q.id = i
      · rw [if_pos ⟨same, small⟩, if_pos same]
      · rw [if_neg (fun h => same h.1), if_neg same]
    have kept : ∀ h m, (h, m) ≠ (q.seg, q.number) → (d.loadPrinter q).station h m = d.station h m := fun h m new =>
      (stations h m).trans ((others h m new).trans (apart h m new))
    refine ⟨loaded.toLoadsFrom.loadPrinter ok number (saved q member), fun p hp => ?_, fun i absent => ?_, fun p hp => ?_,
      fun g n absent => ?_⟩
    · refine (entries p.id).trans ?_
      obtain hp | hp := List.mem_append.mp hp
      · rw [if_neg (Ne.symm (renamed p hp)), loaded.here p hp]
      · obtain rfl := List.mem_singleton.mp hp
        exact if_pos rfl
    · refine (entries i).trans ?_
      rw [if_neg (absent q member), loaded.free i fun p hp => absent p (List.mem_append_left _ hp)]
    · obtain hp | hp := List.mem_append.mp hp
      · obtain ⟨j, found, old⟩ := loaded.named p hp
        exact ⟨j, (kept _ _ (other p hp)).trans found, old⟩
      · obtain rfl := List.mem_singleton.mp hp
        rw [loaded.apart p.seg p.number other] at origin
        exact ⟨k, (stations _ _).trans printer, origin⟩
    · exact (kept g n (Ne.symm (absent q member))).trans (loaded.apart g n fun p hp => absent p (List.mem_append_left _ hp))

end Sys2Proof.Machine
end

