-- ==== Sys2Proof/Proofs/LoadedAliases.lean ====
section
/-! The ALIAS table loaded from the image of a sound part: every saved entry stands, in CONFLICT where a station entry
has its number (R65, R78, R82). -/

namespace Sys2Proof.Machine

open Sys2Proof

-- one proof after another: proofs that wait for each other take a thread each
set_option Elab.async false

variable {c d e u : Dev} {g : Seg} {n : Nat} {a b : SavedAlias}

/-- The entry of a saved STATIC ALIAS, with what the station entries leave of it (R82). -/
def Dev.savedAlias (d : Dev) (a : SavedAlias) : AliasEntry :=
  ⟨a.seg, a.number, .static, a.target, if (d.station a.seg a.number).isSome then .conflict else .active, 0, 0⟩

/-- The two saved entries can stand in one table (R65). -/
def SavedAlias.Apart (a b : SavedAlias) : Prop := a.seg = b.seg → a.number ≠ b.number ∧ a.target ≠ b.target

/-- An entry put among entries of other keys is the one that a change of its key changes. -/
theorem mem_modifyFirst_insertBy {α : Type} {p : α → Bool} {f : α → α} {lt : α → α → Bool} {x y : α} {as : List α}
    (here : p x = true) (others : ∀ y ∈ as, p y = false) :
    y ∈ modifyFirst p f (insertBy lt x as) ↔ y = f x ∨ y ∈ as := by
  induction as with
  | nil => simp [insertBy, modifyFirst, here]
  | cons z as ih =>
    have apart := others z List.mem_cons_self
    have ih := ih fun y hy => others y (List.mem_cons_of_mem _ hy)
    rw [insertBy]
    split
    · simp [modifyFirst, here]
    · simp only [modifyFirst, apart, Bool.false_eq_true, if_false, List.mem_cons, ih]
      exact or_left_comm

theorem length_insertBy {α : Type} {lt : α → α → Bool} {x : α} {as : List α} :
    (insertBy lt x as).length = as.length + 1 := (insertBy_perm lt x as).length_eq

/-- A saved entry that clashes with none finds its place in a table with room (R82). -/
theorem Dev.loadAlias_new (now : d.uptime = 0) (room : d.aliases.length < 128)
    (apart : ∀ x ∈ d.aliases, x.seg = a.seg → x.number ≠ a.number ∧ x.target ≠ a.target) :
    (d.loadAlias a).aliases.length = d.aliases.length + 1 ∧
    ∀ x, x ∈ (d.loadAlias a).aliases ↔ x = d.savedAlias a ∨ x ∈ d.aliases := by
  have clashless : (d.aliases.any fun b => b.seg == a.seg && (b.number == a.number || b.target == a.target)) = false := by
    rw [List.any_eq_false]
    intro x hx
    simp only [Bool.and_eq_true, Bool.or_eq_true, beq_iff_eq, not_and, not_or]
    exact apart x hx
  have others : ∀ x ∈ d.aliases, (x.seg == a.seg && x.number == a.number) = false := fun x hx => by
    simp only [Bool.and_eq_false_iff, beq_eq_false_iff_ne]
    exact Decidable.or_iff_not_imp_left.mpr fun same => (apart x hx (not_not.mp same)).1
  have shape : d.loadAlias a = if (d.station a.seg a.number).isSome then
      (d.addAlias ⟨a.seg, a.number, .static, a.target, .active, d.uptime, d.uptime⟩).conflictCheck a.seg a.number else
      d.addAlias ⟨a.seg, a.number, .static, a.target, .active, d.uptime, d.uptime⟩ :=
    if_neg (by simp [clashless, Config.aliasMax, Nat.not_le.mpr room])
  rw [shape, now, Dev.savedAlias]
  split
  · have found : (d.addAlias ⟨a.seg, a.number, .static, a.target, .active, 0, 0⟩).aliasAt a.seg a.number =
        some ⟨a.seg, a.number, .static, a.target, .active, 0, 0⟩ :=
      find?_insertBy_new (List.find?_eq_none.mpr fun x hx => by simp [others x hx]) (by simp)
    have table : ((d.addAlias ⟨a.seg, a.number, .static, a.target, .active, 0, 0⟩).conflictCheck a.seg a.number).aliases =
        modifyFirst (fun x => x.seg == a.seg && x.number == a.number) (fun x => { x with state := .conflict })
          (d.addAlias ⟨a.seg, a.number, .static, a.target, .active, 0, 0⟩).aliases := by
      rw [Dev.conflictCheck, found]
      exact (touches_raise _ _ _ .aliases (by decide)).symm
    rw [table]
    refine ⟨?_, fun x => mem_modifyFirst_insertBy (by simp) others⟩
    rw [length_modifyFirst]
    exact length_insertBy
  · exact ⟨length_insertBy, fun x => mem_addAlias⟩

/-- The saved entries of a list stand in the table, and no others. -/
structure AliasesLoaded (b : Dev) (l : List SavedAlias) (d : Dev) : Prop where
  now : d.uptime = 0
  stations : d.stations = b.stations
  length : d.aliases.length = l.length
  members : ∀ x, x ∈ d.aliases ↔ ∃ a ∈ l, x = b.savedAlias a

/-- Saved entries that can stand in one table, no more than it holds, are all loaded (R82). -/
theorem aliasesLoaded {b : Dev} (now : b.uptime = 0) (empty : b.aliases = []) (l : List SavedAlias)
    (fits : l.length ≤ 128) (apart : l.Pairwise SavedAlias.Apart) : AliasesLoaded b l (l.foldl Dev.loadAlias b) := by
  induction l using List.reverseRecOn with
  | nil => exact ⟨now, rfl, by simp [empty], fun x => by simp [empty]⟩
  | append_singleton l a ih =>
    rw [List.length_append, List.length_singleton] at fits
    rw [List.pairwise_append] at apart
    obtain ⟨apart, -, last⟩ := apart
    obtain ⟨now, stations, length, members⟩ := ih (by omega) apart
    rw [List.foldl_append]
    generalize l.foldl Dev.loadAlias b = d at now stations length members
    have saved : d.savedAlias a = b.savedAlias a := by unfold Dev.savedAlias Dev.station; rw [stations]
    obtain ⟨longer, joined⟩ := Dev.loadAlias_new (a := a) now (by omega) fun x hx same => by
      obtain ⟨c, hc, rfl⟩ := (members x).mp hx
      exact last c hc a (List.mem_singleton_self a) same
    have framed := touches_loadAlias d a
    refine ⟨(framed .uptime (by decide)).symm.trans now, (framed .stations (by decide)).symm.trans stations, ?_, fun x => ?_⟩
    · rw [List.length_append, List.length_singleton, ← length]
      exact longer
    · refine (joined x).trans ?_
      rw [members, saved]
      simp only [List.mem_append, List.mem_singleton, or_and_right, exists_or, exists_eq_left]
      exact or_comm

end Sys2Proof.Machine
end

