-- ==== Sys2Proof/Proofs/ImageStarts.lean ====
section
/-! COLD_START of a part whose image area holds an image taken from a sound part (R61, R82, R166, R201, R204). -/

namespace Sys2Proof.Machine

open Sys2Proof

-- one proof after another: proofs that wait for each other take a thread each
set_option Elab.async false

variable {d u : Dev} {g : Seg} {n i : Nat} {p : SavedPrinter} {q : Printer}

/-- A part whose invariants hold and whose base address keeps its rule (R63, R199). -/
structure SoundPart (u : Dev) : Prop where
  settings : SettingsOk u
  base : u.set.base.toNat % 1024 = 0
  stations : StationsOk u
  aliases : AliasesOk u
  rules : AliasRulesOk u
  lists : ListsOk u
  printers : PrintersOk u

namespace SoundPart

/-! ### The saved entries -/

/-- The saved fields of a printer's entry (R201). -/
def saving (i : Nat) (q : Printer) : SavedPrinter :=
  ⟨i, q.seg, q.number, q.enabled, q.jobLimit, q.holdTime, q.busyRetry, q.lostLimit⟩

theorem mem_printers : p ∈ u.takeImage.printers ↔ ∃ i < 8, ∃ q, u.printer i = some q ∧ p = saving i q := by
  show p ∈ (printerIds.filterMap fun i => (u.printer i).map (saving i)) ↔ _
  simp only [List.mem_filterMap, printerIds, List.mem_range, Option.map_eq_some_iff]
  exact exists_congr fun i => and_congr_right fun _ => exists_congr fun q => and_congr_right fun _ => eq_comm

theorem lt (h : SoundPart u) (found : u.printer i = some q) : i < 8 := by
  obtain ⟨places, -⟩ := h.lists
  exact (Dev.printer_lt found).trans_eq places

theorem saving_mem (h : SoundPart u) (found : u.printer i = some q) : saving i q ∈ u.takeImage.printers :=
  mem_printers.mpr ⟨i, h.lt found, q, found, rfl⟩

theorem printerAt_isSome : (u.printerAt g n).isSome = true ↔ ∃ p ∈ u.takeImage.printers, (p.seg, p.number) = (g, n) := by
  rw [Dev.printerAt, List.find?_isSome]
  constructor
  · rintro ⟨i, small, named⟩
    cases found : u.printer i with
    | none => simp [found] at named
    | some q =>
      simp only [found, Bool.and_eq_true, beq_iff_eq] at named
      obtain ⟨rfl, rfl⟩ := named
      exact ⟨saving i q, mem_printers.mpr ⟨i, List.mem_range.mp small, q, found, rfl⟩, rfl⟩
  · rintro ⟨p, member, same⟩
    obtain ⟨i, small, q, found, rfl⟩ := mem_printers.mp member
    obtain ⟨rfl, rfl⟩ := Prod.mk.inj same
    exact ⟨i, List.mem_range.mpr small, by simp [found, saving]⟩

theorem saved_printer (h : SoundPart u) (member : p ∈ u.takeImage.printers) :
    (p.seg, p.number) ∈ u.stations.map Station.place := by
  obtain ⟨i, -, q, found, rfl⟩ := mem_printers.mp member
  obtain ⟨stands, -⟩ := h.printers
  exact Dev.station_isSome.mp (stands _ q found).1

theorem printer_ids : (u.takeImage.printers.map SavedPrinter.id).Nodup := by
  have ids : u.takeImage.printers.map SavedPrinter.id = printerIds.filter fun i => (u.printer i).isSome := by
    show (printerIds.filterMap fun i => (u.printer i).map (saving i)).map SavedPrinter.id = _
    induction printerIds with
    | nil => rfl
    | cons i l ih =>
      cases found : u.printer i with
      | none => simpa [found] using ih
      | some q => simpa [found, saving] using ih
  rw [ids]
  exact List.nodup_range.filter _

theorem printer_places (h : SoundPart u) : (u.takeImage.printers.map fun p => (p.seg, p.number)).Nodup := by
  have once : u.takeImage.printers.Nodup := List.Nodup.of_map _ printer_ids
  obtain ⟨-, own, -⟩ := h.printers
  refine (List.nodup_map_iff_inj_on once).mpr fun a ha b hb same => ?_
  obtain ⟨i, -, x, foundX, rfl⟩ := mem_printers.mp ha
  obtain ⟨j, -, y, foundY, rfl⟩ := mem_printers.mp hb
  obtain rfl := own i j x y foundX foundY same
  rw [Option.some.inj (foundX.symm.trans foundY)]

theorem mem_stations {a : SavedStation} : a ∈ u.takeImage.stations ↔
    ∃ e ∈ u.stations, e.origin = .configured ∧ a = ⟨e.seg, e.number, e.weight, e.tap⟩ := by
  show a ∈ (u.stations.filter _).map _ ↔ _
  simp only [List.mem_map, List.mem_filter, beq_iff_eq, and_assoc, eq_comm (b := a)]

theorem saved_station {a : SavedStation} (member : a ∈ u.takeImage.stations) :
    (a.seg, a.number) ∈ u.stations.map Station.place := by
  obtain ⟨e, he, -, rfl⟩ := mem_stations.mp member
  exact List.mem_map.mpr ⟨e, he, rfl⟩

theorem station_places (h : SoundPart u) : (u.takeImage.stations.map fun a => (a.seg, a.number)).Nodup := by
  have same : u.takeImage.stations.map (fun a => (a.seg, a.number)) =
      (u.stations.filter fun e => e.origin == .configured).map Station.place := by
    show ((u.stations.filter _).map _).map _ = _
    rw [List.map_map]
    rfl
  rw [same]
  exact h.stations.places.sublist (List.filter_sublist.map _)

theorem number_of_saved (h : SoundPart u) (saved : (g, n) ∈ u.stations.map Station.place) : stationNumber n = true := by
  obtain ⟨numbers, -⟩ := h.rules
  obtain ⟨e, he, same⟩ := List.mem_map.mp saved
  obtain ⟨-, rfl⟩ := Prod.mk.inj same
  exact stationNumber_iff.mpr (numbers e he)

theorem mem_aliases {a : SavedAlias} : a ∈ u.takeImage.aliases ↔
    ∃ b ∈ u.aliases, b.kind = .static ∧ a = ⟨b.seg, b.number, b.target⟩ := by
  show a ∈ (u.aliases.filter _).map _ ↔ _
  simp only [List.mem_map, List.mem_filter, beq_iff_eq, and_assoc, eq_comm (b := a)]

theorem aliases_fit (h : SoundPart u) : u.takeImage.aliases.length ≤ 128 := by
  obtain ⟨-, most⟩ := h.aliases
  show ((u.aliases.filter _).map _).length ≤ 128
  rw [List.length_map]
  exact (List.length_filter_le _ _).trans most

theorem aliases_apart (h : SoundPart u) : u.takeImage.aliases.Pairwise SavedAlias.Apart := by
  obtain ⟨order, -⟩ := h.aliases
  obtain ⟨-, -, targets⟩ := h.rules
  have numbers : u.aliases.Pairwise fun a b => a.place ≠ b.place := List.pairwise_map.mp (ascending_nodup order)
  show ((u.aliases.filter _).map _).Pairwise _
  rw [List.pairwise_map, List.pairwise_filter]
  refine (numbers.and targets).imp fun {a b} both static static' segs => ?_
  obtain ⟨place, target⟩ := both
  rw [beq_iff_eq] at static static'
  exact ⟨fun same => place (Prod.ext segs same), fun same => target ⟨segs, same, .inl ⟨static, static'⟩⟩⟩

/-! ### The image is used -/

theorem image_sound (h : SoundPart u) : u.takeImage.sound = true := by
  obtain ⟨range, sound, segs⟩ := h.settings
  obtain ⟨-, entries, -⟩ := h.rules
  refine StoredImage.sound_iff.mpr ⟨?_, fun g => ?_, fun a ha => h.number_of_saved (saved_station ha), fun a ha => ?_,
    fun p hp => ⟨?_, h.number_of_saved (h.saved_printer hp)⟩⟩
  · show u.set.inRange.sound = true
    rw [range]
    have base := h.base
    simp only [Settings.sound, Bool.and_eq_true, beq_iff_eq] at sound ⊢
    obtain ⟨⟨⟨⟨⟨⟨⟨⟨-, h1⟩, h2⟩, h3⟩, h4⟩, h5⟩, h6⟩, h7⟩, h8⟩ := sound
    exact ⟨⟨⟨⟨⟨⟨⟨⟨base, h1⟩, h2⟩, h3⟩, h4⟩, h5⟩, h6⟩, h7⟩, h8⟩
  · have cfg : u.takeImage.segs.get g = (u.seg g).cfg := by cases g <;> rfl
    obtain ⟨same, sound⟩ := segs g
    rw [cfg, same]
    exact sound
  · obtain ⟨b, hb, -, rfl⟩ := mem_aliases.mp ha
    obtain ⟨low, high, target, -⟩ := entries b hb
    exact ⟨stationNumber_iff.mpr ⟨low, high⟩, target⟩
  · obtain ⟨i, small, q, -, rfl⟩ := mem_printers.mp hp
    exact small

theorem usable (h : SoundPart u) : (ImageArea.stored u.takeImage true).usable = some u.takeImage :=
  if_pos h.image_sound

theorem start_set (h : SoundPart u) : (d.startSettings (some u.takeImage)).1 = u.set := h.settings.1

theorem start_cfg (h : SoundPart u) (g : Seg) : (d.startSettings (some u.takeImage)).2.get g = (u.seg g).cfg := by
  obtain ⟨-, -, segs⟩ := h.settings
  refine Eq.trans ?_ (segs g).1
  cases g <;> rfl

/-! ### The tables of the start -/

/-- The three tables as the start has loaded them from the part's image. -/
structure Loaded (u t : Dev) : Prop where
  stations : ∀ g n, (t.station g n).isSome = true ↔
    (∃ e, u.station g n = some e ∧ e.origin = .configured) ∨ (u.printerAt g n).isSome = true
  configured : ∀ g n e, u.station g n = some e → e.origin = .configured → ∃ k, t.station g n = some k ∧
    k.state = .absent ∧ k.absentSince = some 0 ∧ k.origin = .configured ∧ k.weight = e.weight ∧ k.tap = e.tap ∧
    k.role = if (u.printerAt g n).isSome then .printer else .terminal
  named : ∀ i p, u.printer i = some p → ∃ k, t.station p.seg p.number = some k ∧ k.role = .printer ∧
    k.state = .absent ∧ k.origin = .configured
  printers : ∀ i, t.printer i = (u.printer i).map fun p => { Printer.fresh p.seg p.number with
    enabled := p.enabled, jobLimit := p.jobLimit, holdTime := p.holdTime, busyRetry := p.busyRetry,
    lostLimit := p.lostLimit, feed := if p.enabled then .idle else .disabled, awaitingRole := false }
  aliases : ∀ a, a ∈ t.aliases ↔ ∃ b ∈ u.aliases, b.kind = .static ∧ a =
    ⟨b.seg, b.number, .static, b.target, if (t.station b.seg b.number).isSome then .conflict else .active, 0, 0⟩

theorem loadsFrom (d : Dev) : LoadsFrom u d.coldBase :=
  ⟨Sound.blankWith (by constructor <;> (intros; trivial)) d (startSettings_ok d.blank (a := d.agent.image)), rfl, rfl,
    fun _ no => absurd no List.not_mem_nil⟩

/-- The image's stations, then its printers, then its STATIC entries are loaded. -/
theorem loadedTables (h : SoundPart u) (used : d.agent.image.usable = some u.takeImage) :
    ∃ b c, StationsLoaded u u.takeImage.stations b ∧ PrintersLoaded u b u.takeImage.printers c ∧
      AliasesLoaded c u.takeImage.aliases (d.coldBase.loadImage d.agent.image.usable) ∧
      (d.coldBase.loadImage d.agent.image.usable).spool.printers = c.spool.printers := by
  have stations := stationsLoaded h.stations (loadsFrom d) rfl u.takeImage.stations h.station_places
    (fun a ha => h.number_of_saved (saved_station ha)) fun a ha => saved_station ha
  have unprinted : ∀ i, (u.takeImage.stations.foldl Dev.loadStation d.coldBase).printer i = none := fun i => by
    rw [Dev.printer, foldl_same Dev.spool Dev.loadStation_spool]
    exact Dev.blankWith_printer _ _ i
  have printers := printersLoaded h.stations stations.toLoadsFrom unprinted u.takeImage.printers printer_ids
    h.printer_places (fun p hp => ⟨by obtain ⟨i, small, q, -, rfl⟩ := mem_printers.mp hp; exact small,
      h.number_of_saved (h.saved_printer hp)⟩) fun p hp => h.saved_printer hp
  have aliases := aliasesLoaded printers.now printers.empty u.takeImage.aliases h.aliases_fit h.aliases_apart
  have same : ∀ e : Dev, (u.takeImage.aliases.foldl Dev.loadAlias e).spool.printers = e.spool.printers :=
    foldl_same (fun e => e.spool.printers) (fun e a => (touches_loadAlias e a .printers (by decide)).symm) _
  rw [used]
  exact ⟨_, _, stations, printers, aliases, same _⟩

variable {b c : Dev} {k : Station} {e : Station}

/-- Every loaded entry is that of a saved station. -/
theorem saved_of_loaded (h : SoundPart u) (loaded : StationsLoaded u u.takeImage.stations b) (found : b.station g n = some k) :
    ∃ e, u.station g n = some e ∧ e.origin = .configured ∧ LoadedAs ⟨g, n, e.weight, e.tap⟩ k := by
  have listed : ∃ a ∈ u.takeImage.stations, (a.seg, a.number) = (g, n) := by
    by_contra none
    exact nomatch found.symm.trans (loaded.only g n fun a ha same => none ⟨a, ha, same⟩)
  obtain ⟨a, ha, same⟩ := listed
  obtain ⟨e, member, configured, rfl⟩ := mem_stations.mp ha
  obtain ⟨rfl, rfl⟩ := Prod.mk.inj same
  obtain ⟨j, there, made⟩ := loaded.here _ ha
  obtain rfl := Option.some.inj (there.symm.trans found)
  exact ⟨e, h.stations.station_of_mem member, configured, made⟩

theorem loaded_of_saved (loaded : StationsLoaded u u.takeImage.stations b) (saved : u.station g n = some e)
    (configured : e.origin = .configured) : ∃ k, b.station g n = some k ∧ LoadedAs ⟨g, n, e.weight, e.tap⟩ k := by
  obtain ⟨member, rfl, rfl⟩ := Dev.station_mem saved
  exact loaded.here ⟨e.seg, e.number, e.weight, e.tap⟩ (mem_stations.mpr ⟨e, member, configured, rfl⟩)

theorem weight_tap (h : SoundPart u) (saved : u.station g n = some e) (loaded : LoadedAs ⟨g, n, e.weight, e.tap⟩ k) :
    k.weight = e.weight ∧ k.tap = e.tap := by
  obtain ⟨-, -, ranges⟩ := h.printers
  obtain ⟨weight, tap⟩ := ranges e (Dev.station_mem saved).1
  refine ⟨loaded.weight.trans ((clamp_eq_iff (by decide)).mpr ⟨Nat.zero_le _, weight⟩), loaded.tap.trans ?_⟩
  show e.tap.map (clamp 0 2047) = e.tap
  cases there : e.tap with
  | none => rfl
  | some m => exact congrArg some ((clamp_eq_iff (by decide)).mpr ⟨Nat.zero_le _, tap m there⟩)

/-- A station that a printer names, after the printers have loaded (R168). -/
theorem named_station (h : SoundPart u) (loaded : StationsLoaded u u.takeImage.stations b)
    (printed : PrintersLoaded u b u.takeImage.printers c) (named : (u.printerAt g n).isSome = true) :
    ∃ k, c.station g n = some { k with role := .printer } ∧ k.state = .absent ∧ k.origin = .configured ∧
      (b.station g n = some k ∨ b.station g n = none) := by
  obtain ⟨p, member, same⟩ := printerAt_isSome.mp named
  obtain ⟨rfl, rfl⟩ := Prod.mk.inj same
  obtain ⟨k, found, there | ⟨free, made⟩⟩ := printed.named p member
  · obtain ⟨e, -, -, made⟩ := h.saved_of_loaded loaded there
    exact ⟨k, found, made.state, made.origin, .inl there⟩
  · exact ⟨k, found, made.state, made.origin, .inr free⟩

theorem unnamed_station (printed : PrintersLoaded u b u.takeImage.printers c) (unnamed : ¬ (u.printerAt g n).isSome = true) :
    c.station g n = b.station g n :=
  printed.apart g n fun p member same => unnamed (printerAt_isSome.mpr ⟨p, member, same⟩)

theorem loaded_iff (h : SoundPart u) (loaded : StationsLoaded u u.takeImage.stations b)
    (printed : PrintersLoaded u b u.takeImage.printers c) : (c.station g n).isSome = true ↔
      (∃ e, u.station g n = some e ∧ e.origin = .configured) ∨ (u.printerAt g n).isSome = true := by
  by_cases named : (u.printerAt g n).isSome = true
  · obtain ⟨k, found, -⟩ := h.named_station loaded printed named
    simp [found, named]
  · rw [unnamed_station printed named, or_iff_left named, Option.isSome_iff_exists]
    constructor
    · rintro ⟨k, found⟩
      obtain ⟨e, saved, configured, -⟩ := h.saved_of_loaded loaded found
      exact ⟨e, saved, configured⟩
    · rintro ⟨e, saved, configured⟩
      obtain ⟨k, found, -⟩ := loaded_of_saved loaded saved configured
      exact ⟨k, found⟩

theorem loaded_configured (h : SoundPart u) (loaded : StationsLoaded u u.takeImage.stations b)
    (printed : PrintersLoaded u b u.takeImage.printers c) (saved : u.station g n = some e)
    (configured : e.origin = .configured) : ∃ k, c.station g n = some k ∧
      k.state = .absent ∧ k.absentSince = some 0 ∧ k.origin = .configured ∧ k.weight = e.weight ∧ k.tap = e.tap ∧
      k.role = if (u.printerAt g n).isSome then .printer else .terminal := by
  obtain ⟨k, there, made⟩ := loaded_of_saved loaded saved configured
  obtain ⟨weight, tap⟩ := h.weight_tap saved made
  by_cases named : (u.printerAt g n).isSome = true
  · obtain ⟨j, found, -, -, same | free⟩ := h.named_station loaded printed named
    · obtain rfl := Option.some.inj (there.symm.trans same)
      exact ⟨_, found, made.state, made.since, made.origin, weight, tap, (if_pos named).symm⟩
    · exact nomatch there.symm.trans free
  · rw [unnamed_station printed named]
    exact ⟨k, there, made.state, made.since, made.origin, weight, tap, made.role.trans (if_neg named).symm⟩

theorem loaded_printer (h : SoundPart u) (printed : PrintersLoaded u b u.takeImage.printers c) (i : Nat) :
    c.printer i = (u.printer i).map fun p => { Printer.fresh p.seg p.number with
      enabled := p.enabled, jobLimit := p.jobLimit, holdTime := p.holdTime, busyRetry := p.busyRetry,
      lostLimit := p.lostLimit, feed := if p.enabled then .idle else .disabled, awaitingRole := false } := by
  cases found : u.printer i with
  | none =>
    refine printed.free i fun p member same => ?_
    obtain ⟨j, -, q, there, rfl⟩ := mem_printers.mp member
    obtain rfl : j = i := same
    exact nomatch found.symm.trans there
  | some q =>
    obtain ⟨ranges, -⟩ := h.printers
    obtain ⟨-, limit, hold, retry, lost⟩ := ranges i q found
    refine (printed.here (saving i q) (h.saving_mem found)).trans ?_
    rw [Option.map_some, SavedPrinter.entry, saving, limit, hold, retry, lost]

theorem loaded (h : SoundPart u) (used : d.agent.image.usable = some u.takeImage) {t : Dev}
    (stations : (d.coldBase.loadImage d.agent.image.usable).stations = t.stations)
    (aliases : (d.coldBase.loadImage d.agent.image.usable).aliases = t.aliases)
    (printers : (d.coldBase.loadImage d.agent.image.usable).spool.printers = t.spool.printers) : Loaded u t := by
  obtain ⟨b, c, first, printed, last, spool⟩ := h.loadedTables used
  have stands : ∀ g n, t.station g n = c.station g n := fun g n => by
    rw [Dev.station, ← stations, last.stations, Dev.station]
  refine ⟨fun g n => ?_, fun g n e saved configured => ?_, fun i p found => ?_, fun i => ?_, fun a => ?_⟩
  · rw [stands]
    exact h.loaded_iff first printed
  · rw [stands]
    exact h.loaded_configured first printed saved configured
  · rw [stands]
    obtain ⟨k, there, state, origin, -⟩ := h.named_station first printed
      (printerAt_isSome.mpr ⟨_, h.saving_mem found, rfl⟩)
    exact ⟨_, there, rfl, state, origin⟩
  · rw [Dev.printer, ← printers, spool]
    exact h.loaded_printer printed i
  · rw [← aliases, last.members]
    simp only [stands]
    constructor
    · rintro ⟨x, member, rfl⟩
      obtain ⟨b, hb, static, rfl⟩ := mem_aliases.mp member
      exact ⟨b, hb, static, rfl⟩
    · rintro ⟨b, hb, static, rfl⟩
      exact ⟨_, mem_aliases.mpr ⟨b, hb, static, rfl⟩, rfl⟩

end SoundPart

/-! ### The three kinds of start -/

theorem touches_started (d : Dev) : Touches ([.link, .mon, .txEnable, .probe] ++ Piece.raised)
    (d.coldBase.loadImage d.agent.image.usable) d.coldStart := by
  have ready : Touches (.link :: Piece.raised) (d.coldBase.loadImage d.agent.image.usable) d.coldReady :=
    Touches.then (touches_coldEvents d) (touches_receiver _)
  rw [Dev.coldStart_eq]
  exact Touches.then ready (touches_startSegments _)

/-- A start from the image of a sound part (R61, R62, R82, R166). -/
theorem SoundPart.coldStart (h : SoundPart u) (stored : d.agent.image = .stored u.takeImage true) :
    d.coldStart.set = u.set ∧ (∀ g, (d.coldStart.seg g).cfg = (u.seg g).cfg) ∧ Loaded u d.coldStart := by
  have used : d.agent.image.usable = some u.takeImage := by rw [stored]; exact h.usable
  have framed := touches_started d
  have settings : d.coldBase.set = u.set := by
    show (d.blank.startSettings d.agent.image.usable).1 = u.set
    rw [used]
    exact h.start_set
  refine ⟨((touches_coldStart d) .settings (by decide)).symm.trans settings, fun g => ?_,
    h.loaded used (framed .stations (by decide)) (framed .aliases (by decide)) (framed .printers (by decide))⟩
  obtain ⟨-, -, -, -, -, cfg⟩ := d.coldStart_seg g
  rw [cfg, used]
  exact h.start_cfg g

/-- What a start that leaves these pieces of the blank part alone starts over (R204). -/
theorem blank_kept {t : Dev} (framed : Touches ([.link, .mon, .txEnable, .probe] ++ Piece.loading) d.coldBase t) :
    t.uptime = 0 ∧ t.pool = ⟨2048, 0, 0⟩ ∧ t.spool.jobs = [] ∧ t.spool.finished = [] ∧ t.spool.nextId = 1 ∧
    t.agent.queue = [] ∧ t.agent.running = none ∧ t.agent.saving = none ∧ t.agent.image = d.agent.image ∧
    t.agent.identityArea = d.agent.identityArea := by
  obtain ⟨requests, running⟩ := framed .requests (by decide)
  obtain ⟨saving, -, image⟩ := framed .store (by decide)
  exact ⟨(framed .uptime (by decide)).symm, (framed .pool (by decide)).symm, (framed .jobs (by decide)).symm,
    (framed .finished (by decide)).symm, (framed .jobNames (by decide)).1.symm, requests.symm, running.symm, saving.symm,
    image.symm, (framed .identity (by decide)).2.symm⟩

/-- Settles O8: the blank part under the settings of the start, its tables loaded, its segments started. -/
theorem coldStartStartsOver : Obligations.ColdStartStartsOver := by
  unfold Obligations.ColdStartStartsOver
  refine ⟨fun s blank => next_congr s (Dev.coldStart_blank blank), fun s => ⟨_, rfl, rfl, ?_⟩,
    fun s u settings base stations aliases rules lists printers stored => ⟨_, rfl, rfl, ?_⟩⟩
  · obtain ⟨link, receiver, queue, pause, hold⟩ := s.dev.coldStart_uplink
    obtain ⟨uptime, pool, jobs, finished, nextId, requests, running, saving, image, area⟩ :=
      blank_kept (touches_coldStart s.dev)
    have segs := s.dev.coldStart_seg
    dsimp only
    generalize s.dev.coldStart = t at *
    refine ⟨uptime, pool, link, receiver, queue, pause, hold, jobs, finished, nextId, requests, running, saving, image,
      area, fun g => ?_⟩
    obtain ⟨downq, record, last, enable, state, -⟩ := segs g
    exact ⟨downq, record, last, enable, state⟩
  · obtain ⟨set, cfg, loaded⟩ := (SoundPart.mk settings base stations aliases rules lists printers).coldStart stored
    dsimp only
    generalize s.dev.coldStart = t at *
    exact ⟨set, cfg, loaded.stations, loaded.configured, loaded.named, loaded.printers, loaded.aliases⟩

end Sys2Proof.Machine
end
